-- ==== Sys2Proof/Word.lean ====
section
/-! DEFINITION. The word types of the KZ9 and their plainest arithmetic (spec/00_scope.md R3). -/

namespace Sys2Proof

/-- A doubleword: x-registers, f-registers, CSRs, addresses. -/
abbrev Word := BitVec 64

/-- A parcel of the instruction stream (R26). -/
abbrev Parcel := BitVec 32

/-- A command word (spec/02 R43). -/
abbrev CmdWord := BitVec 256

/-- One byte of memory. -/
abbrev Byte := BitVec 8

/-- A register number. -/
abbrev Reg := BitVec 5

/-- The doubleword of a natural number, modulo 2^64. -/
abbrev word (n : Nat) : Word := BitVec.ofNat 64 n

end Sys2Proof
end

