-- ==== Sys2Proof/Syntax.lean ====
section
/-! DEFINITION. The syntax of the KZ9: one constructor of `Instr` for each row of spec/opcode_table.json.
Rows that stand for a class of standard instructions carry an operation; rows that are steps of the hardware,
the host or the debugger carry the agent that moves and the input it brings. -/

namespace Sys2Proof

/-- Scopes, spec/02 R31. -/
inductive Scope where
  | core | bench | die | pkg | sys
deriving DecidableEq, Repr

/-- Access sizes, spec/02 R32. -/
inductive Size where
  | b | h | w | d
deriving DecidableEq, Repr

/-- Engine queues, spec/02 R38: `eqm`, `eqv`, `eqc`, `eqp`. -/
inductive Queue where
  | eqm | eqv | eqc | eqp
deriving DecidableEq, Repr

/-- A core of a context: its ASID and the logical core number that the core holds (spec/11 R260). -/
structure CoreId where
  asid : Nat
  l    : Nat
deriving DecidableEq, Repr

/-! ### Standard RISC-V classes (spec/02 R29) -/

inductive LoadOp where
  | lb | lh | lw | ld | lbu | lhu | lwu | flh | flw | fld
deriving DecidableEq, Repr

inductive StoreOp where
  | sb | sh | sw | sd | fsh | fsw | fsd
deriving DecidableEq, Repr

inductive AmoOp where
  | swap | add | xor | and | or | min | max | minu | maxu
deriving DecidableEq, Repr

inductive CsrOp where
  | rw | rs | rc
deriving DecidableEq, Repr

/-- Register-register operations of RV64IM, Zba and Zbb. -/
inductive RROp where
  | add | sub | sll | slt | sltu | xor | srl | sra | or | and
  | addw | subw | sllw | srlw | sraw
  | mul | mulh | mulhsu | mulhu | div | divu | rem | remu
  | mulw | divw | divuw | remw | remuw
  | adduw | sh1add | sh2add | sh3add | sh1adduw | sh2adduw | sh3adduw
  | andn | orn | xnor | min | minu | max | maxu | rol | ror | rolw | rorw
deriving DecidableEq, Repr

/-- Unary operations of Zbb. -/
inductive UnOp where
  | clz | ctz | cpop | clzw | ctzw | cpopw | sextb | sexth | zexth | orcb | rev8
deriving DecidableEq, Repr

/-- Operations with a 12-bit immediate; all of them accept `imx` (R35). -/
inductive ImmOp where
  | addi | slti | sltiu | xori | ori | andi | addiw
deriving DecidableEq, Repr

/-- Shifts by an immediate. -/
inductive ShOp where
  | slli | srli | srai | rori | slliuw | slliw | srliw | sraiw | roriw
deriving DecidableEq, Repr

/-- The computational instructions of RV64IM, Zba and Zbb. -/
inductive IntegerOp where
  | rr    (op : RROp) (rd rs1 rs2 : Reg)
  | un    (op : UnOp) (rd rs1 : Reg)
  | imm   (op : ImmOp) (rd rs1 : Reg) (imm : BitVec 12)
  | shift (op : ShOp) (rd rs1 : Reg) (sh : BitVec 6)
  | lui   (rd : Reg) (imm : BitVec 20)
  | auipc (rd : Reg) (imm : BitVec 20)
deriving DecidableEq, Repr

/-- Floating formats of F, D and Zfh. -/
inductive FFmt where
  | s | d | h
deriving DecidableEq, Repr

inductive FmaOp where
  | madd | msub | nmsub | nmadd
deriving DecidableEq, Repr

inductive FArith where
  | add | sub | mul | div
deriving DecidableEq, Repr

inductive FSgn where
  | sgnj | sgnjn | sgnjx
deriving DecidableEq, Repr

inductive FCmp where
  | le | lt | eq
deriving DecidableEq, Repr

/-- Integer formats of a conversion: `w`, `wu`, `l`, `lu`. -/
inductive IFmt where
  | w | wu | l | lu
deriving DecidableEq, Repr

/-- The instructions of F, D and Zfh; `rm` is the rounding-mode field. -/
inductive FloatOp where
  | fma    (op : FmaOp) (fmt : FFmt) (rd rs1 rs2 rs3 : Reg) (rm : BitVec 3)
  | arith  (op : FArith) (fmt : FFmt) (rd rs1 rs2 : Reg) (rm : BitVec 3)
  | sqrt   (fmt : FFmt) (rd rs1 : Reg) (rm : BitVec 3)
  | sgnj   (op : FSgn) (fmt : FFmt) (rd rs1 rs2 : Reg)
  | minmax (max : Bool) (fmt : FFmt) (rd rs1 rs2 : Reg)
  | cmp    (op : FCmp) (fmt : FFmt) (rd rs1 rs2 : Reg)
  | toInt  (ity : IFmt) (fmt : FFmt) (rd rs1 : Reg) (rm : BitVec 3)
  | ofInt  (ity : IFmt) (fmt : FFmt) (rd rs1 : Reg) (rm : BitVec 3)
  | cvt    (dst src : FFmt) (rd rs1 : Reg) (rm : BitVec 3)
  | mvX    (fmt : FFmt) (rd rs1 : Reg)
  | mvF    (fmt : FFmt) (rd rs1 : Reg)
  | cls    (fmt : FFmt) (rd rs1 : Reg)
deriving DecidableEq, Repr

inductive BrOp where
  | beq | bne | blt | bge | bltu | bgeu
deriving DecidableEq, Repr

/-- Branches and jumps; `imm` of a branch is offset[12:1], of `jal` offset[20:1]. -/
inductive BranchJump where
  | br   (op : BrOp) (rs1 rs2 : Reg) (imm : BitVec 12)
  | jal  (rd : Reg) (imm : BitVec 20)
  | jalr (rd rs1 : Reg) (imm : BitVec 12)
deriving DecidableEq, Repr

/-- `samo` operations, spec/02 R34. -/
inductive SamoOp where
  | add | and | or | xor | min | max | minx | maxx | swap | cas | fadd
deriving DecidableEq, Repr

/-- `xfence` directions, spec/02 R33: `.se`, `.el`, both. -/
inductive XDir where
  | se | el | both
deriving DecidableEq, Repr

/-- Rounding modes of commands and of `nfcvt`, spec/02 R41, R45. -/
inductive Rnd where
  | rne | rtz | sr
deriving DecidableEq, Repr

/-! ### Command words (spec/02 R43 to R47) -/

/-- The header without `class` and `op`, which the constructor gives (R43). -/
structure Header where
  trip  : BitVec 12
  lcix  : BitVec 3
  ntgt  : BitVec 8
  nsel  : BitVec 3
  stall : BitVec 8
  ccnt  : BitVec 12
  sigen : Bool
  gpol  : Bool
  gslot : BitVec 4
deriving DecidableEq, Repr

/-- The body of matrix-class and vector-class words (R45). -/
structure MvBody where
  sn    : BitVec 4
  imm   : BitVec 32
  k     : BitVec 12
  n     : BitVec 12
  m     : BitVec 12
  scb   : BitVec 5
  sca   : BitVec 5
  meta_ : BitVec 5
  scope : BitVec 3
  sid   : BitVec 8
  rm    : BitVec 3
  fsen  : Bool
  fs    : BitVec 5
  fd    : BitVec 3
  fb    : BitVec 3
  fa    : BitVec 3
  d     : BitVec 8
  b     : BitVec 8
  a     : BitVec 8
deriving DecidableEq, Repr

/-- The body of copy-class words (R47). For `fil` the low 64 bits are the pattern: `pat`. -/
structure CopyBody where
  grp    : BitVec 12
  scope  : BitVec 3
  len    : BitVec 28
  shen   : Bool
  shp    : BitVec 20
  dspace : BitVec 2
  dst    : BitVec 54
  lo     : BitVec 64
deriving DecidableEq, Repr

/-- The body of population-class words (R47). -/
structure PopBody where
  port  : BitVec 4
  ext   : BitVec 32
  seed  : BitVec 64
  pert  : Bool
  fmt   : BitVec 3
  k     : BitVec 16
  sigma : BitVec 32
  addr  : BitVec 20
  grp   : BitVec 12
deriving DecidableEq, Repr

/-! ### Inputs carried by the steps of other agents -/

/-- A migrant packet (spec/13 R318). -/
structure Packet where
  weights : List Byte
  wt      : BitVec 4
  cnt     : BitVec 28
  fmtImg  : Word
  grp     : BitVec 12
  addr    : BitVec 20
  lcn     : BitVec 24
  gen     : BitVec 32
  fitness : BitVec 32
deriving DecidableEq, Repr

/-- A root public key of XMSS-SHAKE256_10_256 (spec/22 R420). -/
structure XmssKey where
  root : List Byte
  seed : List Byte
deriving DecidableEq, Repr, Inhabited

/-- A signature of XMSS-SHAKE256_10_256: the number of its one-time key, its random string, the 67 strings of the one-time
signature and the authentication path of ten. -/
structure XmssSig where
  idx  : Nat
  rand : List Byte
  ots  : List (List Byte)
  auth : List (List Byte)
deriving DecidableEq, Repr, Inhabited

/-- An image (spec/22 R420): the bytes that are signed and measured, the root public key it names, and its signature. -/
structure SignedImage where
  body : List Byte
  key  : XmssKey
  sig  : XmssSig
deriving DecidableEq, Repr, Inhabited

/-- The two parts of an update image (spec/23 R440). -/
structure UpdateImages where
  io  : SignedImage
  die : SignedImage
deriving DecidableEq, Repr, Inhabited

/-- What boot finds beside the update slots (spec/22 R420, R421): the boot ROM's digest, the trust die's own firmware; whether the
I/O die passes self-test under the image of slot A and of slot B; the compute dies on which another image than the slot's was
loaded, each with that image; and the compute dies that pass self-test. -/
structure BootInput where
  romDigest : Nat
  firmware  : SignedImage
  ioSelfA   : Bool
  ioSelfB   : Bool
  strayed   : List (Nat × SignedImage)
  selfTest  : BitVec 8
deriving DecidableEq, Repr

/-- What a CHALLENGE asks beside a slot: which measurements to sum up, its nonce and context (spec/22 R423). -/
structure ChallengeReq where
  summary : Nat
  nonce   : Nat
  context : Nat
deriving DecidableEq, Repr

/-- What a GET_MEASUREMENTS asks beside an index: whether to sign and with which slot's key, its nonce and context. -/
structure MeasureReq where
  signed  : Bool
  slot    : Nat
  nonce   : Nat
  context : Nat
deriving DecidableEq, Repr

/-- One constructor per row of spec/opcode_table.json, in the table's order. -/
inductive Instr where
  -- standard RISC-V
  | load (op : LoadOp) (rd rs1 : Reg) (imm : BitVec 12)
  | store (op : StoreOp) (rs1 rs2 : Reg) (imm : BitVec 12)
  | amo (op : AmoOp) (dbl aq rl : Bool) (rd rs1 rs2 : Reg)
  | lr (dbl aq rl : Bool) (rd rs1 : Reg)
  | sc (dbl aq rl : Bool) (rd rs1 rs2 : Reg)
  | fence (fm pred succ : BitVec 4)
  | fenceI
  | ecall
  | ebreak
  | csrAccess (op : CsrOp) (useImm : Bool) (csr : BitVec 12) (rd src : Reg)
  | integerOp (op : IntegerOp)
  | floatOp (op : FloatOp)
  | branchJump (op : BranchJump)
  -- custom-0
  | lda (sz : Size) (sc : Scope) (rd rs1 : Reg) (imm : BitVec 7)
  | stl (sz : Size) (sc : Scope) (rs1 rs2 : Reg) (imm : BitVec 7)
  | ofence (sc : Scope)
  | xfence (dir : XDir)
  | scx (sc : Scope)
  | redaddW (rs1 rs2 : Reg)
  | redaddD (rs1 rs2 : Reg)
  | redaddF (rs1 rs2 : Reg)
  | imx (p : BitVec 20)
  | samo (op : SamoOp) (sc : Scope) (off dbl : Bool) (rd rs1 rs2 : Reg)
  -- custom-1
  | spawn (rs1 : Reg)
  | arm (rs1 rs2 : Reg)
  | sig (rs1 rs2 : Reg)
  | tdone
  | tyield
  | tcall (rd rs1 : Reg)
  | tret
  | join (rs1 : Reg)
  | leave (rs1 : Reg)
  | bar (rs1 rs2 : Reg)
  | bara (rs1 rs2 : Reg)
  | barw (rs1 rs2 : Reg)
  | vote (rd rs1 rs2 : Reg)
  | sstep (rd : Reg)
  | gfuse (rs1 : Reg)
  | gsplit
  | qpush (q : BitVec 4) (rs1 : Reg)
  | qpop (rd : Reg) (q : BitVec 4)
  | qpeek (rd : Reg) (q : BitVec 4)
  | msend (rs1 rs2 : Reg) (len : BitVec 3)
  | mpop (rd : Reg) (ib : BitVec 3) (rs1 : Reg)
  | epush (eq : Queue) (rs1 : Reg)
  | epushb (eq : Queue) (rs1 rs2 : Reg)
  | epop (rd : Reg) (eq : Queue)
  | epopnb (rd : Reg) (eq : Queue)
  | gset (g : BitVec 4)
  | gclr (g : BitVec 4)
  | wfc (rs1 : Reg)
  | wfcy (rs1 : Reg)
  | wopen (rd : Reg)
  | wcommit (rs1 : Reg)
  | wrewind (rs1 : Reg)
  | wstat (rd rs1 : Reg)
  | bcb (cb : BitVec 6) (imm : BitVec 12)
  | bcbn (cb : BitVec 6) (imm : BitVec 12)
  -- custom-2
  | vwset (vw : BitVec 4) (rs1 rs2 : Reg)
  | vwget (rd : Reg) (vw : BitVec 4) (half : Bool)
  | vld (vw : BitVec 4) (rs1 : Reg) (imm : BitVec 12)
  | vst (vw : BitVec 4) (rs1 : Reg) (imm : BitVec 12)
  | tld (vw : BitVec 4) (col : Bool) (rs1 : Reg) (imm : BitVec 12)
  | tst (vw : BitVec 4) (col : Bool) (rs1 : Reg) (imm : BitVec 12)
  | ringset (rg : BitVec 4) (rs1 rs2 : Reg)
  | ringadv (rg : BitVec 4) (rs1 : Reg)
  | ringrel (rg : BitVec 4) (rs1 : Reg)
  | xmv (dst src : BitVec 4)
  | shape (rs1 : Reg)
  -- custom-3
  | nfcvtN (rm : Rnd) (fmt : BitVec 3) (rd rs1 rs2 : Reg)
  | nfcvtF (rm : Rnd) (fmt : BitVec 3) (rd rs1 rs2 : Reg)
  | nfpack (fmt : BitVec 3) (rd rs1 rs2 : Reg)
  | nfunpk (fmt : BitVec 3) (rd rs1 rs2 : Reg)
  | rngrd (sid : BitVec 7) (rd rs1 : Reg)
  -- matrix words
  | mmf88 (h : Header) (w : MvBody)
  | mmf84 (h : Header) (w : MvBody)
  | mmf44 (h : Header) (w : MvBody)
  | mmh16 (h : Header) (w : MvBody)
  | mmh8 (h : Header) (w : MvBody)
  | mmi88 (h : Header) (w : MvBody)
  | mmi84 (h : Header) (w : MvBody)
  | mmi44 (h : Header) (w : MvBody)
  | mspf88 (h : Header) (w : MvBody)
  | mspf44 (h : Header) (w : MvBody)
  | mspi88 (h : Header) (w : MvBody)
  | msph16 (h : Header) (w : MvBody)
  | mzero (h : Header) (w : MvBody)
  | manch (h : Header) (w : MvBody)
  | mresI (h : Header) (w : MvBody)
  | mresF (h : Header) (w : MvBody)
  | mcmp (h : Header) (w : MvBody)
  -- vector words
  | vadd (h : Header) (w : MvBody)
  | vsub (h : Header) (w : MvBody)
  | vmul (h : Header) (w : MvBody)
  | vfma (h : Header) (w : MvBody)
  | vmax (h : Header) (w : MvBody)
  | vmin (h : Header) (w : MvBody)
  | vabs (h : Header) (w : MvBody)
  | vneg (h : Header) (w : MvBody)
  | vshl (h : Header) (w : MvBody)
  | vshr (h : Header) (w : MvBody)
  | vsra (h : Header) (w : MvBody)
  | vand (h : Header) (w : MvBody)
  | vor (h : Header) (w : MvBody)
  | vxor (h : Header) (w : MvBody)
  | vcmp (h : Header) (w : MvBody)
  | vsel (h : Header) (w : MvBody)
  | vcvt (h : Header) (w : MvBody)
  | vrcp (h : Header) (w : MvBody)
  | vexp2 (h : Header) (w : MvBody)
  | vreds (h : Header) (w : MvBody)
  | vredm (h : Header) (w : MvBody)
  | vperm (h : Header) (w : MvBody)
  | vbcast (h : Header) (w : MvBody)
  | vscl (h : Header) (w : MvBody)
  | vclamp (h : Header) (w : MvBody)
  | vrq (h : Header) (w : MvBody)
  | vnfin (h : Header) (w : MvBody)
  -- copy words
  | cpy (h : Header) (w : CopyBody)
  | cps (h : Header) (w : CopyBody)
  | gth (h : Header) (w : CopyBody)
  | sct (h : Header) (w : CopyBody)
  | rdx (h : Header) (w : CopyBody)
  | bcs (h : Header) (w : CopyBody)
  | fil (h : Header) (w : CopyBody)
  | xch (h : Header) (w : CopyBody)
  -- population words
  | prank (h : Header) (w : PopBody)
  | pcull (h : Header) (w : PopBody)
  | pmig (h : Header) (w : PopBody)
  | plog (h : Header) (w : PopBody)
  -- engine, memory and scheduling steps
  | engineWordRetire (c : CoreId) (q : Queue)
  | copyWordRetire (c : CoreId) (i : Nat)
  | populationWordRetire (c : CoreId)
  | discardWord (c : CoreId) (q : Queue)
  | jmuRunEnd (bench : Nat)
  | promiseMissed (c : CoreId) (rseq : BitVec 16) (revised : Word)
  | wfcyExpiry (c : CoreId)
  | wfcWake (c : CoreId)
  | lateRefusal (c : CoreId)
  | storeBufferDrain (c : CoreId)
  | edgeQueueDrain (die i : Nat)
  | shadowMerge (die i : Nat)
  | translationWalk (die asid : Nat) (va : Word)
  | messageDelivery (i : Nat)
  | counterIncrement (i : Nat)
  | taskStart (c : CoreId)
  | barrierComplete (asid grp name : Nat)
  | superstepComplete (asid : Nat)
  | governorPeriod (asid die : Nat)
  | balancerPeriod (asid : Nat)
  | migrationArrival (i : Nat)
  | pmigArrival (port : Nat) (p : Packet)
  | logDrain (c : CoreId)
  | trapEntry (c : CoreId)
  | takePendingTrap (c : CoreId)
  | halt (asid : Nat)
  | wordSuspend (c : CoreId) (q : Queue) (i : Nat)
  | contextAbort (asid : Nat)
  | abortAgreement (asid : Nat)
  | dieLost (die : Nat)
  | preemption (asid : Nat) (favour : Option Nat)
  | scratchpadSwap (out into : Nat) (core block : Nat)
  | contextSpill (asid : Nat)
  | contextRestore (asid : Nat) (benches : List Nat)
  | sliceExpiry (asid : Nat)
  -- host, launch and translation control
  | launch (v : Word)
  | launchQueueConfigWrite (size : Bool) (v : Word)
  | launchDispatch (img : List (Nat × Byte))
  | launchComplete (asid : Nat)
  | invalidatePage (asid : BitVec 10) (vpn : BitVec 40)
  | invalidateAsid (asid : BitVec 10)
  | invalidateAll
  | invalidateRejected (v : Word)
  | invalidationComplete
  | registerWrite (off : BitVec 24) (v : Word)
  | hostMemRead (pa n : Nat)
  | hostMemWrite (pa : Nat) (data : List Byte)
  -- debug
  | debugAttach (asid : BitVec 10)
  | debugDetach
  | stop
  | resume
  | step
  | rewindWin
  | rewindSeq
  | replay
  | recordOn
  | recordOff
  | slotSet
  | slotGet
  | debugCommandRefused (v : Word)
  | ddataRead
  | ddataWrite (v : Word)
  | breakpointHit (c : CoreId)
  | watchpointHit (c : CoreId)
  | traceConfigWrite (off : BitVec 24) (v : Word)
  | traceSample (c : CoreId)
  -- package, trust, links
  | dieResetRequest (v : Word)
  | reroute (die : Nat)
  | drain (die : Nat)
  | dieReset (die : Nat)
  | rejoin (die : Nat) (strayed : Option SignedImage) (selfTest : Bool)
  | keySlotEmpty (slot : BitVec 11)
  | keySlotPlain (slot : BitVec 11)
  | keySlotKeyed (slot : BitVec 11)
  | keyUpdateDone
  | getVersion
  | getCapabilities
  | negotiateAlgorithms (asym hash meas : Nat)
  | getDigests
  | getCertificate (slot offset len : Nat)
  | challenge (slot : Nat) (req : ChallengeReq)
  | getMeasurements (index : Nat) (req : MeasureReq)
  | spdmUnsupported (code : Nat)
  | portDown (port : Nat)
  -- management, power, soft errors
  | updateStage
  | updateCancel
  | updateVerifyDone (ioLen : Nat)
  | packageReset
  | boot (inp : BootInput)
  | sensorSample (readings : List (Nat × BitVec 32))
  | thermalHalving (bench : Nat) (temp : Nat)
  | thermalRecovery (bench : Nat) (temp : Nat)
  | currentTrip (die mA : Nat)
  | tripClear (die mA : Nat)
  | diePowerDown (die mA : Nat)
  | injectArm (off : BitVec 24) (v : Word)
  | scrub (array : BitVec 8) (unit : Word)
  | portUp (port : Nat) (peer : BitVec 32)
deriving DecidableEq, Repr

end Sys2Proof
end

