-- ==== Sys2Proof/Config.lean ====
section
/-! DEFINITION. What an implementation of the KZ9 fixes and the manual leaves open. Every constant here has no body:
nothing in Lean can evaluate it, so a claim holds whatever it is (notes/assumptions/6.md). -/

namespace Sys2Proof.Config

/-- A fresh binary choice of the hardware (drained or not, seen or not, old or new): R181, R245, R251. -/
opaque freeBool : Nat → Bool

/-- A fresh doubleword the manual leaves open: a promised tick's distance (R83), a fresh key or nonce. -/
opaque freeWord : Nat → Word

/-- A fresh index below a bound; used as `freeIndex k % n` where the hardware picks one of `n` (R98, R293, R329). -/
opaque freeIndex : Nat → Nat

/-- The key of a name: two 256-bit halves for AES-256-XTS (R76, R77); the trust die draws it and shows it to nobody. -/
opaque storageKey : Nat → BitVec 512

/-- The signature over a transcript, by the key of certificate slot `slot` (R423). -/
opaque signature : (slot : Nat) → (transcript : List Byte) → List Byte

/-- The certificate chain of slot 0 or 1 (R423). -/
opaque certificate : (slot : Nat) → List Byte

/-- What the SPDM responder reports of itself beyond spec/22 R423: its CTExponent, its DataTransferSize and its MaxSPDMmsgSize. -/
opaque spdmSizes : Nat → Nat

/-- Whether the host advertises AtomicOp completer support for an operand of `n` bytes (R74). -/
opaque hostAtomicOps : (n : Nat) → Bool

/-- The security version of an image, which lies somewhere in what is signed (R420). -/
opaque imageVersion : (body : List Byte) → Nat

/-- The image that the bytes of one part of a staged update hold (R440). -/
opaque signedImage : (bytes : List Byte) → SignedImage

/-- The syndrome recorded for an error (R445). -/
opaque syndrome : Nat → BitVec 9

end Sys2Proof.Config
end

