-- ==== Sys2Proof/Decode.lean ====
section
/-! DEFINITION. Decoding parcels and command words, and encoding them (spec/02 R26 to R48). -/

namespace Sys2Proof

/-- Why a parcel or a command word is no instruction. -/
inductive DecodeErr where
  /-- Bits [1:0] are not 0b11, or bits [4:2] are 0b111 (R26). -/
  | notParcel
  /-- A reserved major opcode (R27). -/
  | reservedMajor
  /-- Function fields that no extension assigns (R28, R30 to R41). -/
  | reservedFunction
  /-- A field marked 0 is nonzero (R30). -/
  | nonzeroField
  /-- A scope code 0b101 to 0b111 (R31). -/
  | badScope
  /-- A class or an opcode of a command word that is not assigned (R48). -/
  | badOpcode
  /-- A reserved bit of a command word is nonzero (R45, R47). -/
  | reservedBit
deriving DecidableEq, Repr

/-- Field of `n` bits from bit `lo`. -/
abbrev fld (w : Parcel) (lo n : Nat) : BitVec n := w.extractLsb' lo n

/-! ### Field codes -/

def Scope.code : Scope → BitVec 3
  | .core => 0 | .bench => 1 | .die => 2 | .pkg => 3 | .sys => 4

def scopeOf (b : BitVec 3) : Option Scope :=
  if b = 0 then some .core else if b = 1 then some .bench else if b = 2 then some .die
  else if b = 3 then some .pkg else if b = 4 then some .sys else none

def Size.code : Size → BitVec 2
  | .b => 0 | .h => 1 | .w => 2 | .d => 3

def sizeOf2 (b : BitVec 2) : Size :=
  if b = 0 then .b else if b = 1 then .h else if b = 2 then .w else .d

/-- Bytes of a size. -/
def Size.bytes : Size → Nat
  | .b => 1 | .h => 2 | .w => 4 | .d => 8

def Queue.code : Queue → BitVec 2
  | .eqm => 0 | .eqv => 1 | .eqc => 2 | .eqp => 3

def queueOf (b : BitVec 2) : Queue :=
  if b = 0 then .eqm else if b = 1 then .eqv else if b = 2 then .eqc else .eqp

def LoadOp.codes : LoadOp → BitVec 3 × BitVec 7
  | .lb => (0, 0x03) | .lh => (1, 0x03) | .lw => (2, 0x03) | .ld => (3, 0x03)
  | .lbu => (4, 0x03) | .lhu => (5, 0x03) | .lwu => (6, 0x03)
  | .flh => (1, 0x07) | .flw => (2, 0x07) | .fld => (3, 0x07)

def StoreOp.codes : StoreOp → BitVec 3 × BitVec 7
  | .sb => (0, 0x23) | .sh => (1, 0x23) | .sw => (2, 0x23) | .sd => (3, 0x23)
  | .fsh => (1, 0x27) | .fsw => (2, 0x27) | .fsd => (3, 0x27)

def AmoOp.code : AmoOp → BitVec 5
  | .swap => 1 | .add => 0 | .xor => 4 | .and => 12 | .or => 8 | .min => 16 | .max => 20 | .minu => 24 | .maxu => 28

/-- (funct7, funct3, opcode) of register-register operations. -/
def RROp.codes : RROp → BitVec 7 × BitVec 3 × BitVec 7
  | .add => (0x00, 0, 0x33) | .sub => (0x20, 0, 0x33) | .sll => (0x00, 1, 0x33) | .slt => (0x00, 2, 0x33)
  | .sltu => (0x00, 3, 0x33) | .xor => (0x00, 4, 0x33) | .srl => (0x00, 5, 0x33) | .sra => (0x20, 5, 0x33)
  | .or => (0x00, 6, 0x33) | .and => (0x00, 7, 0x33)
  | .addw => (0x00, 0, 0x3B) | .subw => (0x20, 0, 0x3B) | .sllw => (0x00, 1, 0x3B) | .srlw => (0x00, 5, 0x3B)
  | .sraw => (0x20, 5, 0x3B)
  | .mul => (0x01, 0, 0x33) | .mulh => (0x01, 1, 0x33) | .mulhsu => (0x01, 2, 0x33) | .mulhu => (0x01, 3, 0x33)
  | .div => (0x01, 4, 0x33) | .divu => (0x01, 5, 0x33) | .rem => (0x01, 6, 0x33) | .remu => (0x01, 7, 0x33)
  | .mulw => (0x01, 0, 0x3B) | .divw => (0x01, 4, 0x3B) | .divuw => (0x01, 5, 0x3B) | .remw => (0x01, 6, 0x3B)
  | .remuw => (0x01, 7, 0x3B)
  | .adduw => (0x04, 0, 0x3B) | .sh1add => (0x10, 2, 0x33) | .sh2add => (0x10, 4, 0x33) | .sh3add => (0x10, 6, 0x33)
  | .sh1adduw => (0x10, 2, 0x3B) | .sh2adduw => (0x10, 4, 0x3B) | .sh3adduw => (0x10, 6, 0x3B)
  | .andn => (0x20, 7, 0x33) | .orn => (0x20, 6, 0x33) | .xnor => (0x20, 4, 0x33)
  | .min => (0x05, 4, 0x33) | .minu => (0x05, 5, 0x33) | .max => (0x05, 6, 0x33) | .maxu => (0x05, 7, 0x33)
  | .rol => (0x30, 1, 0x33) | .ror => (0x30, 5, 0x33) | .rolw => (0x30, 1, 0x3B) | .rorw => (0x30, 5, 0x3B)

def allRR : List RROp :=
  [.add, .sub, .sll, .slt, .sltu, .xor, .srl, .sra, .or, .and, .addw, .subw, .sllw, .srlw, .sraw, .mul, .mulh, .mulhsu,
   .mulhu, .div, .divu, .rem, .remu, .mulw, .divw, .divuw, .remw, .remuw, .adduw, .sh1add, .sh2add, .sh3add, .sh1adduw,
   .sh2adduw, .sh3adduw, .andn, .orn, .xnor, .min, .minu, .max, .maxu, .rol, .ror, .rolw, .rorw]

/-- (bits [31:20], funct3, opcode) of the unary operations. -/
def UnOp.codes : UnOp → BitVec 12 × BitVec 3 × BitVec 7
  | .clz => (0x600, 1, 0x13) | .ctz => (0x601, 1, 0x13) | .cpop => (0x602, 1, 0x13)
  | .sextb => (0x604, 1, 0x13) | .sexth => (0x605, 1, 0x13)
  | .clzw => (0x600, 1, 0x1B) | .ctzw => (0x601, 1, 0x1B) | .cpopw => (0x602, 1, 0x1B)
  | .zexth => (0x080, 4, 0x3B) | .orcb => (0x287, 5, 0x13) | .rev8 => (0x6B8, 5, 0x13)

def allUn : List UnOp := [.clz, .ctz, .cpop, .clzw, .ctzw, .cpopw, .sextb, .sexth, .zexth, .orcb, .rev8]

def ImmOp.codes : ImmOp → BitVec 3 × BitVec 7
  | .addi => (0, 0x13) | .slti => (2, 0x13) | .sltiu => (3, 0x13) | .xori => (4, 0x13) | .ori => (6, 0x13)
  | .andi => (7, 0x13) | .addiw => (0, 0x1B)

def allImm : List ImmOp := [.addi, .slti, .sltiu, .xori, .ori, .andi, .addiw]

/-- (bits [31:26], funct3, opcode) of the shifts; the 32-bit ones also need bit [25] zero. -/
def ShOp.codes : ShOp → BitVec 6 × BitVec 3 × BitVec 7
  | .slli => (0x00, 1, 0x13) | .srli => (0x00, 5, 0x13) | .srai => (0x10, 5, 0x13) | .rori => (0x18, 5, 0x13)
  | .slliuw => (0x02, 1, 0x1B) | .slliw => (0x00, 1, 0x1B) | .srliw => (0x00, 5, 0x1B) | .sraiw => (0x10, 5, 0x1B)
  | .roriw => (0x18, 5, 0x1B)

def allSh : List ShOp := [.slli, .srli, .srai, .rori, .slliuw, .slliw, .srliw, .sraiw, .roriw]

/-- Shifts whose amount is 5 bits. -/
def ShOp.short : ShOp → Bool
  | .slliw | .srliw | .sraiw | .roriw => true
  | _ => false

def FFmt.code : FFmt → BitVec 2
  | .s => 0 | .d => 1 | .h => 2

def ffmtOf (b : BitVec 2) : Option FFmt :=
  if b = 0 then some .s else if b = 1 then some .d else if b = 2 then some .h else none

def IFmt.code : IFmt → BitVec 5
  | .w => 0 | .wu => 1 | .l => 2 | .lu => 3

def ifmtOf (b : BitVec 5) : Option IFmt :=
  if b = 0 then some .w else if b = 1 then some .wu else if b = 2 then some .l else if b = 3 then some .lu else none

def FmaOp.code : FmaOp → BitVec 7
  | .madd => 0x43 | .msub => 0x47 | .nmsub => 0x4B | .nmadd => 0x4F

def FArith.code : FArith → BitVec 5
  | .add => 0 | .sub => 1 | .mul => 2 | .div => 3

def FSgn.code : FSgn → BitVec 3
  | .sgnj => 0 | .sgnjn => 1 | .sgnjx => 2

def FCmp.code : FCmp → BitVec 3
  | .le => 0 | .lt => 1 | .eq => 2

def BrOp.code : BrOp → BitVec 3
  | .beq => 0 | .bne => 1 | .blt => 4 | .bge => 5 | .bltu => 6 | .bgeu => 7

def SamoOp.code : SamoOp → BitVec 4
  | .add => 0 | .and => 1 | .or => 2 | .xor => 3 | .min => 4 | .max => 5 | .minx => 6 | .maxx => 7 | .swap => 8
  | .cas => 9 | .fadd => 10

def allSamo : List SamoOp := [.add, .and, .or, .xor, .min, .max, .minx, .maxx, .swap, .cas, .fadd]

def Rnd.code : Rnd → BitVec 3
  | .rne => 0 | .rtz => 1 | .sr => 2

def rndOf (b : BitVec 3) : Option Rnd :=
  if b = 0 then some .rne else if b = 1 then some .rtz else if b = 2 then some .sr else none

def CsrOp.code : CsrOp → BitVec 2
  | .rw => 1 | .rs => 2 | .rc => 3

def bool1 (b : Bool) : BitVec 1 := BitVec.ofBool b

/-! ### Formats -/

def rType (f7 : BitVec 7) (rs2 rs1 : Reg) (f3 : BitVec 3) (rd : Reg) (op : BitVec 7) : Parcel :=
  (f7 ++ rs2 ++ rs1 ++ f3 ++ rd ++ op : BitVec (7 + 5 + 5 + 3 + 5 + 7))

def iType (imm : BitVec 12) (rs1 : Reg) (f3 : BitVec 3) (rd : Reg) (op : BitVec 7) : Parcel :=
  (imm ++ rs1 ++ f3 ++ rd ++ op : BitVec (12 + 5 + 3 + 5 + 7))

def sType (imm : BitVec 12) (rs2 rs1 : Reg) (f3 : BitVec 3) (op : BitVec 7) : Parcel :=
  rType (imm.extractLsb' 5 7) rs2 rs1 f3 (imm.extractLsb' 0 5) op

/-- `imm` is offset[12:1]; bits [24:15] are given as one field. -/
def bType (imm : BitVec 12) (mid : BitVec 10) (f3 : BitVec 3) (op : BitVec 7) : Parcel :=
  (imm.extractLsb' 11 1 ++ imm.extractLsb' 4 6 ++ mid ++ f3 ++ imm.extractLsb' 0 4 ++ imm.extractLsb' 10 1 ++ op
    : BitVec (1 + 6 + 10 + 3 + 4 + 1 + 7))

/-- `imm` is offset[20:1]. -/
def jType (imm : BitVec 20) (rd : Reg) : Parcel :=
  (imm.extractLsb' 19 1 ++ imm.extractLsb' 0 10 ++ imm.extractLsb' 10 1 ++ imm.extractLsb' 11 8 ++ rd ++ 0x6F#7
    : BitVec (1 + 10 + 1 + 8 + 5 + 7))

def sImm (w : Parcel) : BitVec 12 := fld w 25 7 ++ fld w 7 5
def bImm (w : Parcel) : BitVec 12 := (fld w 31 1 ++ fld w 7 1 ++ fld w 25 6 ++ fld w 8 4 : BitVec (1 + 1 + 6 + 4))
def jImm (w : Parcel) : BitVec 20 := (fld w 31 1 ++ fld w 12 8 ++ fld w 20 1 ++ fld w 21 10 : BitVec (1 + 8 + 1 + 10))

/-! ### Decoding parcels -/

abbrev DRes := Except DecodeErr Instr

def noFun : DRes := .error .reservedFunction

/-- Accept `i` when the fields marked 0 are zero (R30). -/
def zeroIf (b : Bool) (i : Instr) : DRes := if b then .ok i else .error .nonzeroField

def dLoad (w : Parcel) (op7 : BitVec 7) : DRes :=
  match [LoadOp.lb, .lh, .lw, .ld, .lbu, .lhu, .lwu, .flh, .flw, .fld].find? (fun o => o.codes == (fld w 12 3, op7)) with
  | some o => .ok (.load o (fld w 7 5) (fld w 15 5) (fld w 20 12))
  | none => noFun

def dStore (w : Parcel) (op7 : BitVec 7) : DRes :=
  match [StoreOp.sb, .sh, .sw, .sd, .fsh, .fsw, .fsd].find? (fun o => o.codes == (fld w 12 3, op7)) with
  | some o => .ok (.store o (fld w 15 5) (fld w 20 5) (sImm w))
  | none => noFun

def dAmo (w : Parcel) : DRes :=
  let dbl := fld w 12 3 == 3#3
  let aq := fld w 26 1 == 1#1
  let rl := fld w 25 1 == 1#1
  let rd := fld w 7 5
  let rs1 := fld w 15 5
  let rs2 := fld w 20 5
  if fld w 12 3 != 2#3 && fld w 12 3 != 3#3 then noFun
  else if fld w 27 5 = 2#5 then (if rs2 = 0 then .ok (.lr dbl aq rl rd rs1) else noFun)
  else if fld w 27 5 = 3#5 then .ok (.sc dbl aq rl rd rs1 rs2)
  else match [AmoOp.swap, .add, .xor, .and, .or, .min, .max, .minu, .maxu].find? (fun o => o.code == fld w 27 5) with
    | some o => .ok (.amo o dbl aq rl rd rs1 rs2)
    | none => noFun

/-- MISC-MEM: the rd, rs1 and immediate fields that RISC-V reserves for future hints are ignored. -/
def dMisc (w : Parcel) : DRes :=
  if fld w 12 3 = 0#3 then
    (if fld w 28 4 = 0#4 ∨ fld w 28 4 = 8#4 then .ok (.fence (fld w 28 4) (fld w 24 4) (fld w 20 4)) else noFun)
  else if fld w 12 3 = 1#3 then .ok .fenceI
  else noFun

def dSystem (w : Parcel) : DRes :=
  if w = 0x00000073#32 then .ok .ecall
  else if w = 0x00100073#32 then .ok .ebreak
  else
    let ui := fld w 14 1 == 1#1
    match [CsrOp.rw, .rs, .rc].find? (fun o => o.code == fld w 12 2) with
    | some o => .ok (.csrAccess o ui (fld w 20 12) (fld w 7 5) (fld w 15 5))
    | none => noFun

/-- OP, OP-32, OP-IMM and OP-IMM-32. -/
def dInt (w : Parcel) (op7 : BitVec 7) : DRes :=
  let rd := fld w 7 5
  let rs1 := fld w 15 5
  match allUn.find? (fun o => o.codes == (fld w 20 12, fld w 12 3, op7)) with
  | some o => .ok (.integerOp (.un o rd rs1))
  | none =>
  match allRR.find? (fun o => o.codes == (fld w 25 7, fld w 12 3, op7)) with
  | some o => .ok (.integerOp (.rr o rd rs1 (fld w 20 5)))
  | none =>
  match allImm.find? (fun o => o.codes == (fld w 12 3, op7)) with
  | some o => .ok (.integerOp (.imm o rd rs1 (fld w 20 12)))
  | none =>
  match allSh.find? (fun o => o.codes == (fld w 26 6, fld w 12 3, op7) && (!o.short || fld w 25 1 == 0#1)) with
  | some o => .ok (.integerOp (.shift o rd rs1 (fld w 20 6)))
  | none => noFun

def dFma (w : Parcel) (op7 : BitVec 7) : DRes :=
  match ffmtOf (fld w 25 2), [FmaOp.madd, .msub, .nmsub, .nmadd].find? (fun o => o.code == op7) with
  | some f, some o => .ok (.floatOp (.fma o f (fld w 7 5) (fld w 15 5) (fld w 20 5) (fld w 27 5) (fld w 12 3)))
  | _, _ => noFun

def dFp (w : Parcel) : DRes :=
  let rd := fld w 7 5
  let rs1 := fld w 15 5
  let rs2 := fld w 20 5
  let f3 := fld w 12 3
  match ffmtOf (fld w 25 2) with
  | none => noFun
  | some f =>
    let f5 := fld w 27 5
    match [FArith.add, .sub, .mul, .div].find? (fun o => o.code == f5) with
    | some o => .ok (.floatOp (.arith o f rd rs1 rs2 f3))
    | none =>
    if f5 = 11#5 then (if rs2 = 0 then .ok (.floatOp (.sqrt f rd rs1 f3)) else noFun)
    else if f5 = 4#5 then
      (match [FSgn.sgnj, .sgnjn, .sgnjx].find? (fun o => o.code == f3) with
       | some o => .ok (.floatOp (.sgnj o f rd rs1 rs2))
       | none => noFun)
    else if f5 = 5#5 then
      (if f3 = 0#3 then .ok (.floatOp (.minmax false f rd rs1 rs2))
       else if f3 = 1#3 then .ok (.floatOp (.minmax true f rd rs1 rs2)) else noFun)
    else if f5 = 20#5 then
      (match [FCmp.le, .lt, .eq].find? (fun o => o.code == f3) with
       | some o => .ok (.floatOp (.cmp o f rd rs1 rs2))
       | none => noFun)
    else if f5 = 8#5 then
      (match ffmtOf (rs2.extractLsb' 0 2) with
       | some g => if rs2.extractLsb' 2 3 = 0#3 ∧ g ≠ f then .ok (.floatOp (.cvt f g rd rs1 f3)) else noFun
       | none => noFun)
    else if f5 = 24#5 then
      (match ifmtOf rs2 with
       | some t => .ok (.floatOp (.toInt t f rd rs1 f3))
       | none => noFun)
    else if f5 = 26#5 then
      (match ifmtOf rs2 with
       | some t => .ok (.floatOp (.ofInt t f rd rs1 f3))
       | none => noFun)
    else if f5 = 28#5 then
      (if rs2 = 0 ∧ f3 = 0#3 then .ok (.floatOp (.mvX f rd rs1))
       else if rs2 = 0 ∧ f3 = 1#3 then .ok (.floatOp (.cls f rd rs1)) else noFun)
    else if f5 = 30#5 then (if rs2 = 0 ∧ f3 = 0#3 then .ok (.floatOp (.mvF f rd rs1)) else noFun)
    else noFun

def withScope (b : BitVec 3) (k : Scope → DRes) : DRes :=
  match scopeOf b with
  | some sc => k sc
  | none => .error .badScope

/-- The parcel is an `scx`, whatever its scope field holds (R34). -/
def isScx (w : Parcel) : Bool := w &&& 0xFF8FFFFF#32 == 0x0400200B#32

/-- custom-0, R33, R34. -/
def dCustom0 (w : Parcel) : DRes :=
  let rd := fld w 7 5
  let rs1 := fld w 15 5
  let rs2 := fld w 20 5
  let f3 := fld w 12 3
  if f3 = 0#3 then
    withScope (fld w 29 3) fun sc => .ok (.lda (sizeOf2 (fld w 27 2)) sc rd rs1 (fld w 25 2 ++ rs2))
  else if f3 = 1#3 then
    withScope (fld w 29 3) fun sc => .ok (.stl (sizeOf2 (fld w 27 2)) sc rs1 rs2 (fld w 25 2 ++ rd))
  else if f3 = 2#3 then
    let f7 := fld w 25 7
    if f7 = 0#7 then
      (if fld w 23 2 = 0#2 ∧ rs1 = 0 ∧ rd = 0 then withScope (fld w 20 3) fun sc => .ok (.ofence sc) else .error .nonzeroField)
    else if f7 = 1#7 then
      (if fld w 22 3 = 0#3 ∧ rs1 = 0 ∧ rd = 0 then
        (if fld w 20 2 = 1#2 then .ok (.xfence .se) else if fld w 20 2 = 2#2 then .ok (.xfence .el)
         else if fld w 20 2 = 3#2 then .ok (.xfence .both) else noFun)
       else .error .nonzeroField)
    else if f7 = 2#7 then
      (if fld w 23 2 = 0#2 ∧ rs1 = 0 ∧ rd = 0 then withScope (fld w 20 3) fun sc => .ok (.scx sc) else .error .nonzeroField)
    else if f7 = 4#7 then zeroIf (rd == 0) (.redaddW rs1 rs2)
    else if f7 = 5#7 then zeroIf (rd == 0) (.redaddD rs1 rs2)
    else if f7 = 6#7 then zeroIf (rd == 0) (.redaddF rs1 rs2)
    else noFun
  else if f3 = 3#3 then zeroIf (fld w 7 2 == 0#2) (.imx (fld w 25 7 ++ rs2 ++ rs1 ++ fld w 9 3 : BitVec (7 + 5 + 5 + 3)))
  else
    match allSamo.find? (fun o => o.code == fld w 28 4) with
    | some o => withScope (fld w 25 3) fun sc => .ok (.samo o sc (fld w 13 1 == 1#1) (fld w 12 1 == 1#1) rd rs1 rs2)
    | none => noFun

/-- custom-1, R38, R39. -/
def dCustom1 (w : Parcel) : DRes :=
  let rd := fld w 7 5
  let rs1 := fld w 15 5
  let rs2 := fld w 20 5
  let f3 := fld w 12 3
  let f7 := fld w 25 7
  let z1 := rd == 0 && rs2 == 0        -- form: rs1 only
  let z2 := rd == 0                    -- form: rs1, rs2
  let z0 := rd == 0 && rs1 == 0 && rs2 == 0
  if f3 = 0#3 then
    if f7 = 0#7 then zeroIf z1 (.spawn rs1)
    else if f7 = 1#7 then zeroIf z2 (.arm rs1 rs2)
    else if f7 = 2#7 then zeroIf z2 (.sig rs1 rs2)
    else if f7 = 3#7 then zeroIf z0 .tdone
    else if f7 = 4#7 then zeroIf z0 .tyield
    else if f7 = 5#7 then zeroIf (rs2 == 0) (.tcall rd rs1)
    else if f7 = 6#7 then zeroIf z0 .tret
    else noFun
  else if f3 = 1#3 then
    if f7 = 0#7 then zeroIf z1 (.join rs1)
    else if f7 = 1#7 then zeroIf z1 (.leave rs1)
    else if f7 = 2#7 then zeroIf z2 (.bar rs1 rs2)
    else if f7 = 3#7 then zeroIf z2 (.bara rs1 rs2)
    else if f7 = 4#7 then zeroIf z2 (.barw rs1 rs2)
    else if f7 = 5#7 then .ok (.vote rd rs1 rs2)
    else if f7 = 6#7 then zeroIf (rs1 == 0 && rs2 == 0) (.sstep rd)
    else if f7 = 7#7 then zeroIf z1 (.gfuse rs1)
    else if f7 = 8#7 then zeroIf z0 .gsplit
    else noFun
  else if f3 = 2#3 then
    if f7 = 0#7 then zeroIf (rd == 0 && fld w 24 1 == 0#1) (.qpush (fld w 20 4) rs1)
    else if f7 = 1#7 then zeroIf (rs1 == 0 && fld w 24 1 == 0#1) (.qpop rd (fld w 20 4))
    else if f7 = 2#7 then zeroIf (rs1 == 0 && fld w 24 1 == 0#1) (.qpeek rd (fld w 20 4))
    else if f7 = 3#7 then zeroIf (fld w 10 2 == 0#2) (.msend rs1 rs2 (fld w 7 3))
    else if f7 = 4#7 then zeroIf (fld w 23 2 == 0#2) (.mpop rd (fld w 20 3) rs1)
    else noFun
  else if f3 = 3#3 then
    if f7 = 0#7 then zeroIf (fld w 9 3 == 0#3 && rs2 == 0) (.epush (queueOf (fld w 7 2)) rs1)
    else if f7 = 1#7 then zeroIf (fld w 9 3 == 0#3) (.epushb (queueOf (fld w 7 2)) rs1 rs2)
    else if f7 = 2#7 then zeroIf (fld w 22 3 == 0#3 && rs1 == 0) (.epop rd (queueOf (fld w 20 2)))
    else if f7 = 3#7 then zeroIf (fld w 22 3 == 0#3 && rs1 == 0) (.epopnb rd (queueOf (fld w 20 2)))
    else if f7 = 4#7 then
      (if fld w 7 4 = 0#4 then noFun else zeroIf (fld w 11 1 == 0#1 && rs1 == 0 && rs2 == 0) (.gset (fld w 7 4)))
    else if f7 = 5#7 then
      (if fld w 7 4 = 0#4 then noFun else zeroIf (fld w 11 1 == 0#1 && rs1 == 0 && rs2 == 0) (.gclr (fld w 7 4)))
    else if f7 = 6#7 then zeroIf z1 (.wfc rs1)
    else if f7 = 7#7 then zeroIf z1 (.wfcy rs1)
    else noFun
  else if f3 = 4#3 then
    if f7 = 0#7 then zeroIf (rs1 == 0 && rs2 == 0) (.wopen rd)
    else if f7 = 1#7 then zeroIf z1 (.wcommit rs1)
    else if f7 = 2#7 then zeroIf z1 (.wrewind rs1)
    else if f7 = 3#7 then zeroIf (rs2 == 0) (.wstat rd rs1)
    else noFun
  else if f3 = 6#3 then zeroIf (fld w 21 4 == 0#4) (.bcb (fld w 15 6) (bImm w))
  else if f3 = 7#3 then zeroIf (fld w 21 4 == 0#4) (.bcbn (fld w 15 6) (bImm w))
  else noFun

/-- custom-2, R40. -/
def dCustom2 (w : Parcel) : DRes :=
  let rd := fld w 7 5
  let rs1 := fld w 15 5
  let rs2 := fld w 20 5
  let f3 := fld w 12 3
  let f7 := fld w 25 7
  let d0 := fld w 11 1 == 0#1
  if f3 = 0#3 then
    if f7 = 0#7 then zeroIf d0 (.vwset (fld w 7 4) rs1 rs2)
    else if f7 = 1#7 then zeroIf (fld w 19 1 == 0#1 && fld w 21 4 == 0#4) (.vwget rd (fld w 15 4) (fld w 20 1 == 1#1))
    else noFun
  else if f3 = 1#3 then zeroIf d0 (.vld (fld w 7 4) rs1 (fld w 20 12))
  else if f3 = 2#3 then zeroIf (fld w 24 1 == 0#1) (.vst (fld w 20 4) rs1 (sImm w))
  else if f3 = 3#3 then .ok (.tld (fld w 7 4) (fld w 11 1 == 1#1) rs1 (fld w 20 12))
  else if f3 = 4#3 then .ok (.tst (fld w 20 4) (fld w 24 1 == 1#1) rs1 (sImm w))
  else if f3 = 5#3 then
    if f7 = 0#7 then zeroIf d0 (.ringset (fld w 7 4) rs1 rs2)
    else if f7 = 1#7 then zeroIf (d0 && rs2 == 0) (.ringadv (fld w 7 4) rs1)
    else if f7 = 2#7 then zeroIf (d0 && rs2 == 0) (.ringrel (fld w 7 4) rs1)
    else noFun
  else if f3 = 6#3 then
    if f7 = 0#7 then zeroIf (d0 && rs2 == 0 && fld w 19 1 == 0#1) (.xmv (fld w 7 4) (fld w 15 4))
    else if f7 = 1#7 then zeroIf (rd == 0 && rs2 == 0) (.shape rs1)
    else noFun
  else noFun

/-- custom-3, R41. -/
def dCustom3 (w : Parcel) : DRes :=
  let rd := fld w 7 5
  let rs1 := fld w 15 5
  let rs2 := fld w 20 5
  let f3 := fld w 12 3
  let fmt := fld w 25 3
  if f3 = 0#3 then
    match rndOf (fld w 28 3) with
    | none => noFun
    | some rm => zeroIf (rm == .sr || rs2 == 0)
        (if fld w 31 1 = 0#1 then .nfcvtN rm fmt rd rs1 rs2 else .nfcvtF rm fmt rd rs1 rs2)
  else if f3 = 1#3 then zeroIf (fld w 28 4 == 0#4) (.nfpack fmt rd rs1 rs2)
  else if f3 = 2#3 then zeroIf (fld w 28 4 == 0#4) (.nfunpk fmt rd rs1 rs2)
  else if f3 = 3#3 then zeroIf (rs2 == 0) (.rngrd (fld w 25 7) rd rs1)
  else noFun

/-- Decode a parcel, by major opcode (R26, R27). -/
def decodeParcel (w : Parcel) : DRes :=
  let op := fld w 0 7
  if fld w 0 2 ≠ 3#2 ∨ fld w 2 3 = 7#3 then .error .notParcel
  else if op = 0x03#7 ∨ op = 0x07#7 then dLoad w op
  else if op = 0x23#7 ∨ op = 0x27#7 then dStore w op
  else if op = 0x0F#7 then dMisc w
  else if op = 0x13#7 ∨ op = 0x1B#7 ∨ op = 0x33#7 ∨ op = 0x3B#7 then dInt w op
  else if op = 0x37#7 then .ok (.integerOp (.lui (fld w 7 5) (fld w 12 20)))
  else if op = 0x17#7 then .ok (.integerOp (.auipc (fld w 7 5) (fld w 12 20)))
  else if op = 0x2F#7 then dAmo w
  else if op = 0x43#7 ∨ op = 0x47#7 ∨ op = 0x4B#7 ∨ op = 0x4F#7 then dFma w op
  else if op = 0x53#7 then dFp w
  else if op = 0x63#7 then
    match [BrOp.beq, .bne, .blt, .bge, .bltu, .bgeu].find? (fun o => o.code == fld w 12 3) with
    | some o => .ok (.branchJump (.br o (fld w 15 5) (fld w 20 5) (bImm w)))
    | none => noFun
  else if op = 0x67#7 then
    (if fld w 12 3 = 0#3 then .ok (.branchJump (.jalr (fld w 7 5) (fld w 15 5) (fld w 20 12))) else noFun)
  else if op = 0x6F#7 then .ok (.branchJump (.jal (fld w 7 5) (jImm w)))
  else if op = 0x73#7 then dSystem w
  else if op = 0x0B#7 then dCustom0 w
  else if op = 0x2B#7 then dCustom1 w
  else if op = 0x5B#7 then dCustom2 w
  else if op = 0x7B#7 then dCustom3 w
  else .error .reservedMajor

/-! ### Decoding command words (R43, R45, R47, R48) -/

abbrev wfld (w : CmdWord) (lo n : Nat) : BitVec n := w.extractLsb' lo n

def headerOf (w : CmdWord) : Header :=
  { trip := wfld w 52 12, lcix := wfld w 49 3, ntgt := wfld w 41 8, nsel := wfld w 38 3, stall := wfld w 30 8,
    ccnt := wfld w 18 12, sigen := wfld w 17 1 == 1#1, gpol := wfld w 16 1 == 1#1, gslot := wfld w 12 4 }

def mvOf (w : CmdWord) : MvBody :=
  { sn := wfld w 200 4, imm := wfld w 168 32, k := wfld w 156 12, n := wfld w 144 12, m := wfld w 132 12,
    scb := wfld w 127 5, sca := wfld w 122 5, meta_ := wfld w 117 5, scope := wfld w 114 3, sid := wfld w 106 8,
    rm := wfld w 103 3, fsen := wfld w 102 1 == 1#1, fs := wfld w 97 5, fd := wfld w 94 3, fb := wfld w 91 3,
    fa := wfld w 88 3, d := wfld w 80 8, b := wfld w 72 8, a := wfld w 64 8 }

def copyOf (w : CmdWord) : CopyBody :=
  { grp := wfld w 244 12, scope := wfld w 241 3, len := wfld w 213 28, shen := wfld w 212 1 == 1#1,
    shp := wfld w 192 20, dspace := wfld w 182 2, dst := wfld w 128 54, lo := wfld w 64 64 }

def popOf (w : CmdWord) : PopBody :=
  { port := wfld w 244 4, ext := wfld w 212 32, seed := wfld w 148 64, pert := wfld w 147 1 == 1#1, fmt := wfld w 144 3,
    k := wfld w 128 16, sigma := wfld w 96 32, addr := wfld w 76 20, grp := wfld w 64 12 }

def headerBits (h : Header) (cls : BitVec 4) (op : BitVec 8) : BitVec 64 :=
  (h.trip ++ h.lcix ++ h.ntgt ++ h.nsel ++ h.stall ++ h.ccnt ++ bool1 h.sigen ++ bool1 h.gpol ++ h.gslot ++ cls ++ op
    : BitVec (12 + 3 + 8 + 3 + 8 + 12 + 1 + 1 + 4 + 4 + 8))

def mvBits (w : MvBody) : BitVec 192 :=
  (0#52 ++ w.sn ++ w.imm ++ w.k ++ w.n ++ w.m ++ w.scb ++ w.sca ++ w.meta_ ++ w.scope ++ w.sid ++ w.rm ++ bool1 w.fsen
    ++ w.fs ++ w.fd ++ w.fb ++ w.fa ++ w.d ++ w.b ++ w.a
    : BitVec (52 + 4 + 32 + 12 + 12 + 12 + 5 + 5 + 5 + 3 + 8 + 3 + 1 + 5 + 3 + 3 + 3 + 8 + 8 + 8))

def copyBits (w : CopyBody) : BitVec 192 :=
  (w.grp ++ w.scope ++ w.len ++ bool1 w.shen ++ w.shp ++ 0#8 ++ w.dspace ++ w.dst ++ w.lo
    : BitVec (12 + 3 + 28 + 1 + 20 + 8 + 2 + 54 + 64))

def popBits (w : PopBody) : BitVec 192 :=
  (0#8 ++ w.port ++ w.ext ++ w.seed ++ bool1 w.pert ++ w.fmt ++ w.k ++ w.sigma ++ w.addr ++ w.grp
    : BitVec (8 + 4 + 32 + 64 + 1 + 3 + 16 + 32 + 20 + 12))

/-- Decode a command word: class and opcode, then the body by the layout of the class; a nonzero reserved bit is refused
by name. -/
def decodeWord (w : CmdWord) : DRes :=
  let h := headerOf w
  let m := mvOf w
  let c := copyOf w
  let p := popOf w
  let op := wfld w 0 8
  let cls := wfld w 8 4
  if cls = 1#4 then
    if wfld w 204 52 ≠ 0#52 then .error .reservedBit
    else if op = 0x01#8 then .ok (.mmf88 h m)
    else if op = 0x02#8 then .ok (.mmf84 h m)
    else if op = 0x03#8 then .ok (.mmf44 h m)
    else if op = 0x04#8 then .ok (.mmh16 h m)
    else if op = 0x05#8 then .ok (.mmh8 h m)
    else if op = 0x06#8 then .ok (.mmi88 h m)
    else if op = 0x07#8 then .ok (.mmi84 h m)
    else if op = 0x08#8 then .ok (.mmi44 h m)
    else if op = 0x11#8 then .ok (.mspf88 h m)
    else if op = 0x12#8 then .ok (.mspf44 h m)
    else if op = 0x13#8 then .ok (.mspi88 h m)
    else if op = 0x14#8 then .ok (.msph16 h m)
    else if op = 0x20#8 then .ok (.mzero h m)
    else if op = 0x21#8 then .ok (.manch h m)
    else if op = 0x30#8 then .ok (.mresI h m)
    else if op = 0x31#8 then .ok (.mresF h m)
    else if op = 0x38#8 then .ok (.mcmp h m)
    else .error .badOpcode
  else if cls = 2#4 then
    if wfld w 204 52 ≠ 0#52 then .error .reservedBit
    else if op = 0x01#8 then .ok (.vadd h m)
    else if op = 0x02#8 then .ok (.vsub h m)
    else if op = 0x03#8 then .ok (.vmul h m)
    else if op = 0x04#8 then .ok (.vfma h m)
    else if op = 0x05#8 then .ok (.vmax h m)
    else if op = 0x06#8 then .ok (.vmin h m)
    else if op = 0x07#8 then .ok (.vabs h m)
    else if op = 0x08#8 then .ok (.vneg h m)
    else if op = 0x09#8 then .ok (.vshl h m)
    else if op = 0x0a#8 then .ok (.vshr h m)
    else if op = 0x0b#8 then .ok (.vsra h m)
    else if op = 0x0c#8 then .ok (.vand h m)
    else if op = 0x0d#8 then .ok (.vor h m)
    else if op = 0x0e#8 then .ok (.vxor h m)
    else if op = 0x0f#8 then .ok (.vcmp h m)
    else if op = 0x10#8 then .ok (.vsel h m)
    else if op = 0x11#8 then .ok (.vcvt h m)
    else if op = 0x12#8 then .ok (.vrcp h m)
    else if op = 0x13#8 then .ok (.vexp2 h m)
    else if op = 0x14#8 then .ok (.vreds h m)
    else if op = 0x15#8 then .ok (.vredm h m)
    else if op = 0x16#8 then .ok (.vperm h m)
    else if op = 0x17#8 then .ok (.vbcast h m)
    else if op = 0x18#8 then .ok (.vscl h m)
    else if op = 0x19#8 then .ok (.vclamp h m)
    else if op = 0x1a#8 then .ok (.vrq h m)
    else if op = 0x1b#8 then .ok (.vnfin h m)
    else .error .badOpcode
  else if cls = 3#4 then
    if wfld w 184 8 ≠ 0#8 ∨ (op ≠ 0x07#8 ∧ wfld w 124 4 ≠ 0#4) then .error .reservedBit
    else if op = 0x01#8 then .ok (.cpy h c)
    else if op = 0x02#8 then .ok (.cps h c)
    else if op = 0x03#8 then .ok (.gth h c)
    else if op = 0x04#8 then .ok (.sct h c)
    else if op = 0x05#8 then .ok (.rdx h c)
    else if op = 0x06#8 then .ok (.bcs h c)
    else if op = 0x07#8 then .ok (.fil h c)
    else if op = 0x08#8 then .ok (.xch h c)
    else .error .badOpcode
  else if cls = 4#4 then
    if wfld w 248 8 ≠ 0#8 then .error .reservedBit
    else if op = 0x01#8 then .ok (.prank h p)
    else if op = 0x02#8 then .ok (.pcull h p)
    else if op = 0x03#8 then .ok (.pmig h p)
    else if op = 0x04#8 then .ok (.plog h p)
    else .error .badOpcode
  else .error .badOpcode

/-! ### Encoding -/

/-- The word of a command; none for an instruction that is no command word. -/
def encodeWord : Instr → Option CmdWord
  | .mmf88 h w => some (mvBits w ++ headerBits h 1 0x01)
  | .mmf84 h w => some (mvBits w ++ headerBits h 1 0x02)
  | .mmf44 h w => some (mvBits w ++ headerBits h 1 0x03)
  | .mmh16 h w => some (mvBits w ++ headerBits h 1 0x04)
  | .mmh8 h w => some (mvBits w ++ headerBits h 1 0x05)
  | .mmi88 h w => some (mvBits w ++ headerBits h 1 0x06)
  | .mmi84 h w => some (mvBits w ++ headerBits h 1 0x07)
  | .mmi44 h w => some (mvBits w ++ headerBits h 1 0x08)
  | .mspf88 h w => some (mvBits w ++ headerBits h 1 0x11)
  | .mspf44 h w => some (mvBits w ++ headerBits h 1 0x12)
  | .mspi88 h w => some (mvBits w ++ headerBits h 1 0x13)
  | .msph16 h w => some (mvBits w ++ headerBits h 1 0x14)
  | .mzero h w => some (mvBits w ++ headerBits h 1 0x20)
  | .manch h w => some (mvBits w ++ headerBits h 1 0x21)
  | .mresI h w => some (mvBits w ++ headerBits h 1 0x30)
  | .mresF h w => some (mvBits w ++ headerBits h 1 0x31)
  | .mcmp h w => some (mvBits w ++ headerBits h 1 0x38)
  | .vadd h w => some (mvBits w ++ headerBits h 2 0x01)
  | .vsub h w => some (mvBits w ++ headerBits h 2 0x02)
  | .vmul h w => some (mvBits w ++ headerBits h 2 0x03)
  | .vfma h w => some (mvBits w ++ headerBits h 2 0x04)
  | .vmax h w => some (mvBits w ++ headerBits h 2 0x05)
  | .vmin h w => some (mvBits w ++ headerBits h 2 0x06)
  | .vabs h w => some (mvBits w ++ headerBits h 2 0x07)
  | .vneg h w => some (mvBits w ++ headerBits h 2 0x08)
  | .vshl h w => some (mvBits w ++ headerBits h 2 0x09)
  | .vshr h w => some (mvBits w ++ headerBits h 2 0x0a)
  | .vsra h w => some (mvBits w ++ headerBits h 2 0x0b)
  | .vand h w => some (mvBits w ++ headerBits h 2 0x0c)
  | .vor h w => some (mvBits w ++ headerBits h 2 0x0d)
  | .vxor h w => some (mvBits w ++ headerBits h 2 0x0e)
  | .vcmp h w => some (mvBits w ++ headerBits h 2 0x0f)
  | .vsel h w => some (mvBits w ++ headerBits h 2 0x10)
  | .vcvt h w => some (mvBits w ++ headerBits h 2 0x11)
  | .vrcp h w => some (mvBits w ++ headerBits h 2 0x12)
  | .vexp2 h w => some (mvBits w ++ headerBits h 2 0x13)
  | .vreds h w => some (mvBits w ++ headerBits h 2 0x14)
  | .vredm h w => some (mvBits w ++ headerBits h 2 0x15)
  | .vperm h w => some (mvBits w ++ headerBits h 2 0x16)
  | .vbcast h w => some (mvBits w ++ headerBits h 2 0x17)
  | .vscl h w => some (mvBits w ++ headerBits h 2 0x18)
  | .vclamp h w => some (mvBits w ++ headerBits h 2 0x19)
  | .vrq h w => some (mvBits w ++ headerBits h 2 0x1a)
  | .vnfin h w => some (mvBits w ++ headerBits h 2 0x1b)
  | .cpy h w => some (copyBits w ++ headerBits h 3 0x01)
  | .cps h w => some (copyBits w ++ headerBits h 3 0x02)
  | .gth h w => some (copyBits w ++ headerBits h 3 0x03)
  | .sct h w => some (copyBits w ++ headerBits h 3 0x04)
  | .rdx h w => some (copyBits w ++ headerBits h 3 0x05)
  | .bcs h w => some (copyBits w ++ headerBits h 3 0x06)
  | .fil h w => some (copyBits w ++ headerBits h 3 0x07)
  | .xch h w => some (copyBits w ++ headerBits h 3 0x08)
  | .prank h w => some (popBits w ++ headerBits h 4 0x01)
  | .pcull h w => some (popBits w ++ headerBits h 4 0x02)
  | .pmig h w => some (popBits w ++ headerBits h 4 0x03)
  | .plog h w => some (popBits w ++ headerBits h 4 0x04)
  | _ => none

/-- Parcels of the float instructions. -/
def encodeFloat : FloatOp → Parcel
  | .fma o f rd rs1 rs2 rs3 rm => rType (rs3 ++ f.code) rs2 rs1 rm rd o.code
  | .arith o f rd rs1 rs2 rm => rType (o.code ++ f.code) rs2 rs1 rm rd 0x53
  | .sqrt f rd rs1 rm => rType (11#5 ++ f.code) 0 rs1 rm rd 0x53
  | .sgnj o f rd rs1 rs2 => rType (4#5 ++ f.code) rs2 rs1 o.code rd 0x53
  | .minmax mx f rd rs1 rs2 => rType (5#5 ++ f.code) rs2 rs1 (0#2 ++ bool1 mx) rd 0x53
  | .cmp o f rd rs1 rs2 => rType (20#5 ++ f.code) rs2 rs1 o.code rd 0x53
  | .toInt t f rd rs1 rm => rType (24#5 ++ f.code) t.code rs1 rm rd 0x53
  | .ofInt t f rd rs1 rm => rType (26#5 ++ f.code) t.code rs1 rm rd 0x53
  | .cvt dst src rd rs1 rm => rType (8#5 ++ dst.code) (0#3 ++ src.code) rs1 rm rd 0x53
  | .mvX f rd rs1 => rType (28#5 ++ f.code) 0 rs1 0 rd 0x53
  | .mvF f rd rs1 => rType (30#5 ++ f.code) 0 rs1 0 rd 0x53
  | .cls f rd rs1 => rType (28#5 ++ f.code) 0 rs1 1 rd 0x53

def encodeInt : IntegerOp → Parcel
  | .rr o rd rs1 rs2 => rType o.codes.1 rs2 rs1 o.codes.2.1 rd o.codes.2.2
  | .un o rd rs1 => iType o.codes.1 rs1 o.codes.2.1 rd o.codes.2.2
  | .imm o rd rs1 imm => iType imm rs1 o.codes.1 rd o.codes.2
  | .shift o rd rs1 sh => iType (o.codes.1 ++ sh) rs1 o.codes.2.1 rd o.codes.2.2
  | .lui rd imm => (imm ++ rd ++ 0x37#7 : BitVec (20 + 5 + 7))
  | .auipc rd imm => (imm ++ rd ++ 0x17#7 : BitVec (20 + 5 + 7))

/-- The parcel of a scalar instruction; none for an instruction that is no parcel. -/
def encodeParcel : Instr → Option Parcel
  | .load o rd rs1 imm => some (iType imm rs1 o.codes.1 rd o.codes.2)
  | .store o rs1 rs2 imm => some (sType imm rs2 rs1 o.codes.1 o.codes.2)
  | .amo o dbl aq rl rd rs1 rs2 => some (rType (o.code ++ bool1 aq ++ bool1 rl) rs2 rs1 (1#2 ++ bool1 dbl) rd 0x2F)
  | .lr dbl aq rl rd rs1 => some (rType (2#5 ++ bool1 aq ++ bool1 rl) 0 rs1 (1#2 ++ bool1 dbl) rd 0x2F)
  | .sc dbl aq rl rd rs1 rs2 => some (rType (3#5 ++ bool1 aq ++ bool1 rl) rs2 rs1 (1#2 ++ bool1 dbl) rd 0x2F)
  | .fence fm pred succ => some (iType (fm ++ pred ++ succ) 0 0 0 0x0F)
  | .fenceI => some (iType 0 0 1 0 0x0F)
  | .ecall => some 0x00000073#32
  | .ebreak => some 0x00100073#32
  | .csrAccess o ui csr rd src => some (iType csr src (bool1 ui ++ o.code) rd 0x73)
  | .integerOp o => some (encodeInt o)
  | .floatOp o => some (encodeFloat o)
  | .branchJump (.br o rs1 rs2 imm) => some (bType imm (rs2 ++ rs1) o.code 0x63)
  | .branchJump (.jal rd imm) => some (jType imm rd)
  | .branchJump (.jalr rd rs1 imm) => some (iType imm rs1 0 rd 0x67)
  | .lda sz sc rd rs1 imm => some (rType (sc.code ++ sz.code ++ imm.extractLsb' 5 2) (imm.extractLsb' 0 5) rs1 0 rd 0x0B)
  | .stl sz sc rs1 rs2 imm => some (rType (sc.code ++ sz.code ++ imm.extractLsb' 5 2) rs2 rs1 1 (imm.extractLsb' 0 5) 0x0B)
  | .ofence sc => some (rType 0 (0#2 ++ sc.code) 0 2 0 0x0B)
  | .xfence .se => some (rType 1 1 0 2 0 0x0B)
  | .xfence .el => some (rType 1 2 0 2 0 0x0B)
  | .xfence .both => some (rType 1 3 0 2 0 0x0B)
  | .scx sc => some (rType 2 (0#2 ++ sc.code) 0 2 0 0x0B)
  | .redaddW rs1 rs2 => some (rType 4 rs2 rs1 2 0 0x0B)
  | .redaddD rs1 rs2 => some (rType 5 rs2 rs1 2 0 0x0B)
  | .redaddF rs1 rs2 => some (rType 6 rs2 rs1 2 0 0x0B)
  | .imx p => some (rType (p.extractLsb' 13 7) (p.extractLsb' 8 5) (p.extractLsb' 3 5) 3 (p.extractLsb' 0 3 ++ 0#2) 0x0B)
  | .samo o sc off dbl rd rs1 rs2 => some (rType (o.code ++ sc.code) rs2 rs1 (1#1 ++ bool1 off ++ bool1 dbl) rd 0x0B)
  | .spawn rs1 => some (rType 0 0 rs1 0 0 0x2B)
  | .arm rs1 rs2 => some (rType 1 rs2 rs1 0 0 0x2B)
  | .sig rs1 rs2 => some (rType 2 rs2 rs1 0 0 0x2B)
  | .tdone => some (rType 3 0 0 0 0 0x2B)
  | .tyield => some (rType 4 0 0 0 0 0x2B)
  | .tcall rd rs1 => some (rType 5 0 rs1 0 rd 0x2B)
  | .tret => some (rType 6 0 0 0 0 0x2B)
  | .join rs1 => some (rType 0 0 rs1 1 0 0x2B)
  | .leave rs1 => some (rType 1 0 rs1 1 0 0x2B)
  | .bar rs1 rs2 => some (rType 2 rs2 rs1 1 0 0x2B)
  | .bara rs1 rs2 => some (rType 3 rs2 rs1 1 0 0x2B)
  | .barw rs1 rs2 => some (rType 4 rs2 rs1 1 0 0x2B)
  | .vote rd rs1 rs2 => some (rType 5 rs2 rs1 1 rd 0x2B)
  | .sstep rd => some (rType 6 0 0 1 rd 0x2B)
  | .gfuse rs1 => some (rType 7 0 rs1 1 0 0x2B)
  | .gsplit => some (rType 8 0 0 1 0 0x2B)
  | .qpush q rs1 => some (rType 0 (0#1 ++ q) rs1 2 0 0x2B)
  | .qpop rd q => some (rType 1 (0#1 ++ q) 0 2 rd 0x2B)
  | .qpeek rd q => some (rType 2 (0#1 ++ q) 0 2 rd 0x2B)
  | .msend rs1 rs2 len => some (rType 3 rs2 rs1 2 (0#2 ++ len) 0x2B)
  | .mpop rd ib rs1 => some (rType 4 (0#2 ++ ib) rs1 2 rd 0x2B)
  | .epush q rs1 => some (rType 0 0 rs1 3 (0#3 ++ q.code) 0x2B)
  | .epushb q rs1 rs2 => some (rType 1 rs2 rs1 3 (0#3 ++ q.code) 0x2B)
  | .epop rd q => some (rType 2 (0#3 ++ q.code) 0 3 rd 0x2B)
  | .epopnb rd q => some (rType 3 (0#3 ++ q.code) 0 3 rd 0x2B)
  | .gset g => some (rType 4 0 0 3 (0#1 ++ g) 0x2B)
  | .gclr g => some (rType 5 0 0 3 (0#1 ++ g) 0x2B)
  | .wfc rs1 => some (rType 6 0 rs1 3 0 0x2B)
  | .wfcy rs1 => some (rType 7 0 rs1 3 0 0x2B)
  | .wopen rd => some (rType 0 0 0 4 rd 0x2B)
  | .wcommit rs1 => some (rType 1 0 rs1 4 0 0x2B)
  | .wrewind rs1 => some (rType 2 0 rs1 4 0 0x2B)
  | .wstat rd rs1 => some (rType 3 0 rs1 4 rd 0x2B)
  | .bcb cb imm => some (bType imm (0#4 ++ cb) 6 0x2B)
  | .bcbn cb imm => some (bType imm (0#4 ++ cb) 7 0x2B)
  | .vwset vw rs1 rs2 => some (rType 0 rs2 rs1 0 (0#1 ++ vw) 0x5B)
  | .vwget rd vw half => some (rType 1 (0#4 ++ bool1 half) (0#1 ++ vw) 0 rd 0x5B)
  | .vld vw rs1 imm => some (iType imm rs1 1 (0#1 ++ vw) 0x5B)
  | .vst vw rs1 imm => some (sType imm (0#1 ++ vw) rs1 2 0x5B)
  | .tld vw col rs1 imm => some (iType imm rs1 3 (bool1 col ++ vw) 0x5B)
  | .tst vw col rs1 imm => some (sType imm (bool1 col ++ vw) rs1 4 0x5B)
  | .ringset rg rs1 rs2 => some (rType 0 rs2 rs1 5 (0#1 ++ rg) 0x5B)
  | .ringadv rg rs1 => some (rType 1 0 rs1 5 (0#1 ++ rg) 0x5B)
  | .ringrel rg rs1 => some (rType 2 0 rs1 5 (0#1 ++ rg) 0x5B)
  | .xmv dst src => some (rType 0 0 (0#1 ++ src) 6 (0#1 ++ dst) 0x5B)
  | .shape rs1 => some (rType 1 0 rs1 6 0 0x5B)
  | .nfcvtN rm fmt rd rs1 rs2 => some (rType (0#1 ++ rm.code ++ fmt) rs2 rs1 0 rd 0x7B)
  | .nfcvtF rm fmt rd rs1 rs2 => some (rType (1#1 ++ rm.code ++ fmt) rs2 rs1 0 rd 0x7B)
  | .nfpack fmt rd rs1 rs2 => some (rType (0#4 ++ fmt) rs2 rs1 1 rd 0x7B)
  | .nfunpk fmt rd rs1 rs2 => some (rType (0#4 ++ fmt) rs2 rs1 2 rd 0x7B)
  | .rngrd sid rd rs1 => some (rType sid 0 rs1 3 rd 0x7B)
  | _ => none

/-- The parcel that a trap of an instruction reports in `tdet1` (spec/15 R350). -/
def parcelOf (i : Instr) : Parcel := (encodeParcel i).getD 0

/-- Little-endian bytes of a value (spec/00 R3). -/
def bytesOf : Nat → Nat → List Byte
  | 0, _ => []
  | n + 1, v => BitVec.ofNat 8 v :: bytesOf n (v / 256)

/-- Value of little-endian bytes. -/
def valueOf : List Byte → Nat
  | [] => 0
  | b :: bs => b.toNat + 256 * valueOf bs

/-- Decode the bytes of a parcel. -/
def decodeParcelBytes (bs : List Byte) : DRes := decodeParcel (BitVec.ofNat 32 (valueOf (bs.take 4)))

/-- Decode the 32 bytes of a command word. -/
def decodeWordBytes (bs : List Byte) : DRes := decodeWord (BitVec.ofNat 256 (valueOf (bs.take 32)))

/-- The instruction the decoder reads from the bits of an opcode-table row: a parcel of 32 bits, or a command word of
256 bits, laid out in memory little-endian. -/
def decodeTableWord (nbits w : Nat) : Option Instr :=
  if nbits ≤ 32 then (decodeParcelBytes (bytesOf 4 (w % 2 ^ nbits))).toOption
  else (decodeWordBytes (bytesOf 32 (w % 2 ^ nbits))).toOption

end Sys2Proof
end

