-- ==== Sys2Proof/Machine/State.lean ====
section
/-! DEFINITION. The state of the KZ9 as plain data: the registers and queues of every core, the state of every
context, the memories, and the register blocks of the device. Registers that software reads whole are bit vectors;
counts, indices and addresses are natural numbers; tables are lists. -/

namespace Sys2Proof.Machine

/-- Why the machine stops with a fault. -/
inductive Fault where
  /-- Raised by a scalar instruction when the state's current core names no core of a context: there is no machine
  that could execute it. The model's own stop (safe: no claim about hardware passes through it). -/
  | noSuchCore
deriving DecidableEq, Repr

/-- Why an instruction has no meaning. -/
inductive Refusal where
  /-- The instruction is not modelled yet (safe). -/
  | notModelled (mnemonic : String)
deriving DecidableEq, Repr

/-- Memory: strictly rising addresses, no byte equal to what an unlisted address reads as (`unlistedByte`). -/
abbrev Mem := List Host.Cell

/-! ### Per-core pieces -/

/-- A pending prefix unit, spec/02 R35 to R37. -/
structure Pfx where
  pc  : Word
  imx : Option (BitVec 20)
  scx : Option Scope
deriving DecidableEq, Repr

/-- A task record, spec/11 R259: doublewords 0 and 1, the arguments `a0` to `a5`, and the hidden `pub`. -/
structure TaskRec where
  d0   : Word
  d1   : Word
  args : List Word
  pub  : Nat
deriving DecidableEq, Repr

/-- A trap: cause code and the values of `tval`, `tdet0`, `tdet1` (spec/15 R350). -/
structure TrapInfo where
  code : Nat
  tval : Word
  det0 : Word
  det1 : Word
deriving DecidableEq, Repr

/-- A handler entry fixed but not yet made, spec/15 R352. -/
structure DueEntry where
  epc  : Word
  trap : TrapInfo
deriving DecidableEq, Repr

/-- The CSRs of spec/09 R238 that hold state of their own, and `fcsr`. -/
structure Csrs where
  fcsr     : BitVec 8
  fmt      : Vector Word 8
  fitness  : Word
  ectl     : Word
  ev       : Vector Word 8
  nfs      : Word
  gsl      : Word
  rtvec    : Word
  rtsvc    : Word
  tepc     : Word
  tstat    : Word
  tscratch : Word
  tcause   : Word
  tval     : Word
  tdet0    : Word
  tdet1    : Word
deriving DecidableEq, Repr

/-- A view descriptor (spec/06 R130) or a ring descriptor (spec/05 R108). -/
structure Desc where
  d0 : Word
  d1 : Word
deriving DecidableEq, Repr

/-- The hidden pointers of a ring, spec/05 R109. -/
structure RingPtr where
  rd : BitVec 16
  wr : BitVec 16
deriving DecidableEq, Repr

/-- Where an access lands after address decode and translation (spec/03 R57 to R65). -/
inductive Place where
  | scratch (l a : Nat)         -- scratchpad of logical core `l` of the context
  | reg (a : Nat)               -- own register space
  | hbm (slot pa : Nat)         -- device HBM under a key slot
  | hostBulk (pa : Nat)
  | hostCoh (pa : Nat)
  | dev (off : Nat)             -- device registers
deriving DecidableEq, Repr

/-- A release that an acquire may synchronise with (spec/10 R247): the agent, a core or a word that it pushed; the scope; what was
visible to it, as a count of `State.seen`; how many of its writes of `fitness` came before (spec/13 R312). A load of some bytes of a
store learns no more of it than the order in which the cores of one die make stores visible (R248, R254). -/
structure Rel where
  by_  : CoreId
  word : Bool
  sc   : Scope
  at_  : Nat
  fits : Nat
  part : Bool
deriving DecidableEq, Repr

/-- What a buffered write does when it is performed. -/
inductive WriteKind where
  | store
  | addW | addD | addF          -- `redadd` posts, spec/09 R218
deriving DecidableEq, Repr

/-- A write waiting in a store buffer or an edge queue, spec/10 R245. -/
structure BufWrite where
  asid  : Nat
  l     : Nat
  place : Place
  n     : Nat
  val   : Nat
  kind  : WriteKind
  va    : Word
  rq    : Nat                   -- request sequence number
  seq   : Nat                   -- store sequence number
  win   : Option Nat            -- window open at issue
  sc    : Scope                 -- scope at which it is a release write (spec/10 R248)
  fits  : Nat                   -- writes of `fitness` by its core before it
  rels  : List Rel              -- earlier releases of its core (spec/10 R247)
  shown : Nat                   -- `State.seen` when its die came to see it, once it has left the store buffer
deriving DecidableEq, Repr

/-- A value that a load of the core took ahead of its turn (spec/10 R245, R248): where, the bytes, the releases that it carried, and
the agents that have written there since, each with the count of `State.seen` when it first did. -/
structure Early where
  place : Place
  bytes : List Byte
  rels  : List Rel
  newer : List (Option CoreId × Nat)
deriving DecidableEq, Repr

/-- A write that still stands at a place and the releases that it carries (spec/10 R247, R254): its core, the word of that core that
made it, whether some of its bytes have been overwritten. -/
structure Mark where
  place : Place
  n     : Nat
  by_   : CoreId
  uid   : Option Nat
  rels  : List Rel
  torn  : Bool
deriving DecidableEq, Repr

/-- A write of `fitness` that a population word may still miss (spec/13 R312): the value before it, its number among the core's, and
the cores that have acquired a release after it, with their store numbers then. -/
structure FitOld where
  old  : Word
  num  : Nat
  seen : List (Nat × Nat)
deriving DecidableEq, Repr

/-- What an atomic operation does to its word: an AMO with its operand, or a `samo` with its comparand and operand. -/
inductive Rmw where
  | amo (op : AmoOp) (n arg : Nat)
  | samo (op : SamoOp) (n cmp arg : Nat)
deriving DecidableEq, Repr

/-- A write that has raised LOG_FULL and waits (spec/14 R330): 0 a write, 1 an input entry, 2 a checkpoint, 3 a merge, 4 the write of an
instruction that waits; the store number it shows; the place it writes; what it is of, where the number may go on while it waits. -/
structure LogKey where
  kind  : Nat
  seq   : Nat
  place : Option Place
  who   : Nat
deriving DecidableEq, Repr

/-- Two keys name one wait. -/
def LogKey.same (a b : LogKey) : Bool :=
  a.kind == b.kind && a.place == b.place && a.who == b.who && (a.kind != 0 || a.seq == b.seq)

/-- Flipped bits stored in a 16-byte unit by an injection (spec/23 R443): the array, the owner of the unit (0 for HBM, else
the key of its core), the address an error log shows, how many bits. -/
structure Damage where
  arr   : Nat
  own   : Nat
  addr  : Word
  flips : Nat
deriving DecidableEq, Repr

/-- A message, spec/05 R117 to R119. -/
structure Msg where
  asid    : Nat
  src     : Nat
  srcLcn  : Nat
  target  : Word
  payload : List Byte
  win     : Option Nat
  seq     : Nat
  port    : Option Nat          -- neighbour port it travels by, R122
  ord     : Nat                 -- place among the messages and signals of its sender (R121)
  rq      : Nat                 -- request sequence number
  rels    : List Rel            -- what it carries (R119)
deriving DecidableEq, Repr

/-- An increment on its way to a counter, spec/11 R270, R271. -/
structure Incr where
  asid   : Nat
  src    : Nat
  dst    : Nat
  ctr    : Nat
  amount : Nat
  remote : Bool                 -- counts in the sender's rqout
  ord    : Nat                  -- place among the messages and signals of its sender (R121)
  rels   : List Rel             -- what it carries (R266)
deriving DecidableEq, Repr

/-- An armed record of the waiting-task table, spec/11 R265. -/
structure Armed where
  rec_ : TaskRec
  ctr  : Nat
  th   : Nat
  rels : List Rel               -- what the `arm` released (R266)
deriving DecidableEq, Repr

/-- A range of bytes: of the register space, or of the scratchpad of logical core `l`. -/
structure Region where
  reg   : Bool
  l     : Nat
  start : Nat
  len   : Nat
deriving DecidableEq, Repr

/-- A word inside an exchange block, captured with its shape record. -/
structure XWord where
  word  : CmdWord
  shape : List Byte
deriving DecidableEq, Repr

/-- A word of a push with everything captured with it (spec/09 R226). -/
structure PWord where
  word  : CmdWord
  fs    : Word
  va    : Desc
  vb    : Desc
  vd    : Desc
  vm    : Desc
  ca    : Word                  -- format register named by view a
  cb    : Word
  cd    : Word
  cm    : Word
  fa    : Word                  -- format registers of the fields fa, fb, fd
  fb    : Word
  fd    : Word
  shape : List Byte
  block : List XWord
deriving DecidableEq, Repr

/-- Where an exchange block of a push stands (spec/04 R95): its next slot, its loop counters, the words issued. -/
structure XRun where
  uid     : Nat                 -- issue number of the `xch` word
  pos     : Option Nat
  lc      : List Nat
  wait    : Bool
deriving DecidableEq, Repr

/-- An accepted push, spec/02 R44, spec/04 R78 to R84, spec/08 R171. -/
structure Push where
  rq      : Nat
  seq     : Nat
  win     : Option Nat
  words   : List PWord
  pos     : Option Nat          -- slot at the head; none when the block has ended
  lc      : List Nat
  wait    : Bool                -- the head was reached by WAIT
  xrun    : Option XRun
  promise : Word                -- 0 when the push has none
  missed  : Bool                -- PROMISE_MISSED raised, or voided
  edges   : List BufWrite       -- edge-queue entries present at the push (spec/10 R250)
  lcn     : Nat                 -- logical core number of the pushing task
  runtime : Bool                -- level of the core at the push (notes/assumptions/21.md)
  decided : Option Bool         -- guard decision of the word at the head, once made (spec/09 R223)
  came    : Nat                 -- cycle of the push
  gone    : List (Nat × Nat)    -- words discarded in the latest cycle that had a discard: word and cycle (spec/09 R224)
  old     : Bool                -- made before the latest stop of its context (spec/21 R405)
deriving DecidableEq, Repr

/-- Key-slot state, spec/03 R77; `keyed k` holds the name of a key. -/
inductive KeySt where
  | empty | plain | keyed (k : Nat)
deriving DecidableEq, Repr

/-- One run of a copy word still to be done, or a part of one (spec/04 R93, R88). -/
structure Piece where
  sspace : Nat
  sa     : Nat
  dspace : Nat
  da     : Nat
  dl     : Nat                  -- logical core of a `bcs` destination
  n      : Nat
  ahead  : List Byte            -- bytes from `sa` on that were read already
  behind : List Byte            -- bytes at its end that were read already
  tr     : Nat                  -- number of the run it is of: one transfer of R334
  cl     : Bool                 -- its start, and its end, is a cut within the run
  cr     : Bool
  snap   : List (Option Byte)   -- its source as it stood at a fault, from its first byte on; empty while there was none (spec/15 R365)
deriving DecidableEq, Repr

/-- The state of a key slot when a word began the 64-byte line of device HBM at `line`: the word keeps it to the end of that line
(spec/03 R77). -/
structure KeyWas where
  slot : Nat
  line : Nat
  was  : KeySt
deriving DecidableEq, Repr

/-- What an issued word still has to do: spec/08 R173 to R175, spec/04 R87, spec/15 R358. -/
structure Flight where
  uid      : Nat                -- issue number on its core
  q        : Queue
  rq       : Nat
  slot     : Nat
  op       : Nat
  win      : Option Nat
  seq      : Nat
  occEnd   : Nat                -- cycle its occupancy ends
  retireAt : Nat                -- first cycle it can retire
  acc      : Bool               -- `mzero` or an accumulating command (L' = 0 forwarding)
  reads    : List Region
  writes   : List Region
  pops     : List (Nat × Nat)   -- ring, entries
  pubs     : List (Nat × Nat)
  result   : Option Word
  sig      : Option Nat
  scope    : Nat                -- scope code
  edges    : List BufWrite
  faulted  : Bool
  pieces   : List Piece         -- copy word: what is left
  logs     : List (Nat × Nat × Nat)  -- scratchpad extents still to be logged: core, address, bytes (spec/04 R100)
  keyWas   : List KeyWas        -- lines it has begun under slots that have changed since (spec/03 R77)
  word     : CmdWord
  scrW     : List (Nat × List Byte)  -- scratchpad writes that still wait for log slots: address, bytes (R175)
  olds     : List (Bool × Nat × List Byte)  -- what its destination held: register space or scratchpad, address, bytes
  xparent  : Option Nat         -- issue number of the `xch` word it belongs to
  xpend    : Bool               -- an `xch` waiting for its block
  done     : Nat                -- destination bytes completed
  suspended : Bool
  lineage  : List (List Byte)   -- lineage records it creates
  eng      : Nat                -- copy engine of its die that runs it (R78)
  evAdd    : List Nat           -- event counts its retirement adds (spec/09 R239)
  nfAdd    : Bool               -- its retirement sets `nfsticky` (spec/08 R207)
  send     : Option (Nat × Packet)  -- a `pmig`: its port and packet, of which `pieces` are still to go
  old      : Bool               -- of a push made before the latest stop of its context (spec/21 R405)
deriving DecidableEq, Repr

/-- Completion of a word that retired under the halt line, spec/15 R358. -/
structure Held where
  asid   : Nat
  l      : Nat
  flight : Flight
deriving DecidableEq, Repr

/-- What a later word of the same queue may depend on (spec/08 R180). -/
structure DepRec where
  writes : List Region
  vEnd   : Nat                  -- end of its occupancy as it would be with the scoreboard off
  lat    : Nat
  acc    : Bool
deriving DecidableEq, Repr

/-- One engine queue with its result FIFO; an element carries the window tag of the push that placed it. -/
structure EQueue where
  pushes  : List Push
  fifo    : List (Word × Option Nat × List Rel)  -- elements, the window of each, what it carries (spec/10 R250)
  lastEnd : Nat                 -- end of the occupancy of the last word issued or discarded
  vEnd    : Nat                 -- the same as it would be with the scoreboard off (spec/08 R182)
  deps     : List DepRec
deriving DecidableEq, Repr

/-- A checkpointed unit: register-space unit, or state unit (spec/14 R331), with the ring slot it takes. -/
structure CkUnit where
  reg   : Bool
  idx   : Nat
  val   : Nat                   -- 128 bits
  slot  : Nat
deriving DecidableEq, Repr

/-- A checkpoint. -/
structure Ckpt where
  win   : Nat
  rec_  : Bool                  -- recording was on from its opening (spec/21 R410)
  runtime : Bool                -- level of the core when the window opened (notes/assumptions/9.md)
  cont    : Bool                -- continuation flag and hidden `pub` of the task (notes/assumptions/9.md)
  pub     : Nat
  seq   : Nat                   -- next store sequence number at its opening
  units : List CkUnit
  drained : Bool
deriving DecidableEq, Repr

/-- An input entry, spec/14 R346. -/
structure InputEnt where
  win   : Nat
  count : Nat
  kind  : Nat
  val   : Word
  seq   : Nat                   -- next store sequence number when it was made
  slot  : Nat
  used  : Bool
  drained : Bool
deriving DecidableEq, Repr

/-- Window values of a core, spec/14 R322: `unc` holds (o, h) while a window is uncommitted. -/
structure WinSt where
  wnext : BitVec 32
  unc   : Option (BitVec 32 × BitVec 32)
deriving DecidableEq, Repr

/-- A breakpoint or watchpoint slot, spec/21 R403. -/
structure DbgSlot where
  addr : Word
  ctl  : BitVec 8
deriving DecidableEq, Repr

/-- A gang, spec/11 R281 to R284: bench-core mask; the members are cores of one bench. -/
structure Gang where
  mask : BitVec 4
deriving DecidableEq, Repr

/-- An open arrival at a barrier name, spec/11 R274 to R276. -/
structure Arrival where
  name : Nat
  grp  : Nat
  gth  : Bool
  done : Bool                   -- the barrier has completed
  res  : Word                   -- vote result
  record : List Byte            -- gathered record of R169
  rels   : List Rel             -- what the completed barrier carries
  by_  : Option (Nat × Word)    -- core whose waiting `bar` or `vote` made it, and its pc
deriving DecidableEq, Repr

/-- A byte of this core's scratchpad or register space that an engine wrote and its loads may still miss (spec/10 R251): what it held
before the write. A write of a whole aligned 16 bytes is missed whole, any other byte by byte (R243). -/
structure Stale where
  reg : Bool
  a   : Nat
  old : Byte
  atom : Bool                   -- the engine's write was an `rdx` update (spec/09 R217)
  whole : Bool                  -- it wrote the whole aligned 16 bytes
deriving DecidableEq, Repr

/-- A replay in progress on a core (spec/21 R411). -/
structure ReplaySt where
  target : Nat
deriving DecidableEq, Repr

/-- Everything a bank and a scratchpad hold for one logical core of a context (spec/15 R370). -/
structure CoreSt where
  id       : CoreId
  x        : Vector Word 32
  f        : Vector Word 32
  pc       : Word
  runtime  : Bool
  pfx      : Option Pfx
  resv     : Option Place       -- LR/SC granule
  csr      : Csrs
  gslSeen  : Word               -- `gsl` as its queues see it: as it stood when the cycle began (spec/09 R222)
  instret  : Word
  task     : Option TaskRec
  cont     : Bool
  stage    : Option Nat
  vw       : Vector Desc 16
  rg       : Vector Desc 16
  rgp      : Vector RingPtr 16
  reg      : Mem
  scratch  : Mem
  wLines   : BitVec 512
  wRegs    : BitVec 64
  sLines   : BitVec 512
  sRegs    : BitVec 64
  ctrs     : List (Nat × Nat)   -- counters: rising index, no zero value
  waiting  : List Armed
  inbox    : List (List Msg)    -- eight inboxes
  outq     : List Msg
  eqm      : EQueue
  eqv      : EQueue
  eqc      : EQueue
  eqp      : EQueue
  flights  : List Flight
  sb       : List BufWrite
  late     : List TrapInfo      -- refusals on their way back
  pend     : List TrapInfo      -- pending traps of kind A
  due      : Option DueEntry
  win      : WinSt
  ckpts    : List Ckpt
  inputs   : List InputEnt
  storeSeq : BitVec 40
  reqSeq   : BitVec 16
  rqout    : Nat
  issueNo  : Nat                -- words issued so far (model's own)
  sentNo   : Nat                -- messages and signals sent so far (model's own, R121)
  dicnt    : Nat
  gang     : Option Gang
  fuse     : Option (BitVec 4)  -- mask of an open `gfuse` arrival
  arrivals : List Arrival
  sstepAt  : Option Nat         -- PCC tick of the sstep arrival of this logical number
  sstepBy  : Option (Nat × Word × Reg)  -- core that waits at it, its pc and its rd
  sstepDone : Bool              -- the superstep it waits on has completed
  genNum   : BitVec 32
  bp       : Vector DbgSlot 8
  wp       : Vector DbgSlot 4
  ibuf     : List (Word × Bool × Parcel)  -- parcels fetched ahead: VA, at the runtime level, parcel
  stale    : List Stale
  stopped  : Bool               -- stopped by the halt line
  fcause   : Option Nat         -- fault of kind F this core raised
  memRw    : Option Nat         -- memory rewound by the debugger to this sequence number
  stepping : Bool               -- allowed to run by STEP or REPLAY
  replay   : Option ReplaySt
  committed : List CkUnit       -- newest committed image of each unit (R332)
  logWait  : List LogKey        -- writes for which LOG_FULL was raised and that still wait (R330)
  draining : List Ckpt          -- checkpoints, no longer of an uncommitted window, that have not reached the ring (R329)
  early    : List Early         -- loads taken ahead (spec/10 R245)
  fits     : List FitOld        -- its writes of `fitness`, newest first, that a word may still miss (spec/13 R312)
  fitNo    : Nat                -- its writes of `fitness` so far
  rels     : List Rel           -- its latest release at each scope, of which its next stores are release writes (spec/10 R247)
  heard    : List Rel           -- releases whose writes its loads have read
  ctrRels  : List (Nat × Rel)   -- what the increments of its counters carried: counter, release (spec/11 R266)
  sstepRels : List Rel          -- what the superstep barrier carries to it
  hostAmo  : Option (Option Nat)  -- an atomic to host memory that an open window holds, and its answer (spec/14 R334)
  rewinding : Option Nat        -- a rewind to this window is under way (R339)
deriving DecidableEq, Repr

/-! ### Contexts -/

/-- Run state of a context, spec/15 R370 to R373. -/
inductive RunSt where
  | running | banked | spilled
deriving DecidableEq, Repr

/-- A log entry for memory, spec/14 R325, R326: where it lies physically, its old bytes, the ring slots it takes. -/
structure LogEntry where
  l       : Nat                 -- core charged
  win     : Nat
  seq     : Nat
  atom    : Bool
  place   : Place
  spc     : Nat
  old     : List Byte
  block   : Bool
  slots   : List Nat
  drained : Bool
  applied : Bool
  word    : Option Nat          -- issue number of the engine word that wrote to device memory
deriving DecidableEq, Repr

/-- An open barrier, spec/11 R275. -/
structure Barrier where
  grp     : Nat
  name    : Nat
  gth     : Bool
  members : List Nat            -- logical numbers of the snapshot still waited for or arrived
  arrived : List Nat            -- logical numbers that arrived
  cens    : List (Nat × Nat)    -- logical number, counter of its holder to increment at completion
  ballots : List Nat            -- ballots cast
  evs     : List Nat            -- gathered counters
  sticky  : Bool
  rels    : List Rel            -- what its arrivals released
deriving DecidableEq, Repr

/-- A stage-queue entry: key and payload in acceptance order, and what its push released (spec/12 R299). -/
structure SqEntry where
  key  : BitVec 32
  pay  : BitVec 31
  rels : List Rel
deriving DecidableEq, Repr

/-- A runnable record in a die's pool, spec/11 R262. -/
structure PoolRec where
  asid   : Nat
  rec_   : TaskRec
  passed : Nat
  raised : Bool
  home   : Nat                  -- die that counts as holding its `lcn` (spec/12 R304)
  rels   : List Rel             -- what its publication carried (R266)
deriving DecidableEq, Repr

/-- Items between dies: records in transit to a pool, or moved stage-queue entries (spec/12 R305). -/
inductive Transit where
  | recs (asid die : Nat) (rs : List PoolRec)
  | entries (asid q die : Nat) (es : List SqEntry)
deriving DecidableEq, Repr

/-- A stop record, spec/15 R360, as 64 bytes. -/
abbrev StopRec := List Byte

/-- The launch parameters of a context, spec/11 R285. -/
structure LaunchPar where
  entry   : Word
  units   : Nat
  pclass  : Nat
  sbck    : Bool
  nb      : Nat
  fp      : Nat
  asid    : Nat
  lfull   : Nat
  undo    : Nat
  seed    : Word
  xb      : List Word
  arg0    : Word
  arg1    : Word
  sc0     : Word
  sc1     : Word
  doneVa  : Word
  logring : Word
  logsize : Nat
deriving DecidableEq, Repr

/-- Why the halt line is up. -/
structure HaltInfo where
  cause   : Nat                 -- cause code; 0 for a debugger stop
  l       : Nat                 -- core whose event raised it
  lcn     : Nat
  tick    : Nat
  reached : Bool                -- the stop is complete: records written
  frozen  : Bool                -- copy words keep what they have yet to read (spec/15 R365)
deriving DecidableEq, Repr

/-- The last word of the context that a unit retired: kind of unit, its number, the pushing core's logical number, request
sequence number and slot (spec/15 R360). -/
structure UnitLast where
  kind : Nat
  unit : Nat
  l    : Nat
  rq   : Nat
  slot : Nat
deriving DecidableEq, Repr

/-- A context, spec/11 R257. -/
structure Ctx where
  asid     : Nat
  par      : LaunchPar
  benches  : List Nat           -- die * 36 + bench, rising
  run      : RunSt
  qpos     : Nat                -- launch-queue position
  sscnt    : BitVec 32
  groups   : List (Nat × Nat)   -- (group, lcn), groups 1 to 4,095
  barriers : List Barrier
  squeues  : List (Nat × Nat × SqEntry)   -- (die, q, entry) in acceptance order
  lastGov  : List (Nat × Nat)   -- die, tick
  lastBal  : Nat
  loads    : List (Nat × Nat × List Nat × Int)  -- vectors the balancer has read: die, tick, occupancies, records less idle cores
  lineage  : List (Nat × Option Nat × List Byte)  -- unflushed records: pushing core, window, bytes
  log      : List LogEntry
  freeing  : List Nat           -- ring slots freed whose marker is not yet written
  tdm      : BitVec 8
  halt     : Option HaltInfo
  preempt  : Option (Option Nat) -- a pre-emption is due, in favour of a context if any
  recs     : List StopRec
  units    : List UnitLast       -- units that have held a word of the context (spec/15 R360)
  held     : List Held
  owed     : List (Nat × Nat)   -- words whose completions were held at the last resumption, in order of retirement: core, issue number
  since    : Nat                -- tick since which it runs
  agreed   : Bool
  swapped  : List (Nat × Nat)   -- scratchpad blocks (core, block) moved out
  precise  : Bool               -- a STOP at the next precise point is waiting
  recording : Bool               -- replay recording is on
  spillIn  : List (Nat × Nat)   -- blocks still to come in
  banks    : List (Nat × Nat)   -- which of its two banks a bench gives the context: bench, 0 or 1 (spec/15 R370)
  spillAt  : List (Nat × Nat × Nat)   -- core, block, and the eights of units that the spill engine has moved out and in for it
  wanted   : List (Nat × Nat)   -- blocks that an access waits for (spec/15 R372)
  fed      : Nat                -- work units whose record the dispatcher has made runnable
deriving DecidableEq, Repr

/-! ### Devices -/

/-- State of a compute die, spec/22 R417. -/
inductive DieSt where
  | live | transit | reroute | drain | reset | rejoin | absent
deriving DecidableEq, Repr

/-- A cached leaf: page base VA, leaf level, entry (spec/03 R67). -/
structure TlbEnt where
  asid  : Nat
  level : Nat
  tag   : Nat
  pte   : Word
deriving DecidableEq, Repr

/-- An entry of a die's shadow table, spec/09 R219, oldest first. -/
structure Shadow where
  asid : Nat
  slot : Nat
  pa   : Nat
  kind : WriteKind
  sum  : Nat
  by_  : List Nat               -- logical cores that contributed, the starter first
deriving DecidableEq, Repr

/-- Host-bound bytes that lie together, and the address they were written by. -/
structure HostPart where
  va   : Word
  pa   : Nat
  data : List Byte
deriving DecidableEq, Repr

/-- The transfer that host-bound bytes are part of: a store, or a run of an engine word (its issue number, and the run). -/
inductive Transfer where
  | store
  | run (uid tr : Nat)
deriving DecidableEq, Repr

/-- A held item of an egress buffer, spec/14 R334. -/
inductive HeldItem where
  | host (asid l win : Nat) (tr : Transfer) (parts : List HostPart) (left : Nat)   -- `left` bytes are still to come
  | atom (asid l win : Nat) (va : Word) (pa : Nat) (op : Rmw)
  | devreg (asid l win : Nat) (va : Word) (off n : Nat) (v : Word)
  | packet (asid l win port : Nat) (p : Packet) (off n : Nat)    -- `n` bytes of its weights from `off` on
deriving DecidableEq, Repr

/-- JMU lease of a bench, spec/08 R176: holder core 0 to 3, words issued in the run, cycle the run began. -/
structure Lease where
  holder : Option Nat
  words  : Nat
  start  : Nat
  ends   : Bool                 -- the gang that held it has split: the run ends at the next word boundary (R178)
  last   : Nat                  -- core of the bench whose word the JMU took last (R178)
  busy   : Nat                  -- cycle the JMU's current word ends its occupancy
  vbusy  : Nat                  -- the same of the bench vector unit
  vlast  : Nat                  -- core of the bench whose word the vector unit took last (R179)
  clast  : Nat                  -- core of the bench whose word its copy port took last (spec/04 R80)
deriving DecidableEq, Repr

/-- A compute die. -/
structure Die where
  st      : DieSt
  edge    : List BufWrite
  shadow  : List Shadow
  pool    : List PoolRec
  egress  : List HeldItem
  leafs   : List TlbEnt
  ptrs    : List TlbEnt
  leases  : List Lease          -- 36
  pass    : Bool                -- passed self-test at boot
  tripped : Option Nat          -- tick of a current trip
  halved  : List Nat            -- benches at half clock
  lost    : Bool
  portLast : Nat                -- bench whose port was given a copy engine last (spec/04 R81)
  popLast : Nat                 -- core of the die whose population word issued last (spec/13 R308)
  skew    : Nat                 -- PCC skew in ticks, 0 to 2 (R19)
deriving DecidableEq, Repr

/-- An invalidation, spec/03 R69. -/
inductive Inval where
  | page (asid vpn : Nat) | asid (a : Nat) | all
deriving DecidableEq, Repr

/-- Rabor port registers, spec/22 R433. -/
structure Port where
  peer : BitVec 32
  lst  : BitVec 2
  bv   : Bool
  basid : Nat
  rxok : Word
  dunb : BitVec 16
  dgrp : BitVec 16
  dsize : BitVec 16
  dlin : BitVec 16
deriving DecidableEq, Repr

/-- Launch block, spec/22 R428. -/
structure LaunchBlk where
  lqbase  : Word
  lqsize  : Nat
  lqhead  : BitVec 32
  lqhslot : Nat
  lqtail  : BitVec 32
  next    : BitVec 32           -- next position the dispatcher looks at
  err     : Bool
  fin     : List Nat            -- positions finished out of order
deriving DecidableEq, Repr

/-- A debug command in progress that requests on their way hold up (spec/14 R339, spec/15 R364): a rewind of some cores to a window, or
the RESUME of a fault. -/
inductive DbgTodo where
  | rewind (w : Nat) (ls : List Nat)
  | resume
deriving DecidableEq, Repr

/-- Debug block, spec/21 R401. -/
structure DbgBlk where
  en     : Bool
  asid   : Nat
  dcore  : Word
  darg   : Word
  slcn   : BitVec 24
  why    : BitVec 8
  err    : Bool
  rec_   : Bool
  busy   : Bool
  state  : Nat
  ddiv   : Word
  sper   : Nat
  trk    : BitVec 6
  trbase : Word
  trsize : Nat
  trtail : Word
  dloc   : Word
  dslot  : Word
  baddr  : Word
  bctl   : BitVec 8
  sridx  : Nat
  prev   : Nat                  -- state before a step
  rewound : List Nat            -- cores that REWIND_WIN has rewound and that stand so still (REPLAY needs them)
  todo   : Option DbgTodo       -- what the command in progress has still to do
deriving DecidableEq, Repr

/-- Management block, spec/23 R435, with the event log, the error logs and the update state. -/
structure Mgmt where
  sidx   : Nat
  evlog  : List (Nat × Word × Word)   -- slot, doublewords
  evhead : Word
  errAt  : Nat × Nat            -- cycle of the latest error event, and how many of that cycle stand last in the log (spec/23 R445)
  evslot : Nat
  ubase  : Word
  ulen   : Nat
  err    : Bool
  ust    : Nat
  act    : Bool                 -- active slot: true for B
  iarr   : Nat
  inb    : Nat
  iaddr  : Word
  eslot  : Nat
  earr   : Nat
  elog   : List (Nat × Nat × Word × Word)  -- array, slot, doublewords
  ecount : List (Nat × Nat × Nat × Nat)    -- array, entries written, corrected, uncorrectable
  sensors : List (Nat × BitVec 32)
  staged : Option (Nat × Nat)   -- PA and length of the staged image, being verified or pending
  slotA  : UpdateImages         -- what update slots A and B hold
  slotB  : UpdateImages
  injected : List Damage
deriving DecidableEq, Repr

/-- Fuses of the trust die (spec/22 R420): SHAKE256 hashes of root public keys with their revocations, four slots; the least
security versions of the trust die's firmware, of an I/O die image and of a compute die image. -/
structure Fuses where
  roots  : List (Nat × Bool)
  minFw  : Nat
  minIo  : Nat
  minDie : Nat
deriving DecidableEq, Repr

/-- Trust state: measurements and the SPDM connection, spec/22 R423, R424. -/
structure Trust where
  booted : Bool
  up     : Bool                 -- the link is up
  meas   : List (Nat × List Byte)
  vers   : Bool
  caps   : Bool
  alg    : Bool
  transcript : List Byte
  answers : List (List Byte)
  fuses   : Fuses
deriving DecidableEq, Repr

/-- Key control, spec/22 R425. -/
structure KeyBlk where
  slots  : List (Nat × KeySt)   -- slots not listed are empty
  busy   : Bool
  err    : Bool
  nextKey : Nat
deriving DecidableEq, Repr

/-- What an ended context leaves in its bank of one bench until the bank holds another context (spec/15 R361): its stop records of
that bench's units, each with its place among those of the context, and the final state of its cores there. -/
structure Grave where
  asid  : Nat
  qpos  : Nat
  bench : Nat
  bank  : Nat
  recs  : List (Nat × StopRec)
  cores : List CoreSt
deriving DecidableEq, Repr

/-- A unit of a core's scratchpad that an access asks for (spec/05 R105, R106): the requester in R106's order (0 spill engine, 1 JMU,
2 vector unit, 3 copy engine, 4 message delivery, 5 die window, 6 core scalar), the access, the cycle by which it must have asked,
and the cycles the unit has waited. -/
structure BankAsk where
  asid   : Nat
  l      : Nat
  who    : Nat
  acc    : Nat
  unit   : Nat
  by_    : Nat
  waited : Nat
  came   : Nat                   -- cycle in which it was made
deriving DecidableEq, Repr

/-- Which agent moves next. The agenda is an input: any order of agents is some agenda. -/
inductive Act where
  | core (c : CoreId)                     -- a core fetches and executes
  | ev (i : Instr)                        -- a step of the hardware, the host or the debugger
  | send (c : CoreId)                     -- the oldest message of a core's outbound queue enters the network
  | select (c : CoreId)                   -- the core whose queues the next command word is taken from
  | tick (n : Nat)                        -- `n` core cycles pass
  | prefetch (c : CoreId) (va : Word)     -- the core fetches a parcel ahead (spec/10 R255)
  | copyPiece (c : CoreId) (i k o n : Nat)  -- `n` bytes from byte `o` on of piece `k` of the copy word in flight `i`
  | copyRead (c : CoreId) (i k o n : Nat)   -- the same bytes are read, and written later (spec/04 R88)
  | copyStart (c : CoreId)                -- a copy word issues and leaves its pieces to do
  | holdBank (who acc : Nat)              -- a word in an engine asks the banks later (spec/05 R105)
  | spillUnits (asid l b : Nat)           -- the spill engine moves units of a block (spec/05 R105, spec/15 R372)
  | loadAhead (c : CoreId) (va : Word) (n : Nat)  -- a load of the core begins before its turn (spec/10 R245)
  | hostStore (pa : Nat) (bs : List Byte) -- the host writes its own memory (R74)
  | readLoads (asid die : Nat)            -- the balancer reads a die's vector (spec/12 R302)
  | useUnit (c : CoreId) (reg : Bool) (a : Nat)  -- an engine's write is seen by chance (spec/10 R251)
  | upset (c : CoreId) (arr : Nat) (a : Word) (flips : Nat)  -- stored bits flip by themselves (spec/23 R442)
  | command                               -- the debug command in progress goes on (spec/21 R402)
  | unitWritten (arr : Nat) (a : Word)    -- a unit of an array whose units the manual does not lay out is written
  | unitUsed (c : CoreId) (d : Damage)    -- a damaged or poisoned unit of such an array is read for a core (spec/23 R442)
deriving DecidableEq, Repr

/-- What the last scalar instruction did: the model's own note, read by gangs, STEP and REPLAY. -/
inductive Note where
  | none | retired | waited | rewound | trapped (t : TrapInfo) (epc : Word)
deriving DecidableEq, Repr

/-- The machine. -/
structure State where
  cores   : List CoreSt
  ctxs    : List Ctx
  dies    : List Die
  hbm     : Mem
  ktag    : List (Nat × Nat)    -- address, key tag plus one of the bytes not written plain
  host    : Mem
  hostOut : List (Nat × List Byte)  -- host-bound writes accepted by the link, oldest first
  hostReads : List (Nat × List Byte)  -- what host reads of device HBM returned, oldest first (R75)
  poison  : List (Nat × Nat × Nat)  -- poisoned units: array code, owner (as in Damage), address
  msgs    : List Msg            -- messages in flight
  incrs   : List Incr           -- increments in flight
  transit : List Transit
  graves  : List Grave          -- what the banks of ended contexts still hold
  keys    : KeyBlk
  launch  : LaunchBlk
  asidbase : Word
  invq    : List Inval
  invHeld : List Inval            -- host writes held by a full queue (spec/03 R69)
  invErr  : Bool
  pmode   : BitVec 2
  slice   : BitVec 32
  bmasks  : Vector (BitVec 36) 8
  lmask   : BitVec 8
  pkgErr  : Bool
  ports   : List Port
  sent    : List (Nat × Packet) -- packets sent, oldest first
  dbg     : DbgBlk
  mgmt    : Mgmt
  trust   : Trust
  cycle   : Nat
  bankq   : List BankAsk        -- units asked for and not yet served
  bankHeld : List (Nat × Nat)   -- accesses that ask for none in this cycle
  busq    : List (Nat × Nat × Word)   -- device-register writes posted: offset, bytes, value
  cur     : CoreId
  curq    : Queue
  agenda  : List Act
  seen    : Nat                 -- writes that have become visible while a load taken ahead might turn on them (spec/10 R247)
  marks   : List Mark           -- those that still stand
  fresh   : Nat
  note    : Note
deriving DecidableEq, Repr

/-! ### Reset (spec/00 R9) -/

/-- Control and status registers at reset. -/
def Csrs.reset : Csrs :=
  { fcsr := 0, fmt := Vector.replicate 8 0x000D073C#64, fitness := 0, ectl := 0, ev := Vector.replicate 8 0#64,
    nfs := 0, gsl := 0x00010001#64, rtvec := 0, rtsvc := 0, tepc := 0, tstat := 0, tscratch := 0, tcause := 0,
    tval := 0, tdet0 := 0, tdet1 := 0 }

def EQueue.empty : EQueue := { pushes := [], fifo := [], lastEnd := 0, vEnd := 0, deps := [] }

/-- A core when its context is created (spec/11 R257, spec/06 R144: every dirty bit set). -/
def CoreSt.init (id : CoreId) : CoreSt :=
  { id, x := Vector.replicate 32 0, f := Vector.replicate 32 0, pc := 0, runtime := false, pfx := none, resv := none,
    csr := Csrs.reset, instret := 0, task := none, cont := false, stage := none,
    vw := Vector.replicate 16 ⟨0, 0⟩, rg := Vector.replicate 16 ⟨0, 0⟩, rgp := Vector.replicate 16 ⟨0, 0⟩,
    gslSeen := 0x00010001#64, reg := [], scratch := [], wLines := BitVec.allOnes 512, wRegs := BitVec.allOnes 64,
    sLines := BitVec.allOnes 512, sRegs := BitVec.allOnes 64, ctrs := [], waiting := [],
    inbox := List.replicate 8 [], outq := [], eqm := .empty, eqv := .empty, eqc := .empty, eqp := .empty,
    flights := [], sb := [], late := [], pend := [], due := none, win := ⟨0, none⟩, ckpts := [], inputs := [],
    storeSeq := 0, reqSeq := 0, rqout := 0, issueNo := 0, sentNo := 0, dicnt := 0, gang := none, fuse := none, arrivals := [],
    sstepAt := none, sstepBy := none, sstepDone := false, genNum := 0, bp := Vector.replicate 8 ⟨0, 0⟩, wp := Vector.replicate 4 ⟨0, 0⟩,
    ibuf := [], stale := [], stopped := false, fcause := none, memRw := none, stepping := false, replay := none,
    committed := [], logWait := [], draining := [], early := [], fits := [], fitNo := 0, rels := [], heard := [], ctrRels := [],
    sstepRels := [], hostAmo := none, rewinding := none }

/-- A JMU that no slot has leased, and a vector unit, before their first word. -/
def Lease.free : Lease := { holder := none, words := 0, start := 0, ends := false, last := 3, busy := 0, vbusy := 0, vlast := 3, clast := 3 }

/-- A compute die at package reset: absent until boot makes it live (notes/assumptions/5.md). -/
def Die.reset : Die :=
  { st := .absent, edge := [], shadow := [], pool := [], egress := [], leafs := [], ptrs := [],
    leases := List.replicate 36 Lease.free, pass := false, tripped := none, halved := [], lost := false, portLast := 35, popLast := 143, skew := 0 }

def Port.reset : Port :=
  { peer := 0, lst := 0, bv := false, basid := 0, rxok := 0, dunb := 0, dgrp := 0, dsize := 0, dlin := 0 }

def DbgBlk.reset : DbgBlk :=
  { en := false, asid := 0, dcore := 0, darg := 0, slcn := 0xFFFFFF, why := 0, err := false, rec_ := false,
    busy := false, state := 0, ddiv := 0, sper := 0, trk := 0, trbase := 0, trsize := 0, trtail := 0, dloc := 0,
    dslot := 0, baddr := 0, bctl := 0, sridx := 0, prev := 0, rewound := [], todo := none }

/-- An erased image, and an update slot that holds nothing but erased ones (notes/assumptions/57.md). -/
def SignedImage.blank : SignedImage := { body := [], key := ⟨[], []⟩, sig := ⟨0, [], [], []⟩ }
def UpdateImages.blank : UpdateImages := { io := SignedImage.blank, die := SignedImage.blank }

def Mgmt.reset : Mgmt :=
  { sidx := 0, evlog := [], evhead := 0, errAt := (0, 0), evslot := 0, ubase := 0, ulen := 0, err := false, ust := 0, act := false,
    iarr := 0, inb := 0, iaddr := 0, eslot := 0, earr := 0, elog := [], ecount := [], sensors := [], staged := none,
    slotA := UpdateImages.blank, slotB := UpdateImages.blank, injected := [] }

/-- Fuses of a device as it is made (notes/assumptions/57.md). -/
def Fuses.reset : Fuses := { roots := [(0, false), (1, false), (2, false), (3, false)], minFw := 0, minIo := 0, minDie := 0 }

/-- The machine right after package reset, before boot (spec/22 R420 boots it; notes/assumptions/7.md). -/
def State.reset : State :=
  { cores := [], ctxs := [], dies := List.replicate 8 Die.reset, hbm := [], ktag := [], host := [], hostOut := [],
    hostReads := [], poison := [], msgs := [], incrs := [], transit := [], graves := [],
    keys := { slots := [], busy := false, err := false, nextKey := 0 },
    launch := { lqbase := 0, lqsize := 0, lqhead := 0, lqhslot := 0, lqtail := 0, next := 0, err := false, fin := [] },
    asidbase := 0, invq := [], invHeld := [], invErr := false, pmode := 0, slice := 0, bmasks := Vector.replicate 8 0, lmask := 0,
    pkgErr := false, ports := List.replicate 12 Port.reset, sent := [], dbg := DbgBlk.reset, mgmt := Mgmt.reset,
    trust := { booted := false, up := false, meas := [], vers := false, caps := false, alg := false,
               transcript := [], answers := [], fuses := Fuses.reset },
    cycle := 0, bankq := [], bankHeld := [], busq := [], cur := ⟨0, 0⟩, curq := .eqm, agenda := [], seen := 0, marks := [],
    fresh := 0, note := .none }

end Sys2Proof.Machine
end

