-- ==== Sys2Proof/Machine/Mem.lean ====
section
/-! DEFINITION. Sparse byte memory in canonical form, and little-endian accesses built from bytes (spec/00 R3). -/

namespace Sys2Proof.Machine

/-- What a byte that nothing has written reads as (notes/assumptions/3.md). -/
def unlistedByte : Byte := 0

/-- The canonical form: addresses strictly rising, no listed byte equal to what an unlisted one reads as. -/
abbrev Mem.wf (m : Mem) : Prop := m.Pairwise (fun p q => p.1 < q.1) ∧ ∀ p ∈ m, p.2 ≠ unlistedByte

/-- One byte. -/
def Mem.read : Mem → Nat → Byte
  | [], _ => unlistedByte
  | (k, b) :: m, a => if k = a then b else Mem.read m a

/-- `n` bytes from `a` upward. -/
def Mem.readBytes (m : Mem) (a : Nat) : Nat → List Byte
  | 0 => []
  | n + 1 => m.read a :: Mem.readBytes m (a + 1) n

/-- The cells that hold `bs` from `a` upward. -/
def Mem.cells : Nat → List Byte → Mem
  | _, [] => []
  | a, b :: bs => if b = unlistedByte then Mem.cells (a + 1) bs else (a, b) :: Mem.cells (a + 1) bs

/-- Memory with `bs` written from `a` upward. -/
def Mem.write (m : Mem) (a : Nat) (bs : List Byte) : Mem :=
  m.filter (fun p => decide (p.1 < a)) ++ (Mem.cells a bs ++ m.filter (fun p => decide (a + bs.length ≤ p.1)))

/-- Little-endian value of bytes. -/
def leNat : List Byte → Nat
  | [] => 0
  | b :: bs => b.toNat + 256 * leNat bs

/-- The `n` low bytes of a value, little-endian. -/
def leBytes : Nat → Nat → List Byte
  | 0, _ => []
  | n + 1, v => BitVec.ofNat 8 v :: leBytes n (v / 256)

/-- An `n`-byte value. -/
def Mem.readNat (m : Mem) (a n : Nat) : Nat := leNat (m.readBytes a n)

/-- Write the `n` low bytes of `v`. -/
def Mem.writeNat (m : Mem) (a n v : Nat) : Mem := m.write a (leBytes n v)

/-! ### Tables keyed by a number -/

/-- Value of a key in a table of numbers whose default is 0. -/
def tabGet : List (Nat × Nat) → Nat → Nat
  | [], _ => 0
  | (k, v) :: t, i => if k = i then v else tabGet t i

/-- Set a key: rising keys, no zero value. -/
def tabSet : List (Nat × Nat) → Nat → Nat → List (Nat × Nat)
  | [], i, v => if v = 0 then [] else [(i, v)]
  | (k, w) :: t, i, v =>
    if i < k then (if v = 0 then (k, w) :: t else (i, v) :: (k, w) :: t)
    else if i = k then (if v = 0 then t else (i, v) :: t)
    else (k, w) :: tabSet t i v

/-! ### Bit helpers -/

/-- Bits [hi:lo] of a doubleword as a number. -/
def bits (w : Word) (hi lo : Nat) : Nat := w.toNat / 2 ^ lo % 2 ^ (hi - lo + 1)

/-- Bit `i` of a doubleword. -/
def bit (w : Word) (i : Nat) : Bool := w.toNat / 2 ^ i % 2 == 1

/-- Two's-complement reading of an `n`-bit number. -/
def signed (n v : Nat) : Int := if v % 2 ^ n < 2 ^ (n - 1) then (v % 2 ^ n : Nat) else (v % 2 ^ n : Nat) - (2 ^ n : Int)

/-- The low `n` bits of an integer, as a number. -/
def wrapNat (n : Nat) (v : Int) : Nat := (v % (2 ^ n : Int)).toNat

/-- Sign-extend the low `n` bits of a number to a doubleword. -/
def sextNat (n v : Nat) : Word := BitVec.ofInt 64 (signed n v)

/-- Number of ones among the low `n` bits. -/
def popcount : Nat → Nat → Nat
  | 0, _ => 0
  | n + 1, v => v % 2 + popcount n (v / 2)

/-- Entry `i` of a vector, or `d` beyond its end. -/
def vget {α : Type} {n : Nat} (v : Vector α n) (i : Nat) (d : α) : α := v.toList.getD i d

/-- Set entry `i` of a vector; beyond its end nothing changes. -/
def vset {α : Type} {n : Nat} (v : Vector α n) (i : Nat) (a : α) : Vector α n := v.setIfInBounds i a

end Sys2Proof.Machine
end

