-- ==== Sys2Proof/Machine/Numeric.lean ====
section
/-! DEFINITION. Number formats, rounding, accumulator elements and random streams (spec/07). -/

namespace Sys2Proof.Machine

/-- An exact value: NaN, an infinity, or ±n/d with d > 0; zeros keep their sign. -/
inductive XR where
  | nan
  | inf (neg : Bool)
  | num (neg : Bool) (n d : Nat)
deriving DecidableEq, Repr

namespace XR

def zero : XR := .num false 0 1

def isNaN : XR → Bool
  | .nan => true
  | _ => false

def isInf : XR → Bool
  | .inf _ => true
  | _ => false

/-- The integer `i`. -/
def ofInt (i : Int) : XR := .num (decide (i < 0)) i.natAbs 1

/-- ±m × 2^e. -/
def dyadic (neg : Bool) (m : Nat) (e : Int) : XR :=
  if 0 ≤ e then .num neg (m * 2 ^ e.toNat) 1 else .num neg m (2 ^ (-e).toNat)

def neg : XR → XR
  | .nan => .nan
  | .inf s => .inf (!s)
  | .num s n d => .num (!s) n d

def abs : XR → XR
  | .nan => .nan
  | .inf _ => .inf false
  | .num _ n d => .num false n d

/-- Signed numerator. -/
def top : Bool → Nat → Int
  | true, n => -(n : Int)
  | false, n => n

/-- Less than, on values that are not NaN; zeros are equal. -/
def lt : XR → XR → Bool
  | .nan, _ => false
  | _, .nan => false
  | .inf s, .inf t => s && !t
  | .inf s, .num .. => s
  | .num .., .inf t => !t
  | .num s n d, .num t m e => decide (top s n * e < top t m * d)

/-- Equal, with −0 equal to +0; NaN equals nothing. -/
def eq : XR → XR → Bool
  | .inf s, .inf t => s == t
  | .num s n d, .num t m e => decide (top s n * e = top t m * d)
  | _, _ => false

/-- Sum; opposite infinities give NaN; an exact zero sum is −0 only when both addends are −0 (spec/08 R203). -/
def add : XR → XR → XR
  | .nan, _ => .nan
  | _, .nan => .nan
  | .inf s, .inf t => if s = t then .inf s else .nan
  | .inf s, .num .. => .inf s
  | .num .., .inf t => .inf t
  | .num s n d, .num t m e =>
    let v := top s n * e + top t m * d
    if v = 0 then .num (s && t && n == 0 && m == 0) 0 1 else .num (decide (v < 0)) v.natAbs (d * e)

/-- Product; 0 × ∞ is NaN. -/
def mul : XR → XR → XR
  | .nan, _ => .nan
  | _, .nan => .nan
  | .inf s, .inf t => .inf (s != t)
  | .inf s, .num t m _ => if m = 0 then .nan else .inf (s != t)
  | .num s n _, .inf t => if n = 0 then .nan else .inf (s != t)
  | .num s n d, .num t m e => .num (s != t) (n * m) (d * e)

/-- Reciprocal: 1/±0 is ±∞, 1/±∞ is ±0. -/
def recip : XR → XR
  | .nan => .nan
  | .inf s => .num s 0 1
  | .num s n d => if n = 0 then .inf s else .num s d n

end XR

/-! ### Event counts (spec/07 R167): a count is an index 0 to 7 -/

abbrev Evs := List Nat

def evNonfin : Nat := 0
def evOvf : Nat := 1
def evUflush : Nat := 2
def evReanch : Nat := 3
def evSlo : Nat := 4
def evSat : Nat := 5
def evInval : Nat := 6
def evBank : Nat := 7

/-! ### Formats -/

/-- A float format: the narrow shape of R148, with the IEEE types as narrow shapes (R155) and `e8s` marked. -/
structure Fmt where
  sgn  : Bool
  eb   : Nat
  mb   : Nat
  bias : Int
  mode : Nat
  sat  : Bool
  sub  : Bool
  e8s  : Bool
deriving DecidableEq, Repr

namespace Fmt

def f32 : Fmt := ⟨true, 8, 23, 127, 0, false, true, false⟩
def f64 : Fmt := ⟨true, 11, 52, 1023, 0, false, true, false⟩
def bf16 : Fmt := ⟨true, 8, 7, 127, 0, false, true, false⟩
def f16 : Fmt := ⟨true, 5, 10, 15, 0, false, true, false⟩
def scale8 : Fmt := ⟨false, 8, 0, 127, 0, true, true, true⟩

/-- The format of a format-register image, R148. -/
def ofReg (w : Word) : Fmt :=
  ⟨bit w 3, bits w 2 0, bits w 7 4, signed 8 (bits w 15 8), bits w 17 16, bit w 18, bit w 19, false⟩

/-- Code width w. -/
def width (F : Fmt) : Nat := (if F.sgn then 1 else 0) + F.eb + F.mb

/-- Container in bits, R150. -/
def cont (F : Fmt) : Nat := if F.width ≤ 4 then 4 else 8

def emax (F : Fmt) : Nat := 2 ^ F.eb - 1
def emin (F : Fmt) : Int := 1 - F.bias

/-- Reason of R149 that a format image breaks, 0 for none; of several the lowest is shown (notes/assumptions/53.md). -/
def invalidReason (w : Word) : Nat :=
  let F := ofReg w
  if F.eb < 1 || F.eb + F.mb < 2 || F.width > 8 then 1
  else if F.mode = 3 then 2
  else if F.mode = 0 && (F.eb < 2 || F.mb < 1) then 3
  else if F.mode = 2 && !F.sat then 4
  else 0

def hasNaN (F : Fmt) : Bool := F.e8s || F.mode != 2
def hasInf (F : Fmt) : Bool := !F.e8s && F.mode == 0

/-- Index of the largest finite magnitude on the grid, which is also its code without the sign. -/
def maxIdx (F : Fmt) : Nat :=
  if F.e8s then 254
  else if F.mode = 0 then F.emax * 2 ^ F.mb - 1
  else if F.mode = 1 then (F.emax + 1) * 2 ^ F.mb - 2
  else (F.emax + 1) * 2 ^ F.mb - 1

/-- Magnitude of grid index `i` as mantissa and exponent: i continues beyond the largest code (R155). -/
def idxVal (F : Fmt) (i : Nat) : Nat × Int :=
  let e := i / 2 ^ F.mb
  let m := i % 2 ^ F.mb
  if e = 0 then (m, F.emin - F.mb) else (2 ^ F.mb + m, (e : Int) - 1 + F.emin - F.mb)

def nanCode (F : Fmt) : Nat :=
  if F.e8s then 0xFF
  else if F.mode = 0 then F.emax * 2 ^ F.mb + 2 ^ (F.mb - 1)
  else (F.emax + 1) * 2 ^ F.mb - 1

end Fmt

/-- `nf_decode` of R150, with R147 for the IEEE types and R152 for `e8s`. -/
def decodeFloat (F : Fmt) (code : Nat) : XR :=
  if F.e8s then
    if code % 256 = 255 then .nan else XR.dyadic false 1 ((code % 256 : Nat) - 127)
  else
    let neg := F.sgn && (code / 2 ^ (F.eb + F.mb) % 2 == 1)
    let e := code / 2 ^ F.mb % 2 ^ F.eb
    let m := code % 2 ^ F.mb
    if F.mode = 0 && e = F.emax then (if m = 0 then .inf neg else .nan)
    else if F.mode = 1 && e = F.emax && m = 2 ^ F.mb - 1 then .nan
    else if e = 0 && !F.sub then .num neg 0 1
    else if e = 0 then XR.dyadic neg m (1 - F.bias - F.mb)
    else XR.dyadic neg (2 ^ F.mb + m) ((e : Int) - F.bias - F.mb)

/-- floor(log2(n/d)) for n, d > 0. -/
def log2Floor (n d : Nat) : Int :=
  let l : Int := (Nat.log2 n : Int) - Nat.log2 d
  let ge := if 0 ≤ l then decide (d * 2 ^ l.toNat ≤ n) else decide (d ≤ n * 2 ^ (-l).toNat)
  if ge then l else l - 1

/-- floor(n/d / 2^e). -/
def scaledFloor (n d : Nat) (e : Int) : Nat :=
  if 0 ≤ e then n / (d * 2 ^ e.toNat) else n * 2 ^ (-e).toNat / d

/-- Rounding modes: those of commands and `nfcvt` (R41) and those of RISC-V. -/
inductive RM where
  | rne | rtz | sr | rdn | rup | rmm
deriving DecidableEq, Repr

/-- Where a magnitude falls on a grid: the index at or below it, whether it is exact there, and the numerator and
denominator of its place between the index and the next. -/
structure GridPos where
  idx : Int
  exact : Bool
  fn : Nat
  fd : Nat

/-- Position of n/d > 0 on the grid of `F`; that of `e8s` goes on in powers of 2 beyond both ends (notes/assumptions/11.md). -/
def gridPos (F : Fmt) (n d : Nat) : GridPos :=
  let l := log2Floor n d
  let e := if F.e8s then l else max l F.emin
  let q := e - F.mb
  let k := scaledFloor n d q
  let base : Int := if F.e8s then l + 127 else if l < F.emin then k else (e - F.emin + 1) * 2 ^ F.mb + k - 2 ^ F.mb
  -- remainder of n/d over k * 2^q, as a fraction of 2^q
  let (n', d') := if 0 ≤ q then (n, d * 2 ^ q.toNat) else (n * 2 ^ (-q).toNat, d)
  ⟨base, n' - k * d' = 0, n' - k * d', d'⟩

/-- Choose between the magnitude at or below (false) and the one above (true). `draw` is rand64[63:32]. A tie goes to the even code,
also where a format has no mantissa bit (notes/assumptions/11.md). -/
def roundUp (rm : RM) (neg : Bool) (p : GridPos) (draw : Nat) : Bool :=
  if p.exact then false
  else match rm with
    | .rne => if 2 * p.fn = p.fd then p.idx % 2 = 1 else decide (2 * p.fn > p.fd)
    | .rmm => decide (2 * p.fn ≥ p.fd)
    | .rtz => false
    | .rdn => neg
    | .rup => !neg
    | .sr =>
      if neg then
        -- lo is the larger magnitude; x - lo = fd - fn of the step
        !(decide (draw < (p.fd - p.fn) * 2 ^ 32 / p.fd))
      else decide (draw < p.fn * 2 ^ 32 / p.fd)

/-- `round_to` of R155: the code and the counts. -/
def roundTo (F : Fmt) (x : XR) (rm : RM) (draw : Nat) : Nat × Evs :=
  let sbit (neg : Bool) : Nat := if F.sgn && neg then 2 ^ (F.eb + F.mb) else 0
  let infCode (neg : Bool) : Nat := sbit neg + F.emax * 2 ^ F.mb
  let isNeg : Bool := match x with
    | .inf s => s
    | .num s n _ => s && n != 0
    | .nan => false
  let isZero : Bool := match x with
    | .num _ n _ => n == 0
    | _ => false
  match x with
  | .nan => if F.hasNaN then (F.nanCode, [evNonfin]) else (0, [evInval])
  | _ =>
    if F.e8s && (isNeg || isZero) then (0xFF, [evInval, evNonfin])
    else if !F.sgn && isNeg then (0, [evSat])
    else match x with
    | .nan => (0, [])
    | .inf s =>
      if F.hasInf then (infCode s, [evNonfin])
      else if F.hasNaN && !F.sat then (F.nanCode, [evNonfin])
      else (sbit s + F.maxIdx, [evSat])
    | .num s n d =>
      if n = 0 then (sbit s, [])
      else if !F.sub && decide (log2Floor n d < F.emin) then (sbit s, [evUflush])
      else
        let p := gridPos F n d
        let i := if roundUp rm s p draw then p.idx + 1 else p.idx
        if i > F.maxIdx || (F.e8s && i < 0) then
          if F.e8s || rm = .rtz || F.sat then (if i < 0 then (0, [evSat]) else (sbit s + F.maxIdx, [evSat]))
          else if F.hasInf then (infCode s, [evOvf, evNonfin])
          else (F.nanCode, [evOvf, evNonfin])
        else if i = 0 && !F.e8s then (sbit s, [evUflush])
        else (sbit s + i.toNat, [])

/-- Round an exact finite value to an integer (R163, R204). -/
def roundInt (s : Bool) (n d : Nat) (rm : RM) (draw : Nat) : Int :=
  let k := n / d
  let p : GridPos := ⟨k, n % d = 0, n % d, d⟩
  let m : Nat := if roundUp rm s p draw then k + 1 else k
  XR.top s m

/-- Clamp to [lo, hi], counting `ev_sat` when the value changes. -/
def clampInt (v lo hi : Int) : Int × Evs :=
  if v > hi then (hi, [evSat]) else if v < lo then (lo, [evSat]) else (v, [])

/-! ### Random streams (R165, R166) -/

def mix64 (z0 : Word) : Word :=
  let z := z0 + 0x9E3779B97F4A7C15#64
  let z := (z ^^^ (z >>> 30)) * 0xBF58476D1CE4E5B9#64
  let z := (z ^^^ (z >>> 27)) * 0x94D049BB133111EB#64
  z ^^^ (z >>> 31)

def ctrRand (seed stream j : Word) : Word := mix64 (mix64 (seed ^^^ stream) ^^^ j)

/-- `rand64(sid, ix)` for a job seed and a logical core number. -/
def rand64 (seed : Word) (lcn sid ix : Nat) : Word := ctrRand seed (word (lcn * 256 + sid)) (word ix)

/-- The 32-bit draw of stochastic rounding, R156. -/
def srDraw (seed : Word) (lcn sid ix : Nat) : Nat := bits (rand64 seed lcn sid ix) 63 32

/-- `noise_q16`, R166. -/
def noiseQ16 (seed stream j : Word) : Int :=
  let z := ctrRand seed stream j
  let s : Int := bits z 15 0 + bits z 31 16 + bits z 47 32 + bits z 63 48 - 131070
  s * 113512 / 65536

/-! ### Accumulator elements (R157 to R164) -/

/-- An accumulator element read from its 128 bits; V stands for the pair S, C (R158, R159). -/
structure AE where
  float : Bool
  res   : Bool
  ovf   : Bool
  ninf  : Bool
  pinf  : Bool
  nan   : Bool
  slo   : Bool
  E     : Nat
  C     : Nat
  S     : Nat
deriving DecidableEq, Repr

namespace AE

def ofNat (v : Nat) : AE :=
  let b (i : Nat) : Bool := v / 2 ^ i % 2 == 1
  ⟨b 126, b 125, b 124, b 123, b 122, b 121, b 120, v / 2 ^ 112 % 256, v / 2 ^ 56 % 2 ^ 56, v % 2 ^ 56⟩

def toNat (a : AE) : Nat :=
  let b (x : Bool) (i : Nat) : Nat := if x then 2 ^ i else 0
  b a.float 126 + b a.res 125 + b a.ovf 124 + b a.ninf 123 + b a.pinf 122 + b a.nan 121 + b a.slo 120
    + a.E % 256 * 2 ^ 112 + a.C % 2 ^ 56 * 2 ^ 56 + a.S % 2 ^ 56

/-- V(ae), R158. -/
def V (a : AE) : Int := signed 56 (a.S + a.C)

/-- `set_sum`: the split is the JMU's own; `split` is the free value that picks it (R159). -/
def setSum (a : AE) (split : Word) (v : Int) : AE :=
  let c := split.toNat % 2 ^ 56
  { a with C := c, S := wrapNat 56 (v - c) }

/-- A fresh element, R160. -/
def freshElem : AE := ⟨false, true, false, false, false, false, false, 0, 0, 0⟩

def isFresh (a : AE) : Bool :=
  decide (a.V = 0) && a.E == 0 && a.res && !a.ovf && !a.ninf && !a.pinf && !a.nan && !a.slo

/-- `ae_value`, R158. -/
def value (a : AE) : XR :=
  if a.nan || (a.pinf && a.ninf) then .nan
  else if a.pinf then .inf false
  else if a.ninf then .inf true
  else if !a.float then XR.ofInt a.V
  else
    let v := 2 * a.V + (if a.slo then 1 else 0)
    XR.dyadic (decide (v < 0)) v.natAbs ((a.E : Int) - 168)

end AE

/-- floor(±n/d / 2^e) and whether nothing was lost. -/
def floorScaled (s : Bool) (n d : Nat) (e : Int) : Int × Bool :=
  let (n', d') := if 0 ≤ e then (n, d * 2 ^ e.toNat) else (n * 2 ^ (-e).toNat, d)
  (Int.fdiv (XR.top s n') d', n' % d' == 0)

/-- The finite nonzero products of a list. -/
def finiteParts : List XR → List (Bool × Nat × Nat)
  | [] => []
  | .num s n d :: ps => if n = 0 then finiteParts ps else (s, n, d) :: finiteParts ps
  | _ :: ps => finiteParts ps

/-- Aligned sum of truncated products at anchor `e`. -/
def alignedSum (F : List (Bool × Nat × Nat)) (e : Int) : Int × Bool :=
  F.foldl (fun acc p => let r := floorScaled p.1 p.2.1 p.2.2 e; (acc.1 + r.1, acc.2 && r.2)) (0, true)

/-- The search for d of R162; `fuel` counts the anchors left up to 255. -/
def reanchor (V : Int) (F : List (Bool × Nat × Nat)) (E d : Nat) : Nat → Nat × Int × Bool
  | 0 =>
    let r := alignedSum F ((E : Int) + d - 167)
    (d, Int.fdiv V (2 ^ d) + r.1, Int.emod V (2 ^ d) == 0 && r.2)
  | fuel + 1 =>
    let r := alignedSum F ((E : Int) + d - 167)
    let A := Int.fdiv V (2 ^ d) + r.1
    if (-(2 ^ 53 : Int) ≤ A && A < 2 ^ 53) then (d, A, Int.emod V (2 ^ d) == 0 && r.2)
    else reanchor V F E (d + 1) fuel

/-- `accumulate` of R162: products `P` added by a command of kind float or integer. -/
def accumulate (ae0 : AE) (P : List XR) (float : Bool) (split : Word) : AE × Evs :=
  let (ae, ev1) : AE × Evs :=
    if ae0.isFresh then ({ ae0 with float }, [])
    else if ae0.float != float then
      ({ ae0 with float, res := false, ovf := false, ninf := false, pinf := false, nan := true, slo := false, E := 0 },
        [evInval])
    else (ae0, [])
  let ae := { ae with
    res := false
    nan := ae.nan || P.any XR.isNaN
    pinf := ae.pinf || P.any (fun p => decide (p = XR.inf false))
    ninf := ae.ninf || P.any (fun p => decide (p = XR.inf true)) }
  let F := finiteParts P
  let (ae, ev2) : AE × Evs :=
    if !float then
      let T : Int := ae.V + F.foldl (fun (t : Int) p => t + XR.top p.1 p.2.1) 0
      let o := T < -(2 ^ 55 : Int) || T ≥ 2 ^ 55
      ({ (ae.setSum split T) with ovf := ae.ovf || o, E := 0 }, if o then [evOvf] else [])
    else
      let E0 : Nat :=
        if (ae.E == 0) && decide (ae.V = (0 : Int)) && !ae.slo && !F.isEmpty then
          let t := F.foldl (fun (t : Int) p => max t (log2Floor p.2.1 p.2.2)) (-100000)
          (min (max (t + 117) 1) 255).toNat
        else ae.E
      let (d, A, kept) := reanchor ae.V F E0 0 (255 - E0)
      let lost := !kept
      let ofl := A < -(2 ^ 53 : Int) || A ≥ 2 ^ 53
      let ae' : AE := { ae with
        ovf := ae.ovf || ofl, pinf := ae.pinf || (ofl && decide (A > 0)), ninf := ae.ninf || (ofl && decide (A < 0)),
        slo := ae.slo || lost, E := E0 + d }
      (ae'.setSum split (if ofl then 0 else A),
        (if ofl then [evOvf] else []) ++ (if d > 0 then [evReanch] else []) ++
        (if lost && !ae.slo then [evSlo] else []))
  let rise := (ae.nan && !ae0.nan) || (ae.pinf && !ae0.pinf) || (ae.ninf && !ae0.ninf)
  (ae, ev1 ++ ev2 ++ (if rise then [evNonfin] else []))

/-- `resolve_int`, R163. -/
def resolveInt (ae : AE) (sh : Nat) (rm : RM) (draw : Nat) : Int × Evs :=
  let hi : Int := 2 ^ 31 - 1
  let lo : Int := -(2 ^ 31)
  let ovf : Bool := !ae.float && ae.ovf
  match ae.value with
  | .nan => (0, [evInval])
  | .inf false => (hi, [evSat])
  | .inf true => if ovf && decide (ae.V ≥ 0) then (hi, [evSat]) else (lo, [evSat])
  | .num s n d =>
    if ovf then (if ae.V ≥ 0 then (hi, [evSat]) else (lo, [evSat]))
    else clampInt (roundInt s n (d * 2 ^ sh) rm draw) lo hi

/-- Float resolve, R164. -/
def resolveFloat (ae : AE) (F : Fmt) (rm : RM) (draw : Nat) : Nat × Evs :=
  let r := roundTo F ae.value rm draw
  (r.1, (if ae.pinf && ae.ninf then [evInval] else []) ++ r.2)

/-- `manch` on one element, R193. -/
def anchorRaise (ae : AE) (e : Nat) (split : Word) : AE × Evs :=
  if ae.isFresh then ({ ae with E := e, float := true }, [])
  else if !ae.float || ae.E ≥ e then (ae, [])
  else
    let dd := e - ae.E
    let lost := Int.emod ae.V (2 ^ dd) != 0
    ({ (ae.setSum split (Int.fdiv ae.V (2 ^ dd))) with E := e, slo := ae.slo || lost },
      [evReanch] ++ (if lost && !ae.slo then [evSlo] else []))

/-! ### 2^x (spec/08 R203) -/

/-- Product of 2^(2^-k) over the binary digits of r/d, in fixed point of `P` bits; s is 2^(2^-(k-1)). -/
def exp2Digits (P d : Nat) (r s acc : Nat) : Nat → Nat
  | 0 => acc
  | fuel + 1 =>
    let s' := Nat.sqrt (s * 2 ^ P)
    let r' := 2 * r
    if r' ≥ d then exp2Digits P d (r' - d) s' (acc * s' / 2 ^ P) fuel
    else exp2Digits P d r' s' acc fuel

/-- 2^x for a finite decoded x: exact for integers, else to 512 bits (notes/assumptions/8.md). -/
def exp2 : XR → XR
  | .nan => .nan
  | .inf s => if s then .num false 0 1 else .inf false
  | .num s n d =>
    if n / d ≥ 4096 then (if s then .num false 1 (2 ^ 4096) else .num false (2 ^ 4096) 1)
    else
      let v := XR.top s n
      let i := Int.fdiv v d
      let r := (Int.fmod v d).toNat
      if r = 0 then XR.dyadic false 1 i
      else XR.dyadic false (exp2Digits 512 d r (2 * 2 ^ 512) (2 ^ 512) 160) (i - 512)

end Sys2Proof.Machine
end

