-- ==== Sys2Proof/Machine/Fpu.lean ====
section
/-! DEFINITION. Scalar floating point of F, D and Zfh (spec/02 R29: IEEE 754-2019, canonical NaNs), on exact values.
Flags are the `fflags` bits NV 16, DZ 8, OF 4, UF 2, NX 1. -/

namespace Sys2Proof.Machine

def fpFmt : FFmt → Fmt
  | .s => Fmt.f32
  | .d => Fmt.f64
  | .h => Fmt.f16

/-- Width of a scalar float format in bits. -/
def fpWidth : FFmt → Nat
  | .s => 32
  | .d => 64
  | .h => 16

/-- Code of format `F` in an f-register: a value that is not NaN-boxed reads as the canonical NaN (R154). -/
def unbox (F : FFmt) (w : Word) : Nat :=
  let n := fpWidth F
  if w.toNat / 2 ^ n = 2 ^ (64 - n) - 1 then w.toNat % 2 ^ n else (fpFmt F).nanCode

/-- NaN-box a code. -/
def nanBox (F : FFmt) (c : Nat) : Word :=
  let n := fpWidth F
  word (c % 2 ^ n + (2 ^ 64 - 2 ^ n))

/-- A signalling NaN of format `F`. -/
def isSNaN (F : Fmt) (c : Nat) : Bool :=
  (decodeFloat F c).isNaN && (c / 2 ^ (F.mb - 1) % 2 == 0)

/-- Round an exact value to an IEEE format: code and flags; tininess is detected after rounding. -/
def fpRound (F : Fmt) (x : XR) (rm : RM) : Nat × Nat :=
  let sb (s : Bool) : Nat := if s then 2 ^ (F.eb + F.mb) else 0
  let infc := F.emax * 2 ^ F.mb
  match x with
  | .nan => (F.nanCode, 0)
  | .inf s => (sb s + infc, 0)
  | .num s n d =>
    if n = 0 then (sb s, 0)
    else
      let p := gridPos F n d
      let i := if roundUp rm s p 0 then p.idx + 1 else p.idx
      if i > F.maxIdx then
        let toMax := match rm with
          | .rtz => true
          | .rdn => !s
          | .rup => s
          | _ => false
        ((if toMax then sb s + F.maxIdx else sb s + infc), 4 + 1)
      else
        -- tiny: below the smallest normal also when rounded with an unbounded exponent
        let tiny :=
          if log2Floor n d < F.emin then
            let Fu : Fmt := { F with bias := F.bias + 4096 }
            let pu := gridPos Fu n d
            let iu := if roundUp rm s pu 0 then pu.idx + 1 else pu.idx
            decide (iu < (4096 + 1) * 2 ^ F.mb)
          else false
        (sb s + i.toNat, if p.exact then 0 else (if tiny then 2 else 0) + 1)

/-- Result of an operation on NaN operands: canonical NaN, with NV when `nv`. -/
def fpNaN (F : Fmt) (nv : Bool) : Nat × Nat := (F.nanCode, if nv then 16 else 0)

/-- Exact sum with IEEE's sign of zero: an exact zero of unlike addends is −0 under `rdn`. -/
def fpSum (a b : XR) (rm : RM) : XR :=
  match XR.add a b with
  | .num false 0 d =>
    let bothPos := match a, b with
      | .num false 0 _, .num false 0 _ => true
      | _, _ => false
    if rm = .rdn && !bothPos then .num true 0 d else .num false 0 d
  | r => r

def fpAdd (F : Fmt) (a b : Nat) (rm : RM) : Nat × Nat :=
  let x := decodeFloat F a
  let y := decodeFloat F b
  if x.isNaN || y.isNaN then fpNaN F (isSNaN F a || isSNaN F b)
  else
    let r := fpSum x y rm
    if r.isNaN then fpNaN F true else fpRound F r rm

/-- Flip the sign bit. -/
def fpFlip (F : Fmt) (a : Nat) : Nat := a ^^^ 2 ^ (F.eb + F.mb)

def fpMul (F : Fmt) (a b : Nat) (rm : RM) : Nat × Nat :=
  let x := decodeFloat F a
  let y := decodeFloat F b
  if x.isNaN || y.isNaN then fpNaN F (isSNaN F a || isSNaN F b)
  else
    let r := x.mul y
    if r.isNaN then fpNaN F true else fpRound F r rm

def xrIsZero : XR → Bool
  | .num _ 0 _ => true
  | _ => false

def xrSign : XR → Bool
  | .nan => false
  | .inf s => s
  | .num s _ _ => s

def fpDiv (F : Fmt) (a b : Nat) (rm : RM) : Nat × Nat :=
  let x := decodeFloat F a
  let y := decodeFloat F b
  if x.isNaN || y.isNaN then fpNaN F (isSNaN F a || isSNaN F b)
  else if (xrIsZero x && xrIsZero y) || (x.isInf && y.isInf) then fpNaN F true
  else
    let r := x.mul y.recip
    let dz := xrIsZero y && !x.isInf
    let c := fpRound F (if xrIsZero y then .inf (xrSign x != xrSign y) else r) rm
    (c.1, c.2 + (if dz then 8 else 0))

/-- Square root: the exact root, or a value that rounds as the exact root does. -/
def fpSqrt (F : Fmt) (a : Nat) (rm : RM) : Nat × Nat :=
  match decodeFloat F a with
  | .nan => fpNaN F (isSNaN F a)
  | .inf s => if s then fpNaN F true else fpRound F (.inf false) rm
  | .num s n d =>
    if n = 0 then fpRound F (.num s 0 1) rm
    else if s then fpNaN F true
    else
      -- sqrt(n/d) = sqrt(n*d)/d, with 2^256 extra bits and a sticky half
      let v := n * d * 4 ^ 256
      let r := Nat.sqrt v
      let den := d * 2 ^ 256
      if r * r = v then fpRound F (.num false r den) rm else fpRound F (.num false (2 * r + 1) (2 * den)) rm

/-- a × b + c with one rounding; operands are codes. -/
def fpFma (F : Fmt) (a b c : Nat) (rm : RM) : Nat × Nat :=
  let x := decodeFloat F a
  let y := decodeFloat F b
  let z := decodeFloat F c
  let invalidMul := (x.isInf && xrIsZero y) || (xrIsZero x && y.isInf)
  if x.isNaN || y.isNaN || z.isNaN then fpNaN F (isSNaN F a || isSNaN F b || isSNaN F c || invalidMul)
  else
    let r := fpSum (x.mul y) z rm
    if r.isNaN then fpNaN F true else fpRound F r rm

def fpMinMax (F : Fmt) (wantMax : Bool) (a b : Nat) : Nat × Nat :=
  let x := decodeFloat F a
  let y := decodeFloat F b
  let fl := if isSNaN F a || isSNaN F b then 16 else 0
  if x.isNaN && y.isNaN then (F.nanCode, fl)
  else if x.isNaN then (b, fl)
  else if y.isNaN then (a, fl)
  else
    let less := x.lt y || (x.eq y && xrSign x && !xrSign y)
    ((if wantMax then (if less then b else a) else (if less then a else b)), fl)

def fpCmp (F : Fmt) (op : FCmp) (a b : Nat) : Bool × Nat :=
  let x := decodeFloat F a
  let y := decodeFloat F b
  let un := x.isNaN || y.isNaN
  let sn := isSNaN F a || isSNaN F b
  match op with
  | .eq => (x.eq y, if sn then 16 else 0)
  | .lt => (x.lt y, if un then 16 else 0)
  | .le => (x.lt y || x.eq y, if un then 16 else 0)

/-- Range of an integer format. -/
def intRange : IFmt → Int × Int
  | .w => (-(2 ^ 31), 2 ^ 31 - 1)
  | .wu => (0, 2 ^ 32 - 1)
  | .l => (-(2 ^ 63), 2 ^ 63 - 1)
  | .lu => (0, 2 ^ 64 - 1)

/-- Result register of an integer value: 32-bit formats are sign-extended. -/
def intToReg (t : IFmt) (v : Int) : Word :=
  match t with
  | .w | .wu => sextNat 32 (wrapNat 32 v)
  | .l | .lu => BitVec.ofInt 64 v

def fpToInt (F : Fmt) (t : IFmt) (a : Nat) (rm : RM) : Word × Nat :=
  let (lo, hi) := intRange t
  match decodeFloat F a with
  | .nan => (intToReg t hi, 16)
  | .inf s => (intToReg t (if s then lo else hi), 16)
  | .num s n d =>
    let v := roundInt s n d rm 0
    if v < lo then (intToReg t lo, 16)
    else if v > hi then (intToReg t hi, 16)
    else (intToReg t v, if n % d = 0 then 0 else 1)

/-- Integer value of a register under an integer format. -/
def regToInt (t : IFmt) (w : Word) : Int :=
  match t with
  | .w => signed 32 w.toNat
  | .wu => (w.toNat % 2 ^ 32 : Nat)
  | .l => w.toInt
  | .lu => w.toNat

def fpOfInt (F : Fmt) (t : IFmt) (w : Word) (rm : RM) : Nat × Nat := fpRound F (XR.ofInt (regToInt t w)) rm

def fpCvt (dst src : Fmt) (a : Nat) (rm : RM) : Nat × Nat :=
  let x := decodeFloat src a
  if x.isNaN then fpNaN dst (isSNaN src a) else fpRound dst x rm

/-- `fclass` mask. -/
def fpClass (F : Fmt) (a : Nat) : Word :=
  match decodeFloat F a with
  | .nan => if isSNaN F a then 0x100 else 0x200
  | .inf s => if s then 0x001 else 0x080
  | .num s n d =>
    if n = 0 then (if s then 0x008 else 0x010)
    else if log2Floor n d < F.emin then (if s then 0x004 else 0x020)
    else (if s then 0x002 else 0x040)

/-- `fp_add` of `samo.fadd`, `redadd.f` and `rdx`: nearest even, subnormals kept, canonical NaN (spec/09 R216). -/
def fpAddQuiet (F : Fmt) (a b : Nat) : Nat := (fpAdd F a b .rne).1

/-- Rounding mode of a float instruction: its field, or `frm` when dynamic; none when reserved (R29). -/
def fpMode (rm : BitVec 3) (fcsr : BitVec 8) : Option RM :=
  let m := if rm = 7 then fcsr.toNat / 32 else rm.toNat
  match m with
  | 0 => some .rne
  | 1 => some .rtz
  | 2 => some .rdn
  | 3 => some .rup
  | 4 => some .rmm
  | _ => none

end Sys2Proof.Machine
end

