-- ==== Sys2Proof/Machine/Acc.lean ====
section
/-! DEFINITION. Accessors: the one way the meanings reach cores, contexts, dies and registers. Reading something absent
gives a default and writing it changes nothing. -/

namespace Sys2Proof.Machine

/-! ### Free values -/

/-- The next free choice, and the state with the counter advanced. -/
def State.bump (s : State) : State := { s with fresh := s.fresh + 1 }

/-! ### Cores -/

def State.core? (s : State) (id : CoreId) : Option CoreSt := s.cores.find? (fun c => c.id == id)

def State.core (s : State) (id : CoreId) : CoreSt := (s.core? id).getD (CoreSt.init id)

def State.hasCore (s : State) (id : CoreId) : Bool := (s.core? id).isSome

/-- Replace core `id` by what `f` makes of it. -/
def State.modCore (s : State) (id : CoreId) (f : CoreSt → CoreSt) : State :=
  { s with cores := s.cores.map (fun c => if c.id = id then { f c with id := c.id } else c) }

/-! ### Contexts -/

def LaunchPar.zero : LaunchPar :=
  { entry := 0, units := 0, pclass := 0, sbck := false, nb := 0, fp := 0, asid := 0, lfull := 0, undo := 0, seed := 0,
    xb := [0, 0, 0, 0], arg0 := 0, arg1 := 0, sc0 := 0, sc1 := 0, doneVa := 0, logring := 0, logsize := 0 }

/-- A context with nothing in it. -/
def Ctx.init (asid : Nat) (par : LaunchPar) (benches : List Nat) : Ctx :=
  { asid, par, benches, run := .running, qpos := 0, sscnt := 0, groups := [], barriers := [], squeues := [],
    lastGov := [], lastBal := 0, loads := [], lineage := [], log := [], freeing := [], tdm := 0, halt := none, preempt := none,
    recs := [], units := [], held := [], owed := [], since := 0, agreed := false, swapped := [], precise := false, recording := false,
    spillIn := [], banks := [], spillAt := [], wanted := [], fed := 0 }

def State.ctx? (s : State) (asid : Nat) : Option Ctx := s.ctxs.find? (fun c => c.asid == asid)

def State.ctx (s : State) (asid : Nat) : Ctx := (s.ctx? asid).getD (Ctx.init asid LaunchPar.zero [])

def State.modCtx (s : State) (asid : Nat) (f : Ctx → Ctx) : State :=
  { s with ctxs := s.ctxs.map (fun c => if c.asid = asid then { f c with asid := c.asid } else c) }

/-- Number of logical cores, spec/01 R24. -/
def Ctx.n (c : Ctx) : Nat := 4 * c.benches.length

/-- Bench (die × 36 + bench) of logical core `l`. -/
def Ctx.benchOf (c : Ctx) (l : Nat) : Nat := c.benches.getD (l / 4) 0

/-- Die of logical core `l`. -/
def Ctx.dieOf (c : Ctx) (l : Nat) : Nat := c.benchOf l / 36

/-- Physical core number of logical core `l`, spec/01 R22. -/
def Ctx.pcn (c : Ctx) (l : Nat) : Nat := c.benchOf l / 36 * 256 + c.benchOf l % 36 * 4 + l % 4

/-- Logical core placed at core `k` of bench `b`, if the partition has it. -/
def Ctx.lAt (c : Ctx) (bench k : Nat) : Option Nat :=
  match c.benches.findIdx? (· == bench) with
  | some i => some (4 * i + k)
  | none => none

def Ctx.ids (c : Ctx) : List CoreId := (List.range c.n).map (fun l => ⟨c.asid, l⟩)

/-- Dies of the partition, rising. -/
def Ctx.dies (c : Ctx) : List Nat := (List.range 8).filter (fun d => c.benches.any (fun b => b / 36 == d))

/-- True when the partition lies on one die: S_ctx is `.die`, else `.pkg` (spec/11 R258). -/
def Ctx.sctx (c : Ctx) : Scope := if c.dies.length ≤ 1 then .die else .pkg

/-- Logical core number of the task on a core: the record's `lcn`, else the number the core holds. -/
def CoreSt.lcn (c : CoreSt) : Nat :=
  match c.task with
  | some r => bits r.d1 23 0
  | none => c.id.l

/-! ### Dies -/

def State.die (s : State) (d : Nat) : Die := s.dies.getD d Die.reset

def State.modDie (s : State) (d : Nat) (f : Die → Die) : State :=
  { s with dies := s.dies.modify d f }

/-- Die of a core. -/
def State.dieOf (s : State) (id : CoreId) : Nat := (s.ctx id.asid).dieOf id.l

/-- PCC as read on die `d`, in ticks (spec/01 R19, spec/00 R5). -/
def State.pcc (s : State) (d : Nat) : Nat := s.cycle / 2 + (s.die d).skew

/-! ### Registers -/

/-- x[i]; x0 reads 0. -/
def CoreSt.rx (c : CoreSt) (i : Reg) : Word := if i = 0 then 0 else c.x[i.toNat]'(by have := i.isLt; omega)

def CoreSt.rf (c : CoreSt) (i : Reg) : Word := c.f[i.toNat]'(by have := i.isLt; omega)

/-- Set a dirty bit pair of a scalar register (spec/06 R144). -/
def CoreSt.dirtyReg (c : CoreSt) (i : Nat) : CoreSt :=
  { c with wRegs := c.wRegs ||| (1#64 <<< i), sRegs := c.sRegs ||| (1#64 <<< i) }

/-- x[i] = v; x0 discards. -/
def CoreSt.wx (c : CoreSt) (i : Reg) (v : Word) : CoreSt :=
  if i = 0 then c
  else { c with x := c.x.set i.toNat v (by have := i.isLt; omega) }.dirtyReg i.toNat

def CoreSt.wf (c : CoreSt) (i : Reg) (v : Word) : CoreSt :=
  { c with f := c.f.set i.toNat v (by have := i.isLt; omega) }.dirtyReg (32 + i.toNat)

/-- Dirty bits of the register-space lines that `n` bytes from `a` touch. -/
def CoreSt.dirtyLines (c : CoreSt) (a n : Nat) : CoreSt :=
  if n = 0 then c
  else
    let lo := a / 256
    let hi := (a + n - 1) / 256
    let m : BitVec 512 := BitVec.ofNat 512 ((2 ^ (hi - lo + 1) - 1) * 2 ^ lo)
    { c with wLines := c.wLines ||| m, sLines := c.sLines ||| m }

/-- Write register-space bytes. -/
def CoreSt.writeReg (c : CoreSt) (a : Nat) (bs : List Byte) : CoreSt :=
  { c with reg := c.reg.write a bs }.dirtyLines a bs.length

/-- Event counter increments, saturating; `ev_nonfin` sets `nfsticky` (spec/07 R167, R168). -/
def CoreSt.countEv (c : CoreSt) (i : Nat) : CoreSt :=
  let v := (vget c.csr.ev i 0).toNat
  let v' := if v < 0xFFFFFFFF then v + 1 else 0xFFFFFFFF
  { c with csr := { c.csr with ev := vset c.csr.ev i (word v'), nfs := if i = evNonfin' then 1 else c.csr.nfs } }
where evNonfin' : Nat := 0

def CoreSt.countEvs (c : CoreSt) : List Nat → CoreSt
  | [] => c
  | i :: is => (c.countEv i).countEvs is

/-- Counters, spec/11 R265. -/
def CoreSt.ctr (c : CoreSt) (i : Nat) : Nat := tabGet c.ctrs i

def CoreSt.setCtr (c : CoreSt) (i v : Nat) : CoreSt := { c with ctrs := tabSet c.ctrs i v }

def CoreSt.queue (c : CoreSt) : Queue → EQueue
  | .eqm => c.eqm
  | .eqv => c.eqv
  | .eqc => c.eqc
  | .eqp => c.eqp

def CoreSt.setQueue (c : CoreSt) (q : Queue) (e : EQueue) : CoreSt :=
  match q with
  | .eqm => { c with eqm := e }
  | .eqv => { c with eqv := e }
  | .eqc => { c with eqc := e }
  | .eqp => { c with eqp := e }

/-- Result FIFO capacity, spec/09 R227. -/
def fifoCap : Queue → Nat
  | .eqp => 16
  | _ => 32

/-! ### Rings (spec/05 R108, R109) -/

def Desc.unset (d : Desc) : Bool := d.d0 == 0
def Desc.count (d : Desc) : Nat := bits d.d0 39 32 + 1
def Desc.esz (d : Desc) : Nat := bits d.d0 31 20 * 16
def Desc.base (d : Desc) : Nat := bits d.d0 19 0
def Desc.head (d : Desc) : Nat := bits d.d1 15 0
def Desc.tail (d : Desc) : Nat := bits d.d1 31 16
def Desc.hslot (d : Desc) : Nat := bits d.d1 39 32
def Desc.occ (d : Desc) : Nat := (d.tail + 65536 - d.head) % 65536

/-- Descriptor with new head, tail and head slot. -/
def Desc.setPtrs (d : Desc) (head tail hslot : Nat) : Desc :=
  { d with d1 := word (hslot % 256 * 2 ^ 32 + tail % 65536 * 65536 + head % 65536) }

/-- Scratchpad address of entry sequence number `q`. -/
def Desc.entryAddr (d : Desc) (q : Nat) : Nat :=
  d.base + (d.hslot + (q + 65536 - d.head) % 65536) % d.count * d.esz

def Desc.zero : Desc := ⟨0, 0⟩

/-! ### Condition bits (spec/05 R124) -/

/-- Messages in flight from a core on neighbour port `p`. -/
def State.portFlight (s : State) (id : CoreId) (p : Nat) : Nat :=
  ((s.core id).outq ++ s.msgs.filter (fun m => m.asid == id.asid && m.src == id.l)).countP (fun m => m.port == some p)

/-- Bench in direction `p` (0 north, 1 east, 2 south, 3 west) of bench `b` of one die. -/
def neighbour (b p : Nat) : Option Nat :=
  let r := b / 6
  let c := b % 6
  match p with
  | 0 => if r = 0 then none else some (b - 6)
  | 1 => if c = 5 then none else some (b + 1)
  | 2 => if r = 5 then none else some (b + 6)
  | _ => if c = 0 then none else some (b - 1)

/-- Entries of stage queue `q` on die `d`. -/
def Ctx.sq (c : Ctx) (d q : Nat) : List SqEntry :=
  c.squeues.filterMap (fun e => if e.1 = d && e.2.1 = q then some e.2.2 else none)

/-- Condition bit `n` of a core. -/
def State.cbit (s : State) (id : CoreId) (n : Nat) : Bool :=
  let c := s.core id
  if n < 8 then !(c.inbox.getD n []).isEmpty
  else if n < 16 then (c.inbox.getD (n - 8) []).length ≥ 4
  else if n < 20 then
    match neighbour ((s.ctx id.asid).benchOf id.l % 36) (n - 16) with
    | none => false
    | some _ => s.portFlight id (n - 16) < 2
  else if n = 20 then !c.eqm.fifo.isEmpty
  else if n = 21 then !c.eqv.fifo.isEmpty
  else if n = 22 then !c.eqc.fifo.isEmpty
  else if n = 23 then !c.eqp.fifo.isEmpty
  else if n = 24 then c.eqm.fifo.length ≥ 32
  else if n = 25 then c.eqv.fifo.length ≥ 32
  else if n = 26 then c.eqc.fifo.length ≥ 32
  else if n = 27 then c.eqp.fifo.length ≥ 16
  else if n < 32 then false
  else if n < 48 then !((s.ctx id.asid).sq (s.dieOf id) (n - 32)).isEmpty
  else if n < 64 then
    let r := vget c.rg (n - 48) Desc.zero
    !r.unset && r.occ > 0
  else false

/-- The doubleword of condition bits. -/
def State.cbits (s : State) (id : CoreId) : Word :=
  word ((List.range 64).foldl (fun v n => if s.cbit id n then v + 2 ^ n else v) 0)

/-- A core that sits at a position where nothing is pending: an idle core runs no task. -/
def CoreSt.idle (c : CoreSt) : Bool := c.task.isNone && c.due.isNone

/-! ### Traps of kind A (spec/15 R353) -/

/-- `lcn` as trace and stop records show it. -/
def CoreSt.lcnOrNone (c : CoreSt) : Nat := if c.task.isSome then c.lcn else 0xFFFFFF

/-- The debug block serves a context. -/
def State.attached (s : State) (asid : Nat) : Bool := s.dbg.en && s.dbg.asid == asid

/-- A STEP or REPLAY of a context ends on every core. -/
def State.unstep (s : State) (asid : Nat) : State :=
  { s with cores := s.cores.map (fun (c : CoreSt) => if c.id.asid = asid then { c with stepping := false, replay := none } else c) }

/-- Raise the halt line for a reason of R405. Under the halt line it ends a STEP or REPLAY; before the stop is complete an
earlier hit, or one of the same tick on a lower `lcn`, is the one named (R404). -/
def State.dbgStop (s : State) (asid why l : Nat) : State :=
  let c := s.core ⟨asid, l⟩
  let tick := s.pcc (s.dieOf ⟨asid, l⟩)
  let name (s : State) (st : Nat) : State :=
    { s with dbg := { s.dbg with why := BitVec.ofNat 8 why, slcn := BitVec.ofNat 24 c.lcnOrNone, state := st } }
  match (s.ctx asid).halt with
  | none => (name s 1).modCtx asid (fun x => { x with halt := some ⟨0, l, c.lcnOrNone, tick, false, false⟩ })
  | some h =>
    if s.dbg.state = 4 then name (s.unstep asid) 4
    else if h.cause = 0 && !h.reached && (decide (tick < h.tick) || (tick == h.tick && decide (c.lcnOrNone < h.lcn))) then
      (name s s.dbg.state).modCtx asid (fun x => { x with halt := some ⟨0, l, c.lcnOrNone, tick, false, false⟩ })
    else s

/-- Stop a replay by divergence (spec/21 R411). -/
def State.diverge (s : State) (id : CoreId) (cause kind : Nat) : State :=
  let c := s.core id
  let s := { s with dbg := { s.dbg with ddiv := word (c.dicnt * 2 ^ 16 + kind * 2 ^ 8 + cause) } }
  s.dbgStop id.asid 0x07 id.l

/-- Logical number `l` is a member of group `g`; group 0 holds all. -/
def Ctx.inGroup (c : Ctx) (g l : Nat) : Bool := if g = 0 then decide (l < c.n) else c.groups.contains (g, l)

/-- Cause that a record shows: 0 for a debugger stop; the core's own fault; ABORT_TOKEN for a peer under abort; else the
cause of the line. -/
def State.recCause (s : State) (x : Ctx) (h : HaltInfo) (l : Nat) : Nat :=
  let c := s.core ⟨x.asid, l⟩
  let grp := ((s.core ⟨x.asid, h.l⟩).task.map (fun r => bits r.d1 35 24)).getD 0
  if h.cause = 0 then 0
  else match c.fcause with
    | some k => k
    | none =>
      -- DIE_LOST ends the context without an abort, whatever its undo mode (R369)
      let peer := h.cause != 0x26 && (x.par.undo = 2 || (x.par.undo = 1 && c.task.isSome && x.inGroup grp c.lcn))
      if peer then 0x27 else h.cause

/-- Stop records with the causes that hold now: byte 6 of each (spec/15 R360). -/
def State.reCause (s : State) (x : Ctx) (h : HaltInfo) : List StopRec :=
  x.recs.map (fun r =>
    let unit := leNat ((r.drop 4).take 3) / 32 % 2 ^ 11
    let own := if r.getD 7 0 = 1 then (List.range x.n).find? (fun l => x.pcn l == unit) else none
    r.set 6 (BitVec.ofNat 8 ((own.map (fun l => s.recCause x h l)).getD h.cause)))

/-- Raise the halt line of a context for a cause of kind F on core `l`; in a replay the fault diverges instead, and in a STEP
it ends the step (spec/21 R405, R411). -/
def State.raiseHalt (s : State) (asid cause l : Nat) : State :=
  let c := s.core ⟨asid, l⟩
  let tick := s.pcc (s.dieOf ⟨asid, l⟩)
  if c.replay.isSome then s.diverge ⟨asid, l⟩ cause 0
  else
    let s := s.modCore ⟨asid, l⟩ (fun c => { c with fcause := c.fcause <|> some cause })
    match (s.ctx asid).halt with
    | none =>
      let s := if s.attached asid && s.dbg.state == 0 then { s with dbg := { s.dbg with state := 1 } } else s
      s.modCtx asid (fun x => { x with halt := some ⟨cause, l, c.lcnOrNone, tick, false, false⟩ })
    | some h =>
      if s.attached asid && s.dbg.state == 4 then
        (State.unstep { s with dbg := { s.dbg with why := 8, slcn := BitVec.ofNat 24 c.lcnOrNone } } asid).modCtx asid (fun x => { x with halt := some ⟨cause, l, c.lcnOrNone, tick, h.reached, false⟩ })
      else if h.cause = 0 && !h.reached then
        s.modCtx asid (fun x => { x with halt := some ⟨cause, l, c.lcnOrNone, tick, false, false⟩ })
      else if h.cause = 0 || (cause = 0x26 && h.cause != 0x26) then
        -- a fault after a debugger's stop is complete, or a die lost under a halt: the line names it from now on
        let h' : HaltInfo := ⟨cause, l, c.lcnOrNone, tick, h.reached, false⟩
        let s := if s.attached asid && h.cause == 0 then
            { s with dbg := { s.dbg with why := 8, slcn := BitVec.ofNat 24 c.lcnOrNone, state := if s.dbg.state = 5 then 5 else 2 } }
          else s
        s.modCtx asid (fun x => { x with halt := some h', recs := s.reCause x h' })
      else s

/-- A trap of kind A enters the pending queue; a full queue raises TRAP_OVERFLOW. -/
def State.pendTrap (s : State) (id : CoreId) (t : TrapInfo) : State :=
  if (s.core id).pend.length ≥ 64 then s.raiseHalt id.asid 0x33 id.l
  else s.modCore id (fun c => { c with pend := c.pend ++ [t] })

/-- A die whose cores run and whose stack and scratchpads answer: accesses to any other are refused with code 0x0B (spec/15 R366,
spec/22 R419). -/
def State.answers (s : State) (d : Nat) : Bool := (s.die d).st == .live && !(s.die d).lost

/-- Set touched-dies bit `d`; a die that is lost or under reset brings DIE_LOST on every core (spec/15 R367, R369, spec/22 R419). -/
def State.touch (s : State) (asid d : Nat) : State :=
  let c := s.ctx asid
  if c.tdm.getLsbD d then s
  else
    let s := s.modCtx asid (fun c => { c with tdm := c.tdm ||| (1#8 <<< d) })
    if !s.answers d then
      let m := (s.ctx asid).tdm.toNat
      c.ids.foldl (fun s id => s.pendTrap id ⟨0x26, word d, word m, 0⟩) s
    else s

/-- Append an event-log entry (spec/23 R439). -/
def State.logEvent (s : State) (code die detail : Nat) : State :=
  let m := s.mgmt
  let slot := m.evhead.toNat % 1024
  let e := (slot, word (s.cycle / 2), word (code * 2 ^ 56 + die % 256 * 2 ^ 48 + detail % 2 ^ 48))
  { s with mgmt := { m with evlog := e :: m.evlog.filter (fun x => x.1 != slot), evhead := m.evhead + 1, errAt := (s.cycle, 0) } }

/-- The doublewords in slot `k` of the event log. -/
def Mgmt.event (m : Mgmt) (k : Nat) : Word × Word := ((m.evlog.find? (fun x => x.1 == k % 1024)).map (fun x => x.2)).getD (0, 0)

/-- Append the event of an error in an array; those found in one cycle stand in increasing array code (spec/23 R445). -/
def State.logErrorEvent (s : State) (code die arr : Nat) : State :=
  let m := s.mgmt
  let n := if m.errAt.1 = s.cycle then m.errAt.2 else 0
  let first := m.evhead.toNat + 1024 - n % 1024
  let olds := (List.range n).map (fun i => m.event (first + i))
  let e : Word × Word := (word (s.cycle / 2), word (code * 2 ^ 56 + die % 256 * 2 ^ 48 + arr % 2 ^ 48))
  let below (x : Word × Word) : Bool := decide (bits x.2 7 0 ≤ arr)
  let now := olds.filter below ++ e :: olds.filter (fun x => !below x)
  let t := s.logEvent code die arr
  { t with mgmt := { t.mgmt with
    evlog := now.mapIdx (fun i x => ((first + i) % 1024, x)) ++
      t.mgmt.evlog.filter (fun x => !(List.range now.length).any (fun i => x.1 == (first + i) % 1024))
    errAt := (s.cycle, (n + 1) % 1024) } }

end Sys2Proof.Machine
end

