-- ==== Sys2Proof/Machine/Csr.lean ====
section
/-! DEFINITION. CSR numbers (spec/09 R238, spec/02 R29, R42) and the state units of a checkpoint (spec/14 R331). -/

namespace Sys2Proof.Machine

/-- Keep only the bits of a mask. -/
def maskW (w m : Word) : Word := w &&& m

/-- Level a CSR needs: true for the runtime level. -/
def csrRuntime (n : Nat) : Bool := (0x840 ≤ n && n ≤ 0x844) || n == 0xCC8 || (0xCC9 ≤ n && n ≤ 0xCCB)

/-- The CSR exists. -/
def csrExists (n : Nat) : Bool :=
  (1 ≤ n && n ≤ 3) || (0xC00 ≤ n && n ≤ 0xC1F) || (0x800 ≤ n && n ≤ 0x808) || n == 0x810
  || (0x818 ≤ n && n ≤ 0x820) || n == 0x828 || (0x840 ≤ n && n ≤ 0x844) || (0xCC0 ≤ n && n ≤ 0xCC4)
  || (0xCC8 ≤ n && n ≤ 0xCCB)

/-- A number whose two top bits are ones is read-only (RISC-V). -/
def csrReadOnly (n : Nat) : Bool := n / 1024 == 3

/-- Value of an existing CSR of a core. `cycle` (0xC00) reads one count of core cycles that runs from package reset: the spec gives
no start and calls core cycles local to each core (spec/01 R19; the model's choice, notes/assumptions/53.md). -/
def State.csrGet (s : State) (id : CoreId) (n : Nat) : Word :=
  let c := s.core id
  let r := c.csr
  if n = 0x001 then word (r.fcsr.toNat % 32)
  else if n = 0x002 then word (r.fcsr.toNat / 32)
  else if n = 0x003 then word r.fcsr.toNat
  else if n = 0xC00 then word s.cycle
  else if n = 0xC01 then word (s.pcc (s.dieOf id))
  else if n = 0xC02 then c.instret
  else if 0x800 ≤ n ∧ n ≤ 0x807 then vget r.fmt (n - 0x800) 0
  else if n = 0x808 then r.fitness
  else if n = 0x810 then r.ectl
  else if 0x818 ≤ n ∧ n ≤ 0x81F then vget r.ev (n - 0x818) 0
  else if n = 0x820 then r.nfs
  else if n = 0x828 then r.gsl
  else if n = 0x840 then r.rtvec
  else if n = 0x841 then r.rtsvc
  else if n = 0x842 then r.tepc
  else if n = 0x843 then r.tstat
  else if n = 0x844 then r.tscratch
  else if n = 0xCC0 then s.cbits id
  else if n = 0xCC1 then word c.lcn
  else if n = 0xCC2 then word ((s.ctx id.asid).pcn id.l)
  else if n = 0xCC3 then (s.ctx id.asid).sscnt.setWidth 64
  else if n = 0xCC4 then word (c.rqout % 65536)
  else if n = 0xCC8 then r.tcause
  else if n = 0xCC9 then r.tval
  else if n = 0xCCA then r.tdet0
  else if n = 0xCCB then r.tdet1
  else 0

/-- `gsl` keeps `g0` resolved and true (spec/09 R221). -/
def gslOf (v : Word) : Word := (v &&& 0xFFFEFFFE#64) ||| 0x00010001#64

/-- Registers after a write of a writable CSR: reserved fields are ignored (spec/00 R8). -/
def Csrs.set (r : Csrs) (n : Nat) (v : Word) : Csrs :=
  if n = 0x001 then { r with fcsr := BitVec.ofNat 8 (r.fcsr.toNat / 32 * 32 + v.toNat % 32) }
  else if n = 0x002 then { r with fcsr := BitVec.ofNat 8 (v.toNat % 8 * 32 + r.fcsr.toNat % 32) }
  else if n = 0x003 then { r with fcsr := BitVec.ofNat 8 v.toNat }
  else if 0x800 ≤ n ∧ n ≤ 0x807 then { r with fmt := vset r.fmt (n - 0x800) (v &&& 0xFFFFF#64) }
  else if n = 0x808 then { r with fitness := v &&& 0xFFFFFFFF#64 }
  else if n = 0x810 then { r with ectl := v &&& 1#64 }
  else if 0x818 ≤ n ∧ n ≤ 0x81F then { r with ev := vset r.ev (n - 0x818) (v &&& 0xFFFFFFFF#64) }
  else if n = 0x820 then { r with nfs := v &&& 1#64 }
  else if n = 0x828 then { r with gsl := gslOf v }
  else if n = 0x840 then { r with rtvec := v &&& 0x3FFFFFFFFFFFFC#64 }
  else if n = 0x841 then { r with rtsvc := v &&& 0xFF3FFFFFFFFFFFC0#64 }
  else if n = 0x842 then { r with tepc := v &&& 0x3FFFFFFFFFFFFC#64 }
  else if n = 0x843 then { r with tstat := v &&& 3#64 }
  else if n = 0x844 then { r with tscratch := v }
  else r

/-! ### State units (R331) -/

def pair (lo hi : Word) : Nat := lo.toNat + hi.toNat * 2 ^ 64

/-- The 28 doublewords of units 64 to 77. -/
def CoreSt.unitWords (c : CoreSt) : List Word :=
  [c.csr.fcsr.setWidth 64] ++ c.csr.fmt.toList ++ [c.csr.fitness, c.csr.ectl] ++ c.csr.ev.toList ++
    [c.csr.nfs, c.csr.gsl, c.csr.rtvec, c.csr.rtsvc, c.csr.tepc, c.csr.tstat, c.csr.tscratch, c.genNum.setWidth 64, 0]

/-- Contents of a state unit; `pc` and `rd` are what unit 79 records. -/
def CoreSt.unitGet (c : CoreSt) (u : Nat) (pc : Word) (rd : Reg) : Nat :=
  let reg (i : Nat) : Word := if i = 0 then 0 else if i < 32 then vget c.x i 0 else vget c.f (i - 32) 0
  if u < 32 then pair (reg (2 * u)) (reg (2 * u + 1))
  else if u < 48 then let d := vget c.vw (u - 32) Desc.zero; pair d.d0 d.d1
  else if u < 64 then let d := vget c.rg (u - 48) Desc.zero; pair d.d0 d.d1
  else if u < 78 then pair (c.unitWords.getD (2 * (u - 64)) 0) (c.unitWords.getD (2 * (u - 64) + 1) 0)
  else if u = 78 then
    match c.task with
    | some r => pair r.d0 r.d1
    | none => 0
  else if u = 79 then pc.toNat + rd.toNat * 2 ^ 64 + (if c.task.isSome then 2 ^ 69 else 0)
  else 0

/-- Set doubleword `i` of units 64 to 77. -/
def CoreSt.unitWordSet (c : CoreSt) (i : Nat) (v : Word) : CoreSt :=
  let r := c.csr
  if i = 0 then { c with csr := r.set 0x003 v }
  else if i ≤ 8 then { c with csr := r.set (0x7FF + i) v }
  else if i = 9 then { c with csr := r.set 0x808 v }
  else if i = 10 then { c with csr := r.set 0x810 v }
  else if i ≤ 18 then { c with csr := r.set (0x818 + (i - 11)) v }
  else if i = 19 then { c with csr := r.set 0x820 v }
  else if i = 20 then { c with csr := r.set 0x828 v }
  else if i ≤ 25 then { c with csr := r.set (0x840 + (i - 21)) v }
  else if i = 26 then { c with genNum := v.setWidth 32 }
  else c

/-- Restore a ring descriptor: the hidden pointers restart equal to head and tail (spec/05 R109). -/
def CoreSt.setRing (c : CoreSt) (i : Nat) (d : Desc) : CoreSt :=
  { c with rg := vset c.rg i d, rgp := vset c.rgp i ⟨BitVec.ofNat 16 d.head, BitVec.ofNat 16 d.tail⟩ }

/-- A view descriptor without its reserved bits (spec/06 R130, spec/00 R8). -/
def Desc.viewMasked (d : Desc) : Desc :=
  ⟨d.d0 &&& 0xFF0000000001FFFF#64, d.d1 &&& (if bits d.d0 63 62 = 0 then 0x7FFF#64 else 0x0000FFFF01FF01FF#64)⟩

/-- A ring descriptor without its reserved bits (spec/05 R108, spec/00 R8). -/
def Desc.ringMasked (d : Desc) : Desc := ⟨d.d0 &&& 0x001FFFFFFFFFFFFF#64, d.d1 &&& 0x000000FFFFFFFFFF#64⟩

/-- Put back a state unit other than 79 (unit 78 replaces bytes 0 to 15 of the running record). -/
def CoreSt.unitSet (c : CoreSt) (u v : Nat) : CoreSt :=
  let lo := word v
  let hi := word (v / 2 ^ 64)
  let wreg (c : CoreSt) (i : Nat) (w : Word) : CoreSt :=
    if i = 0 then c else if i < 32 then { c with x := vset c.x i w } else { c with f := vset c.f (i - 32) w }
  if u < 32 then wreg (wreg c (2 * u) lo) (2 * u + 1) hi
  else if u < 48 then { c with vw := vset c.vw (u - 32) (Desc.viewMasked ⟨lo, hi⟩) }
  else if u < 64 then c.setRing (u - 48) (Desc.ringMasked ⟨lo, hi⟩)
  else if u < 78 then (c.unitWordSet (2 * (u - 64)) lo).unitWordSet (2 * (u - 64) + 1) hi
  else if u = 78 then
    { c with task := c.task.map (fun r => { r with d0 := lo, d1 := hi }) }
  else c

/-- A CSR instruction writes a CSR; a write of `fitness` may still be missed by a population word (spec/13 R312). -/
def CoreSt.putCsr (c : CoreSt) (n : Nat) (v : Word) : CoreSt :=
  { c with csr := c.csr.set n v, fits := if n = 0x808 then ⟨c.csr.fitness, c.fitNo + 1, []⟩ :: c.fits else c.fits
           fitNo := if n = 0x808 then c.fitNo + 1 else c.fitNo }

end Sys2Proof.Machine
end

