-- ==== Sys2Proof/Machine/Heads.lean ====
section
/-! DEFINITION. The fields of a command word (spec/02 R43), the word at the head of a queue (spec/04 R80, R95, spec/08 R173),
its stall count (spec/08 R180) and its guard decision (spec/09 R223). -/

namespace Sys2Proof.Machine

/-! ### Fields -/

/-- Bits of a command word as a number. -/
def wbits (w : CmdWord) (hi lo : Nat) : Nat := w.toNat / 2 ^ lo % 2 ^ (hi - lo + 1)

def wordOp (w : CmdWord) : Nat := wbits w 7 0
def wordClass (w : CmdWord) : Nat := wbits w 11 8
def wordSel (w : CmdWord) : Nat := wbits w 40 38
def wordTgt (w : CmdWord) : Nat := wbits w 48 41

/-! ### The pushes of a queue -/

/-- Any word without captured views. -/
def plainWord (w : CmdWord) : PWord :=
  { word := w, fs := 0, va := Desc.zero, vb := Desc.zero, vd := Desc.zero, vm := Desc.zero, ca := 0, cb := 0, cd := 0,
    cm := 0, fa := 0, fb := 0, fd := 0, shape := [], block := [] }

/-- Pushes whose block has not ended: they fill the queue (spec/04 R78, R84). -/
def EQueue.waiting (e : EQueue) : List Push := e.pushes.filter (fun p => p.pos.isSome)

/-! ### The word at the head of a queue -/

structure Head where
  push : Push
  slot : Nat
  pw   : PWord
  x    : Option XRun            -- the exchange block it belongs to

/-- The head: the next word of the oldest push that has not issued every word (spec/08 R173, spec/04 R80, R95). -/
def CoreSt.headOf (c : CoreSt) (q : Queue) : Option Head :=
  match (c.queue q).waiting with
  | [] => none
  | p :: _ =>
    let i := p.pos.getD 0
    match p.words[i]? with
    | none => none
    | some pw =>
      match p.xrun with
      | none => some ⟨p, i, pw, none⟩
      | some x =>
        match pw.block[x.pos.getD 0]? with
        | none => none
        | some w => some ⟨p, i, { plainWord w.word with shape := w.shape }, some x⟩

/-- The word at the head, among the words of its push and of its exchange block. -/
def Head.key (h : Head) : Nat := 256 * h.slot + ((h.x.bind XRun.pos).getD 0)

/-- Change the oldest push that still issues. -/
def modHeadPush (f : Push → Push) : List Push → List Push
  | [] => []
  | p :: ps => if p.pos.isSome then f p :: ps else p :: modHeadPush f ps

def State.modHead (s : State) (id : CoreId) (q : Queue) (f : Push → Push) : State :=
  s.modCore id (fun c => c.setQueue q { c.queue q with pushes := modHeadPush f (c.queue q).pushes })

/-- A flight belongs to a push. -/
def Flight.ofPush (f : Flight) (q : Queue) (p : Push) : Bool := f.q == q && f.seq == p.seq && f.rq == p.rq

/-! ### Stall counts and guards -/

/-- The engines of a core work for its context: the halt line has not stopped them (spec/15 R357) unless a STEP or REPLAY runs
the core (spec/21 R407, R411), no pre-emption has (spec/08 R210, spec/04 R102), and its die runs (spec/22 R419). -/
def State.engineOn (s : State) (id : CoreId) : Bool :=
  s.hasCore id &&
    (match s.ctx? id.asid with
     | some x => x.run == .running && (!((x.halt.map HaltInfo.reached).getD false) || (s.core id).stepping)
     | none => false) &&
    (!(s.core id).stopped || (s.core id).stepping) && s.answers (s.dieOf id)

/-- The checking scoreboard is on for matrix and vector words of a core (R182). -/
def CoreSt.checks (c : CoreSt) (q : Queue) : Bool := (q == .eqm || q == .eqv) && bit c.csr.ectl 0

/-- The stall count of the head is satisfied (R180). A population word's counts from the retirement of the word before it
(spec/13 R308). -/
def CoreSt.stallMet (c : CoreSt) (cycle : Nat) (q : Queue) (w : CmdWord) : Bool :=
  decide (cycle ≥ (c.queue q).lastEnd + wbits w 37 30) && !(q == .eqp && c.flights.any (fun f => f.q == .eqp))

def State.stallMet (s : State) (id : CoreId) (q : Queue) (w : CmdWord) : Bool := (s.core id).stallMet s.cycle q w

/-- What the guard slot says in this cycle: take effect, be discarded, or nothing yet (spec/09 R222, R223). -/
def CoreSt.guard (c : CoreSt) (w : CmdWord) : Option Bool :=
  let g := wbits w 15 12
  if bit c.gslSeen g then some (bit c.gslSeen (16 + g) != (wbits w 16 16 == 1)) else none

/-- The decision for this issue of the head word: fixed the first time it is examined. -/
def CoreSt.decision (c : CoreSt) (h : Head) : Option Bool := h.push.decided <|> c.guard h.pw.word

/-- The head of a queue examines its guard in a cycle in which its stall count is met; what it says is fixed. -/
def CoreSt.decideHead (c : CoreSt) (cycle : Nat) (q : Queue) : CoreSt :=
  match c.headOf q with
  | none => c
  | some h =>
    if c.stallMet cycle q h.pw.word then
      c.setQueue q { c.queue q with pushes := modHeadPush (fun p => { p with decided := c.decision h }) (c.queue q).pushes }
    else c

/-- The heads of a core's four queues examine their guards, as they do in each cycle. -/
def State.decideHeads (s : State) (id : CoreId) : State :=
  if s.engineOn id then s.modCore id (fun c => [Queue.eqm, .eqv, .eqc, .eqp].foldl (fun c q => c.decideHead s.cycle q) c)
  else s

end Sys2Proof.Machine
end

