-- ==== Sys2Proof/Machine/Aes.lean ====
section
/-! DEFINITION. The cipher of device HBM (spec/03 R76): AES-256 in XTS mode, the data unit one aligned 64-byte line, the
tweak device PA[51:6]. The spec names the cipher; what it computes is the published standard (notes/assumptions/52.md). -/

namespace Sys2Proof.Machine

/-! ### The field of AES -/

/-- Multiplication by x in the field of 256 elements. -/
def gfDouble (a : Nat) : Nat := if a < 128 then 2 * a else (2 * a) ^^^ 0x11B

/-- Product in the field, from the `n` low bits of the second factor. -/
def gfMul (a b : Nat) : Nat → Nat
  | 0 => 0
  | n + 1 => (if b % 2 = 1 then a else 0) ^^^ gfMul (gfDouble a) (b / 2) n

def gfTimes (a b : Nat) : Nat := gfMul a b 8

/-- The inverse a^254, with 0 for 0: from y = a^m, `n` steps of y ↦ a·y² and a last square. -/
def gfInv (a : Nat) : Nat :=
  let y := (List.range 6).foldl (fun y _ => gfTimes a (gfTimes y y)) a
  gfTimes y y

/-- An 8-bit value turned left by `k`. -/
def rotl8 (x k : Nat) : Nat := (x * 2 ^ k % 256) ||| (x / 2 ^ (8 - k))

/-- The substitution of a byte, and its inverse. -/
def aesSub (x : Nat) : Nat :=
  let b := gfInv x
  b ^^^ rotl8 b 1 ^^^ rotl8 b 2 ^^^ rotl8 b 3 ^^^ rotl8 b 4 ^^^ 0x63

def aesUnsub (x : Nat) : Nat := gfInv (rotl8 x 1 ^^^ rotl8 x 3 ^^^ rotl8 x 6 ^^^ 0x05)

/-! ### The rounds -/

/-- Bytes of two lists, combined. -/
def xorBytes (a b : List Nat) : List Nat := List.zipWith (fun x y => x ^^^ y) a b

/-- Words of four bytes of the key schedule of a 256-bit key, word 0 first: `w` holds words 0 to `k − 1`. -/
def aesExpand (w : List (List Nat)) (rcon k : Nat) : Nat → List (List Nat)
  | 0 => w
  | n + 1 =>
    let t := w.getD (k - 1) []
    let t := if k % 8 = 0 then xorBytes ((t.drop 1 ++ t.take 1).map aesSub) [rcon, 0, 0, 0]
      else if k % 8 = 4 then t.map aesSub else t
    aesExpand (w ++ [xorBytes (w.getD (k - 8) []) t]) (if k % 8 = 0 then gfDouble rcon else rcon) (k + 1) n

/-- The fifteen round keys of a 32-byte key. -/
def aesKeys (key : List Nat) : List (List Nat) :=
  let w := aesExpand ((List.range 8).map (fun i => (key.drop (4 * i)).take 4)) 1 8 52
  (List.range 15).map (fun r => ((w.drop (4 * r)).take 4).flatten)

/-- Row r of the state turns left by `r · k` columns. -/
def aesShift (k : Nat) (s : List Nat) : List Nat :=
  (List.range 16).map (fun i => s.getD ((i + 4 * k * (i % 4)) % 16) 0)

/-- Each column times the circulant of `c`. -/
def aesMix (c : List Nat) (s : List Nat) : List Nat :=
  (List.range 16).map (fun i =>
    (List.range 4).foldl (fun acc j => acc ^^^ gfTimes (c.getD ((j + 4 - i % 4) % 4) 0) (s.getD (i / 4 * 4 + j) 0)) 0)

/-- Encryption of a 16-byte block under round keys. -/
def aesEnc (ks : List (List Nat)) (b : List Nat) : List Nat :=
  let mid := (ks.drop 1).take 13
  let s := mid.foldl (fun s k => xorBytes (aesMix [2, 3, 1, 1] (aesShift 1 (s.map aesSub))) k) (xorBytes b (ks.getD 0 []))
  xorBytes (aesShift 1 (s.map aesSub)) (ks.getD 14 [])

/-- Decryption of a 16-byte block under round keys. -/
def aesDec (ks : List (List Nat)) (b : List Nat) : List Nat :=
  let mid := ((ks.drop 1).take 13).reverse
  let s := mid.foldl (fun s k => aesMix [14, 11, 13, 9] (xorBytes ((aesShift 3 s).map aesUnsub) k)) (xorBytes b (ks.getD 14 []))
  xorBytes ((aesShift 3 s).map aesUnsub) (ks.getD 0 [])

/-! ### XTS -/

/-- The tweak of the next block of a data unit. -/
def xtsNext (t : Nat) : Nat := if t < 2 ^ 127 then 2 * t else (2 * t % 2 ^ 128) ^^^ 0x87

def natBytes (n v : Nat) : List Nat := (leBytes n v).map BitVec.toNat

/-- Tweak of the block at a device PA: PA[51:6] under the second half of the key, then one step for each block before it. -/
def xtsTweak (key : BitVec 512) (pa : Nat) : List Nat :=
  let t := aesEnc (aesKeys (natBytes 32 (key.toNat / 2 ^ 256))) (natBytes 16 (pa / 64 % 2 ^ 46))
  let v := leNat (t.map (fun x => BitVec.ofNat 8 x))
  natBytes 16 ((List.range (pa % 64 / 16)).foldl (fun v _ => xtsNext v) v)

/-- The 16-byte block at a device PA, encrypted or decrypted. -/
def xtsBlock (key : BitVec 512) (enc : Bool) (pa : Nat) (b : List Nat) : List Nat :=
  let t := xtsTweak key pa
  let ks := aesKeys (natBytes 32 (key.toNat % 2 ^ 256))
  xorBytes ((if enc then aesEnc ks else aesDec ks) (xorBytes b t)) t

/-- The block at a PA as key tag `rd` reads it, when key tag `wr` wrote it: tag 0 is plain, tag k + 1 the key named k (R77). -/
def reread (rd wr pa : Nat) (b : List Nat) : List Nat :=
  let stored := if wr = 0 then b else xtsBlock (Config.storageKey (wr - 1)) true pa b
  if rd = 0 then stored else xtsBlock (Config.storageKey (rd - 1)) false pa stored

end Sys2Proof.Machine
end

