-- ==== Sys2Proof/Machine/Banks.lean ====
section
/-! DEFINITION. Bank conflicts on a scratchpad (spec/05 R103 to R107): the units that requesters ask for, the unit that a bank serves
in a cycle, and the waits that `ev_bank` counts. An access asks for its units from the cycle on in which the model makes it, and a
wait does not put off what it reads or writes (notes/assumptions/61.md). -/

namespace Sys2Proof.Machine

/-- Units of `n` bytes at `a` (R103). -/
def unitsOf (a n : Nat) : List Nat :=
  if n = 0 then [] else (List.range ((a + n - 1) / 16 - a / 16 + 1)).map (fun i => a / 16 + i)

/-- The most units that a requester asks for in one cycle (R105). -/
def unitsPerCycle (who : Nat) : Nat :=
  match who with
  | 0 => 8
  | 1 => 32
  | 2 => 16
  | 3 => 8
  | 4 => 4
  | _ => 1

/-- An access of `n` bytes at `a` of a core's scratchpad asks for its units. -/
def State.askBank (s : State) (asid l who acc by_ a n : Nat) : State :=
  { s with bankq := s.bankq ++ (unitsOf a n).map (fun u => ⟨asid, l, who, acc, u, by_, 0, s.cycle⟩) }

/-- The same for a place: only a scratchpad has banks. -/
def State.askPlace (s : State) (asid who acc by_ : Nat) (p : Place) (n : Nat) : State :=
  match p with
  | .scratch l a => s.askBank asid l who acc by_ a n
  | _ => s

/-- A scalar access of core `from_`: at its own scratchpad, or through the die window. -/
def scalarAsker (from_ : Nat) (p : Place) : Nat :=
  match p with
  | .scratch l _ => if l = from_ then 6 else 5
  | _ => 6

/-- Two units of one access. -/
def BankAsk.sameAccess (j k : BankAsk) : Bool := j.asid == k.asid && j.l == k.l && j.who == k.who && j.acc == k.acc

/-- Two units of one bank. -/
def BankAsk.sameBank (j k : BankAsk) : Bool := j.asid == k.asid && j.l == k.l && j.unit % 192 == k.unit % 192

/-- Two units of one requester of R105: one copy engine, one other core through the die window, else one row of its table. -/
def BankAsk.sameRequester (j k : BankAsk) : Bool :=
  j.asid == k.asid && j.l == k.l && j.who == k.who && ((j.who != 3 && j.who != 5) || j.acc == k.acc)

/-- Which units are asked for in this cycle: of each requester the first ones, as many as its width; a word in an engine may put off
units that it can still ask for in time. `shown` holds those asked for so far. -/
def presented (held : List (Nat × Nat)) (cycle : Nat) : List BankAsk → List BankAsk → List BankAsk → List (BankAsk × Bool)
  | _, _, [] => []
  | before, shown, k :: ks =>
    let width := unitsPerCycle k.who
    let later := k.waited == 0 && held.contains (k.who, k.acc)
      && decide (cycle + 1 + before.countP k.sameAccess / width < k.by_)
    let now := decide (shown.countP k.sameRequester < width) && !later
    (k, now) :: presented held cycle (before ++ [k]) (if now then shown ++ [k] else shown) ks

/-- The order in which a bank serves (R106): the longest-waiting from 16 cycles on, then by requester, then by address. -/
def BankAsk.before (j k : BankAsk) : Bool :=
  let long (a : BankAsk) : Nat := if a.waited ≥ 16 then a.waited else 0
  decide (long k < long j) || (long j == long k && (decide (j.who < k.who) || (j.who == k.who && decide (j.unit < k.unit))))

/-- A unit waits: its bank serves another unit in this cycle. All that ask for the unit served are served (notes/assumptions/61.md). -/
def BankAsk.waits (now : List BankAsk) (k : BankAsk) : Bool :=
  now.any (fun j => j.sameBank k && j.unit != k.unit && now.all (fun i => !(i.sameBank k && i.before j) || i.unit == j.unit))

/-- The banks serve one cycle: the requesters with a unit that waits count, the spill engine aside, and the unit is asked for again
(R106, R107). A row of the table of R105 counts as one requester, however many copy engines or other cores wait in it: R107 leaves
that open (notes/assumptions/61.md). -/
def State.settleBanks (s : State) : State :=
  if s.bankq.isEmpty then { s with bankHeld := [] }
  else
    let ps := presented s.bankHeld s.cycle [] [] s.bankq
    let now := (ps.filter (fun p => p.2)).map (fun p => p.1)
    { s with
      cores := s.cores.map (fun (c : CoreSt) =>
        let late := now.filter (fun k => k.asid == c.id.asid && k.l == c.id.l && k.who != 0 && k.waits now)
        c.countEvs (List.replicate (late.map BankAsk.who).dedup.length 7))
      bankq := ps.filterMap (fun p =>
        if !p.2 then some p.1 else if p.1.waits now then some { p.1 with waited := p.1.waited + 1 } else none)
      bankHeld := [] }

/-- The banks have served what a push has read of its core's scratchpad and the stores that it found there: its words may issue from
then on (notes/assumptions/61.md). -/
def State.pushIn (s : State) (id : CoreId) (p : Push) : Bool :=
  !s.bankq.any (fun k => k.asid == id.asid && k.l == id.l && k.who == 6 && decide (k.came ≤ p.came))

/-- A word in an engine puts off what it asks of the banks in this cycle. -/
def State.holdBank (s : State) (who acc : Nat) : State :=
  if who = 1 ∨ who = 2 then { s with bankHeld := (who, acc) :: s.bankHeld } else s

end Sys2Proof.Machine
end

