-- ==== Sys2Proof/Machine/Trans.lean ====
section
/-! DEFINITION. Memory beyond the core (spec/03): stripe, device HBM under key slots, translation, address decode. -/

namespace Sys2Proof.Machine

/-! ### Stripe (R70, R71) -/

/-- Live stacks in increasing order. -/
def State.liveStacks (s : State) : List Nat := (List.range 8).filter (fun d => s.lmask.getLsbD d)

/-- Live capacity in bytes. -/
def State.capacity (s : State) : Nat :=
  let live := s.liveStacks.length
  if live = 0 then 0 else 15625000 / (5040 / live) * 5040 * 4096

/-- Stack that holds a device PA. -/
def State.stackOf (s : State) (pa : Nat) : Nat :=
  let L := s.liveStacks
  let live := L.length
  let i := pa / 4096 % 5040
  L.getD ((i % live + i / live) % live) 0

/-- Offset of a device PA within its stack (R70). -/
def State.stackOffset (s : State) (pa : Nat) : Nat :=
  let live := s.liveStacks.length
  let g := pa / 4096
  (g / 5040 * (5040 / live) + g % 5040 / live) * 4096 + pa % 4096


/-! ### Places -/

/-- Host memory of either type. -/
def Place.isHost : Place → Bool
  | .hostBulk _ => true
  | .hostCoh _ => true
  | _ => false

/-- Device registers. -/
def Place.isDev : Place → Bool
  | .dev _ => true
  | _ => false

/-- True for places that bypass the edge queue (spec/10 R245). -/
def Place.isLocal : Place → Bool
  | .scratch .. => true
  | .reg _ => true
  | _ => false

/-- Two accesses touch a common byte. -/
def Place.meets (p : Place) (n : Nat) (q : Place) (m : Nat) : Bool :=
  match p, q with
  | .scratch l a, .scratch k b => l == k && decide (a < b + m) && decide (b < a + n)
  | .reg a, .reg b => decide (a < b + m) && decide (b < a + n)
  | .hbm _ a, .hbm _ b => decide (a < b + m) && decide (b < a + n)
  | .hostBulk a, .hostBulk b => decide (a < b + m) && decide (b < a + n)
  | .hostBulk a, .hostCoh b => decide (a < b + m) && decide (b < a + n)
  | .hostCoh a, .hostBulk b => decide (a < b + m) && decide (b < a + n)
  | .hostCoh a, .hostCoh b => decide (a < b + m) && decide (b < a + n)
  | .dev a, .dev b => decide (a < b + m) && decide (b < a + n)
  | _, _ => false

/-- Byte address of a place within its space. -/
def Place.addr : Place → Nat
  | .scratch _ a => a
  | .reg a => a
  | .hbm _ a => a
  | .hostBulk a => a
  | .hostCoh a => a
  | .dev a => a

/-- The place `k` bytes further on. -/
def Place.shift (p : Place) (k : Nat) : Place :=
  match p with
  | .scratch l a => .scratch l (a + k)
  | .reg a => .reg (a + k)
  | .hbm sl a => .hbm sl (a + k)
  | .hostBulk a => .hostBulk (a + k)
  | .hostCoh a => .hostCoh (a + k)
  | .dev a => .dev (a + k)

/-- Aligned 16-byte unit of a place. -/
def Place.unit (p : Place) : Place := p.shift 0 |> fun q =>
  match q with
  | .scratch l a => .scratch l (a / 16 * 16)
  | .reg a => .reg (a / 16 * 16)
  | .hbm _ a => .hbm 0 (a / 16 * 16)
  | .hostBulk a => .hostBulk (a / 16 * 16)
  | .hostCoh a => .hostBulk (a / 16 * 16)
  | .dev a => .dev (a / 16 * 16)

/-! ### What is visible (spec/10 R244, R247, R254) -/

/-- Something may turn on what is visible to whom: a load taken ahead, or a write of `fitness` not yet seen. -/
def State.watched (s : State) : Bool := s.cores.any (fun c => !c.early.isEmpty || !c.fits.isEmpty)

/-- An agent has written since: what was loaded ahead is older than that write from `t` on. -/
def Early.overBy (e : Early) (by_ : Option CoreId) (t : Nat) (p : Place) (n : Nat) : Early :=
  if e.place.meets e.bytes.length p n && !e.newer.any (fun o => o.1 == by_) then { e with newer := e.newer ++ [(by_, t)] } else e

/-- A write to global bytes becomes visible to the cores that satisfy `sees`. -/
def State.overtake (s : State) (by_ : Option CoreId) (sees : CoreId → Bool) (p : Place) (n : Nat) : State :=
  if p.isLocal then s
  else { s with
    seen := s.seen + 1
    cores := s.cores.map (fun c => if sees c.id then { c with early := c.early.map (fun e => e.overBy by_ (s.seen + 1) p n) } else c) }

/-- A mark is of bytes that an access of a core touches. -/
def Mark.on (m : Mark) (id : CoreId) (p : Place) (n : Nat) : Bool :=
  m.place.meets m.n p n && (match p with
    | .scratch .. => m.by_.asid == id.asid
    | .reg _ => m.by_ == id
    | _ => true)

/-- What stands of a write when `n` bytes of a place are overwritten. -/
def Mark.cut (m : Mark) (p : Place) (n : Nat) : List Mark :=
  let a := m.place.addr
  (if a < p.addr then [{ m with n := p.addr - a, torn := true }] else []) ++
    (if p.addr + n < a + m.n then [{ m with place := m.place.shift (p.addr + n - a), n := a + m.n - (p.addr + n), torn := true }] else [])

/-- Bytes of a place have changed at their memory, by a write of a core, of a word of it, or of another agent. -/
def State.changed (s : State) (by_ : Option CoreId) (id : CoreId) (p : Place) (n : Nat) : State :=
  if s.watched then
    { s.overtake by_ (fun _ => true) p n with marks := s.marks.flatMap (fun m => if m.on id p n then m.cut p n else [m]) }
  else s

/-- A write with the releases that it carries stands at its place. -/
def State.mark (s : State) (m : Mark) : State := if s.watched then { s with marks := m :: s.marks } else s

/-! ### Key slots (R76, R77) -/

def State.keySt (s : State) (slot : Nat) : KeySt :=
  match s.keys.slots.find? (fun p => p.1 == slot) with
  | some p => p.2
  | none => .empty

/-- Tag under which a slot stores bytes: 0 for plain, key name + 1 when keyed. -/
def KeySt.tag : KeySt → Nat
  | .keyed k => k + 1
  | _ => 0

/-- Tag of each byte of a range; unlisted bytes are plain. -/
def tagOf : List (Nat × Nat) → Nat → Nat := tabGet

/-- Record the tag of `n` bytes from `a`. -/
def tagWrite (t : List (Nat × Nat)) (a n tag : Nat) : List (Nat × Nat) :=
  t.filter (fun p => decide (p.1 < a)) ++
    ((if tag = 0 then [] else (List.range n).map (fun i => (a + i, tag))) ++ t.filter (fun p => decide (a + n ≤ p.1)))

/-- Key under which damage and poison of a core's register space and scratchpad are recorded: they are those of its context
(spec/06 R127). -/
def ownKey (id : CoreId) : Nat := id.asid * 2048 + id.l + 1

/-- Bytes of a code word's unit as its address counts them: a register of the scalar registers is one (spec/23 R442). -/
def unitLen (arr : Nat) : Nat := if arr = 2 then 1 else 16

/-- Poisoned units are named by array code, owner (a core's key, 0 for HBM) and unit address (spec/15 R366). -/
def State.poisoned (s : State) (arr own a n : Nat) : Bool :=
  s.poison.any (fun p => p.1 == arr && p.2.1 == own && decide (p.2.2 < a + n) && decide (a < p.2.2 + unitLen arr))

/-- Why device HBM refuses a range under a slot; 0 when it does not. Which code is shown when several apply is the model's
choice, the order of these tests (notes/assumptions/53.md). -/
def State.hbmRefusal (s : State) (slot pa n : Nat) : Nat :=
  if pa + n > s.capacity then 0x06
  else if !s.answers (s.stackOf pa) || !s.answers (s.stackOf (pa + n - 1)) then 0x0B
  else if s.keySt slot == .empty then 0x08
  else if s.poisoned 5 0 pa n then 0x0B
  else 0

/-- A byte of device HBM that key tag `wr` wrote, as key tag `rd` reads it: its byte of the 16-byte cipher block as it stands,
read as if that key had written all of it (notes/assumptions/52.md). -/
def State.rereadByte (s : State) (rd wr pa : Nat) : Byte :=
  let b := (s.hbm.readBytes (pa / 16 * 16) 16).map BitVec.toNat
  BitVec.ofNat 8 ((reread rd wr (pa / 16 * 16) b).getD (pa % 16) 0)

/-- Bytes of device HBM as slot `slot` reads them: a byte stored under another key comes back as what that key deciphers
(R77, notes/assumptions/52.md). -/
def State.hbmBytes (s : State) (slot pa : Nat) : Nat → List Byte
  | 0 => []
  | n + 1 =>
    let rd := (s.keySt slot).tag
    let wr := tagOf s.ktag pa
    (if rd = wr then s.hbm.read pa else s.rereadByte rd wr pa) :: State.hbmBytes s slot (pa + 1) n

/-- A write of whole units clears their poison; a reservation on a written granule is lost (spec/15 R366, spec/02 R29). -/
def State.clearPoison (s : State) (arr own a n : Nat) : State :=
  { s with poison := s.poison.filter (fun p => !(p.1 == arr && p.2.1 == own && decide (a ≤ p.2.2) && decide (p.2.2 + 16 ≤ a + n))) }

/-- An armed injection acts once on the next write to its unit (spec/23 R443): `own` holds the unit, `shown` is the owner field of
the unit's address. -/
def State.injectAt (s : State) (arr own shown lo n : Nat) : State :=
  let m := s.mgmt
  let unit := m.iaddr.toNat % 2 ^ 52 / 16 * 16
  let hit := m.inb != 0 && m.iarr == arr && m.iaddr.toNat / 2 ^ 52 % 2 ^ 11 == shown % 2 ^ 11
    && decide (unit < lo + n) && decide (lo < unit + 16)
  let fresh : List Damage := if hit then [⟨arr, own, word (m.iaddr.toNat / 2 ^ 52 * 2 ^ 52 + unit), m.inb⟩] else []
  { s with mgmt := { m with injected := fresh ++ m.injected, inb := if hit then 0 else m.inb } }

/-- What a write leaves of damage and injection: a write of a whole unit replaces damage stored there, and an armed injection
acts. -/
def State.applyInjection (s : State) (arr own shown lo n : Nat) : State :=
  State.injectAt { s with mgmt := { s.mgmt with injected := s.mgmt.injected.filter (fun p => !(p.arr == arr && p.own == own &&
    decide (lo ≤ p.addr.toNat % 2 ^ 52) && decide (p.addr.toNat % 2 ^ 52 + 16 ≤ lo + n))) } } arr own shown lo n

/-- A write to its granule breaks a reservation (spec/02 R29). -/
def CoreSt.breakHbm (c : CoreSt) (pa n : Nat) : CoreSt :=
  match c.resv with
  | some (.hbm _ r) => if decide (r < pa + n) && decide (pa < r + 16) then { c with resv := none } else c
  | _ => c

/-- Write device HBM under a slot: a write of core `by_`, of a word of it, or of another agent. -/
def State.hbmWrite (s : State) (slot pa : Nat) (bs : List Byte) (by_ : Option CoreId := none) : State :=
  let s := s.changed by_ ⟨0, 0⟩ (.hbm slot pa) bs.length
  let s := { s with hbm := s.hbm.write pa bs, ktag := tagWrite s.ktag pa bs.length (s.keySt slot).tag }
  let s := { s with cores := s.cores.map (fun (c : CoreSt) => c.breakHbm pa bs.length) }
  (s.clearPoison 5 0 pa bs.length).applyInjection 5 0 slot pa bs.length

/-! ### Soft errors (spec/23 R442, R445) -/

/-- Die of a unit of an array (spec/23 R439, R444): of its core, or of its stack, or the one its address names. -/
def State.errorDie (s : State) (arr : Nat) (addr : Word) : Nat :=
  let own := addr.toNat / 2 ^ 52 % 2 ^ 11
  if arr = 5 then s.stackOf (addr.toNat % 2 ^ 52)
  else if arr = 4 ∨ arr = 7 ∨ arr = 8 then own
  else own / 256

/-- Enter an error in the log of its array and in the event log. -/
def State.logError (s : State) (arr : Nat) (addr : Word) (unc : Bool) (asid : Option Nat) : State :=
  let m := s.mgmt
  let (k, co, un) := ((m.ecount.find? (fun e => e.1 == arr)).map (fun e => e.2)).getD (0, 0, 0)
  let sat (n : Nat) : Nat := if n < 0xFFFFFFFF then n + 1 else n
  let d1 := (Config.syndrome s.fresh).toNat * 2 ^ 55 + (if unc then 2 ^ 54 else 0)
    + (match asid with
       | some a => a % 1024 * 2 ^ 44 + 2 ^ 43
       | none => 0) + s.cycle / 2 % 2 ^ 43
  let s := s.bump
  let s := { s with mgmt := { m with
    elog := (arr, k % 16, addr, word d1) :: m.elog.filter (fun e => !(e.1 == arr && e.2.1 == k % 16))
    ecount := (arr, k + 1, (if unc then co else sat co), (if unc then sat un else un)) :: m.ecount.filter (fun e => e.1 != arr) } }
  s.logErrorEvent (if unc then 0x06 else 0x05) (s.errorDie arr addr) arr

/-- Damaged units that a range of an array meets. -/
def State.damaged (s : State) (arr own a n : Nat) : List Damage :=
  s.mgmt.injected.filter (fun p => p.arr == arr && p.own == own &&
    decide (p.addr.toNat % 2 ^ 52 < a + n) && decide (a < p.addr.toNat % 2 ^ 52 + 16))

/-- Arrays whose units the manual names by an array offset that it does not lay out: scalar registers, veneer, engine queues,
translation caches, the stage-queue store (notes/assumptions/58.md). -/
def looseArray (arr : Nat) : Bool := arr == 2 || arr == 4 || arr == 6 || arr == 7 || arr == 8

/-- Unit of damage as poison names it: its offset, with the core or die in an array that no owner's key stands for. -/
def Damage.unit (p : Damage) : Nat := if looseArray p.arr then p.addr.toNat else p.addr.toNat % 2 ^ 52

/-- Damage is found in a unit: one flipped bit is corrected and logged; two poison the unit and are logged. A unit that is already
poisoned is not logged again. -/
def State.foundDamage (s : State) (asid : Option Nat) (p : Damage) : State :=
  let s := { s with mgmt := { s.mgmt with injected := s.mgmt.injected.filter (fun q => q != p) } }
  let a := p.unit
  if s.poisoned p.arr p.own a (unitLen p.arr) then s
  else if p.flips = 1 then s.logError p.arr p.addr false asid
  else { s.logError p.arr p.addr true asid with poison := (p.arr, p.own, a) :: s.poison }

/-- Consume damaged units: two flipped bits raise UNCORRECTABLE_ERROR, unless the unit is poisoned already and so refuses the
access (spec/15 R366). The second part says that they did. -/
def State.consume (s : State) (id : CoreId) : List Damage → State × Bool
  | [] => (s, false)
  | p :: ps =>
    let t := s.foundDamage (some id.asid) p
    if p.flips = 1 || s.poisoned p.arr p.own p.unit (unitLen p.arr) then t.consume id ps else (t.raiseHalt id.asid 0x32 id.l, true)

/-- Array code, owner and address of a place, for error handling. -/
def arrayOf (id : CoreId) (p : Place) : Option (Nat × Nat × Nat) :=
  match p with
  | .scratch l a => some (3, ownKey ⟨id.asid, l⟩, a)
  | .reg a => some (1, ownKey id, a)
  | .hbm _ a => some (5, 0, a)
  | _ => none

/-- Damage that an access of core `id` to `n` bytes of a place meets. -/
def State.damageAt (s : State) (id : CoreId) (p : Place) (n : Nat) : List Damage :=
  match arrayOf id p with
  | some (arr, own, a) => s.damaged arr own a n
  | none => []

/-- A poisoned unit of a place that an access of core `id` to `n` bytes meets. -/
def State.poisonAt (s : State) (id : CoreId) (p : Place) (n : Nat) : Bool :=
  match arrayOf id p with
  | some (arr, own, a) => s.poisoned arr own a n
  | none => false

/-- A poisoned unit that a write of core `id` to `n` bytes of a place meets and does not cover whole. -/
def State.poisonLeft (s : State) (id : CoreId) (p : Place) (n : Nat) : Bool :=
  match arrayOf id p with
  | some (arr, own, a) => s.poison.any (fun p => p.1 == arr && p.2.1 == own && decide (p.2.2 < a + n) && decide (a < p.2.2 + 16)
      && !(decide (a ≤ p.2.2) && decide (p.2.2 + 16 ≤ a + n)))
  | none => false

/-- Refusal code of a write that covers units of HBM whole or in part. -/
def State.hbmWriteRefusal (s : State) (slot pa n : Nat) : Nat :=
  if pa + n > s.capacity then 0x06
  else if !s.answers (s.stackOf pa) || !s.answers (s.stackOf (pa + n - 1)) then 0x0B
  else if s.keySt slot == .empty then 0x08
  else if s.poisonLeft ⟨0, 0⟩ (.hbm slot pa) n then 0x0B
  else 0

/-- Damage and poison of a context's own arrays go with it (spec/06 R127). -/
def State.dropDamage (s : State) (asid : Nat) : State :=
  let mine (own : Nat) : Bool := own != 0 && own / 2048 == asid
  { s with
    poison := s.poison.filter (fun p => !mine p.2.1)
    mgmt := { s.mgmt with injected := s.mgmt.injected.filter (fun p => !mine p.own) } }

/-! ### Translation (R61 to R67) -/

/-- Kinds of access, R65. -/
inductive Access where
  | fetch | load | store | amo
deriving DecidableEq, Repr

/-- Size in bits of what a leaf of a level maps. -/
def leafBits : Nat → Nat
  | 1 => 36
  | 2 => 25
  | _ => 14

/-- Index of a VA at a level. -/
def vaIndex (va : Nat) : Nat → Nat
  | 0 => va / 2 ^ 47 % 2 ^ 7
  | 1 => va / 2 ^ 36 % 2 ^ 11
  | 2 => va / 2 ^ 25 % 2 ^ 11
  | _ => va / 2 ^ 14 % 2 ^ 11

/-- An entry that ends the walk with code 0x05, R63. -/
def malformed (e : Word) (level : Nat) : Bool :=
  let leaf := bit e 1
  let mt := bits e 8 7
  let k := bit e 9
  bits e 63 52 != 0 || bits e 13 10 != 0 || bit e 2
  || (leaf && level == 0) || (!leaf && level == 3)
  || (!leaf && bits e 9 3 != 0)
  || (leaf && bit e 4 && !bit e 3)
  || (leaf && level == 1 && bits e 35 14 != 0) || (leaf && level == 2 && bits e 24 14 != 0)
  || (leaf && (mt == 1 || mt == 2) && (k || bit e 5))
  || (leaf && mt == 3 && (!bit e 6 || bit e 5 || k))

/-- One read of a table entry under the shared slot. -/
def State.readEntry (s : State) (pa : Nat) : Except Nat Word :=
  match s.hbmRefusal 1024 pa 8 with
  | 0 => .ok (word (leNat (s.hbmBytes 1024 pa 8)))
  | c => .error c

/-- Table walk from `level` at table `tbl`; the result is the leaf, its level, and the pointers met. -/
def State.walkFrom (s : State) (va tbl level : Nat) (ptrs : List (Nat × Word)) : Nat → Except Nat (Word × Nat × List (Nat × Word))
  | 0 => .error 0x05
  | fuel + 1 =>
    match s.readEntry (tbl + 8 * vaIndex va level) with
    | .error c => .error c
    | .ok e =>
      if !bit e 0 then .error 0x03
      else if malformed e level then .error 0x05
      else if bit e 1 then .ok (e, level, ptrs)
      else State.walkFrom s va (bits e 51 14 * 2 ^ 14) (level + 1) (ptrs ++ [(level, e)]) fuel

/-- Root of an ASID, R64. -/
def State.rootOf (s : State) (asid : Nat) : Except Nat Nat :=
  match s.readEntry (s.asidbase.toNat + 8 * asid) with
  | .error c => .error c
  | .ok e =>
    if !bit e 0 then .error 0x03
    else if bits e 9 1 != 0 || bits e 63 52 != 0 then .error 0x05
    else .ok (bits e 51 10 * 2 ^ 10)

/-- Where the walk of a miss begins on a die: the table and its level below the lowest pointer that the station of `va` holds,
else the root (R67). -/
def State.walkStart (s : State) (d asid va : Nat) : Except Nat (Nat × Nat) :=
  let ptr (lv n : Nat) := (s.die d).ptrs.find? (fun t =>
    t.asid == asid && t.level == lv && t.tag == va / 2 ^ n * 8 + va / 2 ^ 14 % 8)
  match ptr 2 25, ptr 1 36 with
  | some t, _ => .ok (bits t.pte 51 14 * 2 ^ 14, 3)
  | none, some t => .ok (bits t.pte 51 14 * 2 ^ 14, 2)
  | none, none => match s.rootOf asid with
    | .error c => .error c
    | .ok root => .ok (root, 0)

/-- The walk of a miss, which reads the levels that the pointer cache does not supply (R67). -/
def State.walk (s : State) (d asid va : Nat) : Except Nat (Word × Nat × List (Nat × Word)) :=
  match s.walkStart d asid va with
  | .error c => .error c
  | .ok (tbl, lv) => s.walkFrom va tbl lv [] 4

/-- The leaf that the station of `va` on a die holds for it (R67). -/
def State.leafHeld (s : State) (d asid va : Nat) : Option TlbEnt :=
  (s.die d).leafs.find? (fun t => t.asid == asid && t.tag == va / 2 ^ leafBits t.level * 8 + va / 2 ^ 14 % 8)

/-- Translation of a VA on a die: leaf cache, then pointer cache, then the tables (R67). -/
def State.lookup (s : State) (d asid va : Nat) : Except Nat (Word × Nat) :=
  match s.leafHeld d asid va with
  | some t => .ok (t.pte, t.level)
  | none => match s.walk d asid va with
    | .ok (e, lv, _) => .ok (e, lv)
    | .error c => .error c

/-- Addresses of the table entries that a walk reads from a table, first to last. -/
def State.entriesFrom (s : State) (va tbl level : Nat) : Nat → List Nat
  | 0 => []
  | fuel + 1 =>
    let pa := tbl + 8 * vaIndex va level
    pa :: (match s.readEntry pa with
      | .ok e => if bit e 0 && !malformed e level && !bit e 1 then State.entriesFrom s va (bits e 51 14 * 2 ^ 14) (level + 1) fuel else []
      | .error _ => [])

/-- Damaged units among the entries that the walk of a missing global address reads (spec/23 R442). -/
def State.walkDamage (s : State) (d asid va : Nat) : List Damage :=
  if (s.leafHeld d asid va).isSome then []
  else
    let from_ (r : Except Nat (Nat × Nat)) : List Nat := match r with
      | .ok (tbl, lv) => s.entriesFrom va tbl lv 4
      | .error _ => []
    let root : List Nat := if (s.walkStart d asid va).toOption.any (fun p => p.2 != 0) then [] else [s.asidbase.toNat + 8 * asid]
    ((root ++ from_ (s.walkStart d asid va)).flatMap (fun pa => s.damaged 5 0 pa 8)).dedup

/-- Bits [63:54] all equal bit [53], R57. -/
def canonical (va : Word) : Bool := bits va 63 53 == 0 || bits va 63 53 == 2 ^ 11 - 1

/-- The lowest address of the local region, R58. -/
def localBase : Nat := 0xFFFFFFFFE0000000

/-- Sign extension of an address from bit 53. -/
def sext54 (a : Nat) : Word := sextNat 54 a

/-- Translate a global address for an access of a context (R60 to R65). `rt` is the requester's level. -/
def State.translate (s : State) (d asid : Nat) (rt : Bool) (va : Word) (acc : Access) : Except Nat Place :=
  if bit va 53 && !rt then .error 0x02
  else
    match s.lookup d asid (va.toNat % 2 ^ 54) with
    | .error c => .error c
    | .ok (e, lv) =>
      if bit e 6 && !rt then .error 0x02
      else
        let ok := match acc with
          | .fetch => bit e 5
          | .load => bit e 3
          | .store => bit e 4
          | .amo => bit e 3 && bit e 4
        if !ok then .error 0x04
        else
          let off := va.toNat % 2 ^ leafBits lv
          let pa := bits e 51 14 * 2 ^ 14 / 2 ^ leafBits lv * 2 ^ leafBits lv + off
          match bits e 8 7 with
          | 0 => .ok (.hbm (if bit e 9 then 1024 else asid) pa)
          | 1 => .ok (.hostBulk pa)
          | 2 => .ok (.hostCoh pa)
          | _ => .ok (.dev pa)

/-- Core named by a die-window index on a die, if it is in the partition of the context (R59). -/
def Ctx.windowCore (c : Ctx) (d idx : Nat) : Option Nat := c.lAt (d * 36 + idx / 4) (idx % 4)

/-- Address decode at the core: where `n` bytes at `va` lie, or the refusal code (R57 to R60, spec/05 R104). A die-window address
wrong in its scratchpad part and in its core is shown as 0x0A (notes/assumptions/53.md). -/
def State.resolve (s : State) (id : CoreId) (rt : Bool) (va : Word) (n : Nat) (acc : Access) : Except Nat Place :=
  let ctx := s.ctx id.asid
  let d := ctx.dieOf id.l
  let a := va.toNat
  if !canonical va then .error 0x01
  else if a ≥ localBase then
    if acc = .fetch then .error 0x0A
    else if a < 0xFFFFFFFFF0000000 then
      let idx := a / 2 ^ 20 % 256
      let sp := a % 2 ^ 20
      if sp ≥ 0xC0000 then .error 0x0A
      else if idx ≥ 144 then .error 0x09
      else match ctx.windowCore d idx with
        | none => .error 0x09
        | some l => if sp + n > ctx.par.fp then .error 0x0A else .ok (.scratch l sp)
    else if 0xFFFFFFFFFFE00000 ≤ a && a ≤ 0xFFFFFFFFFFE1FFFF then .ok (.reg (a % 2 ^ 17))
    else if 0xFFFFFFFFFFF00000 ≤ a && a ≤ 0xFFFFFFFFFFFBFFFF then
      if a % 2 ^ 20 + n > ctx.par.fp then .error 0x0A else .ok (.scratch id.l (a % 2 ^ 20))
    else .error 0x0A
  else s.translate d id.asid rt va acc

/-- Entries that walks of an ASID consume: damage is corrected or poisons its unit (spec/23 R442). The second part says that an
uncorrectable error ended the walk. -/
def State.foundIn (s : State) (asid : Option Nat) : List Damage → State × Bool
  | [] => (s, false)
  | p :: ps =>
    if p.flips = 1 || s.poisoned p.arr p.own p.unit (unitLen p.arr) then (s.foundDamage asid p).foundIn asid ps
    else (s.foundDamage asid p, true)

/-- What a read of device HBM by the host or the dispatcher meets: damage there is found, for an ASID where there is one
(spec/23 R442). -/
def State.dmaMet (s : State) (asid : Option Nat) (pa n : Nat) : State :=
  (s.damaged 5 0 pa n).foldl (fun s p => s.foundDamage asid p) s

/-- The walk that an access of core `id` to a global address needs consumes damaged table entries as the core's own access. -/
def State.walkMet (s : State) (id : CoreId) (rt : Bool) (va : Word) : State × Bool :=
  if !canonical va || decide (va.toNat ≥ localBase) || (bit va 53 && !rt) then (s, false)
  else s.consume id (s.walkDamage (s.dieOf id) id.asid (va.toNat % 2 ^ 54))

/-- Late codes of a place: capacity, key slot, dead stack (R66, R71, R77); scratchpads of a die that does not answer (spec/22
R419). -/
def State.placeRefusal (s : State) (asid : Nat) (p : Place) (n : Nat) : Nat :=
  match p with
  | .hbm slot pa => s.hbmRefusal slot pa n
  | .scratch l _ => if s.answers ((s.ctx asid).dieOf l) then 0 else 0x0B
  | _ => 0

/-- The die that serves a place: the stack of its home, or the die of the scratchpad (spec/15 R367). -/
def State.servedBy (s : State) (asid : Nat) (p : Place) : Option Nat :=
  match p with
  | .hbm _ pa => some (s.stackOf pa)
  | .scratch l _ => some ((s.ctx asid).dieOf l)
  | _ => none

end Sys2Proof.Machine
end

