-- ==== Sys2Proof/Machine/Log.lean ====
section
/-! DEFINITION. The undo log (spec/14): windows, log entries and ring slots, checkpoints, the egress hold buffer, commit;
and the one way every write is performed at its memory. -/

namespace Sys2Proof.Machine

/-! ### Windows (R322) -/

/-- Window `w` is uncommitted on a core. -/
def WinSt.has (w : WinSt) (v : Nat) : Bool :=
  match w.unc with
  | none => false
  | some (o, h) => decide ((BitVec.ofNat 32 v - o).toNat ≤ (h - o).toNat)

/-- The open window: the newest uncommitted one. -/
def WinSt.openWin (w : WinSt) : Option Nat := w.unc.map (fun p => p.2.toNat)

/-- How many windows are uncommitted. -/
def WinSt.count (w : WinSt) : Nat :=
  match w.unc with
  | none => 0
  | some (o, h) => (h - o).toNat + 1

/-- Position of window `v` counted from the oldest uncommitted one. -/
def WinSt.pos (w : WinSt) (v : Nat) : Nat :=
  match w.unc with
  | none => 0
  | some (o, _) => (BitVec.ofNat 32 v - o).toNat

/-! ### Ring slots (R324, R329) -/

/-- Slots in use of a context's log ring. -/
def State.ringUsed (s : State) (asid : Nat) : List Nat :=
  (s.ctx asid).log.flatMap (fun e => e.slots) ++
    (s.cores.filter (fun c => c.id.asid == asid)).flatMap
      (fun c => (c.ckpts.flatMap (fun k => k.units.map (fun u => u.slot))) ++ c.committed.map (fun u => u.slot)
        ++ c.inputs.map (fun i => i.slot))

def State.ringFree (s : State) (asid : Nat) : Nat := (s.ctx asid).par.logsize - (s.ringUsed asid).length

/-- Count up from `k` through the ring to a slot that is not used. -/
def nextFree (used : List Nat) (size k : Nat) : Nat → Nat
  | 0 => k % size
  | fuel + 1 => if used.contains (k % size) then nextFree used size (k + 1) fuel else k % size

/-- `n` slots of the pool; which ones is the hardware's own choice (R329). -/
def State.takeSlots (s : State) (asid : Nat) (used : List Nat) : Nat → List Nat × State
  | 0 => ([], s)
  | n + 1 =>
    let size := (s.ctx asid).par.logsize
    let k := nextFree used size (Config.freeIndex s.fresh) used.length
    let (ks, s') := State.takeSlots s.bump asid (k :: used) n
    (k :: ks, s')

/-- Slots are freed: their markers are written by the die's drain. -/
def State.freeSlots (s : State) (asid : Nat) (ks : List Nat) : State :=
  s.modCtx asid (fun c => { c with freeing := c.freeing ++ ks })

/-! ### Atomic operations (spec/02 R29, spec/09 R216) -/

/-- New value of an AMO's word. -/
def amoEval (op : AmoOp) (n old arg : Nat) : Nat :=
  let b := 8 * n
  match op with
  | .swap => arg
  | .add => (old + arg) % 2 ^ b
  | .xor => old ^^^ arg
  | .and => old &&& arg
  | .or => old ||| arg
  | .min => if signed b old < signed b arg then old else arg
  | .max => if signed b old < signed b arg then arg else old
  | .minu => if old < arg then old else arg
  | .maxu => if old < arg then arg else old

/-- New value of a `samo`, if it writes (R216). -/
def samoEval (op : SamoOp) (n cmp arg old : Nat) : Option Nat :=
  let b := 8 * n
  match op with
  | .add => some ((old + arg) % 2 ^ b)
  | .and => some (old &&& arg)
  | .or => some (old ||| arg)
  | .xor => some (old ^^^ arg)
  | .min => some (if signed b arg < signed b old then arg else old)
  | .max => some (if signed b old < signed b arg then arg else old)
  | .minx => some (min old arg)
  | .maxx => some (max old arg)
  | .swap => some arg
  | .cas => if old = cmp then some arg else none
  | .fadd => some (fpAddQuiet (if n = 8 then Fmt.f64 else Fmt.f32) old arg)

/-- New value of an atomic's word, if it writes. -/
def Rmw.eval : Rmw → Nat → Option Nat
  | .amo op n arg, old => some (amoEval op n old arg)
  | .samo op n cmp arg, old => samoEval op n cmp arg old

/-- Bytes of an atomic's word. -/
def Rmw.size : Rmw → Nat
  | .amo _ n _ => n
  | .samo _ n _ _ => n

/-! ### Commit (R338, R332, R335) -/

/-- The newest image of each checkpointed unit among windows up to the reach stays; older ones are freed. -/
def supersede (older newer : List CkUnit) : List CkUnit × List Nat :=
  (older.filter (fun u => !newer.any (fun v => v.reg == u.reg && v.idx == u.idx)),
   (older.filter (fun u => newer.any (fun v => v.reg == u.reg && v.idx == u.idx))).map (fun u => u.slot))

/-- The link accepts bytes for host memory. -/
def State.hostAccept (s : State) (pa : Nat) (data : List Byte) (by_ : Option CoreId := none) : State :=
  let s := s.changed by_ ⟨0, 0⟩ (.hostCoh pa) data.length
  { s with host := s.host.write pa data, hostOut := s.hostOut ++ [(pa, data)] }

/-- The releases that a core's store carries as an ordinary release write, if it becomes visible now, and as a write after the core's
earlier releases (spec/10 R247, R248). -/
def State.storeRels (s : State) (id : CoreId) : List Rel :=
  let c := s.core id
  ⟨id, false, .die, s.seen, c.fitNo, false⟩ :: c.rels

/-- Releases whose sequence an atomic read-modify-write of a place goes on with: of writes of the same bytes (spec/10 R249). -/
def State.sequence (s : State) (id : CoreId) (p : Place) (n : Nat) : List Rel :=
  (s.marks.filter (fun m => m.on id p n && m.place == p && m.n == n && !m.torn)).flatMap Mark.rels

/-- A core's write at its memory stands with what it carries, and with the release sequence that it goes on with. -/
def State.markStore (s : State) (id : CoreId) (p : Place) (n : Nat) (seq : List Rel) : State :=
  s.mark ⟨p, n, id, none, s.storeRels id ++ seq, false⟩

/-- The releases that a buffered store carries once its die has seen it; a `redadd` carries none of its own (spec/09 R214). -/
def BufWrite.carried (w : BufWrite) : List Rel :=
  if w.kind = .store then ⟨⟨w.asid, w.l⟩, false, w.sc, w.shown, w.fits, false⟩ :: w.rels else []

/-- An atomic is performed at host memory, and answers the core that waits for it (spec/03 R73, R74). -/
def State.hostAtom (s : State) (id : CoreId) (pa : Nat) (op : Rmw) : State :=
  let old := s.host.readNat pa op.size
  let s := match op.eval old with
    | some v => (s.hostAccept pa (leBytes op.size v) (some id)).markStore id (.hostCoh pa) op.size (s.sequence id (.hostCoh pa) op.size)
    | none => s
  s.modCore id (fun c => { c with hostAmo := some (some old) })

/-- Release a held item (R335): a host write is accepted by the link, an atomic is performed, a register write is posted, a
packet leaves with its last piece. -/
def State.releaseItem (s : State) (h : HeldItem) : State :=
  match h with
  | .host asid l _ _ parts _ => parts.foldl (fun s p => { s.hostAccept p.pa p.data (some ⟨asid, l⟩) with marks := s.marks }) s
  | .atom asid l _ _ pa op => s.hostAtom ⟨asid, l⟩ pa op
  | .devreg _ _ _ _ off n v => { s with busq := s.busq ++ [(off, n, v)] }
  | .packet _ _ _ port p off n => if off + n < p.weights.length then s else { s with sent := s.sent ++ [(port, p)] }

def HeldItem.owner : HeldItem → Nat × Nat × Nat
  | .host asid l w .. => (asid, l, w)
  | .atom asid l w .. => (asid, l, w)
  | .devreg asid l w .. => (asid, l, w)
  | .packet asid l w .. => (asid, l, w)

/-- A held device-register write. -/
def HeldItem.isDev : HeldItem → Bool
  | .devreg .. => true
  | _ => false

/-- Bytes an item occupies in the hold buffer, R334. -/
def HeldItem.size : HeldItem → Nat
  | .host _ _ _ _ parts left => 16 + ((parts.map (fun p => p.data.length)).sum + left + 15) / 16 * 16
  | .atom .. => 32
  | .devreg .. => 32
  | .packet _ _ _ _ _ _ n => 16 + (n + 15) / 16 * 16

/-- Held items of a core that satisfy `p` leave the buffer of its die, in order of entry. -/
def State.releaseHeld (s : State) (asid l : Nat) (p : Nat → Bool) : State :=
  let d := s.dieOf ⟨asid, l⟩
  let mine (h : HeldItem) := h.owner.1 == asid && h.owner.2.1 == l && p h.owner.2.2
  let out := (s.die d).egress.filter mine
  let s := s.modDie d (fun x => { x with egress := x.egress.filter (fun h => !mine h) })
  out.foldl (fun s h => s.releaseItem h) s

/-- Images of checkpoint windows that the commit of every window up to position `k` leaves reachable. -/
def State.retireCkpts (s : State) (id : CoreId) : State :=
  let c := s.core id
  -- reach: o while a window is uncommitted, else wnext
  let reached (k : Ckpt) : Bool := match c.win.unc with
    | none => true
    | some (o, _) => !c.win.has k.win || k.win == o.toNat
  let older := c.ckpts.filter reached
  let (base, freed) := older.foldl (fun (acc : List CkUnit × List Nat) k =>
      let (kept, fr) := supersede acc.1 k.units
      (kept ++ k.units, acc.2 ++ fr)) (c.committed, [])
  -- the checkpoint of window o itself stays a checkpoint; committed ones merge into the base
  let stays := c.ckpts.filter (fun k => c.win.has k.win)
  let oUnits := (older.filter (fun k => c.win.has k.win)).flatMap (fun k => k.units)
  let base := base.filter (fun u => !oUnits.any (fun v => v.reg == u.reg && v.idx == u.idx))
  let late := c.draining ++ older.filter (fun k => !c.win.has k.win && !k.drained)
  let live (k : Ckpt) : Ckpt := { k with units := k.units.filter (fun u => base.any (fun v => v.slot == u.slot)) }
  let s := s.modCore id (fun c => { c with
    ckpts := stays, committed := base, draining := (late.map live).filter (fun k => !k.units.isEmpty) })
  s.freeSlots id.asid freed

/-- Commit every uncommitted window of a core from the oldest up to `c` (R338). -/
def State.commitTo (s : State) (id : CoreId) (c : BitVec 32) : State :=
  let core := s.core id
  match core.win.unc with
  | none => s
  | some (o, h) =>
    let k := (c - o).toNat
    let gone (w : Nat) : Bool := core.win.has w && decide (core.win.pos w ≤ k)
    let s := s.releaseHeld id.asid id.l gone
    let ctx := s.ctx id.asid
    let mine (e : LogEntry) := e.l == id.l && gone e.win
    let freed := (ctx.log.filter mine).flatMap (fun e => e.slots)
    let s := s.modCtx id.asid (fun x => { x with log := x.log.filter (fun e => !mine e) })
    let inFreed := (core.inputs.filter (fun i => gone i.win)).map (fun i => i.slot)
    let s := s.modCore id (fun x => { x with
      inputs := x.inputs.filter (fun i => !gone i.win)
      win := { x.win with unc := if c = h then none else some (c + 1, h) } })
    (s.freeSlots id.asid (freed ++ inFreed)).retireCkpts id

/-- AUTOCOMMIT: the oldest window commits, one at a time, while more than one is uncommitted and slots lack (R330). A rewind
under way comes first (R344). -/
def State.autoCommit (s : State) (id : CoreId) (need : Nat) : Nat → State
  | 0 => s
  | fuel + 1 =>
    if s.ringFree id.asid ≥ need || (s.core id).rewinding.isSome then s
    else match (s.core id).win.unc with
      | some (o, h) => if o = h then s else (s.commitTo id o).autoCommit id need fuel
      | none => s

/-- Outcome of trying something that may have to wait: done, or not yet with what the attempt itself did. -/
inductive Try where
  | done (s : State)
  | blocked (s : State)

/-- An attempt that has to wait. -/
def Try.isBlocked : Try → Bool
  | .done _ => false
  | .blocked _ => true

/-- The state an attempt leaves. -/
def Try.state : Try → State
  | .done s => s
  | .blocked s => s

/-- Entries that the share of a core holds (R17). -/
def shareCap : Nat := 7168

/-- Entries that the drain of a die stages: 512 KiB of 32 bytes (R17). -/
def stageCap : Nat := 16384

/-- Log entries of a core that wait in its share of the veneer log buffer: entries made at the memory controllers are not
among them (R17, R329). Of a word or checkpoint with more entries than the share holds, what does not fit has passed on to the
drain (notes/assumptions/59.md). -/
def State.undrained (s : State) (id : CoreId) : Nat :=
  let c := s.core id
  let near (e : LogEntry) : Bool := e.l == id.l && !e.drained && e.spc != 2
  min shareCap ((((s.ctx id.asid).log.filter near).map (fun e => e.slots.length)).sum
    + (((c.ckpts.filter (fun k => !k.drained)) ++ c.draining).map (fun k => k.units.length)).sum
    + (c.inputs.filter (fun i => !i.drained)).length)

/-- The die whose memory controllers make the log entry of a write (R327). -/
def State.stagedAt (s : State) (p : Place) : Option Nat :=
  match p with
  | .hbm _ pa => some (s.stackOf pa)
  | _ => none

/-- Entries made at the controllers of a die that wait in the staging of its drain (R17, R329). -/
def State.staged (s : State) (d : Nat) : Nat :=
  (s.ctxs.map (fun x => x.log.countP (fun e => e.spc == 2 && !e.drained && s.stagedAt e.place == some d))).sum

/-- The log buffer takes `need` more entries of a core: in its share, or at the controllers of a die in the staging. A write of more
entries than the share holds begins with an empty one (notes/assumptions/59.md). -/
def State.logTakes (s : State) (id : CoreId) (die : Option Nat) (need : Nat) : Bool :=
  match die with
  | none => decide (s.undrained id + min need shareCap ≤ shareCap)
  | some d => decide (s.staged d + need ≤ stageCap)

/-- Make room for the `need` entries of the write that `key` names: a log buffer that does not take them stalls it (R329); ring
slots come under the policy, and LOG_FULL is raised once under TRAP (R330). -/
def State.roomIf (s : State) (id : CoreId) (takes : Bool) (need : Nat) (key : LogKey) (first : Bool) : Try :=
  let ctx := s.ctx id.asid
  let granted (s : State) : State := s.modCore id (fun c => { c with logWait := c.logWait.filter (fun k => !k.same key) })
  if !takes then .blocked s
  else if s.ringFree id.asid ≥ need then .done (granted s)
  else if ctx.par.lfull = 2 then
    let s := s.autoCommit id need 16
    if s.ringFree id.asid ≥ need then .done (granted s) else .blocked s
  else if ctx.par.lfull = 1 && first && !(s.core id).logWait.any (fun k => k.same key) then
    .blocked ((s.pendTrap id ⟨0x25, 0, word key.seq, word (s.ringFree id.asid)⟩).modCore id (fun c => { c with logWait := key :: c.logWait }))
  else .blocked s

/-- Room for `need` entries made at the core, or at the memory controllers of a die. -/
def State.room (s : State) (id : CoreId) (die : Option Nat) (need : Nat) (key : LogKey) (first : Bool) : Try :=
  s.roomIf id (s.logTakes id die need) need key first

/-- How a write is entered in the log: an access to the own scratchpad or HBM, an access through the die window, a block. -/
inductive LogForm where
  | access | window | block
deriving DecidableEq, Repr

/-- An access through the die window (spec/03 R59). -/
def viaWindow (va : Word) : Bool := decide (localBase ≤ va.toNat) && decide (va.toNat < 0xFFFFFFFFF0000000)

/-- The form of a scalar access at an address. -/
def logFormAt (va : Word) : LogForm := if viaWindow va then .window else .access

/-- Space code of an entry (R325, R327): a block entry names a scratchpad by code 0. -/
def logSpace (form : LogForm) : Place → Nat
  | .scratch .. => if form = .window then 1 else 0
  | .hbm .. => 2
  | _ => 0

/-- Bytes at `a` with those of a write of `data` at `pa` over them. -/
def overlayHeld (a : Nat) (bs : List Byte) (pa : Nat) (data : List Byte) : List Byte :=
  bs.mapIdx (fun i b => if pa ≤ a + i ∧ a + i < pa + data.length then data.getD (a + i - pa) b else b)

/-- Host bytes as a core's die reads them: a host-bound write that its hold buffer keeps is already seen by the die that
made it (spec/10 R244, spec/14 R334, notes/assumptions/39.md). -/
def State.hostSeen (s : State) (id : CoreId) (a n : Nat) : List Byte :=
  (s.die (s.dieOf id)).egress.foldl (fun bs h => match h with
    | .host _ _ _ _ parts _ => parts.foldl (fun bs p => overlayHeld a bs p.pa p.data) bs
    | _ => bs) (s.host.readBytes a n)

/-- Bytes of a range, as core `id` reads them there. -/
def State.placeBytes (s : State) (id : CoreId) (p : Place) (n : Nat) : List Byte :=
  match p with
  | .scratch l a => (s.core ⟨id.asid, l⟩).scratch.readBytes a n
  | .reg a => (s.core id).reg.readBytes a n
  | .hbm sl a => s.hbmBytes sl a n
  | .hostBulk a => s.hostSeen id a n
  | .hostCoh a => s.hostSeen id a n
  | .dev _ => []

/-- A place whose writes are logged (R327). -/
def Place.logged (p : Place) : Bool :=
  match p with
  | .scratch .. => true
  | .hbm .. => true
  | _ => false

/-- Slots of a block entry of `n` bytes (R326). -/
def blockSlots (n : Nat) : Nat := 1 + (n + 15) / 16

/-- Slots of the entry of a write of `n` bytes. -/
def LogForm.slots (form : LogForm) (n : Nat) : Nat := if form = .block then blockSlots n else 1

/-- Make the log entry of a write of core `id` in window `w`, whose slots are there: before it changes a byte (R327, R328). -/
def State.logEntry (s : State) (id : CoreId) (w seq : Nat) (p : Place) (n : Nat) (atom : Bool) (form : LogForm)
    (word : Option Nat := none) : State :=
  let (ks, s) := s.takeSlots id.asid (s.ringUsed id.asid) (form.slots n)
  let e : LogEntry := ⟨id.l, w, seq, atom, p, logSpace form p, s.placeBytes id p n, form == .block, ks, false, false, word⟩
  s.modCtx id.asid (fun c => { c with log := c.log ++ [e] })

/-- A write of window `win` is logged, or held: its window is not committed. -/
def CoreSt.holds (c : CoreSt) (win : Option Nat) : Bool :=
  match win with
  | some w => c.win.has w
  | none => false

/-- Make the log entry of a write of core `id`, if its window is not committed. -/
def State.logMade (s : State) (id : CoreId) (win : Option Nat) (seq : Nat) (p : Place) (n : Nat) (atom : Bool)
    (form : LogForm) (word : Option Nat := none) : State :=
  match win with
  | some w => if (s.core id).win.has w && p.logged then s.logEntry id w seq p n atom form word else s
  | none => s

/-- An engine word has logged the aligned 16 bytes of device memory at an address (R327). -/
def State.unitLogged (s : State) (id : CoreId) (word : Option Nat) (slot pa : Nat) : Bool :=
  word.isSome && (s.ctx id.asid).log.any (fun e => e.l == id.l && e.word == word && e.place == .hbm slot (pa / 16 * 16))

/-- Log a write of core `id`, once there is room. A write tagged with no uncommitted window makes no entry; AUTOCOMMIT may commit
the write's own window to make the room. -/
def State.logWrite (s : State) (id : CoreId) (win : Option Nat) (seq : Nat) (p : Place) (n : Nat) (atom : Bool)
    (form : LogForm) (first : Bool) : Try :=
  if (s.core id).holds win && p.logged then
    match s.room id (s.stagedAt p) (form.slots n) ⟨0, seq, some p, 0⟩ first with
    | .blocked s => .blocked s
    | .done s => .done (s.logMade id win seq p n atom form)
  else .done s

/-! ### Performing writes -/

/-- A store of the owner replaces what an engine's unseen write left (spec/10 R244, R251). -/
def dropStale (st : List Stale) (reg : Bool) (a n : Nat) : List Stale :=
  st.filter (fun x => !(x.reg == reg && decide (a ≤ x.a) && decide (x.a < a + n)))

/-- Unseen bytes, oldest first, by the unit of the write that each is of (spec/10 R243). -/
def staleUnits : List Stale → List (List Stale)
  | [] => []
  | x :: xs =>
    match staleUnits xs with
    | (y :: ys) :: us =>
      if x.whole && y.whole && x.reg == y.reg && x.a / 16 == y.a / 16 && decide (x.a < y.a) then (x :: y :: ys) :: us
      else [x] :: (y :: ys) :: us
    | us => [x] :: us

/-- Of unseen units, newest first, those that stay unseen, oldest first: one that `pick` picks is seen, and with it every older write
to one of its bytes. `gone` holds bytes that a newer unit seen has; `k` counts the choices. -/
def staleLeft (pick : Nat → List Stale → Bool) : List (List Stale) → List Nat → Nat → List Stale × Nat
  | [], _, k => ([], k)
  | u :: us, gone, k =>
    if u.any (fun x => gone.contains x.a) || pick k u then staleLeft pick us (u.map Stale.a ++ gone) (k + 1)
    else
      let r := staleLeft pick us gone (k + 1)
      (r.1 ++ u, r.2)

/-- A write to its granule breaks a reservation on a scratchpad (spec/02 R29). -/
def CoreSt.breakScratch (c : CoreSt) (asid l a n : Nat) : CoreSt :=
  match c.resv with
  | some (.scratch k r) =>
    if c.id.asid == asid && k == l && decide (r < a + n) && decide (a < r + 16) then { c with resv := none } else c
  | _ => c

/-- Write scratchpad bytes of logical core `l` of a context. -/
def State.writeScratch (s : State) (asid l a : Nat) (bs : List Byte) : State :=
  let s := s.changed none ⟨asid, l⟩ (.scratch l a) bs.length
  let s := s.modCore ⟨asid, l⟩ (fun c => { c with
    scratch := c.scratch.write a bs, stale := dropStale c.stale false a bs.length })
  let s := { s with cores := s.cores.map (fun (c : CoreSt) => c.breakScratch asid l a bs.length) }
  let own := ownKey ⟨asid, l⟩
  (s.clearPoison 3 own a bs.length).applyInjection 3 own ((s.ctx asid).pcn l) a bs.length

/-- Write register-space bytes of a core. -/
def State.writeRegSpace (s : State) (id : CoreId) (a : Nat) (bs : List Byte) : State :=
  let s := s.changed none id (.reg a) bs.length
  let s := s.modCore id (fun c => ({ c with stale := dropStale c.stale true a bs.length }).writeReg a bs)
  (s.clearPoison 1 (ownKey id) a bs.length).applyInjection 1 (ownKey id) ((s.ctx id.asid).pcn id.l) a bs.length

/-- Capacity of a die's egress hold buffer (R334). -/
def holdCap : Nat := 65536

/-- An item enters the hold buffer of its die, if it has room. -/
def State.hold (s : State) (d : Nat) (it : HeldItem) : Try :=
  if ((s.die d).egress.map HeldItem.size).sum + it.size > holdCap then .blocked s
  else .done (s.modDie d (fun x => { x with egress := x.egress ++ [it] }))

/-- Bytes still to come of the item of a transfer; 0 for an item that is not of it. -/
def HeldItem.openFor (h : HeldItem) (id : CoreId) (w : Nat) (tr : Transfer) : Nat :=
  match h with
  | .host asid l v t _ left => if asid == id.asid && l == id.l && v == w && t == tr && tr != .store then left else 0
  | _ => 0

/-- A held item with the next bytes of its transfer. -/
def HeldItem.append (h : HeldItem) (p : HostPart) : HeldItem :=
  match h with
  | .host asid l w tr parts left => .host asid l w tr (parts ++ [p]) (left - p.data.length)
  | h => h

/-- Bytes of one transfer that one item takes (R334). -/
def itemCap : Nat := 16384

/-- Host-bound bytes: held while their window is uncommitted, else accepted by the link (R334, R335). `whole` counts the bytes of
the transfer that no item has yet taken, these among them: they go into the item that is open for their transfer, and what it
has no place for opens another, with room for what it will hold. -/
def State.hostWrite (s : State) (id : CoreId) (win : Option Nat) (tr : Transfer) (p : HostPart) (whole : Nat) : Try :=
  if !(s.core id).holds win then .done (s.hostAccept p.pa p.data (some id))
  else
    let d := s.dieOf id
    let w := win.getD 0
    let n := p.data.length
    let i := (s.die d).egress.findIdx (fun h => h.openFor id w tr != 0)
    let k := match (s.die d).egress[i]? with
      | some h => min n (h.openFor id w tr)
      | none => 0
    let join (s : State) : State :=
      if k = 0 then s
      else s.modDie d (fun x => { x with egress := x.egress.modify i (fun h => h.append { p with data := p.data.take k }) })
    if k = n then .done (join s)
    else
      let rest : HostPart := ⟨p.va + word k, p.pa + k, p.data.drop k⟩
      match s.hold d (.host id.asid id.l w tr [rest] (min (max whole n - k) itemCap - (n - k))) with
      | .blocked s => .blocked s
      | .done s => .done (join s)

/-- A device-register write: held while its window is uncommitted, else posted. -/
def State.devWrite (s : State) (id : CoreId) (win : Option Nat) (va : Word) (off n : Nat) (v : Word) : Try :=
  let it : HeldItem := .devreg id.asid id.l (win.getD 0) va off n v
  if (s.core id).holds win then s.hold (s.dieOf id) it else .done (s.releaseItem it)

/-- Put bytes of a scalar write by address `va` at a place; nothing is logged here. -/
def State.put (s : State) (id : CoreId) (win : Option Nat) (p : Place) (bs : List Byte) (va : Word := 0) : Try :=
  match p with
  | .scratch l a => .done (s.writeScratch id.asid l a bs)
  | .reg a => .done (s.writeRegSpace id a bs)
  | .hbm sl a => .done (s.hbmWrite sl a bs (some id))
  | .hostBulk a => s.hostWrite id win .store ⟨va, a, bs⟩ bs.length
  | .hostCoh a => s.hostWrite id win .store ⟨va, a, bs⟩ bs.length
  | .dev off => s.devWrite id win va off bs.length (word (leNat bs))

/-- Log and perform a write of `bs` at `p`. -/
def State.perform (s : State) (id : CoreId) (win : Option Nat) (seq : Nat) (p : Place) (bs : List Byte)
    (atom : Bool) (form : LogForm) (first : Bool) (va : Word := 0) : Try :=
  match s.logWrite id win seq p bs.length atom form first with
  | .blocked s => .blocked s
  | .done s => s.put id win p bs va

/-- What a `redadd` form adds (spec/09 R218). -/
def addKind (k : WriteKind) (a b : Nat) : Nat :=
  match k with
  | .store => b
  | .addW => (a + b) % 2 ^ 32
  | .addD => (a + b) % 2 ^ 64
  | .addF => fpAddQuiet Fmt.f32 a b

/-- Add to a word at its memory: damage in the word is consumed, and an uncorrectable error leaves it as it is. -/
def State.addAt (s : State) (id : CoreId) (win : Option Nat) (seq : Nat) (p : Place) (n : Nat) (kind : WriteKind) (v : Nat)
    (form : LogForm) (first : Bool) : Try :=
  match s.consume id (s.damageAt id p n) with
  | (s, true) => .done s
  | (s, false) => s.perform id win seq p (leBytes n (addKind kind (leNat (s.placeBytes id p n)) v)) true form first

/-- Perform a buffered write at its memory. -/
def State.performBuf (s : State) (w : BufWrite) (first : Bool) : Try :=
  let id : CoreId := ⟨w.asid, w.l⟩
  match w.kind with
  | .store => s.perform id w.win w.seq w.place (leBytes w.n w.val) false (logFormAt w.va) first w.va
  | k => s.addAt id w.win w.seq w.place w.n k w.val (logFormAt w.va) first

/-- Home die of a place, for `redadd` (spec/09). -/
def State.homeDie (s : State) (id : CoreId) (p : Place) : Nat :=
  match p with
  | .hbm _ pa => s.stackOf pa
  | _ => s.dieOf id

/-- Acknowledge one remote request. -/
def State.ack (s : State) (id : CoreId) : State := s.modCore id (fun c => { c with rqout := c.rqout - 1 })

/-! ### Shadow table (spec/09 R219) -/

/-- Merge one entry into its home; the core charged logs it under its own open window and next number (R327). -/
def State.mergeEntry (s : State) (d : Nat) (e : Shadow) (charged : CoreId) (first : Bool) : Try :=
  let c := s.core charged
  let n := if e.kind = .addD then 8 else 4
  let s := s.touch e.asid (s.stackOf e.pa)
  let drop (s : State) : State := s.modDie d (fun x => { x with shadow := x.shadow.filter (fun y => y != e) })
  if s.hbmRefusal e.slot e.pa n != 0 then .done (drop s)
  else
    let p : Place := .hbm e.slot e.pa
    let logs := c.holds c.win.openWin && !(s.consume charged (s.damageAt charged p n)).2
    match (if logs then s.room charged (s.stagedAt p) 1 ⟨3, c.storeSeq.toNat, some p, 0⟩ first else .done s) with
    | .blocked s => .blocked s
    | .done s =>
      match s.addAt charged c.win.openWin c.storeSeq.toNat p n e.kind e.sum .access first with
      | .blocked s => .blocked s
      | .done s => .done (drop (s.modCore charged (fun c => { c with storeSeq := c.storeSeq + 1 })))

/-- Merge every entry of a list. -/
def State.mergeAll (s : State) (d : Nat) (charged : CoreId) : List Shadow → Try
  | [] => .done s
  | e :: es =>
    match s.mergeEntry d e charged true with
    | .blocked s => .blocked s
    | .done s => State.mergeAll s d charged es

/-- Merge every entry that holds a contribution of a core (a `.pkg` release of it). -/
def State.mergeOf (s : State) (id : CoreId) : Try :=
  let d := s.dieOf id
  s.mergeAll d id ((s.die d).shadow.filter (fun e => e.asid == id.asid && e.by_.contains id.l))

/-- The core that started an entry. -/
def Shadow.starter (e : Shadow) : CoreId := ⟨e.asid, e.by_.headD 0⟩

/-- Add a contribution to the table of the core's die; a full table merges its oldest entry first, and the contributing core is
charged with it, whichever context the entry is of (R327). -/
def State.contribute (s : State) (w : BufWrite) (slot pa : Nat) : Try :=
  let id : CoreId := ⟨w.asid, w.l⟩
  let d := s.dieOf id
  let same (e : Shadow) := e.asid == w.asid && e.slot == slot && e.pa == pa && e.kind == w.kind
  if (s.die d).shadow.any same then
    .done (s.modDie d (fun x => { x with shadow := x.shadow.map (fun e =>
      if same e then { e with sum := addKind e.kind e.sum w.val, by_ := if e.by_.contains w.l then e.by_ else e.by_ ++ [w.l] }
      else e) }))
  else
    let start (s : State) : State :=
      s.modDie d (fun x => { x with shadow := x.shadow ++ [⟨w.asid, slot, pa, w.kind, w.val, [w.l]⟩] })
    match (s.die d).shadow with
    | e :: _ =>
      if (s.die d).shadow.length ≥ 4096 then
        match s.mergeEntry d e id true with
        | .blocked s => .blocked s
        | .done s => .done (start s)
      else .done (start s)
    | [] => .done (start s)

/-! ### Store buffer and edge queue (spec/10 R245) -/

/-- Size of the item a buffered write becomes in the hold buffer; 0 for one that is not held there. -/
def State.holdNeed (s : State) (w : BufWrite) : Nat :=
  let bound : Bool := match w.place with
    | .dev _ => true
    | p => p.isHost
  if bound && w.kind == .store && (s.core ⟨w.asid, w.l⟩).holds w.win then 32 else 0

/-- The hold buffer has no room for a write of the core that waits for it in the edge queue, or for its oldest buffered store
behind those: its store buffer stops draining, local stores with it (R335). -/
def State.holdFull (s : State) (id : CoreId) (w : BufWrite) : Bool :=
  let x := s.die (s.dieOf id)
  let held := (x.egress.map HeldItem.size).sum
  let own := (x.edge.filter (fun v => v.asid == id.asid && v.l == id.l)).map s.holdNeed
  let full (need : Nat) : Bool := need != 0 && decide (held + need > holdCap)
  full ((own.find? (fun n => n != 0)).getD 0) || (s.holdNeed w != 0 && full (s.holdNeed w + own.sum))

/-- A refusal goes back to the core that made the write (R354). -/
def State.lateRefusal (s : State) (w : BufWrite) (code : Nat) : State :=
  s.modCore ⟨w.asid, w.l⟩ (fun c => { c with late := c.late ++ [⟨0x20, w.va, word (w.rq + code * 2 ^ 24), 0⟩] })

/-- Count one more outstanding request. -/
def State.outstanding (s : State) (id : CoreId) : State := s.modCore id (fun c => { c with rqout := c.rqout + 1 })

/-- The cores of a die come to see a write that enters its edge queue (spec/10 R245). -/
def State.shownTo (s : State) (d : Nat) (w : BufWrite) : State :=
  if s.watched then s.overtake (some ⟨w.asid, w.l⟩) (fun o => s.dieOf o == d) w.place w.n else s

/-- A buffered store that has been performed stands at its place; a sum stands as nobody's. -/
def State.markBuf (s : State) (w : BufWrite) : State :=
  if w.kind = .store then s.mark ⟨w.place, w.n, ⟨w.asid, w.l⟩, none, w.carried, false⟩ else s

/-- The oldest store-buffer entry leaves: a local write is performed in its bank, a global one enters the edge queue, a
`redadd` for another die's home enters the shadow table. -/
def State.drainOne (s : State) (id : CoreId) : Try :=
  match (s.core id).sb with
  | [] => .done s
  | w :: _ =>
    let pop (s : State) : State := s.modCore id (fun c => { c with sb := c.sb.drop 1 })
    let d := s.dieOf id
    let seen := s.shownTo d w
    let toEdge : Try := .done ((pop seen).modDie d (fun x => { x with edge := x.edge ++ [{ w with shown := seen.seen }] }) |>.outstanding id)
    if s.holdFull id w then .blocked s
    else if w.place.isLocal then
      if s.poisonAt id w.place w.n then .done (((pop s).outstanding id).lateRefusal w 0x0B)
      else match s.performBuf w true with
        | .blocked s => .blocked s
        | .done s => .done ((pop (s.markBuf { w with shown := s.seen })).askPlace id.asid (scalarAsker id.l w.place) id.l 0 w.place w.n)
    else match w.kind, w.place with
      | .store, _ => toEdge
      | _, .hbm slot pa =>
        if s.homeDie id w.place = d then toEdge
        else if s.placeRefusal w.asid w.place w.n != 0 then
          .done (((pop (s.touch w.asid (s.stackOf pa))).outstanding id).lateRefusal w (s.placeRefusal w.asid w.place w.n))
        else
          match s.contribute w slot pa with
          | .blocked s => .blocked s
          | .done s => .done (pop s)
      | _, _ => .done (pop s)

/-- The buffered stores of a core to its own register space are performed: no other agent sees in which order, and none of them is
logged or held (spec/06 R127, spec/14 R327). -/
def State.drainReg (s : State) (id : CoreId) : State :=
  let isReg (w : BufWrite) : Bool := match w.place with
    | .reg _ => true
    | _ => false
  let mine := (s.core id).sb.filter isReg
  if mine.isEmpty then s
  else mine.foldl (fun s w =>
    if s.poisonAt id w.place w.n then (s.outstanding id).lateRefusal w 0x0B
    else (s.performBuf w false).state) (s.modCore id (fun c => { c with sb := c.sb.filter (fun w => !isReg w) }))

/-- Drain the whole store buffer. -/
def State.drainAll (s : State) (id : CoreId) : Nat → Try
  | 0 => .done s
  | fuel + 1 =>
    if (s.core id).sb.isEmpty then .done s
    else match s.drainOne id with
      | .blocked s => .blocked s
      | .done s => State.drainAll s id fuel

/-- Two edge-queue entries are performed in queue order: they touch one aligned 16 bytes (spec/10 R245), or they are writes of
one core that are both host-bound (R256) or both go to device registers (R249). -/
def BufWrite.ordered (v w : BufWrite) : Bool :=
  let one : Bool := v.asid == w.asid && v.l == w.l
  match v.place, w.place with
  | .dev a, .dev b => one || a / 16 == b / 16
  | p, q => p.unit == q.unit || (one && p.isHost && q.isHost)

/-- Entry `i` of a die's edge queue may be performed: no earlier entry must be performed before it. -/
def edgeReady (q : List BufWrite) (i : Nat) : Bool :=
  match q[i]? with
  | none => false
  | some w => !(q.take i).any (fun v => v.ordered w)

/-- The entry to perform first so that entry `k` can follow. -/
def edgeFirst (q : List BufWrite) (k : Nat) : Nat → Nat
  | 0 => k
  | fuel + 1 =>
    match q[k]? with
    | none => k
    | some w =>
      match (q.take k).findIdx? (fun v => v.ordered w) with
      | none => k
      | some j => edgeFirst q j fuel

/-- Perform entry `i` of a die's edge queue at its home; a refusal goes back to its core (R354). -/
def State.edgeOne (s : State) (d i : Nat) : Try :=
  match (s.die d).edge[i]? with
  | none => .done s
  | some w =>
    let id : CoreId := ⟨w.asid, w.l⟩
    let drop (s : State) : State := s.modDie d (fun x => { x with edge := x.edge.eraseIdx i })
    let s := match s.servedBy w.asid w.place with
      | some t => s.touch w.asid t
      | none => s
    match s.placeRefusal w.asid w.place w.n with
    | 0 =>
      match s.performBuf w true with
      | .blocked s => .blocked s
      | .done s => .done ((drop (s.markBuf w)).ack id)
    | code => .done ((drop s).lateRefusal w code)

/-- Perform edge-queue entries in order until none satisfies `p`; whatever must precede the first that does goes first. -/
def State.edgeWhere (s : State) (d : Nat) (p : BufWrite → Bool) : Nat → Try
  | 0 => .done s
  | fuel + 1 =>
    match (s.die d).edge.findIdx? p with
    | none => .done s
    | some k =>
      match s.edgeOne d (edgeFirst (s.die d).edge k k) with
      | .blocked s => .blocked s
      | .done s => State.edgeWhere s d p fuel

end Sys2Proof.Machine
end

