-- ==== Sys2Proof/Machine/Regs.lean ====
section
/-! DEFINITION. Reading the device registers of BAR 0 (spec/22 R415, R417, R425, R428, R431, R433; spec/03 R68; spec/21
R401; spec/23 R435). -/

namespace Sys2Proof.Machine

def DieSt.code : DieSt → Nat
  | .live => 0
  | .transit => 1
  | .reroute => 2
  | .drain => 3
  | .reset => 4
  | .rejoin => 5
  | .absent => 6

/-- A die a route may cross: LIVE or TRANSIT (R416). -/
def State.crossable (s : State) (d : Nat) : Bool :=
  let x := s.die d
  (x.st == .live || x.st == .transit) && !x.lost

/-- Bit mask of the dies that satisfy `p`. -/
def dieMask (p : Nat → Bool) : Nat := (List.range 8).foldl (fun v d => if p d then v + 2 ^ d else v) 0

/-- The die a sensor sits on; none for the I/O and trust dies (spec/23 R436). -/
def sensorDie (i : Nat) : Option (Option Nat) :=
  if i ≤ 0x11F then some (some (i / 36))
  else if 0x200 ≤ i ∧ i < 0x240 then some (some ((i - 0x200) / 8))
  else if 0x280 ≤ i ∧ i < 0x288 then some (some (i - 0x280))
  else if i = 0x290 ∨ i = 0x291 then some none
  else none

/-- `sv` and `sval` of a sensor index. -/
def State.sensor (s : State) (i : Nat) : Word :=
  match sensorDie i with
  | none => 0
  | some od =>
    let live := match od with
      | none => true
      | some d => s.answers d
    match s.mgmt.sensors.find? (fun p => p.1 == i) with
    | some p => if live then word (2 ^ 63 + p.2.toNat) else 0
    | none => 0

/-- The core the debug block selects. -/
def State.dbgCore (s : State) : CoreId := ⟨s.dbg.asid, bits s.dbg.dcore 23 0⟩

/-- A `ddata` access is allowed (spec/21 R401, R402). -/
def State.ddataOk (s : State) : Bool :=
  let g := s.dbg
  let sp := bits g.dloc 27 24
  let off := bits g.dloc 19 0
  let c := s.dbgCore
  g.en && (g.state == 2 || g.state == 3 || g.state == 5) && s.hasCore c &&
    (match sp with
     | 0 => off < 32
     | 1 => off < 32
     | 2 => off < 4096 && csrExists off
     | 3 => off % 8 == 0 && off ≤ 0x1FFF8
     | 4 => off % 8 == 0 && off ≤ 0xBFFF8 && off < (s.ctx c.asid).par.fp
     | 5 => off < 160
     | _ => false)

/-- The doubleword `ddata` shows. -/
def State.ddataGet (s : State) : Word :=
  let sp := bits s.dbg.dloc 27 24
  let off := bits s.dbg.dloc 19 0
  let id := s.dbgCore
  let c := s.core id
  match sp with
  | 0 => c.rx (BitVec.ofNat 5 off)
  | 1 => c.rf (BitVec.ofNat 5 off)
  | 2 => s.csrGet id off
  | 3 => word (c.reg.readNat off 8)
  | 4 => word (c.scratch.readNat off 8)
  | _ => word (c.unitGet (off / 2) c.pc 0 / 2 ^ (64 * (off % 2)))

/-- Stop records of a context, also after its end (spec/15 R361): those of the last launch that ran under the ASID. -/
def State.recsOf (s : State) (asid : Nat) : List StopRec :=
  match s.ctx? asid with
  | some x => x.recs
  | none =>
    let pos := (s.graves.reverse.find? (fun g => g.asid == asid)).map Grave.qpos
    let rs := (s.graves.filter (fun g => g.asid == asid && some g.qpos == pos)).flatMap Grave.recs
    (rs.insertionSort (fun a b => a.1 ≤ b.1)).map (fun r => r.2)

/-- Value of the register at offset `off` (a multiple of 8), and the state after the read. DESIGN CHOICE: of the translation block
`depth` counts the invalidation that runs beside those queued behind it, and it fills one of the 16 places of the queue; spec/03 R68
tells queued from running for `busy` alone (notes/assumptions/53.md). -/
def State.busRead (s : State) (off : Nat) : Word × State :=
  let blk := off / 0x10000
  let o := off % 0x10000
  let b (x : Bool) (i : Nat) : Nat := if x then 2 ^ i else 0
  let pure (n : Nat) : Word × State := (word n, s)
  let m := s.mgmt
  let g := s.dbg
  if blk = 0 then
    let L := s.launch
    match o with
    | 0x000 => (L.lqbase, s)
    | 0x008 => pure L.lqsize
    | 0x010 => pure (L.lqhslot * 2 ^ 32 + L.lqhead.toNat)
    | 0x020 => pure (b L.err 32 + L.lqtail.toNat)
    | _ => pure 0
  else if blk = 1 then
    match o with
    | 0x000 => (s.asidbase, s)
    | 0x010 => pure (s.invq.length * 4 + b s.invErr 1 + b (!s.invq.isEmpty) 0)
    | _ => pure 0
  else if blk = 2 then
    match o with
    | 0x000 => pure (b g.en 10 + g.asid)
    | 0x008 => (g.dcore, s)
    | 0x010 => (g.darg, s)
    | 0x020 => pure (g.slcn.toNat * 2 ^ 16 + g.why.toNat * 2 ^ 8 + b g.err 7 + b g.rec_ 6 + b g.busy 5 + g.state)
    | 0x028 => (g.ddiv, s)
    | 0x030 => pure (s.core s.dbgCore).dicnt
    | 0x038 => pure (g.sper * 2 ^ 8 + g.trk.toNat)
    | 0x040 => (g.trbase, s)
    | 0x048 => pure g.trsize
    | 0x050 => (g.trtail, s)
    | 0x058 => (g.dloc, s)
    | 0x060 =>
      if s.ddataOk then (s.ddataGet, s)
      else (Config.freeWord s.fresh, { s.bump with dbg := { g with err := true } })
    | 0x068 => (g.dslot, s)
    | 0x070 => (g.baddr, s)
    | 0x078 => pure g.bctl.toNat
    | 0x080 => pure g.sridx
    | 0x088 => pure ((s.recsOf g.asid).length % 65536)
    | _ =>
      if 0xC0 ≤ o ∧ o < 0x100 then
        let r := (s.recsOf g.asid).getD g.sridx []
        pure (leNat ((r.drop (o - 0xC0)).take 8))
      else pure 0
  else if blk = 3 then
    match o with
    | 0x000 => pure (dieMask s.crossable * 2 ^ 8 + s.lmask.toNat)
    | 0x010 => pure (b s.pkgErr 32 + (List.range 8).foldl (fun v d => v + (s.die d).st.code * 2 ^ (4 * d)) 0)
    | _ => pure 0
  else if blk = 4 then
    match o with
    | 0x008 => pure (b s.keys.err 1 + b s.keys.busy 0)
    | _ => pure 0
  else if blk = 5 then
    if o = 0 then pure (s.pmode.toNat * 2 ^ 32 + s.slice.toNat)
    else if o % 8 = 0 ∧ o ≤ 0x40 then pure (vget s.bmasks (o / 8 - 1) 0).toNat
    else pure 0
  else if blk = 6 then
    if o < 32 * 12 then
      let p := s.ports.getD (o / 32) Port.reset
      match o % 32 with
      | 0 => pure (p.peer.toNat * 2 ^ 16 + p.lst.toNat)
      | 8 => pure (b p.bv 10 + p.basid)
      | 16 => (p.rxok, s)
      | 24 => pure (p.dunb.toNat * 2 ^ 48 + p.dgrp.toNat * 2 ^ 32 + p.dsize.toNat * 2 ^ 16 + p.dlin.toNat)
      | _ => pure 0
    else pure 0
  else if blk = 0x10 then
    let ev := (m.evlog.find? (fun e => e.1 == m.evslot)).map (fun e => e.2)
    let er := (m.elog.find? (fun e => e.1 == m.earr && e.2.1 == m.eslot)).map (fun e => e.2.2)
    let cnt := (m.ecount.find? (fun e => e.1 == m.earr)).map (fun e => e.2.2)
    match o with
    | 0x000 => pure m.sidx
    | 0x008 => (s.sensor m.sidx, s)
    | 0x010 => (m.evhead, s)
    | 0x018 => pure m.evslot
    | 0x020 => ((ev.map Prod.fst).getD 0, s)
    | 0x028 => ((ev.map Prod.snd).getD 0, s)
    | 0x030 => (m.ubase, s)
    | 0x038 => pure m.ulen
    | 0x040 => pure (b m.err 8 + m.ust * 2 ^ 6 + b m.act 5)
    | 0x048 => pure (m.iarr * 2 ^ 56 + m.inb)
    | 0x050 => (m.iaddr, s)
    | 0x058 => pure (m.eslot * 2 ^ 8 + m.earr)
    | 0x060 => ((er.map Prod.fst).getD 0, s)
    | 0x068 => ((er.map Prod.snd).getD 0, s)
    | 0x070 => match cnt with
      | some (c, u) => pure (u * 2 ^ 32 + c)
      | none => pure 0
    | _ => pure 0
  else pure 0

end Sys2Proof.Machine
end

