-- ==== Sys2Proof/Machine/Ops.lean ====
section
/-! DEFINITION. The operations every scalar meaning is built from: the way an instruction ends, reading and writing
registers, load, store, release and acquire (spec/10 R245), atomics at memory, taking a trap and returning from one
(spec/09 R237, spec/15 R351, R352). -/

namespace Sys2Proof.Machine

/-! ### How an instruction ends -/

/-- Why an instruction did not retire: it trapped (nothing it did stands, R11); it trapped because the die that serves an access
refused it (that the request reached the die stands: spec/15 R367, R369); it waits, and what it did while waiting stands; it waits for
`n` bytes of its scratchpad at a place that are not in, and nothing it did stands; or the halt line rose on it, and the state holds what
that left. -/
inductive Stop where
  | trap (t : TrapInfo)
  | refused (die : Option Nat) (t : TrapInfo)
  | wait (s : State)
  | absent (p : Place) (n : Nat)
  | halt (s : State)

/-- The effect of one scalar instruction. -/
abbrev M := StateT State (Except Stop)

def trapM {α : Type} (t : TrapInfo) : M α := fun _ => .error (.trap t)

/-- A trap with a reason in [15:8] of its value (spec/15 R350). -/
def trapR {α : Type} (code reason : Nat) : M α := trapM ⟨code, word (reason * 256), 0, 0⟩

def trap0 {α : Type} (code : Nat) : M α := trapM ⟨code, 0, 0, 0⟩

def illegal {α : Type} : M α := trap0 0x01

/-- MISALIGNED at an address. -/
def misaligned {α : Type} (va : Word) : M α := trapM ⟨0x05, va, 0, 0⟩

def waitM {α : Type} : M α := fun s => .error (.wait s)

/-- Run an operation that may have to wait. -/
def tryM (f : State → Try) : M Unit := fun s =>
  match f s with
  | .done s' => .ok ((), s')
  | .blocked s' => .error (.wait s')

def updM (f : State → State) : M Unit := fun s => .ok ((), f s)

/-- The core that executes. -/
def me : M CoreSt := fun s => .ok (s.core s.cur, s)

def myId : M CoreId := fun s => .ok (s.cur, s)

def myCtx : M Ctx := fun s => .ok (s.ctx s.cur.asid, s)

def modMe (f : CoreSt → CoreSt) : M Unit := fun s => .ok ((), s.modCore s.cur f)

def rxM (i : Reg) : M Word := fun s => .ok ((s.core s.cur).rx i, s)

def rfM (i : Reg) : M Word := fun s => .ok ((s.core s.cur).rf i, s)

def wxM (i : Reg) (v : Word) : M Unit := modMe (fun c => c.wx i v)

def wfM (i : Reg) (v : Word) : M Unit := modMe (fun c => c.wf i v)

/-- The pc moves past the parcel. -/
def advance : M Unit := modMe (fun c => { c with pc := c.pc + 4 })

/-- A fresh free choice. -/
def freeBoolM : M Bool := fun s => .ok (Config.freeBool s.fresh, s.bump)

def freeWordM : M Word := fun s => .ok (Config.freeWord s.fresh, s.bump)

/-! ### Refusals (spec/03 R65, R66) -/

/-- Cause of a refusal code. -/
def refusalCause (code : Nat) : Nat := if code = 0x03 then 0x06 else if code = 0x07 then 0x08 else 0x07

/-- The precise trap of a refusal. -/
def refusalTrap (code : Nat) (va : Word) (fetch : Bool) : TrapInfo :=
  ⟨refusalCause code, va, word (code * 2 ^ 24 + if fetch then 1 else 0), 0⟩

def refuse {α : Type} (code : Nat) (va : Word) : M α := trapM (refusalTrap code va false)

/-! ### Trace (spec/21 R412, R413) -/

/-- A trace record of a kind for a core, with its two payload doublewords. Kind 0x07 has no bit in `trk` and is written while any kind is
on (spec/21 R401, R412, R413; notes/assumptions/46.md). -/
def State.traceAt (s : State) (kind : Nat) (id : CoreId) (ss : BitVec 32) (tick : Nat) (p1 p2 : Word) : State :=
  let g := s.dbg
  if !(g.en && g.asid == id.asid && g.trk != 0 && (kind == 0x07 || g.trk.getLsbD (kind - 1))) || g.trsize = 0 then s
  else if g.state = 4 && kind ≤ 5 then s
  else
    let d := s.dieOf id
    let pcn := (s.ctx id.asid).pcn id.l
    let va := sext54 (g.trbase.toNat + g.trtail.toNat % g.trsize * 32)
    let bs := leBytes 8 (kind * 2 ^ 56 + pcn * 2 ^ 45 + ss.toNat) ++ leBytes 8 tick ++ leBytes 8 p1.toNat ++ leBytes 8 p2.toNat
    let (s, bad) := s.foundIn (some id.asid) (s.walkDamage d id.asid (va.toNat % 2 ^ 54))
    let refused : State := { s with dbg := { g with trk := 0, err := true } }
    if bad then refused
    else match s.translate d id.asid false va .store with
    | .ok (.hbm sl pa) =>
      if s.hbmWriteRefusal sl pa 32 = 0 then
        let s := (s.touch id.asid (s.stackOf pa)).hbmWrite sl pa bs
        { s with dbg := { s.dbg with trtail := s.dbg.trtail + 1 } }
      else refused
    | .ok (.hostBulk pa) => { (s.hostAccept pa bs) with dbg := { g with trtail := g.trtail + 1 } }
    | .ok (.hostCoh pa) => { (s.hostAccept pa bs) with dbg := { g with trtail := g.trtail + 1 } }
    | _ => refused

def State.trace (s : State) (kind : Nat) (id : CoreId) (p1 p2 : Word) : State :=
  s.traceAt kind id (s.ctx id.asid).sscnt (s.pcc (s.dieOf id)) p1 p2

/-! ### Watchpoints (spec/21 R403, R404) -/

/-- A watchpoint slot of the core covers some byte of the access in its direction (spec/21 R403, R404). -/
def CoreSt.watchHit (c : CoreSt) (va : Word) (n : Nat) (write : Bool) : Bool :=
  c.wp.toList.any (fun w => w.ctl.getLsbD 0 && (if write then w.ctl.getLsbD 2 else w.ctl.getLsbD 1) &&
    decide (va.toNat < w.addr.toNat + 2 ^ (w.ctl.toNat / 8)) && decide (w.addr.toNat < va.toNat + n))

/-- Stop before a watched access is made. -/
def watch (va : Word) (n : Nat) (write : Bool) : M Unit := fun s =>
  let c := s.core s.cur
  if c.watchHit va n write && (!c.stepping || c.replay.isSome) then .error (.halt (s.dbgStop s.cur.asid 0x02 s.cur.l)) else .ok ((), s)

/-- Scratchpad blocks of a context under an access that the spill engine has not yet brought in (spec/15 R372). -/
def Ctx.lacks (x : Ctx) (p : Place) (n : Nat) : List (Nat × Nat) :=
  match p with
  | .scratch l a => x.spillIn.filter (fun b => b.1 == l && decide (a < (b.2 + 1) * 4096) && decide (b.2 * 4096 < a + n))
  | _ => []

/-- Banked contexts whose scratchpads share a bench with core `l` of a context. -/
def State.outgoing (s : State) (asid l : Nat) : List Ctx :=
  s.ctxs.filter (fun y => y.run == .banked && y.asid != asid && y.benches.contains ((s.ctx asid).benchOf l))

/-- The blocks under an access are in. -/
def State.blocksIn (s : State) (asid : Nat) (p : Place) (n : Nat) : Bool := ((s.ctx asid).lacks p n).isEmpty

/-- An access waits for its blocks, which the spill engine moves next, ahead of their order (spec/15 R372). -/
def State.want (s : State) (asid : Nat) (p : Place) (n : Nat) : State :=
  if s.blocksIn asid p n then s
  else s.modCtx asid (fun x => { x with wanted := (x.wanted ++ x.lacks p n).dedup })

/-- A banked context has a block at the seat of core `b.1` of a context that has still to go out. -/
def State.goesOut (s : State) (asid : Nat) (b : Nat × Nat) : Bool :=
  (s.outgoing asid b.1).any (fun y => match y.lAt ((s.ctx asid).benchOf b.1) (b.1 % 4) with
    | some k => decide (b.2 < y.par.fp / 4096) && !y.swapped.contains (k, b.2)
    | none => false)

/-- Eights of units that the move of a block takes: the block that goes out, then the one that comes in. -/
def State.moveLen (s : State) (asid : Nat) (b : Nat × Nat) : Nat :=
  (if s.goesOut asid b then 32 else 0) + (if (s.ctx asid).spillIn.contains b then 32 else 0)

/-- Eights of units that the spill engine has moved for a block. -/
def Ctx.moved (x : Ctx) (b : Nat × Nat) : Nat := ((x.spillAt.find? (fun p => (p.1, p.2.1) == b)).map (fun p => p.2.2)).getD 0

/-- The move of a block is complete: every unit has been asked for and served. -/
def State.blockMoved (s : State) (asid : Nat) (b : Nat × Nat) : Bool :=
  decide (0 < s.moveLen asid b) && decide (s.moveLen asid b ≤ (s.ctx asid).moved b)
    && !s.bankq.any (fun k => k.asid == asid && k.l == b.1 && k.who == 0 && k.unit / 256 == b.2)

/-- No block of core `l` of a context below block `b` is still to come in. -/
def Ctx.nextIn (x : Ctx) (l b : Nat) : Bool := x.spillIn.all (fun p => p.1 != l || decide (b ≤ p.2))

/-- A block is the next to move: one that an access waits for, else the next of its core in order. The swap begins when every engine
word of the context that goes out has retired (spec/15 R372). -/
def State.moveNext (s : State) (asid : Nat) (b : Nat × Nat) : Bool :=
  let x := s.ctx asid
  (x.wanted.contains b || (x.nextIn b.1 b.2 && x.wanted.all (fun p => p.1 != b.1))) &&
    (s.outgoing asid b.1).all (fun y => y.ids.all (fun id => (s.core id).flights.isEmpty))

/-- The spill engine moves the next eight units of a block (spec/05 R105, spec/15 R372). -/
def State.spillUnits (s : State) (asid l b : Nat) : State :=
  let x := s.ctx asid
  let k := x.moved (l, b)
  if x.run != .running || decide (s.moveLen asid (l, b) ≤ k) || (k == 0 && !s.moveNext asid (l, b)) then s
  else (s.modCtx asid (fun x => { x with
    spillAt := (l, b, k + 1) :: x.spillAt.filter (fun p => (p.1, p.2.1) != (l, b)) })).askBank asid l 0 0 0 (b * 4096 + k % 32 * 128) 128

/-- Block `b` (core and number) of a context comes in, after the block of the context that goes out (spec/15 R372); the spill
engine's write meets an armed injection (spec/23 R443). -/
def State.bringIn (s : State) (asid : Nat) (b : Nat × Nat) : State :=
  let s := (s.outgoing asid b.1).foldl (fun s y =>
    match y.lAt ((s.ctx asid).benchOf b.1) (b.1 % 4) with
    | some k => if decide (b.2 < y.par.fp / 4096) && !y.swapped.contains (k, b.2) then
        s.modCtx y.asid (fun y => { y with swapped := y.swapped ++ [(k, b.2)] }) else s
    | none => s) s
  (s.modCtx asid (fun c => { c with
    spillIn := c.spillIn.filter (fun x => x != b), spillAt := c.spillAt.filter (fun x => (x.1, x.2.1) != b)
    wanted := c.wanted.filter (fun x => x != b) })).injectAt 3 (ownKey ⟨asid, b.1⟩)
    ((s.ctx asid).pcn b.1) (4096 * b.2) 4096

/-- The state in which the current core accesses a place: its banks are asked for it, and the die that serves it is touched. `unit` says that the bench vector unit makes the access. -/
def State.reach (s : State) (asid : Nat) (p : Place) (n : Nat) (unit : Bool := false) : State :=
  let t := s.askPlace asid (if unit then 2 else scalarAsker s.cur.l p) s.cur.l 0 p n
  match s.servedBy asid p with
  | some d => t.touch asid d
  | none => t

/-- An access to scratchpad blocks that are not in waits for them (spec/15 R372). -/
def demandM (p : Place) (n : Nat) : M Unit := fun s =>
  if s.blocksIn s.cur.asid p n then .ok ((), s) else .error (.absent p n)

/-- Checks before data at a place is consumed: touched dies, the late refusal codes, damage, poison. -/
def openPlace (p : Place) (n : Nat) (va : Word) (unit : Bool := false) : M Unit := fun s =>
  let id := s.cur
  if !s.blocksIn id.asid p n then .error (.absent p n) else
  let s := s.reach id.asid p n unit
  match s.placeRefusal id.asid p n with
  | 0 =>
    match s.consume id (s.damageAt id p n) with
    | (s, true) => .error (.halt s)
    | (s, false) => if s.poisonAt id p n then refuse 0x0B va s else .ok ((), s)
  | code => .error (.refused (s.servedBy id.asid p) (refusalTrap code va false))

/-- A write of the core that would leave part of a poisoned unit as it is: refused (spec/15 R366). -/
def coverM (p : Place) (n : Nat) (va : Word) : M Unit := fun s =>
  if s.poisonLeft s.cur p n then refuse 0x0B va s else .ok ((), s)

/-! ### Load (spec/10 R245, R251) -/

/-- Bytes of an own range as the core's loads see them: of the engine writes not yet seen, each unit may show its old bytes by the
hardware's choice. A unit seen new is seen new from then on. -/
def State.seeStale (s : State) (id : CoreId) (reg : Bool) (a n : Nat) : State × List Stale :=
  let c := s.core id
  let hit (x : Stale) : Bool := x.reg == reg && decide (a / 16 * 16 ≤ x.a) && decide (x.a < (a + n + 15) / 16 * 16)
  if !c.stale.any hit then (s, [])
  else
    let (old, k) := staleLeft (fun k _ => Config.freeBool k) (staleUnits (c.stale.filter hit)).reverse [] s.fresh
    ({ s.modCore id (fun c => { c with stale := c.stale.filter (fun x => !hit x) ++ old }) with fresh := k }, old)

/-- Replace the bytes that an unseen engine write covers by what stood there before. -/
def overlayStale (a : Nat) (bs : List Byte) (old : List Stale) : List Byte :=
  if old.isEmpty then bs
  else bs.mapIdx (fun i b => match old.find? (fun x => x.a == a + i) with
    | some x => x.old
    | none => b)

/-- Read `n` bytes at their memory. -/
def readAt (p : Place) (n : Nat) : M (List Byte) := fun s =>
  let id := s.cur
  match p with
  | .scratch l a =>
    if l = id.l then
      let (s, old) := s.seeStale id false a n
      .ok (overlayStale a ((s.core id).scratch.readBytes a n) old, s)
    else .ok ((s.core ⟨id.asid, l⟩).scratch.readBytes a n, s)
  | .reg a =>
    let (s, old) := s.seeStale id true a n
    .ok (overlayStale a ((s.core id).reg.readBytes a n) old, s)
  | .dev off =>
    let (v, s) := s.busRead (off / 8 * 8)
    .ok (leBytes n (v.toNat / 256 ^ (off % 8)), s)
  | p => .ok (s.placeBytes id p n, s)

/-! ### What a core learns (spec/10 R247) -/

/-- A scope that reaches beyond the die. -/
def wide (sc : Scope) : Bool := sc == .pkg || sc == .sys

/-- The part of a scope within the die, and a scope made to take in the die. -/
def Scope.near (sc : Scope) : Scope := if wide sc then .die else sc
def Scope.far (sc : Scope) : Scope := if wide sc then sc else .die

/-- Core `q`, or a word of it, is in a scope of core `p`, or of a word of it (spec/10 R246). -/
def State.inScope (s : State) (sc : Scope) (p q : CoreId) : Bool :=
  match sc with
  | .core => p == q
  | .bench => (s.ctx p.asid).benchOf p.l == (s.ctx q.asid).benchOf q.l
  | .die => s.dieOf p == s.dieOf q
  | .pkg | .sys => true

/-- A load taken ahead is older than a write that a release makes visible to the core: of any agent, or, where the core has read a
part of a store only, of an agent of its die (spec/10 R248). -/
def Early.behind (e : Early) (near : CoreId → Bool) (r : Rel) : Bool :=
  e.newer.any (fun o => decide (o.2 ≤ r.at_) && (!r.part || o.1.any near))

/-- A write of `fitness` has reached core `l` at its store number `seq`. -/
def FitOld.reach (f : FitOld) (l seq : Nat) : FitOld :=
  if f.seen.any (fun p => p.1 == l) then f else { f with seen := f.seen ++ [(l, seq)] }

/-- A release synchronises with an acquire of a core: what the core loaded ahead of writes that were visible then serves no load any
more, and earlier writes of `fitness` by the releasing core have reached it (spec/10 R247, spec/13 R312). -/
def State.learn (s : State) (id : CoreId) (r : Rel) : State :=
  let s := if r.by_ = id && !r.word then s
    else s.modCore id (fun c => { c with early := c.early.filter (fun e => !e.behind (fun o => s.dieOf o == s.dieOf id) r) })
  if r.word || r.part || r.by_.asid != id.asid then s
  else
    let seq := (s.core id).storeSeq.toNat
    s.modCore r.by_ (fun c => { c with fits := c.fits.map (fun f => if f.num ≤ r.fits then f.reach id.l seq else f) })

/-- An acquire of a core at scope `sc` that observes some releases: it synchronises with each whose scope takes it in and whose agent
is in its own scope (spec/10 R247). -/
def State.acquires (s : State) (id : CoreId) (sc : Scope) (rs : List Rel) : State :=
  if s.watched then
    (rs.filter (fun r => s.inScope r.sc r.by_ id && s.inScope sc id r.by_)).foldl (fun s r => s.learn id r) s
  else s

/-- The releases that a read of `n` bytes of a place observes: those of writes whose bytes it reads whole; of a store that it reads in
part no more than its place in the order of the die (spec/10 R248, R254). -/
def relsRead (p : Place) (n : Nat) (q : Place) (m : Nat) (torn : Bool) (rs : List Rel) : List Rel :=
  if !torn && decide (p.addr ≤ q.addr) && decide (q.addr + m ≤ p.addr + n) then rs
  else (rs.filter (fun r => r.sc == .die && !r.word)).map (fun r => { r with part := true })

/-- The releases that a read of a place at its memory observes. -/
def State.relsAt (s : State) (id : CoreId) (p : Place) (n : Nat) : List Rel :=
  (s.marks.filter (fun m => m.on id p n)).flatMap (fun m => relsRead p n m.place m.n m.torn m.rels)

/-- A load of a core at scope `sc` has returned bytes that carry some releases: an acquire read at that scope, and at the scope of every
acquire that follows it (spec/10 R247). -/
def State.hear (s : State) (id : CoreId) (sc : Scope) (rs : List Rel) : State :=
  if rs.isEmpty || !s.watched then s
  else (s.modCore id (fun c => { c with heard := (rs ++ c.heard).dedup })).acquires id sc rs

def hearM (sc : Scope) (rs : List Rel) : M Unit := updM (fun s => s.hear s.cur sc rs)

/-- A load of the current core at scope `sc` has read its memory. -/
def heedM (p : Place) (n : Nat) (sc : Scope) : M Unit := updM (fun s => s.hear s.cur sc (s.relsAt s.cur p n))

def drainM : M Unit := fun s => tryM (fun s => s.drainAll s.cur (s.core s.cur).sb.length) s

/-- Drain the store buffer up to its last store that satisfies `p`. -/
def drainTo (p : BufWrite → Bool) : M Unit := fun s =>
  let sb := (s.core s.cur).sb
  tryM (fun s => s.drainAll s.cur (sb.length - sb.reverse.findIdx p)) s

/-- Perform the edge-queue entries of the core's die that satisfy `p`. -/
def edgeM (p : BufWrite → Bool) : M Unit := fun s =>
  let d := s.dieOf s.cur
  tryM (fun s => s.edgeWhere d p (s.die d).edge.length) s

/-- Youngest of a list of buffered writes that touches an access. -/
def youngest (q : List BufWrite) (p : Place) (n : Nat) : Option BufWrite :=
  (q.filter (fun w => w.place.meets w.n p n)).getLast?

/-- A buffered store covers an access whole. -/
def BufWrite.covers (w : BufWrite) (p : Place) (n : Nat) : Bool :=
  w.kind == .store && decide (w.place.addr ≤ p.addr) && decide (p.addr + n ≤ w.place.addr + w.n)

/-- The bytes of an access taken from a buffered store. -/
def BufWrite.take (w : BufWrite) (p : Place) (n : Nat) : Nat :=
  w.val / 256 ^ (p.addr - w.place.addr) % 256 ^ n

/-- Loads taken ahead that an access does not touch. -/
def keepAhead (es : List Early) (p : Place) (n : Nat) : List Early := es.filter (fun e => !e.place.meets e.bytes.length p n)

/-- Bytes of an access that a load of the core took ahead; whether this load is that one is the hardware's choice (spec/10 R245,
notes/assumptions/54.md). -/
def aheadM (p : Place) (n : Nat) (sc : Scope) : M (Option (List Byte)) := fun s =>
  match (s.core s.cur).early.find? (fun e => e.place == p && e.bytes.length == n) with
  | none => .ok (none, s)
  | some e => if Config.freeBool s.fresh then .ok (some e.bytes, s.bump.hear s.cur sc e.rels) else .ok (none, s.bump)

/-- A load in its turn: what was taken ahead of the same bytes is older from now on (spec/10 R244). -/
def dropAheadM (p : Place) (n : Nat) : M Unit := do
  if !(← me).early.isEmpty then modMe (fun c => { c with early := keepAhead c.early p n })

/-- `load(a, n, sc)` at a resolved place. -/
def loadPlace (p : Place) (n : Nat) (sc : Scope) (va : Word) : M Nat := do
  let c ← me
  match p with
  | .dev _ =>
    drainTo (fun w => w.place.isDev)
    edgeM (fun w => w.place.isDev && w.asid == c.id.asid && w.l == c.id.l)
    let s ← get
    -- in program order with the core's device stores, also those that its open window holds (R249)
    let held := (s.die (s.dieOf s.cur)).egress.any (fun h => h.isDev && h.owner.1 == c.id.asid && h.owner.2.1 == c.id.l)
    if held || !s.busq.isEmpty then waitM
    else return leNat (← readAt p n)
  | _ =>
    match youngest c.sb p n with
    | some w =>
      if w.covers p n then return w.take p n
      else drainM
    | none => pure ()
    if p.isLocal then
      openPlace p n va
      let v := leNat (← readAt p n)
      heedM p n sc
      return v
    else
      let s ← get
      let q := (s.die (s.dieOf s.cur)).edge
      let direct : M Nat := do
        openPlace p n va
        let v := leNat (← readAt p n)
        dropAheadM p n
        heedM p n sc
        return v
      match youngest q p n with
      | none =>
        if sc = .pkg ∨ sc = .sys then direct
        else match ← aheadM p n sc with
          | some bs => return leNat bs
          | none => direct
      | some w =>
        if sc = .pkg ∨ sc = .sys ∨ !w.covers p n then
          edgeM (fun v => v.place.meets v.n p n)
          direct
        else
          dropAheadM p n
          hearM sc (relsRead p n w.place w.n false w.carried)
          return w.take p n

/-- The walk that a global address needs consumes damaged table entries (spec/23 R442). -/
def walkM (va : Word) : M Unit := fun s =>
  match s.walkMet s.cur (s.core s.cur).runtime va with
  | (s, true) => .error (.halt s)
  | (s, false) => .ok ((), s)

/-- Decode an address for a load or an atomic: every refusal is precise (spec/03 R66). -/
def resolveM (va : Word) (n : Nat) (acc : Access) : M Place := do
  walkM va
  let s ← get
  match s.resolve s.cur (s.core s.cur).runtime va n acc with
  | .ok p => pure p
  | .error code => refuse code va

/-- Scope of the target of a prefix unit: that of `scx`, else `.die` (spec/09 R214). -/
def CoreSt.scope (c : CoreSt) : Scope := ((c.pfx.bind (fun p => p.scx)).getD .die)

/-- An `n`-byte load at a virtual address. -/
def loadM (va : Word) (n : Nat) (sc : Scope) : M Nat := do
  watch va n false
  let p ← resolveM va n .load
  loadPlace p n sc va

/-! ### Store -/

/-- Take the next request sequence number (spec/09 R227). -/
def takeRq : M Nat := fun s =>
  let c := s.core s.cur
  .ok (c.reqSeq.toNat, s.modCore s.cur (fun c => { c with reqSeq := c.reqSeq + 1 }))

/-- Take the next store sequence number (spec/14 R328). -/
def takeSeq : M Nat := fun s =>
  let c := s.core s.cur
  .ok (c.storeSeq.toNat, s.modCore s.cur (fun c => { c with storeSeq := c.storeSeq + 1 }))

/-- Wait until a logged write of the open window to `p` has the ring slots it needs (spec/14 R330). -/
def reserveM (need : Nat) (p : Place) : M Unit := do
  let c ← me
  match c.win.openWin with
  | some _ => tryM (fun s => s.room s.cur (s.stagedAt p) need ⟨4, c.storeSeq.toNat, some p, c.pc.toNat⟩ true)
  | none => pure ()

/-- Requests of a core that are outstanding or will be once they leave its store buffer (spec/15 R354). -/
def CoreSt.requests (c : CoreSt) : Nat := c.rqout + c.sb.countP (fun w => !(w.place.isLocal && w.kind == .store))

/-- Stall while the count of outstanding requests is full (spec/15 R354). -/
def rqRoom : M Unit := do
  let c ← me
  if c.requests ≥ 65535 then waitM

/-- Append a write to the store buffer; a refusal found after issue returns late (spec/03 R66). DESIGN CHOICE: a store to a scratchpad
or to register space has no request sequence number (spec/09 R227 counts global stores), and its LATE_REFUSAL quotes 0
(notes/assumptions/53.md). -/
def bufferM (va : Word) (n v : Nat) (kind : WriteKind) (r : Except Nat Place) (sc : Scope := .die) : M Unit := do
  let id ← myId
  let c ← me
  match r with
  | .ok p =>
    demandM p n
    let rq ← if p.isLocal && kind == .store then pure 0 else do rqRoom; takeRq
    let seq ← takeSeq
    modMe (fun x => { x with
      sb := x.sb ++ [⟨id.asid, id.l, p, n, v % 256 ^ n, kind, va, rq, seq, c.win.openWin, Scope.near sc, c.fitNo, c.rels, 0⟩]
      early := keepAhead x.early p n })
  | .error code =>
    if code = 0x01 ∨ code = 0x02 ∨ code = 0x09 ∨ code = 0x0A then refuse code va
    else
      rqRoom
      let rq ← takeRq
      let _ ← takeSeq
      modMe (fun c => { c with rqout := c.rqout + 1, late := c.late ++ [⟨0x20, va, word (rq + code * 2 ^ 24), 0⟩] })

/-- `store(a, n, v)`. -/
def storeM (va : Word) (n v : Nat) (sc : Scope := .die) : M Unit := do
  watch va n true
  walkM va
  let s ← get
  bufferM va n v .store (s.resolve s.cur (s.core s.cur).runtime va n .store) sc

/-! ### Release and acquire (spec/10 R245) -/

/-- The release that a core makes now at scope `sc`, for what carries it on; none is noted while nothing can turn on it. -/
def State.releaseOf (s : State) (id : CoreId) (sc : Scope) : List Rel :=
  if s.watched then [⟨id, false, sc, s.seen, (s.core id).fitNo, false⟩] else []

/-- A core has released at scope `sc`: its next stores are release writes at it (spec/10 R247). -/
def State.released (s : State) (id : CoreId) (sc : Scope) : State :=
  if s.watched then s.modCore id (fun c => { c with rels := s.releaseOf id sc ++ c.rels.filter (fun r => r.sc != sc) }) else s

/-- `release(sc)`: earlier loads have returned; the store buffer drains; at `.pkg` and `.sys` the core's shadow entries
merge and the edge queue is performed. Host-bound writes are accepted by the link when they leave the edge queue. -/
def release (sc : Scope) : M Unit := do
  drainM
  if sc = .pkg ∨ sc = .sys then
    tryM (fun s => s.mergeOf s.cur)
    edgeM (fun _ => true)
  updM (fun s => s.released s.cur sc)

/-- `acquire(sc)`: with what earlier loads of the core observed (spec/10 R247). -/
def acquire (sc : Scope) : M Unit := updM (fun s => s.acquires s.cur sc (s.core s.cur).heard)

/-- The acquire of something that carries releases itself: a message, an element, an entry, a barrier, a publication. -/
def acquireOf (sc : Scope) (rs : List Rel) : M Unit := updM (fun s => s.acquires s.cur sc rs)

/-- No later load of the core begins before a fence or an atomic at scope `sc`: what it loaded ahead is dropped where an agent of that
scope has written there since (spec/10 R245, notes/assumptions/54.md). -/
def State.begins (s : State) (id : CoreId) (sc : Scope) : State :=
  if (s.core id).early.isEmpty then s
  else s.modCore id (fun c => { c with early := c.early.filter (fun e => !e.newer.any (fun o => match o.1 with
    | some a => s.inScope sc id a
    | none => sc == .pkg || sc == .sys)) })

/-- `acquire(sc)` of a fence or an atomic. -/
def acquireNow (sc : Scope) : M Unit := do
  acquire sc
  updM (fun s => s.begins s.cur sc)

/-! ### Atomics at memory (spec/10 R249) -/

/-- A place takes atomics: device HBM, scratchpads and host-coherent lines every op; host-bulk pages only what `bulkOk`
says; the register-space window and device registers none (R73, R74, R129, R217). -/
def Place.takesAtomic (p : Place) (bulkOk : Bool) : Bool :=
  match p with
  | .reg _ => false
  | .dev _ => false
  | .hostBulk _ => bulkOk
  | _ => true

/-- Drop what the core has not yet seen of engine writes to its own bytes. -/
def seenM (keep : Stale → Bool) : M Unit := do
  if !(← me).stale.isEmpty then modMe (fun c => { c with stale := c.stale.filter keep })

/-- The word of an atomic as it stands in its memory, and those of its bytes that it reads older. An AMO, LR or SC acts on the
memory itself (spec/10 R249). A `samo` may miss an engine's write to the core's own scratchpad as a load may (R251), except
an `rdx` update, against which it is atomic (spec/09 R217). -/
def atomRead (p : Place) (n : Nat) (weak : Bool) : M (List Byte × List Stale) := do
  let id ← myId
  match p with
  | .scratch l a =>
    if l = id.l then
      seenM (fun x => x.reg || !(decide (a ≤ x.a) && decide (x.a < a + n)) || (weak && !x.atom))
      fun s =>
        let (s, old) := if weak then s.seeStale id false a n else (s, [])
        .ok (((s.core id).scratch.readBytes a n, old.filter (fun x => decide (a ≤ x.a) && decide (x.a < a + n))), s)
    else fun s => .ok ((s.placeBytes id p n, []), s)
  | p => fun s => .ok ((s.placeBytes id p n, []), s)

/-- What an atomic leaves in its word: where it read a byte older than an engine's write, the engine's byte stays, since that
write comes after it. -/
def leaveNewer (a : Nat) (bs mem : List Byte) (old : List Stale) : List Byte :=
  if old.isEmpty then bs
  else bs.mapIdx (fun i b => if old.any (fun x => x.a == a + i) then mem.getD i b else b)

/-- An atomic at host memory: the core's earlier host-bound writes go first (spec/10 R256). With a window open it is held, and
the core waits for its answer; an open window of another core that holds a write to its bytes lets it wait too
(notes/assumptions/39.md). -/
def hostRmw (p : Place) (va : Word) (op : Rmw) : M Nat := do
  let id ← myId
  edgeM (fun w => w.asid == id.asid && w.l == id.l && w.place.isHost)
  openPlace p op.size va
  let c ← me
  match c.hostAmo, c.win.openWin with
  | some (some old), _ =>
    modMe (fun c => { c with hostAmo := none })
    let _ ← takeSeq
    return old
  | some none, _ => waitM
  | none, some w =>
    tryM (fun s => s.hold (s.dieOf id) (.atom id.asid id.l w va p.addr op))
    modMe (fun c => { c with hostAmo := some none })
    waitM
  | none, none =>
    let s ← get
    let meets (h : HeldItem) : Bool := match h with
      | .host _ _ _ _ parts _ => parts.any (fun q => decide (q.pa < p.addr + op.size) && decide (p.addr < q.pa + q.data.length))
      | .atom _ _ _ _ pa o => decide (pa < p.addr + op.size) && decide (p.addr < pa + o.size)
      | _ => false
    if (s.die (s.dieOf id)).egress.any meets then waitM
    else
      let old := s.host.readNat p.addr op.size
      heedM p op.size .die
      updM (fun s => (s.hostAtom id p.addr op).modCore id (fun c => { c with hostAmo := none }))
      let _ ← takeSeq
      return old

/-- Read-modify-write at the memory that holds an address. Answers the old value. -/
def rmwM (va : Word) (bulkOk : Bool) (op : Rmw) : M Nat := do
  let n := op.size
  watch va n false
  watch va n true
  let p ← resolveM va n .amo
  if !p.takesAtomic bulkOk then refuse 0x07 va
  drainM
  edgeM (fun w => w.place.meets w.n p n)
  if p.isHost then hostRmw p va op
  else
    openPlace p n va
    let weak : Bool := match op with
      | .amo .. => false
      | .samo .. => true
    let (mem, unseen) ← atomRead p n weak
    let old := leNat (overlayStale p.addr mem unseen)
    heedM p n .die
    let c ← me
    let seq := (← get).sequence c.id p n
    match op.eval old with
    | none => pure ()
    | some v =>
      let bs := leaveNewer p.addr (leBytes n v) mem unseen
      tryM (fun s => s.perform s.cur c.win.openWin c.storeSeq.toNat p bs true (logFormAt va) true va)
      updM (fun s => s.markStore s.cur p n seq)
    let _ ← takeSeq
    return old

/-! ### Gangs (spec/11 R281, R282) -/

/-- The members of a core's gang in core order; the core alone when it is not ganged. -/
def State.gangOf (s : State) (id : CoreId) : List CoreId :=
  match (s.core id).gang with
  | none => [id]
  | some g => ((List.range 4).filter (fun k => g.mask.getLsbD k)).map (fun k => ⟨id.asid, id.l / 4 * 4 + k⟩)

def State.leader (s : State) (id : CoreId) : CoreId := (s.gangOf id).headD id

/-- The JMU lease and the vector unit of a core's bench (spec/08 R176, R179). -/
def State.lease (s : State) (id : CoreId) : Lease :=
  (s.die (s.dieOf id)).leases.getD ((s.ctx id.asid).benchOf id.l % 36) Lease.free

def State.modLease (s : State) (id : CoreId) (f : Lease → Lease) : State :=
  let b := (s.ctx id.asid).benchOf id.l % 36
  s.modDie (s.dieOf id) (fun d => { d with leases := d.leases.modify b f })

/-- Slot of a core in the dispatch queue of its bench: a gang is one slot at its leader (spec/08 R178). -/
def State.slotOf (s : State) (id : CoreId) : Nat := (s.leader id).l % 4

/-- Dissolve a core's gang; if it held the JMU lease, its run ends at the next word boundary (spec/08 R178). -/
def State.splitGang (s : State) (id : CoreId) : State :=
  match (s.core id).gang with
  | none => s
  | some _ =>
    let k := s.slotOf id
    (s.gangOf id).foldl (fun s m => s.modCore m (fun c => { c with gang := none }))
      (s.modLease id (fun l => { l with ends := l.ends || l.holder == some k }))

/-! ### Taking a trap (spec/09 R237, spec/15 R350 to R352) -/

/-- `tepc` keeps bits [53:2]. -/
def epcOf (pc : Word) : Word := pc &&& 0x3FFFFFFFFFFFFC#64

/-- The stores of a core leave its buffer, as far as they can. -/
def State.flush (s : State) (id : CoreId) : State := (s.drainAll id (s.core id).sb.length).state

/-- A store of a core cannot leave its buffer, so that an entry or a swap now would not be exact (spec/15 R355). One for which LOG_FULL
was raised holds nothing back: the handler frees what it waits for (spec/14 R330, notes/assumptions/62.md). -/
def State.storeWaits (s : State) (id : CoreId) : Bool :=
  let c := (s.flush id).core id
  match c.sb with
  | [] => false
  | w :: _ => !c.logWait.any (fun k => k.same ⟨0, w.seq, some w.place, 0⟩)

/-- Handler entry: the core's stores leave its buffer, so that the entry is exact where no request is outstanding (spec/15 R355;
notes/assumptions/62.md), the saved registers are written, the level becomes runtime, the pc goes to `rtvec`. While `vec` is 0
the fault UNHANDLED is raised instead (R351). -/
def State.enterHandler (s : State) (id : CoreId) (epc : Word) (t : TrapInfo) (async : Bool) : State :=
  let c := s.core id
  if bits c.csr.rtvec 53 2 = 0 then
    (s.modCore id (fun c => { c with pc := epc, pfx := none, due := none, fuse := none })).raiseHalt id.asid 0x31 id.l
  else
    let s := (s.flush id).modCore id (fun c => { c with
      csr := { c.csr with
        tepc := epcOf epc
        tcause := word (t.code + if async then 2 ^ 63 else 0)
        tval := t.tval, tdet0 := t.det0, tdet1 := t.det1
        tstat := if c.runtime then 1 else 0 }
      runtime := true
      pc := sext54 (bits c.csr.rtvec 53 2 * 4)
      pfx := none
      due := none
      fuse := none })
    s.trace 0x05 id (epcOf epc) (word ((if async then 2 ^ 32 else 0) + t.code * 2 ^ 24 + (s.core id).lcnOrNone))

/-- A synchronous trap of one core: DOUBLE_TRAP at the runtime level; entry is left due while a halt or a pre-emption is
due at this boundary (R352) or a store cannot leave the buffer (R355); otherwise the handler is entered. -/
def State.syncTrap (s : State) (id : CoreId) (epc : Word) (t : TrapInfo) : State :=
  let c := s.core id
  let x := s.ctx id.asid
  if c.runtime then
    (s.modCore id (fun c => { c with pc := epc, pfx := none })).raiseHalt id.asid 0x30 id.l
  else if (x.halt.isSome && !c.stepping) || x.preempt.isSome || s.storeWaits id then
    s.modCore id (fun c => { c with pc := epc, pfx := none, due := some ⟨epc, t⟩ })
  else s.enterHandler id epc t false

/-- The address a trap of a core is reported at: the first prefix of its unit, else the pc (spec/02 R37). -/
def CoreSt.unitPc (c : CoreSt) : Word :=
  match c.pfx with
  | some p => p.pc
  | none => c.pc

/-- Causes whose trap follows from the program alone; the others stop a replay (spec/14 R347, notes/assumptions/14.md). -/
def programCause (code : Nat) : Bool := code < 0x20 && code != 0x06 && code != 0x07 && code != 0x08

/-- A synchronous trap raised by the current core: it takes its own cause; a gang splits and its other members take
GANG_SPLIT at the same instruction (spec/11 R282). -/
def State.takeTrap (s : State) (t : TrapInfo) : State :=
  let id := s.cur
  let c := s.core id
  let epc := c.unitPc
  if c.replay.isSome && !programCause t.code then
    ({ s with note := .trapped t epc }.modCore id (fun c => { c with pc := epc, pfx := none })).diverge id t.code 0
  else
    let others := (s.gangOf id).filter (fun m => m != id)
    let s := s.splitGang id
    let s := { s with note := .trapped t epc }
    let s := s.syncTrap id epc t
    others.foldl (fun s m => s.syncTrap m epc ⟨0x1A, 0, 0, word c.lcn⟩) s

/-! ### Running one scalar instruction -/

/-- A request of the current core has reached the die that refused it. -/
def State.reached (s : State) (d : Option Nat) : State :=
  match d with
  | some d => s.touch s.cur.asid d
  | none => s

/-- The current core's instruction retires: the unit ends and is counted once (spec/02 R29). -/
def State.retire (s : State) : State :=
  { s.modCore s.cur (fun c => { c with pfx := none, instret := c.instret + 1, dicnt := c.dicnt + 1 }) with note := .retired }

/-- Run the effect of a scalar instruction whose parcel is `parcel` on the current core. -/
def runScalar (parcel : Parcel) (m : M Unit) (s : State) : Host.Outcome State Fault Refusal :=
  if s.hasCore s.cur then
    match m s with
    | .ok ((), s') => .next s'.retire
    | .error (.trap t) => .next (s.takeTrap { t with det1 := parcel.setWidth 64 })
    | .error (.refused d t) => .next ((s.reached d).takeTrap { t with det1 := parcel.setWidth 64 })
    | .error (.wait s') => .next { s' with note := .waited }
    | .error (.halt s') => .next { s' with note := .waited }
    | .error (.absent p n) => .next { s.want s.cur.asid p n with note := .waited }
  else .fault .noSuchCore

/-- The instruction count of a window starts after the instruction that opened it. -/
def zeroCount (r : Host.Outcome State Fault Refusal) : Host.Outcome State Fault Refusal :=
  match r with
  | .next s => if s.note = .retired then .next (s.modCore s.cur (fun c => { c with dicnt := 0 })) else .next s
  | r => r

/-- Run a prefix: it retires with its target, and the unit it opens stays pending. -/
def runPrefix (parcel : Parcel) (m : M Unit) (s : State) : Host.Outcome State Fault Refusal :=
  if s.hasCore s.cur then
    match m s with
    | .ok ((), s') => .next { s' with note := .none }
    | .error (.trap t) => .next (s.takeTrap { t with det1 := parcel.setWidth 64 })
    | .error (.refused d t) => .next ((s.reached d).takeTrap { t with det1 := parcel.setWidth 64 })
    | .error (.wait s') => .next { s' with note := .waited }
    | .error (.halt s') => .next { s' with note := .waited }
    | .error (.absent p n) => .next { s.want s.cur.asid p n with note := .waited }
  else .fault .noSuchCore

/-- `tret`: the return from the runtime level (spec/09 R237). -/
def CoreSt.doReturn (c : CoreSt) : CoreSt :=
  { c with
    runtime := bit c.csr.tstat 0
    csr := { c.csr with tstat := c.csr.tstat &&& 1#64 }
    pc := sext54 c.csr.tepc.toNat }

/-! ### Recorded inputs (spec/14 R346, R347) -/

/-- Inputs of a core are recorded: its open window is recorded and it is not replaying. -/
def State.records (s : State) (id : CoreId) : Bool :=
  let c := s.core id
  match c.win.openWin with
  | some w => (s.ctx id.asid).recording && c.ckpts.any (fun k => k.win == w && k.rec_) && c.replay.isNone
  | none => false

/-- Make an input entry of a core while its open window is recorded. -/
def State.recordInput (s : State) (id : CoreId) (kind : Nat) (v : Word) (who : Nat := 0) : Try :=
  let c := s.core id
  match c.win.openWin with
  | some w =>
    if s.records id then
      match s.room id none 1 ⟨1, c.storeSeq.toNat, none, who⟩ true with
      | .blocked s => .blocked s
      | .done s =>
        let (ks, s) := s.takeSlots id.asid (s.ringUsed id.asid) 1
        .done (s.modCore id (fun c => { c with inputs := c.inputs ++ [⟨w, c.dicnt, kind, v, c.storeSeq.toNat, ks.headD 0, false, false⟩] }))
    else .done s
  | none => .done s

/-- An input entry of an increment or of a read. -/
def recordM (kind : Nat) (v : Word) : M Unit := tryM (fun s => s.recordInput s.cur kind v (kind * 2 ^ 64 + (s.core s.cur).pc.toNat))

/-- The recorded read or message that the instruction a core executes takes in a replay. -/
def CoreSt.recorded (c : CoreSt) : Option InputEnt :=
  c.inputs.find? (fun i => !i.used && some i.win == c.win.openWin && i.count == c.dicnt && i.kind != 0x03)

/-- The value of an input of a kind: from the record in a replay, else the hardware's, which is recorded. -/
def inputM (kind : Nat) (v : Word) : M Word := do
  let s ← get
  let id := s.cur
  let c := s.core id
  if c.replay.isSome then
    match c.recorded with
    | some i =>
      if i.kind = kind then
        modMe (fun c => { c with inputs := c.inputs.map (fun j => if j = i then { j with used := true } else j) })
        return i.val
      else fun s => .error (.halt (s.diverge id 0 i.kind))
    | none => return v
  else
    recordM kind v
    return v

end Sys2Proof.Machine
end

