-- ==== Sys2Proof/Machine/Operands.lean ====
section
/-! DEFINITION. Operand forms of scalar instructions: immediates with and without `imx` (spec/02 R35), which
instructions accept which prefix (R35, R36), aligned addresses, and sign-extended results. -/

namespace Sys2Proof.Machine

/-- The pending upper immediate of a unit. -/
def CoreSt.ix (c : CoreSt) : Option (BitVec 20) := c.pfx.bind (fun p => p.imx)

/-- The immediate operand of an instruction: sign-extended from 12 bits, or with `imx` the 32-bit value with the field as
its unsigned low bits, sign-extended from bit 31 (R35). -/
def CoreSt.imm12 (c : CoreSt) (imm : BitVec 12) : Word :=
  match c.ix with
  | some p => sextNat 32 (p.toNat * 4096 + imm.toNat)
  | none => imm.signExtend 64

/-- Base register plus immediate. -/
def CoreSt.ea (c : CoreSt) (rs1 : Reg) (imm : BitVec 12) : Word := c.rx rs1 + c.imm12 imm

/-- Instructions that accept `imx`, R35. -/
def acceptsImx : Instr → Bool
  | .load .. => true
  | .store .. => true
  | .integerOp (.imm ..) => true
  | .branchJump (.jalr ..) => true
  | .vld .. => true
  | .vst .. => true
  | .tld .. => true
  | .tst .. => true
  | _ => false

/-- Instructions that accept `scx`, R36. -/
def acceptsScx : Instr → Bool
  | .load .. => true
  | .store .. => true
  | .amo .. => true
  | .lr .. => true
  | .sc .. => true
  | .fence .. => true
  | _ => false

/-- Trap unless `n` divides the address. -/
def aligned (va : Word) (n : Nat) : M Unit := if va.toNat % n = 0 then pure () else misaligned va

/-- Result of an `n`-byte read, sign-extended. -/
def sextBytes (n v : Nat) : Word := sextNat (8 * n) v

end Sys2Proof.Machine
end

