-- ==== Sys2Proof/Machine/Flags.lean ====
section
/-! DEFINITION. Flag computations: the accrued exceptions of `fcsr` (spec/02 R29) and the event counters with `nfsticky`
that scalar conversions charge to their core (spec/07 R167, R168, spec/09 R232). -/

namespace Sys2Proof.Machine

/-- `fcsr` with the flags NV DZ OF UF NX in bits 4 to 0 of `fl` accrued. -/
def accrue (fcsr : BitVec 8) (fl : Nat) : BitVec 8 := fcsr ||| BitVec.ofNat 8 (fl % 32)

/-- Accrue flags. -/
def flagsM (fl : Nat) : M Unit := modMe (fun c => { c with csr := { c.csr with fcsr := accrue c.csr.fcsr fl } })

/-- Count events on the executing core. -/
def eventsM (evs : Evs) : M Unit := modMe (fun c => c.countEvs evs)

/-- The rounding mode of a float instruction; a reserved one raises ILLEGAL_INSTRUCTION. -/
def rmM (rm : BitVec 3) : M RM := do
  let c ← me
  match fpMode rm c.csr.fcsr with
  | some m => return m
  | none => illegal

end Sys2Proof.Machine
end

