-- ==== Sys2Proof/Machine/Base.lean ====
section
/-! DEFINITION. The standard RISC-V classes: RV64IMAFD with Zicsr, Zifencei, Zba, Zbb and Zfh (spec/02 R29). -/

namespace Sys2Proof.Machine

/-! ### Integer computation -/

/-- Signed division of RISC-V: division by zero gives all ones, overflow the dividend. -/
def divS {n : Nat} (a b : BitVec n) : BitVec n := if b = 0 then BitVec.allOnes n else BitVec.ofInt n (Int.tdiv a.toInt b.toInt)

def divU {n : Nat} (a b : BitVec n) : BitVec n := if b = 0 then BitVec.allOnes n else BitVec.ofNat n (a.toNat / b.toNat)

def remS {n : Nat} (a b : BitVec n) : BitVec n := if b = 0 then a else BitVec.ofInt n (Int.tmod a.toInt b.toInt)

def remU {n : Nat} (a b : BitVec n) : BitVec n := if b = 0 then a else BitVec.ofNat n (a.toNat % b.toNat)

/-- High doubleword of an exact product. -/
def mulHigh (a b : Int) : Word := BitVec.ofInt 64 (Int.fdiv (a * b) (2 ^ 64))

/-- Low 32 bits. -/
abbrev lo32 (a : Word) : BitVec 32 := a.setWidth 32

/-- A 32-bit result, sign-extended. -/
abbrev sx32 (a : BitVec 32) : Word := a.signExtend 64

/-- A 32-bit operand, zero-extended. -/
abbrev zx32 (a : Word) : Word := (lo32 a).setWidth 64

/-- Shift amounts: low 6 and low 5 bits. -/
abbrev sh6 (b : Word) : Nat := b.toNat % 64
abbrev sh5 (b : Word) : Nat := b.toNat % 32

def bool64 (b : Bool) : Word := if b then 1 else 0

def rrEval (op : RROp) (a b : Word) : Word :=
  match op with
  | .add => a + b
  | .sub => a - b
  | .sll => a <<< sh6 b
  | .slt => bool64 (a.slt b)
  | .sltu => bool64 (a.ult b)
  | .xor => a ^^^ b
  | .srl => a >>> sh6 b
  | .sra => a.sshiftRight (sh6 b)
  | .or => a ||| b
  | .and => a &&& b
  | .addw => sx32 (lo32 a + lo32 b)
  | .subw => sx32 (lo32 a - lo32 b)
  | .sllw => sx32 (lo32 a <<< sh5 b)
  | .srlw => sx32 (lo32 a >>> sh5 b)
  | .sraw => sx32 ((lo32 a).sshiftRight (sh5 b))
  | .mul => a * b
  | .mulh => mulHigh a.toInt b.toInt
  | .mulhsu => mulHigh a.toInt b.toNat
  | .mulhu => mulHigh a.toNat b.toNat
  | .div => divS a b
  | .divu => divU a b
  | .rem => remS a b
  | .remu => remU a b
  | .mulw => sx32 (lo32 a * lo32 b)
  | .divw => sx32 (divS (lo32 a) (lo32 b))
  | .divuw => sx32 (divU (lo32 a) (lo32 b))
  | .remw => sx32 (remS (lo32 a) (lo32 b))
  | .remuw => sx32 (remU (lo32 a) (lo32 b))
  | .adduw => zx32 a + b
  | .sh1add => (a <<< 1) + b
  | .sh2add => (a <<< 2) + b
  | .sh3add => (a <<< 3) + b
  | .sh1adduw => (zx32 a <<< 1) + b
  | .sh2adduw => (zx32 a <<< 2) + b
  | .sh3adduw => (zx32 a <<< 3) + b
  | .andn => a &&& ~~~b
  | .orn => a ||| ~~~b
  | .xnor => ~~~(a ^^^ b)
  | .min => if a.slt b then a else b
  | .minu => if a.ult b then a else b
  | .max => if a.slt b then b else a
  | .maxu => if a.ult b then b else a
  | .rol => a.rotateLeft (sh6 b)
  | .ror => a.rotateRight (sh6 b)
  | .rolw => sx32 ((lo32 a).rotateLeft (sh5 b))
  | .rorw => sx32 ((lo32 a).rotateRight (sh5 b))

/-- Leading zeros of the low `n` bits of `v`. -/
def clzNat : Nat → Nat → Nat
  | 0, _ => 0
  | n + 1, v => if v / 2 ^ n % 2 = 1 then 0 else 1 + clzNat n v

/-- Trailing zeros of the low `n` bits of `v`. -/
def ctzNat : Nat → Nat → Nat
  | 0, _ => 0
  | n + 1, v => if v % 2 = 1 then 0 else 1 + ctzNat n (v / 2)

/-- Byte-wise or-combine. -/
def orcByte (b : Byte) : Byte := if b = 0 then 0 else 0xFF

def unEval (op : UnOp) (a : Word) : Word :=
  match op with
  | .clz => word (clzNat 64 a.toNat)
  | .ctz => word (ctzNat 64 a.toNat)
  | .cpop => word (popcount 64 a.toNat)
  | .clzw => word (clzNat 32 (a.toNat % 2 ^ 32))
  | .ctzw => word (ctzNat 32 (a.toNat % 2 ^ 32))
  | .cpopw => word (popcount 32 a.toNat)
  | .sextb => sextNat 8 a.toNat
  | .sexth => sextNat 16 a.toNat
  | .zexth => word (a.toNat % 2 ^ 16)
  | .orcb => word (leNat ((leBytes 8 a.toNat).map orcByte))
  | .rev8 => word (leNat (leBytes 8 a.toNat).reverse)

def immEval (op : ImmOp) (a i : Word) : Word :=
  match op with
  | .addi => a + i
  | .slti => bool64 (a.slt i)
  | .sltiu => bool64 (a.ult i)
  | .xori => a ^^^ i
  | .ori => a ||| i
  | .andi => a &&& i
  | .addiw => sx32 (lo32 a + lo32 i)

def shEval (op : ShOp) (a : Word) (sh : BitVec 6) : Word :=
  match op with
  | .slli => a <<< sh.toNat
  | .srli => a >>> sh.toNat
  | .srai => a.sshiftRight sh.toNat
  | .rori => a.rotateRight sh.toNat
  | .slliuw => zx32 a <<< sh.toNat
  | .slliw => sx32 (lo32 a <<< (sh.toNat % 32))
  | .srliw => sx32 (lo32 a >>> (sh.toNat % 32))
  | .sraiw => sx32 ((lo32 a).sshiftRight (sh.toNat % 32))
  | .roriw => sx32 ((lo32 a).rotateRight (sh.toNat % 32))

/-- Result and destination of an integer instruction on a core. -/
def intResult (op : IntegerOp) (c : CoreSt) : Reg × Word :=
  match op with
  | .rr op rd rs1 rs2 => (rd, rrEval op (c.rx rs1) (c.rx rs2))
  | .un op rd rs1 => (rd, unEval op (c.rx rs1))
  | .imm op rd rs1 imm => (rd, immEval op (c.rx rs1) (c.imm12 imm))
  | .shift op rd rs1 sh => (rd, shEval op (c.rx rs1) sh)
  | .lui rd imm => (rd, sextNat 32 (imm.toNat * 4096))
  | .auipc rd imm => (rd, c.pc + sextNat 32 (imm.toNat * 4096))

/-- INTEGER_OP. -/
def execIntegerOp (op : IntegerOp) (s : State) : Host.Outcome State Fault Refusal :=
  runScalar (parcelOf (.integerOp op)) (do
    let c ← me
    let r := intResult op c
    wxM r.1 r.2
    advance) s

/-! ### Loads and stores -/

/-- Bytes read. -/
def loadBytes : LoadOp → Nat
  | .lb | .lbu => 1
  | .lh | .lhu | .flh => 2
  | .lw | .lwu | .flw => 4
  | .ld | .fld => 8

/-- Write the destination of a load: sign- or zero-extended, or NaN-boxed into an f-register (spec/07 R154). -/
def loadPut (op : LoadOp) (rd : Reg) (v : Nat) : M Unit :=
  match op with
  | .lb | .lh | .lw | .ld => wxM rd (sextBytes (loadBytes op) v)
  | .lbu | .lhu | .lwu => wxM rd (word v)
  | .flh => wfM rd (nanBox .h v)
  | .flw => wfM rd (nanBox .s v)
  | .fld => wfM rd (word v)

/-- LOAD (spec/10 R245): an acquire read at `.die`, or at the scope that `scx` sets (R248). -/
def execLoad (op : LoadOp) (rd rs1 : Reg) (imm : BitVec 12) (s : State) : Host.Outcome State Fault Refusal :=
  runScalar (parcelOf (.load op rd rs1 imm)) (do
    let c ← me
    let va := c.ea rs1 imm
    aligned va (loadBytes op)
    let v ← loadM va (loadBytes op) c.scope
    loadPut op rd v
    advance) s

def storeBytes : StoreOp → Nat
  | .sb => 1
  | .sh | .fsh => 2
  | .sw | .fsw => 4
  | .sd | .fsd => 8

/-- Register a store takes its data from. -/
def storeData (op : StoreOp) (c : CoreSt) (rs2 : Reg) : Word :=
  match op with
  | .sb | .sh | .sw | .sd => c.rx rs2
  | .fsh | .fsw | .fsd => c.rf rs2

/-- STORE (spec/10 R245): a release write at `.die`, where the store buffer keeps it in order, or at the scope that `scx` sets (R248). -/
def execStore (op : StoreOp) (rs1 rs2 : Reg) (imm : BitVec 12) (s : State) : Host.Outcome State Fault Refusal :=
  runScalar (parcelOf (.store op rs1 rs2 imm)) (do
    let c ← me
    let va := c.ea rs1 imm
    aligned va (storeBytes op)
    if wide c.scope then release c.scope
    storeM va (storeBytes op) (storeData op c rs2).toNat c.scope
    advance) s

/-! ### Atomics (spec/10 R249) -/

/-- Bytes of a `.w` or `.d` atomic. -/
def dblBytes (dbl : Bool) : Nat := if dbl then 8 else 4

/-- The operations a host-bulk page takes, R74. -/
def amoBulk : AmoOp → Bool
  | .add | .swap => true
  | _ => false

/-- AMO. -/
def execAmo (op : AmoOp) (dbl aq rl : Bool) (rd rs1 rs2 : Reg) (s : State) : Host.Outcome State Fault Refusal :=
  runScalar (parcelOf (.amo op dbl aq rl rd rs1 rs2)) (do
    let c ← me
    let n := dblBytes dbl
    let va := c.rx rs1
    aligned va n
    if rl then release c.scope
    let arg := (c.rx rs2).toNat % 2 ^ (8 * n)
    let old ← rmwM va (amoBulk op && Config.hostAtomicOps n) (.amo op n arg)
    acquireNow (if aq then Scope.far c.scope else .die)
    wxM rd (sextBytes n old)
    advance) s

/-- Places that take LR and SC: not host memory, R73. -/
def Place.takesLrSc (p : Place) : Bool :=
  match p with
  | .scratch .. => true
  | .hbm .. => true
  | _ => false

/-- LR: reserves the aligned 16 bytes. It is no store and takes no store number (notes/assumptions/15.md). -/
def execLr (dbl aq rl : Bool) (rd rs1 : Reg) (s : State) : Host.Outcome State Fault Refusal :=
  runScalar (parcelOf (.lr dbl aq rl rd rs1)) (do
    let c ← me
    let n := dblBytes dbl
    let va := c.rx rs1
    aligned va n
    if rl then release c.scope
    watch va n false
    let p ← resolveM va n .load
    if !p.takesLrSc then refuse 0x07 va
    drainM
    edgeM (fun w => w.place.meets w.n p n)
    openPlace p n va
    let (mem, _) ← atomRead p n false
    let old := leNat mem
    heedM p n .die
    modMe (fun c => { c with resv := some p.unit })
    acquireNow (if aq then Scope.far c.scope else .die)
    wxM rd (sextBytes n old)
    advance) s

/-- SC: stores and answers 0 when the reservation is held, else answers 1; the reservation ends (notes/assumptions/15.md). -/
def execSc (dbl aq rl : Bool) (rd rs1 rs2 : Reg) (s : State) : Host.Outcome State Fault Refusal :=
  runScalar (parcelOf (.sc dbl aq rl rd rs1 rs2)) (do
    let c ← me
    let n := dblBytes dbl
    let va := c.rx rs1
    aligned va n
    if rl then release c.scope
    watch va n true
    let p ← resolveM va n .store
    if !p.takesLrSc then refuse 0x07 va
    drainM
    edgeM (fun w => w.place.meets w.n p n)
    openPlace p n va
    let c1 ← me
    if c1.resv = some p.unit then
      let seq := (← get).sequence c1.id p n
      tryM (fun s => s.perform s.cur c1.win.openWin c1.storeSeq.toNat p (leBytes n (c.rx rs2).toNat) true (logFormAt va) true)
      updM (fun s => s.markStore s.cur p n seq)
      let _ ← takeSeq
      wxM rd 0
    else wxM rd 1
    modMe (fun c => { c with resv := none })
    acquireNow (if aq then Scope.far c.scope else .die)
    advance) s

/-! ### Fences -/

/-- `fence` and `fence.tso`: with nonempty predecessor and successor sets, `ofence` at its scope (spec/10 R249). -/
def execFence (fm pred succ : BitVec 4) (s : State) : Host.Outcome State Fault Refusal :=
  runScalar (parcelOf (.fence fm pred succ)) (do
    let c ← me
    if pred ≠ 0 ∧ succ ≠ 0 then
      release c.scope
      acquireNow c.scope
    advance) s

/-- `fence.i` discards every parcel fetched before it; every write visible to the core has reached its memory, since parcels
fetched after it see them and a fetch is served from no buffer (spec/10 R255). -/
def execFenceI (s : State) : Host.Outcome State Fault Refusal :=
  runScalar (parcelOf .fenceI) (do
    drainM
    edgeM (fun _ => true)
    modMe (fun c => { c with ibuf := [] })
    advance) s

/-! ### System -/

def execEcall (s : State) : Host.Outcome State Fault Refusal := runScalar (parcelOf .ecall) (trap0 0x04) s

def execEbreak (s : State) : Host.Outcome State Fault Refusal := runScalar (parcelOf .ebreak) (trap0 0x03) s

/-- The value a CSR read gives; reads of `time`, `cycle` and `cbits` are inputs (spec/14 R346). -/
def csrReadM (n : Nat) : M Word := do
  let s ← get
  let v := s.csrGet s.cur n
  if n = 0xC00 ∨ n = 0xC01 then inputM 0x01 v
  else if n = 0xCC0 then inputM 0x04 v
  else return v

/-- CSR_ACCESS: `csrrw`, `csrrs`, `csrrc` and their immediate forms (spec/02 R29, R42, spec/09 R238, R239); a format
register refuses an image that breaks spec/07 R149. -/
def execCsrAccess (op : CsrOp) (useImm : Bool) (csr : BitVec 12) (rd src : Reg) (s : State) : Host.Outcome State Fault Refusal :=
  runScalar (parcelOf (.csrAccess op useImm csr rd src)) (do
    let c ← me
    let n := csr.toNat
    let writes := op = .rw ∨ src ≠ 0
    if !csrExists n ∨ (csrRuntime n ∧ !c.runtime) ∨ (csrReadOnly n ∧ writes) then illegal
    let arg : Word := if useImm then src.setWidth 64 else c.rx src
    let old ← csrReadM n
    if writes then
      let v := match op with
        | .rw => arg
        | .rs => old ||| arg
        | .rc => old &&& ~~~arg
      let bad := if 0x800 ≤ n ∧ n ≤ 0x807 then Fmt.invalidReason (v &&& 0xFFFFF#64) else 0
      if bad ≠ 0 then trapR 0x13 bad
      modMe (fun c => c.putCsr n v)
    wxM rd old
    advance) s

/-! ### Floating point -/

/-- Write a float code, NaN-boxed. -/
def putF (fmt : FFmt) (rd : Reg) (r : Nat × Nat) : M Unit := do
  wfM rd (nanBox fmt r.1)
  flagsM r.2

/-- A read f-register as a code of a format. -/
def rfF (fmt : FFmt) (r : Reg) : M Nat := do
  let v ← rfM r
  return unbox fmt v

def arithEval (op : FArith) (F : Fmt) (a b : Nat) (rm : RM) : Nat × Nat :=
  match op with
  | .add => fpAdd F a b rm
  | .sub => fpAdd F a (fpFlip F b) rm
  | .mul => fpMul F a b rm
  | .div => fpDiv F a b rm

/-- Fused forms: the product is negated for `nmsub` and `nmadd`, the addend is negated for `msub` and `nmadd`. A NaN
stays NaN under negation. -/
def fmaEval (op : FmaOp) (F : Fmt) (a b c : Nat) (rm : RM) : Nat × Nat :=
  match op with
  | .madd => fpFma F a b c rm
  | .msub => fpFma F a b (fpFlip F c) rm
  | .nmsub => fpFma F (fpFlip F a) b c rm
  | .nmadd => fpFma F (fpFlip F a) b (fpFlip F c) rm

/-- Sign injection on codes. -/
def sgnEval (op : FSgn) (F : Fmt) (a b : Nat) : Nat :=
  let k := F.eb + F.mb
  let sa := a / 2 ^ k % 2
  let sb := b / 2 ^ k % 2
  let s := match op with
    | .sgnj => sb
    | .sgnjn => 1 - sb
    | .sgnjx => (sa + sb) % 2
  s * 2 ^ k + a % 2 ^ k

/-- The effect of an instruction of F, D or Zfh before the pc moves. -/
def floatRun : FloatOp → M Unit
  | .fma op fmt rd rs1 rs2 rs3 rm => do
    let m ← rmM rm
    let a ← rfF fmt rs1
    let b ← rfF fmt rs2
    let c ← rfF fmt rs3
    putF fmt rd (fmaEval op (fpFmt fmt) a b c m)
  | .arith op fmt rd rs1 rs2 rm => do
    let m ← rmM rm
    let a ← rfF fmt rs1
    let b ← rfF fmt rs2
    putF fmt rd (arithEval op (fpFmt fmt) a b m)
  | .sqrt fmt rd rs1 rm => do
    let m ← rmM rm
    let a ← rfF fmt rs1
    putF fmt rd (fpSqrt (fpFmt fmt) a m)
  | .sgnj op fmt rd rs1 rs2 => do
    let a ← rfF fmt rs1
    let b ← rfF fmt rs2
    wfM rd (nanBox fmt (sgnEval op (fpFmt fmt) a b))
  | .minmax mx fmt rd rs1 rs2 => do
    let a ← rfF fmt rs1
    let b ← rfF fmt rs2
    putF fmt rd (fpMinMax (fpFmt fmt) mx a b)
  | .cmp op fmt rd rs1 rs2 => do
    let a ← rfF fmt rs1
    let b ← rfF fmt rs2
    let r := fpCmp (fpFmt fmt) op a b
    wxM rd (bool64 r.1)
    flagsM r.2
  | .toInt ity fmt rd rs1 rm => do
    let m ← rmM rm
    let a ← rfF fmt rs1
    let r := fpToInt (fpFmt fmt) ity a m
    wxM rd r.1
    flagsM r.2
  | .ofInt ity fmt rd rs1 rm => do
    let m ← rmM rm
    let a ← rxM rs1
    putF fmt rd (fpOfInt (fpFmt fmt) ity a m)
  | .cvt dst src rd rs1 rm => do
    let m ← rmM rm
    let a ← rfF src rs1
    putF dst rd (fpCvt (fpFmt dst) (fpFmt src) a m)
  | .mvX fmt rd rs1 => do
    let v ← rfM rs1
    wxM rd (sextNat (fpWidth fmt) v.toNat)
  | .mvF fmt rd rs1 => do
    let v ← rxM rs1
    wfM rd (nanBox fmt v.toNat)
  | .cls fmt rd rs1 => do
    let a ← rfF fmt rs1
    wxM rd (fpClass (fpFmt fmt) a)

/-- FLOAT_OP. -/
def execFloatOp (op : FloatOp) (s : State) : Host.Outcome State Fault Refusal :=
  runScalar (parcelOf (.floatOp op)) (do
    floatRun op
    advance) s

/-! ### Branches and jumps -/

def brEval (op : BrOp) (a b : Word) : Bool :=
  match op with
  | .beq => a == b
  | .bne => a != b
  | .blt => a.slt b
  | .bge => !a.slt b
  | .bltu => a.ult b
  | .bgeu => !a.ult b

/-- The core whose registers decide a branch: the leader of the gang (spec/11 R282). -/
def deciderM : M CoreSt := fun s => .ok (s.core (s.leader s.cur), s)

/-- Byte offset of a B-type immediate (offset[12:1]). -/
def brOff (imm : BitVec 12) : Word := sextNat 13 (imm.toNat * 2)

/-- Set the pc; a target that is not 4-byte aligned raises MISALIGNED at the transfer. -/
def jumpM (t : Word) : M Unit := do
  aligned t 4
  modMe (fun c => { c with pc := t })

/-- BRANCH_JUMP. -/
def execBranchJump (op : BranchJump) (s : State) : Host.Outcome State Fault Refusal :=
  runScalar (parcelOf (.branchJump op)) (do
    let c ← me
    match op with
    | .br op rs1 rs2 imm =>
      let d ← deciderM
      if brEval op (d.rx rs1) (d.rx rs2) then jumpM (c.pc + brOff imm) else advance
    | .jal rd imm =>
      let link := c.pc + 4
      jumpM (c.pc + sextNat 21 (imm.toNat * 2))
      wxM rd link
    | .jalr rd rs1 imm =>
      let d ← deciderM
      let link := c.pc + 4
      jumpM ((d.rx rs1 + c.imm12 imm) &&& ~~~1#64)
      wxM rd link) s

end Sys2Proof.Machine
end

