-- ==== Sys2Proof/Machine/Sync.lean ====
section
/-! DEFINITION. Ordering and atomics, major opcode custom-0 (spec/09 R211 to R220, spec/02 R35 to R37). -/

namespace Sys2Proof.Machine

/-- `lda`: an acquire load (R211). -/
def execLda (sz : Size) (sc : Scope) (rd rs1 : Reg) (imm : BitVec 7) (s : State) : Host.Outcome State Fault Refusal :=
  runScalar (parcelOf (.lda sz sc rd rs1 imm)) (do
    let c ← me
    let n := Size.bytes sz
    let va := c.rx rs1 + imm.signExtend 64
    aligned va n
    let v ← loadM va n sc
    acquire sc
    wxM rd (sextBytes n v)
    advance) s

/-- `stl`: a release store (R212). -/
def execStl (sz : Size) (sc : Scope) (rs1 rs2 : Reg) (imm : BitVec 7) (s : State) : Host.Outcome State Fault Refusal :=
  runScalar (parcelOf (.stl sz sc rs1 rs2 imm)) (do
    let c ← me
    let n := Size.bytes sz
    let va := c.rx rs1 + imm.signExtend 64
    aligned va n
    release sc
    storeM va n (c.rx rs2).toNat sc
    advance) s

/-- `ofence`: release then acquire (R213). -/
def execOfence (sc : Scope) (s : State) : Host.Outcome State Fault Refusal :=
  runScalar (parcelOf (.ofence sc)) (do
    release sc
    acquireNow sc
    advance) s

/-- The part of `xfence` that waits for this core's writes: they are performed at their memory (R215). -/
def fenceSe : M Unit := do
  drainM
  let id ← myId
  edgeM (fun w => w.asid == id.asid && w.l == id.l)

/-- The part of `xfence` that shows engine writes to this core's accesses (R215, spec/10 R251). -/
def fenceEl : M Unit := modMe (fun c => { c with stale := [] })

/-- `xfence` (R215). -/
def execXfence (dir : XDir) (s : State) : Host.Outcome State Fault Refusal :=
  runScalar (parcelOf (.xfence dir)) (do
    match dir with
    | .se => fenceSe
    | .el => fenceEl
    | .both =>
      fenceSe
      fenceEl
    advance) s

/-- The unit of the executing core with one more prefix, and the pc after it. -/
def CoreSt.addPfx (c : CoreSt) (imx : Option (BitVec 20)) (scx : Option Scope) : CoreSt :=
  let u := match c.pfx with
    | some p => p
    | none => ⟨c.pc, none, none⟩
  { c with pfx := some { u with imx := imx <|> u.imx, scx := scx <|> u.scx }, pc := c.pc + 4 }

/-- `scx`: the scope of the next instruction; a second one in a unit is ILLEGAL_PREFIX (spec/02 R36, R37). -/
def execScx (sc : Scope) (s : State) : Host.Outcome State Fault Refusal :=
  runPrefix (parcelOf (.scx sc)) (do
    let c ← me
    if ((c.pfx.bind (fun p => p.scx))).isSome then trap0 0x02
    modMe (fun c => c.addPfx none (some sc))) s

/-- `imx`: the upper immediate of the next instruction; a second one in a unit is ILLEGAL_PREFIX (spec/02 R35, R37). -/
def execImx (p : BitVec 20) (s : State) : Host.Outcome State Fault Refusal :=
  runPrefix (parcelOf (.imx p)) (do
    let c ← me
    if c.ix.isSome then trap0 0x02
    modMe (fun c => c.addPfx (some p) none)) s

/-- A `redadd` target: host memory and device registers refuse with code 0x07 after retirement (R217, R218, spec/03 R73). -/
def redTarget (r : Except Nat Place) : Except Nat Place :=
  match r with
  | .ok (.hostBulk _) => .error 0x07
  | .ok (.hostCoh _) => .error 0x07
  | .ok (.dev _) => .error 0x07
  | r => r

/-- The three `redadd` forms (R218). -/
def redaddM (va : Word) (n v : Nat) (kind : WriteKind) : M Unit := do
  aligned va n
  watch va n true
  walkM va
  let s ← get
  let r := s.resolve s.cur (s.core s.cur).runtime va n .store
  match r with
  | .ok (.reg _) => refuse 0x07 va
  | _ => bufferM va n v kind (redTarget r)

def execRedaddW (rs1 rs2 : Reg) (s : State) : Host.Outcome State Fault Refusal :=
  runScalar (parcelOf (.redaddW rs1 rs2)) (do
    let c ← me
    redaddM (c.rx rs1) 4 ((c.rx rs2).toNat % 2 ^ 32) .addW
    advance) s

def execRedaddD (rs1 rs2 : Reg) (s : State) : Host.Outcome State Fault Refusal :=
  runScalar (parcelOf (.redaddD rs1 rs2)) (do
    let c ← me
    redaddM (c.rx rs1) 8 (c.rx rs2).toNat .addD
    advance) s

def execRedaddF (rs1 rs2 : Reg) (s : State) : Host.Outcome State Fault Refusal :=
  runScalar (parcelOf (.redaddF rs1 rs2)) (do
    let c ← me
    redaddM (c.rx rs1) 4 (unbox .s (c.rf rs2)) .addF
    advance) s

/-- The operations a host-bulk page takes, spec/03 R74. -/
def samoBulk : SamoOp → Bool
  | .add | .swap | .cas => true
  | _ => false

/-- `samo` (R216, R217). -/
def execSamo (op : SamoOp) (sc : Scope) (off dbl : Bool) (rd rs1 rs2 : Reg) (s : State) : Host.Outcome State Fault Refusal :=
  runScalar (parcelOf (.samo op sc off dbl rd rs1 rs2)) (do
    let c ← me
    let n := dblBytes dbl
    let va := c.rx rs1 + (if off then word n else 0)
    aligned va n
    let m := 2 ^ (8 * n)
    let cmp := (c.rx rd).toNat % m
    let arg := (c.rx rs2).toNat % m
    release sc
    let old ← rmwM va (samoBulk op && Config.hostAtomicOps n) (.samo op n cmp arg)
    acquireNow (Scope.far sc)
    wxM rd (sextBytes n old)
    advance) s

end Sys2Proof.Machine
end

