-- ==== Sys2Proof/Machine/Sched.lean ====
section
/-! DEFINITION. Task records, run pools, counters and the waiting-task table (spec/11 R259 to R266), and the own-scratchpad
reads that capture records, messages and command blocks. -/

namespace Sys2Proof.Machine

/-! ### Task records (R259, R261) -/

namespace TaskRec

def gang (r : TaskRec) : Bool := bit r.d0 58
def prio (r : TaskRec) : Nat := bits r.d0 57 56
def aff (r : TaskRec) : Nat := bits r.d0 55 54
def pc (r : TaskRec) : Nat := bits r.d0 53 0
def ccen (r : TaskRec) : Bool := bit r.d1 52
def sq (r : TaskRec) : Nat := bits r.d1 51 48
def ccid (r : TaskRec) : Nat := bits r.d1 47 36
def grp (r : TaskRec) : Nat := bits r.d1 35 24
def lcn (r : TaskRec) : Nat := bits r.d1 23 0

/-- Record in 64 bytes of memory; `pub` is the publisher. -/
def ofBytes (bs : List Byte) (pub : Nat) : TaskRec :=
  let d (i : Nat) : Word := word (leNat ((bs.drop (8 * i)).take 8))
  ⟨d 0, d 1, [d 2, d 3, d 4, d 5, d 6, d 7], pub⟩

end TaskRec

/-- Stage queue `q` is configured by the launch (spec/12 R294). -/
def Ctx.qen (c : Ctx) (q : Nat) : Bool := bit c.par.sc0 (48 + q)

/-- Queue capacity C (spec/12 R291). -/
def Ctx.qcap (c : Ctx) : Nat := 2 ^ bits c.par.sc0 47 43

/-- Reason of R261 for which a record is invalid; 0 for none. -/
def Ctx.recReason (c : Ctx) (r : TaskRec) : Nat :=
  if bits r.d0 63 59 != 0 || bits r.d1 63 53 != 0 then 1
  else if r.pc % 4 != 0 || bit r.d0 53 then 2
  else if r.lcn ≥ c.n then 3
  else if !r.ccen && r.ccid != 0 then 4
  else if r.aff == 3 && !c.qen r.sq then 5
  else if r.gang && (r.lcn % 4 != 0 || r.aff > 1) then 6
  else 0

/-! ### Own-scratchpad reads -/

/-- Bytes of the own scratchpad as loads of the core: its earlier stores to them are seen (spec/09 R226, spec/11 R268). -/
def ownRead (a n : Nat) : M (List Byte) := do
  let c ← me
  let p := Place.scratch c.id.l a
  if c.sb.any (fun w => w.place.meets w.n p n) then drainM
  openPlace p n (word (0xFFFFFFFFFFF00000 + a))
  readAt p n

/-- Address checks of a record at own-scratchpad address `a` (R268). -/
def recAddr (a : Word) : M Unit := do
  let x ← myCtx
  aligned a 64
  if a.toNat ≥ 2 ^ 20 ∨ a.toNat + 64 > x.par.fp then refuse 0x0A a

/-! ### Run pools (R262) -/

/-- Records in transit to a die's pool; their places there are taken when they are published. -/
def Transit.recsTo (d : Nat) : Transit → Nat
  | .recs _ t rs => if t = d then rs.length else 0
  | .entries .. => 0

/-- A die's pool has no room for `n` more records. -/
def State.poolLacks (s : State) (d n : Nat) : Bool :=
  decide ((s.die d).pool.length + (s.transit.map (Transit.recsTo d)).sum + n > 8192)

/-- A die's pool is full. -/
def State.poolFull (s : State) (d : Nat) : Bool := s.poolLacks d 1

/-- A record becomes runnable: it enters the pool of the die that holds its `lcn` (or that the balancer gave it, spec/12
R304), at once when published there, else after its transit. -/
def State.makeRunnable (s : State) (asid src : Nat) (r : TaskRec) (home : Option Nat) (rels : List Rel := []) : State :=
  let d := home.getD ((s.ctx asid).dieOf r.lcn)
  let p : PoolRec := ⟨asid, r, 0, false, d, rels⟩
  if d = src then s.modDie d (fun x => { x with pool := x.pool ++ [p] })
  else { s with transit := s.transit ++ [.recs asid d [p]] }

/-! ### Counters (R265) -/

/-- Launch from the waiting table in arm order: `v` is the counter; what is left of it, the launched, the kept. -/
def launchArmed (v ctr : Nat) : List Armed → Nat × List Armed × List Armed
  | [] => (v, [], [])
  | a :: as =>
    if a.ctr = ctr ∧ v ≥ a.th then
      let (v', ls, ks) := launchArmed (v - a.th) ctr as
      (v', a :: ls, ks)
    else
      let (v', ls, ks) := launchArmed v ctr as
      (v', ls, a :: ks)

/-- What the increments of a counter of the core have carried so far. -/
def CoreSt.ctrCarried (c : CoreSt) (ctr : Nat) : List Rel := (c.ctrRels.filter (fun p => p.1 == ctr)).map Prod.snd

/-- `on_increment(c, amount)` at a core (R265): `rels` is what the increment carries. What it launches carries the release of its `arm`
and those of every increment made before (R266). -/
def State.increment (s : State) (id : CoreId) (ctr amount : Nat) (rels : List Rel := []) : State :=
  let c := s.core id
  let carried := rels ++ c.ctrCarried ctr
  let (v, ls, ks) := launchArmed (min (c.ctr ctr + amount) 0xFFFFFFFF) ctr c.waiting
  let s := s.modCore id (fun c => { (c.setCtr ctr v) with
    waiting := ks, ctrRels := (rels.filter (fun r => !c.ctrRels.contains (ctr, r))).map (fun r => (ctr, r)) ++ c.ctrRels })
  ls.foldl (fun s a => s.makeRunnable id.asid (s.dieOf id) a.rec_ none (a.rels ++ carried)) s

/-- The value of a recorded increment (spec/14 R346). -/
def incrValue (ctr amount : Nat) : Word := word (ctr * 2 ^ 32 + amount % 2 ^ 32)

/-- The pools have room for every record that an increment launches. -/
def State.launchRoom (s : State) (id : CoreId) (ctr amount : Nat) : Bool :=
  let c := s.core id
  let dies := (launchArmed (min (c.ctr ctr + amount) 0xFFFFFFFF) ctr c.waiting).2.1.map (fun a => (s.ctx id.asid).dieOf a.rec_.lcn)
  dies.all (fun d => !s.poolLacks d (dies.countP (fun e => e == d)))

/-- An increment made by another agent than the core itself: it waits while a pool is full (R262); recorded while recording is on; in a replay it waits for the
count at which it was recorded (spec/14 R347). -/
def State.incrementRec (s : State) (id : CoreId) (ctr amount : Nat) (rels : List Rel := []) (who : Nat := 0) : Try :=
  let c := s.core id
  if !s.launchRoom id ctr amount then .blocked s
  else if c.replay.isSome then
    match c.inputs.find? (fun i => !i.used && some i.win == c.win.openWin && i.kind == 0x03 && i.val == incrValue ctr amount) with
    | some i =>
      if i.count = c.dicnt then
        .done ((s.modCore id (fun c => { c with
          inputs := c.inputs.map (fun j => if j = i then { j with used := true } else j) })).increment id ctr amount rels)
      else .blocked s
    | none => .blocked s
  else
    match s.recordInput id 0x03 (incrValue ctr amount) who with
    | .blocked s => .blocked s
    | .done s => .done (s.increment id ctr amount rels)

/-- Receiver of a message. -/
def Msg.dst (m : Msg) : Nat := bits m.target 23 0

/-- Post an increment towards the core that holds `dst`. -/
def State.postIncr (s : State) (id : CoreId) (dst ctr amount : Nat) (remote : Bool) (rels : List Rel := []) : State :=
  let c := s.core id
  { (s.modCore id (fun c => { c with sentNo := c.sentNo + 1, rqout := if remote then c.rqout + 1 else c.rqout })) with
    incrs := s.incrs ++ [⟨id.asid, id.l, dst, ctr, amount, remote, c.sentNo, rels⟩] }

end Sys2Proof.Machine
end

