-- ==== Sys2Proof/Machine/Tasks.lean ====
section
/-! DEFINITION. Tasks, counters and the runtime level: `spawn`, `arm`, `sig`, `tdone`, `tyield` (spec/11 R267 to R272),
`tcall` and `tret` (spec/09 R236, R237). -/

namespace Sys2Proof.Machine

/-- TASK_INVALID for a record that R261 refuses. -/
def validateRec (r : TaskRec) : M Unit := do
  let x ← myCtx
  if x.recReason r ≠ 0 then trapR 0x15 (x.recReason r)

/-- Wait for room in the run pool of a die. -/
def dieRoom (d : Nat) : M Unit := do
  let s ← get
  if s.poolFull d then waitM

/-- Wait for room in the run pool that a record enters. -/
def poolRoom (r : TaskRec) : M Unit := do
  let x ← myCtx
  dieRoom (x.dieOf r.lcn)

/-- Make a record runnable, published by the executing core, with what its publication carries. -/
def publish (r : TaskRec) (home : Option Nat) (rels : List Rel) : M Unit :=
  updM (fun s => s.makeRunnable s.cur.asid (s.dieOf s.cur) r home rels)

/-- Read a task record at an own-scratchpad address. -/
def loadRec (a : Word) : M TaskRec := do
  recAddr a
  let bs ← ownRead a.toNat 64
  let id ← myId
  return TaskRec.ofBytes bs id.l

/-- `release(sc)` for something that carries it. -/
def releaseFor (sc : Scope) : M (List Rel) := do
  release sc
  let s ← get
  return s.releaseOf s.cur sc

/-- `release(S_ctx)`. -/
def releaseCtx : M (List Rel) := do
  let x ← myCtx
  releaseFor x.sctx

/-- `spawn` (R268). -/
def execSpawn (rs1 : Reg) (s : State) : Host.Outcome State Fault Refusal :=
  runScalar (parcelOf (.spawn rs1)) (do
    let a ← rxM rs1
    let r ← loadRec a
    validateRec r
    poolRoom r
    let rels ← releaseCtx
    publish r none rels
    advance) s

/-- `arm` (R269). -/
def execArm (rs1 rs2 : Reg) (s : State) : Host.Outcome State Fault Refusal :=
  runScalar (parcelOf (.arm rs1 rs2)) (do
    let a ← rxM rs1
    let t ← rxM rs2
    let r ← loadRec a
    if bits t 62 44 ≠ 0 then trapR 0x15 1
    validateRec r
    let k := bits t 11 0
    let th := bits t 43 12
    let c ← me
    if c.ctr k < th ∧ c.waiting.length ≥ 256 then trap0 0x16
    if th ≤ c.ctr k then poolRoom r
    let rels ← releaseCtx
    if th ≤ c.ctr k then
      modMe (fun c => c.setCtr k (c.ctr k - th))
      publish r none (rels ++ c.ctrCarried k)
    else modMe (fun c => { c with waiting := c.waiting ++ [⟨r, k, th, rels⟩] })
    if bit t 63 then modMe (fun c => { c with cont := true })
    advance) s

/-- `sig` (R270). -/
def execSig (rs1 rs2 : Reg) (s : State) : Host.Outcome State Fault Refusal :=
  runScalar (parcelOf (.sig rs1 rs2)) (do
    let t ← rxM rs1
    let v ← rxM rs2
    let x ← myCtx
    let id ← myId
    if bits t 63 36 ≠ 0 ∨ bits v 63 32 ≠ 0 then trapR 0x15 1
    let dst := bits t 23 0
    if dst ≥ x.n then trapR 0x15 3
    rqRoom
    let rels ← releaseFor (if x.dieOf dst = x.dieOf id.l then .die else .pkg)
    let _ ← takeRq
    updM (fun s => s.postIncr id dst (bits t 35 24) v.toNat true rels)
    advance) s

/-- The core becomes idle; a gang splits (R271, R272, R282). The trace record shows doubleword 0 as `d0`. -/
def goIdle (yield : Bool) (d0 : Word) : M Unit := do
  updM (fun s => s.trace 0x04 s.cur d0 (word ((if yield then 2 ^ 24 else 0) + (s.core s.cur).lcnOrNone)))
  updM (fun s => s.splitGang s.cur)
  modMe (fun c => { c with task := none, cont := false })

/-- A member of a gang record other than the one that signals (R284). -/
def TaskRec.silent (r : TaskRec) : Bool := r.gang && r.lcn % 4 != 0

/-- `tdone` (R271). -/
def execTdone (s : State) : Host.Outcome State Fault Refusal :=
  runScalar (parcelOf .tdone) (do
    let c ← me
    match c.task with
    | some r =>
      if r.ccen && !r.silent then
        let rels ← releaseCtx
        let id ← myId
        updM (fun s => s.postIncr id r.pub r.ccid 1 false rels)
    | none => pure ()
    advance
    goIdle false ((c.task.map TaskRec.d0).getD 0)) s

/-- The record a `tyield` makes runnable: the thread's record with a new start and arguments. A member of a gang record
continues alone, and only the signalling one keeps its completion counter (notes/assumptions/17.md). -/
def TaskRec.yielded (r : TaskRec) (pc : Word) (args : List Word) : TaskRec :=
  let d0 := word (r.d0.toNat / 2 ^ 54 % 16 * 2 ^ 54 + pc.toNat % 2 ^ 54)
  let d1 := if r.silent then word (r.d1.toNat % 2 ^ 36) else r.d1
  { r with d0, d1, args }

/-- `tyield` (R272). -/
def execTyield (s : State) : Host.Outcome State Fault Refusal :=
  runScalar (parcelOf .tyield) (do
    let c ← me
    let id ← myId
    let s ← get
    match c.task with
    | some r =>
      if c.cont then
        advance
        goIdle true r.d0
      else
        let r' := r.yielded (c.pc + 4) [c.rx 10, c.rx 11, c.rx 12, c.rx 13, c.rx 14, c.rx 15]
        dieRoom (s.dieOf id)
        publish r' (some (s.dieOf id)) []
        advance
        goIdle true r'.d0
    | none =>
      advance
      goIdle true 0) s

/-- `tcall` (spec/09 R236). -/
def execTcall (rd rs1 : Reg) (s : State) : Host.Outcome State Fault Refusal :=
  runScalar (parcelOf (.tcall rd rs1)) (do
    let c ← me
    if c.runtime then illegal
    let k := (c.rx rs1).toNat
    if k ≥ bits c.csr.rtsvc 63 56 then trap0 0x14
    wxM rd (c.pc + 4)
    modMe (fun c => { c with
      csr := { c.csr with tepc := epcOf (c.pc + 4), tstat := 2 }
      runtime := true
      pc := sext54 (bits c.csr.rtsvc 53 6 * 64 + 64 * k) })) s

/-- `tret` (spec/09 R237). -/
def execTret (s : State) : Host.Outcome State Fault Refusal :=
  runScalar (parcelOf .tret) (do
    let c ← me
    if !c.runtime then illegal
    modMe (fun c => c.doReturn)) s

end Sys2Proof.Machine
end

