-- ==== Sys2Proof/Machine/Groups.lean ====
section
/-! DEFINITION. Groups, named barriers, votes, the superstep barrier and gangs (spec/11 R273 to R284). -/

namespace Sys2Proof.Machine

/-! ### Groups (R273) -/

def Ctx.members (c : Ctx) (g : Nat) : List Nat := (List.range c.n).filter (fun l => c.inGroup g l)

/-- Group operand of `join` and `leave`. -/
def groupArg (v : Word) : M Nat := do
  if bits v 63 12 ≠ 0 ∨ bits v 11 0 = 0 then trap0 0x17
  return bits v 11 0

def modMyCtx (f : Ctx → Ctx) : M Unit := updM (fun s => s.modCtx s.cur.asid f)

def Ctx.join (c : Ctx) (g l : Nat) : Ctx := if c.groups.contains (g, l) then c else { c with groups := c.groups ++ [(g, l)] }

/-- A member that leaves drops out of the snapshots of open barriers (R275). -/
def Ctx.leave (c : Ctx) (g l : Nat) : Ctx :=
  { c with
    groups := c.groups.filter (fun p => p != (g, l))
    barriers := c.barriers.map (fun b => if b.grp = g then { b with members := b.members.filter (fun m => m != l) } else b) }

def execJoin (rs1 : Reg) (s : State) : Host.Outcome State Fault Refusal :=
  runScalar (parcelOf (.join rs1)) (do
    let g ← groupArg (← rxM rs1)
    let c ← me
    modMyCtx (fun x => x.join g c.lcn)
    advance) s

def execLeave (rs1 : Reg) (s : State) : Host.Outcome State Fault Refusal :=
  runScalar (parcelOf (.leave rs1)) (do
    let g ← groupArg (← rxM rs1)
    let c ← me
    modMyCtx (fun x => x.leave g c.lcn)
    advance) s

/-! ### Named barriers (R274 to R277) -/

namespace Barrier

def dsc (d : Word) : Bool := bit d 20
def gthOf (d : Word) : Bool := bit d 19
def nameOf (d : Word) : Nat := bits d 18 12
def grpOf (d : Word) : Nat := bits d 11 0

end Barrier

/-- Scope of a barrier. -/
def barScope (d : Word) : Scope := if Barrier.dsc d then .die else .pkg

/-- The arrival at a name held for logical number `l`. -/
def State.arrivalOf (s : State) (asid l name : Nat) : Option Arrival :=
  (s.core ⟨asid, l⟩).arrivals.find? (fun a => a.name == name)

/-- Remove an arrival. -/
def State.dropArrival (s : State) (asid l name : Nat) : State :=
  s.modCore ⟨asid, l⟩ (fun c => { c with arrivals := c.arrivals.filter (fun a => a.name != name) })

/-- An arrival's contribution to a gathered record: counters 0 to 7 and `nfsticky` (spec/07 R169). -/
def CoreSt.gathered (c : CoreSt) : List Nat := c.csr.ev.toList.map (fun v => v.toNat) ++ [c.csr.nfs.toNat % 2]

/-- Add contributions: saturating sums, OR of the flag. -/
def addGathered (a b : List Nat) : List Nat :=
  (List.range 9).map (fun i =>
    if i < 8 then min (a.getD i 0 + b.getD i 0) 0xFFFFFFFF else max (a.getD i 0) (b.getD i 0))

/-- The 40-byte record. -/
def gatherRecord (e : List Nat) : List Byte := (List.range 8).flatMap (fun i => leBytes 4 (e.getD i 0)) ++ leBytes 8 (e.getD 8 0)

/-- Result of a vote: the largest ballot and how many cast it. -/
def voteResult (b : List Nat) : Word :=
  let m := b.foldl max 0
  word (b.countP (fun x => x == m) * 2 ^ 32 + m)

/-- Arrive at a barrier, with what the arrival releases. -/
def Ctx.arriveAt (c : Ctx) (grp name l : Nat) (gth : Bool) (cen : Option Nat) (ballot : Option Nat) (ev : List Nat)
    (rels : List Rel) : Ctx :=
  let fresh : Barrier := ⟨grp, name, gth, c.members grp, [], [], [], [], false, []⟩
  let add (b : Barrier) : Barrier := { b with
    arrived := b.arrived ++ [l]
    cens := b.cens ++ (cen.map (fun k => (l, k))).toList
    ballots := b.ballots ++ ballot.toList
    evs := if gth then addGathered b.evs ev else b.evs
    rels := b.rels ++ rels }
  if c.barriers.any (fun b => b.grp == grp && b.name == name) then
    { c with barriers := c.barriers.map (fun b => if b.grp = grp ∧ b.name = name then add b else b) }
  else { c with barriers := c.barriers ++ [add fresh] }

/-- The part of `arrive` after the reserved bits: checks 0x02 to 0x05 and the arrival itself. `addr` is the record's
address when it is checked; `waits` says that the instruction stays to wait. -/
def arriveM (d : Word) (gth : Bool) (addr : Option Nat) (cen ballot : Option Nat) (waits : Bool) : M Unit := do
  let s ← get
  let c ← me
  let x ← myCtx
  let g := Barrier.grpOf d
  let name := Barrier.nameOf d
  let l := c.lcn
  if !x.inGroup g l then trapR 0x18 2
  if (s.arrivalOf x.asid l name).isSome then trapR 0x18 3
  if Barrier.dsc d ∧ (x.members g).any (fun m => x.dieOf m != x.dieOf ((x.members g).headD 0)) then trapR 0x18 4
  match addr with
  | some a => if a % 8 ≠ 0 ∨ a + 40 > x.par.fp then trapR 0x18 7
  | none => pure ()
  if x.barriers.any (fun b => b.grp == g && b.name == name && b.gth != gth) then trapR 0x18 5
  let rels ← releaseFor (barScope d)
  let id ← myId
  let c ← me
  modMyCtx (fun x => x.arriveAt g name l gth cen ballot c.gathered rels)
  updM (fun s => s.modCore ⟨id.asid, l⟩ (fun h => { h with
    arrivals := h.arrivals ++ [⟨name, g, gth, false, 0, [], [], if waits then some (id.l, c.pc) else none⟩] }))

/-- The executing instruction already arrived here and waits. -/
def waitingHere (d : Word) : M Bool := do
  let s ← get
  let c ← me
  match s.arrivalOf s.cur.asid c.lcn (Barrier.nameOf d) with
  | some a => return a.by_ == some (s.cur.l, c.pc)
  | none => return false

/-- Store a gathered record at an own-scratchpad address, as stores of the core. -/
def storeRecord (addr : Nat) (bs : List Byte) : M Unit := do
  let va := word (0xFFFFFFFFFFF00000 + addr)
  watch va 40 true
  storeM va 8 (leNat (bs.take 8))
  storeM (va + 8) 8 (leNat ((bs.drop 8).take 8))
  storeM (va + 16) 8 (leNat ((bs.drop 16).take 8))
  storeM (va + 24) 8 (leNat ((bs.drop 24).take 8))
  storeM (va + 32) 8 (leNat ((bs.drop 32).take 8))

/-- Wait for the open arrival at a name to complete. -/
def awaitArrival (name : Nat) : M Arrival := do
  let s ← get
  let c ← me
  match s.arrivalOf s.cur.asid c.lcn name with
  | some a => if a.done then return a else waitM
  | none => waitM

/-- The completed arrival at a name is taken. -/
def takeArrival (name : Nat) : M Unit := do
  let c ← me
  updM (fun s => s.dropArrival s.cur.asid c.lcn name)

/-- What a completed `bar` or `barw` does: the record is stored when it gathers, and then the arrival is taken, so that an
instruction stopped at the store finds it again. -/
def finishBar (gth : Bool) (addr : Nat) (a : Arrival) : M Unit := do
  if gth && a.gth then storeRecord addr a.record
  takeArrival a.name

/-- `bar` (R275, R276). -/
def execBar (rs1 rs2 : Reg) (s : State) : Host.Outcome State Fault Refusal :=
  runScalar (parcelOf (.bar rs1 rs2)) (do
    let d ← rxM rs1
    let v ← rxM rs2
    if bits d 63 21 ≠ 0 ∨ bits v 63 33 ≠ 0 then trapR 0x18 1
    let gth := Barrier.gthOf d
    if !(← waitingHere d) then
      arriveM d gth (if gth then some (bits v 19 0) else none) (if bit v 32 then some (bits v 31 20) else none) none true
    let a ← awaitArrival (Barrier.nameOf d)
    acquire (barScope d)
    acquireOf (barScope d) a.rels
    finishBar gth (bits v 19 0) a
    advance) s

/-- `bara`: arrives and retires at once. -/
def execBara (rs1 rs2 : Reg) (s : State) : Host.Outcome State Fault Refusal :=
  runScalar (parcelOf (.bara rs1 rs2)) (do
    let d ← rxM rs1
    let v ← rxM rs2
    if bits d 63 21 ≠ 0 ∨ bits v 63 33 ≠ 0 ∨ bits v 19 0 ≠ 0 then trapR 0x18 1
    arriveM d (Barrier.gthOf d) none (if bit v 32 then some (bits v 31 20) else none) none false
    advance) s

/-- `barw`: waits for the completion of the open arrival at a name. -/
def execBarw (rs1 rs2 : Reg) (s : State) : Host.Outcome State Fault Refusal :=
  runScalar (parcelOf (.barw rs1 rs2)) (do
    let d ← rxM rs1
    let v ← rxM rs2
    if bits d 63 21 ≠ 0 ∨ bits v 63 33 ≠ 0 ∨ bit v 32 then trapR 0x18 1
    let x ← myCtx
    let c ← me
    let s ← get
    if (s.arrivalOf s.cur.asid c.lcn (Barrier.nameOf d)).isNone then trapR 0x18 6
    let gth := Barrier.gthOf d
    let addr := bits v 19 0
    if gth ∧ (addr % 8 ≠ 0 ∨ addr + 40 > x.par.fp) then trapR 0x18 7
    let a ← awaitArrival (Barrier.nameOf d)
    acquire (barScope d)
    acquireOf (barScope d) a.rels
    finishBar gth addr a
    advance) s

/-- `vote` (R277). DESIGN CHOICE: its reason 0x05 is looked for after the reserved bits and before 0x02 to 0x04, since R277 gives it no
place in the order of R275 (notes/assumptions/53.md). -/
def execVote (rd rs1 rs2 : Reg) (s : State) : Host.Outcome State Fault Refusal :=
  runScalar (parcelOf (.vote rd rs1 rs2)) (do
    let d ← rxM rs1
    let v ← rxM rs2
    if bits d 63 21 ≠ 0 ∨ bits v 63 2 ≠ 0 then trapR 0x18 1
    if Barrier.gthOf d then trapR 0x18 5
    if !(← waitingHere d) then arriveM d false none none (some (bits v 1 0)) true
    let a ← awaitArrival (Barrier.nameOf d)
    acquire (barScope d)
    acquireOf (barScope d) a.rels
    takeArrival a.name
    wxM rd a.res
    advance) s

/-- Every member still in the snapshot has arrived. -/
def Barrier.complete (b : Barrier) : Bool := b.members.all (fun m => b.arrived.contains m)

/-- Apply a step that may block to every element of a list. -/
def tryEach {α : Type} (f : State → α → Try) (s : State) : List α → Try
  | [] => .done s
  | a :: as =>
    match f s a with
    | .blocked s => .blocked s
    | .done s => tryEach f s as

/-- Completion of a barrier (R275): the counters of its arrivals are incremented and its waiters may go on. An increment that has to
wait, for room or for its input entry (spec/14 R330), is on its way until then. -/
def State.completeBarrier (s : State) (asid : Nat) (b : Barrier) : State :=
  let s := s.modCtx asid (fun c => { c with barriers := c.barriers.filter (fun x => !(x.grp == b.grp && x.name == b.name)) })
  let mark (s : State) (l : Nat) : State := s.modCore ⟨asid, l⟩ (fun c => { c with
    arrivals := c.arrivals.map (fun a =>
      if a.name = b.name ∧ a.grp = b.grp ∧ a.done = false then
        { a with done := true, res := voteResult b.ballots, record := gatherRecord b.evs, rels := b.rels }
      else a) })
  let s := b.arrived.foldl mark s
  b.cens.foldl (fun s (p : Nat × Nat) => match s.incrementRec ⟨asid, p.1⟩ p.2 1 b.rels with
    | .done s => s
    | .blocked s => s.postIncr ⟨asid, p.1⟩ p.1 p.2 1 false b.rels) s

/-- BARRIER_COMPLETE. A barrier whose snapshot has not all arrived does not complete. -/
def execBarrierComplete (asid grp name : Nat) (s : State) : Host.Outcome State Fault Refusal :=
  match (s.ctx asid).barriers.find? (fun b => b.grp == grp && b.name == name) with
  | some b =>
    if b.complete && (s.ctx asid).run == .running then .next (s.completeBarrier asid b) else .next s
  | none => .next s

/-! ### The superstep barrier (R279) -/

/-- `sstep`: the arrival, the wait and the result. -/
def execSstep (rd : Reg) (s : State) : Host.Outcome State Fault Refusal :=
  let windowed := (s.ctx s.cur.asid).par.undo == 2
  (fun r => if windowed then zeroCount r else r) (runScalar (parcelOf (.sstep rd)) (do
    let s ← get
    let c ← me
    let id ← myId
    let hold : CoreId := ⟨id.asid, c.lcn⟩
    let h := s.core hold
    let mine := h.sstepBy = some (id.l, c.pc, rd)
    if h.sstepAt.isSome ∧ !mine then
      if h.sstepDone then waitM else trapR 0x18 3
    if !mine then
      let rels ← releaseCtx
      let s ← get
      updM (fun s' => s'.modCore hold (fun h => { h with
        sstepRels := rels, sstepAt := some (s.pcc (s.dieOf id)), sstepBy := some (id.l, c.pc, rd), sstepDone := false }))
    let s ← get
    if !(s.core hold).sstepDone then waitM
    let rels := (s.core hold).sstepRels
    updM (fun s => s.modCore hold (fun h => { h with sstepAt := none, sstepBy := none, sstepDone := false, sstepRels := [] }))
    let x ← myCtx
    acquire x.sctx
    acquireOf x.sctx rels
    wxM rd (x.sscnt.setWidth 64)
    advance) s)

/-! ### Gangs (R281 to R284) -/

/-- `gfuse` (R281): the last member to arrive forms the gang at the leader's next pc. -/
def execGfuse (rs1 : Reg) (s : State) : Host.Outcome State Fault Refusal :=
  runScalar (parcelOf (.gfuse rs1)) (do
    let v ← rxM rs1
    let c ← me
    let id ← myId
    let s ← get
    let mask : BitVec 4 := v.setWidth 4
    let k := popcount 4 mask.toNat
    let base := id.l / 4 * 4
    let others : List CoreSt := ((List.range 4).filter (fun i => i != id.l % 4)).map (fun i => s.core ⟨id.asid, base + i⟩)
    if bits v 63 4 ≠ 0 ∨ (k ≠ 2 ∧ k ≠ 4) ∨ !mask.getLsbD (id.l % 4) ∨ c.gang.isSome
        ∨ others.any (fun o => match o.fuse with
          | some m => m != mask && (m &&& mask) != 0
          | none => false) then trap0 0x19
    let members := others.filter (fun o => mask.getLsbD (o.id.l % 4))
    if members.all (fun o => o.fuse == some mask) then
      let pcs := (members ++ [c]).map (fun o => (o.id.l, o.pc))
      let lead := pcs.foldl (fun (b : Nat × Word) p => if p.1 < b.1 then p else b) (id.l, c.pc)
      updM (fun s => members.foldl (fun s o => s.modCore o.id (fun o => { o with
        fuse := none, gang := some ⟨mask⟩, pc := lead.2 + 4, instret := o.instret + 1, dicnt := o.dicnt + 1 })) s)
      modMe (fun c => { c with fuse := none, gang := some ⟨mask⟩, pc := lead.2 + 4 })
    else fun s => .error (.wait (s.modCore s.cur (fun c => { c with fuse := some mask })))) s

/-- `gsplit` (R283). -/
def execGsplit (s : State) : Host.Outcome State Fault Refusal :=
  runScalar (parcelOf .gsplit) (do
    updM (fun s => s.splitGang s.cur)
    advance) s

/-- One member's own attempt at the gang's instruction, in a state. -/
def gangOne (run : State → Host.Outcome State Fault Refusal) (s : State) (m : CoreId) : State :=
  match run { s with cur := m, note := .none } with
  | .next s' => s'
  | _ => s

/-- The members execute one after another, until one traps or waits: the state, or that member with what it met. -/
def gangChain (run : State → Host.Outcome State Fault Refusal) (s : State) : List CoreId → Except (CoreId × Note) State
  | [] => .ok s
  | m :: ms =>
    let s' := gangOne run s m
    match s'.note with
    | .trapped t epc => .error (m, .trapped t epc)
    | .waited => .error (m, .waited)
    | _ => gangChain run s' ms

/-- Some members trap: nothing of the instruction stands, the gang splits, and every other member takes GANG_SPLIT. -/
def State.gangTrap (s : State) (ms : List CoreId) (traps : List (CoreId × TrapInfo × Word)) : State :=
  match traps with
  | [] => s
  | (m0, t0, e0) :: _ =>
    let s2 := ms.foldl (fun s m =>
      match traps.find? (fun q => q.1 == m) with
      | some q => s.syncTrap m q.2.2 q.2.1
      | none => s.syncTrap m e0 ⟨0x1A, 0, 0, word (s.core m0).lcn⟩) (s.splitGang s.cur)
    { s2 with note := .trapped t0 e0 }

/-- One instruction of a gang (R282): it retires in every member or in none. The leader executes last, so a branch is
decided by its registers before the instruction. A rewind of every core of the context is made once, to the lowest of the
members' windows. -/
def State.gangRun (s : State) (run : State → Host.Outcome State Fault Refusal) : Host.Outcome State Fault Refusal :=
  let ms := s.gangOf s.cur
  let lead := s.leader s.cur
  let tried := ms.map (fun m => (m, gangOne run s m))
  let traps := tried.filterMap (fun p => match p.2.note with
    | .trapped t epc => some (p.1, t, epc)
    | _ => none)
  let waits := tried.filter (fun p => p.2.note == .waited)
  let rewinds := tried.filter (fun p => p.2.note == .rewound)
  if !traps.isEmpty then .next { s.gangTrap ms traps with cur := lead }
  else if !waits.isEmpty then
    -- what a member did while waiting stands, as long as it still waits
    let s1 := waits.foldl (fun s p => let s' := gangOne run s p.1; if s'.note == .waited then s' else s) s
    .next { s1 with cur := lead, note := .waited }
  else if (s.ctx lead.asid).par.undo = 2 && !rewinds.isEmpty then
    let first := rewinds.foldl (fun (b : Option State) p => match b with
      | none => some p.2
      | some t => if (p.2.core p.1).win.count < (t.core p.1).win.count then some p.2 else some t) none
    .next { (first.getD s) with cur := lead }
  else
    match gangChain run s ms.reverse with
    | .error (m, .trapped t epc) => .next { s.gangTrap ms [(m, t, epc)] with cur := lead }
    | .error _ => .next { s with cur := lead, note := .waited }
    | .ok s1 =>
      let pc := (s1.core lead).pc
      let s2 := if (s1.core lead).gang.isSome then ms.foldl (fun s m => s.modCore m (fun c => { c with pc })) s1 else s1
      .next { s2 with cur := lead }

end Sys2Proof.Machine
end

