-- ==== Sys2Proof/Machine/Queues.lean ====
section
/-! DEFINITION. Stage queues (spec/12 R291 to R299), messages and inboxes (spec/05 R117 to R123), result FIFOs (spec/09
R228), guard slots (R222), condition-bit branches and waits (R230, R231, spec/04 R86). -/

namespace Sys2Proof.Machine

/-! ### Stage queues -/

/-- Least entry of a queue: least key, first accepted among equals (R293). -/
def leastEntry : List SqEntry → Option SqEntry
  | [] => none
  | e :: es =>
    match leastEntry es with
    | none => some e
    | some m => if m.key.toNat < e.key.toNat then some m else some e

/-- Remove the first entry equal to one on a queue of a die. -/
def dropEntry (d q : Nat) (e : SqEntry) : List (Nat × Nat × SqEntry) → List (Nat × Nat × SqEntry)
  | [] => []
  | x :: xs => if x = (d, q, e) then xs else x :: dropEntry d q e xs

/-- `qpush` (R297). -/
def execQpush (q : BitVec 4) (rs1 : Reg) (s : State) : Host.Outcome State Fault Refusal :=
  runScalar (parcelOf (.qpush q rs1)) (do
    let e ← rxM rs1
    let s ← get
    let x ← myCtx
    let d := s.dieOf s.cur
    if bit e 31 then trapR 0x1B 1
    if !x.qen q.toNat then trapR 0x1B 2
    if (x.sq d q.toNat).length ≥ x.qcap then trap0 0x1C
    let rels ← releaseCtx
    modMyCtx (fun c => { c with
      squeues := c.squeues ++ [(d, q.toNat, ⟨BitVec.ofNat 32 (bits e 63 32), BitVec.ofNat 31 (bits e 30 0), rels⟩)] })
    advance) s

/-- An entry as `qpop` and `qpeek` return it (R292). -/
def SqEntry.word (e : SqEntry) : Word := Sys2Proof.word (e.key.toNat * 2 ^ 32 + 2 ^ 31 + e.pay.toNat)

/-- The least entry of queue `q` on the core's die, with what its push released when it is popped; in a replay the recorded one, and
nothing is removed. -/
def takeLeast (q : BitVec 4) (pop : Bool) : M (Word × List Rel) := do
  let s ← get
  let x ← myCtx
  let c ← me
  let d := s.dieOf s.cur
  if !x.qen q.toNat then trapR 0x1B 2
  if c.replay.isSome then return (← inputM 0x04 0, [])
  else
    match leastEntry (x.sq d q.toNat) with
    | none => return (← inputM 0x04 0, [])
    | some e =>
      let v ← inputM 0x04 e.word
      if pop then modMyCtx (fun c => { c with squeues := dropEntry d q.toNat e c.squeues })
      return (v, e.rels)

def execQpop (rd : Reg) (q : BitVec 4) (s : State) : Host.Outcome State Fault Refusal :=
  runScalar (parcelOf (.qpop rd q)) (do
    let (v, rels) ← takeLeast q true
    let x ← myCtx
    acquireOf x.sctx rels
    wxM rd v
    advance) s

def execQpeek (rd : Reg) (q : BitVec 4) (s : State) : Host.Outcome State Fault Refusal :=
  runScalar (parcelOf (.qpeek rd q)) (do
    let (v, _) ← takeLeast q false
    wxM rd v
    advance) s

/-! ### Messages -/

/-- Neighbour port a message travels by (R122): same core index, adjacent bench of one die. -/
def Ctx.portTo (c : Ctx) (src dst : Nat) : Option Nat :=
  if src % 4 = dst % 4 ∧ c.dieOf src = c.dieOf dst then
    (List.range 4).find? (fun p => match neighbour (c.benchOf src % 36) p with
      | some b => b == c.benchOf dst % 36
      | none => false)
  else none

/-- `msend` (R118, R119). The sender that a message carries is the number of the core, not that of its task
(notes/assumptions/53.md). -/
def execMsend (rs1 rs2 : Reg) (len : BitVec 3) (s : State) : Host.Outcome State Fault Refusal :=
  runScalar (parcelOf (.msend rs1 rs2 len)) (do
    let t ← rxM rs1
    let av ← rxM rs2
    let x ← myCtx
    let id ← myId
    let n := (len.toNat + 1) * 8
    let a := av.toNat
    if bits t 63 61 ≠ 0 ∨ (!bit t 60 ∧ bits t 59 48 ≠ 0) ∨ (!bit t 24 ∧ bits t 47 28 ≠ 0)
        ∨ (bit t 24 ∧ bits t 27 25 ≠ 0) then trapR 0x12 1
    let dst := bits t 23 0
    if dst ≥ x.n then trapR 0x12 2
    if bit t 24 ∧ (bits t 30 28 ≠ 0 ∨ bits t 47 28 + n > x.par.fp) then trapR 0x12 3
    aligned av 8
    if a + n > x.par.fp then refuse 0x0A av
    watch (word (0xFFFFFFFFFFF00000 + a)) n false
    let port := x.portTo id.l dst
    let s ← get
    let c ← me
    if c.outq.length ≥ 8 then waitM
    match port with
    | some p => if s.portFlight id p ≥ 2 then waitM
    | none => pure ()
    rqRoom
    let bs ← ownRead a n
    let rels ← releaseFor (if x.dieOf dst = x.dieOf id.l then .die else .pkg)
    let rq ← takeRq
    let seq ← takeSeq
    modMe (fun y => { y with
      rqout := y.rqout + 1
      sentNo := y.sentNo + 1
      outq := y.outq ++ [⟨id.asid, id.l, id.l, t, bs, c.win.openWin, seq, port, c.sentNo, rq, rels⟩] })
    advance) s

/-- What `mpop` returns for a message: sender and length. -/
def Msg.result (m : Msg) : Nat := m.srcLcn * 256 + m.payload.length

/-- The message that `mpop` takes from an inbox, and those that stay: the oldest. In a replay it is the recorded one, once its
sender has produced it, and none where none was recorded (spec/14 R347). -/
def pickMsg (ib : Nat) : M (Option (Msg × List Msg)) := do
  let c ← me
  let box := c.inbox.getD ib []
  if c.replay.isNone then
    match box with
    | [] => return none
    | m :: ms => return some (m, ms)
  else
    match c.recorded with
    | none => return none
    | some i =>
      match box.find? (fun m => i.kind != 0x02 || i.val.toNat == ib * 2 ^ 32 + m.result) with
      | some m => return some (m, box.erase m)
      | none => waitM

/-- `mpop` (R123). -/
def execMpop (rd : Reg) (ib : BitVec 3) (rs1 : Reg) (s : State) : Host.Outcome State Fault Refusal :=
  runScalar (parcelOf (.mpop rd ib rs1)) (do
    let av ← rxM rs1
    let x ← myCtx
    let id ← myId
    let a := av.toNat
    aligned av 8
    if a + 64 > x.par.fp then refuse 0x0A av
    match ← pickMsg ib.toNat with
    | none =>
      let _ ← takeSeq
      wxM rd 0
    | some (m, ms) =>
      let p := Place.scratch id.l a
      watch (word (0xFFFFFFFFFFF00000 + a)) m.payload.length true
      drainM
      coverM p m.payload.length av
      let s ← get
      let c ← me
      reserveM (blockSlots m.payload.length + if s.records id then 1 else 0) p
      let _ ← inputM 0x02 (word (ib.toNat * 2 ^ 32 + m.result))
      demandM p m.payload.length
      tryM (fun s => s.perform id c.win.openWin c.storeSeq.toNat p m.payload false .block true)
      updM (fun s => (s.askPlace id.asid 4 id.l 0 p m.payload.length).markStore id p m.payload.length [])
      let _ ← takeSeq
      modMe (fun c => { c with inbox := c.inbox.set ib.toNat ms })
      acquireOf (if x.dieOf m.src = x.dieOf id.l then .die else .pkg) m.rels
      wxM rd (word m.result)
    advance) s

/-! ### Result FIFOs -/

/-- What the oldest element of a queue's result FIFO carries: the release of the word that placed it, nothing for a copy promise
(spec/10 R250). -/
def CoreSt.fifoRels (c : CoreSt) (q : Queue) : List Rel := ((c.queue q).fifo.head?.map (fun e => e.2.2)).getD []

/-- The oldest element of a queue's result FIFO. -/
def CoreSt.fifoHead (c : CoreSt) (q : Queue) : Option Word := ((c.queue q).fifo.head?).map (fun e => e.1)

/-- Remove the oldest element of a queue's result FIFO. -/
def CoreSt.popFifo (c : CoreSt) (q : Queue) : CoreSt := c.setQueue q { c.queue q with fifo := (c.queue q).fifo.drop 1 }

/-- `epop` (R228). -/
def execEpop (rd : Reg) (q : Queue) (s : State) : Host.Outcome State Fault Refusal :=
  runScalar (parcelOf (.epop rd q)) (do
    let c ← me
    match c.fifoHead q with
    | none => waitM
    | some e =>
      modMe (fun c => c.popFifo q)
      acquireOf .sys (c.fifoRels q)
      wxM rd e
      advance) s

/-- `epopnb` (R228). In a replay the recorded value says whether an element was there; the element is waited for (spec/14
R347, notes/assumptions/14.md). -/
def execEpopnb (rd : Reg) (q : Queue) (s : State) : Host.Outcome State Fault Refusal :=
  runScalar (parcelOf (.epopnb rd q)) (do
    let c ← me
    let found : Bool := if c.replay.isNone then (c.fifoHead q).isSome
      else ((c.recorded.map InputEnt.val).getD 0) != 0
    if found && (c.fifoHead q).isNone then waitM
    let v ← inputM 0x04 ((c.fifoHead q).getD 0)
    if found then
      modMe (fun c => c.popFifo q)
      acquireOf .sys (c.fifoRels q)
    wxM rd v
    advance) s

/-! ### Guard slots (R221, R222) -/

/-- Resolve slot `n` to a value; `g0` is ILLEGAL_INSTRUCTION. -/
def resolveSlot (g : BitVec 4) (v : Bool) : M Unit := do
  if g = 0 then illegal
  let r : Word := 1#64 <<< g.toNat
  let w : Word := 1#64 <<< (16 + g.toNat)
  modMe (fun c => { c with csr := { c.csr with gsl := if v then c.csr.gsl ||| r ||| w else (c.csr.gsl ||| r) &&& ~~~w } })
  advance

def execGset (g : BitVec 4) (s : State) : Host.Outcome State Fault Refusal :=
  runScalar (parcelOf (.gset g)) (resolveSlot g true) s

def execGclr (g : BitVec 4) (s : State) : Host.Outcome State Fault Refusal :=
  runScalar (parcelOf (.gclr g)) (resolveSlot g false) s

/-! ### Condition bits -/

/-- The condition bits of the leader, as an input. Of the states up to 4 cycles old that R125 allows, the model shows the
present one (notes/assumptions/53.md). -/
def cbitsM : M Word := do
  let s ← get
  inputM 0x04 (s.cbits (s.leader s.cur))

/-- Branch on a condition bit (R230). -/
def branchBit (cb : BitVec 6) (imm : BitVec 12) (want : Bool) : M Unit := do
  let c ← me
  let t := c.pc + brOff imm
  aligned t 4
  let v ← cbitsM
  if bit v cb.toNat = want then modMe (fun c => { c with pc := t }) else advance

def execBcb (cb : BitVec 6) (imm : BitVec 12) (s : State) : Host.Outcome State Fault Refusal :=
  runScalar (parcelOf (.bcb cb imm)) (branchBit cb imm true) s

def execBcbn (cb : BitVec 6) (imm : BitVec 12) (s : State) : Host.Outcome State Fault Refusal :=
  runScalar (parcelOf (.bcbn cb imm)) (branchBit cb imm false) s

/-- `wfc` (R231). -/
def execWfc (rs1 : Reg) (s : State) : Host.Outcome State Fault Refusal :=
  runScalar (parcelOf (.wfc rs1)) (do
    let m ← rxM rs1
    if m ≠ 0 then
      let s ← get
      let c ← me
      if c.replay.isNone ∧ s.cbits s.cur &&& m = 0 then waitM
      let v ← inputM 0x04 (s.cbits s.cur)
      if v &&& m = 0 then waitM
    advance) s

/-- `wfcy` (spec/04 R86). -/
def execWfcy (rs1 : Reg) (s : State) : Host.Outcome State Fault Refusal :=
  runScalar (parcelOf (.wfcy rs1)) (do
    let t ← rxM rs1
    let s ← get
    if s.pcc (s.dieOf s.cur) < t.toNat then waitM
    advance) s

end Sys2Proof.Machine
end

