-- ==== Sys2Proof/Machine/Windows.lean ====
section
/-! DEFINITION. Windows: checkpoints, commit, rewind, `wstat` (spec/14 R331 to R344), and the completion of a superstep
(spec/11 R279). -/

namespace Sys2Proof.Machine

/-! ### Checkpoints (R331) -/

/-- Register-space units a checkpoint captures: 16 per line whose W bit is set. -/
def CoreSt.dirtyUnits (c : CoreSt) : List Nat :=
  ((List.range 512).filter (fun n => c.wLines.getLsbD n)).flatMap (fun n => (List.range 16).map (fun k => 16 * n + k))

/-- State units a checkpoint captures: register pairs with a W bit set, and 32 to 79. -/
def CoreSt.stateUnits (c : CoreSt) : List Nat :=
  (List.range 32).filter (fun u => c.wRegs.getLsbD (2 * u) || c.wRegs.getLsbD (2 * u + 1))
    ++ (List.range 48).map (fun k => 32 + k)

/-- Ring slots a checkpoint of the core takes. -/
def CoreSt.ckptNeed (c : CoreSt) : Nat := c.dirtyUnits.length + c.stateUnits.length

/-- Take the checkpoint of window `w` of a core, with resume PC and rd as unit 79 records them. -/
def State.checkpoint (s : State) (id : CoreId) (w : Nat) (pc : Word) (rd : Reg) : State :=
  let c := s.core id
  let (ks, s) := s.takeSlots id.asid (s.ringUsed id.asid) c.ckptNeed
  let us : List (Bool × Nat × Nat) := c.dirtyUnits.map (fun u => (true, u, c.reg.readNat (16 * u) 16))
    ++ c.stateUnits.map (fun u => (false, u, c.unitGet u pc rd))
  let units : List CkUnit := (us.zip ks).map (fun p => ⟨p.1.1, p.1.2.1, p.1.2.2, p.2⟩)
  let k : Ckpt := ⟨w, (s.ctx id.asid).recording, c.runtime, c.cont, (c.task.map TaskRec.pub).getD 0, c.storeSeq.toNat, units, false⟩
  s.modCore id (fun c => { c with ckpts := c.ckpts ++ [k], wLines := 0, wRegs := 0, dicnt := 0 })

/-- Open window `w` on a core: the window values, then the checkpoint. When none was uncommitted the reach moves to `w`, and the
committed images of the units captured again are freed (R332). -/
def State.openWindow (s : State) (id : CoreId) (w : BitVec 32) (pc : Word) (rd : Reg) : State :=
  let reach := (s.core id).win.unc.isNone && !(s.core id).committed.isEmpty
  let s := s.modCore id (fun c => { c with win :=
    ⟨w + 1, some (match c.win.unc with
      | some (o, _) => (o, w)
      | none => (w, w))⟩ })
  let s := s.checkpoint id w.toNat pc rd
  if reach then s.retireCkpts id else s

/-- A core that has 16 uncommitted windows commits its oldest. -/
def State.makeWindow (s : State) (id : CoreId) : State :=
  let c := s.core id
  match c.win.unc with
  | some (o, _) => if c.win.count ≥ 16 then s.commitTo id o else s
  | none => s

/-- `wopen` (R337). It releases nothing, but the checkpoint holds what the core has stored to its register space. -/
def execWopen (rd : Reg) (s : State) : Host.Outcome State Fault Refusal :=
  zeroCount (runScalar (parcelOf (.wopen rd)) (do
    let x ← myCtx
    let c ← me
    let id ← myId
    if x.par.undo ≠ 1 then trapR 0x1D 2
    if c.win.count ≥ 16 ∧ x.par.lfull ≠ 2 then trapR 0x1D 3
    updM (fun s => (s.makeWindow id).drainReg id)
    let c ← me
    let s ← get
    if c.win.unc.isNone ∧ s.ringFree id.asid < c.ckptNeed then trapR 0x1D 6
    tryM (fun s => s.room id none c.ckptNeed ⟨2, c.storeSeq.toNat, none, 0⟩ true)
    updM (fun s => s.openWindow id c.win.wnext (c.pc + 4) rd)
    wxM rd (c.win.wnext.setWidth 64)
    advance) s)

/-- Operand of `wcommit` and `wrewind`. -/
def windowArg (rs1 : Reg) : M (BitVec 32) := do
  let x ← myCtx
  let v ← rxM rs1
  if x.par.undo = 0 then trapR 0x1D 2
  if bits v 63 32 ≠ 0 then trapR 0x1D 1
  return v.setWidth 32

/-- `wcommit` (R338). -/
def execWcommit (rs1 : Reg) (s : State) : Host.Outcome State Fault Refusal :=
  runScalar (parcelOf (.wcommit rs1)) (do
    let w ← windowArg rs1
    let c ← me
    let id ← myId
    match c.win.unc with
    | none => pure ()
    | some (o, h) =>
      let d := (w - o).toNat
      if d < 2 ^ 31 then
        if d > (h - o).toNat then trapR 0x1D 4
        updM (fun s => s.commitTo id w)
    advance) s

/-! ### Rewind (R339, R340) -/

/-- Window tag `t` is `w` or later among the uncommitted windows of a core. -/
def WinSt.fromOn (x : WinSt) (w : Nat) (t : Option Nat) : Bool :=
  match t with
  | none => false
  | some v => x.has v && decide (x.pos w ≤ x.pos v)

/-- Keep of a queue what a rewind to `w` keeps: pushes tagged earlier. -/
def EQueue.keepBefore (q : EQueue) (x : WinSt) (w : Nat) : EQueue :=
  { q with pushes := q.pushes.filter (fun p => !x.fromOn w p.win) }

/-- First part of a rewind: unissued words of pushes tagged `w` or later go; issued ones lose their completion. A core in a prefix
unit stands at the boundary before it: nothing of the unit has retired (spec/02 R37). -/
def CoreSt.rewindStart (c : CoreSt) (w : Nat) : CoreSt :=
  { c with
    eqm := c.eqm.keepBefore c.win w, eqv := c.eqv.keepBefore c.win w
    eqc := c.eqc.keepBefore c.win w, eqp := c.eqp.keepBefore c.win w
    flights := c.flights.map (fun f => if c.win.fromOn w f.win then { f with sig := none, result := none } else f)
    pc := c.unitPc, pfx := none, rewinding := some w }

/-- Nothing of the core is on its way: its issued words have retired, its stores are performed and acknowledged. -/
def CoreSt.settled (c : CoreSt) : Bool := c.flights.isEmpty && c.sb.isEmpty && c.rqout == 0

/-- Memory entries in the order a rewind applies them: store sequence numbers descending. -/
def insertEntry (base : Nat) (e : LogEntry) : List LogEntry → List LogEntry
  | [] => [e]
  | x :: xs =>
    if (base + 2 ^ 40 - e.seq) % 2 ^ 40 ≤ (base + 2 ^ 40 - x.seq) % 2 ^ 40 then e :: x :: xs
    else x :: insertEntry base e xs

def sortEntries (base : Nat) (es : List LogEntry) : List LogEntry := es.foldl (fun acc e => insertEntry base e acc) []

/-- Put the old bytes of an entry back at the physical place it names. -/
def State.applyEntry (s : State) (asid : Nat) (e : LogEntry) : State :=
  if e.applied then s
  else match e.place with
    | .scratch l a => s.writeScratch asid l a e.old
    | .hbm sl a => s.hbmWrite sl a e.old
    | _ => s

/-- Write a unit image back. -/
def CoreSt.putUnit (c : CoreSt) (u : CkUnit) : CoreSt :=
  if u.reg then { c with reg := c.reg.write (16 * u.idx) (leBytes 16 u.val) }
  else c.unitSet u.idx u.val

/-- The unit images that a rewind to window `w` restores, oldest first. -/
def CoreSt.images (c : CoreSt) (w : Nat) : List CkUnit :=
  c.committed ++ (c.ckpts.filter (fun k => decide (c.win.pos k.win ≤ c.win.pos w))).flatMap (fun k => k.units)

/-- Restore registers and register space for window `w` (R332): the newest image of each unit among the checkpoints up to
`w`, else the committed one. -/
def CoreSt.restoreUnits (c : CoreSt) (w : Nat) : CoreSt :=
  let c := (c.images w).foldl CoreSt.putUnit c
  { c with wLines := 0, wRegs := 0, sLines := BitVec.allOnes 512, sRegs := BitVec.allOnes 64 }

/-- What a checkpoint's units 78 and 79 say: resume PC, rd and the record of the task, if one ran. -/
def Ckpt.resume (k : Ckpt) : Option (Word × Reg × TaskRec) :=
  match k.units.find? (fun u => !u.reg && u.idx == 79), k.units.find? (fun u => !u.reg && u.idx == 78) with
  | some u, some v =>
    if u.val / 2 ^ 69 % 2 = 1 then
      some (word u.val, BitVec.ofNat 5 (u.val / 2 ^ 64), ⟨word v.val, word (v.val / 2 ^ 64), [0, 0, 0, 0, 0, 0], k.pub⟩)
    else none
  | _, _ => none

/-- Resume at the start of window `w`: the checkpoint's task at its resume PC with the value of R339 in its rd, or idle. -/
def CoreSt.resumeAt (c : CoreSt) (k : Ckpt) : CoreSt :=
  let c := { c with gang := none, fuse := none, pfx := none, due := none, resv := none, rewinding := none,
                    runtime := k.runtime, cont := k.cont, dicnt := 0 }
  match k.resume with
  | some (pc, rd, r) => ({ c with task := some r, pc }).wx rd (word (k.win + 2 ^ 63))
  | none => { c with task := none }

/-- Register-space units restored whole hold no damage any more, but take an injection that waits for them (spec/15 R366, spec/23
R443). -/
def State.unitsWritten (s : State) (id : CoreId) (us : List CkUnit) : State :=
  (us.filter (fun u => u.reg)).foldl (fun s u =>
    (s.clearPoison 1 (ownKey id) (16 * u.idx) 16).applyInjection 1 (ownKey id) ((s.ctx id.asid).pcn id.l) (16 * u.idx) 16) s

/-- The body of `rewind_core(w)` once the core is settled, up to its release. -/
def State.rewindBody (s : State) (id : CoreId) (w : Nat) : State :=
  let c := s.core id
  let x := c.win
  let d := s.dieOf id
  let later (t : Option Nat) : Bool := x.fromOn w t
  -- result elements, held items, lineage records
  let cut (q : EQueue) : EQueue := { q with fifo := q.fifo.filter (fun e => !later e.2.1) }
  let s := s.modCore id (fun c => { c with eqm := cut c.eqm, eqv := cut c.eqv, eqc := cut c.eqc, eqp := cut c.eqp })
  let s := s.modDie d (fun y => { y with egress := y.egress.filter (fun h =>
    !(h.owner.1 == id.asid && h.owner.2.1 == id.l && later (some h.owner.2.2))) })
  let s := s.modCtx id.asid (fun y => { y with lineage := y.lineage.filter (fun r => !(r.1 == id.l && later r.2.1)) })
  -- memory entries, newest first
  let mine := (s.ctx id.asid).log.filter (fun e => e.l == id.l && later (some e.win))
  let s := (sortEntries c.storeSeq.toNat mine).foldl (fun s e => s.applyEntry id.asid e) s
  let s := s.modCtx id.asid (fun y => { y with log := y.log.filter (fun e => !(e.l == id.l && later (some e.win))) })
  let s := s.freeSlots id.asid (mine.flatMap (fun e => e.slots))
  -- input entries and checkpoints of later windows
  let after (v : Nat) : Bool := x.has v && decide (x.pos w < x.pos v)
  let freed := (c.inputs.filter (fun i => after i.win)).map (fun i => i.slot)
    ++ (c.ckpts.filter (fun k => after k.win)).flatMap (fun k => k.units.map (fun u => u.slot))
  let s := (s.splitGang id).unitsWritten id ((s.core id).images w)
  let s := s.modCore id (fun (c : CoreSt) =>
    let c : CoreSt := c.restoreUnits w
    let c : CoreSt := { c with
      inputs := c.inputs.filter (fun i => !after i.win)
      ckpts := c.ckpts.filter (fun k => !after k.win)
      memRw := none
      stale := []
      early := []
      hostAmo := none
      win := ⟨BitVec.ofNat 32 w + 1, c.win.unc.map (fun p => (p.1, BitVec.ofNat 32 w))⟩ }
    match c.ckpts.find? (fun k => k.win == w) with
    | some k => c.resumeAt k
    | none => { c with rewinding := none })
  (s.freeSlots id.asid freed).trace 0x07 id (word w)
    (word ((mine.filter (fun e => !e.applied)).length % 2 ^ 32 * 2 ^ 32 + (s.core id).lcnOrNone))

/-- Rewind a settled core, with the release at `.pkg` that ends it. -/
def State.rewindCore (s : State) (id : CoreId) (w : Nat) : Try :=
  let s := s.rewindBody id w
  match s.mergeOf id with
  | .blocked s => .blocked s
  | .done s =>
    let s := s.modCore id (fun c => { c with logWait := [] })
    let d := s.dieOf id
    match s.edgeWhere d (fun _ => true) (s.die d).edge.length with
    | .blocked s => .blocked s
    | .done s => .done (s.released id .pkg)

/-- What waits for log slots in a try that is given up: the LOG_FULL it raised on a core stays raised (R330). -/
def State.keepWaits (s : State) (ids : List CoreId) (t : State) : State :=
  ids.foldl (fun s id => s.modCore id (fun c => { c with pend := (t.core id).pend, logWait := (t.core id).logWait })) s

/-- The cores a `wrewind` rewinds: the executing core in mode 1, all of the context in mode 2. -/
def Ctx.rewindSet (c : Ctx) (id : CoreId) : List CoreId := if c.par.undo = 2 then c.ids else [id]

/-- Lower of two windows, counted from the oldest uncommitted one. -/
def WinSt.lower (x : WinSt) (a b : Nat) : Nat := if x.pos b < x.pos a then b else a

/-- Drain a core's stores towards settling: store buffer, then its edge-queue entries. -/
def State.drainCore (s : State) (id : CoreId) : Try :=
  match s.drainAll id (s.core id).sb.length with
  | .blocked s => .blocked s
  | .done s =>
    let d := s.dieOf id
    s.edgeWhere d (fun w => w.asid == id.asid && w.l == id.l) (s.die d).edge.length

/-- A `wrewind` that has been carried out is noted as such. -/
def noteRewound (r : Host.Outcome State Fault Refusal) : Host.Outcome State Fault Refusal :=
  match r with
  | .next s => .next (if s.note = .retired then { s with note := .rewound } else s)
  | r => r

/-- `wrewind` (R339, R340). While its rewind is under way it is not checked again; with another core's it is carried out as one, to
the lower window. -/
def execWrewind (rs1 : Reg) (s : State) : Host.Outcome State Fault Refusal :=
  noteRewound <| zeroCount (runScalar (parcelOf (.wrewind rs1)) (do
    let w0 ← windowArg rs1
    let x ← myCtx
    let c ← me
    let id ← myId
    let s ← get
    let ids := x.rewindSet id
    let has := ids.all (fun i => (s.core i).win.has w0.toNat)
    if c.rewinding.isNone ∧ c.win.unc.isNone then trapR 0x1D 5
    if c.rewinding.isNone ∧ !has then trapR 0x1D 4
    let w := match c.rewinding with
      | some v => if has then c.win.lower w0.toNat v else v
      | none => w0.toNat
    updM (fun s => ids.foldl (fun s i => s.modCore i (fun c => c.rewindStart w)) s)
    tryM (fun s => tryEach (fun s i => s.drainCore i) s ids)
    let s ← get
    if ids.any (fun i => !(s.core i).settled) then waitM
    match tryEach (fun s i => s.rewindCore i w) s ids with
    | .blocked t => fun s => .error (.wait (s.keepWaits ids t))
    | .done s' =>
      set s'
      if x.par.undo = 2 then
        modMyCtx (fun y => { y with sscnt := BitVec.ofNat 32 w })
        updM (fun s => x.ids.foldl (fun s i => s.modCore i (fun c => { c with
          sstepAt := none, sstepBy := none, sstepDone := false })) s)) s)

/-- `wstat` (R342). -/
def execWstat (rd rs1 : Reg) (s : State) : Host.Outcome State Fault Refusal :=
  runScalar (parcelOf (.wstat rd rs1)) (do
    let v ← rxM rs1
    let c ← me
    let id ← myId
    let s ← get
    if v.toNat > 7 then trapR 0x1D 1
    let held := ((s.die (s.dieOf id)).egress.filter (fun h => h.owner.1 == id.asid && h.owner.2.1 == id.l)).map HeldItem.size
    let r : Nat := match v.toNat, c.win.unc with
      | 0, some (_, h) => h.toNat
      | 0, none => (c.win.wnext - 1).toNat + 2 ^ 63
      | 1, some (o, _) => o.toNat
      | 1, none => 0
      | 2, _ => c.win.count
      | 3, _ => ((s.ctx id.asid).log.filter (fun e => e.l == id.l)).map (fun e => e.slots.length) |>.sum
      | 4, _ => (c.ckpts.map (fun k => k.units.length)).sum + c.committed.length + c.inputs.length
      | 5, _ => s.ringFree id.asid
      | 6, _ => held.sum
      | _, _ => c.storeSeq.toNat
    wxM rd (word r)
    advance) s

/-! ### Superstep completion -/

/-- Resume PC and rd that an automatic window records on a core (R337). -/
def State.superResume (s : State) (id : CoreId) : Word × Reg :=
  let c := s.core id
  let h := s.core ⟨id.asid, c.lcn⟩
  match h.sstepBy with
  | some (l, pc, rd) => if c.task.isSome ∧ l = id.l ∧ pc = c.pc then (pc + 4, rd) else (c.pc, 0)
  | none => (c.pc, 0)

/-- Before an automatic window opens: what a core has stored to its register space is there, and a core with 16 uncommitted windows
commits its oldest (R323). -/
def State.beforeAuto (s : State) (id : CoreId) : State := (s.drainReg id).makeWindow id

/-- Room for the checkpoints of every core (R333): each in the core's share of the log buffer, all in the ring; while slots lack, the
log-full policy acts on each core that waits. -/
def State.autoRoom (s : State) (ids : List CoreId) : Try :=
  let need := (ids.map (fun id => (s.core id).ckptNeed)).sum
  let takes (s : State) (id : CoreId) : Bool := s.logTakes id none (s.core id).ckptNeed
  let s := ids.foldl (fun s id => (s.roomIf id (takes s id) need ⟨2, (s.core id).storeSeq.toNat, none, 0⟩ true).state) s
  if ids.all (fun id => takes s id && decide (s.ringFree id.asid ≥ need)) then .done s else .blocked s

/-- An automatic window of number `w` opens on every core, when there is room for all their checkpoints. -/
def State.openAuto (s : State) (ids : List CoreId) (w : BitVec 32) : Try :=
  match (ids.foldl State.beforeAuto s).autoRoom ids with
  | .blocked s => .blocked s
  | .done s => .done (ids.foldl (fun s id => let r := s.superResume id; s.openWindow id w r.1 r.2) s)

/-- The imbalance record of a superstep (spec/21 R414). -/
def State.traceImbalance (s : State) (x : Ctx) : State :=
  let at_ (id : CoreId) : Nat := ((s.core id).sstepAt).getD 0
  match x.ids with
  | [] => s
  | id0 :: _ =>
    let lo := x.ids.foldl (fun m id => min m (at_ id)) (at_ id0)
    let hi := x.ids.foldl (fun m id => max m (at_ id)) (at_ id0)
    let last := (x.ids.find? (fun id => at_ id == hi)).getD id0
    let sum := (x.ids.map (fun id => at_ id - lo)).sum
    s.traceAt 0x01 last x.sscnt lo (word (min (hi - lo) 0xFFFFFFFF * 2 ^ 32 + last.l)) (word sum)

/-- Completion of the superstep barrier (R279): `sscnt` counts, an automatic window opens, every arrival is done and carries what all of
them released. Writes of `fitness` before it are seen by every word pushed after it (spec/13 R312). -/
def State.completeSuper (s : State) (asid : Nat) : Try :=
  let x := s.ctx asid
  let opened := if x.par.undo = 2 then s.openAuto x.ids (x.sscnt + 1) else .done s
  match opened with
  | .blocked s => .blocked s
  | .done s =>
    let s := s.traceImbalance x
    let s := s.modCtx asid (fun c => { c with sscnt := c.sscnt + 1 })
    let rels := x.ids.flatMap (fun id => (s.core id).sstepRels)
    let idle := x.ids.all (fun id => (s.core id).eqp.pushes.isEmpty && !(s.core id).flights.any (fun f => f.q == .eqp))
    .done (x.ids.foldl (fun s id => s.modCore id (fun c => { c with
      sstepDone := true, sstepRels := rels, fits := if idle then [] else c.fits })) s)

/-- Every logical core has arrived and waits. -/
def State.superReady (s : State) (asid : Nat) : Bool :=
  let x := s.ctx asid
  x.run == .running && x.ids.all (fun id => (s.core id).sstepAt.isSome && !(s.core id).sstepDone) &&
    (x.par.undo != 2 || x.ids.all (fun id => (s.core id).pfx.isNone && (s.core id).rewinding.isNone))

end Sys2Proof.Machine
end

