-- ==== Sys2Proof/Machine/Views.lean ====
section
/-! DEFINITION. Views, transfers and `xmv` (spec/06 R130 to R145), ring instructions (spec/05 R108 to R116), shape records
(spec/04 R96 to R99): major opcode custom-2. -/

namespace Sys2Proof.Machine

/-! ### Views (R130, R131) -/

namespace Desc

def isNone (d : Desc) : Bool := d.d0 == 0 && d.d1 == 0
/-- 0 vector, 1 tile, 2 accumulator. -/
def kind (d : Desc) : Nat := bits d.d0 63 62
def strict (d : Desc) : Bool := bit d.d0 61
def fsel (d : Desc) : Bool := bit d.d0 60
def etype (d : Desc) : Nat := bits d.d0 59 56
def vbase (d : Desc) : Nat := bits d.d0 16 0
def len (d : Desc) : Nat := bits d.d1 14 0
def stride (d : Desc) : Nat := bits d.d1 47 32
def cols (d : Desc) : Nat := bits d.d1 24 16
def rows (d : Desc) : Nat := bits d.d1 8 0
def isAcc (d : Desc) : Bool := d.kind == 2
def isVec (d : Desc) : Bool := d.kind == 0

end Desc

/-- Container in bits of an element type code, R50, R131. -/
def typeBits (t : Nat) : Nat :=
  match t with
  | 0x0 | 0x5 | 0xE => 4
  | 0x1 | 0x6 | 0xD | 0xF => 8
  | 0x2 | 0x7 | 0xB | 0xC => 16
  | 0x3 | 0x8 | 0xA => 32
  | _ => 64

/-- Container of a view, given the image of the format register it may name. -/
def Desc.container (d : Desc) (fmt : Word) : Nat :=
  if d.isAcc then 128 else if d.fsel then (Fmt.ofReg fmt).cont else typeBits d.etype

/-- Format register that a view's `etype` names. -/
def CoreSt.viewFmt (c : CoreSt) (d : Desc) : Word := vget c.csr.fmt (d.etype % 8) 0

/-- Rows and row length in elements, as the view holds them. -/
def Desc.shape (d : Desc) : Nat × Nat := if d.isVec then (1, d.len) else (d.rows, d.cols)

def Desc.elems (d : Desc) : Nat := d.shape.1 * d.shape.2

/-- Bytes of one view row. -/
def Desc.rowBytes (d : Desc) (c : Nat) : Nat := d.shape.2 * c / 8

/-- One past the last byte of the span. -/
def Desc.spanEnd (d : Desc) (c : Nat) : Nat :=
  if d.isVec then d.vbase + d.len * c / 8 else d.vbase + (d.rows - 1) * d.stride + d.rowBytes c

/-- R135 checks 0x05, 0x06 and 0x07 under container `c`; 0 when none fails. -/
def Desc.sizeReason (d : Desc) (c : Nat) : Nat :=
  if d.isVec && (d.len == 0 || d.len > 16384 || d.len * c > 65536 || (c == 4 && d.len % 2 == 1)) then 5
  else if !d.isVec && (d.rows == 0 || d.rows > 256 || d.cols == 0 || d.cols > 256 || (c == 4 && d.cols % 2 == 1)) then 5
  else if !d.isVec && (d.stride % 16 != 0 || d.stride < d.rowBytes c) then 6
  else if d.spanEnd c > (if d.vbase < 0x10000 then 0x10000 else 0x20000) || (d.isAcc && d.vbase < 0x10000) then 7
  else 0

/-- Register-space address of view row `i`. -/
def Desc.rowAddr (d : Desc) (i : Nat) : Nat := if d.isVec then d.vbase else d.vbase + i * d.stride

/-- The elements of a byte string, `c` bits each; 4-bit elements lie low nibble first (R129). -/
def unpack (c : Nat) (bs : List Byte) : List Nat :=
  if c = 4 then bs.flatMap (fun b => [b.toNat % 16, b.toNat / 16])
  else chunks (c / 8) bs bs.length
where
  chunks (n : Nat) (bs : List Byte) : Nat → List Nat
    | 0 => []
    | fuel + 1 => if bs.isEmpty then [] else leNat (bs.take n) :: chunks n (bs.drop n) fuel

/-- Bytes that hold a list of elements. -/
def pack (c : Nat) (es : List Nat) : List Byte :=
  if c = 4 then nibbles es else es.flatMap (fun e => leBytes (c / 8) e)
where
  nibbles : List Nat → List Byte
    | [] => []
    | [a] => [BitVec.ofNat 8 (a % 16)]
    | a :: b :: es => BitVec.ofNat 8 (a % 16 + b % 16 * 16) :: nibbles es

/-- Elements of a view read from register-space bytes, row-major. -/
def Desc.readFrom (d : Desc) (c : Nat) (reg : Mem) : List Nat :=
  (List.range d.shape.1).flatMap (fun i => unpack c (reg.readBytes (d.rowAddr i) (d.rowBytes c)))

/-- Row `i` of a row-major list. -/
def rowOf (n i : Nat) (es : List Nat) : List Nat := (es.drop (i * n)).take n

/-- Write the elements of a view, row by row. -/
def State.viewWrite (s : State) (id : CoreId) (d : Desc) (c : Nat) (es : List Nat) : State :=
  (List.range d.shape.1).foldl (fun s i => s.writeRegSpace id (d.rowAddr i) (pack c (rowOf d.shape.2 i es))) s

/-- Transpose a row-major list of `nr` rows of `nc`. -/
def transpose (nr nc : Nat) (es : List Nat) : List Nat :=
  let a := es.toArray
  (List.range nc).flatMap (fun j => (List.range nr).map (fun i => a.getD (i * nc + j) 0))

/-- Elements of a view in the order its port presents them (R137). -/
def Desc.readPort (d : Desc) (c : Nat) (col : Bool) (reg : Mem) : List Nat :=
  let es := d.readFrom c reg
  if col && !d.isVec then transpose d.rows d.cols es else es

/-- The bytes that hold a view's rows when its elements, in port order, are `es`. -/
def Desc.rowsOf (d : Desc) (c : Nat) (col : Bool) (es : List Nat) : List (Nat × List Byte) :=
  let vs := if col && !d.isVec then transpose d.cols d.rows es else es
  (List.range d.shape.1).map (fun i => (d.rowAddr i, pack c (rowOf d.shape.2 i vs)))

/-! ### `vwset`, `vwget` (R134 to R136) -/

/-- VIEW_INVALID reason of two doublewords, 0 for none. -/
def CoreSt.viewReason (c : CoreSt) (d : Desc) : Nat :=
  let k := d.kind
  if k = 3 then 2
  else if bits d.d0 55 17 != 0 || (d.fsel && bit d.d0 59) || (k == 0 && bits d.d1 63 15 != 0)
      || (k != 0 && (bits d.d1 63 48 != 0 || bits d.d1 31 25 != 0 || bits d.d1 15 9 != 0)) then 1
  else if (d.strict && k != 2) || (k == 2 && bits d.d0 60 56 != 0) then 3
  else if bits d.d0 3 0 != 0 then 4
  else d.sizeReason (d.container (c.viewFmt d))

def execVwset (vw : BitVec 4) (rs1 rs2 : Reg) (s : State) : Host.Outcome State Fault Refusal :=
  runScalar (parcelOf (.vwset vw rs1 rs2)) (do
    let c ← me
    let d : Desc := ⟨c.rx rs1, c.rx rs2⟩
    if !d.isNone ∧ c.viewReason d ≠ 0 then trapR 0x0C (c.viewReason d)
    modMe (fun c => { c with vw := vset c.vw vw.toNat d })
    advance) s

def execVwget (rd : Reg) (vw : BitVec 4) (half : Bool) (s : State) : Host.Outcome State Fault Refusal :=
  runScalar (parcelOf (.vwget rd vw half)) (do
    let c ← me
    let d := vget c.vw vw.toNat Desc.zero
    wxM rd (if half then d.d1 else d.d0)
    advance) s

/-! ### Transfers (R138 to R141) -/

/-- Elements of a view of the executing core, as its loads see them; the bytes between its rows are not read. -/
def viewReadM (d : Desc) (c : Nat) : M (List Nat) := do
  let rec rows (i : Nat) : Nat → M (List Nat)
    | 0 => return []
    | n + 1 => do
      openPlace (.reg (d.rowAddr i)) (d.rowBytes c) (word (0xFFFFFFFFFFE00000 + d.rowAddr i))
      let bs ← readAt (.reg (d.rowAddr i)) (d.rowBytes c)
      let es ← rows (i + 1) n
      return unpack c bs ++ es
  rows 0 d.shape.1

/-- Checks shared by the transfers: the view, its container and the image: rows, row length, bytes per row (R139). -/
def transferChecks (vw : BitVec 4) (a : Word) (vec col : Bool) : M (Desc × Nat × Nat × Nat) := do
  let c ← me
  let x ← myCtx
  let v := vget c.vw vw.toNat Desc.zero
  if v.isNone then trapR 0x0D 1
  if vec != v.isVec then trapR 0x0D 2
  let k := v.container (c.viewFmt v)
  if v.sizeReason k ≠ 0 then trapR 0x0D 7
  let (nr, nc) := if col then (v.shape.2, v.shape.1) else v.shape
  if k = 4 ∧ (nc % 2 = 1 ∨ (!v.isVec ∧ v.cols % 2 = 1)) then trapR 0x0D 3
  let sb := nc * k / 8
  if a.toNat ≥ 2 ^ 20 ∨ a.toNat + nr * sb > x.par.fp then refuse 0x0A a
  aligned a 16
  return (v, k, nr, nc)

/-- Stop before a transfer or `xmv` whose rows of a view meet a watchpoint slot (spec/21 R404). -/
def watchView (d : Desc) (c : Nat) (write : Bool) : M Unit :=
  let rec rows (i : Nat) : Nat → M Unit
    | 0 => pure ()
    | n + 1 => do
      watch (word (0xFFFFFFFFFFE00000 + d.rowAddr i)) (d.rowBytes c) write
      rows (i + 1) n
  rows 0 d.shape.1

/-- Elements moved into a view: bit [127] of an accumulator element is read-only for transfers and keeps its value (spec/07
R157). -/
def Desc.keepSpare (d : Desc) (old new : List Nat) : List Nat :=
  if d.isAcc then List.zipWith (fun o e => o / 2 ^ 127 % 2 * 2 ^ 127 + e % 2 ^ 127) old new else new

/-- Write elements moved by a transfer or `xmv` into a view. -/
def moveInto (d : Desc) (c : Nat) (es : List Nat) : M Unit := updM (fun s =>
  s.viewWrite s.cur d c (d.keepSpare (d.readFrom c (s.core s.cur).reg) es))

/-- `vld`, `tld`: image to view. -/
def loadView (vw : BitVec 4) (a : Word) (vec col : Bool) : M Unit := do
  let (v, k, nr, nc) ← transferChecks vw a vec col
  let n := nr * (nc * k / 8)
  watch (word (0xFFFFFFFFFFF00000 + a.toNat)) n false
  watchView v k true
  drainM
  let id ← myId
  openPlace (.scratch id.l a.toNat) n a true
  let bs ← readAt (.scratch id.l a.toNat) n
  let es := unpack k bs
  moveInto v k (if col then transpose nr nc es else es)

/-- `vst`, `tst`: view to image, as a store of the core. -/
def storeView (vw : BitVec 4) (a : Word) (vec col : Bool) : M Unit := do
  let (v, k, nr, nc) ← transferChecks vw a vec col
  let n := nr * (nc * k / 8)
  watchView v k false
  watch (word (0xFFFFFFFFFFF00000 + a.toNat)) n true
  drainM
  let id ← myId
  let c ← me
  let p := Place.scratch id.l a.toNat
  coverM p n a
  reserveM (blockSlots n) p
  let es ← viewReadM v k
  let bs := pack k (if col then transpose v.shape.1 v.shape.2 es else es)
  demandM p n
  tryM (fun s => s.perform id c.win.openWin c.storeSeq.toNat p bs false .block true)
  updM (fun s => (s.askPlace id.asid 2 id.l 0 p n).markStore id p n [])
  let _ ← takeSeq

def execVld (vw : BitVec 4) (rs1 : Reg) (imm : BitVec 12) (s : State) : Host.Outcome State Fault Refusal :=
  runScalar (parcelOf (.vld vw rs1 imm)) (do
    let c ← me
    loadView vw (c.ea rs1 imm) true false
    advance) s

def execVst (vw : BitVec 4) (rs1 : Reg) (imm : BitVec 12) (s : State) : Host.Outcome State Fault Refusal :=
  runScalar (parcelOf (.vst vw rs1 imm)) (do
    let c ← me
    storeView vw (c.ea rs1 imm) true false
    advance) s

def execTld (vw : BitVec 4) (col : Bool) (rs1 : Reg) (imm : BitVec 12) (s : State) : Host.Outcome State Fault Refusal :=
  runScalar (parcelOf (.tld vw col rs1 imm)) (do
    let c ← me
    loadView vw (c.ea rs1 imm) false col
    advance) s

def execTst (vw : BitVec 4) (col : Bool) (rs1 : Reg) (imm : BitVec 12) (s : State) : Host.Outcome State Fault Refusal :=
  runScalar (parcelOf (.tst vw col rs1 imm)) (do
    let c ← me
    storeView vw (c.ea rs1 imm) false col
    advance) s

/-! ### `xmv` (R142, R143) -/

/-- Resolve one accumulator element for a read: `i32` or `f32` by its kind (R143). -/
def resolveRead (v : Nat) : Nat × Evs :=
  let a := AE.ofNat v
  if a.float then resolveFloat a Fmt.f32 .rne 0
  else
    let r := resolveInt a 0 .rne 0
    (wrapNat 32 r.1, r.2)

def execXmv (dst src : BitVec 4) (s : State) : Host.Outcome State Fault Refusal :=
  runScalar (parcelOf (.xmv dst src)) (do
    let c ← me
    let S := vget c.vw src.toNat Desc.zero
    let D := vget c.vw dst.toNat Desc.zero
    if S.isNone ∨ D.isNone then trapR 0x0D 1
    let cs := S.container (c.viewFmt S)
    let cd := D.container (c.viewFmt D)
    if S.sizeReason cs ≠ 0 ∨ D.sizeReason cd ≠ 0 then trapR 0x0D 7
    if (cs = 4 ∧ S.shape.2 % 2 = 1) ∨ (cd = 4 ∧ D.shape.2 % 2 = 1) then trapR 0x0D 3
    if S.elems ≠ D.elems then trapR 0x0D 4
    if D.isAcc ∧ !S.isAcc then trapR 0x0D 5
    let resolves := S.isAcc && !D.isAcc
    if resolves ∧ (D.fsel ∨ (D.etype ≠ 0x3 ∧ D.etype ≠ 0xA)) then trapR 0x0D 5
    if !resolves ∧ cs ≠ cd then trapR 0x0D 5
    watchView S cs false
    watchView D cd true
    drainM
    let es ← viewReadM S cs
    if resolves then
      if es.any (fun e => (AE.ofNat e).float != (D.etype == 0xA)) then trapR 0x0D 6
      if S.strict ∧ es.any (fun e => !(AE.ofNat e).res) then trap0 0x0E
      let rs := es.map resolveRead
      eventsM (rs.flatMap (fun r => r.2))
      moveInto D cd (rs.map (fun r => r.1))
    else moveInto D cd es
    advance) s

/-! ### Rings (spec/05 R108 to R115) -/

/-- Rings that a matrix or vector word names. -/
def ringsOf (w : CmdWord) : List Nat :=
  if w.extractLsb' 8 4 = 1 ∨ w.extractLsb' 8 4 = 2 then
    let b := mvOf w
    let op (o : BitVec 8) : List Nat := if o.getLsbD 0 then [o.toNat / 2 % 16] else []
    let sel (f : BitVec 5) : List Nat := if f.getLsbD 0 then [f.toNat / 2] else []
    op b.a ++ op b.b ++ op b.d ++ sel b.meta_ ++ sel b.sca ++ sel b.scb
  else []

/-- Some word in an engine queue of the core, issued or not, names a ring. -/
def CoreSt.namesRing (c : CoreSt) (rg : Nat) : Bool :=
  (c.eqm.pushes ++ c.eqv.pushes).any (fun p => p.words.any (fun w => (ringsOf w.word).contains rg))
    || c.flights.any (fun f => (ringsOf f.word).contains rg)

/-- RING_INVALID reason of a descriptor, 0 for none (R113). -/
def Desc.ringReason (d : Desc) (fp : Nat) : Nat :=
  if bits d.d0 63 53 != 0 || bits d.d1 63 40 != 0 then 1
  else if bits d.d0 31 20 == 0 || bits d.d0 3 0 != 0 then 2
  else if !bit d.d0 52 && bits d.d0 51 40 != 0 then 3
  else if d.base + d.count * d.esz > fp then 4
  else if d.occ > d.count then 5
  else if d.hslot ≥ d.count then 7
  else 0

def execRingset (rg : BitVec 4) (rs1 rs2 : Reg) (s : State) : Host.Outcome State Fault Refusal :=
  runScalar (parcelOf (.ringset rg rs1 rs2)) (do
    let c ← me
    let x ← myCtx
    if c.namesRing rg.toNat then waitM
    let d : Desc := ⟨c.rx rs1, c.rx rs2⟩
    if d.d0 = 0 then
      if d.d1 ≠ 0 then trapR 0x0F 1
    else if d.ringReason x.par.fp ≠ 0 then trapR 0x0F (d.ringReason x.par.fp)
    modMe (fun c => c.setRing rg.toNat d)
    advance) s

def execRingadv (rg : BitVec 4) (rs1 : Reg) (s : State) : Host.Outcome State Fault Refusal :=
  runScalar (parcelOf (.ringadv rg rs1)) (do
    let n ← rxM rs1
    let c ← me
    let d := vget c.rg rg.toNat Desc.zero
    if d.unset then trapR 0x0F 6
    if n.toNat > d.count - d.occ then trap0 0x10
    release .bench
    modMe (fun c => { c with rg := vset c.rg rg.toNat (d.setPtrs d.head (d.tail + n.toNat) d.hslot) })
    advance) s

def execRingrel (rg : BitVec 4) (rs1 : Reg) (s : State) : Host.Outcome State Fault Refusal :=
  runScalar (parcelOf (.ringrel rg rs1)) (do
    let n ← rxM rs1
    let c ← me
    let id ← myId
    let d := vget c.rg rg.toNat Desc.zero
    let p := vget c.rgp rg.toNat ⟨0, 0⟩
    if d.unset then trapR 0x0F 6
    if p.rd.toNat ≠ d.head then waitM
    if n.toNat > d.occ then trap0 0x11
    if bit d.d0 52 ∧ n ≠ 0 then
      if !(← get).launchRoom id (bits d.d0 51 40) n.toNat then waitM
    let rels ← releaseFor .die
    let h := d.head + n.toNat
    modMe (fun c => { c with
      rg := vset c.rg rg.toNat (d.setPtrs h d.tail ((d.hslot + n.toNat) % d.count))
      rgp := vset c.rgp rg.toNat { p with rd := BitVec.ofNat 16 h } })
    if bit d.d0 52 ∧ n ≠ 0 then updM (fun s => s.increment id (bits d.d0 51 40) n.toNat rels)
    advance) s

/-! ### Shape records (spec/04 R96, R97) -/

/-- A shape record: rank (dimensions minus 1), type, broadcast bits, extents and strides by dimension. -/
structure ShapeRec where
  dw : List Nat                 -- the eight doublewords

namespace ShapeRec

def ofBytes (bs : List Byte) : ShapeRec := ⟨(List.range 8).map (fun i => leNat ((bs.drop (8 * i)).take 8))⟩
def w (r : ShapeRec) (i : Nat) : Nat := r.dw.getD i 0
def type (r : ShapeRec) : Nat := r.w 0 % 16
def rank (r : ShapeRec) : Nat := r.w 0 / 16 % 4
def bcast (r : ShapeRec) (k : Nat) : Bool := r.w 0 / 2 ^ (8 + k) % 2 == 1
def e (r : ShapeRec) (k : Nat) : Nat := r.w 1 / 2 ^ (16 * k) % 65536
/-- Extent in the walk. -/
def ext (r : ShapeRec) (k : Nat) : Nat := if k ≤ r.rank then r.e k else 1
/-- Source stride of dimension `k` = 1 to 3. -/
def s (r : ShapeRec) (k : Nat) : Nat := (r.w 2 + r.w 3 * 2 ^ 64) / 2 ^ (32 * (k - 1)) % 2 ^ 32
def d (r : ShapeRec) (k : Nat) : Nat := (r.w 4 + r.w 5 * 2 ^ 64) / 2 ^ (32 * (k - 1)) % 2 ^ 32
/-- Row bytes. -/
def rb (r : ShapeRec) : Nat := r.e 0 * typeBits r.type / 8

/-- Source spans p0, p1, … up to dimension `k`. -/
def p (r : ShapeRec) : Nat → Nat
  | 0 => r.rb
  | k + 1 => if r.s (k + 1) = 0 && r.bcast (k + 1) then p r k else r.s (k + 1) * r.e (k + 1)

def dp (r : ShapeRec) : Nat → Nat
  | 0 => r.rb
  | k + 1 => r.d (k + 1) * r.e (k + 1)

/-- Dimensions 1 to `rank`. -/
def dims (r : ShapeRec) : List Nat := (List.range r.rank).map (· + 1)

/-- A field of a dimension above `rank` is nonzero. -/
def excess (r : ShapeRec) : Bool :=
  ([1, 2, 3].filter (fun k => decide (r.rank < k))).any (fun k => r.e k != 0 || r.s k != 0 || r.d k != 0 || r.bcast k)

/-- Checks 0x01 to 0x05; 0 for none. -/
def early (r : ShapeRec) : Nat :=
  if r.w 0 / 2 ^ 12 != 0 || r.w 0 / 64 % 4 != 0 || r.w 3 / 2 ^ 32 != 0 || r.w 5 / 2 ^ 32 != 0 || r.w 6 != 0 || r.w 7 != 0
      || r.excess then 1
  else if r.e 0 == 0 || r.dims.any (fun k => r.e k == 0) then 2
  else if r.dims.any (fun k => (decide (r.s k < r.p (k - 1)) && !(r.s k == 0 && r.bcast k)) || decide (r.d k < r.dp (k - 1))) then 3
  else if r.bcast 0 || r.dims.any (fun k => r.bcast k && r.s k != 0) then 4
  else if typeBits r.type == 4 && r.e 0 % 2 == 1 then 5
  else 0

/-- Check 0x08. -/
def tooBig (r : ShapeRec) : Bool := decide (r.ext 0 * r.ext 1 * r.ext 2 * r.ext 3 * typeBits r.type / 8 > 2 ^ 28 - 1)

/-- Offsets of the rows in source and destination, in walk order. -/
def walk (r : ShapeRec) : List (Nat × Nat) :=
  (List.range (r.ext 3)).flatMap (fun i3 => (List.range (r.ext 2)).flatMap (fun i2 => (List.range (r.ext 1)).map (fun i1 =>
    (i1 * r.s 1 + i2 * r.s 2 + i3 * r.s 3, i1 * r.d 1 + i2 * r.d 2 + i3 * r.d 3))))

end ShapeRec

/-- `shape` (R99). -/
def execShape (rs1 : Reg) (s : State) : Host.Outcome State Fault Refusal :=
  runScalar (parcelOf (.shape rs1)) (do
    let v ← rxM rs1
    let a := v.toNat % 2 ^ 20
    let x ← myCtx
    if a + 64 > 0xC0000 then trapR 0x0B 9
    if a + 64 > x.par.fp then refuse 0x0A (word a)
    let bs ← ownRead a 64
    let r := ShapeRec.ofBytes bs
    if r.early ≠ 0 then trapR 0x0B r.early
    if r.tooBig then trapR 0x0B 8
    if a % 64 ≠ 0 then trapR 0x0B 9
    advance) s

end Sys2Proof.Machine
end

