-- ==== Sys2Proof/Machine/Narrow.lean ====
section
/-! DEFINITION. Narrow-format helpers, major opcode custom-3 (spec/09 R232 to R234). -/

namespace Sys2Proof.Machine

def rndRM : Rnd → RM
  | .rne => .rne
  | .rtz => .rtz
  | .sr => .sr

/-- The format register `k` as it stands. -/
def CoreSt.fmtReg (c : CoreSt) (k : BitVec 3) : Word := vget c.csr.fmt k.toNat 0

/-- The stochastic draw of an `nfcvt`: stream id and index come from x[rs2] (R232). -/
def nfDraw (rm : Rnd) (rs2 : Reg) : M Nat := do
  let c ← me
  let x ← myCtx
  match rm with
  | .sr =>
    let v := c.rx rs2
    return srDraw x.par.seed c.lcn (bits v 63 56) (bits v 55 0)
  | _ => return 0

/-- `nfcvt.n`: FP32 to a narrow code. -/
def execNfcvtN (rm : Rnd) (fmt : BitVec 3) (rd rs1 rs2 : Reg) (s : State) : Host.Outcome State Fault Refusal :=
  runScalar (parcelOf (.nfcvtN rm fmt rd rs1 rs2)) (do
    let c ← me
    let draw ← nfDraw rm rs2
    let r := roundTo (Fmt.ofReg (c.fmtReg fmt)) (decodeFloat Fmt.f32 (unbox .s (c.rf rs1))) (rndRM rm) draw
    eventsM r.2
    wxM rd (word r.1)
    advance) s

/-- `nfcvt.f`: a narrow code to FP32. -/
def execNfcvtF (rm : Rnd) (fmt : BitVec 3) (rd rs1 rs2 : Reg) (s : State) : Host.Outcome State Fault Refusal :=
  runScalar (parcelOf (.nfcvtF rm fmt rd rs1 rs2)) (do
    let c ← me
    let draw ← nfDraw rm rs2
    let F := Fmt.ofReg (c.fmtReg fmt)
    let r := roundTo Fmt.f32 (decodeFloat F ((c.rx rs1).toNat % 2 ^ F.width)) (rndRM rm) draw
    eventsM r.2
    wfM rd (nanBox .s r.1)
    advance) s

/-- `nfpack` (R233). -/
def execNfpack (fmt : BitVec 3) (rd rs1 rs2 : Reg) (s : State) : Host.Outcome State Fault Refusal :=
  runScalar (parcelOf (.nfpack fmt rd rs1 rs2)) (do
    let c ← me
    let F := Fmt.ofReg (c.fmtReg fmt)
    wxM rd (((c.rx rs1) >>> F.cont) ||| word ((c.rx rs2).toNat % 2 ^ F.width * 2 ^ (64 - F.cont)))
    advance) s

/-- `nfunpk` (R233). -/
def execNfunpk (fmt : BitVec 3) (rd rs1 rs2 : Reg) (s : State) : Host.Outcome State Fault Refusal :=
  runScalar (parcelOf (.nfunpk fmt rd rs1 rs2)) (do
    let c ← me
    let F := Fmt.ofReg (c.fmtReg fmt)
    let i := (c.rx rs2).toNat % (64 / F.cont)
    wxM rd (word ((c.rx rs1).toNat / 2 ^ (i * F.cont) % 2 ^ F.width))
    advance) s

/-- `rngrd` (R234). -/
def execRngrd (sid : BitVec 7) (rd rs1 : Reg) (s : State) : Host.Outcome State Fault Refusal :=
  runScalar (parcelOf (.rngrd sid rd rs1)) (do
    let c ← me
    let x ← myCtx
    wxM rd (rand64 x.par.seed c.lcn sid.toNat (c.rx rs1).toNat)
    advance) s

end Sys2Proof.Machine
end

