-- ==== Sys2Proof/Machine/Push.lean ====
section
/-! DEFINITION. Pushing command words: validation (spec/02 R43 to R51, spec/04 R91 to R97, spec/08 R184 to R200, spec/13
R310), capture, and `epush`, `epushb` (spec/09 R226). -/

namespace Sys2Proof.Machine

/-! ### Fields -/

/-- Class of a queue's words. -/
def queueClass : Queue → Nat
  | .eqm => 1
  | .eqv => 2
  | .eqc => 3
  | .eqp => 4

/-- Word capacity of a queue (spec/09 R227). -/
def capWords : Queue → Nat
  | .eqp => 64
  | _ => 256

/-- Scope that a push releases at. -/
def pushScope : Queue → Scope
  | .eqm | .eqv => .bench
  | .eqc => .die
  | .eqp => .pkg

/-- Opcodes assigned in a class (spec/02 R48). -/
def opAssigned (cls op : Nat) : Bool :=
  match cls with
  | 1 => (1 ≤ op && op ≤ 8) || (0x11 ≤ op && op ≤ 0x14) || op == 0x20 || op == 0x21 || op == 0x30 || op == 0x31 || op == 0x38
  | 2 => 1 ≤ op && op ≤ 0x1B
  | 3 => 1 ≤ op && op ≤ 8
  | 4 => 1 ≤ op && op ≤ 4
  | _ => false

/-! ### Capture -/

/-- View named by an operand byte; unset for a ring. -/
def CoreSt.viewOf (c : CoreSt) (o : Nat) : Desc := if o % 2 = 0 then vget c.vw (o / 2 % 16) Desc.zero else Desc.zero

/-- A matrix or vector word with what it captures. -/
def CoreSt.captureMv (c : CoreSt) (w : CmdWord) : PWord :=
  let va := c.viewOf (wbits w 71 64)
  let vb := c.viewOf (wbits w 79 72)
  let vd := c.viewOf (wbits w 87 80)
  let vm := if wordClass w = 2 ∧ wordOp w = 0x10 then vget c.vw (wbits w 171 168) Desc.zero else Desc.zero
  { word := w
    fs := vget c.f (wbits w 101 97) 0
    va, vb, vd, vm
    ca := c.viewFmt va, cb := c.viewFmt vb, cd := c.viewFmt vd, cm := c.viewFmt vm
    fa := vget c.csr.fmt (wbits w 90 88) 0
    fb := vget c.csr.fmt (wbits w 93 91) 0
    fd := vget c.csr.fmt (wbits w 96 94) 0
    shape := [], block := [] }

/-- Capture of a population word: the format register of its weights. -/
def CoreSt.capturePop (c : CoreSt) (w : CmdWord) : PWord := { plainWord w with fa := vget c.csr.fmt (wbits w 146 144) 0 }

/-! ### Matrix words -/

/-- A multiply: container bits of A and B, kind float, sparse, K covered per cycle (spec/08 R189). -/
structure MulForm where
  ca     : Nat
  cb     : Nat
  float  : Bool
  sparse : Bool
  step   : Nat

def mulForm (op : Nat) : Option MulForm :=
  match op with
  | 0x01 => some ⟨8, 8, true, false, 16⟩
  | 0x02 => some ⟨8, 4, true, false, 16⟩
  | 0x03 => some ⟨4, 4, true, false, 32⟩
  | 0x04 => some ⟨16, 16, true, false, 8⟩
  | 0x05 => some ⟨16, 8, true, false, 8⟩
  | 0x06 => some ⟨8, 8, false, false, 16⟩
  | 0x07 => some ⟨8, 4, false, false, 16⟩
  | 0x08 => some ⟨4, 4, false, false, 32⟩
  | 0x11 => some ⟨8, 8, true, true, 16⟩
  | 0x12 => some ⟨4, 4, true, true, 32⟩
  | 0x13 => some ⟨8, 8, false, true, 16⟩
  | 0x14 => some ⟨16, 16, true, true, 8⟩
  | _ => none

/-- Fields of a matrix or vector word. -/
structure MvF where
  w : CmdWord

namespace MvF

def a (f : MvF) : Nat := wbits f.w 71 64
def b (f : MvF) : Nat := wbits f.w 79 72
def d (f : MvF) : Nat := wbits f.w 87 80
def fa (f : MvF) : Nat := wbits f.w 90 88
def fb (f : MvF) : Nat := wbits f.w 93 91
def fd (f : MvF) : Nat := wbits f.w 96 94
def fs (f : MvF) : Nat := wbits f.w 101 97
def fsen (f : MvF) : Bool := wbits f.w 102 102 == 1
def rm (f : MvF) : Nat := wbits f.w 105 103
def sid (f : MvF) : Nat := wbits f.w 113 106
def scope (f : MvF) : Nat := wbits f.w 116 114
def meta_ (f : MvF) : Nat := wbits f.w 121 117
def sca (f : MvF) : Nat := wbits f.w 126 122
def scb (f : MvF) : Nat := wbits f.w 131 127
def m (f : MvF) : Nat := wbits f.w 143 132
def n (f : MvF) : Nat := wbits f.w 155 144
def k (f : MvF) : Nat := wbits f.w 167 156
def imm (f : MvF) : Nat := wbits f.w 199 168
def sn (f : MvF) : Nat := wbits f.w 203 200

end MvF

/-- Operand byte: kind, index, port. -/
def opRing (o : Nat) : Bool := o % 2 == 1
def opIdx (o : Nat) : Nat := o / 2 % 16
def opCol (o : Nat) : Bool := o / 32 % 2 == 1

/-- Image shape of an operand: rows and elements per row by port (spec/08 R184). -/
def imageShape (col : Bool) (r c : Nat) : Nat × Nat := if col then (c, r) else (r, c)

/-- A view as an operand is usable: set, sizes hold, no port on a vector view (R133, R137). -/
def Desc.operandOk (d : Desc) (fmt : Word) (o : Nat) : Bool :=
  !d.isNone && (!d.fsel || d.sizeReason (d.container fmt) == 0) && !(d.isVec && opCol o)

/-- Entry size of a set ring, 0 for an unset one. -/
def CoreSt.entrySize (c : CoreSt) (r : Nat) : Nat :=
  let d := vget c.rg r Desc.zero
  if d.unset then 0 else d.esz

/-- Operand A or B of a multiply fits its image (R184). -/
def CoreSt.mulOperand (c : CoreSt) (o : Nat) (v : Desc) (fmt : Word) (cont r k : Nat) : Bool :=
  let (ir, ic) := imageShape (opCol o) r k
  if opRing o then
    let E := c.entrySize (opIdx o)
    E != 0 && (cont != 4 || ic % 2 == 0) && decide (ir * (ic * cont / 8) ≤ E)
  else v.operandOk fmt o && v.kind == 1 && v.rows == ir && v.cols == ic && v.container fmt == cont

/-- Format selector of an operand (R185). -/
def fmtSelOk (float : Bool) (cont sel : Nat) (img : Word) : Bool :=
  if !float then sel ≤ 1
  else if cont = 16 then sel ≤ 1
  else
    let w := (Fmt.ofReg img).width
    if cont = 8 then w ≥ 5 else w ≤ 4

/-- A scale or metadata ring field: disabled and zero, or a ring whose entries hold `need` bytes. -/
def CoreSt.selOk (c : CoreSt) (f need : Nat) (must : Bool) : Bool :=
  if f % 2 = 1 then
    let E := c.entrySize (f / 2)
    E != 0 && decide (need ≤ E)
  else !must && f == 0

/-- An accumulator view operand. -/
def Desc.accOk (d : Desc) (fmt : Word) (o : Nat) : Bool := !opRing o && d.operandOk fmt o && d.isAcc

/-- Unused fields of a matrix word are nonzero (reason 0x09). -/
def matrixUnused (f : MvF) : Bool :=
  let op := wordOp f.w
  match mulForm op with
  | some g =>
    f.fd != 0 || f.rm != 0 || f.sid != 0 || f.imm != 0 || (!g.sparse && (f.sn != 0 || f.meta_ != 0))
      || (!g.float && (f.fsen || f.fs != 0 || f.sca != 0 || f.scb != 0)) || (!f.fsen && f.fs != 0)
      || (f.sca % 2 == 0 && f.sca != 0) || (f.scb % 2 == 0 && f.scb != 0)
  | none =>
    let common := f.m != 0 || f.n != 0 || f.k != 0 || f.fa != 0 || f.fb != 0 || f.fsen || f.fs != 0
      || f.meta_ != 0 || f.sca != 0 || f.scb != 0 || f.sn != 0
    if op = 0x20 ∨ op = 0x21 then common || f.a != 0 || f.b != 0 || f.fd != 0 || f.rm != 0 || f.sid != 0
    else if op = 0x38 then common || f.fd != 0 || f.rm != 0 || f.sid != 0 || (f.imm / 8 % 2 == 0 && f.d != 0)
    else common || f.b != 0 || (f.rm != 2 && f.sid != 0)
      || (if op = 0x31 then f.imm % 4 != 0 && f.fd != 0 else f.fd != 0)

/-- Container of the target of `mres` (R195, R196). -/
def mresBits (op imm : Nat) (fd : Word) : Nat :=
  if op = 0x30 then 32
  else match imm % 4 with
    | 0 => (Fmt.ofReg fd).cont
    | 1 => 32
    | _ => 16

/-- A used field of a matrix word is out of range (reason 0x0A). -/
def CoreSt.matrixRange (c : CoreSt) (p : PWord) : Bool :=
  let f : MvF := ⟨p.word⟩
  let op := wordOp p.word
  match mulForm op with
  | some g =>
    let kc := if g.sparse then f.k * f.sn / 16 else f.k
    let nb := (f.k + 127) / 128
    let (dr, dc) := imageShape (opCol f.d) f.m f.n
    !(1 ≤ f.m && f.m ≤ 64 && 1 ≤ f.n && f.n ≤ 64
      && (if g.sparse then f.k % 16 == 0 && decide (16 ≤ f.k) && decide (f.k ≤ 4080) && (f.sn == 4 || f.sn == 8)
          else decide (1 ≤ f.k))
      && c.mulOperand f.a p.va p.ca g.ca f.m kc
      && c.mulOperand f.b p.vb p.cb g.cb f.k f.n
      && p.vd.accOk p.cd f.d && p.vd.rows == dr && p.vd.cols == dc
      && fmtSelOk g.float g.ca f.fa p.fa && fmtSelOk g.float g.cb f.fb p.fb
      && (!g.float || (c.selOk f.sca (f.m * nb) false && c.selOk f.scb (f.n * nb) false))
      && (!g.sparse || c.selOk f.meta_ (f.m * f.k / 8) true))
  | none =>
    if op = 0x20 then !(p.vd.accOk p.cd f.d && f.imm < 256)
    else if op = 0x21 then !(p.vd.accOk p.cd f.d && f.imm < 256 && f.imm ≥ 1)
    else if op = 0x38 then
      !(p.va.accOk p.ca f.a && p.vb.accOk p.cb f.b && p.va.elems == p.vb.elems && f.imm % 8 ≤ 5 && f.imm < 16
        && (f.imm / 8 % 2 == 0 || (!opRing f.d && p.vd.operandOk p.cd f.d && !p.vd.isAcc && !p.vd.fsel
              && (p.vd.etype == 0x1 || p.vd.etype == 0x6) && p.vd.elems == p.va.elems)))
    else
      let named := if op = 0x30 then 0x13F else 0x103
      let cont := mresBits op f.imm p.fd
      !(p.va.accOk p.ca f.a && f.imm &&& (0xFFFFFFFF - named) == 0
        && (if opRing f.d then
              c.entrySize (opIdx f.d) != 0 && decide ((p.va.elems * cont + 7) / 8 ≤ c.entrySize (opIdx f.d))
            else p.vd.operandOk p.cd f.d && !p.vd.isAcc && p.vd.elems == p.va.elems && p.vd.container p.cd == cont))

/-! ### Vector words (spec/08 R198 to R200) -/

/-- Class of a view's type: 0 integer, 1 float, 2 `e8s`, 3 none (R199). -/
def Desc.vclass (d : Desc) : Nat :=
  if d.fsel then 1
  else match d.etype with
    | 0xA | 0xB | 0xC => 1
    | 0xD | 0xE => 3
    | 0xF => 2
    | _ => 0

/-- Same type: the type code, or the captured format. -/
def sameType (d : Desc) (df : Word) (e : Desc) (ef : Word) : Bool :=
  if d.fsel then e.fsel && df == ef else !e.fsel && d.etype == e.etype

/-- Which operands a vector command uses: b. -/
def vecUsesB (op imm : Nat) : Bool :=
  match op with
  | 0x01 | 0x02 | 0x03 | 0x04 | 0x05 | 0x06 | 0x0C | 0x0D | 0x0E | 0x0F | 0x10 | 0x16 | 0x19 => true
  | 0x09 | 0x0A | 0x0B => imm / 256 % 2 == 1
  | _ => false

/-- The word rounds (R200), given whether `a` and `d` are of float or `e8s` class. -/
def vecRounds (op : Nat) (aF dF : Bool) : Bool :=
  match op with
  | 0x01 | 0x02 | 0x03 | 0x04 | 0x14 => dF
  | 0x11 => aF || dF
  | 0x12 | 0x13 | 0x18 | 0x1A => true
  | _ => false

/-- Bits of `imm` a vector command names, for integer class `isI`. -/
def vecImm (op : Nat) (isI : Bool) : Nat :=
  match op with
  | 0x01 | 0x02 | 0x03 | 0x04 | 0x07 | 0x08 | 0x14 => if isI then 2 ^ 31 else 0
  | 0x09 => 2 ^ 31 + 0x13F
  | 0x0A | 0x0B => 0x13F
  | 0x0F => 7
  | 0x10 => 15
  | 0x15 => 1
  | 0x17 => 0xFFFF
  | 0x1A => 0xFFFF3FFF
  | _ => 0

/-- The command's `imm` column is empty. -/
def vecNoImm (op : Nat) : Bool :=
  match op with
  | 0x05 | 0x06 | 0x0C | 0x0D | 0x0E | 0x11 | 0x12 | 0x13 | 0x16 | 0x18 | 0x19 | 0x1B => true
  | _ => false

/-- A source counts as float class for rounding: its type; an accumulator source may be either (R209). -/
def Desc.maybeF (d : Desc) : Bool := d.isAcc || d.vclass == 1 || d.vclass == 2

def vectorUnused (p : PWord) : Bool :=
  let f : MvF := ⟨p.word⟩
  let op := wordOp p.word
  let dF := p.vd.vclass == 1 || p.vd.vclass == 2
  let r := vecRounds op (p.va.maybeF) dF
  f.m != 0 || f.n != 0 || f.k != 0 || f.fa != 0 || f.fb != 0 || f.fd != 0 || f.meta_ != 0 || f.sca != 0 || f.scb != 0
    || f.sn != 0 || (op != 0x18 && (f.fsen || f.fs != 0)) || (op == 0x18 && !f.fsen && f.fs != 0)
    || (!r && (f.rm != 0 || f.sid != 0)) || (f.rm != 2 && f.sid != 0)
    || (!vecUsesB op f.imm && f.b != 0) || (vecNoImm op && f.imm != 0)

/-- A source of a vector command: a set view, no ring; its class is in `cls` unless it is an accumulator view. -/
def srcOk (v : Desc) (fmt : Word) (o : Nat) (cls : List Nat) : Bool :=
  !opRing o && v.operandOk fmt o && (v.isAcc || cls.contains v.vclass)

/-- A source has the type of `d`, or is an accumulator view, which R209 checks when the word runs. -/
def likeD (v : Desc) (fmt : Word) (d : Desc) (df : Word) : Bool := v.isAcc || sameType v fmt d df

def vectorRange (p : PWord) : Bool :=
  let f : MvF := ⟨p.word⟩
  let op := wordOp p.word
  let I := [0]
  let IF := [0, 1]
  let F := [1]
  let any := [0, 1, 2, 3]
  let d := p.vd
  let dOk (cls : List Nat) : Bool := !opRing f.d && d.operandOk p.cd f.d && !d.isAcc && cls.contains d.vclass
  let a (cls : List Nat) : Bool := srcOk p.va p.ca f.a cls
  let b (cls : List Nat) : Bool := srcOk p.vb p.cb f.b cls
  let aD := likeD p.va p.ca d p.cd
  let bD := likeD p.vb p.cb d p.cd
  let ca := p.va.elems == d.elems
  let cb := p.vb.elems == d.elems
  let byteD := !d.fsel && (d.etype == 0x1 || d.etype == 0x6)
  let immOk := f.imm &&& (0xFFFFFFFF - vecImm op (d.vclass == 0)) == 0
  let ok : Bool := match op with
    | 0x01 | 0x02 | 0x03 | 0x04 | 0x05 | 0x06 => dOk IF && a IF && b IF && aD && bD && ca && cb
    | 0x07 | 0x08 => dOk IF && a IF && aD && ca
    | 0x09 | 0x0A | 0x0B => dOk I && a I && aD && ca && (f.imm / 256 % 2 == 0 || (b I && cb))
    | 0x0C | 0x0D | 0x0E => dOk any && a any && b any && ca && cb
        && (p.va.isAcc || p.va.container p.ca == d.container p.cd) && (p.vb.isAcc || p.vb.container p.cb == d.container p.cd)
    | 0x0F => dOk I && byteD && a IF && b IF && (p.va.isAcc || p.vb.isAcc || sameType p.va p.ca p.vb p.cb) && ca && cb
        && f.imm % 8 ≤ 5
    | 0x10 => dOk any && a any && b any && aD && bD && ca && cb && !p.vm.isNone && !p.vm.isAcc && !p.vm.fsel
        && (p.vm.etype == 0x1 || p.vm.etype == 0x6) && p.vm.elems == d.elems
    | 0x11 => dOk [0, 1, 2] && a [0, 1, 2] && ca
        && !(p.va.vclass == 2 && !p.va.isAcc && d.vclass != 1) && !(d.vclass == 2 && !p.va.isAcc && p.va.vclass != 1)
    | 0x12 | 0x13 => dOk F && a F && aD && ca
    | 0x14 | 0x15 => dOk IF && a IF && aD && d.elems == 1
    | 0x16 => dOk any && a any && aD && b I && cb
    | 0x17 => dOk any && a any && aD && decide (f.imm % 65536 < p.va.elems)
    | 0x18 => dOk F && a F && aD && ca && f.fsen
    | 0x19 => dOk IF && a IF && aD && ca && b IF && bD && p.vb.elems == 2
    | 0x1A => dOk I && a I && ca
    | _ => dOk I && byteD && a F && ca
  !(ok && immOk)

/-! ### Copy words (spec/04 R91, R92) -/

structure CpF where
  w : CmdWord

namespace CpF

def src (f : CpF) : Nat := wbits f.w 117 64
def sspace (f : CpF) : Nat := wbits f.w 119 118
def sub (f : CpF) : Nat := wbits f.w 123 120
def dst (f : CpF) : Nat := wbits f.w 181 128
def dspace (f : CpF) : Nat := wbits f.w 183 182
def shp (f : CpF) : Nat := wbits f.w 211 192
def shen (f : CpF) : Bool := wbits f.w 212 212 == 1
def len (f : CpF) : Nat := wbits f.w 240 213
def scope (f : CpF) : Nat := wbits f.w 243 241
def grp (f : CpF) : Nat := wbits f.w 255 244
def pat (f : CpF) : Nat := wbits f.w 127 64

end CpF

/-- A range breaks the push-time conditions of R91. -/
def copyRangeBad (space a n : Nat) : Bool :=
  match space with
  | 0 => (decide (a < 2 ^ 53) && decide (a + n > 2 ^ 53)) || decide (a + n > 2 ^ 54 - 0x20000000)
  | 1 => decide (a ≥ 2 ^ 20) || decide (a + n > 0xC0000)
  | _ => decide (a ≥ 2 ^ 28) || decide (a % 2 ^ 20 + n > 0xC0000)

/-- Element types of `rdx` (R94) and their bytes; 0 for a type it does not take. -/
def rdxBytes (t : Nat) : Nat :=
  match t with
  | 0x2 | 0x7 | 0xB | 0xC => 2
  | 0x3 | 0x8 | 0xA => 4
  | 0x4 | 0x9 => 8
  | _ => 0

def copyUnused (f : CpF) : Bool :=
  match wordOp f.w with
  | 0x01 => f.shen || f.shp != 0 || f.sub != 0 || f.grp != 0
  | 0x02 | 0x03 | 0x04 => f.len != 0 || f.sub != 0 || f.grp != 0 || (!f.shen && f.shp != 0)
  | 0x05 => f.grp != 0 || (if f.shen then f.len != 0 else f.shp != 0)
  | 0x06 => f.sub != 0 || (if f.shen then f.len != 0 else f.shp != 0)
  | 0x07 => f.shen || f.shp != 0 || f.grp != 0
  | _ => f.src != 0 || f.sspace != 0 || f.dst != 0 || f.dspace != 0 || f.len != 0 || f.shen || f.shp != 0 || f.grp != 0

/-- An address has a bit set above those of its space (R91): shaped or not, indexed or not. -/
def addrBitsBad (space a : Nat) : Bool :=
  match space with
  | 0 => false
  | 1 => decide (a ≥ 2 ^ 20)
  | _ => decide (a ≥ 2 ^ 28)

def copyRange (f : CpF) : Bool :=
  let both := !copyRangeBad f.sspace f.src f.len && !copyRangeBad f.dspace f.dst f.len
  let bits := !addrBitsBad f.sspace f.src && !addrBitsBad f.dspace f.dst
  match wordOp f.w with
  | 0x01 => !(f.len ≥ 1 && both)
  | 0x02 | 0x03 | 0x04 => !(f.shen && bits)
  | 0x05 =>
    let e := rdxBytes f.sub
    e == 0 || f.src % e != 0 || f.dst % e != 0 || !bits || (!f.shen && (f.len == 0 || f.len % e != 0 || !both))
  | 0x06 => f.dspace != 1 || !bits || (!f.shen && !(f.len ≥ 1 && both))
  | 0x07 => !(f.len ≥ 1 && !copyRangeBad f.dspace f.dst f.len)
  | _ => f.sub / 4 != 0

/-- Last byte offset past the end of a shaped extent. -/
def ShapeRec.srcLen (r : ShapeRec) : Nat := (r.dims.map (fun k => (r.e k - 1) * r.s k)).sum + r.rb
def ShapeRec.dstLen (r : ShapeRec) : Nat := (r.dims.map (fun k => (r.e k - 1) * r.d k)).sum + r.rb

/-- SHAPE_INVALID reason of the record that a copy word names (R97), 0 for none. The indexed side of `gth` and `sct` has
no extent of its own: its rows are checked when the engine reaches them (R98). -/
def shapeReason (f : CpF) (r : ShapeRec) : Nat :=
  let op := wordOp f.w
  let al := max 1 (typeBits r.type / 8)
  let gs := op == 0x03 || op == 0x04
  if r.early ≠ 0 then r.early
  else if f.src % al ≠ 0 ∨ f.dst % al ≠ 0 then 6
  else if (op != 0x03 && copyRangeBad f.sspace f.src r.srcLen) || (op != 0x04 && copyRangeBad f.dspace f.dst r.dstLen) then 7
  else if r.tooBig then 8
  else if f.shp % 64 ≠ 0 ∨ (gs ∧ f.shp + 64 + 4 * r.e 1 > 0xC0000) then 9
  else if (gs && r.rank != 1) || (op == 0x05 && r.type != f.sub) then 10
  else 0

/-! ### Population words (spec/13 R310) -/

structure PpF where
  w : CmdWord

namespace PpF

def grp (f : PpF) : Nat := wbits f.w 75 64
def addr (f : PpF) : Nat := wbits f.w 95 76
def sigma (f : PpF) : Nat := wbits f.w 127 96
def k (f : PpF) : Nat := wbits f.w 143 128
def fmt (f : PpF) : Nat := wbits f.w 146 144
def pert (f : PpF) : Bool := wbits f.w 147 147 == 1
def seed (f : PpF) : Nat := wbits f.w 211 148
def cnt (f : PpF) : Nat := wbits f.w 239 212
def wt (f : PpF) : Nat := wbits f.w 243 240
def port (f : PpF) : Nat := wbits f.w 247 244

/-- Bytes of the weights. -/
def bytes (f : PpF) : Nat := f.cnt * typeBits f.wt / 8

end PpF

def popUnused (f : PpF) : Bool :=
  let ext := f.wt != 0 || f.cnt != 0
  let narrow := f.wt == 0xD || f.wt == 0xE
  match wordOp f.w with
  | 0x01 => f.k != 0 || f.sigma != 0 || f.seed != 0 || f.pert || ext || f.fmt != 0 || f.port != 0
  | 0x02 => f.pert || f.port != 0 || (!narrow && f.fmt != 0)
  | 0x03 => f.k != 0 || (!f.pert && (f.sigma != 0 || f.seed != 0)) || (!narrow && f.fmt != 0)
  | _ => f.grp != 0 || f.k != 0 || f.sigma != 0 || f.seed != 0 || f.pert || ext || f.fmt != 0 || f.port != 0

/-- σ is finite and not below zero in value. -/
def sigmaOk (v : Nat) : Bool :=
  match decodeFloat Fmt.f32 v with
  | .num s n _ => !s || n == 0
  | _ => false

def popRange (p : PWord) (fp : Nat) : Bool :=
  let f : PpF := ⟨p.word⟩
  let weights : Bool :=
    (f.wt == 0xA || f.wt == 0xB || f.wt == 0xC || f.wt == 0xD || f.wt == 0xE) && f.cnt ≥ 1
      && !(f.wt == 0xE && f.cnt % 2 == 1) && f.addr % (max 1 (typeBits f.wt / 8)) == 0 && decide (f.addr + f.bytes ≤ fp)
      && (f.wt != 0xD || (Fmt.ofReg p.fa).width ≥ 5) && (f.wt != 0xE || (Fmt.ofReg p.fa).width ≤ 4)
  match wordOp p.word with
  | 0x01 => !(f.addr % 16 == 0 && decide (f.addr + 16 ≤ fp))
  | 0x02 => !(weights && f.k ≤ 576 && sigmaOk f.sigma)
  | 0x03 => !(weights && (!f.pert || sigmaOk f.sigma))
  | _ => !(f.addr % 32 == 0 && decide (f.addr + 32 ≤ fp))

/-! ### Validation (spec/02 R51) -/

/-- A reserved bit is nonzero (reason 0x01); bits [7:6] of an operand byte, which R45 gives as 0, are taken as reserved bits
(notes/assumptions/53.md). -/
def reservedBits (w : CmdWord) : Bool :=
  match wordClass w with
  | 1 | 2 => wbits w 255 204 != 0 || wbits w 71 70 != 0 || wbits w 79 78 != 0 || wbits w 87 86 != 0
  | 3 => wbits w 191 184 != 0 || (wordOp w != 0x07 && wbits w 127 124 != 0)
  | _ => wbits w 255 248 != 0

/-- `rm`, a scope code, a space code or `port` is invalid (reason 0x08). -/
def badCode (w : CmdWord) : Bool :=
  match wordClass w with
  | 1 | 2 => decide (wbits w 105 103 > 2) || decide (wbits w 116 114 > 4)
  | 3 => decide (wbits w 243 241 > 4) || wbits w 183 182 == 3 || (wordOp w != 0x07 && wbits w 119 118 == 3)
  | _ => decide (wbits w 247 244 > 11)

/-- Header fields that the word does not use are nonzero (R49). -/
def headerUnused (w : CmdWord) : Bool :=
  let sel := wordSel w
  ((sel == 0 || sel == 4) && wordTgt w != 0) || (sel != 1 && (wbits w 51 49 != 0 || wbits w 63 52 != 0))
    || (wbits w 17 17 == 0 && wbits w 29 18 != 0)

/-- Lowest COMMAND_INVALID reason of a word in a block of `n` words for a queue; 0 for none. -/
def CoreSt.wordReason (c : CoreSt) (q : Queue) (fp n : Nat) (inner : Bool) (p : PWord) : Nat :=
  let w := p.word
  let cls := wordClass w
  let op := wordOp w
  let sel := wordSel w
  if cls ≠ queueClass q then 2
  else if reservedBits w then 1
  else if !opAssigned cls op then 3
  else if sel > 4 then 4
  else if (sel = 1 ∨ sel = 2 ∨ sel = 3) ∧ wordTgt w ≥ n then 5
  else if sel = 1 ∧ wbits w 63 52 = 0 then 6
  else if wbits w 15 12 = 0 ∧ wbits w 16 16 = 1 then 7
  else if badCode w then 8
  else if headerUnused w then 9
  else
    let unused := match cls with
      | 1 => matrixUnused ⟨w⟩
      | 2 => vectorUnused p
      | 3 => copyUnused ⟨w⟩
      | _ => popUnused ⟨w⟩
    if unused then 9
    else
      let range := match cls with
        | 1 => c.matrixRange p
        | 2 => vectorRange p
        | 3 => copyRange ⟨w⟩ || (inner && op == 0x08)
        | _ => popRange p fp
      if range then 10 else 0

/-! ### `epush` and `epushb` -/

/-- A word of own-scratchpad bytes. -/
def cmdWordOf (bs : List Byte) : CmdWord := BitVec.ofNat 256 (leNat bs)

/-- The words of a block of `n` words in bytes. -/
def blockWords (bs : List Byte) (n : Nat) : List CmdWord := (List.range n).map (fun i => cmdWordOf ((bs.drop (32 * i)).take 32))

/-- The bytes of the shape record a copy word names; empty when it names none or the record cannot be read whole. -/
def readShape (w : CmdWord) : M (List Byte) := do
  let f : CpF := ⟨w⟩
  let x ← myCtx
  if !f.shen ∨ f.shp + 64 > 0xC0000 then return []
  if f.shp + 64 > x.par.fp then refuse 0x0A (word f.shp)
  ownRead f.shp 64

/-- Shape check of a copy word that names a record: its bytes and the SHAPE_INVALID reason. -/
def checkShape (w : CmdWord) : M (List Byte × Nat) := do
  let f : CpF := ⟨w⟩
  if !f.shen then return ([], 0)
  let bs ← readShape w
  if bs.isEmpty then return ([], 9)
  return (bs, shapeReason f (ShapeRec.ofBytes bs))

/-- Validate and capture the words of an exchange block; `outer` is the slot of the `xch` word (spec/04 R95). -/
def captureBlock (n outer : Nat) : List (Nat × CmdWord) → M (List XWord)
  | [] => return []
  | (i, w) :: ws => do
    let c ← me
    let x ← myCtx
    let bad (r : Nat) : M Unit := trapM ⟨0x0A, word (outer + r * 2 ^ 8 + i * 2 ^ 16 + 2 ^ 24), 0, 0⟩
    let r := c.wordReason .eqc x.par.fp n true (plainWord w)
    if r ≠ 0 then bad r
    let (bs, sr) ← checkShape w
    if sr ≠ 0 then bad sr
    let rest ← captureBlock n outer ws
    return ⟨w, bs⟩ :: rest

/-- Validate and capture the words of a push, in slot order. -/
def captureWords (q : Queue) (n : Nat) : List (Nat × CmdWord) → M (List PWord)
  | [] => return []
  | (i, w) :: ws => do
    let c ← me
    let x ← myCtx
    let p := match q with
      | .eqm | .eqv => c.captureMv w
      | .eqc => plainWord w
      | .eqp => c.capturePop w
    let r := c.wordReason q x.par.fp n false p
    if r ≠ 0 then trapM ⟨0x0A, word (i + r * 2 ^ 8), 0, 0⟩
    let p ← (match q with
      | .eqc => do
        let (bs, sr) ← checkShape w
        if sr ≠ 0 then trapM ⟨0x0B, word (i + sr * 2 ^ 8), 0, 0⟩
        if wordOp w = 0x08 then
          let b := x.par.xb.getD (wbits w 121 120) 0
          let cnt := bits b 28 20
          let bytes ← ownRead (bits b 19 0) (32 * cnt)
          let blk ← captureBlock cnt i ((List.range cnt).zip (blockWords bytes cnt))
          return { p with block := blk }
        else return { p with shape := bs }
      | _ => return p : M PWord)
    let rest ← captureWords q n ws
    return p :: rest

/-- A block that may jump backwards gets the promise that is never missed (spec/04 R84): a JMP or WAIT among the push's own
words; those of an exchange block, which runs as a block of its own, do not count (notes/assumptions/53.md). -/
def openEnded (ws : List CmdWord) : Bool :=
  ((List.range ws.length).zip ws).any (fun p => (wordSel p.2 == 2 || wordSel p.2 == 3) && decide (wordTgt p.2 ≤ p.1))

def EQueue.hasRoom (e : EQueue) (q : Queue) (n : Nat) : Bool :=
  decide (e.waiting.length < 4) && decide ((e.waiting.map (fun p => p.words.length)).sum + n ≤ capWords q)

/-- A push of `n` words at own-scratchpad address `a` (R226). -/
def pushM (q : Queue) (a n : Word) : M Unit := do
  let x ← myCtx
  if n = 0 ∨ n.toNat > capWords q ∨ a.toNat % 32 ≠ 0 then trapR 0x0A 0x0B
  if a.toNat ≥ 2 ^ 20 ∨ a.toNat + 32 * n.toNat > x.par.fp then refuse 0x0A a
  let bs ← ownRead a.toNat (32 * n.toNat)
  let ws := blockWords bs n.toNat
  let ps ← captureWords q n.toNat ((List.range n.toNat).zip ws)
  let c ← me
  if !(c.queue q).hasRoom q n.toNat then waitM
  rqRoom
  release (pushScope q)
  let s ← get
  let id ← myId
  let tick := s.pcc (s.dieOf id)
  let d ← (if q = .eqc then freeWordM else pure 0 : M Word)
  let live := if openEnded ws then word (2 ^ 64 - 1) else word (min (tick + 1 + d.toNat) (2 ^ 64 - 2))
  let promise ← (if q = .eqc then inputM 0x05 live else pure 0 : M Word)
  let rq ← takeRq
  let seq ← takeSeq
  let c ← me
  let edges := (s.die (s.dieOf id)).edge
  let p : Push := ⟨rq, seq, c.win.openWin, ps, some 0, List.replicate 8 0, false, none, promise, false, edges, c.lcn, c.runtime, none, s.cycle, [], false⟩
  let e := c.queue q
  let fifo := if q = .eqc then
      (if e.fifo.length ≥ 32 then e.fifo.drop 1 else e.fifo) ++ [(promise, c.win.openWin, [])]
    else e.fifo
  modMe (fun c => c.setQueue q { e with pushes := e.pushes ++ [p], fifo })

/-- `epush` (R226). -/
def execEpush (q : Queue) (rs1 : Reg) (s : State) : Host.Outcome State Fault Refusal :=
  runScalar (parcelOf (.epush q rs1)) (do
    let a ← rxM rs1
    pushM q a 1
    advance) s

/-- `epushb` (R226). -/
def execEpushb (q : Queue) (rs1 rs2 : Reg) (s : State) : Host.Outcome State Fault Refusal :=
  runScalar (parcelOf (.epushb q rs1 rs2)) (do
    let a ← rxM rs1
    let n ← rxM rs2
    pushM q a n
    advance) s

end Sys2Proof.Machine
end

