-- ==== Sys2Proof/Machine/Stop.lean ====
section
/-! DEFINITION. Stop records (spec/15 R360). -/

namespace Sys2Proof.Machine

/-- Completions of a core's words that are held. -/
def Ctx.heldOf (x : Ctx) (l : Nat) : Nat := x.held.countP (fun h => h.l == l)

/-- The first doubleword of a record. -/
def recHead (kind cause unit asid lcn : Nat) : List Byte :=
  leBytes 8 (kind * 2 ^ 56 + cause * 2 ^ 48 + unit % 2 ^ 11 * 2 ^ 37 + asid % 2 ^ 10 * 2 ^ 27 + lcn % 2 ^ 24)

/-- Bytes 0 to 23 after the head: tick, superstep, `rqout`, flags, touched dies. -/
def recMid (tick : Nat) (ss : BitVec 32) (rq flags : Nat) (tdm : BitVec 8) : List Byte :=
  leBytes 8 tick ++ leBytes 4 ss.toNat ++ leBytes 2 rq ++ leBytes 1 flags ++ leBytes 1 tdm.toNat

/-- The record of a core. -/
def State.coreRec (s : State) (x : Ctx) (h : HaltInfo) (l : Nat) : StopRec :=
  let id : CoreId := ⟨x.asid, l⟩
  let c := s.core id
  let f (b : Bool) (k : Nat) : Nat := if b then k else 0
  let flags := f (c.rqout == 0 && c.sb.isEmpty) 1 + f c.due.isSome 2 + f c.task.isSome 4 + f c.gang.isSome 8
  let win := match c.win.unc with
    | some (o, hi) => hi.toNat + o.toNat * 2 ^ 32
    | none => 0xFFFFFFFFFFFFFFFF
  recHead 1 (s.recCause x h l) (x.pcn l) x.asid c.lcnOrNone
    ++ recMid (s.pcc (x.dieOf l)) x.sscnt c.rqout flags x.tdm
    ++ leBytes 8 c.pc.toNat ++ leBytes 8 win ++ leBytes 4 (x.heldOf l)
    ++ leBytes 4 ((c.due.map (fun d => d.trap.code)).getD 0) ++ leBytes 8 ((c.due.map (fun d => d.trap.tval.toNat)).getD 0)
    ++ leBytes 8 0

/-- Kind and unit number of the engine that a flight is in. -/
def State.unitOf (x : Ctx) (l : Nat) (f : Flight) : Nat × Nat :=
  match f.q with
  | .eqm => (2, x.pcn (l / 4 * 4))
  | .eqv => (3, x.pcn (l / 4 * 4))
  | .eqc => (4, x.dieOf l * 256 + f.eng)
  | .eqp => (5, x.dieOf l * 256)

/-- Completions held of words that one unit retired. -/
def Ctx.heldAt (x : Ctx) (r : UnitLast) : Nat := x.held.countP (fun h => State.unitOf x h.l h.flight == (r.kind, r.unit))

/-- The record of a unit other than a core; `r` is the last word it retired, or the word suspended in it with its bytes. -/
def State.engineRec (s : State) (x : Ctx) (h : HaltInfo) (r : UnitLast) (susp : Option Nat) : StopRec :=
  recHead r.kind h.cause r.unit x.asid r.l
    ++ recMid (s.pcc (x.dieOf r.l)) x.sscnt 0 (if susp.isSome then 16 else 0) x.tdm
    ++ leBytes 8 (r.rq % 65536 + r.slot % 256 * 65536) ++ leBytes 8 (susp.getD 0) ++ leBytes 4 (x.heldAt r)
    ++ leBytes 4 0 ++ leBytes 8 0 ++ leBytes 8 0

/-- The unit that a flight is in, with the flight as its last word. -/
def Ctx.unitAt (x : Ctx) (l : Nat) (f : Flight) : UnitLast :=
  let (kind, unit) := State.unitOf x l f
  ⟨kind, unit, l, f.rq, f.slot⟩

/-- The record of a unit that a flight is in: of the flight if it is suspended, else of the last word retired there. -/
def State.flightRec (s : State) (x : Ctx) (h : HaltInfo) (l : Nat) (f : Flight) : StopRec :=
  let u := x.unitAt l f
  if f.suspended then s.engineRec x h u (some f.done)
  else
    let last := (x.units.find? (fun v => v.kind == u.kind && v.unit == u.unit)).getD ⟨u.kind, u.unit, l, 0, 0⟩
    s.engineRec x h last none

/-- Two records describe one unit: same kind and unit number. -/
def sameUnit (r q : StopRec) : Bool :=
  (r.drop 7).take 1 == (q.drop 7).take 1 && leNat ((r.drop 4).take 3) / 32 % 2 ^ 11 == leNat ((q.drop 4).take 3) / 32 % 2 ^ 11

/-- Enter a record in a stop area, in place of an older one of its unit. -/
def putRec (rs : List StopRec) (r : StopRec) : List StopRec :=
  if rs.any (sameUnit r) then rs.map (fun q => if sameUnit r q then r else q) else rs ++ [r]

/-- The unit number of an engine record has its die in bits 10:8. -/
def UnitLast.die (u : UnitLast) : Nat := u.unit / 256

/-- The records of a stop: one for each core, then one for each unit that has held a word of the context; a die that
is lost or under reset writes none (R369, spec/22 R419). -/
def State.stopRecs (s : State) (x : Ctx) (h : HaltInfo) : List StopRec :=
  let here := (List.range x.n).filter (fun l => s.answers (x.dieOf l))
  let cores := here.map (fun l => s.coreRec x h l)
  let units := (x.units.filter (fun u => s.answers u.die)).map (fun u => s.engineRec x h u none)
  here.foldl (fun rs l =>
    (s.core ⟨x.asid, l⟩).flights.foldl (fun rs f => if f.xpend then rs else putRec rs (s.flightRec x h l f)) rs) (cores ++ units)

/-- Note a flight as the last word that its unit retired. -/
def Ctx.noteUnit (x : Ctx) (l : Nat) (f : Flight) : Ctx :=
  let u := x.unitAt l f
  { x with units := x.units.filter (fun v => !(v.kind == u.kind && v.unit == u.unit)) ++ [u] }

/-- An engine settles under the halt line: its record is written anew, and the held completions of its core counted. -/
def State.settleRec (s : State) (id : CoreId) (f : Flight) : State :=
  match (s.ctx id.asid).halt with
  | none => s
  | some h => s.modCtx id.asid (fun x =>
      let mine := recHead 1 0 (x.pcn id.l) 0 0
      { x with recs := (putRec x.recs (s.flightRec x h id.l f)).map (fun r =>
          if sameUnit mine r then r.take 40 ++ leBytes 4 (x.heldOf id.l) ++ r.drop 44 else r) })

/-! ### Arrival of records and entries in transit (spec/12 R305) -/

def State.arrive (s : State) (t : Transit) : State :=
  match t with
  | .recs _ d rs => s.modDie d (fun x => { x with pool := x.pool ++ rs })
  | .entries asid q d es => s.modCtx asid (fun x => { x with squeues := x.squeues ++ es.map (fun e => (d, q, e)) })

def Transit.asid : Transit → Nat
  | .recs a _ _ => a
  | .entries a _ _ _ => a

/-- What arrives finds room (R291, spec/11 R262): entries below C, records in the run pool. -/
def State.transitFits (s : State) (t : Transit) : Bool :=
  match t with
  | .entries asid q d es => decide (((s.ctx asid).sq d q).length + es.length ≤ (s.ctx asid).qcap)
  | .recs _ d rs => decide ((s.die d).pool.length + rs.length ≤ 8192)

/-- Everything of a context that is in transit arrives, in order of departure (R306), but what finds no room: it stays in transit
(notes/assumptions/56.md). -/
def State.arriveAll (s : State) (asid : Nat) : State :=
  s.transit.foldl (fun s t =>
    if t.asid == asid && s.transitFits t then ({ s with transit := s.transit.erase t }).arrive t else s) s

end Sys2Proof.Machine
end

