-- ==== Sys2Proof/Machine/Engine.lean ====
section
/-! DEFINITION. The engines: the word at the head of a queue, selectors (spec/02 R44), guards (spec/09 R221 to R225), ring
claims (spec/05 R110), the JMU lease and the vector unit (spec/08 R176 to R179), stall counts and the scoreboard (R180 to
R183), issue, discard and retirement (R173 to R175). -/

namespace Sys2Proof.Machine

/-! ### Selectors (spec/02 R44) -/

/-- Next slot after the word at slot `i` of a block of `n`, the loop counters, and whether the next word waits. -/
def follow (w : CmdWord) (n i : Nat) (lc : List Nat) : Option Nat × List Nat × Bool :=
  let next := if i + 1 < n then some (i + 1) else none
  match wordSel w with
  | 0 => (next, lc, false)
  | 1 =>
    let k := wbits w 51 49
    let v := (if lc.getD k 0 = 0 then wbits w 63 52 else lc.getD k 0) - 1
    (if v ≠ 0 then some (wordTgt w) else next, lc.set k v, false)
  | 2 => (some (wordTgt w), lc, false)
  | 3 => (some (wordTgt w), lc, true)
  | _ => (none, lc, false)

/-- A push whose word `w` of its own block has been issued or discarded. -/
def Push.stepOwn (p : Push) (w : CmdWord) : Push :=
  let r := follow w p.words.length (p.pos.getD 0) p.lc
  { p with pos := r.1, lc := r.2.1, wait := r.2.2, xrun := none, decided := none }

/-- A push whose word at the head has been issued or discarded; the end of an exchange block follows the `xch` word's own
selector. -/
def Push.step (p : Push) (w : CmdWord) : Push :=
  match p.xrun with
  | none => p.stepOwn w
  | some x =>
    match p.words[p.pos.getD 0]? with
    | none => p.stepOwn w
    | some outer =>
      let r := follow w outer.block.length (x.pos.getD 0) x.lc
      if r.1.isNone then p.stepOwn outer.word
      else { p with xrun := some { x with pos := r.1, lc := r.2.1, wait := r.2.2 }, decided := none }

/-- Pushes that are complete (spec/04 R84) leave their queue. -/
def CoreSt.prune (c : CoreSt) (q : Queue) : CoreSt :=
  c.setQueue q { c.queue q with
    pushes := (c.queue q).pushes.filter (fun p => p.pos.isSome || c.flights.any (fun f => f.ofPush q p)) }

/-- The WAIT selector lets the head go: every word issued earlier in its block has retired. -/
def CoreSt.waitMet (c : CoreSt) (q : Queue) (h : Head) : Bool :=
  match h.x with
  | none => !h.push.wait || !c.flights.any (fun f => f.ofPush q h.push)
  | some x => !x.wait || !c.flights.any (fun f => f.xparent == some x.uid)

/-! ### Ring claims (spec/05 R110) -/

/-- Ring operands in field order: field (0 `a`, 1 `b`, 2 `d`, 3 `meta`, 4 `sca`, 5 `scb`), ring, destination or not. -/
def fieldRings (w : CmdWord) : List (Nat × Nat × Bool) :=
  if wordClass w = 1 then
    let f : MvF := ⟨w⟩
    let op (i o : Nat) (d : Bool) : List (Nat × Nat × Bool) := if opRing o then [(i, opIdx o, d)] else []
    let sel (i v : Nat) : List (Nat × Nat × Bool) := if v % 2 = 1 then [(i, v / 2, false)] else []
    op 0 f.a false ++ op 1 f.b false ++ op 2 f.d true ++ sel 3 f.meta_ ++ sel 4 f.sca ++ sel 5 f.scb
  else []

/-- Claim entries in order: hidden pointers advanced, and the address of each field's entry; none while some claim cannot
be met. -/
def CoreSt.claims (c : CoreSt) : List (Nat × Nat × Bool) → Option (CoreSt × List (Nat × Nat))
  | [] => some (c, [])
  | (i, r, dst) :: cs =>
    let d := vget c.rg r Desc.zero
    let p := vget c.rgp r ⟨0, 0⟩
    let ok := if dst then decide ((p.wr.toNat + 1 + 65536 - d.head) % 65536 ≤ d.count)
      else decide ((d.tail + 65536 - p.rd.toNat) % 65536 ≥ 1)
    if d.unset || !ok then none
    else
      let a := d.entryAddr (if dst then p.wr.toNat else p.rd.toNat)
      let p' : RingPtr := if dst then { p with wr := p.wr + 1 } else { p with rd := p.rd + 1 }
      match CoreSt.claims { c with rgp := vset c.rgp r p' } cs with
      | none => none
      | some (c', as) => some (c', (i, a) :: as)

/-- Address of a field's claimed entry. -/
def claimAt (as : List (Nat × Nat)) (i : Nat) : Nat := ((as.find? (fun p => p.1 == i)).map Prod.snd).getD 0

/-- Pop `k` entries of a ring: `head` and `hslot` advance; the pop counter counts them in one increment if enabled. -/
def State.popRing (s : State) (id : CoreId) (r k : Nat) (rels : List Rel := []) : Try :=
  let d := vget (s.core id).rg r Desc.zero
  if d.unset then .done s
  else
    let s := s.modCore id (fun c => { c with rg := vset c.rg r (d.setPtrs (d.head + k) d.tail ((d.hslot + k) % d.count)) })
    if bit d.d0 52 then s.incrementRec id (bits d.d0 51 40) k rels else .done s

/-- Publish one entry of a ring. -/
def State.pubRing (s : State) (id : CoreId) (r : Nat) : State :=
  s.modCore id (fun c =>
    let d := vget c.rg r Desc.zero
    if d.unset then c else { c with rg := vset c.rg r (d.setPtrs d.head (d.tail + 1) d.hslot) })

def State.popRings (s : State) (id : CoreId) (ps : List (Nat × Nat)) (rels : List Rel := []) : Try :=
  match ps with
  | [] => .done s
  | r :: rs =>
    match s.popRing id r.1 r.2 rels with
    | .blocked s => .blocked s
    | .done s => State.popRings s id rs rels

/-- Rings in the order they first appear, with how often each appears. -/
def ringCounts (rs : List Nat) : List (Nat × Nat) :=
  (rs.reverse.dedup.reverse).map (fun r => (r, rs.count r))

/-- Rings that a word pops, each with its entries. -/
def wordPops (w : CmdWord) : List (Nat × Nat) := ringCounts (((fieldRings w).filter (fun r => !r.2.2)).map (fun r => r.2.1))

/-- Room for the input entries that `n` increments of a core record, asked for before any of them is made. -/
def State.inputRoom (s : State) (id : CoreId) (n who : Nat) : Try :=
  if s.records id && n != 0 then s.room id none n ⟨1, (s.core id).storeSeq.toNat, none, who⟩ true else .done s

/-- Publish destination entries and pop source entries of a word. -/
def State.settleRings (s : State) (id : CoreId) (w : CmdWord) : Try :=
  let s := ((fieldRings w).filter (fun r => r.2.2)).foldl (fun s r => s.pubRing id r.2.1) s
  s.popRings id (wordPops w)

/-! ### Regions of a matrix or vector word -/

/-- Register-space ranges of a view, one a row. -/
def Desc.regions (d : Desc) (fmt : Word) : List Region :=
  let c := d.container fmt
  (List.range d.shape.1).map (fun i => ⟨true, 0, d.rowAddr i, d.rowBytes c⟩)

/-- Register space that a word reads, beside what an accumulating word reads of its destination. -/
def PWord.reads (p : PWord) : List Region :=
  let f : MvF := ⟨p.word⟩
  let op := wordOp p.word
  let a := if opRing f.a then [] else p.va.regions p.ca
  let b := if opRing f.b then [] else p.vb.regions p.cb
  if wordClass p.word = 1 then
    if (mulForm op).isSome || op == 0x38 then a ++ b
    else if op = 0x20 then []
    else if op = 0x21 then p.vd.regions p.cd
    else a
  else
    a ++ (if vecUsesB op f.imm then b else []) ++ (if op = 0x04 then p.vd.regions p.cd else [])
      ++ (if op = 0x10 then p.vm.regions p.cm else [])

/-- What an accumulating command reads of its destination. -/
def PWord.accReads (p : PWord) : List Region :=
  if wordClass p.word = 1 && (mulForm (wordOp p.word)).isSome then p.vd.regions p.cd else []

/-- Register space that a word writes. -/
def PWord.writes (p : PWord) : List Region :=
  let f : MvF := ⟨p.word⟩
  let op := wordOp p.word
  if wordClass p.word = 1 then
    if op = 0x38 then (if f.imm / 8 % 2 = 1 then p.vd.regions p.cd else [])
    else if op = 0x30 ∨ op = 0x31 then p.va.regions p.ca ++ (if opRing f.d then [] else p.vd.regions p.cd)
    else p.vd.regions p.cd
  else p.vd.regions p.cd

def Region.meets (a b : Region) : Bool :=
  a.reg == b.reg && (a.reg || a.l == b.l) && decide (a.start < b.start + b.len) && decide (b.start < a.start + a.len)

def regionsMeet (as bs : List Region) : Bool := as.any (fun a => bs.any (fun b => a.meets b))

/-! ### The interlock between the two queues (R174) -/

/-- Store sequence number `a` lies before `b`. -/
def seqBefore (a b : Nat) : Bool := a != b && decide ((b + 2 ^ 40 - a) % 2 ^ 40 < 2 ^ 39)

/-- Where the words of a block can stand: a slot with the loop counters, of which those of three and more count as three. -/
abbrev LoopAt := Nat × List Nat

/-- What can follow the word at a slot (R44): the counter of a loop that has many passes left has two or more after the next. -/
def loopSucc (ws : List PWord) (at_ : LoopAt) : List LoopAt :=
  match ws[at_.1]? with
  | none => []
  | some w =>
    let next (lc : List Nat) : List LoopAt := if at_.1 + 1 < ws.length then [(at_.1 + 1, lc)] else []
    match wordSel w.word with
    | 0 => next at_.2
    | 1 =>
      let k := wbits w.word 51 49
      let v := if at_.2.getD k 0 = 0 then wbits w.word 63 52 else at_.2.getD k 0
      if v ≤ 1 then next (at_.2.set k 0)
      else if v = 3 && at_.2.getD k 0 = 3 then [(wordTgt w.word, at_.2.set k 2), (wordTgt w.word, at_.2.set k 3)]
      else [(wordTgt w.word, at_.2.set k (min 3 (v - 1)))]
    | 2 | 3 => [(wordTgt w.word, at_.2)]
    | _ => []

/-- What can be reached from a list of places in a block. -/
def reach (succ : LoopAt → List LoopAt) : Nat → List LoopAt → List LoopAt → List LoopAt
  | 0, _, seen => seen
  | _ + 1, [], seen => seen
  | n + 1, t :: ts, seen => if seen.contains t then reach succ n ts seen else reach succ n (succ t ++ ts) (t :: seen)

/-- Words of a push that are still to issue, some perhaps to go by their guards: the selectors and loop counters say which. -/
def Push.ahead (p : Push) : List PWord :=
  match p.pos with
  | none => []
  | some i =>
    let seen := reach (loopSucc p.words) (2 * p.words.length * 4 ^ 8 + 2) [(i, p.lc.map (fun v => min 3 v))] []
    ((seen.map Prod.fst).dedup).filterMap (fun j => p.words[j]?)

def otherQueue : Queue → Queue
  | .eqm => .eqv
  | _ => .eqm

/-- A word pushed earlier to the other queue, not yet retired, holds the word back. -/
def CoreSt.interlocked (c : CoreSt) (q : Queue) (seq : Nat) (pw : PWord) : Bool :=
  let rd := pw.reads ++ pw.accReads
  let wr := pw.writes
  let conflict (prd pwr : List Region) : Bool := regionsMeet pwr rd || regionsMeet pwr wr || regionsMeet prd wr
  c.flights.any (fun f => f.q == otherQueue q && seqBefore f.seq seq && conflict f.reads f.writes) ||
    (c.queue (otherQueue q)).waiting.any (fun p => seqBefore p.seq seq &&
      p.ahead.any (fun v => conflict (v.reads ++ v.accReads) v.writes))

/-! ### Dependences within a queue (R180 to R182) -/

/-- Latency that a dependence on `P` demands: none between accumulations into the same elements. -/
def depLat (acc : Bool) (lat : Nat) (fwd : Bool) : Nat := if acc && fwd then 0 else lat

/-- The cycle at which the head word, pushed at `came`, would issue for its stall count with the scoreboard off: the extra cycles of
the words before it do not count (R182). A word pushed later than its stall count allows is checked when it comes (spec/18 R390). -/
def EQueue.allowed (e : EQueue) (w : CmdWord) (came : Nat) : Nat := max (e.vEnd + wbits w 37 30) came

/-- The cycle at which a word that issues or goes at `cycle` would do so with the scoreboard off: the same where something else than
its stall count held it. -/
def EQueue.vStart (e : EQueue) (w : CmdWord) (came cycle : Nat) : Nat :=
  if cycle ≤ max (e.lastEnd + wbits w 37 30) came then e.allowed w came else cycle

/-- Further stall cycles that a word pushed at `came` needed when a dependence is not met at the cycle that its stall count allows;
else 0 (R182). `rd` is what it reads, `acc` what it reads of its destination to accumulate. -/
def EQueue.shortfall (e : EQueue) (w : CmdWord) (rd acc : List Region) (came : Nat) : Nat :=
  let need (p : DepRec) : Nat :=
    max (if regionsMeet p.writes rd then p.vEnd + depLat p.acc p.lat false else 0)
      (if regionsMeet p.writes acc then p.vEnd + depLat p.acc p.lat true else 0)
  if e.deps.all (fun p => decide (need p ≤ e.allowed w came)) then 0
  else (e.deps.map (fun p => need p - (e.vEnd + wbits w 37 30))).foldl max 0

/-- A queue whose head word ends without having issued. -/
def EQueue.ended (e : EQueue) (w : CmdWord) (came cycle : Nat) : EQueue :=
  { e with lastEnd := cycle, vEnd := e.vStart w came cycle }

/-- Old bytes of a flight's destination in one aligned 16-byte unit. -/
def Flight.oldUnit (f : Flight) (reg : Bool) (u : Nat) : List (Nat × Byte) :=
  f.olds.flatMap (fun o =>
    if o.1 == reg && decide (o.2.1 < 16 * u + 16) && decide (16 * u < o.2.1 + o.2.2.length) then
      (List.range 16).filterMap (fun k =>
        if o.2.1 ≤ 16 * u + k then (o.2.2[16 * u + k - o.2.1]?).map (fun b => (16 * u + k, b)) else none)
    else [])

/-- A flight wrote the whole of an aligned 16-byte unit at once. -/
def Flight.whole (f : Flight) (reg : Bool) (u : Nat) : Bool :=
  f.olds.any (fun o => o.1 == reg && decide (o.2.1 ≤ 16 * u) && decide (16 * u + 16 ≤ o.2.1 + o.2.2.length))

/-- Of bytes written, those whose old value shows: one choice for all of them, or one for each. -/
def pickBytes (whole : Bool) (o : List (Nat × Byte)) (k : Nat) : List (Nat × Byte) × Nat :=
  if whole then (if Config.freeBool k then [] else o, k + 1)
  else (((o.zipIdx k).filter (fun p => !Config.freeBool p.2)).map Prod.fst, k + o.length)

/-- Which of the values of a unit a word sees: before or after each write of the flights whose dependence is not met, newest first,
each byte down to the newest one that is met (R181); a write of part of a unit is seen byte by byte (spec/10 R243). `reg` says whether
the unit is of register space or the scratchpad, `left` which of its bytes are still to be decided. -/
def pickUnit (reg : Bool) (late : Flight → Bool) (u : Nat) : List Flight → List Nat → Nat → List (Nat × Byte) × Nat
  | [], _, k => ([], k)
  | f :: fs, left, k =>
    let o := (f.oldUnit reg u).filter (fun p => left.contains p.1)
    let (old, k') := if late f then pickBytes (f.whole reg u) o k else ([], k)
    let r := pickUnit reg late u fs (left.filter (fun a => !o.any (fun p => p.1 == a) || old.any (fun p => p.1 == a))) k'
    (old ++ r.1, r.2)

/-- Aligned units of register space, or of the scratchpad, that a flight wrote. -/
def Flight.oldUnits (f : Flight) (reg : Bool) : List Nat :=
  f.olds.flatMap (fun o => if o.1 == reg then
    (List.range ((o.2.1 + o.2.2.length + 15) / 16 - o.2.1 / 16)).map (fun i => o.2.1 / 16 + i) else [])

/-- Register space or the scratchpad as a word sees it that issues before its dependences are met: `fs` are the words in flight of
its queue, newest first. -/
def seenMem (reg : Bool) (m : Mem) (late : Flight → Bool) (fs : List Flight) (rd : List Region) (k : Nat) : Mem × Nat :=
  let units := ((fs.filter late).flatMap (fun f => f.oldUnits reg)).dedup
  let hit := units.filter (fun u => rd.any (fun r => r.reg == reg && decide (r.start < 16 * u + 16) && decide (16 * u < r.start + r.len)))
  hit.foldl (fun (acc : Mem × Nat) u =>
    let r := pickUnit reg late u fs ((List.range 16).map (fun i => 16 * u + i)) acc.2
    (r.1.foldl (fun (m : Mem) (p : Nat × Byte) => m.write p.1 [p.2]) acc.1, r.2)) (m, k)

/-! ### Units of a bench: the JMU lease (R176 to R178) and the vector unit (R179) -/

/-- A run has reached its limit of words or cycles, or its gang has split (R176, R178). -/
def Lease.spent (l : Lease) (cycle : Nat) : Bool := decide (l.words ≥ 32) || decide (cycle ≥ l.start + 2048) || l.ends

/-- A run of the JMU begins for a slot. -/
def Lease.begin_ (l : Lease) (k cycle : Nat) : Lease := { l with holder := some k, words := 0, start := cycle, ends := false }

/-- The core's slot holds the lease, taking it when no slot does; none while another slot holds it or the run is over. -/
def State.takeLease (s : State) (id : CoreId) : Option State :=
  let l := s.lease id
  match l.holder with
  | none => some (s.modLease id (fun l => l.begin_ (s.slotOf id) s.cycle))
  | some k => if k = s.slotOf id && !l.spent s.cycle then some s else none

/-- Occupy the unit until a cycle; a JMU word counts in its run. The core is the last one served. -/
def State.occupy (s : State) (id : CoreId) (q : Queue) (t : Nat) : State :=
  match q with
  | .eqm => s.modLease id (fun l => { l with words := l.words + 1, busy := t, last := id.l % 4 })
  | .eqv => s.modLease id (fun l => { l with vbusy := t, vlast := id.l % 4 })
  | _ => s

/-! ### The conditions of R173, and whose turn it is (R178, R179) -/

/-- A word places a result element: `mcmp`, `vnfin`. -/
def takesResult (w : CmdWord) : Bool :=
  (wordClass w == 1 && wordOp w == 0x38) || (wordClass w == 2 && wordOp w == 0x1B)

/-- Result elements of a core's words of a queue that are still to be placed. -/
def State.resultsDue (s : State) (id : CoreId) (q : Queue) : Nat :=
  (s.core id).flights.countP (fun f => f.q == q && f.result.isSome)
    + (s.ctx id.asid).held.countP (fun h => h.l == id.l && h.flight.q == q && h.flight.result.isSome)

/-- Conditions of R173 other than the unit's: the head of a queue of the core could issue now. -/
def State.mvReady (s : State) (id : CoreId) (q : Queue) : Bool :=
  let c := s.core id
  match c.headOf q with
  | none => false
  | some h =>
    let w := h.pw.word
    s.engineOn id && s.pushIn id h.push && c.stallMet s.cycle q w && c.decision h == some true && c.waitMet q h && (c.claims (fieldRings w)).isSome
      && !(takesResult w && decide ((c.queue q).fifo.length + s.resultsDue id q ≥ fifoCap q))
      && !c.interlocked q h.push.seq h.pw

/-- How many cores of a bench come before core `k` in the cycle that goes on after core `last`. -/
def turnOf (last k : Nat) : Nat := (k + 7 - last) % 4

/-- No other core that shares the queue's unit could issue now and comes earlier in core order, cyclically. -/
def State.inTurn (s : State) (id : CoreId) (q : Queue) : Bool :=
  let last := if q = .eqm then (s.lease id).last else (s.lease id).vlast
  (List.range 4).all (fun k =>
    let o : CoreId := ⟨id.asid, id.l / 4 * 4 + k⟩
    !(decide (turnOf last k < turnOf last (id.l % 4)) && (q != .eqm || s.slotOf o == s.slotOf id) && s.mvReady o q))

/-- The unit that serves a queue can start a word of the core. -/
def State.takeUnit (s : State) (id : CoreId) (q : Queue) : Option State :=
  match q with
  | .eqm => if decide (s.cycle ≥ (s.lease id).busy) && s.inTurn id q then s.takeLease id else none
  | .eqv => if decide (s.cycle ≥ (s.lease id).vbusy) && s.inTurn id q then some s else none
  | _ => some s

/-! ### Issue of a matrix or vector word -/

/-- What a matrix or vector word computes from. -/
structure MvIn where
  pw    : PWord
  reg   : Mem
  scr   : Mem
  ent   : Nat → Nat             -- scratchpad address of a field's claimed entry
  seed  : Word
  lcn   : Nat
  split : Nat → Word            -- free carry splits (R159)

/-- What a matrix or vector word does. -/
structure MvOut where
  regW   : List (Nat × List Byte)
  resAt  : List Nat             -- accumulator elements whose `res` flag is set, whatever they hold (R194)
  scrW   : List (Nat × List Byte)
  evs    : Evs
  nfs    : Bool
  result : Option Word
  fault  : Option (Nat × Nat)   -- cause and detail (R183)

/-- A matrix or vector command: occupancy, latency, accumulating or not, effect. -/
structure MvOp where
  time : PWord → Nat
  lat  : Nat
  acc  : Bool
  run  : MvIn → MvOut

/-- A word that does nothing but what every word does. -/
def MvOut.nil : MvOut := ⟨[], [], [], [], false, none, none⟩

/-- What an engine's writes leave for the core's loads until an `xfence.el`: the bytes before (spec/10 R251). An older
unseen write of the same bytes may still show. -/
def State.noteStale (s : State) (id : CoreId) (before : List Stale) (olds : List (Bool × Nat × List Byte)) (atom : Bool) : State :=
  let new : List Stale := olds.flatMap (fun o => o.2.2.mapIdx (fun i b =>
    let u := (o.2.1 + i) / 16 * 16
    ⟨o.1, o.2.1 + i, b, atom, decide (o.2.1 ≤ u) && decide (u + 16 ≤ o.2.1 + o.2.2.length)⟩))
  let inNew (x : Stale) : Bool := olds.any (fun o => o.1 == x.reg && decide (o.2.1 ≤ x.a) && decide (x.a < o.2.1 + o.2.2.length))
  if before.any inNew then
    if Config.freeBool s.fresh then s.bump.modCore id (fun c => { c with stale := before ++ new })
    else s.bump.modCore id (fun c => { c with stale := before.filter (fun x => !inNew x) ++ new })
  else s.modCore id (fun c => { c with stale := before ++ new })

/-- Results of an engine word's free splits reserve this many free values. -/
def splitRoom : Nat := 65536

/-- Accesses of an engine word: written or read, address in the core's own form, bytes. -/
abbrev Touches := List (Bool × Word × Nat)

/-- Own-core regions as addresses of the local region (spec/03 R58). -/
def touchesOf (write : Bool) (rs : List Region) : Touches :=
  rs.map (fun r => (write, word ((if r.reg then 0xFFFFFFFFFFE00000 else 0xFFFFFFFFFFF00000) + r.start), r.len))

/-- An engine word pushed by a core meets a watchpoint slot of it: the context stops after the access (spec/21 R404). -/
def State.engineWatch (s : State) (id : CoreId) (ts : Touches) : State :=
  let c := s.core id
  if ts.any (fun t => c.watchHit t.2.1 t.2.2 t.1) && (!c.stepping || c.replay.isSome) then s.dbgStop id.asid 0x02 id.l else s

/-- A flight for the head word. -/
def Flight.of (c : CoreSt) (q : Queue) (h : Head) : Flight :=
  { uid := c.issueNo, q, rq := h.push.rq, slot := h.slot, op := wordOp h.pw.word, win := h.push.win, seq := h.push.seq
    occEnd := 0, retireAt := 0, acc := false, reads := [], writes := [], pops := [], pubs := [], result := none
    sig := if wbits h.pw.word 17 17 = 1 then some (wbits h.pw.word 29 18) else none
    scope := 0, edges := h.push.edges, faulted := false, pieces := [], logs := [], keyWas := [], word := h.pw.word, scrW := [], olds := []
    xparent := h.x.map XRun.uid, xpend := false, done := 0, suspended := false, lineage := [], eng := 0, evAdd := []
    nfAdd := false, send := none, old := h.push.old }

/-- The scratchpad results of a word are written, one block entry per extent (R175), as log slots come free; the second part are those that go on
waiting. -/
def State.scratchOn (s : State) (id : CoreId) (win : Option Nat) (seq : Nat) : List (Nat × List Byte) → State × List (Nat × List Byte)
  | [] => (s, [])
  | (a, bs) :: ws =>
    match s.perform id win seq (.scratch id.l a) bs false .block true with
    | .blocked s => (s, (a, bs) :: ws)
    | .done s => State.scratchOn s id win seq ws

/-- Bytes that a word reads or writes of the ring entry of a field (R184, R187, R188, R194). -/
def PWord.entryBytes (p : PWord) (field : Nat) : Nat :=
  let f : MvF := ⟨p.word⟩
  let nb := (f.k + 127) / 128
  let image (col : Bool) (r c cont : Nat) : Nat := let s := imageShape col r c; s.1 * (s.2 * cont / 8)
  match mulForm (wordOp p.word) with
  | some g =>
    match field with
    | 0 => image (opCol f.a) f.m (if g.sparse then f.k * f.sn / 16 else f.k) g.ca
    | 1 => image (opCol f.b) f.k f.n g.cb
    | 3 => f.m * f.k / 8
    | 4 => f.m * nb
    | 5 => f.n * nb
    | _ => 0
  | none => (p.va.elems * mresBits (wordOp p.word) f.imm p.fd + 7) / 8

/-- Scratchpad ranges of the ring entries a word has claimed: those it writes, or those it reads. -/
def PWord.entryRegions (p : PWord) (l : Nat) (ents : List (Nat × Nat)) (dst : Bool) : List Region :=
  (ents.filter (fun e => (e.1 == 2) == dst)).map (fun e => ⟨false, l, e.2, p.entryBytes e.1⟩)

/-- Place of an own range. -/
def Region.place (r : Region) : Place := if r.reg then .reg r.start else .scratch r.l r.start

/-- Byte `a` of a space lies in one of the ranges. -/
def coveredBy (rs : List Region) (reg : Bool) (a : Nat) : Bool :=
  rs.any (fun r => r.reg == reg && decide (r.start ≤ a) && decide (a < r.start + r.len))

/-- Address of a poisoned unit that a word of core `id` reads, or writes without covering it whole: the word is refused
(spec/15 R366, notes/assumptions/55.md). -/
def State.poisonMet (s : State) (id : CoreId) (rd wr : List Region) : Option Region :=
  (rd.find? (fun r => s.poisonAt id r.place r.len)).orElse (fun _ => wr.find? (fun r => s.poison.any (fun p =>
    p.1 == (if r.reg then 1 else 3) && p.2.1 == ownKey id && decide (p.2.2 < r.start + r.len) && decide (r.start < p.2.2 + 16)
      && !(List.range 16).all (fun k => coveredBy wr r.reg (p.2.2 + k)))))

/-- A word that may not do what it was issued for: it counts nothing and signals nothing, its claims are popped and published,
its push issues no further word, and a trap of the pushing core is held pending. DESIGN CHOICE: such a word occupies its unit for no
cycle and takes no turn there, since spec/08 R183 says of neither (notes/assumptions/53.md). -/
def State.endWord (s : State) (id : CoreId) (q : Queue) (h : Head) (t : TrapInfo) : Try :=
  match s.inputRoom id (wordPops h.pw.word).length (2 ^ 71 + (Queue.code q).toNat) with
  | .blocked s => .blocked s
  | .done s =>
    match (s.core id).claims (fieldRings h.pw.word) with
    | none => .blocked s
    | some (c', _) =>
      match (s.modCore id (fun c => { c with rgp := c'.rgp })).settleRings id h.pw.word with
      | .blocked _ => .blocked s
      | .done s =>
        let s := s.modHead id q (fun p => { p with pos := none, decided := none })
        let s := s.modCore id (fun c => ((c.setQueue q ((c.queue q).ended h.pw.word h.push.came s.cycle)).prune q))
        .done (s.pendTrap id t)

/-- Push and slot of a word as a trap shows them. -/
def Head.where_ (h : Head) : Nat := h.push.rq % 65536 + h.slot % 256 * 2 ^ 16

/-- The fault of an engine word (R183). -/
def State.faultWord (s : State) (id : CoreId) (q : Queue) (h : Head) (cause detail : Nat) : Try :=
  s.endWord id q h ⟨cause, 0, word (h.where_ + (Queue.code q).toNat * 2 ^ 24), word detail⟩

/-- A word refused over poison at an address: reported under R90 (spec/15 R366). -/
def State.refuseWord (s : State) (id : CoreId) (q : Queue) (h : Head) (r : Region) : Try :=
  s.endWord id q h ⟨0x22, word ((if r.reg then 0xFFFFFFFFFFE00000 else 0xFFFFFFFFFFF00000) + r.start), word (h.where_ + 0x0B * 2 ^ 24), 0⟩

/-- Set the `res` flag of an accumulator element; the spare bit is written 0 (spec/07 R157). -/
def State.setRes (s : State) (id : CoreId) (a : Nat) : State :=
  let v := (s.core id).reg.readNat a 16
  s.writeRegSpace id a (leBytes 16 ((v ||| 2 ^ 125) % 2 ^ 127))

/-- A matrix or vector word asks the banks for the ring entries that it reads, during its occupancy, and for those that it writes,
until it retires. -/
def State.askWord (s : State) (id : CoreId) (who uid : Nat) (rd wr : List Region) (occEnd retireAt : Nat) : State :=
  let ask (by_ : Nat) (s : State) (r : Region) : State := if r.reg then s else s.askBank id.asid r.l who uid by_ r.start r.len
  wr.foldl (ask retireAt) (rd.foldl (ask occEnd) s)

/-- The head word issues and its effect happens: writes, but for what waits for log slots till the word retires, its flight, its place in
the queue. With the scoreboard on, issue takes one cycle more (R182). -/
def State.launchMv (s : State) (id : CoreId) (q : Queue) (h : Head) (ents : List (Nat × Nat)) (op : MvOp) (out : MvOut) : State :=
  let c := s.core id
  let olds : List (Bool × Nat × List Byte) := out.regW.map (fun w => (true, w.1, c.reg.readBytes w.1 w.2.length))
    ++ out.resAt.map (fun a => (true, a, c.reg.readBytes a 16))
    ++ out.scrW.map (fun w => (false, w.1, c.scratch.readBytes w.1 w.2.length))
  match s.scratchOn id h.push.win h.push.seq out.scrW with
  | (s, left) =>
    let s := out.regW.foldl (fun s w => s.writeRegSpace id w.1 w.2) s
    let s := out.resAt.foldl (fun s a => s.setRes id a) s
    let s := s.noteStale id c.stale olds false
    let t := s.cycle + (if c.checks q then 1 else 0) + op.time h.pw
    let v := (c.queue q).vStart h.pw.word h.push.came s.cycle + op.time h.pw
    let rings := fieldRings h.pw.word
    let rd := h.pw.reads ++ h.pw.accReads ++ h.pw.entryRegions id.l ents false
    let wr := h.pw.writes ++ h.pw.entryRegions id.l ents true
    let f : Flight := { Flight.of c q h with
      occEnd := t, retireAt := t + op.lat, acc := op.acc, reads := rd, writes := wr
      pops := wordPops h.pw.word
      pubs := (rings.filter (fun r => r.2.2)).map (fun r => (r.2.1, 1))
      result := out.result, scope := (⟨h.pw.word⟩ : MvF).scope, scrW := left, olds, evAdd := out.evs, nfAdd := out.nfs }
    let s := s.modHead id q (fun p => p.step h.pw.word)
    let s := (s.engineWatch id (touchesOf false rd ++ touchesOf true wr)).askWord id (if q = .eqm then 1 else 2) c.issueNo rd wr t (t + op.lat)
    (s.modCore id (fun c =>
      let c := match c.claims rings with
        | some (c', _) => { c with rgp := c'.rgp }
        | none => c
      let e := c.queue q
      { (c.setQueue q { e with
          lastEnd := t
          vEnd := v
          deps := ⟨wr, v, op.lat, op.acc⟩ :: e.deps.filter (fun d => decide (d.vEnd + d.lat > v)) }) with
        issueNo := c.issueNo + 1
        flights := c.flights ++ [f] })).occupy id q t

/-- The head word takes its unit and runs: what it reads, whether that is damaged, poisoned or refused to it, its effect. -/
def State.startMv (s : State) (id : CoreId) (q : Queue) (h : Head) (ents : List (Nat × Nat)) (op : MvOp) : State :=
  let c := s.core id
  let rd := h.pw.reads ++ h.pw.accReads ++ h.pw.entryRegions id.l ents false
  let wr := h.pw.writes ++ h.pw.entryRegions id.l ents true
  let short := (c.queue q).shortfall h.pw.word (h.pw.reads ++ h.pw.entryRegions id.l ents false) h.pw.accReads h.push.came
  if c.checks q && short != 0 then (s.faultWord id q h 0x23 short).state
  else match s.consume id (rd.flatMap (fun r => s.damageAt id r.place r.len)).dedup with
    | (s, true) => s
    | (s, false) =>
      match s.poisonMet id rd wr with
      | some r => (s.refuseWord id q h r).state
      | none =>
        let fs := (c.flights.filter (fun f => f.q == q)).reverse
        let late (fwd : Bool) (f : Flight) : Bool := decide (s.cycle < f.occEnd + depLat f.acc (f.retireAt - f.occEnd) fwd)
        let (reg, k) := seenMem true c.reg (late false) fs h.pw.reads s.fresh
        let (reg, k) := seenMem true reg (late true) fs h.pw.accReads k
        let (scr, k) := seenMem false c.scratch (late false) fs (h.pw.entryRegions id.l ents false) k
        let x := s.ctx id.asid
        let out := op.run ⟨h.pw, reg, scr, claimAt ents, x.par.seed, h.push.lcn, fun i => Config.freeWord (k + i)⟩
        let s := { s with fresh := k + splitRoom }
        match out.fault with
        | some (cause, detail) => (s.faultWord id q h cause detail).state
        | none => s.launchMv id q h ents op out

/-- Run the head word of the current core's queue if it is `w` and every condition of R173 holds; else nothing happens but the
decision of its guard. -/
def State.issueMv (s : State) (q : Queue) (w : CmdWord) (op : MvOp) : State :=
  let id := s.cur
  let s := s.decideHeads id
  match (s.core id).headOf q with
  | none => s
  | some h =>
    if h.pw.word != w || !s.mvReady id q then s
    else match (s.core id).claims (fieldRings w), s.takeUnit id q with
      | some (_, ents), some t =>
        let ranges := (h.pw.entryRegions id.l ents false ++ h.pw.entryRegions id.l ents true).map (fun r => (Place.scratch id.l r.start, r.len))
        if ranges.all (fun r => s.blocksIn id.asid r.1 r.2) then t.startMv id q h ents op
        else ranges.foldl (fun s r => s.want id.asid r.1 r.2) s
      | _, _ => s

/-- A matrix or vector word at the head of a queue of the current core. -/
def runMv (q : Queue) (i : Instr) (op : MvOp) (s : State) : Host.Outcome State Fault Refusal :=
  match encodeWord i with
  | some w => .next (s.issueMv q w op)
  | none => .next s

/-! ### Retirement (R175, spec/04 R87, spec/13) -/

/-- Release of the bytes an engine word wrote, and of what its push released: at `.pkg` and `.sys` the edge-queue entries
that stood at the push are performed first, also one that waits for log slots (spec/10 R250). -/
def State.releaseEdges (s : State) (id : CoreId) (f : Flight) : Try :=
  if f.scope = (Scope.code .pkg).toNat ∨ f.scope = (Scope.code .sys).toNat then
    let d := s.dieOf id
    s.edgeWhere d (fun w => f.edges.contains w) (s.die d).edge.length
  else .done s

/-- The release that a word's retirement makes now at its scope (spec/10 R250). -/
def State.retireRels (s : State) (id : CoreId) (f : Flight) : List Rel :=
  if s.watched then [⟨id, true, (scopeOf (BitVec.ofNat 3 f.scope)).getD .sys, s.seen, 0, false⟩] else []

/-- What a retired word has written stands with the release of its retirement (spec/10 R250). -/
def State.markFlight (s : State) (id : CoreId) (f : Flight) : State :=
  let rels := s.retireRels id f
  let s := { s with marks := s.marks.map (fun m => if m.by_ == id && m.uid == some f.uid then { m with rels := m.rels ++ rels } else m) }
  f.olds.foldl (fun s o => s.mark ⟨if o.1 then .reg o.2.1 else .scratch id.l o.2.1, o.2.2.length, id, some f.uid, rels, false⟩) s

/-- What a completion moves and signals: rings, result element, lineage records, counter. -/
def State.signalFlight (s : State) (id : CoreId) (f : Flight) : Try :=
  let rels := s.retireRels id f
  let s := f.pubs.foldl (fun s r => s.pubRing id r.1) s
  match s.popRings id f.pops rels with
  | .blocked s => .blocked s
  | .done s =>
    let s := match f.result with
      | some v => s.modCore id (fun c => c.setQueue f.q { c.queue f.q with fifo := (c.queue f.q).fifo ++ [(v, f.win, rels)] })
      | none => s
    let s := s.modCtx id.asid (fun x => { x with lineage := x.lineage ++ f.lineage.map (fun r => (id.l, f.win, r)) })
    match f.sig with
    | some n => if f.faulted then .done s else s.incrementRec id n 1 rels
    | none => .done s

/-- The completion of a retired word: release, then rings, result element, signal. Where a signal has to wait, nothing after
the release has happened yet. -/
def State.completeFlight (s : State) (id : CoreId) (f : Flight) : Try :=
  match s.releaseEdges id f with
  | .blocked s => .blocked s
  | .done s =>
    match s.inputRoom id (f.pops.length + 1) (2 ^ 70 + f.uid) with
    | .blocked s => .blocked s
    | .done s =>
      match s.signalFlight id f with
      | .blocked _ => .blocked s
      | .done t => .done (if t.watched then t.markFlight id f else t)

/-- The halt line has reached the engine of a word, so that its completion is held (spec/15 R358). A word that a STEP or REPLAY of its
core has pushed completes, unless it comes behind a held one of its queue; one pushed before the stop stays held (spec/21 R405). -/
def State.holds (s : State) (id : CoreId) (f : Flight) : Bool :=
  (((s.ctx id.asid).halt).map HaltInfo.reached).getD false &&
    (!(s.core id).stepping || f.old || (s.ctx id.asid).held.any (fun h => h.l == id.l && h.flight.q == f.q))

/-- Counts of a word enter its core's event counters when it retires (spec/09 R239). -/
def CoreSt.countFlight (c : CoreSt) (f : Flight) : CoreSt :=
  let c := c.countEvs f.evAdd
  if f.nfAdd then { c with csr := { c.csr with nfs := 1 } } else c

/-- A word leaves the words in flight of its core. -/
def CoreSt.leave (c : CoreSt) (f : Flight) : CoreSt :=
  let c : CoreSt := { c with flights := c.flights.filter (fun g => g.uid != f.uid) }
  c.prune f.q

/-- A word whose completion was held at the last resumption and has still to take effect. -/
def State.owes (s : State) (id : CoreId) (f : Flight) : Bool := (s.ctx id.asid).owed.contains (id.l, f.uid)

/-- Among the words whose completions were held, this one has retired first (spec/15 R358); words that are gone are passed. -/
def State.owedNext (s : State) (id : CoreId) (f : Flight) : Bool :=
  ((s.ctx id.asid).owed.find? (fun o => (s.core ⟨id.asid, o.1⟩).flights.any (fun g => g.uid == o.2))) == some (id.l, f.uid)

/-- A word that has performed its writes leaves its engine; under the halt line its completion is held. One held till the resumption has
retired and counted before: it takes effect in its turn. -/
def State.settleFlight (s : State) (id : CoreId) (f : Flight) : Try :=
  let count (s : State) : State := s.modCore id (fun c => c.countFlight f)
  let leave (s : State) : State := s.modCore id (fun c => c.leave f)
  if s.owes id f then
    if !s.owedNext id f then .blocked s
    else match s.completeFlight id f with
      | .blocked s => .blocked s
      | .done s => .done ((leave s).modCtx id.asid (fun x => { x with owed := x.owed.erase (id.l, f.uid) }))
  else
    let s := s.modCtx id.asid (fun x => x.noteUnit id.l f)
    if s.holds id f then
      .done (((leave (count s)).modCtx id.asid (fun x => { x with
        held := x.held ++ [⟨id.asid, id.l, { f with evAdd := [], nfAdd := false }⟩] })).settleRec id f)
    else
      match s.completeFlight id f with
      | .blocked s => .blocked s
      | .done s => .done (leave (count s))

/-- A word retires, when the writes that waited for log slots have been made (R175, R358). -/
def State.retireFlight (s : State) (id : CoreId) (f : Flight) : Try :=
  if f.scrW.isEmpty then s.settleFlight id f
  else
    let (s, left) := s.scratchOn id f.win f.seq f.scrW
    let s := s.modCore id (fun c => { c with flights := c.flights.map (fun g => if g.uid = f.uid then { g with scrW := left } else g) })
    if left.isEmpty then s.settleFlight id { f with scrW := [] } else .blocked s

/-- Oldest word in flight of a queue. -/
def CoreSt.firstFlight (c : CoreSt) (q : Queue) : Option Flight := c.flights.find? (fun f => f.q == q)

/-- A matrix or vector word retires, in issue order (R173, R175). -/
def execEngineWordRetire (id : CoreId) (q : Queue) (s : State) : Host.Outcome State Fault Refusal :=
  match (s.core id).firstFlight q with
  | none => .next s
  | some f =>
    if (q = .eqm ∨ q = .eqv) ∧ s.hasCore id ∧ s.cycle ≥ f.retireAt then .next (s.retireFlight id f).state
    else .next s

/-! ### Discard (spec/09 R224) -/

/-- The effects of a discarded word. -/
def State.discard (s : State) (id : CoreId) (q : Queue) (h : Head) : Try :=
  let w := h.pw.word
  match s.inputRoom id ((wordPops w).length + 1) (2 ^ 71 + (Queue.code q).toNat) with
  | .blocked s => .blocked s
  | .done s =>
    match (s.core id).claims (fieldRings w) with
    | none => .blocked s
    | some (c', _) =>
      let signalled : Try := match (s.modCore id (fun c => { c with rgp := c'.rgp })).settleRings id w with
        | .blocked s => .blocked s
        | .done s => if wbits w 17 17 = 1 then s.incrementRec id (wbits w 29 18) 1 else .done s
      match signalled with
      | .blocked _ => .blocked s
      | .done s =>
        let s := s.modHead id q (fun p => { p.step w with gone := (h.key, s.cycle) :: p.gone.filter (fun g => g.2 == s.cycle) })
        let s := s.modCore id (fun c => (c.setQueue q ((c.queue q).ended w h.push.came s.cycle)).prune q)
        .done (if q = .eqm then s.modLease id (fun l => { l with words := l.words + 1 }) else s)

/-- The head word of a queue can be discarded: its guard says so, its claims can be met, and on `eqm` its slot holds the
lease. -/
def State.discardHead (s : State) (id : CoreId) (q : Queue) : Option (Head × State) :=
  let c := s.core id
  match c.headOf q with
  | none => none
  | some h =>
    if s.engineOn id && s.stallMet id q h.pw.word && c.decision h == some false && (c.claims (fieldRings h.pw.word)).isSome then
      if q = .eqm then (s.takeLease id).map (fun s => (h, s)) else some (h, s)
    else none

/-- The head word of a queue is discarded. -/
def execDiscardWord (id : CoreId) (q : Queue) (s : State) : Host.Outcome State Fault Refusal :=
  let s := s.decideHeads id
  match s.discardHead id q with
  | none => .next s
  | some (h, s) => .next (s.discard id q h).state

/-! ### End of a run of the JMU (R176) -/

/-- A slot of a bench waits: a core of it has a word for the JMU. -/
def State.slotWaits (s : State) (ids : List CoreId) (k : Nat) : Bool :=
  ids.any (fun id => s.slotOf id == k && !(s.core id).eqm.waiting.isEmpty)

/-- The head word of a core cannot issue for a reason other than its stall count. -/
def State.headStuck (s : State) (id : CoreId) : Bool :=
  let c := s.core id
  match c.headOf .eqm with
  | none => true
  | some h =>
    s.stallMet id .eqm h.pw.word &&
      (match c.decision h with
       | none => true
       | some false => (c.claims (fieldRings h.pw.word)).isNone
       | some true => !c.waitMet .eqm h || (c.claims (fieldRings h.pw.word)).isNone || c.interlocked .eqm h.push.seq h.pw
           || (wordOp h.pw.word == 0x38 &&
               decide (c.eqm.fifo.length + s.resultsDue id .eqm ≥ 32)))

/-- Cores of a bench (die times 36 plus bench) in the running context that has it. -/
def State.benchCores (s : State) (bench : Nat) : List CoreId :=
  match s.ctxs.find? (fun x => x.run == .running && x.benches.contains bench) with
  | none => []
  | some x => (List.range 4).filterMap (fun k => (x.lAt bench k).map (fun l => ⟨x.asid, l⟩))

/-- The JMU of a bench, and what it leaves it as. -/
def State.benchLease (s : State) (bench : Nat) : Lease := (s.die (bench / 36)).leases.getD (bench % 36) Lease.free

def State.setLease (s : State) (bench : Nat) (l : Lease) : State :=
  s.modDie (bench / 36) (fun d => { d with leases := d.leases.set (bench % 36) l })

/-- Slots of a bench that wait, in core order from slot `k` on. -/
def State.slotsFrom (s : State) (bench k : Nat) : List Nat :=
  ([k % 4, (k + 1) % 4, (k + 2) % 4, (k + 3) % 4]).filter (fun j => s.slotWaits (s.benchCores bench) j)

/-- What follows the run of a bench's JMU if it ends now (R176). -/
def State.runOver (s : State) (bench : Nat) : Option Lease :=
  let ids := s.benchCores bench
  let l := s.benchLease bench
  match l.holder with
  | none => none
  | some k =>
    let others := (s.slotsFrom bench (k + 1)).filter (fun j => j != k)
    let idle := !s.slotWaits ids k
    let stuck := (ids.filter (fun id => s.slotOf id == k)).all s.headStuck
    if decide (s.cycle ≥ l.busy) && (l.spent s.cycle || idle || (stuck && !others.isEmpty)) then
      match others with
      | j :: _ => some (l.begin_ j s.cycle)
      | [] => some { l.begin_ k s.cycle with holder := if idle then none else some k }
    else none

def execJmuRunEnd (bench : Nat) (s : State) : Host.Outcome State Fault Refusal :=
  match s.runOver bench with
  | some l => .next (s.setLease bench l)
  | none => .next s

/-! ### The end of a cycle

A word issues, is discarded and retires in the first cycle in which it can (R173, R180, spec/09 R224), a guard is examined in
each cycle (R223), a run of the JMU ends at the first word boundary (R176): no cycle passes while one of these is due. -/

/-- An unleased JMU goes to the slot that waits; which one where several came to wait in one cycle is left open. -/
def State.grantLease (s : State) (bench : Nat) : State :=
  let l := s.benchLease bench
  match l.holder with
  | some _ => s
  | none =>
    match s.slotsFrom bench 0 with
    | [] => s
    | [k] => s.setLease bench (l.begin_ k s.cycle)
    | ks => s.bump.setLease bench (l.begin_ (ks.getD (Config.freeIndex s.fresh % ks.length) 0) s.cycle)

/-- The head word of a queue can be got under way now: its instruction, run, issues it or ends it. It cannot while blocks of its ring
entries are not in, or what its end by a fault signals has to wait. -/
def State.headRuns (s : State) (run : Instr → State → Host.Outcome State Fault Refusal) (id : CoreId) (q : Queue) (h : Head) : Bool :=
  match decodeWord h.pw.word with
  | .ok i => match run i { s with cur := id } with
    | .next t => (t.core id).issueNo != (s.core id).issueNo || (t.core id).queue q != (s.core id).queue q
    | _ => false
  | .error _ => false

/-- The head word of a queue is due: it can issue, or it can be discarded. A word discarded in this cycle already may be discarded
in it again but need not, since a block may loop over discarded words. -/
def State.headDue (s : State) (run : Instr → State → Host.Outcome State Fault Refusal) (id : CoreId) (q : Queue) : Bool :=
  match (s.core id).headOf q with
  | none => false
  | some h =>
    (match s.discardHead id q with
     | some (h, t) => !h.push.gone.contains (h.key, s.cycle) && !(t.discard id q h).isBlocked
     | none => false) ||
    ((q == .eqm || q == .eqv) && s.mvReady id q && (s.takeUnit id q).isSome && s.headRuns run id q h)

/-- The oldest word in flight of a queue is due to retire. -/
def State.retireDue (s : State) (id : CoreId) (q : Queue) : Bool :=
  match (s.core id).firstFlight q with
  | none => false
  | some f => decide (s.cycle ≥ f.retireAt) && !(s.retireFlight id f).isBlocked

/-- Benches of the contexts that run. -/
def State.liveBenches (s : State) : List Nat := (s.ctxs.filter (fun x => x.run == .running)).flatMap (fun x => x.benches)

/-- Something of the engines is due in the present cycle. -/
def State.due (s : State) (run : Instr → State → Host.Outcome State Fault Refusal) : Bool :=
  s.cores.any (fun c => [Queue.eqm, .eqv, .eqc, .eqp].any (fun q => s.headDue run c.id q)
    || [Queue.eqm, .eqv].any (fun q => s.retireDue c.id q))
  || s.liveBenches.any (fun b => (s.runOver b).isSome)

/-- The next cycle begins: the banks have served this one, and the queues see the guard slots as they stand now (spec/05 R106,
spec/09 R222). -/
def State.nextCycle (s : State) : State :=
  let s := s.settleBanks
  { s with cycle := s.cycle + 1, cores := s.cores.map (fun (c : CoreSt) => { c with gslSeen := c.csr.gsl }) }

/-- A cycle passes, unless something is due in it. -/
def State.passCycle (run : Instr → State → Host.Outcome State Fault Refusal) (s : State) : State :=
  let s := s.cores.foldl (fun s c => s.decideHeads c.id) s
  let s := s.liveBenches.foldl (fun s b => s.grantLease b) s
  if s.due run then s else s.nextCycle

/-- Up to `n` cycles pass. -/
def State.passCycles (run : Instr → State → Host.Outcome State Fault Refusal) (s : State) : Nat → State
  | 0 => s
  | n + 1 => (s.passCycle run).passCycles run n

end Sys2Proof.Machine
end

