-- ==== Sys2Proof/Machine/Matrix.lean ====
section
/-! DEFINITION. Matrix commands (spec/08 R184 to R197). -/

namespace Sys2Proof.Machine

/-! ### Operands of a multiply (R184 to R188) -/

/-- Image of operand A or B of `r` rows and `k` columns: the elements as they lie. -/
def MvIn.image (x : MvIn) (field o : Nat) (v : Desc) (cont r k : Nat) : Array Nat :=
  let (ir, ic) := imageShape (opCol o) r k
  (if opRing o then unpack cont (x.scr.readBytes (x.ent field) (ir * (ic * cont / 8)))
   else v.readFrom cont x.reg).toArray

/-- Element (s, t) of an operand of `r` rows and `k` columns. -/
def imageAt (img : Array Nat) (col : Bool) (r k s t : Nat) : Nat :=
  if col then img.getD (t * r + s) 0 else img.getD (s * k + t) 0

/-- Format that a float operand is read under (R185). -/
def operandFmt (cont sel : Nat) (img : Word) : Fmt :=
  if cont = 16 then (if sel = 0 then Fmt.f16 else Fmt.bf16) else Fmt.ofReg img

/-- Value of an operand container of a float command. -/
def operandFloat (F : Fmt) (v : Nat) : XR := decodeFloat F (v % 2 ^ F.width)

/-- Value of an operand container of an integer command. -/
def operandInt (cont sel v : Nat) : Int := if sel = 0 then signed cont v else (v % 2 ^ cont : Nat)

/-- Value of an `e8s` code. -/
def scaleValue (b : Byte) : XR := decodeFloat Fmt.scale8 b.toNat

/-- The per-command scale as an FP32 value (R154). -/
def fsValue (fs : Word) : XR := decodeFloat Fmt.f32 (unbox .s fs)

/-- The exact product of factors (R161): a NaN factor gives NaN, and so does zero times an infinity, which counts. -/
def product (xs : List XR) : XR × Evs :=
  if xs.any XR.isNaN then (.nan, [])
  else
    let y := xs.foldl XR.mul (.num false 1 1)
    if y.isNaN then (.nan, [evInval]) else (y, [])

/-- Positions of the ones of a mask below `n`, rising. -/
def onesOf (n m : Nat) : List Nat := (List.range n).filter (fun i => m / 2 ^ i % 2 = 1)

/-- Mask of row `i` and group `g` of a sparse A (R188). -/
def MvIn.mask (x : MvIn) (k i g : Nat) : Nat := x.scr.readNat (x.ent 3 + 2 * (i * (k / 16) + g)) 2

/-- The (position in A's row, k) pairs that give products in row `i` of a multiply. -/
def MvIn.pairs (x : MvIn) (g : MulForm) (f : MvF) (i : Nat) : List (Nat × Nat) :=
  if g.sparse then
    (List.range (f.k / 16)).flatMap (fun gr =>
      let ones := (onesOf 16 (x.mask f.k i gr)).take f.sn
      ones.mapIdx (fun h q => (gr * f.sn + h, 16 * gr + q)))
  else (List.range f.k).map (fun k => (k, k))

/-- Groups of a sparse row whose mask does not hold `sn` ones count `ev_inval` once each. -/
def MvIn.maskEvs (x : MvIn) (f : MvF) : Evs :=
  (List.range f.m).flatMap (fun i => (List.range (f.k / 16)).flatMap (fun gr =>
    if popcount 16 (x.mask f.k i gr) = f.sn then [] else [evInval]))

/-- Elements of an accumulator view. -/
def accElems (d : Desc) (col : Bool) (reg : Mem) : List AE := (d.readPort 128 col reg).map AE.ofNat

/-- `multiply` (R190). DESIGN CHOICE: each product 0 × ±Inf of an element counts `ev_inval` once, where spec/07 R161 counts products and
R168 speaks of a count per element and command (notes/assumptions/53.md). -/
def runMul (g : MulForm) (x : MvIn) : MvOut :=
  let p := x.pw
  let f : MvF := ⟨p.word⟩
  let kc := if g.sparse then f.k * f.sn / 16 else f.k
  let A := x.image 0 f.a p.va g.ca f.m kc
  let B := x.image 1 f.b p.vb g.cb f.k f.n
  let nb := (f.k + 127) / 128
  let FA := operandFmt g.ca f.fa p.fa
  let FB := operandFmt g.cb f.fb p.fb
  let sc (field sel i k : Nat) : List XR :=
    if sel % 2 = 1 then [scaleValue (x.scr.read (x.ent field + i * nb + k / 128))] else []
  let fs : List XR := if f.fsen then [fsValue p.fs] else []
  let prod (i j : Nat) (ks : Nat × Nat) : XR × Evs :=
    let av := imageAt A (opCol f.a) f.m kc i ks.1
    let bv := imageAt B (opCol f.b) f.k f.n ks.2 j
    if g.float then
      product ([operandFloat FA av, operandFloat FB bv] ++ sc 4 f.sca i ks.2 ++ sc 5 f.scb j ks.2 ++ fs)
    else (XR.ofInt (operandInt g.ca f.fa av * operandInt g.cb f.fb bv), [])
  let rows := (List.range f.m).map (x.pairs g f)
  let cells := ((accElems p.vd (opCol f.d) x.reg).zip ((List.range f.m).flatMap (fun i => (List.range f.n).map (fun j => (i, j)))))
  let out := cells.mapIdx (fun e c =>
    let ps := (rows.getD c.2.1 []).map (prod c.2.1 c.2.2)
    let r := accumulate c.1 (ps.map Prod.fst) g.float (x.split e)
    (r.1.toNat, ps.flatMap Prod.snd ++ r.2))
  { MvOut.nil with
    regW := p.vd.rowsOf 128 (opCol f.d) (out.map Prod.fst)
    evs := out.flatMap Prod.snd ++ (if g.sparse then x.maskEvs f else []) }

/-- Occupancy of a multiply (R191). -/
def mulTime (g : MulForm) (p : PWord) : Nat :=
  let f : MvF := ⟨p.word⟩
  let step := if g.sparse then g.step * 16 / f.sn else g.step
  4 + (f.m + 31) / 32 * ((f.n + 31) / 32) * ((f.k + step - 1) / step)

def mulOp (g : MulForm) : MvOp := ⟨mulTime g, 6, true, runMul g⟩

/-! ### `mzero`, `manch` (R192, R193) -/

/-- A fresh element; which kind it holds is left open (R160), `split` picks it. -/
def freshBy (split : Word) : AE := { AE.freshElem with float := bit split 63 }

def runMzero (x : MvIn) : MvOut :=
  let h := (⟨x.pw.word⟩ : MvF).imm
  let es := (List.range x.pw.vd.elems).map (fun e =>
    (if h = 0 then freshBy (x.split e) else { AE.freshElem with E := h, float := true }).toNat)
  { MvOut.nil with regW := x.pw.vd.rowsOf 128 false es }

def runManch (x : MvIn) : MvOut :=
  let e := (⟨x.pw.word⟩ : MvF).imm
  let out := (accElems x.pw.vd false x.reg).mapIdx (fun i ae => anchorRaise ae e (x.split i))
  { MvOut.nil with regW := x.pw.vd.rowsOf 128 false (out.map (fun r => r.1.toNat)), evs := out.flatMap Prod.snd }

/-- Occupancy of the commands that walk a view of `c` elements. -/
def walkTime (start c : Nat) : Nat := start + (c + 63) / 64

/-! ### `mres` (R194 to R196) -/

/-- Rounding mode of a command word. -/
def cmdRM (rm : Nat) : RM := if rm = 0 then .rne else if rm = 1 then .rtz else .sr

/-- The draw of element `k` of a command. -/
def MvIn.draw (x : MvIn) (k : Nat) : Nat := srDraw x.seed x.lcn (⟨x.pw.word⟩ : MvF).sid k

/-- Target format of `mres.f`. -/
def mresFmt (imm : Nat) (fd : Word) : Fmt :=
  match imm % 4 with
  | 0 => Fmt.ofReg fd
  | 1 => Fmt.f32
  | 2 => Fmt.bf16
  | _ => Fmt.f16

/-- Address of element `k` of a view in port order, and whether it is the high nibble of its byte. -/
def Desc.elemAt (d : Desc) (c : Nat) (col : Bool) (k : Nat) : Nat × Bool :=
  let (i, j) := if col && !d.isVec then (k % d.rows, k / d.rows) else (k / d.shape.2, k % d.shape.2)
  (d.rowAddr i + j * c / 8, c == 4 && j % 2 == 1)

/-- Write an element of `c` bits where `elemAt` says. -/
def putElem (m : Mem) (c v : Nat) (a : Nat × Bool) : Mem :=
  if c = 4 then
    let b := (m.read a.1).toNat
    m.write a.1 [BitVec.ofNat 8 (if a.2 then b % 16 + v % 16 * 16 else b / 16 * 16 + v % 16)]
  else m.write a.1 (leBytes (c / 8) v)

/-- The elements of `mres` one after another, for a destination view that lies over the source: element `k` is read, its value
written, and the element itself changed, before element `k + 1` is read. -/
def mresSteps (x : MvIn) (cont : Nat) (conv : Nat → AE → Nat × Evs) (clr : Bool) : Mem × Evs :=
  let p := x.pw
  let f : MvF := ⟨p.word⟩
  (List.range p.va.elems).foldl (fun (r : Mem × Evs) k =>
    let a := (p.va.elemAt 128 (opCol f.a) k).1
    let y := conv k (AE.ofNat (r.1.readNat a 16))
    let m := putElem r.1 cont y.1 (p.vd.elemAt cont (opCol f.d) k)
    let back := if clr then (freshBy (x.split k)).toNat else (m.readNat a 16 ||| 2 ^ 125) % 2 ^ 127
    (m.write a (leBytes 16 back), r.2 ++ y.2)) (x.reg, [])

/-- Rows of a view as they stand in a register space. -/
def Desc.rowsAt (d : Desc) (c : Nat) (m : Mem) : List (Nat × List Byte) :=
  (List.range d.shape.1).map (fun i => (d.rowAddr i, m.readBytes (d.rowAddr i) (d.rowBytes c)))

/-- `mres`: `conv` resolves element `k` to a value of `cont` bits. -/
def runMres (cont : Nat) (conv : Nat → AE → Nat × Evs) (x : MvIn) : MvOut :=
  let p := x.pw
  let f : MvF := ⟨p.word⟩
  let aes := accElems p.va (opCol f.a) x.reg
  let rs := aes.mapIdx conv
  let vals := rs.map Prod.fst
  let clr := f.imm / 256 % 2 = 1
  let back := aes.mapIdx (fun k _ => (freshBy (x.split k)).toNat)
  if !opRing f.d && regionsMeet (p.va.regions p.ca) (p.vd.regions p.cd) then
    let r := mresSteps x cont conv clr
    { MvOut.nil with regW := p.vd.rowsAt cont r.1 ++ p.va.rowsAt 128 r.1, evs := r.2 }
  else
  { MvOut.nil with
    regW := (if opRing f.d then [] else p.vd.rowsOf cont (opCol f.d) vals)
      ++ (if clr then p.va.rowsOf 128 (opCol f.a) back else [])
    resAt := if clr then [] else (p.va.regions p.ca).flatMap (fun r => (List.range (r.len / 16)).map (fun j => r.start + 16 * j))
    scrW := if opRing f.d then [(x.ent 2, pack cont vals)] else []
    evs := rs.flatMap Prod.snd }

def runMresI (x : MvIn) : MvOut :=
  let f : MvF := ⟨x.pw.word⟩
  runMres 32 (fun k ae =>
    let r := resolveInt ae (f.imm % 64) (cmdRM f.rm) (x.draw k)
    (wrapNat 32 r.1, r.2)) x

def runMresF (x : MvIn) : MvOut :=
  let f : MvF := ⟨x.pw.word⟩
  runMres (mresBits 0x31 f.imm x.pw.fd)
    (fun k ae => resolveFloat ae (mresFmt f.imm x.pw.fd) (cmdRM f.rm) (x.draw k)) x

/-! ### `mcmp` (R197) -/

/-- Relation codes of R197 on exact values; a NaN makes every one false but NE. -/
def relation (r : Nat) (a b : XR) : Bool :=
  if a.isNaN || b.isNaN then r == 1
  else match r with
    | 0 => XR.eq a b
    | 1 => !XR.eq a b
    | 2 => XR.lt a b
    | 3 => XR.lt a b || XR.eq a b
    | 4 => XR.lt b a
    | _ => XR.lt b a || XR.eq a b

/-- Result element of a list of truths: index of the first in [63:32], count in [31:0]. -/
def countFirst (ts : List Bool) : Word :=
  word (((ts.findIdx? id).getD 0xFFFFFFFF) * 2 ^ 32 + ts.countP id)

def runMcmp (x : MvIn) : MvOut :=
  let p := x.pw
  let f : MvF := ⟨p.word⟩
  let ts := ((accElems p.va (opCol f.a) x.reg).zip (accElems p.vb (opCol f.b) x.reg)).map
    (fun q => relation (f.imm % 8) q.1.value q.2.value)
  { MvOut.nil with
    regW := if f.imm / 8 % 2 = 1 then p.vd.rowsOf 8 (opCol f.d) (ts.map (fun t => if t then 1 else 0)) else []
    result := some (countFirst ts) }

/-! ### The commands -/

def mzeroOp : MvOp := ⟨fun p => walkTime 2 p.vd.elems, 2, true, runMzero⟩
def manchOp : MvOp := ⟨fun p => walkTime 2 p.vd.elems, 2, false, runManch⟩
def mresIOp : MvOp := ⟨fun p => walkTime 4 p.va.elems, 4, false, runMresI⟩
def mresFOp : MvOp := ⟨fun p => walkTime 4 p.va.elems, 4, false, runMresF⟩
def mcmpOp : MvOp := ⟨fun p => walkTime 4 p.va.elems, 4, false, runMcmp⟩

def execMmf88 (h : Header) (w : MvBody) (s : State) : Host.Outcome State Fault Refusal :=
  runMv .eqm (.mmf88 h w) (mulOp ⟨8, 8, true, false, 16⟩) s

def execMmf84 (h : Header) (w : MvBody) (s : State) : Host.Outcome State Fault Refusal :=
  runMv .eqm (.mmf84 h w) (mulOp ⟨8, 4, true, false, 16⟩) s

def execMmf44 (h : Header) (w : MvBody) (s : State) : Host.Outcome State Fault Refusal :=
  runMv .eqm (.mmf44 h w) (mulOp ⟨4, 4, true, false, 32⟩) s

def execMmh16 (h : Header) (w : MvBody) (s : State) : Host.Outcome State Fault Refusal :=
  runMv .eqm (.mmh16 h w) (mulOp ⟨16, 16, true, false, 8⟩) s

def execMmh8 (h : Header) (w : MvBody) (s : State) : Host.Outcome State Fault Refusal :=
  runMv .eqm (.mmh8 h w) (mulOp ⟨16, 8, true, false, 8⟩) s

def execMmi88 (h : Header) (w : MvBody) (s : State) : Host.Outcome State Fault Refusal :=
  runMv .eqm (.mmi88 h w) (mulOp ⟨8, 8, false, false, 16⟩) s

def execMmi84 (h : Header) (w : MvBody) (s : State) : Host.Outcome State Fault Refusal :=
  runMv .eqm (.mmi84 h w) (mulOp ⟨8, 4, false, false, 16⟩) s

def execMmi44 (h : Header) (w : MvBody) (s : State) : Host.Outcome State Fault Refusal :=
  runMv .eqm (.mmi44 h w) (mulOp ⟨4, 4, false, false, 32⟩) s

def execMspf88 (h : Header) (w : MvBody) (s : State) : Host.Outcome State Fault Refusal :=
  runMv .eqm (.mspf88 h w) (mulOp ⟨8, 8, true, true, 16⟩) s

def execMspf44 (h : Header) (w : MvBody) (s : State) : Host.Outcome State Fault Refusal :=
  runMv .eqm (.mspf44 h w) (mulOp ⟨4, 4, true, true, 32⟩) s

def execMspi88 (h : Header) (w : MvBody) (s : State) : Host.Outcome State Fault Refusal :=
  runMv .eqm (.mspi88 h w) (mulOp ⟨8, 8, false, true, 16⟩) s

def execMsph16 (h : Header) (w : MvBody) (s : State) : Host.Outcome State Fault Refusal :=
  runMv .eqm (.msph16 h w) (mulOp ⟨16, 16, true, true, 8⟩) s

def execMzero (h : Header) (w : MvBody) (s : State) : Host.Outcome State Fault Refusal :=
  runMv .eqm (.mzero h w) mzeroOp s

def execManch (h : Header) (w : MvBody) (s : State) : Host.Outcome State Fault Refusal :=
  runMv .eqm (.manch h w) manchOp s

def execMresI (h : Header) (w : MvBody) (s : State) : Host.Outcome State Fault Refusal :=
  runMv .eqm (.mresI h w) mresIOp s

def execMresF (h : Header) (w : MvBody) (s : State) : Host.Outcome State Fault Refusal :=
  runMv .eqm (.mresF h w) mresFOp s

def execMcmp (h : Header) (w : MvBody) (s : State) : Host.Outcome State Fault Refusal :=
  runMv .eqm (.mcmp h w) mcmpOp s

end Sys2Proof.Machine
end

