-- ==== Sys2Proof/Machine/Vector.lean ====
section
/-! DEFINITION. Vector commands (spec/08 R198 to R209). -/

namespace Sys2Proof.Machine

/-! ### Types (R199) -/

/-- Float format of a view's type. -/
def Desc.floatFmt (d : Desc) (img : Word) : Fmt :=
  if d.fsel then Fmt.ofReg img
  else match d.etype with
    | 0xA => Fmt.f32
    | 0xB => Fmt.bf16
    | 0xC => Fmt.f16
    | _ => Fmt.scale8

/-- Value of a container of an integer type. -/
def Desc.intVal (d : Desc) (v : Nat) : Int :=
  if d.etype ≤ 4 then signed (typeBits d.etype) v else (v % 2 ^ typeBits d.etype : Nat)

/-- Range of an integer type. -/
def Desc.intRange (d : Desc) : Int × Int :=
  let w := typeBits d.etype
  if d.etype ≤ 4 then (-(2 ^ (w - 1) : Int), 2 ^ (w - 1) - 1) else (0, 2 ^ w - 1)

/-- Exact value of a container of class I, F or X. -/
def Desc.value (d : Desc) (img : Word) (v : Nat) : XR :=
  if d.vclass = 0 then XR.ofInt (d.intVal v)
  else
    let F := d.floatFmt img
    decodeFloat F (v % 2 ^ F.width)

/-! ### Accumulator sources (R209) -/

/-- A view of the type that the implicit resolve of an accumulator view gives, over the same elements. -/
def Desc.resolved (d : Desc) (float : Bool) : Desc :=
  { d with d0 := word (d.d0.toNat % 2 ^ 56 + (if float then 0xA else 0x3) * 2 ^ 56 + 2 ^ 62) }

/-- A source of a vector word: the view that types it, its containers in port order, and what resolving it counts. -/
structure VSrc where
  view : Desc
  es   : List Nat
  evs  : Evs
  unresolved : Bool             -- a strict view with an element that has `res` = 0
  mixed : Bool                  -- elements of both kinds

def MvIn.source (x : MvIn) (v : Desc) (fmt : Word) (o : Nat) : VSrc :=
  if v.isAcc then
    let raw := v.readPort 128 (opCol o) x.reg
    let aes := raw.map AE.ofNat
    let float := (aes.head?.map AE.float).getD false
    let rs := raw.map resolveRead
    ⟨v.resolved float, rs.map Prod.fst, rs.flatMap Prod.snd, v.strict && aes.any (fun a => !a.res),
      aes.any (fun a => a.float != float)⟩
  else ⟨v, v.readPort (v.container fmt) (opCol o) x.reg, [], false, false⟩

/-! ### Results (R201 to R207) -/

/-- Finish an exact integer result (R202). -/
def vecInt (d : Desc) (sat : Bool) (v : Int) : Nat × Evs :=
  let (lo, hi) := d.intRange
  if sat then
    let r := clampInt v lo hi
    (wrapNat (typeBits d.etype) r.1, r.2)
  else (wrapNat (typeBits d.etype) v, [])

/-- An exact operation on floats: a NaN that no operand brought is an invalid operation. -/
def xrOp (g : XR → XR → XR) (a b : XR) : XR × Evs :=
  let y := g a b
  (y, if y.isNaN && !a.isNaN && !b.isNaN then [evInval] else [])

/-- Less than with −0 below +0, on values that are not NaN. -/
def xrBelow (a b : XR) : Bool :=
  XR.lt a b || (XR.eq a b && xrIsZero a && xrSign a && !xrSign b)

/-- Larger (or smaller) of two; a NaN loses to any number (R203). -/
def xrPick (big : Bool) (a b : XR) : XR :=
  if a.isNaN then b else if b.isNaN then a
  else if big then (if xrBelow a b then b else a) else (if xrBelow b a then b else a)

/-- Float to integer (R204). -/
def floatToInt (d : Desc) (x : XR) (rm : RM) (draw : Nat) : Nat × Evs :=
  let (lo, hi) := d.intRange
  let w := typeBits d.etype
  match x with
  | .nan => (0, [evInval])
  | .inf s => (wrapNat w (if s then lo else hi), [evSat])
  | .num s n e =>
    let r := clampInt (roundInt s n e rm draw) lo hi
    (wrapNat w r.1, r.2)

/-- What a vector command works on once its sources are read. -/
structure VIn where
  f   : MvF
  d   : Desc
  cd  : Word
  n   : Nat                     -- count of d
  a   : VSrc
  ca  : Word
  b   : VSrc
  cb  : Word
  old : Array Nat               -- old elements of d
  m   : Array Nat               -- mask elements
  fs  : Word
  draw : Nat → Nat

namespace VIn

def A (x : VIn) : Array Nat := x.a.es.toArray
def B (x : VIn) : Array Nat := x.b.es.toArray
def isI (x : VIn) : Bool := x.d.vclass == 0
def sat (x : VIn) : Bool := x.f.imm / 2 ^ 31 % 2 == 1
def rm (x : VIn) : RM := cmdRM x.f.rm

/-- Round a float result to the type of `d`. -/
def fin (x : VIn) (k : Nat) (r : XR × Evs) : Nat × Evs :=
  let y := roundTo (x.d.floatFmt x.cd) r.1 x.rm (x.draw k)
  (y.1, r.2 ++ y.2)

def intA (x : VIn) (A : Array Nat) (k : Nat) : Int := x.a.view.intVal (A.getD k 0)
def intB (x : VIn) (B : Array Nat) (k : Nat) : Int := x.b.view.intVal (B.getD k 0)
def valA (x : VIn) (A : Array Nat) (k : Nat) : XR := x.a.view.value x.ca (A.getD k 0)
def valB (x : VIn) (B : Array Nat) (k : Nat) : XR := x.b.view.value x.cb (B.getD k 0)

/-- One result for every element of `d`. -/
def each (x : VIn) (g : Array Nat → Array Nat → Nat → Nat × Evs) : List (Nat × Evs) :=
  let A := x.A
  let B := x.B
  (List.range x.n).map (g A B)

/-- A two-operand command: on integers and on floats. -/
def arith (x : VIn) (gi : Int → Int → Int) (gf : XR → XR → XR × Evs) : List (Nat × Evs) :=
  x.each (fun A B k =>
    if x.isI then vecInt x.d x.sat (gi (x.intA A k) (x.intB B k))
    else x.fin k (gf (x.valA A k) (x.valB B k)))

/-- A one-operand command. -/
def unary (x : VIn) (gi : Int → Int) (gf : XR → XR × Evs) : List (Nat × Evs) :=
  x.each (fun A _ k => if x.isI then vecInt x.d x.sat (gi (x.intA A k)) else x.fin k (gf (x.valA A k)))

/-- A command that moves containers unchanged. -/
def raw (x : VIn) (g : Array Nat → Array Nat → Nat → Nat) : List (Nat × Evs) := x.each (fun A B k => (g A B k, []))

/-- Shift amount of element `k` (R202); an `i4` element gives its container as it stands, no sign extended (notes/assumptions/11.md). -/
def amount (x : VIn) (B : Array Nat) (k : Nat) : Nat :=
  if x.f.imm / 256 % 2 = 1 then B.getD k 0 % 64 else x.f.imm % 64

/-- Bits of a container of `d`. -/
def width (x : VIn) : Nat := typeBits x.d.etype

def truth (t : Bool) : Nat × Evs := (if t then 1 else 0, [])

end VIn

def vAdd (x : VIn) : List (Nat × Evs) := x.arith (· + ·) (xrOp XR.add)
def vSub (x : VIn) : List (Nat × Evs) := x.arith (· - ·) (xrOp (fun a b => XR.add a b.neg))
def vMul (x : VIn) : List (Nat × Evs) := x.arith (· * ·) (xrOp XR.mul)

def vFma (x : VIn) : List (Nat × Evs) :=
  x.each (fun A B k =>
    let o := x.old.getD k 0
    if x.isI then vecInt x.d x.sat (x.intA A k * x.intB B k + x.d.intVal o)
    else
      let p := xrOp XR.mul (x.valA A k) (x.valB B k)
      let r := xrOp XR.add p.1 (x.d.value x.cd o)
      x.fin k (r.1, p.2 ++ r.2))

def vMax (x : VIn) : List (Nat × Evs) := x.arith max (fun a b => (xrPick true a b, []))
def vMin (x : VIn) : List (Nat × Evs) := x.arith min (fun a b => (xrPick false a b, []))
def vAbs (x : VIn) : List (Nat × Evs) := x.unary (fun a => a.natAbs) (fun a => (a.abs, []))
def vNeg (x : VIn) : List (Nat × Evs) := x.unary (fun a => -a) (fun a => (a.neg, []))

def vShl (x : VIn) : List (Nat × Evs) :=
  x.each (fun A B k => vecInt x.d x.sat (x.intA A k * 2 ^ x.amount B k))

def vShr (x : VIn) : List (Nat × Evs) := x.raw (fun A B k => A.getD k 0 % 2 ^ x.width / 2 ^ x.amount B k)

/-- The top bit of the container is the sign, whatever the type (notes/assumptions/22.md). -/
def vSra (x : VIn) : List (Nat × Evs) :=
  x.raw (fun A B k => wrapNat x.width (Int.fdiv (signed x.width (A.getD k 0)) (2 ^ x.amount B k)))

def vAnd (x : VIn) : List (Nat × Evs) := x.raw (fun A B k => A.getD k 0 &&& B.getD k 0)
def vOr (x : VIn) : List (Nat × Evs) := x.raw (fun A B k => A.getD k 0 ||| B.getD k 0)
def vXor (x : VIn) : List (Nat × Evs) := x.raw (fun A B k => A.getD k 0 ^^^ B.getD k 0)

def vCmp (x : VIn) : List (Nat × Evs) :=
  x.each (fun A B k => VIn.truth (relation (x.f.imm % 8) (x.valA A k) (x.valB B k)))

def vSel (x : VIn) : List (Nat × Evs) :=
  x.raw (fun A B k => if x.m.getD k 0 != 0 then A.getD k 0 else B.getD k 0)

def vCvt (x : VIn) : List (Nat × Evs) :=
  x.each (fun A _ k =>
    if x.isI then
      if x.a.view.vclass = 0 then vecInt x.d true (x.intA A k)
      else floatToInt x.d (x.valA A k) x.rm (x.draw k)
    else x.fin k (x.valA A k, []))

def vRcp (x : VIn) : List (Nat × Evs) := x.each (fun A _ k => x.fin k ((x.valA A k).recip, []))
def vExp2 (x : VIn) : List (Nat × Evs) := x.each (fun A _ k => x.fin k (exp2 (x.valA A k), []))

/-- The sum of the elements (R203); with a NaN among them it is NaN and counts no `ev_inval` (notes/assumptions/11.md). -/
def vReds (x : VIn) : List (Nat × Evs) :=
  let A := x.A
  if x.isI then [vecInt x.d x.sat ((x.a.es.map x.a.view.intVal).foldl (· + ·) 0)]
  else
    match (List.range x.a.es.length).map (x.valA A) with
    | [] => []
    | v :: vs =>
      if (v :: vs).any XR.isNaN then [x.fin 0 (.nan, [])]
      else
        let y := vs.foldl XR.add v
        [x.fin 0 (y, if y.isNaN then [evInval] else [])]

def vRedm (x : VIn) : List (Nat × Evs) :=
  let small := x.f.imm % 2 = 1
  let A := x.A
  if x.isI then
    match x.a.es.map x.a.view.intVal with
    | [] => []
    | v :: vs => [vecInt x.d false (vs.foldl (fun (m : Int) y => if small then min m y else max m y) v)]
  else
    match (List.range x.a.es.length).map (x.valA A) with
    | [] => []
    | v :: vs => [x.fin 0 (vs.foldl (xrPick (!small)) v, [])]

def vPerm (x : VIn) : List (Nat × Evs) :=
  x.raw (fun A B k =>
    let i := x.intB B k
    if 0 ≤ i ∧ i < (A.size : Int) then A.getD i.toNat 0 else 0)

def vBcast (x : VIn) : List (Nat × Evs) := x.raw (fun A _ _ => A.getD (x.f.imm % 65536) 0)

def vScl (x : VIn) : List (Nat × Evs) := x.each (fun A _ k => x.fin k (xrOp XR.mul (x.valA A k) (fsValue x.fs)))

/-- `min(max(a, b[0]), b[1])`; a NaN element stays NaN, a NaN bound is ignored, and a zero that changes its sign is not counted (R203,
notes/assumptions/22.md). -/
def vClamp (x : VIn) : List (Nat × Evs) :=
  x.each (fun A B k =>
    if x.isI then
      let a := x.intA A k
      let y := min (max a (x.intB B 0)) (x.intB B 1)
      (wrapNat x.width y, if y = a then [] else [evSat])
    else
      let a := x.valA A k
      if a.isNaN then x.fin k (a, [])
      else
        let y := xrPick false (xrPick true a (x.valB B 0)) (x.valB B 1)
        x.fin k (y, if XR.eq y a then [] else [evSat]))

def vRq (x : VIn) : List (Nat × Evs) :=
  x.each (fun A _ k =>
    let v := x.intA A k * signed 16 (x.f.imm / 65536)
    let sh := x.f.imm % 64
    let r := roundInt (decide (v < 0)) v.natAbs (2 ^ sh) x.rm (x.draw k)
    let (lo, hi) := x.d.intRange
    let c := clampInt (r + signed 8 (x.f.imm / 64)) lo hi
    (wrapNat x.width c.1, c.2))

def vNfin (x : VIn) : List (Nat × Evs) :=
  x.each (fun A _ k => VIn.truth ((x.valA A k).isNaN || (x.valA A k).isInf))

/-! ### Running a vector word (R201, R208, R209) -/

/-- `vector`: faults of accumulator sources first; then every source is read before `d` is written. -/
def runVector (nfin : Bool) (g : VIn → List (Nat × Evs)) (x : MvIn) : MvOut :=
  let p := x.pw
  let f : MvF := ⟨p.word⟩
  let op := wordOp p.word
  let a := x.source p.va p.ca f.a
  let b := if vecUsesB op f.imm then x.source p.vb p.cb f.b else ⟨Desc.zero, [], [], false, false⟩
  let typed : PWord := { p with va := a.view, vb := if vecUsesB op f.imm then b.view else p.vb }
  if a.unresolved || b.unresolved then { MvOut.nil with fault := some (0x0E, 0) }
  else if a.mixed || b.mixed || ((p.va.isAcc || (vecUsesB op f.imm && p.vb.isAcc)) && vectorRange typed) then
    { MvOut.nil with fault := some (0x0D, 0x600) }
  else
    let cd := p.vd.container p.cd
    let v : VIn := ⟨f, p.vd, p.cd, p.vd.elems, a, p.ca, b, p.cb,
      (if op = 0x04 then p.vd.readPort cd (opCol f.d) x.reg else []).toArray,
      (if op = 0x10 then p.vm.readFrom (p.vm.container p.cm) x.reg else []).toArray, p.fs, x.draw⟩
    let rs := g v
    let ys := rs.map Prod.fst
    let ts := ys.map (fun y => y != 0)
    { MvOut.nil with
      regW := p.vd.rowsOf cd (opCol f.d) ys
      evs := a.evs ++ b.evs ++ rs.flatMap Prod.snd
      nfs := nfin && ts.any id
      result := if nfin then some (countFirst ts) else none }

/-- Occupancy of a vector word (R200, R209). -/
def vecTime (p : PWord) : Nat :=
  let f : MvF := ⟨p.word⟩
  let op := wordOp p.word
  let ops : List (Desc × Word) := [(p.va, p.ca), (p.vd, p.cd)] ++ (if vecUsesB op f.imm then [(p.vb, p.cb)] else [])
    ++ (if op = 0x10 then [(p.vm, p.cm)] else [])
  let B := (ops.map (fun o => o.1.spanEnd (o.1.container o.2) - o.1.vbase)).foldl max 0
  let div := if ops.any (fun o => decide (o.1.vbase ≥ 0x10000)) then 128 else 256
  let acc (d : Desc) : Nat := if d.isAcc then 4 * ((d.elems + 31) / 32) else 0
  4 + (B + div - 1) / div + acc p.va + (if vecUsesB op f.imm then acc p.vb else 0)

def vecOp (g : VIn → List (Nat × Evs)) : MvOp := ⟨vecTime, 2, false, runVector false g⟩

/-! ### The commands -/

def execVadd (h : Header) (w : MvBody) (s : State) : Host.Outcome State Fault Refusal :=
  runMv .eqv (.vadd h w) (vecOp vAdd) s

def execVsub (h : Header) (w : MvBody) (s : State) : Host.Outcome State Fault Refusal :=
  runMv .eqv (.vsub h w) (vecOp vSub) s

def execVmul (h : Header) (w : MvBody) (s : State) : Host.Outcome State Fault Refusal :=
  runMv .eqv (.vmul h w) (vecOp vMul) s

def execVfma (h : Header) (w : MvBody) (s : State) : Host.Outcome State Fault Refusal :=
  runMv .eqv (.vfma h w) (vecOp vFma) s

def execVmax (h : Header) (w : MvBody) (s : State) : Host.Outcome State Fault Refusal :=
  runMv .eqv (.vmax h w) (vecOp vMax) s

def execVmin (h : Header) (w : MvBody) (s : State) : Host.Outcome State Fault Refusal :=
  runMv .eqv (.vmin h w) (vecOp vMin) s

def execVabs (h : Header) (w : MvBody) (s : State) : Host.Outcome State Fault Refusal :=
  runMv .eqv (.vabs h w) (vecOp vAbs) s

def execVneg (h : Header) (w : MvBody) (s : State) : Host.Outcome State Fault Refusal :=
  runMv .eqv (.vneg h w) (vecOp vNeg) s

def execVshl (h : Header) (w : MvBody) (s : State) : Host.Outcome State Fault Refusal :=
  runMv .eqv (.vshl h w) (vecOp vShl) s

def execVshr (h : Header) (w : MvBody) (s : State) : Host.Outcome State Fault Refusal :=
  runMv .eqv (.vshr h w) (vecOp vShr) s

def execVsra (h : Header) (w : MvBody) (s : State) : Host.Outcome State Fault Refusal :=
  runMv .eqv (.vsra h w) (vecOp vSra) s

def execVand (h : Header) (w : MvBody) (s : State) : Host.Outcome State Fault Refusal :=
  runMv .eqv (.vand h w) (vecOp vAnd) s

def execVor (h : Header) (w : MvBody) (s : State) : Host.Outcome State Fault Refusal :=
  runMv .eqv (.vor h w) (vecOp vOr) s

def execVxor (h : Header) (w : MvBody) (s : State) : Host.Outcome State Fault Refusal :=
  runMv .eqv (.vxor h w) (vecOp vXor) s

def execVcmp (h : Header) (w : MvBody) (s : State) : Host.Outcome State Fault Refusal :=
  runMv .eqv (.vcmp h w) (vecOp vCmp) s

def execVsel (h : Header) (w : MvBody) (s : State) : Host.Outcome State Fault Refusal :=
  runMv .eqv (.vsel h w) (vecOp vSel) s

def execVcvt (h : Header) (w : MvBody) (s : State) : Host.Outcome State Fault Refusal :=
  runMv .eqv (.vcvt h w) (vecOp vCvt) s

def execVrcp (h : Header) (w : MvBody) (s : State) : Host.Outcome State Fault Refusal :=
  runMv .eqv (.vrcp h w) (vecOp vRcp) s

def execVexp2 (h : Header) (w : MvBody) (s : State) : Host.Outcome State Fault Refusal :=
  runMv .eqv (.vexp2 h w) (vecOp vExp2) s

def execVreds (h : Header) (w : MvBody) (s : State) : Host.Outcome State Fault Refusal :=
  runMv .eqv (.vreds h w) (vecOp vReds) s

def execVredm (h : Header) (w : MvBody) (s : State) : Host.Outcome State Fault Refusal :=
  runMv .eqv (.vredm h w) (vecOp vRedm) s

def execVperm (h : Header) (w : MvBody) (s : State) : Host.Outcome State Fault Refusal :=
  runMv .eqv (.vperm h w) (vecOp vPerm) s

def execVbcast (h : Header) (w : MvBody) (s : State) : Host.Outcome State Fault Refusal :=
  runMv .eqv (.vbcast h w) (vecOp vBcast) s

def execVscl (h : Header) (w : MvBody) (s : State) : Host.Outcome State Fault Refusal :=
  runMv .eqv (.vscl h w) (vecOp vScl) s

def execVclamp (h : Header) (w : MvBody) (s : State) : Host.Outcome State Fault Refusal :=
  runMv .eqv (.vclamp h w) (vecOp vClamp) s

def execVrq (h : Header) (w : MvBody) (s : State) : Host.Outcome State Fault Refusal :=
  runMv .eqv (.vrq h w) (vecOp vRq) s

def execVnfin (h : Header) (w : MvBody) (s : State) : Host.Outcome State Fault Refusal :=
  runMv .eqv (.vnfin h w) ⟨vecTime, 2, false, runVector true vNfin⟩ s

end Sys2Proof.Machine
end

