-- ==== Sys2Proof/Machine/Copy.lean ====
section
/-! DEFINITION. Memory as engines reach it, and the copy commands (spec/04 R78 to R102). -/

namespace Sys2Proof.Machine

/-! ### Outcome of an engine access -/

/-- What an engine access comes to: done with its bytes, waiting (for log-ring slots or room in the hold buffer), or
refused with a code at an address. -/
inductive Acc where
  | ok (s : State) (bs : List Byte)
  | wait (s : State)
  | refused (s : State) (code : Nat) (addr : Word)

/-- A level for translation, a space code and an address (R91). Space 3 is the scratchpad of logical core `dl`. -/
structure CopyAddr where
  space : Nat
  dl    : Nat
  a     : Nat

/-- The address as a trap record shows it. -/
def CopyAddr.shown (c : CopyAddr) : Word := if c.space = 0 then sext54 (c.a % 2 ^ 54) else word c.a

/-- Where `n` bytes lie for the engine of core `id`, or the refusal code. An address computed past the top of the 54-bit space
wraps and is sign-extended, so an engine meets no non-canonical address (notes/assumptions/53.md). -/
def State.engResolve (s : State) (id : CoreId) (rt : Bool) (c : CopyAddr) (n : Nat) (acc : Access) : Except Nat Place :=
  let x := s.ctx id.asid
  let own (l a : Nat) : Except Nat Place := if a + n > x.par.fp then .error 0x0A else .ok (.scratch l a)
  match c.space with
  | 0 =>
    let va := sext54 (c.a % 2 ^ 54)
    if va.toNat ≥ localBase then .error 0x0A else s.translate (s.dieOf id) id.asid rt va acc
  | 1 => own id.l c.a
  | 2 =>
    if c.a ≥ 2 ^ 28 ∨ c.a % 2 ^ 20 ≥ 0xC0000 then .error 0x0A
    else if c.a / 2 ^ 20 ≥ 144 then .error 0x09
    else match x.windowCore (s.dieOf id) (c.a / 2 ^ 20) with
      | none => .error 0x09
      | some l => own l (c.a % 2 ^ 20)
  | _ => own c.dl c.a

/-- The walk that an engine's access needs consumes damaged table entries (spec/23 R442). -/
def State.engWalk (s : State) (id : CoreId) (rt : Bool) (c : CopyAddr) : State × Bool :=
  if c.space = 0 then s.walkMet id rt (sext54 (c.a % 2 ^ 54)) else (s, false)

/-- A copy engine asks the banks for a scratchpad range. -/
def State.askCopy (s : State) (id : CoreId) (eng : Nat) (c : CopyAddr) (n : Nat) : State :=
  if c.space = 0 then s
  else match s.engResolve id false c n .load with
    | .ok p => s.askPlace id.asid 3 eng 0 p n
    | .error _ => s

/-- What every engine access does first: it waits for a block not yet brought in, the die that serves it is touched, and
edge-queue entries of the core's die to the same bytes are performed (spec/10 R250). -/
def State.engTouch (s : State) (id : CoreId) (p : Place) (n : Nat) : Try :=
  if !s.blocksIn id.asid p n then .blocked (s.want id.asid p n) else
  let s := match s.servedBy id.asid p with
    | some d => s.touch id.asid d
    | none => s
  if p.isLocal then .done s
  else
    let d := s.dieOf id
    s.edgeWhere d (fun w => w.place.meets w.n p n) (s.die d).edge.length

/-- The key slots as a word sees them at a line of device HBM that it has begun (spec/03 R77). -/
def State.keysAt (s : State) (was : List KeyWas) (slot pa : Nat) : State :=
  match was.find? (fun k => k.slot == slot && k.line == pa / 64) with
  | some k => { s with keys := { s.keys with slots := (slot, k.was) :: s.keys.slots.filter (fun p => p.1 != slot) } }
  | none => s

/-- Read device registers, doubleword by doubleword. -/
def State.busBytes (s : State) (off : Nat) : Nat → State × List Byte
  | 0 => (s, [])
  | n + 1 =>
    let (v, s1) := s.busRead (off / 8 * 8)
    let r := State.busBytes s1 (off + 1) n
    (r.1, BitVec.ofNat 8 (v.toNat / 256 ^ (off % 8)) :: r.2)

/-- Read `n` bytes at a place; `was` names lines that the word has begun under earlier keys. -/
def State.engReadAt (s : State) (id : CoreId) (p : Place) (n : Nat) (shown : Word) (was : List KeyWas) : Acc :=
  match s.engTouch id p n with
  | .blocked s => .wait s
  | .done s =>
    let keyed (s : State) : State := match p with
      | .hbm sl pa => s.keysAt was sl pa
      | _ => s
    if (keyed s).placeRefusal id.asid p n ≠ 0 then .refused s ((keyed s).placeRefusal id.asid p n) shown
    else
      let (s, bad) := s.consume id (s.damageAt id p n)
      if bad || s.poisonAt id p n then .refused s 0x0B shown
      else match p with
        | .dev off =>
          let r := s.busBytes off n
          .ok r.1 r.2
        | _ => .ok s ((keyed s).placeBytes id p n)

/-- Cut a range at multiples of `m`: lengths of the parts, first to last. -/
def cuts (m a n : Nat) : Nat → List Nat
  | 0 => []
  | fuel + 1 =>
    if n = 0 then []
    else
      let k := min n (m - a % m)
      k :: cuts m (a + k) (n - k) fuel

/-- Write device registers part by part. -/
def State.devParts (s : State) (id : CoreId) (win : Option Nat) (va : Word) (off : Nat) (bs : List Byte) : List Nat → Try
  | [] => .done s
  | k :: ks =>
    match s.devWrite id win va off k (word (leNat (bs.take k))) with
    | .blocked s => .blocked s
    | .done s => State.devParts s id win (va + word k) (off + k) (bs.drop k) ks

/-- The aligned 16 bytes at an address are logged by an engine word, once (spec/14 R327). -/
def State.logUnit (s : State) (id : CoreId) (win : Option Nat) (seq : Nat) (atom : Bool) (word : Option Nat) (slot pa : Nat) : State :=
  if s.unitLogged id word slot pa then s else s.logMade id win seq (.hbm slot (pa / 16 * 16)) 16 atom .access word

/-- Write HBM part by part, with one 16-byte entry for the aligned 16 bytes that hold each part. -/
def State.hbmParts (s : State) (id : CoreId) (win : Option Nat) (seq : Nat) (atom : Bool) (word : Option Nat) (slot pa : Nat)
    (bs : List Byte) : List Nat → State
  | [] => s
  | k :: ks =>
    let s := s.logUnit id win seq atom word slot pa
    State.hbmParts (s.hbmWrite slot pa (bs.take k) (some id)) id win seq atom word slot (pa + k) (bs.drop k) ks

/-- The parts of a range of device memory whose aligned 16 bytes an engine word has still to log. -/
def State.unitsLeft (s : State) (id : CoreId) (word : Option Nat) (slot : Nat) : Nat → List Nat → Nat
  | _, [] => 0
  | pa, k :: ks => (if s.unitLogged id word slot pa then 0 else 1) + State.unitsLeft s id word slot (pa + k) ks

/-- What an engine's write is of: the window and store number of its push, whether it is a sum, its transfer with the bytes of it
that are still to be written, and the lines its word has begun under earlier keys. -/
structure WriteOf where
  win   : Option Nat
  seq   : Nat
  atom  : Bool
  tr    : Transfer
  whole : Nat
  was   : List KeyWas

/-- The engine word that a write is of. -/
def WriteOf.uid (o : WriteOf) : Option Nat := match o.tr with
  | .run u _ => some u
  | _ => none

/-- What a copy word has written stands as that word's, which has released nothing yet (spec/10 R250). -/
def State.markRun (s : State) (id : CoreId) (o : WriteOf) (p : Place) (n : Nat) : State :=
  match o.tr with
  | .run u _ => s.mark ⟨p, n, id, some u, [], false⟩
  | _ => s

/-- Write at a place. Scratchpad extents were logged before the first byte; HBM is logged here, one entry per aligned 16 bytes
(R100); host-bound bytes are held or sent (spec/14 R334). -/
def State.engWriteAt (s : State) (id : CoreId) (o : WriteOf) (p : Place) (bs : List Byte) (shown : Word) : Acc :=
  let n := bs.length
  match s.engTouch id p n with
  | .blocked s => .wait s
  | .done s =>
    let fin (t : Try) : Acc := match t with
      | .blocked s => .wait s
      | .done s => .ok (s.markRun id o p n) []
    match p with
    | .scratch l a =>
      if s.placeRefusal id.asid p n ≠ 0 then .refused s (s.placeRefusal id.asid p n) shown
      else if s.poisonLeft id p n then .refused s 0x0B shown
      else
        let t : CoreId := ⟨id.asid, l⟩
        let before := (s.core t).stale
        let olds := [(false, a, (s.core t).scratch.readBytes a n)]
        .ok (((s.writeScratch id.asid l a bs).noteStale t before olds o.atom).markRun id o p n) []
    | .hbm sl pa =>
      let k := s.keysAt o.was sl pa
      let code := k.hbmWriteRefusal sl pa n
      if code ≠ 0 then .refused s code shown
      else
        let ks := cuts 16 pa n (n + 1)
        match (if (s.core id).holds o.win then s.room id (s.stagedAt p) (s.unitsLeft id o.uid sl pa ks) ⟨0, o.seq, some p, 0⟩ true else .done s) with
        | .blocked s => .wait s
        | .done s => .ok (State.markRun { (s.keysAt o.was sl pa).hbmParts id o.win o.seq o.atom o.uid sl pa bs ks with keys := s.keys } id o p n) []
    | .hostBulk a => if o.atom then .refused s 0x07 shown else fin (s.hostWrite id o.win o.tr ⟨shown, a, bs⟩ o.whole)
    | .hostCoh a => if o.atom then .refused s 0x07 shown else fin (s.hostWrite id o.win o.tr ⟨shown, a, bs⟩ o.whole)
    | .dev off =>
      let ks := cuts 8 off n (n + 1)
      if o.atom then .refused s 0x07 shown
      else if (s.core id).holds o.win
          && decide ((((s.die (s.dieOf id)).egress.map HeldItem.size).sum) + 32 * ks.length > holdCap) then .wait s
      else fin (s.devParts id o.win shown off bs ks)
    | .reg _ => .refused s 0x0A shown

/-- Where global ranges are cut: at 4 KiB, so that each part lies in one page and one stack; at lines of 64 bytes where a word has
begun some under earlier keys. -/
def partSize (was : List KeyWas) : Nat := if was.isEmpty then 4096 else 64

/-- A range as an engine reads it, global ranges in parts. -/
def State.engRead (s : State) (id : CoreId) (rt : Bool) (c : CopyAddr) (n : Nat) (was : List KeyWas) : Acc :=
  if c.space = 0 then go s c (cuts (partSize was) c.a n (n + 1)) []
  else one s c n
where
  one (s : State) (c : CopyAddr) (n : Nat) : Acc :=
    match s.engWalk id rt c with
    | (s, true) => .refused s 0x0B c.shown
    | (s, false) => match s.engResolve id rt c n .load with
      | .error code => .refused s code c.shown
      | .ok p => s.engReadAt id p n c.shown was
  go (s : State) (c : CopyAddr) : List Nat → List Byte → Acc
    | [], bs => .ok s bs
    | k :: ks, bs =>
      match one s c k with
      | .ok s b => go s { c with a := c.a + k } ks (bs ++ b)
      | r => r

/-- Every part of a range can be written: the codes of the parts in order, 0 when none is refused. -/
def State.engCheck (s : State) (id : CoreId) (rt : Bool) (c : CopyAddr) : List Nat → Option (Nat × Word)
  | [] => none
  | k :: ks =>
    match s.engResolve id rt c k .store with
    | .error code => some (code, c.shown)
    | .ok _ => s.engCheck id rt { c with a := c.a + k } ks

/-- Write a range, a global one in parts. -/
def State.engWrite (s : State) (id : CoreId) (rt : Bool) (o : WriteOf) (c : CopyAddr) (bs : List Byte) : Acc :=
  let n := bs.length
  if c.space = 0 then go s o c bs (cuts (partSize o.was) c.a n (n + 1))
  else one s o c bs
where
  one (s : State) (o : WriteOf) (c : CopyAddr) (bs : List Byte) : Acc :=
    match s.engWalk id rt c with
    | (s, true) => .refused s 0x0B c.shown
    | (s, false) => match s.engResolve id rt c bs.length .store with
      | .error code => .refused s code c.shown
      | .ok p => s.engWriteAt id o p bs c.shown
  go (s : State) (o : WriteOf) (c : CopyAddr) (bs : List Byte) : List Nat → Acc
    | [] => .ok s []
    | k :: ks =>
      match one s o c (bs.take k) with
      | .ok s _ => go s { o with whole := o.whole - k } { c with a := c.a + k } (bs.drop k) ks
      | r => r

/-! ### Pieces (R93, R96, R98) -/

/-- The rows of a shaped, gathered or scattered word: source and destination offsets. -/
def shapedRows (op : Nat) (r : ShapeRec) (idx : List Nat) : List (Nat × Nat) :=
  if op = 0x03 then idx.mapIdx (fun j i => (i * r.s 1, j * r.d 1))
  else if op = 0x04 then idx.mapIdx (fun j i => (j * r.s 1, i * r.d 1))
  else r.walk

/-- Run number `i` of a word, of which nothing is done yet. -/
def Piece.run (sspace sa dspace da dl n i : Nat) : Piece := ⟨sspace, sa, dspace, da, dl, n, [], [], i, false, false, []⟩

/-- `pieces(w)` for a word whose shape record is `r`, index list `idx`, and, for `bcs`, destination cores `mem`. -/
def copyPieces (f : CpF) (r : ShapeRec) (idx mem : List Nat) : List Piece :=
  let op := wordOp f.w
  let runs : List (Nat × Nat × Nat) :=
    if f.shen then (shapedRows op r idx).map (fun p => (f.src + p.1, f.dst + p.2, r.rb))
    else [(f.src, f.dst, f.len)]
  if op = 0x06 then mem.flatMap (fun l => runs.mapIdx (fun i p => Piece.run f.sspace p.1 3 p.2.1 l p.2.2 i))
  else runs.mapIdx (fun i p => Piece.run f.sspace p.1 f.dspace p.2.1 0 p.2.2 i)

/-- Insert a range of one core's scratchpad into a list by core and address, joining what touches. -/
def addExtent (l a n : Nat) : List (Nat × Nat × Nat) → List (Nat × Nat × Nat)
  | [] => [(l, a, n)]
  | (k, b, m) :: es =>
    if l = k ∧ a ≤ b + m ∧ b ≤ a + n then addExtent l (min a b) (max (a + n) (b + m) - min a b) es
    else if k < l ∨ (k = l ∧ b < a) then (k, b, m) :: addExtent l a n es
    else (l, a, n) :: (k, b, m) :: es

/-- Destination extents of a word in scratchpads (R100). -/
def State.extents (s : State) (id : CoreId) (rt : Bool) (ps : List Piece) : List (Nat × Nat × Nat) :=
  ps.foldl (fun es p =>
    if p.dspace = 0 then es
    else match s.engResolve id rt ⟨p.dspace, p.dl, p.da⟩ p.n .store with
      | .ok (.scratch l a) => addExtent l a p.n es
      | _ => es) []

/-! ### Running a piece -/

/-- Add element by element (R94). -/
def rdxAdd (t a b : Nat) : Nat :=
  match t with
  | 0xA => fpAddQuiet Fmt.f32 a b
  | 0xB => fpAddQuiet Fmt.bf16 a b
  | 0xC => fpAddQuiet Fmt.f16 a b
  | _ => (a + b) % 256 ^ rdxBytes t

def elementwiseAdd (t : Nat) (old new : List Byte) : List Byte :=
  let c := 8 * rdxBytes t
  pack c (((unpack c old).zip (unpack c new)).map (fun p => rdxAdd t p.1 p.2))

/-- Bytes of `fil` from destination offset `o` (R93). -/
def fillBytes (pat o n : Nat) : List Byte := (List.range n).map (fun i => BitVec.ofNat 8 (pat / 256 ^ ((o + i) % 8)))

/-- Change a flight. -/
def State.modFlight (s : State) (id : CoreId) (uid : Nat) (f : Flight → Flight) : State :=
  s.modCore id (fun c => { c with flights := c.flights.map (fun g => if g.uid = uid then f g else g) })

/-- A refused copy word (R90): it has nothing left to do and will not signal; its push issues no further word; the trap is
held pending. An `xch` whose block the refusal ends will not signal either (R95). The slot reported is that of the word in the
push: for a word of an exchange block, that of its `xch` (notes/assumptions/53.md). -/
def State.refuseCopy (s : State) (id : CoreId) (f : Flight) (code : Nat) (addr : Word) : State :=
  let stop (g : Flight) : Flight := { g with faulted := true, pieces := [], logs := [], sig := none }
  let ends (s : State) (u : Option Nat) : State := match u with
    | some u => s.modFlight id u (fun g => { g with faulted := true, sig := none })
    | none => s
  let block := ((s.core id).eqc.pushes.find? (fun p => f.ofPush f.q p)).bind (fun p => p.xrun.map XRun.uid)
  let s := ends (ends (s.modFlight id f.uid stop) f.xparent) block
  let s := s.modCore id (fun c => c.setQueue f.q { c.queue f.q with
    pushes := (c.queue f.q).pushes.map (fun p =>
      if f.ofPush f.q p then { p with pos := none, xrun := none, missed := true, decided := none } else p) })
  s.pendTrap id ⟨0x22, addr, word (f.rq % 65536 + f.slot % 256 * 2 ^ 16 + code * 2 ^ 24), 0⟩

/-- Level of the push that a flight came from. -/
def CoreSt.flightLevel (c : CoreSt) (f : Flight) : Bool :=
  (((c.queue f.q).pushes.find? (fun p => f.ofPush f.q p)).map Push.runtime).getD false

/-- Bytes of the scratchpad of a logical core in the forms that watchpoints of core `id` compare: own scratchpad, and die window where
the core is of the same die (spec/21 R403). -/
def State.scratchTouch (s : State) (id : CoreId) (write : Bool) (l a n : Nat) : Touches :=
  let x := s.ctx id.asid
  (if l = id.l then [(write, word (0xFFFFFFFFFFF00000 + a), n)]
   else if x.dieOf l = x.dieOf id.l then [(write, word (localBase + x.pcn l % 256 * 2 ^ 20 + a), n)]
   else [])

/-- An engine's access in the form that watchpoints compare (spec/21 R403). -/
def State.copyTouch (s : State) (id : CoreId) (write : Bool) (c : CopyAddr) (n : Nat) : Touches :=
  match c.space with
  | 0 => [(write, sext54 (c.a % 2 ^ 54), n)]
  | 1 => [(write, word (0xFFFFFFFFFFF00000 + c.a), n)]
  | 2 => [(write, word (localBase + c.a), n)]
  | _ => s.scratchTouch id write c.dl c.a n

/-- A row of the indexed side of `gth` or `sct` that leaves the scratchpad of its base address (R98, notes/assumptions/53.md). -/
def CpF.leavesCore (f : CpF) (p : Piece) : Bool :=
  (wordOp f.w == 0x03 && p.sspace == 2 && p.sa / 2 ^ 20 != f.src / 2 ^ 20)
    || (wordOp f.w == 0x04 && p.dspace == 2 && p.da / 2 ^ 20 != f.dst / 2 ^ 20)

/-- Offset `o` of a range of `n` bytes at `a`, moved down, or up, to the edge of an aligned 16-byte unit that lies whole in the range:
such a unit is read and written at once, the bytes of others one by one (R88). -/
def unitDown (a n o : Nat) : Nat :=
  let u := (a + o) / 16 * 16
  if a ≤ u ∧ u + 16 ≤ a + n then u - a else o

def unitUp (a n o : Nat) : Nat :=
  let u := (a + o) / 16 * 16
  if (a + o) % 16 ≠ 0 ∧ a ≤ u ∧ u + 16 ≤ a + n then u + 16 - a else o

/-- The part of a piece that a step at its byte `o` takes: at least `m` bytes if it has them, whole units of its destination and whole
elements of `g` bytes (R94), no more than a page of it where that leaves any. -/
def Piece.span (p : Piece) (g o m : Nat) : Nat × Nat :=
  let down (x : Nat) : Nat := unitDown p.da p.n x / g * g
  let up (x : Nat) : Nat := min p.n ((unitUp p.da p.n (min p.n x) + g - 1) / g * g)
  let o := down (min o (p.n - 1))
  let far := o + (if p.dspace = 0 then 4096 - (p.da + o) % 4096 else 4096)
  let e := up (o + max m 1)
  (o, if e ≤ far then e else if down far ≤ o then up (o + 1) else down far)

/-- Bytes that a copy word writes at least at once: an element of `rdx`. -/
def CpF.grain (f : CpF) : Nat := if wordOp f.w = 0x05 then max 1 (rdxBytes f.sub) else 1

/-- The bytes of a piece from `o` up to `e` that are still to be read, as whole units of its source. -/
def Piece.unread (p : Piece) (o e : Nat) : Nat × Nat :=
  let h := p.ahead.length
  let g := p.n - p.behind.length
  let lo := min g (max h (unitDown p.sa p.n o))
  (lo, max lo (min g (unitUp p.sa p.n e)))

/-- A piece cut into what lies before `o`, the part up to `e`, and what follows, when `bs` has been read from `lo` on. -/
def Piece.cut (p : Piece) (o e lo : Nat) (bs : List Byte) : List Piece × Piece × List Piece :=
  let g := p.n - p.behind.length
  let pre : Piece := { p with
    n := o, ahead := p.ahead.take o, behind := bs.take (o - lo) ++ p.behind.take (o - g), cr := true, snap := p.snap.take o }
  let mid : Piece := { p with
    sa := p.sa + o, da := p.da + o, n := e - o, behind := []
    ahead := (p.ahead.drop o).take (e - o) ++ (bs.drop (o - lo)).take (e - max o lo) ++ (p.behind.drop (o - g)).take (e - max o g)
    cl := p.cl || o != 0, cr := p.cr || e != p.n, snap := (p.snap.drop o).take (e - o) }
  let post : Piece := { p with
    sa := p.sa + e, da := p.da + e, n := p.n - e, ahead := p.ahead.drop e ++ bs.drop (e - lo), behind := p.behind.drop (e - g)
    cl := true, snap := p.snap.drop e }
  (if o = 0 then [] else [pre], mid, if e = p.n then [] else [post])

/-- The bytes of piece `k` of a flight around `m` bytes at its byte `o` are read, and stand as a piece of their own, whose place among
the pieces is the second part. A `fil` reads none. -/
def State.fetchPiece (s : State) (id : CoreId) (f : Flight) (k o m : Nat) : Acc × Nat :=
  let w : CpF := ⟨f.word⟩
  let rt := (s.core id).flightLevel f
  match f.pieces[k]? with
  | none => (.ok s [], k)
  | some p =>
    let (o, e) := p.span w.grain o m
    let (lo, hi) := p.unread o e
    let put (s : State) (bs : List Byte) : Acc × Nat :=
      let (pre, mid, post) := p.cut o e lo bs
      (.ok (s.modFlight id f.uid (fun g => { g with pieces := g.pieces.take k ++ pre ++ mid :: post ++ g.pieces.drop (k + 1) })) [],
        k + pre.length)
    if w.leavesCore p then (.refused s 0x0A (if f.op = 0x03 then word p.sa else word p.da), k)
    -- a range of a scratchpad that leaves it is refused whole
    else match (if p.dspace = 0 then none else s.engCheck id rt ⟨p.dspace, p.dl, p.da⟩ [p.n]) with
    | some (code, a) => (.refused s code a, k)
    | none =>
      if f.op = 0x07 || lo = hi then put s []
      else
        let kept := (p.snap.drop lo).take (hi - lo)
        let src : CopyAddr := ⟨p.sspace, 0, p.sa + lo⟩
        let read : Acc := if kept.length = hi - lo && kept.all Option.isSome then .ok s (kept.filterMap (fun b => b))
          else s.engRead id rt src (hi - lo) f.keyWas
        match read with
        | .ok s bs =>
          let bs := bs.mapIdx (fun i b => (kept.getD i none).getD b)
          put ((s.askCopy id f.eng src (hi - lo)).engineWatch id (s.copyTouch id false src (hi - lo))) bs
        | r => (r, k)

/-- Bytes of the transfer of a piece that are still to be written. -/
def Flight.toWrite (f : Flight) (p : Piece) : Nat := ((f.pieces.filter (fun q => q.tr == p.tr && q.dl == p.dl)).map Piece.n).sum

/-- Piece `k` of a flight, whose bytes have all been read, is written. -/
def State.writePiece (s : State) (id : CoreId) (f : Flight) (k : Nat) : Acc :=
  let w : CpF := ⟨f.word⟩
  let rt := (s.core id).flightLevel f
  match f.pieces[k]? with
  | none => .ok s []
  | some p =>
    let dst : CopyAddr := ⟨p.dspace, p.dl, p.da⟩
    let bs := if f.op = 0x07 then fillBytes w.pat (p.da - w.dst) p.n else p.ahead
    let summed : Acc := if f.op = 0x05 then
        match s.engRead id rt dst p.n f.keyWas with
        | .ok s old => .ok (s.askCopy id f.eng dst p.n) (elementwiseAdd w.sub old bs)
        | r => r
      else .ok s bs
    match summed with
    | .wait s => .wait s
    | .refused s c a => .refused s c a
    | .ok s bs =>
      match s.engWrite id rt ⟨f.win, f.seq, f.op == 0x05, .run f.uid p.tr, f.toWrite p, f.keyWas⟩ dst bs with
      | .ok s _ =>
        let s := (s.askCopy id f.eng dst p.n).engineWatch id ((if f.op = 0x05 then s.copyTouch id false dst p.n else []) ++ s.copyTouch id true dst p.n)
        .ok (s.modFlight id f.uid (fun g => { g with pieces := g.pieces.eraseIdx k, done := g.done + p.n })) []
      | r => r

/-- Log the extents of a flight that are left, one after another, each by a block entry (R100, R101): a full log stalls the
engine. -/
def State.logFlight (s : State) (id : CoreId) (f : Flight) : List (Nat × Nat × Nat) → Try
  | [] => .done s
  | e :: es =>
    match s.logWrite id f.win f.seq (.scratch e.1 e.2.1) e.2.2 (f.op == 0x05) .block true with
    | .blocked s => .blocked s
    | .done s => State.logFlight (s.modFlight id f.uid (fun g => { g with logs := es })) id f es

/-- What an access of a flight leaves: a refusal ends the word (R90). -/
def State.copyAcc (id : CoreId) (f : Flight) (r : Acc) : Try :=
  match r with
  | .ok s _ => .done s
  | .wait s => .blocked s
  | .refused s code a => .done (s.refuseCopy id f code a)

/-- `m` bytes at byte `o` of piece `k` of a flight are read. -/
def State.copyReadStep (s : State) (id : CoreId) (f : Flight) (k o m : Nat) : Try := State.copyAcc id f (s.fetchPiece id f k o m).1

/-- `m` bytes at byte `o` of piece `k` of a flight are read and written, once its extents are logged. -/
def State.copyStep (s : State) (id : CoreId) (f : Flight) (k o m : Nat) : Try :=
  match s.logFlight id f f.logs with
  | .blocked s => .blocked s
  | .done s =>
    match s.fetchPiece id f k o m with
    | (.ok s _, j) =>
      match (s.core id).flights.find? (fun g => g.uid == f.uid) with
      | some g => State.copyAcc id g (s.writePiece id g j)
      | none => .done s
    | (r, _) => State.copyAcc id f r

/-- What a copy piece has still to read of a scratchpad, as it stands: its bytes are noted now (spec/15 R365), but for units that an
error awaits. A piece that a refusal awaits is left, and one that has noted them before. -/
def State.frozen (s : State) (id : CoreId) (f : Flight) (p : Piece) : Piece :=
  if p.sspace = 0 ∨ f.op = 0x07 ∨ !p.snap.isEmpty then p
  else match s.engResolve id ((s.core id).flightLevel f) ⟨p.sspace, 0, p.sa⟩ p.n .load with
    | .error _ => p
    | .ok q =>
      let bad (i : Nat) : Bool := s.poisonAt id (q.shift i) 1 || !(s.damageAt id (q.shift i) 1).isEmpty
      let some_ := s.poisonAt id q p.n || !(s.damageAt id q p.n).isEmpty
      { p with snap := (s.placeBytes id q p.n).mapIdx (fun i b => if some_ && bad i then none else some b) }

/-- The copy words in flight of a context keep the bytes of its scratchpads that they have yet to read. -/
def State.freezeReads (s : State) (asid : Nat) : State :=
  { s with cores := s.cores.map (fun (c : CoreSt) =>
      if c.id.asid = asid then { c with flights := c.flights.map (fun f =>
        if f.q = .eqc then { f with pieces := f.pieces.map (s.frozen c.id f) } else f) } else c) }

/-- At the end of the step in which a halt line rises, the copy words of its context keep what they have yet to read. -/
def State.freezeNew (s : State) : State :=
  s.ctxs.foldl (fun s x => match x.halt with
    | some h => if h.frozen then s
        else (s.freezeReads x.asid).modCtx x.asid (fun y => { y with halt := some { h with frozen := true } })
    | none => s) s

/-- Global addresses at which a piece stands inside a 64-byte line that its word has begun: of its source, and of its destination. -/
def Piece.inLine (p : Piece) : List (Nat × Access) :=
  let mid (c : Bool) (a x : Nat) (acc : Access) : List (Nat × Access) := if c && x % 64 != 0 then [(a, acc)] else []
  (if p.sspace = 0 then
      mid (p.cl || !p.ahead.isEmpty) (p.sa + p.ahead.length) (p.sa + p.ahead.length) .load
        ++ mid (p.cr || !p.behind.isEmpty) (p.sa + p.n - p.behind.length - 1) (p.sa + p.n - p.behind.length) .load
    else [])
  ++ (if p.dspace = 0 then mid p.cl p.da p.da .store ++ mid p.cr (p.da + p.n - 1) (p.da + p.n) .store else [])

/-- A key slot is about to change: every copy word in flight keeps its present state for the lines it has begun (spec/03 R77). -/
def State.keepKeys (s : State) (slot : Nat) : State :=
  let begun (id : CoreId) (f : Flight) : List KeyWas :=
    (f.pieces.flatMap Piece.inLine).filterMap (fun p =>
      match s.engResolve id ((s.core id).flightLevel f) ⟨0, 0, p.1⟩ 1 p.2 with
      | .ok (.hbm sl pa) =>
        if sl = slot && !f.keyWas.any (fun k => k.slot == slot && k.line == pa / 64) then some ⟨slot, pa / 64, s.keySt slot⟩ else none
      | _ => none)
  { s with cores := s.cores.map (fun (c : CoreSt) => { c with flights := c.flights.map (fun f =>
      if f.q = .eqc then { f with keyWas := begun c.id f ++ f.keyWas } else f) }) }

/-- Do every piece of a flight, in order, as far as it goes. -/
def State.copyAll (s : State) (id : CoreId) (uid : Nat) : Nat → State
  | 0 => s
  | fuel + 1 =>
    match (s.core id).flights.find? (fun f => f.uid == uid) with
    | none => s
    | some f =>
      if f.pieces.isEmpty || f.suspended then s
      else match s.copyStep id f 0 0 4096 with
        | .blocked s => s
        | .done s => State.copyAll s id uid fuel

/-! ### Issue -/

/-- A word is in a copy engine (R78): an `xch` is not, its block's words are. -/
def Flight.inEngine (f : Flight) : Bool := f.q == .eqc && f.op != 0x08

/-- Bench of the package that a core is in. -/
def State.benchAt (s : State) (id : CoreId) : Nat := (s.ctx id.asid).benchOf id.l

/-- Words of a bench port in copy engines, of every context that has held the bench (R78, R80). -/
def State.portWords (s : State) (id : CoreId) : Nat :=
  ((s.cores.filter (fun c => s.benchAt c.id == s.benchAt id)).map (fun c => c.flights.countP Flight.inEngine)).sum

/-- Lowest of a die's sixteen copy engines that serves no word (R78). -/
def State.freeEngine (s : State) (d : Nat) : Option Nat :=
  let busy := (s.cores.filter (fun c => s.dieOf c.id == d)).flatMap (fun c => (c.flights.filter Flight.inEngine).map Flight.eng)
  (List.range 16).find? (fun e => !busy.contains e)

/-- The index list of `gth` and `sct`, read while the word runs (R98): its bytes in the scratchpad. -/
def indexRange (f : CpF) (r : ShapeRec) : Option (Nat × Nat) :=
  if wordOp f.w = 0x03 ∨ wordOp f.w = 0x04 then some (f.shp + 64, 4 * r.e 1) else none

/-- The scratchpad blocks of a word's index list are in (spec/15 R372). -/
def State.indexIn (s : State) (id : CoreId) (pw : PWord) : Bool :=
  (indexRange ⟨pw.word⟩ (ShapeRec.ofBytes pw.shape)).all (fun e => s.blocksIn id.asid (.scratch id.l e.1) e.2)

/-- A word waits for the blocks of its index list. -/
def State.indexWant (s : State) (id : CoreId) (pw : PWord) : State :=
  match indexRange ⟨pw.word⟩ (ShapeRec.ofBytes pw.shape) with
  | some e => s.want id.asid (.scratch id.l e.1) e.2
  | none => s

/-- The head of the core's `eqc` waits for nothing but an engine and its turn (R80). -/
def State.copyReady (s : State) (id : CoreId) : Bool :=
  let c := s.core id
  match c.headOf .eqc with
  | none => false
  | some h => s.engineOn id && s.pushIn id h.push && s.stallMet id .eqc h.pw.word && c.decision h == some true && c.waitMet .eqc h
      && decide (s.portWords id < 8) && s.indexIn id h.pw

/-- It is the core's turn: its port takes the four cores' queues in round-robin order (R80), and the die gives its engines to the
ports in round-robin order (R81). -/
def State.copyTurn (s : State) (id : CoreId) : Bool :=
  let d := s.dieOf id
  let b := s.benchAt id
  let last := (s.die d).portLast
  let core := (s.lease id).clast
  s.cores.all (fun c => s.dieOf c.id != d || !s.copyReady c.id ||
    (if s.benchAt c.id = b then !decide (turnOf core (c.id.l % 4) < turnOf core (id.l % 4))
     else !decide ((s.benchAt c.id % 36 + 71 - last) % 36 < (b % 36 + 71 - last) % 36)))

/-- Read an index list: what it holds, or why it cannot be read. -/
def State.indexList (s : State) (id : CoreId) (f : CpF) (r : ShapeRec) : State × Except Nat (List Nat) :=
  match indexRange f r with
  | none => (s, .ok [])
  | some (a, n) =>
    let p := Place.scratch id.l a
    if a + n > (s.ctx id.asid).par.fp then (s, .error 0x0A)
    else
      let s := s.askPlace id.asid 3 (16 + id.l) 0 p n
      match s.consume id (s.damageAt id p n) with
      | (s, true) => (s, .error 0x0B)
      | (s, false) =>
        if s.poisonAt id p n then (s, .error 0x0B)
        else (s, .ok ((List.range (r.e 1)).map (fun j => (s.core id).scratch.readNat (a + 4 * j) 4)))

/-- The head word of `eqc` issues into engine `eng`: its flight with all its pieces and the scratchpad extents it has yet to log.
The words of an exchange block have loop counters of their own, 0 when the block begins (R44, R95, notes/assumptions/60.md). -/
def State.launchCopy (s : State) (id : CoreId) (h : Head) (eng : Nat) : State :=
  let w : CpF := ⟨h.pw.word⟩
  let isX := wordOp h.pw.word = 0x08
  let r := ShapeRec.ofBytes h.pw.shape
  let (s, idx) := s.indexList id w r
  let ps := if isX then [] else match idx with
    | .ok is => copyPieces w r is ((s.ctx id.asid).members w.grp)
    | .error _ => []
  let c := s.core id
  let block := isX && !h.pw.block.isEmpty
  let f : Flight := { Flight.of c .eqc h with
    occEnd := s.cycle, retireAt := s.cycle, scope := w.scope, pieces := ps, logs := s.extents id h.push.runtime ps, xpend := block, eng }
  let s := s.modHead id .eqc (fun p =>
    if block then { p with xrun := some ⟨c.issueNo, some 0, List.replicate 8 0, false⟩, decided := none }
    else p.step h.pw.word)
  let s := s.modCore id (fun c => { (c.setQueue .eqc { c.eqc with lastEnd := s.cycle }) with
    issueNo := c.issueNo + 1, flights := c.flights ++ [f] })
  let s := (s.modLease id (fun l => { l with clast := id.l % 4 })).modDie (s.dieOf id) (fun d =>
    { d with portLast := if isX then d.portLast else s.benchAt id % 36 })
  match idx with
  | .ok _ => s.engineWatch id (((indexRange w r).map (fun a => (false, word (0xFFFFFFFFFFF00000 + a.1), a.2))).toList)
  | .error code => s.refuseCopy id f code (word (w.shp + 64))

/-- Engine for the head word of a core's `eqc`: an `xch` takes none. -/
def State.engineFor (s : State) (id : CoreId) (w : CmdWord) : Option Nat :=
  if wordOp w = 0x08 then some 0 else s.freeEngine (s.dieOf id)

/-- Issue the head word of a core's `eqc` if `want` accepts it, the conditions of R80 hold, an engine is free and it is its
turn; the second part is its issue number. -/
def State.issueCopy (s : State) (id : CoreId) (want : CmdWord → Bool) : State × Option Nat :=
  let s := s.decideHeads id
  match (s.core id).headOf .eqc with
  | none => (s, none)
  | some h =>
    match s.engineFor id h.pw.word with
    | none => (s, none)
    | some eng =>
      if !s.indexIn id h.pw then (s.indexWant id h.pw, none)
      else if !want h.pw.word || !s.copyReady id || !s.copyTurn id then (s, none)
      else (s.launchCopy id h eng, some (s.core id).issueNo)

/-- Steps that are enough to do every piece of a flight. -/
def State.copyFuel (s : State) (id : CoreId) (uid : Nat) : Nat :=
  let f := (s.core id).flights.find? (fun f => f.uid == uid)
  (((f.map Flight.pieces).getD []).map (fun p => p.n / 2048 + 2)).sum + 1

/-- A copy word at the head of `eqc` of the current core: it issues and its pieces run. -/
def runCopy (i : Instr) (s : State) : Host.Outcome State Fault Refusal :=
  match encodeWord i with
  | none => .next s
  | some w =>
    match s.issueCopy s.cur (fun v => v == w) with
    | (s, none) => .next s
    | (s, some uid) => .next (s.copyAll s.cur uid (s.copyFuel s.cur uid))

def execCpy (h : Header) (w : CopyBody) (s : State) : Host.Outcome State Fault Refusal := runCopy (.cpy h w) s
def execCps (h : Header) (w : CopyBody) (s : State) : Host.Outcome State Fault Refusal := runCopy (.cps h w) s
def execGth (h : Header) (w : CopyBody) (s : State) : Host.Outcome State Fault Refusal := runCopy (.gth h w) s
def execSct (h : Header) (w : CopyBody) (s : State) : Host.Outcome State Fault Refusal := runCopy (.sct h w) s
def execRdx (h : Header) (w : CopyBody) (s : State) : Host.Outcome State Fault Refusal := runCopy (.rdx h w) s
def execBcs (h : Header) (w : CopyBody) (s : State) : Host.Outcome State Fault Refusal := runCopy (.bcs h w) s
def execFil (h : Header) (w : CopyBody) (s : State) : Host.Outcome State Fault Refusal := runCopy (.fil h w) s
def execXch (h : Header) (w : CopyBody) (s : State) : Host.Outcome State Fault Refusal := runCopy (.xch h w) s

/-! ### Retirement (R87, R95) -/

/-- A copy word has done everything: its pieces, and for an `xch` its block. -/
def CoreSt.copyDone (c : CoreSt) (f : Flight) : Bool :=
  f.pieces.isEmpty && (!f.xpend || (!c.flights.any (fun g => g.xparent == some f.uid) &&
    !c.eqc.pushes.any (fun p => (p.xrun.map XRun.uid) == some f.uid)))

/-- Copy word `i` in flight retires. -/
def execCopyWordRetire (id : CoreId) (i : Nat) (s : State) : Host.Outcome State Fault Refusal :=
  let c := s.core id
  match (c.flights.filter (fun f => f.q == .eqc))[i]? with
  | none => .next s
  | some f => if s.hasCore id && c.copyDone f then .next (s.retireFlight id f).state else .next s

/-! ### PROMISE_MISSED (R85) -/

/-- The promise of a push has passed while the push is not complete: at most once per push. The revised promise is at least
the tick after the miss. -/
def execPromiseMissed (id : CoreId) (rseq : BitVec 16) (revised : Word) (s : State) : Host.Outcome State Fault Refusal :=
  let tick := s.pcc (s.dieOf id)
  let c := s.core id
  match c.eqc.pushes.find? (fun p => p.rq == rseq.toNat && !p.missed && p.promise != 0 && p.promise != BitVec.allOnes 64
      && decide (p.promise.toNat < tick)) with
  | none => .next s
  | some p =>
    if !s.hasCore id || decide (revised.toNat < tick + 1) then .next s
    else
      let s := s.modCore id (fun c => c.setQueue .eqc { c.eqc with
        pushes := c.eqc.pushes.map (fun r => if r.seq = p.seq then { r with missed := true } else r) })
      .next (s.pendTrap id ⟨0x21, word p.rq, p.promise, revised⟩)

end Sys2Proof.Machine
end

