-- ==== Sys2Proof/Machine/Population.lean ====
section
/-! DEFINITION. The population manager (spec/13 R307 to R321). -/

namespace Sys2Proof.Machine

/-! ### Ranking (R311) -/

/-- A member of a ranking: logical core, fitness bits, generation. -/
structure Ranked where
  l   : Nat
  fit : Nat
  gen : BitVec 32
deriving DecidableEq, Repr

def Ranked.value (r : Ranked) : XR := decodeFloat Fmt.f32 r.fit

/-- `a` ranks before `b`. -/
def Ranked.before (a b : Ranked) : Bool :=
  if a.value.isNaN then b.value.isNaN && decide (a.l < b.l)
  else b.value.isNaN || XR.lt b.value a.value || (XR.eq a.value b.value && decide (a.l < b.l))

def insertRanked (r : Ranked) : List Ranked → List Ranked
  | [] => [r]
  | x :: xs => if r.before x then r :: x :: xs else x :: insertRanked r xs

/-- Values of `fitness` that a reader may see: the present one, and those before writes whose release has not reached it, back to
the newest write that has (R312). A reader is the pushing core and the store number of its push: what it acquired later need not
be seen. -/
def CoreSt.fitValues (c : CoreSt) (reader : Option (Nat × Nat)) : List Word :=
  let reached (f : FitOld) : Bool := match reader with
    | some (l, seq) => f.seen.any (fun p => p.1 == l && decide (p.2 ≤ seq))
    | none => c.rels.any (fun r => wide r.sc && decide (f.num ≤ r.fits))
  c.csr.fitness :: (c.fits.takeWhile (fun f => !reached f)).map FitOld.old

/-- The fitness that the population manager reads of a member; which of several values is left open. -/
def State.readFit (s : State) (reader : Option (Nat × Nat)) (id : CoreId) : State × Nat :=
  match (s.core id).fitValues reader with
  | [v] => (s, v.toNat % 2 ^ 32)
  | vs => (s.bump, (vs.getD (Config.freeIndex s.fresh % vs.length) 0).toNat % 2 ^ 32)

/-- The members of a group with what is read of each. -/
def State.readMembers (s : State) (asid : Nat) (reader : Option (Nat × Nat)) : List Nat → State × List Ranked
  | [] => (s, [])
  | l :: ls =>
    let (s, v) := s.readFit reader ⟨asid, l⟩
    let (s, rs) := State.readMembers s asid reader ls
    (s, ⟨l, v, (s.core ⟨asid, l⟩).genNum⟩ :: rs)

/-- The ranking of a group of a context as a core's word reads it, or an arriving migrant; rank 0 first. -/
def State.ranking (s : State) (asid g : Nat) (reader : Option (Nat × Nat)) : State × List Ranked :=
  let (s, rs) := s.readMembers asid reader ((s.ctx asid).members g)
  (s, rs.foldl (fun acc r => insertRanked r acc) [])

def nanCount (R : List Ranked) : Nat := R.countP (fun r => r.value.isNaN)

/-! ### What a population word comes to -/

/-- Done, with its result element, lineage records, counts, destination bytes and what it sends; waiting; a fault of R320; refused
at an address (spec/15 R366). -/
inductive PopRes where
  | done (s : State) (result : Word) (lineage : List (List Byte)) (evs : Evs) (bytes : Nat) (send : Option (Nat × Packet))
  | wait (s : State)
  | fault (s : State) (reason refusal : Nat)
  | refused (s : State) (code a : Nat)

/-- The bytes that a population word is to write in the scratchpad of a logical core: present, or the word waits or is refused. -/
def State.popReach (s : State) (id : CoreId) (l a n : Nat) : Acc :=
  let pl : Place := .scratch l a
  if !s.blocksIn id.asid pl n then .wait (s.want id.asid pl n) else
  let s := s.touch id.asid ((s.ctx id.asid).dieOf l)
  if s.placeRefusal id.asid pl n != 0 then .refused s (s.placeRefusal id.asid pl n) (word a)
  else if s.poisonLeft id pl n then .refused s 0x0B (word a)
  else .ok s []

/-- An engine write into bytes that `State.popReach` found, one block entry for its extent (R313, R314), for which the word has asked
room. -/
def State.popPut (s : State) (id : CoreId) (p : Push) (l a : Nat) (bs : List Byte) : State :=
  let s := s.logMade id p.win p.seq (.scratch l a) bs.length false .block
  let t : CoreId := ⟨id.asid, l⟩
  let before := (s.core t).stale
  let olds := [(false, a, (s.core t).scratch.readBytes a bs.length)]
  ((s.writeScratch id.asid l a bs).noteStale t before olds false).engineWatch id (s.scratchTouch id true l a bs.length)

def State.popWrite (s : State) (id : CoreId) (p : Push) (l a : Nat) (bs : List Byte) : Acc :=
  match s.popReach id l a bs.length with
  | .ok s _ => .ok (s.popPut id p l a bs) []
  | o => o

/-- Room for the log entries of all of a word's writes: `near` made at the core, `far` at memory controllers. -/
def State.popRoom (s : State) (id : CoreId) (p : Push) (near far : Nat) : Try :=
  if (s.core id).holds p.win then s.roomIf id (s.logTakes id none near) (near + far) ⟨0, p.seq, none, 0⟩ true else .done s

/-- Scratchpad bytes as the population manager reads them. -/
def State.popRead (s : State) (id : CoreId) (l a n : Nat) : Acc :=
  let p : Place := .scratch l a
  if !s.blocksIn id.asid p n then .wait (s.want id.asid p n) else
  let s := s.touch id.asid ((s.ctx id.asid).dieOf l)
  if s.placeRefusal id.asid p n != 0 then .refused s (s.placeRefusal id.asid p n) (word a)
  else match s.consume id (s.damageAt id p n) with
  | (s, true) => .refused s 0x0B (word a)
  | (s, false) =>
    if s.poisonAt id p n then .refused s 0x0B (word a)
    else .ok (s.engineWatch id (s.scratchTouch id false l a n)) (s.placeBytes id p n)

/-! ### Lineage (R315, R316) -/

def lineageRec (kind child : Nat) (ss : BitVec 32) (sigma parent : Nat) (seed : Nat) (gen : BitVec 32) (pfit : Nat) : List Byte :=
  leBytes 8 (kind * 2 ^ 56 + child % 2 ^ 24 * 2 ^ 32 + ss.toNat) ++ leBytes 8 (sigma * 2 ^ 32 + parent % 2 ^ 24)
    ++ leBytes 8 seed ++ leBytes 8 (gen.toNat * 2 ^ 32 + pfit)

/-- Records that the lineage buffer of a context can still take, those of words in flight counted. -/
def State.lineageFree (s : State) (asid : Nat) : Nat :=
  1024 - ((s.ctx asid).lineage.length
    + ((s.cores.filter (fun c => c.id.asid == asid)).map (fun c => (c.flights.map (fun f => f.lineage.length)).sum)).sum
    + (((s.ctx asid).held.map (fun h => h.flight.lineage.length)).sum))

/-! ### Weights (R314) -/

def weightFmt (wt : Nat) (img : Word) : Fmt :=
  match wt with
  | 0xA => Fmt.f32
  | 0xB => Fmt.bf16
  | 0xC => Fmt.f16
  | _ => Fmt.ofReg img

/-- sigma times noise. -/
def noiseTerm (sigma : XR) (noise : Int) : XR :=
  match sigma with
  | .num s n d => .num (s != decide (noise < 0)) (n * noise.natAbs) (d * 65536)
  | x => x

/-- A weight with its noise; a term of zero leaves a weight's zero its sign. -/
def perturbOne (F : Fmt) (sigma : XR) (seed stream : Word) (e v : Nat) : Nat × Evs :=
  let t := noiseTerm sigma (noiseQ16 seed stream (word e))
  let x := decodeFloat F (v % 2 ^ F.width)
  roundTo F (if xrIsZero t then x else XR.add x t) .rne 0

/-- The weights of a child: bytes and counts. -/
def perturb (wt : Nat) (img : Word) (sigma : Nat) (seed stream : Word) (bs : List Byte) (cnt : Nat) : List Byte × Evs :=
  let c := typeBits wt
  let F := weightFmt wt img
  let rs := ((unpack c bs).take cnt).mapIdx (fun e v => perturbOne F (decodeFloat Fmt.f32 sigma) seed stream e v)
  (pack c (rs.map Prod.fst), rs.flatMap Prod.snd)

/-! ### `prank` (R313) -/

def rankTable (ss : BitVec 32) (g : Nat) (R : List Ranked) : List Byte :=
  leBytes 8 (ss.toNat * 2 ^ 32 + nanCount R * 2 ^ 16 + R.length) ++ leBytes 8 g
    ++ R.flatMap (fun r => leBytes 8 (r.fit * 2 ^ 32 + r.l) ++ leBytes 8 r.gen.toNat)

def popResult (op grp low : Nat) : Word := word (op * 2 ^ 56 + grp * 2 ^ 44 + low)

/-- The pusher is no member of a group that has members (R320 reason 0x01). -/
def notMember (R : List Ranked) (lcn : Nat) : Bool := !R.isEmpty && !R.any (fun r => r.l == lcn)

/-- `prank` (R311, R320). DESIGN CHOICE: of reasons 0x01 and 0x03 the first is shown (notes/assumptions/53.md). -/
def runPrank (s : State) (id : CoreId) (h : Head) : PopRes :=
  let f : PpF := ⟨h.pw.word⟩
  let x := s.ctx id.asid
  let (s, R) := s.ranking id.asid f.grp (some (id.l, h.push.seq))
  if notMember R h.push.lcn then .fault s 0x01 0
  else if f.addr + 16 + 16 * R.length > x.par.fp then .fault s 0x03 0
  else
    let leader := (R.map Ranked.l).foldl min ((R.head?.map Ranked.l).getD id.l)
    let table := rankTable x.sscnt f.grp R
    match s.popRoom id h.push (blockSlots table.length) 0 with
    | .blocked s => .wait s
    | .done s =>
    match s.popWrite id h.push leader f.addr table with
    | .wait s => .wait s
    | .refused s code a => .refused s code a.toNat
    | .ok s _ => .done s (popResult 0x01 f.grp (nanCount R * 2 ^ 16 + R.length)) [] [] (16 + 16 * R.length) none

/-! ### `pcull` (R314) -/

/-- A replacement that is ready: parent, child, the child's weights and the counts. -/
structure Replacement where
  par     : Ranked
  ch      : Ranked
  weights : List Byte
  evs     : Evs
deriving DecidableEq, Repr

/-- What the replacements of a word come to before any is written: all ready, or the word waits or is refused and writes nothing
(spec/00 R11). Winners and losers are disjoint, so no replacement reads what another writes. -/
inductive Replaced where
  | ok (s : State) (rs : List Replacement)
  | wait (s : State)
  | refused (s : State) (code a : Nat)

/-- One replacement: the parent's weights read and perturbed, the child's bytes reached. -/
def State.replacement (s : State) (id : CoreId) (h : Head) (par ch : Ranked) : Replaced :=
  let f : PpF := ⟨h.pw.word⟩
  match s.popRead id par.l f.addr f.bytes with
  | .wait s => .wait s
  | .refused s code a => .refused s code a.toNat
  | .ok s bs =>
    let r := perturb f.wt h.pw.fa f.sigma (word f.seed) (word ((s.ctx id.asid).sscnt.toNat * 2 ^ 24 + ch.l)) bs f.cnt
    match s.popReach id ch.l f.addr r.1.length with
    | .wait s => .wait s
    | .refused s code a => .refused s code a.toNat
    | .ok s _ => .ok s [⟨par, ch, r.1, r.2⟩]

def State.replacements (s : State) (id : CoreId) (h : Head) : List (Ranked × Ranked) → Replaced
  | [] => .ok s []
  | (par, ch) :: ps =>
    match s.replacement id h par ch with
    | .ok s r =>
      match State.replacements s id h ps with
      | .ok s rs => .ok s (r ++ rs)
      | o => o
    | o => o

/-- One replacement takes effect: the child's weights and generation. -/
def State.replace (s : State) (id : CoreId) (h : Head) (r : Replacement) : State :=
  (s.popPut id h.push r.ch.l (PpF.mk h.pw.word).addr r.weights).modCore ⟨id.asid, r.ch.l⟩ (fun c => { c with genNum := r.par.gen + 1 })

/-- The lineage record of a replacement. -/
def Replacement.record (r : Replacement) (h : Head) (ss : BitVec 32) : List Byte :=
  let f : PpF := ⟨h.pw.word⟩
  lineageRec 0x01 r.ch.l ss f.sigma r.par.l f.seed (r.par.gen + 1) r.par.fit

def runPcull (s : State) (id : CoreId) (h : Head) : PopRes :=
  let f : PpF := ⟨h.pw.word⟩
  let (s, R) := s.ranking id.asid f.grp (some (id.l, h.push.seq))
  if notMember R h.push.lcn then .fault s 0x01 0
  else if 2 * f.k > R.length then .fault s 0x02 0
  else if s.lineageFree id.asid < f.k then .fault s 0x04 0
  else
    match s.popRoom id h.push (f.k * blockSlots f.bytes) 0 with
    | .blocked s => .wait s
    | .done s0 =>
      match s0.replacements id h ((R.take f.k).zip (R.reverse.take f.k)) with
      | .ok s rs => .done (rs.foldl (fun s r => s.replace id h r) s) (popResult 0x02 f.grp f.k)
          (rs.map (fun r => r.record h (s.ctx id.asid).sscnt)) (rs.flatMap Replacement.evs) (f.k * f.bytes) none
      | .wait s => .wait s
      | .refused s code a => .refused s code a

/-! ### `pmig` (R318) -/

/-- The pieces in which `n` bytes enter the hold buffer (spec/14 R334). -/
def sendPieces (n : Nat) : List Piece := ((List.range ((n + 16383) / 16384)).map (fun i =>
  Piece.run 0 (16384 * i) 0 0 0 (min 16384 (n - 16384 * i)) i))

/-- A `pmig` in flight sends its pieces in order as the hold buffer has room; with its window committed they leave at once
(spec/14 R335). -/
def State.sendOn (s : State) (id : CoreId) (uid : Nat) : Nat → State
  | 0 => s
  | fuel + 1 =>
    match (s.core id).flights.find? (fun f => f.uid == uid) with
    | none => s
    | some f =>
      match f.send, f.pieces with
      | some (port, p), q :: _ =>
        let item := HeldItem.packet id.asid id.l (f.win.getD 0) port p q.sa q.n
        let went (s : State) : State := (s.modFlight id uid (fun g => { g with pieces := g.pieces.drop 1, done := g.done + q.n }))
        if (s.core id).holds f.win then
          match s.hold (s.dieOf id) item with
          | .blocked s => s
          | .done s => State.sendOn (went s) id uid fuel
        else State.sendOn (went (s.releaseItem item)) id uid fuel
      | _, _ => s

/-- `pmig`: the packet leaves while the word is in flight. DESIGN CHOICE: the parent in its lineage record is the sender, since
spec/13 R315 gives that field for kinds 0x01 and 0x02 alone (notes/assumptions/53.md). -/
def runPmig (s : State) (id : CoreId) (h : Head) : PopRes :=
  let f : PpF := ⟨h.pw.word⟩
  let x := s.ctx id.asid
  let port := s.ports.getD f.port Port.reset
  -- whether the far port is bound is the far device's state
  let bound := Config.freeBool s.fresh
  if port.lst != 2 then .fault s 0x06 0
  else if !bound then .fault s.bump 0x06 0
  else if s.lineageFree id.asid < 1 then .fault s.bump 0x04 0
  else
    match s.bump.popRead id id.l f.addr f.bytes with
    | .wait s => .wait s
    | .refused s code a => .refused s code a.toNat
    | .ok s bs =>
      let r : List Byte × Evs := if f.pert then
          perturb f.wt h.pw.fa f.sigma (word f.seed) (word (2 ^ 63 + x.sscnt.toNat * 2 ^ 24 + h.push.lcn)) bs f.cnt
        else (bs, [])
      let me := s.core ⟨id.asid, h.push.lcn⟩
      let fit := me.csr.fitness.toNat % 2 ^ 32
      let p : Packet := ⟨r.1, BitVec.ofNat 4 f.wt, BitVec.ofNat 28 f.cnt, h.pw.fa, BitVec.ofNat 12 f.grp, BitVec.ofNat 20 f.addr,
        BitVec.ofNat 24 h.push.lcn, me.genNum, BitVec.ofNat 32 fit⟩
      let rec_ := lineageRec 0x03 h.push.lcn x.sscnt f.sigma h.push.lcn f.seed me.genNum fit
      .done s (popResult 0x03 0 r.1.length) [rec_] r.2 0 (some (f.port, p))

/-! ### `plog` (R317) -/

/-- What a flush comes to: how many records were written, and the refusal code that stopped it; or it has to wait. -/
inductive Flushed where
  | ok (s : State) (n code : Nat)
  | wait

/-- Write records to the ring from slot `lslot`. -/
def State.flushRecs (s : State) (id : CoreId) (h : Head) (lbase lsize slot : Nat) : List (List Byte) → Flushed
  | [] => .ok s 0 0
  | r :: rs =>
    let a := lbase + slot * 32
    match s.engWrite id h.push.runtime ⟨h.push.win, h.push.seq, false, .run (s.core id).issueNo slot, 32, []⟩ ⟨0, 0, a⟩ r with
    | .ok s _ =>
      match State.flushRecs (s.engineWatch id [(true, sext54 (a % 2 ^ 54), 32)]) id h lbase lsize ((slot + 1) % lsize) rs with
      | .ok s n code => .ok s (n + 1) code
      | .wait => .wait
    | .wait _ => .wait
    | .refused s code _ => .ok s 0 code

/-- Log slots that `n` records of the ring need: two each in device memory. -/
def State.flushSlots (s : State) (id : CoreId) (h : Head) (lbase lsize slot n : Nat) : Nat :=
  ((List.range n).map (fun i =>
    match s.engResolve id h.push.runtime ⟨0, 0, lbase + (slot + i) % lsize * 32⟩ 32 .store with
    | .ok (.hbm ..) => 2
    | _ => 0)).sum

def runPlog (s : State) (id : CoreId) (h : Head) : PopRes :=
  let f : PpF := ⟨h.pw.word⟩
  match s.popRead id id.l f.addr 32 with
  | .wait s => .wait s
  | .refused s code a => .refused s code a.toNat
  | .ok s bs =>
    let d (i : Nat) : Nat := leNat ((bs.drop (8 * i)).take 8)
    let lsize := d 1
    let ltail := d 2
    let lslot := d 3
    if d 0 / 2 ^ 54 != 0 || d 0 % 32 != 0 || lsize / 2 ^ 32 != 0 || lsize = 0 || ltail / 2 ^ 32 != 0 || lslot ≥ lsize then
      .fault s 0x05 0
    else
      let recs := (s.ctx id.asid).lineage.map (fun r => r.2.2)
      match s.popRoom id h.push (blockSlots 32) (s.flushSlots id h (d 0) lsize lslot recs.length) with
      | .blocked s => .wait s
      | .done s0 =>
        match s0.flushRecs id h (d 0) lsize lslot recs with
        | .wait => .wait s0
        | .ok s n code =>
          let desc := bs.take 16 ++ leBytes 8 ((ltail + n) % 2 ^ 32) ++ leBytes 8 ((lslot + n) % lsize)
          let s := s.modCtx id.asid (fun x => { x with lineage := x.lineage.drop n })
          match s.popWrite id h.push id.l f.addr desc with
          | .wait _ => .wait s0
          | .refused s code a => .refused s code a.toNat
          | .ok s _ => if code ≠ 0 then .fault s 0x07 code else .done s (popResult 0x04 0 n) [] [] (32 * n + 32) none

/-! ### Issue and retirement (R308) -/

/-- The head of a core's `eqp` waits for nothing but its turn (R308). -/
def State.popReady (s : State) (id : CoreId) : Bool :=
  let c := s.core id
  match c.headOf .eqp with
  | none => false
  | some h => s.engineOn id && s.pushIn id h.push && s.stallMet id .eqp h.pw.word && c.decision h == some true && c.waitMet .eqp h

/-- Place of a core in the round robin of its die's population manager. -/
def State.popPlace (s : State) (id : CoreId) : Nat := (s.ctx id.asid).pcn id.l % 144

/-- No other core of the die with a word to run comes earlier in round-robin order. -/
def State.popTurn (s : State) (id : CoreId) : Bool :=
  let last := (s.die (s.dieOf id)).popLast
  s.cores.all (fun c => s.dieOf c.id != s.dieOf id || !s.popReady c.id ||
    !decide ((s.popPlace c.id + 287 - last) % 144 < (s.popPlace id + 287 - last) % 144))

/-- The turn of a die's population manager passes on from a core (R308). -/
def State.popPassed (s : State) (id : CoreId) : State :=
  s.modDie (s.dieOf id) (fun d => { d with popLast := s.popPlace id })

/-- A population word issues: its flight and its place in the queue. -/
def State.launchPop (s : State) (id : CoreId) (h : Head) (result : Word) (lineage : List (List Byte)) (evs : Evs) (bytes : Nat)
    (send : Option (Nat × Packet)) : State :=
  let f : Flight := { Flight.of (s.core id) .eqp h with
    occEnd := s.cycle, retireAt := s.cycle, result := some result, lineage, scope := (Scope.code .pkg).toNat
    evAdd := evs, done := bytes, send, pieces := ((send.map (fun p => sendPieces p.2.weights.length)).getD []) }
  let s := s.modHead id .eqp (fun p => p.step h.pw.word)
  let s := s.modCore id (fun c => { c with issueNo := c.issueNo + 1, flights := c.flights ++ [f] })
  (s.popPassed id).sendOn id f.uid (f.pieces.length)

/-- What running a population word leaves: a word in flight, a word ended by its fault or refusal, a wait. In each case the core has
had its turn, which goes on to the words of other cores (R308). -/
def State.settlePop (id : CoreId) (h : Head) : PopRes → State
  | .wait t => t.popPassed id
  | .fault t reason code => (t.faultWord id .eqp h 0x24 (reason * 2 ^ 8 + code * 2 ^ 24)).state.popPassed id
  | .refused t code a => (t.endWord id .eqp h ⟨0x22, word a, word (h.where_ + code * 2 ^ 24), 0⟩).state.popPassed id
  | .done t result lineage evs bytes send => t.launchPop id h result lineage evs bytes send

/-- Run the head word of the current core's `eqp` if it is `w`, may issue and it is its turn. -/
def State.issuePop (s : State) (w : CmdWord) (run : State → CoreId → Head → PopRes) : State :=
  let id := s.cur
  let s := s.decideHeads id
  match (s.core id).headOf .eqp with
  | none => s
  | some h =>
    if h.pw.word != w || !s.popReady id || !s.popTurn id then s
    else State.settlePop id h (run s id h)

def runPop (i : Instr) (run : State → CoreId → Head → PopRes) (s : State) : Host.Outcome State Fault Refusal :=
  match encodeWord i with
  | some w => .next (s.issuePop w run)
  | none => .next s

def execPrank (h : Header) (w : PopBody) (s : State) : Host.Outcome State Fault Refusal := runPop (.prank h w) runPrank s
def execPcull (h : Header) (w : PopBody) (s : State) : Host.Outcome State Fault Refusal := runPop (.pcull h w) runPcull s
def execPmig (h : Header) (w : PopBody) (s : State) : Host.Outcome State Fault Refusal := runPop (.pmig h w) runPmig s
def execPlog (h : Header) (w : PopBody) (s : State) : Host.Outcome State Fault Refusal := runPop (.plog h w) runPlog s

/-- A population word retires: it waits for room in the result FIFO; the next word's stall count runs from here. -/
def execPopulationWordRetire (id : CoreId) (s : State) : Host.Outcome State Fault Refusal :=
  let c := s.core id
  match c.firstFlight .eqp with
  | none => .next s
  | some f =>
    if !s.hasCore id || f.suspended then .next s
    else
      let s := s.sendOn id f.uid f.pieces.length
      let c := s.core id
      if c.flights.any (fun g => g.uid == f.uid && !g.pieces.isEmpty)
          || (!s.holds id f && f.result.isSome && decide (c.eqp.fifo.length ≥ 16)) then .next s
      else
        match s.retireFlight id f with
        | .blocked s => .next s
        | .done s => .next (s.modCore id (fun c => { c with eqp := { c.eqp with lastEnd := s.cycle } }))

/-! ### Arrival of a migrant (R319, R433) -/

/-- Saturating count of 16 bits. -/
def sat16 (v : BitVec 16) : BitVec 16 := if v = BitVec.allOnes 16 then v else v + 1

def State.modPort (s : State) (p : Nat) (f : Port → Port) : State := { s with ports := s.ports.modify p f }

/-- A migrant packet arrives at a port: it replaces the worst-ranked member or is discarded and counted. One whose weights would leave
part of a poisoned unit, or would enter the scratchpad of a die under reset, is refused and discarded (spec/15 R366, spec/22 R419,
notes/assumptions/55.md). DESIGN CHOICE: a weight address that is no multiple of the container counts in `dsize` as one past F does,
and of several reasons the first of `dgrp`, `dsize`, `dlin` counts (notes/assumptions/53.md). -/
def execPmigArrival (port : Nat) (p : Packet) (s : State) : Host.Outcome State Fault Refusal :=
  let q := s.ports.getD port Port.reset
  let x := s.ctx q.basid
  let W := p.addr.toNat
  let c := typeBits p.wt.toNat
  if port ≥ 12 || q.lst != 2 then .next s
  else if !q.bv || (s.ctx? q.basid).isNone then .next (s.modPort port (fun r => { r with dunb := sat16 r.dunb }))
  else
    let (s, R) := s.ranking q.basid p.grp.toNat none
    match R.getLast? with
    | none => .next (s.modPort port (fun r => { r with dgrp := sat16 r.dgrp }))
    | some worst =>
      let t : CoreId := ⟨q.basid, worst.l⟩
      if decide (W + p.cnt.toNat * c / 8 > x.par.fp) || W % max 1 (c / 8) != 0 then
        .next (s.modPort port (fun r => { r with dsize := sat16 r.dsize }))
      else if s.poisonLeft t (.scratch worst.l W) p.weights.length || !s.answers (x.dieOf worst.l) then .next s
      else if s.lineageFree q.basid < 1 then .next (s.modPort port (fun r => { r with dlin := sat16 r.dlin }))
      else
        let core := s.core t
        if !s.blocksIn q.basid (.scratch worst.l W) p.weights.length then
          .next (s.want q.basid (.scratch worst.l W) p.weights.length) else
        -- logged in the receiving core's log under its own open window (spec/14 R327); it takes no number (R328)
        match s.logWrite t core.win.openWin core.storeSeq.toNat (.scratch worst.l W) p.weights.length false .block true with
        | .blocked s => .next s
        | .done s =>
          let before := (s.core t).stale
          let olds := [(false, W, (s.core t).scratch.readBytes W p.weights.length)]
          let s := (s.writeScratch q.basid worst.l W p.weights).noteStale t before olds false
          let gen := p.gen + 1
          let s := s.modCore t (fun c => { c with genNum := gen })
          let rec_ := lineageRec 0x02 worst.l x.sscnt 0 0xFFFFFF 0 gen p.fitness.toNat
          let s := s.modCtx q.basid (fun y => { y with lineage := y.lineage ++ [(worst.l, none, rec_)] })
          .next (s.modPort port (fun r => { r with rxok := r.rxok + 1 }))

end Sys2Proof.Machine
end

