-- ==== Sys2Proof/Machine/Fetch.lean ====
section
/-! DEFINITION. Fetching a parcel (spec/10 R255, spec/02 R26), when a core may run, breakpoints (spec/21 R403, R404), and
the stop under the halt line (spec/15 R356 to R358, spec/21 R405). -/

namespace Sys2Proof.Machine

/-! ### Fetch -/

/-- The parcel that a core fetches at an address: one it fetched before at a level no higher than its own, else the bytes at its memory. A refusal is a
precise trap whose trapping parcel is 0 (spec/15 R350; there is no parcel). -/
def State.fetch (s : State) (id : CoreId) (va : Word) : State × Except TrapInfo Parcel :=
  let c := s.core id
  match c.ibuf.find? (fun p => p.1 == va && (c.runtime || !p.2.1)) with
  | some p => (s, .ok p.2.2)
  | none =>
    let (s, bad) := s.walkMet id c.runtime va
    if bad then (s, .error (refusalTrap 0x0B va true))
    else match s.resolve id c.runtime va 4 .fetch with
    | .error code => (s, .error (refusalTrap code va true))
    | .ok p =>
      let s := match s.servedBy id.asid p with
        | some d => s.touch id.asid d
        | none => s
      if s.placeRefusal id.asid p 4 ≠ 0 then (s, .error (refusalTrap (s.placeRefusal id.asid p 4) va true))
      else
        let (s, bad) := s.consume id (s.damageAt id p 4)
        if bad then (s, .error (refusalTrap 0x0B va true))
        else (s, .ok (BitVec.ofNat 32 (leNat (s.placeBytes id p 4))))

/-- A parcel fetched ahead of its execution (R255). -/
def State.prefetch (s : State) (id : CoreId) (va : Word) : State :=
  if !s.hasCore id || va.toNat % 4 ≠ 0 then s
  else match s.fetch id va with
    | (s', .ok w) => s'.modCore id (fun c => { c with ibuf := (va, c.runtime, w) :: c.ibuf.filter (fun p => p.1 != va) })
    | (_, .error _) => s

/-! ### When a core may run -/

/-- The core stands at a boundary of R352: not inside a prefix unit (spec/02 R37), nor inside a rewind (spec/14 R344). -/
def CoreSt.atBoundary (c : CoreSt) : Bool := c.pfx.isNone && c.rewinding.isNone

/-- The core executes the `wrewind` whose rewind is in progress. -/
def State.rewinds (s : State) (id : CoreId) : Bool :=
  match (s.fetch id (s.core id).pc).2 with
  | .ok w => match decodeParcel w with
    | .ok (.wrewind _) => true
    | _ => false
  | .error _ => false

/-- Neither the halt line nor a pre-emption nor a rewind in progress keeps the core from its next action, its die is there,
and a task runs on it. Under the halt line only a core that a STEP or REPLAY selects runs; before the stop is complete the
core whose event raised the line, and any core with a fault, stand still (spec/15 R357). -/
def State.mayRun (s : State) (id : CoreId) : Bool :=
  match s.core? id, s.ctx? id.asid with
  | some c, some x =>
    x.run == .running && c.task.isSome && !(x.preempt.isSome && c.atBoundary)
      && (c.rewinding.isNone || s.rewinds id)
      && s.answers (x.dieOf id.l) &&
      (match x.halt with
       | none => true
       | some h => c.stepping || (!h.reached && !c.stopped && (c.rewinding.isSome || (h.l != id.l && c.fcause.isNone))))
  | _, _ => false

/-! ### The stop (spec/15 R357, spec/21 R405) -/

/-- State that the debug block shows after a stop for a reason. -/
def DbgBlk.after (g : DbgBlk) (why : Nat) : Nat :=
  match why with
  | 4 => 3
  | 5 => g.prev
  | 6 => 3
  | _ => 2

/-- The pushes of a queue, marked as made before a stop. -/
def EQueue.age (e : EQueue) : EQueue := { e with pushes := e.pushes.map (fun p => { p with old := true }) }

/-- A core under the halt line: it stops at a boundary, a prefix unit standing at its first prefix (spec/02 R37). What it has pushed
so far completes after the stop (spec/21 R405). -/
def CoreSt.stopHere (c : CoreSt) : CoreSt :=
  { c with
    pc := c.unitPc, pfx := none, stopped := true, stepping := false, replay := none
    flights := c.flights.map (fun f => { f with old := true })
    eqm := c.eqm.age, eqv := c.eqv.age, eqc := c.eqc.age, eqp := c.eqp.age }

/-- Drain the store buffers of cores as far as they go. -/
def State.drainCores (s : State) : List CoreId → State
  | [] => s
  | id :: ids => ((s.drainAll id (s.core id).sb.length).state).drainCores ids

/-- The halt line reaches every unit of a context: cores stop, store buffers drain, stop records are written, and the debug block shows the stop. -/
def State.stopAll (s : State) (asid : Nat) : State :=
  let x := s.ctx asid
  match x.halt with
  | none => s
  | some h =>
    let s := (s.drainCores x.ids).arriveAll asid
    let s := x.ids.foldl (fun s id => s.modCore id CoreSt.stopHere) s
    let s := s.modCtx asid (fun x => { x with halt := some { h with reached := true }, recs := s.stopRecs x h, precise := false, owed := [] })
    if s.attached asid then
      let old := h.cause == 0 || s.dbg.state == 4
      let why := if old then s.dbg.why.toNat else 8
      let slcn := if old then s.dbg.slcn else BitVec.ofNat 24 h.lcn
      let s := { s with dbg := { s.dbg with why := BitVec.ofNat 8 why, slcn, state := s.dbg.after why, busy := false } }
      x.ids.foldl (fun s id =>
        let c := s.core id
        s.trace 0x06 id c.pc (word (why * 2 ^ 24 + c.lcnOrNone))) s
    else s

/-! ### Breakpoints -/

/-- An enabled breakpoint slot of the core holds the address it fetches at. -/
def CoreSt.breakHit (c : CoreSt) : Bool := c.bp.toList.any (fun b => b.ctl.getLsbD 0 && sext54 b.addr.toNat == c.pc)

/-- Stop before the parcel executes, unless a STEP runs the core (R404). -/
def State.breakStop (s : State) (id : CoreId) : Option State :=
  let c := s.core id
  if c.breakHit && (!c.stepping || c.replay.isSome) then
    some ((s.modCore id (fun c => { c with pc := c.unitPc, pfx := none })).dbgStop id.asid 0x01 id.l)
  else none

end Sys2Proof.Machine
end

