-- ==== Sys2Proof/Machine/Boundary.lean ====
section
/-! DEFINITION. What a core does at an instruction boundary (spec/15 R351, R352): due entries, pending traps, breakpoints,
fetch, prefix units (spec/02 R37), the instruction itself, and the end of a STEP or REPLAY (spec/21 R407, R411). -/

namespace Sys2Proof.Machine

/-! ### Traps at a boundary -/

/-- The due handler entry of a core is made (R352 step 5), once its stores have left the buffer (R355). -/
def State.makeDue (s : State) (id : CoreId) : State :=
  match (s.core id).due with
  | some d => if s.storeWaits id then { s.flush id with note := .waited } else s.enterHandler id d.epc d.trap false
  | none => s

/-- An atomic to host memory that is still held has not been performed: the instruction that made it starts again after the
handler (notes/assumptions/39.md). -/
def State.dropHostAmo (s : State) (id : CoreId) : State :=
  if (s.core id).hostAmo = some none then
    let mine (h : HeldItem) : Bool := match h with
      | .atom asid l .. => asid == id.asid && l == id.l
      | _ => false
    (s.modDie (s.dieOf id) (fun d => { d with egress := d.egress.filter (fun h => !mine h) })).modCore id
      (fun c => { c with hostAmo := none })
  else s

/-- The oldest pending trap of a core is taken (R352 step 6, R353), once its stores have left the buffer (R355); a member of a gang
leaves it. A replay delivers none. -/
def State.takePending (s : State) (id : CoreId) : State :=
  let c := s.core id
  match c.pend with
  | [] => s
  | t :: ts =>
    if c.replay.isNone && s.storeWaits id then { s.flush id with note := .waited } else
    let s := (s.dropHostAmo id).modCore id (fun c => { c with pend := ts })
    if c.replay.isSome then s.diverge id t.code 0
    else (s.splitGang id).enterHandler id c.pc t true

/-- A pending trap can be taken: the core runs a task at the task level, no prefix unit is open, and no atomic to host memory
has been performed whose instruction has yet to take its answer. -/
def CoreSt.pendReady (c : CoreSt) : Bool :=
  !c.pend.isEmpty && !c.runtime && c.task.isSome && c.pfx.isNone && c.due.isNone && !(c.hostAmo.getD none).isSome

/-! ### Replay (spec/14 R347, spec/21 R411) -/

/-- A recorded input of kind 2 or 3 that the core must have at its count before it goes on. -/
def CoreSt.awaited (c : CoreSt) (kind : Nat) : Bool :=
  c.replay.isSome && c.inputs.any (fun i => !i.used && some i.win == c.win.openWin && i.count == c.dicnt && i.kind == kind)

/-- A recorded input that an instruction of the core should have taken and did not (spec/21 R411). -/
def CoreSt.passedInput (c : CoreSt) : Option InputEnt :=
  if c.replay.isNone then none
  else c.inputs.find? (fun i => !i.used && some i.win == c.win.openWin && decide (i.count < c.dicnt) && i.kind != 0x03)

/-- A word of a core that runs can still issue or go: the head of a queue whose guard has been resolved. -/
def CoreSt.headGoes (c : CoreSt) : Bool :=
  [Queue.eqm, .eqv, .eqc, .eqp].any (fun q => match c.headOf q with
    | some h => (c.decision h).isSome
    | none => false)

/-! ### Which task an idle core can start (spec/11 R262, R290) -/

/-- An idle core can start a task: its context runs, and no halt line, pre-emption or rewind keeps it. -/
def State.mayStart (s : State) (id : CoreId) : Bool :=
  match s.core? id, s.ctx? id.asid with
  | some c, some x =>
    x.run == .running && c.task.isNone && c.due.isNone && x.preempt.isNone && c.rewinding.isNone
      && s.answers (x.dieOf id.l) && c.fcause.isNone &&
      (match x.halt with
       | none => true
       | some h => !h.reached || c.stepping)
  | _, _ => false

/-- Class of a record in a pool. -/
def PoolRec.cls (r : PoolRec) : Nat := if r.raised then 0 else r.rec_.prio

/-- The record may run on core `c` of the pool's die; a gang record needs its bench idle. -/
def State.mayTake (s : State) (c : CoreSt) (p : PoolRec) : Bool :=
  let r := p.rec_
  let l := c.id.l
  p.asid == c.id.asid &&
    (if r.gang then r.lcn / 4 == l / 4 && (List.range 4).all (fun k => s.mayStart ⟨p.asid, l / 4 * 4 + k⟩)
     else match r.aff with
       | 0 => r.lcn == l
       | 1 => r.lcn / 4 == l / 4
       | 2 => true
       | _ => c.stage == some r.sq)

/-- Place in a pool of the record a core takes: lowest class first, earliest entry within it. -/
def State.pickRec (s : State) (c : CoreSt) (pool : List PoolRec) : Option (Nat × PoolRec) :=
  (pool.mapIdx (fun i p => (i, p))).foldl (fun best p =>
    if s.mayTake c p.2 then
      match best with
      | none => some p
      | some b => if p.2.cls < b.2.cls then some p else best
    else best) none

/-! ### An input that cannot be met -/

/-- A task waits that the idle core of a STEP or REPLAY can start: in the run pool of its die or in transit to it. -/
def State.startable (s : State) (c : CoreSt) : Bool :=
  let d := s.dieOf c.id
  (s.pickRec c (s.die d).pool).isSome || s.transit.any (fun t => match t with
    | .recs a e rs => a == c.id.asid && e == d && rs.any (s.mayTake c)
    | .entries .. => false)

/-- A replaying core can do nothing before an input that a sender has still to produce: a recorded increment, or the recorded
message of the `mpop` it stands at. -/
def CoreSt.expects (c : CoreSt) : Bool :=
  c.awaited 3 || c.inputs.any (fun i => !i.used && some i.win == c.win.openWin && i.count == c.dicnt && i.kind == 2
    && !(c.inbox.getD (bits i.val 34 32) []).any (fun m => i.val.toNat == bits i.val 34 32 * 2 ^ 32 + m.result))

/-- A replaying core has an increment recorded that it has still to take. -/
def CoreSt.lacksIncr (c : CoreSt) (i : Incr) : Bool :=
  c.replay.isNone || c.inputs.any (fun e => !e.used && e.kind == 0x03 && e.val == incrValue i.ctr i.amount)

/-- Nothing can bring a core an input it waits for (spec/21 R411, spec/14 R347): every other core of the context has stopped, is idle
with no task to start, or waits for such an input itself; no word that can still take effect is left to issue or to retire; no barrier
is left to complete; and nothing is on its way to a core that runs but increments that its record does not have. -/
def State.unmet (s : State) (id : CoreId) : Bool :=
  let on (l : Nat) : Bool := (s.core ⟨id.asid, l⟩).stepping
  s.cores.all (fun c => c.id.asid != id.asid ||
      ((c.id == id || !c.stepping || (if c.task.isNone then !s.startable c else c.replay.isSome && c.expects))
      && c.flights.all (fun f => f.suspended || s.holds c.id f) && c.outq.isEmpty && !(c.stepping && c.headGoes))) &&
    !(s.ctx id.asid).barriers.any Barrier.complete &&
    s.msgs.all (fun m => m.asid != id.asid || !on m.dst) &&
    s.incrs.all (fun i => i.asid != id.asid || !on i.dst || !(s.core ⟨id.asid, i.dst⟩).lacksIncr i)

/-- A waiting replay diverges when its input can never be met. -/
def State.replayWait (s : State) (id : CoreId) (kind : Nat) : State :=
  if s.unmet id then s.diverge id 0 kind else { s with note := .waited }

/-! ### End of a STEP or REPLAY -/

/-- A core that has done what its STEP or REPLAY asked stops. -/
def State.stepDone (s : State) (id : CoreId) : State :=
  let c := s.core id
  let fin (s : State) (why : Nat) : State :=
    { s.modCore id (fun c => { c with stepping := false, replay := none }) with dbg := { s.dbg with why := BitVec.ofNat 8 why } }
  if !c.stepping then s
  else match c.passedInput with
  | some i => s.diverge id 0 i.kind
  | none => match c.replay with
    | some r => if c.pfx.isNone && decide (c.dicnt ≥ r.target) then fin s 6 else s
    | none => if c.pfx.isNone && (s.note == .retired || s.note == .rewound) then fin s 5 else s

/-- When no core of the attached context steps any more, the stop is complete again. -/
def State.settleStep (s : State) (asid : Nat) : State :=
  if s.attached asid && s.dbg.state == 4 && s.cores.all (fun c => c.id.asid != asid || !c.stepping) then s.stopAll asid else s

/-- After an action of cores. -/
def State.afterRun (s : State) (ids : List CoreId) : State :=
  (ids.foldl (fun s id => s.stepDone id) s).settleStep (ids.headD s.cur).asid

/-! ### One action of a core -/

/-- The pending prefix unit accepts its next instruction (spec/02 R37); a prefix looks after itself. -/
def CoreSt.accepts (c : CoreSt) (i : Instr) : Bool :=
  match c.pfx with
  | none => true
  | some p => match i with
    | .imx _ => true
    | .scx _ => true
    | _ => (p.imx.isNone || acceptsImx i) && (p.scx.isNone || acceptsScx i)

/-- Map the next state of an outcome. -/
def thenNext (f : State → State) (r : Host.Outcome State Fault Refusal) : Host.Outcome State Fault Refusal :=
  match r with
  | .next s => .next (f s)
  | r => r

/-- Cause of a parcel that does not decode: behind a prefix the unit is illegal (spec/02 R37), but an `scx` with a reserved
scope raises ILLEGAL_INSTRUCTION, unless it is the second `scx` of its unit (spec/09 R214, notes/assumptions/18.md). -/
def CoreSt.badParcel (c : CoreSt) (w : Parcel) : Nat :=
  match c.pfx with
  | none => 0x01
  | some p => if isScx w && p.scx.isNone then 0x01 else 0x02

/-- The kind of input that an instruction takes (spec/14 R346); 0 for none. -/
def inputKind (i : Instr) : Nat :=
  match i with
  | .csrAccess _ _ csr _ _ => if csr.toNat = 0xC00 ∨ csr.toNat = 0xC01 then 0x01 else if csr.toNat = 0xCC0 then 0x04 else 0
  | .mpop _ _ _ => 0x02
  | .bcb _ _ | .bcbn _ _ | .wfc _ | .epopnb _ _ | .qpop _ _ | .qpeek _ _ => 0x04
  | .epush q _ | .epushb q _ _ => if q = .eqc then 0x05 else 0
  | _ => 0

/-- A recorded input whose kind does not match the instruction at its count: the replay stops before it (spec/21 R411). -/
def CoreSt.mismatched (c : CoreSt) (i : Instr) : Option InputEnt :=
  match i with
  | .imx _ | .scx _ => none
  | _ => if c.replay.isNone then none else c.recorded.filter (fun e => e.kind != inputKind i)

/-- A trap that every member of the current core's gang meets in one instruction: each takes the cause (spec/11 R282). -/
def State.trapAll (s : State) (t : TrapInfo) : State :=
  let ms := s.gangOf s.cur
  if (s.core s.cur).gang.isSome then { s.gangTrap ms (ms.map (fun m => (m, t, (s.core s.cur).unitPc))) with cur := s.cur }
  else s.takeTrap t

/-- Fetch, decode and execute at the pc of the current core. The order of causes is that of R351. -/
def State.execute (s : State) (run : Instr → State → Host.Outcome State Fault Refusal) : Host.Outcome State Fault Refusal :=
  let id := s.cur
  let c := s.core id
  match s.fetch id c.pc with
  | (s, .error t) => .next (s.takeTrap t)
  | (s, .ok w) =>
    match decodeParcel w with
    | .error _ => .next (s.trapAll ⟨c.badParcel w, 0, 0, w.setWidth 64⟩)
    | .ok i =>
      if !c.accepts i then .next (s.trapAll ⟨0x02, 0, 0, w.setWidth 64⟩)
      else if let some (m, e) := (s.gangOf id).findSome? (fun m => ((s.core m).mismatched i).map (fun e => (m, e))) then
        .next (s.diverge m 0 e.kind)
      else if c.gang.isSome then s.gangRun (run i)
      else run i s

/-- One action of the current core, or of the gang it belongs to: nothing while it may not run; the due handler entry; a
pending trap; a wait or the end of a replay; a breakpoint; else the instruction at its pc. -/
def State.coreRun (s : State) (run : Instr → State → Host.Outcome State Fault Refusal) : Host.Outcome State Fault Refusal :=
  let s := { s with cur := s.leader s.cur, note := .none }
  let id := s.cur
  let ids := s.gangOf id
  let c := s.core id
  let act : Host.Outcome State Fault Refusal :=
    if !ids.all s.mayRun then .next s
    else if c.rewinding.isSome then go s ids
    else if c.due.isSome then .next (s.makeDue id)
    else match ids.find? (fun m => (s.core m).pendReady) with
      | some m => .next (s.takePending m)
      | none =>
        if ids.any (fun m => (s.core m).awaited 3) then .next (s.replayWait id 3)
        else match c.replay with
          | some r =>
            if c.pfx.isNone && decide (c.dicnt ≥ r.target) then .next s
            else go s ids
          | none => go s ids
  thenNext (fun s => s.afterRun ids) act
where
  go (s : State) (ids : List CoreId) : Host.Outcome State Fault Refusal :=
    match ids.findSome? (fun m => s.breakStop m) with
    | some s => .next s
    | none =>
      thenNext (fun s =>
        if s.note == .waited && (s.core s.cur).awaited 2 then s.replayWait s.cur 2 else s) (s.execute run)

end Sys2Proof.Machine
end

