-- ==== Sys2Proof/Machine/Events.lean ====
section
/-! DEFINITION. Steps of the memory system, the scheduler and the undo log that no instruction takes by itself: waits that
end, refusals that return, drains, walks, deliveries, task starts, the governor and the balancer, the log drain. A step that
nothing calls for leaves the state as it is. -/

namespace Sys2Proof.Machine

/-! ### Waits that end (spec/04 R86, spec/05 R126) -/

/-- The instruction that a core would execute next, when nothing comes before it at its boundary. -/
def State.standsAt (s : State) (id : CoreId) : Option Instr :=
  let c := s.core id
  let ids := s.gangOf id
  if s.leader id != id || !ids.all s.mayRun || c.due.isSome || c.pfx.isSome
      || ids.any (fun m => (s.core m).pendReady || (s.core m).awaited 3 || (s.breakStop m).isSome) then none
  else match (s.fetch id c.pc).2 with
    | .ok w => (decodeParcel w).toOption
    | .error _ => none

/-- A core takes its next action as an event; the machine's current core stays. -/
def State.asEvent (s : State) (id : CoreId) (run : Instr → State → Host.Outcome State Fault Refusal) :
    Host.Outcome State Fault Refusal :=
  thenNext (fun t => { t with cur := s.cur }) (State.coreRun { s with cur := id } run)

/-- WFCY_EXPIRY: the PCC has reached the tick that a `wfcy` waits for. -/
def execWfcyExpiry (id : CoreId) (s : State) : Host.Outcome State Fault Refusal :=
  match s.standsAt id with
  | some (.wfcy rs1) =>
    if s.pcc (s.dieOf id) < ((s.core id).rx rs1).toNat then .next s
    else s.asEvent id (fun i t => match i with
      | .wfcy r => execWfcy r t
      | _ => .next t)
  | _ => .next s

/-- WFC_WAKE: a selected condition bit is 1. -/
def execWfcWake (id : CoreId) (s : State) : Host.Outcome State Fault Refusal :=
  match s.standsAt id with
  | some (.wfc rs1) =>
    if s.cbits id &&& (s.core id).rx rs1 = 0 then .next s
    else s.asEvent id (fun i t => match i with
      | .wfc r => execWfc r t
      | _ => .next t)
  | _ => .next s

/-! ### Requests in flight -/

/-- LATE_REFUSAL: the oldest refusal on its way back acknowledges its request and enters the pending queue (spec/03 R66,
spec/15 R354). -/
def execLateRefusal (id : CoreId) (s : State) : Host.Outcome State Fault Refusal :=
  match (s.core id).late with
  | [] => .next s
  | t :: ts => .next (((s.modCore id (fun c => { c with late := ts })).ack id).pendTrap id t)

/-- STORE_BUFFER_DRAIN (spec/10 R245). -/
def execStoreBufferDrain (id : CoreId) (s : State) : Host.Outcome State Fault Refusal := .next (s.drainOne id).state

/-- EDGE_QUEUE_DRAIN: entry `i` of a die's edge queue, unless an earlier one must come first. -/
def execEdgeQueueDrain (die i : Nat) (s : State) : Host.Outcome State Fault Refusal :=
  if edgeReady (s.die die).edge i then .next (s.edgeOne die i).state else .next s

/-- SHADOW_MERGE at a time of the die's own choosing: charged to the core that started the entry (spec/14 R327). -/
def execShadowMerge (die i : Nat) (s : State) : Host.Outcome State Fault Refusal :=
  match (s.die die).shadow[i]? with
  | some e => .next (s.mergeEntry die e e.starter true).state
  | none => .next s

/-! ### Translation (spec/03 R67) -/

/-- Station that serves a VA. -/
def station (va : Nat) : Nat := va / 2 ^ 14 % 8

/-- Put an entry into a cache of `cap` entries per station. A full station loses an entry, and one whose sets of `ways` entries may
be full may lose one: which set an entry falls into is left open, so the choice is the hardware's (notes/assumptions/50.md). -/
def tlbPut (l : List TlbEnt) (cap ways k : Nat) (e : TlbEnt) : List TlbEnt :=
  let same (t : TlbEnt) := t.asid == e.asid && t.level == e.level && t.tag == e.tag
  let l := l.filter (fun t => !same t)
  let mine := l.filter (fun t => t.tag % 8 == e.tag % 8)
  let lost : Option TlbEnt := if mine.length ≥ cap then mine[k % cap]?
    else if mine.length ≥ ways then mine[k % (mine.length + 1)]?
    else none
  e :: (match lost with
    | some x => l.filter (fun t => t != x)
    | none => l)

/-- TRANSLATION_WALK: a miss finishes its walk, which reads the levels that the pointer cache does not supply; valid translations
fill the caches, a refusal fills nothing. The pointer cache takes the pointers found at levels 1 and 2, to tables of levels 2 and 3
(notes/assumptions/50.md). -/
def execTranslationWalk (die asid : Nat) (va : Word) (s : State) : Host.Outcome State Fault Refusal :=
  let x := s.ctx asid
  let a := va.toNat % 2 ^ 54
  if !x.dies.contains die || !canonical va || decide (va.toNat ≥ localBase) || !(s.walkDamage die asid a).isEmpty then .next s
  else match s.walk die asid a with
    | .error _ => .next s
    | .ok (e, lv, ptrs) =>
      let leaf : TlbEnt := ⟨asid, lv, a / 2 ^ leafBits lv * 8 + station a, e⟩
      let pe : List TlbEnt := ptrs.filterMap (fun p =>
        if p.1 = 1 then some ⟨asid, 1, a / 2 ^ 36 * 8 + station a, p.2⟩
        else if p.1 = 2 then some ⟨asid, 2, a / 2 ^ 25 * 8 + station a, p.2⟩
        else none)
      .next (s.bump.modDie die (fun d => { d with
        leafs := tlbPut d.leafs 4096 8 (Config.freeIndex s.fresh) leaf
        ptrs := pe.foldl (fun l p => tlbPut l 256 256 (Config.freeIndex s.fresh) p) d.ptrs }))

/-! ### Messages and increments (spec/05 R120, R121, spec/11 R265, R270) -/

/-- Nothing that a sender sent earlier to one receiver is still on its way. -/
def State.inOrder (s : State) (asid src dst ord : Nat) : Bool :=
  s.msgs.all (fun m => !(m.asid == asid && m.src == src && m.dst == dst && decide (m.ord < ord))) &&
  s.incrs.all (fun i => !(i.asid == asid && i.src == src && i.dst == dst && decide (i.ord < ord))) &&
  (s.core ⟨asid, src⟩).outq.all (fun m => !(m.dst == dst && decide (m.ord < ord)))

/-- The oldest message of a core's outbound queue enters the network. -/
def State.sendOne (s : State) (id : CoreId) : State :=
  match (s.core id).outq with
  | [] => s
  | m :: ms => if s.hasCore id then { s.modCore id (fun c => { c with outq := ms }) with msgs := s.msgs ++ [m] } else s

/-- A message of scratchpad mode. -/
def Msg.toScratch (m : Msg) : Bool := bit m.target 24

/-- Where the payload of such a message goes. -/
def Msg.place (m : Msg) : Place := .scratch m.dst (bits m.target 47 28)

/-- The payload of a message lands: in its inbox, or in the scratchpad, where it stands with what the message carries. -/
def State.landMsg (s : State) (m : Msg) : State :=
  let dst : CoreId := ⟨m.asid, m.dst⟩
  let src : CoreId := ⟨m.asid, m.src⟩
  if m.toScratch then
    let s := s.logMade src m.win m.seq m.place m.payload.length false .block
    let s := (s.writeScratch m.asid m.dst (bits m.target 47 28) m.payload).askPlace m.asid 4 m.src 0 m.place m.payload.length
    s.mark ⟨m.place, m.payload.length, src, none, m.rels, false⟩
  else
    let ib := bits m.target 27 25
    s.modCore dst (fun c => { c with inbox := c.inbox.set ib (c.inbox.getD ib [] ++ [m]) })

/-- Nothing of the receiver keeps a message waiting: its scratchpad blocks can come in, or its inbox has room. -/
def State.msgLands (s : State) (m : Msg) : Bool :=
  if m.toScratch then s.blocksIn m.asid m.place m.payload.length
  else decide (((s.core ⟨m.asid, m.dst⟩).inbox.getD (bits m.target 27 25) []).length < 4)

/-- The delivery of a message, and then its counter: once there are log slots for the write, and for the input entry that the
increment makes. A write that would leave part of a poisoned unit is refused to its sender (spec/15 R366). -/
def State.deliver (s : State) (m : Msg) : Try :=
  let dst : CoreId := ⟨m.asid, m.dst⟩
  let src : CoreId := ⟨m.asid, m.src⟩
  let n := m.payload.length
  let need := if m.toScratch && (s.core src).holds m.win then blockSlots n else 0
  if !s.msgLands m then .blocked (if m.toScratch then s.want m.asid m.place n else s)
  else
    if m.toScratch && s.poisonLeft dst m.place n then
      .done (s.modCore src (fun c => { c with late := c.late ++
        [⟨0x20, word (0xFFFFFFFFFFF00000 + bits m.target 47 28), word (m.rq + 0x0B * 2 ^ 24), 0⟩] }))
    else
      match (if need = 0 then .done s else s.room src none need ⟨0, m.seq, some m.place, 0⟩ true) with
      | .blocked s => .blocked s
      | .done s =>
        if bit m.target 60 then
          match s.inputRoom dst (if s.records dst then need + 1 else 0) (2 ^ 73 + m.ord * 2 ^ 24 + m.src) with
          | .blocked s => .blocked s
          | .done s =>
            match (s.landMsg m).incrementRec dst (bits m.target 59 48) 1 m.rels with
            | .blocked _ => .blocked s
            | .done t => .done (t.ack src)
        else .done ((s.landMsg m).ack src)

/-- MESSAGE_DELIVERY of the message at place `i` of those in flight. It waits for its sender's earlier messages and
signals to the same core, for room in the inbox, and for log-ring slots. -/
def execMessageDelivery (i : Nat) (s : State) : Host.Outcome State Fault Refusal :=
  match s.msgs[i]? with
  | none => .next s
  | some m =>
    if !s.inOrder m.asid m.src m.dst m.ord then .next s
    else match s.deliver m with
      | .blocked t => .next t
      | .done t => .next { t with msgs := s.msgs.eraseIdx i }

/-- COUNTER_INCREMENT of the increment at place `i` of those in flight. -/
def execCounterIncrement (i : Nat) (s : State) : Host.Outcome State Fault Refusal :=
  match s.incrs[i]? with
  | none => .next s
  | some r =>
    if !s.inOrder r.asid r.src r.dst r.ord then .next s
    else match s.incrementRec ⟨r.asid, r.dst⟩ r.ctr r.amount r.rels (2 ^ 72 + r.ord * 2 ^ 24 + r.src) with
      | .blocked t => .next t
      | .done t =>
        let t := { t with incrs := t.incrs.eraseIdx i }
        .next (if r.remote then t.ack ⟨r.asid, r.src⟩ else t)

/-! ### Starting a task (spec/11 R260, R262, R263, R284, R290) -/

/-- Earlier records of the context that a taken record of a lower class value passes; at 64 one is raised (R290). -/
def passOver (par : LaunchPar) (i : Nat) (t : PoolRec) (pool : List PoolRec) : List PoolRec :=
  pool.mapIdx (fun j p =>
    if j < i && p.asid == t.asid && decide (t.cls < p.cls) then
      { p with passed := p.passed + 1, raised := p.raised || (decide (par.pclass ≥ 1) && decide (p.passed + 1 ≥ 64)) }
    else p)

/-- A task starts on a core (R263). -/
def CoreSt.start (c : CoreSt) (r : TaskRec) : CoreSt :=
  { c with
    x := (Vector.range 32).map (fun i => if 10 ≤ i ∧ i < 16 then r.args.getD (i - 10) 0 else 0)
    f := Vector.replicate 32 0
    csr := { c.csr with fcsr := 0 }
    wRegs := BitVec.allOnes 64, sRegs := BitVec.allOnes 64
    pc := sext54 r.pc, runtime := false, pfx := none, task := some r, cont := false, fuse := none }

/-- Start a record on a core; member `k` of a gang has logical number `lcn + k`. It acquires what its publication carried (R266). -/
def State.startOn (s : State) (id : CoreId) (r : TaskRec) (k : Nat) (gang : Option Gang) (rels : List Rel) : State :=
  let r := { r with d1 := word (r.d1.toNat / 2 ^ 24 * 2 ^ 24 + (r.lcn + k) % 2 ^ 24) }
  ((s.modCore id (fun c => { c.start r with gang })).acquires id (s.ctx id.asid).sctx rels).trace 0x03 id r.d0 (word r.lcn)

/-- Start a record: on one core, or on the four cores of a bench as a gang led by core 0 (R284). -/
def State.startRec (s : State) (id : CoreId) (r : TaskRec) (rels : List Rel) : State :=
  if r.gang then
    (List.range 4).foldl (fun s k => s.startOn ⟨id.asid, id.l / 4 * 4 + k⟩ r k (some ⟨0xF#4⟩) rels) s
  else s.startOn id r 0 none rels

/-! ### Feeding the pools (spec/11 R288 step 4) -/

/-- The record of work unit `u`. -/
def LaunchPar.unitRec (p : LaunchPar) (n u : Nat) : TaskRec :=
  ⟨word (2 * 2 ^ 56 + p.entry.toNat), word (u % n), [word u, word p.units, p.arg0, p.arg1, 0, 0], u % n⟩

/-- Work units whose pool has room become runnable, in order. -/
def State.feed (s : State) (asid : Nat) : Nat → State
  | 0 => s
  | fuel + 1 =>
    let x := s.ctx asid
    if x.fed ≥ x.par.units then s
    else
      let r := x.par.unitRec x.n x.fed
      let d := x.dieOf r.lcn
      if s.poolFull d then s
      else ((s.makeRunnable asid d r (some d)).modCtx asid (fun x => { x with fed := x.fed + 1 })).feed asid fuel

/-- Every context's remaining units go on to the pools as room appears. -/
def State.feedAll (s : State) : State := s.ctxs.foldl (fun s x => s.feed x.asid (x.par.units - x.fed)) s

/-- TASK_START: an idle core takes a record from the pool of its die, which makes room for a waiting work unit. -/
def execTaskStart (id : CoreId) (s : State) : Host.Outcome State Fault Refusal :=
  if !s.mayStart id then .next s
  else
    let c := s.core id
    let d := s.dieOf id
    let pool := (s.die d).pool
    match s.pickRec c pool with
    | none => .next s
    | some (i, p) =>
      let rest := (passOver (s.ctx id.asid).par i p pool).eraseIdx i
      .next (((s.modDie d (fun x => { x with pool := rest })).startRec id p.rec_ p.rels).feedAll)

/-! ### Superstep completion (R279), with the precise stop of spec/21 R406 -/

/-- Nothing of the context moves: no word in a queue or an engine, no buffered store, no outstanding request. -/
def State.quiet (s : State) (asid : Nat) : Bool :=
  s.cores.all (fun c => c.id.asid != asid ||
    (c.eqm.pushes.isEmpty && c.eqv.pushes.isEmpty && c.eqc.pushes.isEmpty && c.eqp.pushes.isEmpty && c.flights.isEmpty
      && c.sb.isEmpty && c.rqout == 0))

def execSuperstepComplete (asid : Nat) (s : State) : Host.Outcome State Fault Refusal :=
  if !s.superReady asid then .next s
  else
    let here := (s.ctx asid).precise && s.quiet asid
    match s.completeSuper asid with
    | .blocked s => .next s
    | .done s =>
      if here then
        let s := s.modCtx asid (fun x => { x with precise := false })
        .next ((s.dbgStop asid 0x04 (s.ctx asid).n).stopAll asid)
      else .next s

/-! ### The governor (spec/12 R300, R301) -/

/-- Stage queues that a context configures. -/
def Ctx.stages (x : Ctx) : List Nat := (List.range 16).filter (fun q => x.qen q)

/-- Cores of a context on a die. -/
def Ctx.coresOn (x : Ctx) (d : Nat) : List CoreId := x.ids.filter (fun id => x.dieOf id.l == d)

/-- Cores of a die assigned to a stage. -/
def State.stageCores (s : State) (x : Ctx) (d q : Nat) : List CoreId :=
  (x.coresOn d).filter (fun id => (s.core id).stage == some q)

/-- First element with the greatest value of `f`. -/
def argMax (f : Nat → Int) : List Nat → Option Nat
  | [] => none
  | a :: as =>
    match argMax f as with
    | none => some a
    | some b => if f b > f a then some b else some a

/-- The governor's decision on a die: the core that moves and its new stage. -/
def State.govern (s : State) (x : Ctx) (d : Nat) : Option (CoreId × Nat) :=
  let sc1 := x.par.sc1
  let occ (q : Nat) : Nat := (x.sq d q).length
  let cores (q : Nat) : Nat := (s.stageCores x d q).length
  let waits (q : Nat) : Bool := (s.die d).pool.any (fun r => r.asid == x.asid && r.rec_.aff == 3 && r.rec_.sq == q)
  let hot := x.stages.filter (fun q => decide (occ q * 256 ≥ bits sc1 39 32 * x.qcap) || (cores q == 0 && waits q))
  let cold := x.stages.filter (fun p => decide (occ p * 256 ≤ bits sc1 31 24 * x.qcap) && decide (cores p > bits sc1 23 16))
  if cold.isEmpty then none
  else match argMax (fun q => (occ q : Int)) hot with
    | none => none
    | some q =>
      match argMax (fun p => -(occ p : Int)) (cold.filter (fun p => p != q)) with
      | none => none
      | some p =>
        let ids := s.stageCores x d p
        let idle := ids.filter (fun id => (s.core id).task.isNone)
        ((idle.getLast?).orElse (fun _ => ids.getLast?)).map (fun id => (id, q))

/-- The newest period boundary at or before `now`: a period in which nothing acted is not made up for (R306). -/
def periodAt (last per now : Nat) : Nat := now - (now - last) % per

/-- GOVERNOR_PERIOD on a die, once every `gper` times 64 ticks while the context runs. -/
def execGovernorPeriod (asid die : Nat) (s : State) : Host.Outcome State Fault Refusal :=
  match s.ctx? asid with
  | none => .next s
  | some x =>
    let per := bits x.par.sc1 63 44 * 64
    let last := ((x.lastGov.find? (fun p => p.1 == die)).map Prod.snd).getD x.since
    if per = 0 || x.run != .running || x.halt.isSome || x.preempt.isSome || !x.dies.contains die
        || decide (s.pcc die < last + per) then .next s
    else
      let s1 := s.modCtx asid (fun y => { y with lastGov := (die, periodAt last per (s.pcc die)) :: y.lastGov.filter (fun p => p.1 != die) })
      match s.govern x die with
      | some (id, q) => .next (s1.modCore id (fun c => { c with stage := some q }))
      | none => .next s1

/-! ### The balancer (spec/12 R302 to R305) -/

/-- Source, destination and load difference for a vector of loads, if there are two dies. -/
def balance (dies : List Nat) (load : Nat → Int) : Option (Nat × Nat × Int) :=
  match argMax load dies, argMax (fun d => -load d) dies with
  | some a, some b => if a = b then none else some (a, b, load a - load b)
  | _, _ => none

/-- Place in the order of R293, counted from its end: how many entries come after entry `i`. -/
def afterCount (es : List SqEntry) (i : Nat) : Nat :=
  match es[i]? with
  | none => 0
  | some e => ((List.range es.length).filter (fun j => match es[j]? with
      | some f => decide (f.key.toNat > e.key.toNat) || (f.key == e.key && decide (j > i))
      | none => false)).length

/-- Move the `n` last entries of queue `q` from die `a` towards die `b` (R304). DESIGN CHOICE: a source that holds fewer by then, since
`n` comes from the vector read earlier, gives what it holds (notes/assumptions/53.md). -/
def State.moveEntries (s : State) (asid q a b n : Nat) : State :=
  let es := (s.ctx asid).sq a q
  let out := (List.range es.length).filterMap (fun i => if afterCount es i < n then es[i]? else none)
  let kept := (List.range es.length).filterMap (fun i => if afterCount es i < n then none else es[i]?)
  let s := s.modCtx asid (fun x => { x with
    squeues := x.squeues.filter (fun e => !(e.1 == a && e.2.1 == q)) ++ kept.map (fun e => (a, q, e)) })
  { s with transit := s.transit ++ [.entries asid q b out] }

/-- Move the `n` records that entered the pool of die `a` latest, of affinity die or stage, towards die `b` (R304). -/
def State.moveRecs (s : State) (asid a b n : Nat) : State :=
  let pool := (s.die a).pool
  let can (p : PoolRec) : Bool := p.asid == asid && decide (p.rec_.aff ≥ 2)
  let later (i : Nat) : Nat := ((pool.drop (i + 1)).filter can).length
  let pick (i : Nat) : Bool := match pool[i]? with
    | some p => can p && decide (later i < n)
    | none => false
  let out := (List.range pool.length).filterMap (fun i => if pick i then pool[i]? else none)
  let kept := (List.range pool.length).filterMap (fun i => if pick i then none else pool[i]?)
  let s := s.modDie a (fun d => { d with pool := kept })
  { s with transit := s.transit ++ [.recs asid b (out.map (fun p => { p with home := b }))] }

/-- Occupancies of the sixteen queues of a context on a die, and its runnable records that may move less its idle cores (R302). -/
def State.loadVector (s : State) (x : Ctx) (d : Nat) : List Nat × Int :=
  ((List.range 16).map (fun q => (x.sq d q).length),
   ((s.die d).pool.countP (fun p => p.asid == x.asid && decide (p.rec_.aff ≥ 2)) : Nat)
     - ((x.coresOn d).countP (fun id => (s.core id).task.isNone) : Nat))

/-- The balancer reads the vector of a die, for its next command. -/
def State.readLoads (s : State) (asid d : Nat) : State :=
  match s.ctx? asid with
  | none => s
  | some x =>
    if x.run != .running || x.halt.isSome || x.preempt.isSome || !x.dies.contains d then s
    else s.modCtx asid (fun y => { y with loads := (d, s.pcc (x.dies.headD 0), s.loadVector x d) :: y.loads.filter (fun p => p.1 != d) })

/-- BALANCER_PERIOD, once every `bper` times 64 ticks while the context runs. The vector of a die is one read since the boundary at
which the present period began, or the present one; every load is read before any migration. -/
def execBalancerPeriod (asid : Nat) (s : State) : Host.Outcome State Fault Refusal :=
  match s.ctx? asid with
  | none => .next s
  | some x =>
    let sc0 := x.par.sc0
    let per := bits sc0 19 0 * 64
    let thr : Int := bits x.par.sc1 15 0
    let now := s.pcc (x.dies.headD 0)
    if per = 0 || x.run != .running || x.halt.isSome || x.preempt.isSome || decide (now < x.lastBal + per) then .next s
    else
      let s1 := s.modCtx asid (fun y => { y with lastBal := periodAt x.lastBal per now, loads := [] })
      let began := periodAt x.lastBal per now
      let vector (d : Nat) : List Nat × Int :=
        ((x.loads.find? (fun p => p.1 == d && decide (began ≤ p.2.1))).map (fun p => p.2.2)).getD (s.loadVector x d)
      let occ (q d : Nat) : Nat := (vector d).1.getD q 0
      let s2 := (x.stages.filter (fun q => bit sc0 (24 + q))).foldl (fun t q =>
        match balance x.dies (fun d => (occ q d : Int)) with
        | none => t
        | some (a, b, diff) =>
          let n := min (diff.toNat / 2) (min 4096 (x.qcap - occ q b))
          if diff ≥ thr && decide (n > 0) then t.moveEntries asid q a b n else t) s1
      .next (if bit sc0 23 then
        match balance x.dies (fun d => (vector d).2) with
        | none => s2
        | some (a, b, diff) =>
          let n := min (diff.toNat / 2) 256
          if diff ≥ thr && decide (n > 0) then s2.moveRecs asid a b n else s2
      else s2)

/-- MIGRATION_ARRIVAL: what is at place `i` of the transit arrives in one action; records published on another die arrive
the same way. What finds no room waits (notes/assumptions/56.md). -/
def execMigrationArrival (i : Nat) (s : State) : Host.Outcome State Fault Refusal :=
  match s.transit[i]? with
  | none => .next s
  | some t => if s.transitFits t then .next (State.arrive { s with transit := s.transit.eraseIdx i } t) else .next s

/-! ### The log drain (spec/14 R324 to R326, R329) -/

/-- Bytes 0 to 7 of a slot. -/
def slotHead (win : Nat) (atom : Bool) (spc szc seq : Nat) : Nat :=
  win % 2 ^ 16 * 2 ^ 48 + (if atom then 2 ^ 47 else 0) + spc * 2 ^ 44 + szc * 2 ^ 40 + seq % 2 ^ 40

def slotBytes (head addr : Nat) (old : List Byte) : List Byte :=
  leBytes 8 head ++ leBytes 8 addr ++ old ++ List.replicate (16 - old.length) 0

/-- Size code of an entry of 1, 2, 4, 8 or 16 bytes. -/
def szCode (n : Nat) : Nat := if n = 1 then 0 else if n = 2 then 1 else if n = 4 then 2 else if n = 8 then 3 else 4

/-- The slots of a memory entry with their bytes. -/
def LogEntry.image (x : Ctx) (e : LogEntry) : List (Nat × List Byte) :=
  let addr := match e.place with
    | .scratch l a => x.pcn l * 2 ^ 52 + a
    | .hbm sl pa => sl * 2 ^ 52 + pa
    | p => p.addr
  if e.block then
    e.slots.mapIdx (fun i k =>
      if i = 0 then (k, slotBytes (slotHead e.win e.atom e.spc 5 e.seq) addr (leBytes 8 e.old.length))
      else (k, slotBytes (slotHead e.win e.atom e.spc 6 e.seq) (16 * (i - 1)) ((e.old.drop (16 * (i - 1))).take 16)))
  else e.slots.map (fun k => (k, slotBytes (slotHead e.win e.atom e.spc (szCode e.old.length) e.seq) addr e.old))

/-- The slots of a checkpoint. -/
def Ckpt.image (k : Ckpt) : List (Nat × List Byte) :=
  k.units.map (fun u =>
    (u.slot, slotBytes (slotHead k.win false (if u.reg then 3 else 4) 4 k.seq) (if u.reg then 16 * u.idx else u.idx)
      (leBytes 16 u.val)))

/-- The slot of an input entry. -/
def InputEnt.image (i : InputEnt) : Nat × List Byte :=
  (i.slot, slotBytes (slotHead i.win false 5 7 i.seq) i.count (leBytes 8 i.kind ++ leBytes 8 i.val.toNat))

/-- Write bytes of a ring slot through the context's translation; a refusal raises LOG_RING_FAULT on the core charged, and
the write is not retried. -/
def State.ringWrite (s : State) (id : CoreId) (k : Nat) (bs : List Byte) : State :=
  let x := s.ctx id.asid
  let va := sext54 (x.par.logring.toNat + 32 * k)
  let (s, bad) := s.foundIn (some id.asid) (s.walkDamage (x.dieOf id.l) id.asid (va.toNat % 2 ^ 54))
  if bad then s.raiseHalt id.asid 0x34 id.l
  else match s.translate (x.dieOf id.l) id.asid false va .store with
  | .ok (.hbm sl pa) =>
    let s := s.touch id.asid (s.stackOf pa)
    if s.hbmWriteRefusal sl pa bs.length = 0 then s.hbmWrite sl pa bs else s.raiseHalt id.asid 0x34 id.l
  | _ => s.raiseHalt id.asid 0x34 id.l

/-- Markers of freed slots that no entry has taken since. -/
def State.markFreed (s : State) (id : CoreId) : State :=
  let used := s.ringUsed id.asid
  let ks := (s.ctx id.asid).freeing.filter (fun k => !used.contains k)
  let s := s.modCtx id.asid (fun x => { x with freeing := [] })
  ks.foldl (fun s k => s.ringWrite id k (List.replicate 8 0xFF#8)) s

/-- LOG_DRAIN: what the log buffer of a core holds goes to its ring slots, and freed slots get their markers. -/
def execLogDrain (id : CoreId) (s : State) : Host.Outcome State Fault Refusal :=
  let x := s.ctx id.asid
  let c := s.core id
  if !s.hasCore id then .next s
  else
    let ents := (x.log.filter (fun e => e.l == id.l && !e.drained)).flatMap (fun e => e.image x)
    let cks := (c.draining ++ c.ckpts.filter (fun k => !k.drained)).flatMap Ckpt.image
    let ins := (c.inputs.filter (fun i => !i.drained)).map InputEnt.image
    let s := s.markFreed id
    let s := s.modCtx id.asid (fun x => { x with log := x.log.map (fun e => if e.l = id.l then { e with drained := true } else e) })
    let s := s.modCore id (fun c => { c with
      ckpts := c.ckpts.map (fun k => { k with drained := true })
      draining := []
      inputs := c.inputs.map (fun i => { i with drained := true }) })
    .next ((cks ++ ents ++ ins).foldl (fun s w => s.ringWrite id w.1 w.2) s)

end Sys2Proof.Machine
end

