-- ==== Sys2Proof/Machine/Contexts.lean ====
section
/-! DEFINITION. Contexts as the dispatcher moves them: which benches are free (spec/11 R257, spec/22 R432), banks, pre-emption
and the scratchpad swap (spec/15 R370 to R372), spill and restore (R373), the time slice (spec/22 R432), and the end of a
context (spec/11 R288, spec/15 R361, spec/22 R430). -/

namespace Sys2Proof.Machine

/-! ### Banks (R257, R370) -/

/-- Contexts that hold a bank of a bench. -/
def State.residents (s : State) (b : Nat) : List Ctx := s.ctxs.filter (fun x => x.run != .spilled && x.benches.contains b)

/-- The running context of a bench. -/
def State.runnerOf (s : State) (b : Nat) : Option Ctx := s.ctxs.find? (fun x => x.run == .running && x.benches.contains b)

/-- A bench of an answering die with a free bank. -/
def State.bankFree (s : State) (b : Nat) : Bool := s.answers (b / 36) && decide ((s.residents b).length < 2)

/-- Bytes of a die's shadow store that scratchpad images of contexts that do not run take, `asid` not counted (R371). -/
def State.shadowUsed (s : State) (d asid : Nat) : Nat :=
  ((s.ctxs.filter (fun x => x.run != .running && x.asid != asid)).map (fun x =>
    4 * x.par.fp * x.benches.countP (fun b => b / 36 == d))).sum

/-- The shadow stores of the dies of some benches can hold scratchpad images of `fp` bytes per core (spec/01 R16). -/
def State.shadowRoom (s : State) (asid fp : Nat) (benches : List Nat) : Bool :=
  (List.range 8).all (fun d =>
    let k := benches.countP (fun b => b / 36 == d)
    k == 0 || decide (s.shadowUsed d asid + 4 * fp * k ≤ 96 * 2 ^ 20))

/-- Blocks of 4 KiB below F, by core. -/
def Ctx.blocks (x : Ctx) : List (Nat × Nat) :=
  (List.range x.n).flatMap (fun l => (List.range (x.par.fp / 4096)).map (fun b => (l, b)))

/-- The hidden pointers of every ring restart when the bank of the core is restored (spec/05 R109). -/
def CoreSt.restartRings (c : CoreSt) : CoreSt :=
  { c with rgp := Vector.ofFn (fun i : Fin 16 => ⟨BitVec.ofNat 16 (c.rg[i]).head, BitVec.ofNat 16 (c.rg[i]).tail⟩) }

/-- A context becomes running on its benches: its scratchpad blocks that went out are still to come in (spec/15 R372), the rings
of a core with no word in an engine restart, a bench's JMU starts without a lease, periods start afresh (spec/12 R306), and a
stop that was waiting for the context takes effect before any core issues (spec/21 R402). -/
def State.enter (s : State) (asid : Nat) : State :=
  let x := s.ctx asid
  let now := s.pcc (x.dieOf 0)
  let s := s.modCtx asid (fun x => { x with
    run := .running, since := now, lastGov := [], lastBal := now, loads := [], spillIn := x.swapped, swapped := [] })
  let s := x.ids.foldl (fun s id => s.modCore id (fun c => if c.flights.isEmpty then c.restartRings else c)) s
  let s := x.benches.foldl (fun s b => s.modDie (b / 36) (fun d => { d with
    leases := d.leases.modify (b % 36) (fun l => { l with holder := none, words := 0, ends := false }) })) s
  match x.halt with
  | some h => if h.reached then s else s.stopAll asid
  | none => s

/-- A banked context whose benches no context runs on. -/
def State.canEnter (s : State) (x : Ctx) : Bool := x.run == .banked && x.benches.all (fun b => (s.runnerOf b).isNone)

/-- Banked contexts whose benches have come free run again, in the order in which they were bound. -/
def State.switchIn (s : State) : Nat → State
  | 0 => s
  | fuel + 1 =>
    match s.ctxs.find? s.canEnter with
    | none => s
    | some x => (s.enter x.asid).switchIn fuel

/-! ### Pre-emption (R371) -/

/-- What a pre-emption does to a core: its promises are voided and a pending miss is discarded (spec/04 R85); a waiting
`gfuse`, a reservation and loads taken ahead end (notes/assumptions/23.md, 54.md). -/
def CoreSt.setAside (c : CoreSt) : CoreSt :=
  let void (q : EQueue) : EQueue := { q with pushes := q.pushes.map (fun p => { p with missed := true }) }
  { c with
    eqm := void c.eqm, eqv := void c.eqv, eqc := void c.eqc, eqp := void c.eqp
    pend := c.pend.filter (fun t => t.code != 0x21)
    fuse := none, resv := none, early := [] }

/-- Shadow-table entries of every core of a context merge, each charged to its own core (R371, spec/14 R327). -/
def State.mergeCtx (s : State) (ids : List CoreId) : Try := tryEach (fun s id => s.mergeOf id) s ids

/-- A context leaves its benches: it is banked, the blocks that are in its scratchpads still to be moved out; an atomic to host
memory that is still held leaves the hold buffer, to be made again. -/
def State.leave (s : State) (asid : Nat) : State :=
  let x := s.ctx asid
  let s := x.ids.foldl (fun s id => (s.dropHostAmo id).modCore id CoreSt.setAside) s
  let s := { s with bankq := s.bankq.filter (fun k => k.asid != asid) }
  s.modCtx asid (fun x => { x with run := .banked, preempt := none, swapped := x.spillIn, spillIn := [], spillAt := [], wanted := [] })

/-- Every core of a context stands at a boundary of R352. -/
def State.atBoundary (s : State) (x : Ctx) : Bool := x.ids.all (fun id => (s.core id).atBoundary)

/-- The context may be set aside for another one: `favour` is banked on benches that only it keeps busy, or, for none, a
launch waits. -/
def State.mayFavour (s : State) (x : Ctx) (favour : Option Nat) : Bool :=
  match favour with
  | some a => match s.ctx? a with
    | some y => y.run == .banked && y.benches.any (fun b => x.benches.contains b)
        && y.benches.all (fun b => match s.runnerOf b with
          | some z => z.asid == x.asid
          | none => true)
    | none => false
  | none => s.launch.next != s.launch.lqtail && x.benches.any (fun b => decide ((s.residents b).length < 2))

/-- Shadow-table entries that hold a contribution of a core of a context. -/
def State.hasShadow (s : State) (x : Ctx) : Bool :=
  x.ids.any (fun id => (s.die (s.dieOf id)).shadow.any (fun e => e.asid == id.asid && e.by_.contains id.l))

/-- PREEMPTION: the stores of the cores leave their buffers first, so that the swap is exact where no request is outstanding
(spec/15 R355); while one cannot, the pre-emption stays due. A pre-emption that is due happens once every core has reached a boundary and no halt line is up (R352). When
its beneficiary has gone it is dropped. -/
def execPreemption (asid : Nat) (favour : Option Nat) (s : State) : Host.Outcome State Fault Refusal :=
  match s.ctx? asid with
  | none => .next s
  | some x =>
    if x.run != .running || x.preempt != some favour || x.halt.isSome || !s.atBoundary x then .next s
    else if !s.mayFavour x favour then .next (s.modCtx asid (fun y => { y with preempt := none }))
    else if !s.shadowRoom asid x.par.fp x.benches then .next s
    else if x.ids.any s.storeWaits then .next (x.ids.foldl State.flush s)
    else match State.mergeCtx (x.ids.foldl State.flush s) x.ids with
      | .blocked t => .next t
      | .done t =>
        let t := t.leave asid
        match favour with
        | some a => .next (t.enter a)
        | none => .next t

/-- SLICE_EXPIRY: a context that has run for `slice` µs since it last became running is pre-empted, in favour of a context
banked on the same benches or of a waiting launch; which one, when several could, is the dispatcher's choice. -/
def execSliceExpiry (asid : Nat) (s : State) : Host.Outcome State Fault Refusal :=
  match s.ctx? asid with
  | none => .next s
  | some x =>
    let opts : List (Option Nat) := (s.ctxs.map (fun (y : Ctx) => some y.asid) ++ [none]).filter (fun f => s.mayFavour x f)
    if s.slice = 0 || x.run != .running || x.halt.isSome || x.preempt.isSome || opts.isEmpty
        || decide (s.pcc (x.dieOf 0) < x.since + s.slice.toNat * 1000) then .next s
    else
      let f := opts.getD (Config.freeIndex s.fresh % opts.length) none
      .next (s.bump.modCtx asid (fun y => { y with preempt := some f }))

/-! ### The scratchpad swap (R372) -/

/-- The bench at which core `l` of a context stands, and its number there. -/
def Ctx.seat (x : Ctx) (l : Nat) : Nat × Nat := (x.benchOf l, l % 4)

/-- SCRATCHPAD_SWAP of block `block` at core `core` (a logical core of the context that goes out, or of the one that comes in
when the other has gone): the spill engine has moved all of it (`State.spillUnits`), so the block is in. -/
def execScratchpadSwap (out into core block : Nat) (s : State) : Host.Outcome State Fault Refusal :=
  match s.ctx? out, s.ctx? into with
  | some x, some y =>
    if x.run != .banked || y.run != .running || core ≥ x.n then .next s
    else match y.lAt (x.seat core).1 (x.seat core).2 with
      | some k => if s.blockMoved into (k, block) then .next (s.bringIn into (k, block)) else .next s
      | none => .next s
  | none, some y =>
    if y.run != .running || !(s.outgoing into core).isEmpty || !s.blockMoved into (core, block) then .next s
    else .next (s.bringIn into (core, block))
  | _, _ => .next s

/-! ### Spill and restore (R373) -/

/-- CONTEXT_SPILL of a banked context: its requests are acknowledged, its words retired, its migrations arrived, its additions merged (spec/09
R219). Its state is
then in the veneer, and the S bits are clear (spec/06 R144). A stopped context is not spilled (spec/21 R402), and one of the
concurrent class stays resident (spec/11 R290). -/
def execContextSpill (asid : Nat) (s : State) : Host.Outcome State Fault Refusal :=
  match s.ctx? asid with
  | none => .next s
  | some x =>
    let still := x.ids.all (fun id =>
      let c := s.core id
      c.rqout == 0 && c.flights.isEmpty && c.sb.isEmpty && c.late.isEmpty)
    let s1 := (s.arriveAll asid)
    if s.hasShadow x && x.run == .banked then .next (State.mergeCtx s x.ids).state
    else if x.run != .banked || x.halt.isSome || x.par.pclass = 2 || !still || s1.transit.any (fun t => t.asid == asid) then .next s
    else
      let s := s1
      let s := x.ids.foldl (fun s id => s.modCore id (fun c => { c with sLines := 0, sRegs := 0 })) s
      .next (s.modCtx asid (fun x => { x with run := .spilled, swapped := x.blocks, spillIn := [] }))

/-- The die that takes over from die `d` when a context moves: that of the first logical core that was on `d`. -/
def Ctx.movedDie (old new : Ctx) (d : Nat) : Nat :=
  match (List.range old.n).find? (fun l => old.dieOf l == d) with
  | some l => new.dieOf l
  | none => d

/-- A context's records, stage queues and held items follow it to the dies of another partition
(notes/assumptions/24.md). -/
def State.rehome (s : State) (old new : Ctx) : State :=
  let mine := (List.range 8).flatMap (fun d => ((s.die d).pool.filter (fun p => p.asid == old.asid)).map (fun p => (d, p)))
  let held := (List.range 8).flatMap (fun d => ((s.die d).egress.filter (fun h => h.owner.1 == old.asid)))
  let s := { s with dies := s.dies.map (fun (x : Die) => { x with
    pool := x.pool.filter (fun p => p.asid != old.asid)
    egress := x.egress.filter (fun h => h.owner.1 != old.asid) }) }
  let s := mine.foldl (fun s m =>
    let d := if m.2.home = old.dieOf m.2.rec_.lcn then new.dieOf m.2.rec_.lcn else old.movedDie new m.1
    s.modDie d (fun x => { x with pool := x.pool ++ [{ m.2 with home := d }] })) s
  let s := held.foldl (fun s h => s.modDie (new.dieOf h.owner.2.1) (fun x => { x with egress := x.egress ++ [h] })) s
  s.modCtx old.asid (fun x => { x with
    squeues := x.squeues.map (fun e => (old.movedDie new e.1, e.2.1, e.2.2))
    lastGov := [] })

/-- The benches form a partition of `k` benches with a free bank each. -/
def State.partitionOk (s : State) (k : Nat) (bs : List Nat) : Bool :=
  bs.length == k && bs.all (fun b => decide (b < 288) && s.bankFree b) && decide (bs.Pairwise (fun a b => a < b))

/-- Stage-queue entries that the contexts bound on a die reserve (spec/12 R291). -/
def State.stageShare (s : State) (d : Nat) : Nat :=
  ((s.ctxs.filter (fun x => x.dies.contains d)).map (fun x => x.stages.length * x.qcap)).sum

/-- The dies of another partition have room for a context: beside a running context for its scratchpad image (R373), for its
share of the stage-queue store, and for its entries in every queue that takes over more than one (spec/12 R291), and its
records in the pools (spec/11 R262). -/
def State.restoreRoom (s : State) (old new : Ctx) : Bool :=
  let moved := old.squeues.map (fun e => (old.movedDie new e.1, e.2.1))
  let recs := (List.range 8).flatMap (fun d => ((s.die d).pool.filter (fun p => p.asid == old.asid)).map (fun p =>
    if p.home = old.dieOf p.rec_.lcn then new.dieOf p.rec_.lcn else old.movedDie new d))
  let others : State := { s with ctxs := s.ctxs.filter (fun x => x.asid != old.asid) }
  (!new.benches.any (fun b => (s.runnerOf b).isSome) || s.shadowRoom old.asid old.par.fp new.benches)
    && (new.stages.isEmpty || new.dies.all (fun d => decide (others.stageShare d + new.stages.length * new.qcap ≤ 2 ^ 22)))
    && moved.all (fun k => decide (moved.countP (fun j => j == k) ≤ new.qcap))
    && new.dies.all (fun d => decide ((s.die d).pool.countP (fun p => p.asid != old.asid) + recs.countP (fun e => e == d) ≤ 8192))

/-- Bind banks of some benches: of each bench the one that no resident context has; which of two free ones is the dispatcher's
choice. Graves in them go (spec/15 R361). -/
def State.takeBanks (s : State) (benches : List Nat) : State × List (Nat × Nat) :=
  let bank (i b : Nat) : Nat × Nat := match (s.residents b).findSome? (fun x => x.banks.find? (fun p => p.1 == b)) with
    | some p => (b, 1 - p.2)
    | none => (b, if Config.freeBool (s.fresh + i) then 1 else 0)
  let bs := benches.mapIdx bank
  ({ s with fresh := s.fresh + benches.length, graves := s.graves.filter (fun g => !bs.contains (g.bench, g.bank)) }, bs)

/-- CONTEXT_RESTORE of a spilled context into banks of a partition of the same size; each task keeps its number, the
touched-dies mask gains the new dies, and the register space of its banks is written (spec/23 R443). -/
def execContextRestore (asid : Nat) (benches : List Nat) (s : State) : Host.Outcome State Fault Refusal :=
  match s.ctx? asid with
  | none => .next s
  | some x =>
    let y : Ctx := { x with benches }
    if x.run != .spilled || !s.partitionOk x.benches.length benches || !s.restoreRoom x y then .next s
    else
      let (s, banks) := (s.rehome x y).takeBanks benches
      let s := s.modCtx asid (fun c => { c with benches, banks, run := .banked })
      let s := y.dies.foldl (fun s d => s.touch asid d) s
      let s := y.ids.foldl (fun s id => s.injectAt 1 (ownKey id) (y.pcn id.l) 0 0x20000) s
      .next (s.switchIn s.ctxs.length)

/-! ### The end of a context -/

/-- Slot of a queue position (spec/22 R430). -/
def LaunchBlk.slotOf (b : LaunchBlk) (i : Nat) : Nat :=
  if b.lqsize = 0 then 0 else (b.lqhslot + (BitVec.ofNat 32 i - b.lqhead).toNat) % b.lqsize

/-- The dispatcher writes `status` into the slot of a position, by device PA under the shared key slot (spec/11 R287). -/
def State.putStatus (s : State) (i v : Nat) : State :=
  let pa := s.launch.lqbase.toNat + s.launch.slotOf i * 128 + 120
  if s.hbmRefusal 1024 pa 8 = 0 then s.hbmWrite 1024 pa (leBytes 8 v) else s

/-- The add of 1 to the doubleword at `done`, as an atomic at the task level through the tables; none when it is refused. -/
def State.putDone (s : State) (par : LaunchPar) : State :=
  let va := sext54 par.doneVa.toNat
  let (s, bad) := if par.doneVa.toNat % 8 ≠ 0 then (s, true)
    else s.foundIn (some par.asid) (s.walkDamage 8 par.asid (va.toNat % 2 ^ 54))
  if bad then s
  else match s.translate 8 par.asid false va .amo with
    | .ok (.hbm sl pa) =>
      let s := s.dmaMet (some par.asid) pa 8
      if s.hbmRefusal sl pa 8 = 0 then s.hbmWrite sl pa (leBytes 8 ((leNat (s.hbmBytes sl pa 8) + 1) % 2 ^ 64)) else s
    | .ok (.hostBulk pa) =>
      if Config.hostAtomicOps 8 then
        s.hostAccept pa (leBytes 8 ((leNat (s.host.readBytes pa 8) + 1) % 2 ^ 64))
      else s
    | .ok (.hostCoh pa) => s.hostAccept pa (leBytes 8 ((leNat (s.host.readBytes pa 8) + 1) % 2 ^ 64))
    | _ => s

/-- `lqhead` moves past finished slots while every earlier one is finished (spec/22 R430). -/
def LaunchBlk.advance (b : LaunchBlk) : Nat → LaunchBlk
  | 0 => b
  | fuel + 1 =>
    if b.fin.contains b.lqhead.toNat then
      LaunchBlk.advance { b with
        fin := b.fin.filter (fun i => i != b.lqhead.toNat)
        lqhead := b.lqhead + 1
        lqhslot := if b.lqsize = 0 then 0 else (b.lqhslot + 1) % b.lqsize } fuel
    else b

/-- A queue position is finished. -/
def State.finish (s : State) (i : Nat) : State :=
  let b : LaunchBlk := { s.launch with fin := i % 2 ^ 32 :: s.launch.fin }
  { s with launch := b.advance b.fin.length }

/-- Everything that a context's cores still have under way towards memory is performed: store buffers, edge queues, shadow
entries. -/
def State.flushCtx (s : State) (asid : Nat) : State :=
  let x := s.ctx asid
  let s := s.drainCores x.ids
  let s := x.dies.foldl (fun s d => (s.edgeWhere d (fun w => w.asid == asid) (s.die d).edge.length).state) s
  (s.mergeCtx x.ids).state

/-- Bench of a context's partition that a stop record is of: its unit's, or the first on the unit's die. -/
def Ctx.recBench (x : Ctx) (r : StopRec) : Nat :=
  let n := leNat (r.take 8)
  let u := n / 2 ^ 37 % 2 ^ 11
  if n / 2 ^ 56 ≤ 3 then u / 256 * 36 + u % 256 / 4 else (x.benches.find? (fun b => b / 36 == u / 256)).getD 0

/-- What a context leaves in its banks. -/
def State.gravesOf (s : State) (x : Ctx) : List Grave :=
  x.banks.map (fun p => ⟨x.asid, x.qpos, p.1, p.2,
    (x.recs.mapIdx (fun i r => (i, r))).filter (fun r => x.recBench r.2 == p.1),
    s.cores.filter (fun c => c.id.asid == x.asid && x.benchOf c.id.l == p.1)⟩)

/-- A context is freed with an outcome: status, `done`, and everything the device held of it goes; its banks keep its stop
records and the last state of its cores until they hold another context; banked contexts run on the benches that came free. -/
def State.freeCtx (s : State) (asid status : Nat) : State :=
  let x := s.ctx asid
  let s := ((s.flushCtx asid).putStatus x.qpos status).putDone x.par
  let s := s.dropDamage asid
  let s := { s with
    ctxs := s.ctxs.filter (fun y => y.asid != asid)
    cores := s.cores.filter (fun c => c.id.asid != asid)
    dies := s.dies.map (fun (d : Die) => { d with
      pool := d.pool.filter (fun p => p.asid != asid)
      edge := d.edge.filter (fun w => w.asid != asid)
      shadow := d.shadow.filter (fun e => e.asid != asid)
      egress := d.egress.filter (fun h => h.owner.1 != asid) })
    msgs := s.msgs.filter (fun m => m.asid != asid)
    incrs := s.incrs.filter (fun i => i.asid != asid)
    transit := s.transit.filter (fun t => t.asid != asid)
    bankq := s.bankq.filter (fun k => k.asid != asid)
    ports := s.ports.map (fun (p : Port) => if p.bv && p.basid == asid then { p with bv := false } else p)
    graves := s.graves ++ s.gravesOf x }
  let s := if s.attached asid then { s with dbg := { s.dbg with state := 6, busy := false, todo := none } } else s
  let s := s.finish x.qpos
  (s.switchIn s.ctxs.length).feedAll

end Sys2Proof.Machine
end

