-- ==== Sys2Proof/Machine/Traps.lean ====
section
/-! DEFINITION. Trap entry and pending traps as steps of their own (spec/15 R352, R353), the halt line (R356 to R359), abort and
abort agreement (R361 to R364), resuming with held completions (R358), die loss (R369). -/

namespace Sys2Proof.Machine

/-! ### Traps at a boundary -/

/-- TRAP_ENTRY: a due handler entry is made before the core's next instruction (R352 step 5). -/
def execTrapEntry (id : CoreId) (s : State) : Host.Outcome State Fault Refusal :=
  if s.mayRun id && (s.core id).due.isSome then .next (({ s with note := .none }.makeDue id).afterRun [id]) else .next s

/-- TAKE_PENDING_TRAP: the oldest pending trap is taken at a task-level boundary (R352 step 6, R353). -/
def execTakePendingTrap (id : CoreId) (s : State) : Host.Outcome State Fault Refusal :=
  if (s.gangOf id).all s.mayRun && (s.core id).pendReady && (s.core id).rewinding.isNone then
    .next ((s.takePending id).afterRun [id])
  else .next s

/-! ### The halt line -/

/-- HALT: the line that is up reaches every unit of its context. A rewind in progress ends first (spec/14 R344); a debugger
stop of a context that does not run waits for its return (spec/21 R402). -/
def execHalt (asid : Nat) (s : State) : Host.Outcome State Fault Refusal :=
  match s.ctx? asid with
  | none => .next s
  | some x =>
    match x.halt with
    | none => .next s
    | some h =>
      if h.reached || (h.cause == 0 && x.run != .running) || x.ids.any (fun id => (s.core id).rewinding.isSome) then .next s
      else .next (s.stopAll asid)

/-- Words of `q` in flight. -/
def CoreSt.flightsOf (c : CoreSt) (q : Queue) : List Flight := c.flights.filter (fun f => f.q == q)

/-- WORD_SUSPEND: the copy or population word at place `i` of those in flight on its queue is suspended 4 µs after the halt
(R359). A copy word moves whole units, so it always stands at a boundary. -/
def execWordSuspend (id : CoreId) (q : Queue) (i : Nat) (s : State) : Host.Outcome State Fault Refusal :=
  match ((s.core id).flightsOf q)[i]?, (s.ctx id.asid).halt with
  | some f, some h =>
    if (q != .eqc && q != .eqp) || f.suspended || !s.holds id f || decide (s.pcc (s.dieOf id) < h.tick + 4000) then .next s
    else
      let s := s.modFlight id f.uid (fun g => { g with suspended := true })
      match (s.core id).flights.find? (fun g => g.uid == f.uid) with
      | some g => .next (s.settleRec id g)
      | none => .next s
  | _, _ => .next s

/-- Every unit of a halted context has settled: no word is in an engine but suspended ones. Units of a die that is lost or under reset are gone. -/
def State.settledCtx (s : State) (x : Ctx) : Bool :=
  x.ids.all (fun id => !s.answers (x.dieOf id.l) || ((s.core id).flights.all (fun f => f.suspended) && (s.core id).sb.isEmpty))

/-- CONTEXT_ABORT: a faulted context without undo ends once its units have settled; one that lost a die of its partition ends
whatever its undo mode (R361, R369). -/
def execContextAbort (asid : Nat) (s : State) : Host.Outcome State Fault Refusal :=
  match s.ctx? asid with
  | none => .next s
  | some x =>
    match x.halt with
    | none => .next s
    | some h =>
      if h.reached && h.cause != 0 && (x.par.undo == 0 || h.cause == 0x26) && s.settledCtx x then .next (s.freeCtx asid 3)
      else .next s

/-! ### Resuming (R358, spec/21 R407) -/

/-- Held words take effect in the order of their retirement until one must wait; the rest follow in that order when they can. -/
def State.completeHeld (s : State) : List Held → State
  | [] => s
  | h :: hs =>
    let id : CoreId := ⟨h.asid, h.l⟩
    let full := h.flight.result.isSome && decide (((s.core id).queue h.flight.q).fifo.length ≥ fifoCap h.flight.q)
    if full then s
    else match s.retireFlight id h.flight with
      | .blocked s => s
      | .done s => State.completeHeld s hs

/-- The halt is lifted: held completions take effect, suspended words go on, and every core continues from where it stands. -/
def State.resumeCtx (s : State) (asid : Nat) : State :=
  let x := s.ctx asid
  let s := s.modCtx asid (fun x => { x with halt := none, held := [], owed := x.held.map (fun h => (h.l, h.flight.uid)) })
  let s := x.ids.foldl (fun s id => s.modCore id (fun c => { c with
    stopped := false, fcause := none, stepping := false, replay := none
    flights := (x.held.filter (fun h => h.l == id.l)).map (fun h => h.flight)
      ++ c.flights.map (fun f => { f with suspended := false }) })) s
  s.completeHeld x.held

/-! ### Rewinding a halted core (R339 under R363 and spec/21 R408) -/

/-- Run the pieces of the words in flight of a core that are not suspended. -/
def State.finishWords (s : State) (id : CoreId) : State :=
  (s.core id).flights.foldl (fun s f =>
    s.copyAll id f.uid ((f.pieces.map (fun p => p.n / 2048 + 2)).sum + 1)) s

/-- The words in flight of a halted core end: those of windows from `w` on are dropped, suspended ones among them; the others
retire with their completions held, but for suspended ones, which stay. -/
def State.endWords (s : State) (id : CoreId) (w : Nat) : State :=
  let c := s.core id
  let gone (f : Flight) : Bool := c.win.fromOn w f.win
  let s := s.modCore id (fun c => { c with flights := c.flights.filter (fun f => !gone f) })
  (s.core id).flights.foldl (fun s f => if f.suspended then s else (s.retireFlight id f).state) s

/-- Refusals on their way back enter the pending queue. -/
def State.takeLate (s : State) (id : CoreId) : State :=
  (s.core id).late.foldl (fun s t => ((s.modCore id (fun c => { c with late := c.late.drop 1 })).ack id).pendTrap id t) s

/-- Messages and signals of a core that can be delivered are, in the order of sending (R354). -/
def State.settleMsgs (s : State) (id : CoreId) : Nat → State
  | 0 => s
  | fuel + 1 =>
    let s := s.sendOne id
    let s := match s.msgs.findIdx? (fun m => m.asid == id.asid && m.src == id.l && s.inOrder m.asid m.src m.dst m.ord) with
      | some i => (match execMessageDelivery i s with | .next t => t | _ => s)
      | none => s
    let s := match s.incrs.findIdx? (fun r => r.asid == id.asid && r.src == id.l && s.inOrder r.asid r.src r.dst r.ord) with
      | some i => (match execCounterIncrement i s with | .next t => t | _ => s)
      | none => s
    State.settleMsgs s id fuel

/-- Everything that a halted core has sent towards memory and other cores arrives, as far as it can: `rqout` is 0 unless a
request must wait (R339, R354). -/
def State.settleRequests (s : State) (id : CoreId) : State :=
  let s := ((s.drainCore id).state).takeLate id
  s.settleMsgs id ((s.core id).outq.length + s.msgs.length + s.incrs.length)

/-- What a halted core has under way ends: its words retire with their completions held, its requests arrive (R364). -/
def State.settleCore (s : State) (id : CoreId) : State :=
  let s := s.finishWords id
  let s := (s.core id).flights.foldl (fun s f => if f.suspended then s else (s.retireFlight id f).state) s
  s.settleRequests id

/-- `rewind_core(w)` on a halted core: its words end, its requests arrive, held completions of windows from `w` on are
discarded, and the core stands at its checkpoint. -/
def State.haltRewind (s : State) (id : CoreId) (w : Nat) : State :=
  let s := s.modCore id (fun c => c.rewindStart w)
  let s := (s.finishWords id).endWords id w
  let s := s.settleRequests id
  let x := (s.core id).win
  let s := s.modCtx id.asid (fun y => { y with held := y.held.filter (fun h => !(h.l == id.l && x.fromOn w h.flight.win)) })
  (s.rewindCore id w).state

/-- The superstep state that a rewind of a whole context to window `w` leaves (spec/14 R340). -/
def State.rewindSuper (s : State) (asid w : Nat) : State :=
  let x := s.ctx asid
  let s := s.modCtx asid (fun y => { y with sscnt := BitVec.ofNat 32 w })
  x.ids.foldl (fun s i => s.modCore i (fun c => { c with sstepAt := none, sstepBy := none, sstepDone := false })) s

/-! ### Abort agreement (R362, R363) -/

/-- Peers of the faulting core. -/
def State.peers (s : State) (x : Ctx) (h : HaltInfo) : List CoreId :=
  if x.par.undo = 2 then x.ids
  else
    let grp := ((s.core ⟨x.asid, h.l⟩).task.map TaskRec.grp).getD 0
    x.ids.filter (fun id => id.l == h.l || ((s.core id).task.isSome && x.inGroup grp (s.core id).lcn))

/-- Signed 32-bit difference of two window values. -/
def winDiff (v base : BitVec 32) : Int := (v - base).toInt

/-- The agreed window: the least h among the peers, counted from X's h, when every peer has an uncommitted window and none
has its o above it. -/
def State.agree (s : State) (h : HaltInfo) (asid : Nat) (peers : List CoreId) : Option (BitVec 32) :=
  match (s.core ⟨asid, h.l⟩).win.unc with
  | none => none
  | some (_, hx) =>
    let wins := peers.map (fun id => (s.core id).win.unc)
    if wins.any Option.isNone then none
    else
      let ws := wins.filterMap (fun u => u)
      let a := ws.foldl (fun m u => if winDiff u.2 hx < winDiff m hx then u.2 else m) hx
      if ws.any (fun u => winDiff u.1 hx > winDiff a hx) then none else some a

/-- The trap record of ABORT_TOKEN (R350). -/
def abortToken (h : HaltInfo) (a : BitVec 32) : TrapInfo :=
  ⟨0x27, a.setWidth 64, word (h.lcn % 2 ^ 24 + h.cause * 2 ^ 24), word h.tick⟩

/-- ABORT_TOKEN takes the head of a peer's pending queue; a full queue raises TRAP_OVERFLOW (R353). -/
def State.pendToken (s : State) (id : CoreId) (t : TrapInfo) : State :=
  if (s.core id).pend.length ≥ 64 then s.raiseHalt id.asid 0x33 id.l
  else s.modCore id (fun c => { c with pend := t :: c.pend })

/-- Agreement and what follows it: rewinds, the lift of the halt, and ABORT_TOKEN at the head of each peer's queue; or the end
of the context. -/
def State.settleAbort (s : State) (asid : Nat) : State :=
  let x := s.ctx asid
  match x.halt with
  | none => s
  | some h =>
    let ps := s.peers x h
    match s.agree h asid ps with
    | none => s.freeCtx asid 3
    | some a =>
      let s := ps.foldl (fun s id => s.haltRewind id a.toNat) s
      let s := if x.par.undo = 2 then s.rewindSuper asid a.toNat else s
      let s := s.resumeCtx asid
      ps.foldl (fun s id => s.pendToken id (abortToken h a)) s

/-- ABORT_AGREEMENT: once the stop is complete, unless the fault came while the debug block served the context
(spec/21 R405), when RESUME runs it. -/
def execAbortAgreement (asid : Nat) (s : State) : Host.Outcome State Fault Refusal :=
  match s.ctx? asid with
  | none => .next s
  | some x =>
    match x.halt with
    | none => .next s
    | some h =>
      if h.reached && h.cause != 0 && h.cause != 0x26 && x.par.undo != 0 && !(s.attached asid && s.dbg.state != 0) && s.settledCtx x
          && (s.peers x h).all (fun id => (s.core id).rqout == 0) then .next (s.settleAbort asid)
      else .next s

/-! ### Die loss (R369) -/

/-- What the loss or the reset of a die does to contexts: a partition with a bench there faults; a context that touched the
die elsewhere takes DIE_LOST on every core; stage-queue entries held there or on their way there are lost (spec/12 R306). -/
def State.dieGone (s : State) (d : Nat) : State :=
  let s := { s with transit := s.transit.filter (fun t => match t with
    | .recs _ e _ => e != d
    | .entries _ _ e _ => e != d) }
  let s : State := { s with ctxs := s.ctxs.map (fun (x : Ctx) =>
      if x.run == RunSt.spilled then x else { x with squeues := x.squeues.filter (fun e => e.1 != d) }) }
  s.ctxs.foldl (fun s x =>
    match (if x.run = .spilled then none else x.ids.find? (fun id => x.dieOf id.l == d)) with
    | some id => s.raiseHalt x.asid 0x26 id.l
    | none =>
      if x.tdm.getLsbD d then x.ids.foldl (fun s id => s.pendTrap id ⟨0x26, word d, word x.tdm.toNat, 0⟩) s else s) s

/-- A die is lost (R368): it goes through REROUTE and ends ABSENT (spec/22 R419). -/
def State.loseDie (s : State) (d : Nat) : State :=
  ((s.modDie d (fun x => { x with lost := true, st := .reroute })).logEvent 0x03 d 0).dieGone d

/-- DIE_LOST. -/
def execDieLost (die : Nat) (s : State) : Host.Outcome State Fault Refusal :=
  if die ≥ 8 || (s.die die).lost || (s.die die).st == .absent then .next s else .next (s.loseDie die)

end Sys2Proof.Machine
end

