-- ==== Sys2Proof/Machine/Launch.lean ====
section
/-! DEFINITION. Launches (spec/11 R285 to R290, spec/12 R294, R295, spec/22 R428 to R432), translation control (spec/03 R68,
R69), host accesses to device HBM (R75), and writes to plain register fields. -/

namespace Sys2Proof.Machine

/-! ### The launch parameter block (R285) -/

/-- Field of `n` bytes at byte `o` of a block. -/
def blockNat (bs : List Byte) (o n : Nat) : Nat := leNat ((bs.drop o).take n)

/-- Bits `hi` to `lo` of a field value. -/
def fieldOf (v hi lo : Nat) : Nat := v / 2 ^ lo % 2 ^ (hi - lo + 1)

/-- The launch parameters of a block. -/
def LaunchPar.ofBlock (bs : List Byte) : LaunchPar :=
  { entry := word (blockNat bs 0 8 % 2 ^ 54), units := blockNat bs 8 4, pclass := blockNat bs 12 1 % 4,
    sbck := blockNat bs 13 1 % 2 == 1, nb := blockNat bs 14 2, fp := blockNat bs 16 4, asid := blockNat bs 20 2 % 1024,
    lfull := fieldOf (blockNat bs 22 2) 3 2, undo := blockNat bs 22 2 % 4, seed := word (blockNat bs 24 8),
    xb := (List.range 4).map (fun k => word (blockNat bs (32 + 8 * k) 8)),
    arg0 := word (blockNat bs 64 8), arg1 := word (blockNat bs 72 8), sc0 := word (blockNat bs 80 8),
    sc1 := word (blockNat bs 88 8), doneVa := word (blockNat bs 96 8 % 2 ^ 54), logring := word (blockNat bs 104 8 % 2 ^ 54),
    logsize := blockNat bs 112 4 }

/-- A reserved bit of a block is nonzero (reason 0x01; for `stagecfg` by R295). DESIGN CHOICE: bits [63:54] of the `done` and `logring`
doublewords, which the table of R285 leaves out, are reserved too (notes/assumptions/53.md). -/
def blockReserved (bs : List Byte) : Bool :=
  blockNat bs 0 8 / 2 ^ 54 != 0 || blockNat bs 12 1 / 4 != 0 || blockNat bs 13 1 / 2 != 0
  || blockNat bs 20 2 / 1024 != 0 || blockNat bs 22 2 / 16 != 0
  || (List.range 4).any (fun k => blockNat bs (32 + 8 * k) 8 / 2 ^ 29 != 0)
  || fieldOf (blockNat bs 80 8) 42 40 != 0 || fieldOf (blockNat bs 80 8) 22 20 != 0 || fieldOf (blockNat bs 88 8) 43 40 != 0
  || blockNat bs 96 8 / 2 ^ 54 != 0 || blockNat bs 104 8 / 2 ^ 54 != 0 || blockNat bs 116 4 != 0

/-- The rules of R295. -/
def LaunchPar.stageBad (p : LaunchPar) : Bool :=
  let qen := bits p.sc0 63 48
  let qlog := bits p.sc0 47 43
  let bmask := bits p.sc0 39 24
  let bper := bits p.sc0 19 0
  let gper := bits p.sc1 63 44
  let ghi := bits p.sc1 39 32
  let glo := bits p.sc1 31 24
  let k := popcount 16 qen
  (qen != 0 && (decide (qlog < 8) || decide (22 < qlog) || decide (2 ^ 22 < k * 2 ^ qlog)))
  || (qen == 0 && qlog != 0)
  || bmask &&& (0xFFFF ^^^ qen) != 0
  || (bper == 0 && (bmask != 0 || bit p.sc0 23 || bits p.sc1 15 0 != 0))
  || (bper != 0 && bits p.sc1 15 0 == 0)
  || (gper != 0 && (decide (k < 2) || ghi == 0 || decide (ghi ≤ glo)))
  || (gper == 0 && (ghi != 0 || glo != 0 || bits p.sc1 23 16 != 0))

/-- The rules of spec/14 R324 for the log ring. -/
def LaunchPar.ringBad (p : LaunchPar) : Bool :=
  let lr := p.logring.toNat
  if p.undo = 0 then lr != 0 || p.logsize != 0 || p.lfull != 0
  else lr % 16384 != 0 || bit p.logring 53 || p.logsize % 1024 != 0 || decide (2 ^ 31 < p.logsize)
    || decide (p.logsize < 16384 * (if p.undo = 2 then 4 * p.nb else 1))

/-- An exchange block breaks reason 0x08. -/
def LaunchPar.xbBad (p : LaunchPar) : Bool :=
  p.xb.any (fun w => decide (256 < bits w 28 20) || bits w 19 0 % 32 != 0 || decide (p.fp < bits w 19 0 + 32 * bits w 28 20))

/-- First failing reason of R286 up to 0x0B; 0 for none. -/
def State.launchReason (s : State) (bs : List Byte) : Nat :=
  let p := LaunchPar.ofBlock bs
  if blockReserved bs then 0x01
  else if p.units > 2 ^ 24 then 0x02
  else if p.pclass = 3 then 0x03
  else if p.nb = 0 ∨ p.nb > 36 * popcount 8 s.lmask.toNat then 0x04
  else if p.fp % 4096 ≠ 0 ∨ p.fp < 4096 ∨ p.fp > 786432 then 0x05
  else if (match s.rootOf p.asid with
    | .ok _ => false
    | .error _ => true) || (s.ctx? p.asid).isSome then 0x06
  else if p.undo = 3 || p.lfull = 3 || p.ringBad then 0x07
  else if p.xbBad then 0x08
  else if p.pclass = 2 ∧ p.units > 4 * p.nb then 0x09
  else if p.entry.toNat % 4 ≠ 0 || bit p.entry 53 || p.doneVa.toNat % 8 ≠ 0 then 0x0A
  else if p.stageBad then 0x0B
  else 0

/-- VA of the runtime descriptor (R289). -/
def descriptorVa : Word := 0xFFE0000000000000#64

/-- The runtime descriptor of an ASID, read with runtime-level permissions through the tables (no die's caches). -/
def State.descriptor (s : State) (asid : Nat) : Option (Word × Word × Word) :=
  match s.translate 8 asid true descriptorVa .load with
  | .error _ => none
  | .ok p =>
    if s.placeRefusal asid p 32 ≠ 0 then none
    else
      let bs := match p with
        | .hbm sl pa => s.hbmBytes sl pa 32
        | .hostBulk pa => s.host.readBytes pa 32
        | .hostCoh pa => s.host.readBytes pa 32
        | .dev off => (List.range 4).flatMap (fun k => leBytes 8 (s.busRead (off + 8 * k)).1.toNat)
        | _ => []
      let v := word (blockNat bs 0 8)
      let t := word (blockNat bs 8 8)
      if bits v 63 54 != 0 || bits v 1 0 != 0 || bits t 55 54 != 0 || bits t 5 0 != 0 || blockNat bs 24 8 != 0 then none
      else some (v, t, word (blockNat bs 16 8))

/-- What the dispatcher's read of the descriptor meets: damaged table entries and damage in the descriptor's own bytes are
corrected, or poison their units and so refuse the read (spec/23 R442). -/
def State.descriptorMet (s : State) (asid : Nat) : State :=
  let (s, bad) := s.foundIn (some asid) (s.walkDamage 8 asid (descriptorVa.toNat % 2 ^ 54))
  if bad then s
  else match s.translate 8 asid true descriptorVa .load with
    | .ok (.hbm _ pa) => s.dmaMet (some asid) pa 32
    | _ => s

/-! ### Placement (R432) -/

/-- Free benches of a die, lowest first. -/
def State.freeBenches (s : State) (d : Nat) : List Nat := ((List.range 36).map (fun b => d * 36 + b)).filter s.bankFree

/-- Sublists of `k` members, in lexicographic order. -/
def choose : Nat → List Nat → List (List Nat)
  | 0, _ => [[]]
  | _ + 1, [] => []
  | k + 1, x :: xs => (choose k xs).map (fun c => x :: c) ++ choose (k + 1) xs

/-- Pack: the first smallest set of dies with room, benches filled die by die. -/
def State.packBenches (s : State) (k : Nat) : Option (List Nat) :=
  let fits (ds : List Nat) : Bool := decide (k ≤ (ds.map (fun d => (s.freeBenches d).length)).sum)
  (((List.range 9).flatMap (fun n => choose n (List.range 8))).find? fits).map (fun ds => (ds.flatMap s.freeBenches).take k)

/-- Spread: one bench per die in turn. -/
def State.spreadBenches (s : State) (k : Nat) : Option (List Nat) :=
  let order := (List.range 36).flatMap (fun r => (List.range 8).filterMap (fun d => (s.freeBenches d)[r]?))
  let got := order.take k
  if got.length = k then some ((List.range 288).filter (fun b => got.contains b)) else none

/-- Mask: the lowest masked benches. -/
def State.maskBenches (s : State) (k : Nat) : Option (List Nat) :=
  let got := ((List.range 288).filter (fun b => (vget s.bmasks (b / 36) 0).getLsbD (b % 36) && s.bankFree b)).take k
  if got.length = k then some got else none

/-- The benches that a launch of `k` binds under the policy. -/
def State.place (s : State) (k : Nat) : Option (List Nat) :=
  if s.pmode = 1 then s.spreadBenches k else if s.pmode = 2 then s.maskBenches k else s.packBenches k

/-- The share of a launch is free on every die of its benches. -/
def State.shareFree (s : State) (p : LaunchPar) (benches : List Nat) : Bool :=
  let x := Ctx.init p.asid p benches
  x.stages.isEmpty || x.dies.all (fun d => decide (s.stageShare d + x.stages.length * x.qcap ≤ 2 ^ 22))

/-! ### Binding (R288) -/

/-- Deal the cores of each die to the configured stage queues (spec/12 R300). -/
def Ctx.dealt (x : Ctx) (l : Nat) : Option Nat :=
  let qs := x.stages
  if qs.isEmpty then none
  else
    let k := ((List.range l).filter (fun j => x.dieOf j == x.dieOf l)).length
    qs[k % qs.length]?

/-- A fresh core of a launched context: R257's state reset, `ectl` from `sbck`, the runtime descriptor's values, its stage
and the scratchpad image below F. -/
def Ctx.freshCore (x : Ctx) (desc : Word × Word × Word) (img : Mem) (id : CoreId) : CoreSt :=
  let c := CoreSt.init id
  { c with
    csr := { c.csr with ectl := if x.par.sbck then 1 else 0, rtvec := desc.1, rtsvc := desc.2.1, tscratch := desc.2.2 }
    stage := x.dealt id.l
    scratch := img }

/-- The image as memory below F, in canonical form. -/
def imageMem (fp : Nat) (img : List (Nat × Byte)) : Mem :=
  (img.filter (fun p => decide (p.1 < fp))).foldl (fun m p => m.write p.1 [p.2]) []

/-- Every ring slot is marked free at launch (spec/14 R324). -/
def State.clearRing (s : State) (id : CoreId) : State :=
  (List.range (s.ctx id.asid).par.logsize).foldl (fun s k =>
    if (s.ctx id.asid).halt.isSome then s else s.ringWrite id k (List.replicate 8 0xFF#8)) s

/-- Bind a context and start it: steps 1 to 4 of R288. The register space of its banks is written at zero, its scratchpads with the image
(spec/23 R443). -/
def State.bind (s : State) (p : LaunchPar) (desc : Word × Word × Word) (benches : List Nat) (img : List (Nat × Byte)) : State :=
  let pos := s.launch.next.toNat
  let now := s.pcc (benches.headD 0 / 36)
  let free := benches.all (fun b => (s.runnerOf b).isNone)
  let x : Ctx := { Ctx.init p.asid p benches with run := .banked, qpos := pos, lastBal := now, since := now, swapped := if free then [] else (Ctx.init p.asid p benches).blocks }
  let mem := imageMem p.fp img
  let (s, banks) := (s.dropDamage p.asid).takeBanks benches
  let x := { x with banks }
  let s := { s with ctxs := s.ctxs ++ [x], cores := s.cores ++ x.ids.map (fun id => x.freshCore desc mem id) }
  let s := x.dies.foldl (fun s d => s.touch p.asid d) s
  let s := s.putStatus pos 1
  let s := if p.undo = 0 then s else s.clearRing ⟨p.asid, 0⟩
  let s := if p.undo = 2 then x.ids.foldl (fun s id => s.openWindow id 0 0 0) s else s
  let s := x.ids.foldl (fun s id => s.injectAt 1 (ownKey id) (x.pcn id.l) 0 0x20000) s
  let s := if free then x.ids.foldl (fun s id => s.injectAt 3 (ownKey id) (x.pcn id.l) 0 p.fp) (s.enter p.asid) else s
  if p.pclass = 2 then
    let s := (List.range p.units).foldl (fun s u => s.startRec ⟨p.asid, u⟩ (p.unitRec x.n u) []) s
    s.modCtx p.asid (fun x => { x with fed := p.units })
  else s.feed p.asid p.units

/-- The outcome of a launch that starts nothing. -/
def State.endLaunch (s : State) (p : LaunchPar) (status : Nat) (done : Bool) : State :=
  let pos := s.launch.next.toNat
  let s := s.putStatus pos status
  let s := if done then s.putDone p else s
  let s := { s with launch := { s.launch with next := s.launch.next + 1 } }
  s.finish pos

/-- LAUNCH_DISPATCH: the block at the dispatcher's position is read, validated and started; a launch that finds no bench, no
stage-queue share or no room in the shadow stores waits. With no live die every launch is rejected with reason 0x04
(spec/22 R421): the slot, its `status` and `done` lie in memory that is not there. `img` is the scratchpad image loaded at the launch (spec/02).
DESIGN CHOICE: a block with `done`[2:0] ≠ 0 gets no `done` write whatever the reason shown, where R287 names 0x0A
(notes/assumptions/53.md). -/
def execLaunchDispatch (img : List (Nat × Byte)) (s : State) : Host.Outcome State Fault Refusal :=
  let L := s.launch
  let pa := L.lqbase.toNat + L.slotOf L.next.toNat * 128
  if L.next = L.lqtail || L.lqsize = 0 then .next s
  else if s.capacity = 0 then .next (s.endLaunch (LaunchPar.ofBlock []) 0x84 false)
  else
    let s := s.dmaMet none pa 128
    if s.hbmRefusal 1024 pa 128 ≠ 0 then .next s
    else
    let bs := s.hbmBytes 1024 pa 128
    let p := LaunchPar.ofBlock bs
    let s := s.dmaMet (some p.asid) (s.asidbase.toNat + 8 * p.asid) 8
    let r := s.launchReason bs
    if r ≠ 0 then .next (s.endLaunch p (0x80 + r) (r ≠ 0x06 && blockNat bs 96 8 % 8 = 0))
    else
      let s := s.descriptorMet p.asid
      match s.descriptor p.asid with
      | none => .next (s.endLaunch p 0x8C true)
      | some desc =>
        if p.units = 0 then .next (s.endLaunch p 2 true)
        else match s.place p.nb with
          | none => .next s
          | some benches =>
            let free := benches.all (fun b => (s.runnerOf b).isNone)
            if !s.shareFree p benches || (!free && !s.shadowRoom p.asid p.fp benches) then .next s
            else
              let s := s.bind p desc benches img
              .next { s with launch := { s.launch with next := s.launch.next + 1 } }

/-- The context has no record running, runnable or waiting, and no word in a queue or an engine. -/
def State.completeCtx (s : State) (x : Ctx) : Bool :=
  x.halt.isNone && decide (x.par.units ≤ x.fed) &&
    x.ids.all (fun id =>
      let c := s.core id
      c.task.isNone && c.due.isNone && c.waiting.isEmpty && c.flights.isEmpty && c.rewinding.isNone
        && c.eqm.pushes.isEmpty && c.eqv.pushes.isEmpty && c.eqc.pushes.isEmpty && c.eqp.pushes.isEmpty) &&
    s.dies.all (fun d => d.pool.all (fun p => p.asid != x.asid)) &&
    s.transit.all (fun t => match t with
      | .recs a _ _ => a != x.asid
      | .entries .. => true)

/-- LAUNCH_COMPLETE: a context with nothing left commits its windows (spec/14 R338) and ends with status 2. -/
def execLaunchComplete (asid : Nat) (s : State) : Host.Outcome State Fault Refusal :=
  match s.ctx? asid with
  | none => .next s
  | some x =>
    if !s.completeCtx x then .next s
    else
      let s := s.flushCtx asid
      let s := x.ids.foldl (fun s id => match (s.core id).win.unc with
        | some (_, h) => s.commitTo id h
        | none => s) s
      .next (s.freeCtx asid 2)

/-! ### The launch doorbell (R429) -/

/-- A refused write to the launch block sets its `err`. -/
def State.launchErr (s : State) : State := { s with launch := { s.launch with err := true } }

/-- LAUNCH: a write of `v` to the doorbell. -/
def execLaunch (v : Word) (s : State) : Host.Outcome State Fault Refusal :=
  let L := s.launch
  if L.lqsize = 0 || bits v 63 32 != 0 || decide (L.lqsize < (v.setWidth 32 - L.lqhead).toNat) then .next s.launchErr
  else .next { s with launch := { L with lqtail := v.setWidth 32 } }

/-- LAUNCH_QUEUE_CONFIG_WRITE of `lqsize` or `lqbase`. -/
def execLaunchQueueConfigWrite (size : Bool) (v : Word) (s : State) : Host.Outcome State Fault Refusal :=
  let L := s.launch
  if L.lqtail ≠ L.lqhead then .next s.launchErr
  else if size then .next { s with launch := { L with lqsize := bits v 15 0, lqhslot := 0 } }
  else .next { s with launch := { L with lqbase := v &&& 0x000FFFFFFFFFFF80#64, lqhslot := 0 } }

/-! ### Translation control (spec/03 R68, R69) -/

/-- An invalidation joins the queue; a write to a full queue is held until an entry frees. -/
def State.queueInval (s : State) (i : Inval) : State :=
  if s.invq.length ≥ 16 then { s with invHeld := s.invHeld ++ [i] } else { s with invq := s.invq ++ [i] }

def execInvalidatePage (asid : BitVec 10) (vpn : BitVec 40) (s : State) : Host.Outcome State Fault Refusal :=
  .next (s.queueInval (.page asid.toNat vpn.toNat))

def execInvalidateAsid (asid : BitVec 10) (s : State) : Host.Outcome State Fault Refusal := .next (s.queueInval (.asid asid.toNat))

def execInvalidateAll (s : State) : Host.Outcome State Fault Refusal := .next (s.queueInval .all)

/-- INVALIDATE_REJECTED: kind 0b11 or a must-be-0 bit sets `err`. -/
def execInvalidateRejected (v : Word) (s : State) : Host.Outcome State Fault Refusal :=
  if bits v 63 62 = 3 || bits v 51 40 != 0 then .next { s with invErr := true } else .next s

/-- A cached leaf is removed by an invalidation. -/
def Inval.hitsLeaf (i : Inval) (t : TlbEnt) : Bool :=
  match i with
  | .all => true
  | .asid a => t.asid == a
  | .page a vpn => t.asid == a && t.tag / 8 == vpn * 2 ^ 14 / 2 ^ leafBits t.level

/-- A cached table pointer is removed by an invalidation. -/
def Inval.hitsPtr (i : Inval) (t : TlbEnt) : Bool :=
  match i with
  | .all => true
  | .asid a => t.asid == a
  | .page a vpn => t.asid == a && t.tag / 8 == vpn * 2 ^ 14 / 2 ^ (if t.level = 1 then 36 else 25)

/-- A buffered write may have been translated under an entry that an invalidation removes: of its ASID, and, for a page, in
the largest leaf that can cover it. -/
def Inval.concerns (i : Inval) (asid : Nat) (va : Word) : Bool :=
  match i with
  | .all => true
  | .asid a => asid == a
  | .page a vpn => asid == a && va.toNat % 2 ^ 54 / 2 ^ 36 == vpn * 2 ^ 14 / 2 ^ 36

/-- A held item holds a request that may have been translated so: a host write, a host atomic, a device-register write. -/
def HeldItem.concerned (h : HeldItem) (i : Inval) : Bool :=
  match h with
  | .host asid _ _ _ parts _ => parts.any (fun p => i.concerns asid p.va)
  | .atom asid _ _ va _ _ => i.concerns asid va
  | .devreg asid _ _ va _ _ _ => i.concerns asid va
  | .packet .. => false

/-- Every request translated under an entry that the invalidation removes has been performed at its memory. -/
def State.invalDone (s : State) (i : Inval) : Bool :=
  let clear (w : BufWrite) : Bool := w.place.isLocal || !i.concerns w.asid w.va
  s.cores.all (fun c => c.sb.all clear) &&
    s.dies.all (fun d => d.edge.all clear && d.egress.all (fun h => !h.concerned i) && d.shadow.all (fun e => match i with
      | .all => false
      | .asid a => e.asid != a
      | .page a _ => e.asid != a))

/-- INVALIDATION_COMPLETE of the oldest invalidation: no station holds what it removes. Until then a request may use the old or
the new translation, which the spec leaves open (spec/03 R69): in the model it uses a cached leaf for as long as the leaf is
there, and the leaves go in one act with the completion (the model's choice, notes/assumptions/53.md). -/
def execInvalidationComplete (s : State) : Host.Outcome State Fault Refusal :=
  match s.invq with
  | [] => .next s
  | i :: rest =>
    if !s.invalDone i then .next s
    else .next { s with
      invq := rest ++ s.invHeld.take 1
      invHeld := s.invHeld.drop 1
      dies := s.dies.map (fun (d : Die) => { d with
        leafs := d.leafs.filter (fun t => !i.hitsLeaf t), ptrs := d.ptrs.filter (fun t => !i.hitsPtr t) }) }

/-! ### Host accesses to device HBM (R75, R76) -/

/-- HOST_MEM_READ under the shared slot: damage it meets is found as for any access (spec/23 R442), and the bytes go to the host,
none from a range that is or comes out refused. -/
def execHostMemRead (pa n : Nat) (s : State) : Host.Outcome State Fault Refusal :=
  if s.hbmRefusal 1024 pa n ≠ 0 then .next s
  else
    let t := s.dmaMet none pa n
    if t.hbmRefusal 1024 pa n ≠ 0 then .next t
    else .next { t with hostReads := t.hostReads ++ [(pa, t.hbmBytes 1024 pa n)] }

/-- HOST_MEM_WRITE under the shared slot; a refused write writes nothing. -/
def execHostMemWrite (pa : Nat) (data : List Byte) (s : State) : Host.Outcome State Fault Refusal :=
  if data.isEmpty || s.hbmWriteRefusal 1024 pa data.length ≠ 0 then .next s else .next (s.hbmWrite 1024 pa data)


end Sys2Proof.Machine
end

