-- ==== Sys2Proof/Machine/Debug.lean ====
section
/-! DEFINITION. The debug block (spec/21 R401 to R412): attaching, commands, inspection, breakpoints and watchpoints, trace. -/

namespace Sys2Proof.Machine

/-! ### Helpers -/

/-- A refused command or write sets `err` and does nothing else (R402). -/
def State.dbgErr (s : State) : State := { s with dbg := { s.dbg with err := true } }

/-- Context the block serves. -/
def State.dbgCtx? (s : State) : Option Ctx := if s.dbg.en then s.ctx? s.dbg.asid else none

/-- Cores that `dcore` selects: all of the context, or the holder of `lcn`. -/
def State.dbgSel (s : State) : List CoreId :=
  if bit s.dbg.dcore 24 then (s.ctx s.dbg.asid).ids
  else if s.hasCore s.dbgCore then [s.dbgCore] else []

/-- A command may be given now: the block is attached, no command is in progress, and the state is one that R402 allows. -/
def State.mayCommand (s : State) (states : List Nat) : Bool := s.dbg.en && !s.dbg.busy && states.contains s.dbg.state

/-- A command that moves a core or changes its memory ends the situation in which REPLAY is allowed. -/
def State.noWin (s : State) : State := { s with dbg := { s.dbg with rewound := [] } }

/-- Any state but 6. -/
def anyState : List Nat := [0, 1, 2, 3, 4, 5]

/-! ### RESUME (R407) -/

/-- Lift the halt; a fault with undo runs abort agreement first (R405), when what the cores have under way has ended (spec/15
R364), and until then the command stays in progress; one without undo ends by R361. -/
def State.dbgResume (s : State) (asid : Nat) : State :=
  let x := s.ctx asid
  match x.halt with
  | none => { s with dbg := { s.dbg with state := 0 } }
  | some h =>
    if h.cause = 0 then
      let u := s.resumeCtx asid
      if u.dbg.state = 6 then u else { u with dbg := { u.dbg with state := 0 } }
    else if h.cause = 0x26 || x.par.undo = 0 then s
    else
      let t := x.ids.foldl State.settleCore s
      if t.settledCtx x && (t.peers x h).all (fun id => (t.core id).rqout == 0) then
        let u := t.settleAbort asid
        if u.dbg.state = 6 then u else { u with dbg := { u.dbg with state := 0, busy := false, todo := none } }
      else { t with dbg := { t.dbg with busy := true, todo := some .resume } }

/-- RESUME. -/
def execResume (s : State) : Host.Outcome State Fault Refusal :=
  if s.mayCommand [2, 3] && s.dbgCtx?.isSome then .next (s.noWin.dbgResume s.dbg.asid) else .next s.dbgErr

/-! ### Attach and detach (R402) -/

/-- Stop recording: no more entries, and the open windows are unrecorded (R410). -/
def State.recStop (s : State) (asid : Nat) : State :=
  let s := s.modCtx asid (fun x => { x with recording := false })
  { s with
    dbg := { s.dbg with rec_ := false }
    cores := s.cores.map (fun (c : CoreSt) =>
      if c.id.asid = asid then { c with ckpts := c.ckpts.map (fun k => { k with rec_ := false }) } else c) }

/-- Detach from the context: RESUME if it is stopped, REC_OFF, and every slot cleared. -/
def State.detach (s : State) : State :=
  let asid := s.dbg.asid
  if !s.dbg.en then s
  else
    let s := (s.unstep asid).modCtx asid (fun x => { x with precise := false })
    let stopped := s.dbg.state = 2 || s.dbg.state = 3 || s.dbg.state = 4
      || (s.dbg.state = 1 && ((s.ctx asid).halt.map HaltInfo.cause) = some 0)
    let s := if stopped && (s.ctx? asid).isSome then s.dbgResume asid else s
    let s := s.recStop asid
    { s with
      cores := s.cores.map (fun (c : CoreSt) =>
        if c.id.asid = asid then { c with bp := Vector.replicate 8 ⟨0, 0⟩, wp := Vector.replicate 4 ⟨0, 0⟩ } else c)
      dbg := { s.dbg with en := false, state := 6, busy := false, rewound := [], todo := none } }

/-- The block attaches to the context of ASID `a`: `state` 0, unless an earlier detachment left the context stopped. -/
def State.attach (s : State) (a : Nat) : State :=
  if s.attached a && s.dbg.state ≠ 6 then s
  else
    let s := s.detach
    let st := match (s.ctx a).halt with
      | some h => if h.cause = 0 && h.reached then (if s.cores.any (fun c => c.id.asid == a && c.memRw.isSome) then 5 else 2) else 0
      | none => 0
    { s with dbg := { s.dbg with en := true, asid := a, state := st, busy := false, rewound := [], rec_ := false } }

/-- DEBUG_ATTACH. -/
def execDebugAttach (asid : BitVec 10) (s : State) : Host.Outcome State Fault Refusal := .next (s.attach asid.toNat)

/-- DEBUG_DETACH: a write of `en` = 0 with the ASID that `dsel` holds. One with another ASID sets that too (REGISTER_WRITE). -/
def execDebugDetach (s : State) : Host.Outcome State Fault Refusal := .next s.detach

/-! ### Plain register fields -/

/-- Bit `i` of a written value clears a W1C bit. -/
def w1c (old : Bool) (v : Word) (i : Nat) : Bool := old && !bit v i

/-- REGISTER_WRITE at an offset: `dsel` (spec/21 R402), fields that a write sets and bits that writing 1 clears, and the values of `kop` and `ucmd`
that are refused (a write of 0x040 without `ucmd` that clears `err` is no command; notes/assumptions/27.md). -/
def execRegisterWrite (off : BitVec 24) (v : Word) (s : State) : Host.Outcome State Fault Refusal :=
  let o := off.toNat % 0x10000
  let g := s.dbg
  let m := s.mgmt
  .next (match off.toNat / 0x10000 with
    | 0 => if o = 0x020 then { s with launch := { s.launch with err := w1c s.launch.err v 32 } } else s
    | 1 =>
      if o = 0x000 then { s with asidbase := v &&& 0x000FFFFFFFFFFC00#64 }
      else if o = 0x010 then { s with invErr := w1c s.invErr v 1 }
      else s
    | 2 =>
      match o with
      | 0x000 =>
        if bit v 10 then s.attach (bits v 9 0) else { s.detach with dbg := { s.detach.dbg with asid := bits v 9 0 } }
      | 0x008 => { s with dbg := { g with dcore := v &&& 0x1FFFFFF#64 } }
      | 0x010 => { s with dbg := { g with darg := v } }
      | 0x020 => { s with dbg := { g with err := w1c g.err v 7 } }
      | 0x058 => { s with dbg := { g with dloc := v &&& 0x0F0FFFFF#64 } }
      | 0x068 => { s with dbg := { g with dslot := v &&& 0xF#64 } }
      | 0x070 => { s with dbg := { g with baddr := v } }
      | 0x078 => { s with dbg := { g with bctl := v.setWidth 8 } }
      | 0x080 => { s with dbg := { g with sridx := bits v 15 0 } }
      | _ => s
    | 3 => if o = 0x010 then { s with pkgErr := w1c s.pkgErr v 32 } else s
    | 4 =>
      if o = 0x008 then { s with keys := { s.keys with err := w1c s.keys.err v 1 } }
      else if o = 0x000 && (bits v 63 13 != 0 || bits v 12 11 == 3) then { s with keys := { s.keys with err := true } }
      else s
    | 5 =>
      if o = 0 then { s with pmode := BitVec.ofNat 2 (bits v 33 32), slice := v.setWidth 32 }
      else if o % 8 = 0 ∧ o ≤ 0x40 then { s with bmasks := vset s.bmasks (o / 8 - 1) (v.setWidth 36) }
      else s
    | 6 =>
      if o < 32 * 12 ∧ o % 32 = 8 then
        { s with ports := s.ports.modify (o / 32) (fun p => { p with bv := bit v 10, basid := bits v 9 0 }) }
      else s
    | 0x10 =>
      match o with
      | 0x000 => { s with mgmt := { m with sidx := bits v 15 0 } }
      | 0x018 => { s with mgmt := { m with evslot := bits v 9 0 } }
      | 0x030 => { s with mgmt := { m with ubase := v &&& 0x000FFFFFFFFFF000#64 } }
      | 0x038 => { s with mgmt := { m with ulen := bits v 25 0 } }
      | 0x040 =>
        let refused := bits v 1 0 == 3 || (bits v 1 0 == 0 && !bit v 8)
        { s with mgmt := { m with err := refused || (m.err && !bit v 8) } }
      | 0x058 => { s with mgmt := { m with eslot := bits v 11 8, earr := bits v 7 0 } }
      | _ => s
    | _ => s)

/-! ### STOP and STEP (R405 to R407) -/

/-- STOP: now, or at the next precise point; it is in progress until the context has stopped (R402). A STOP now also ends the wait for a precise point and a STEP or REPLAY. -/
def execStop (s : State) : Host.Outcome State Fault Refusal :=
  let g := s.dbg
  match s.dbgCtx? with
  | none => .next s.dbgErr
  | some x =>
    if bit g.darg 0 then
      if g.state = 0 && !g.busy then
        .next ({ s.noWin with dbg := { s.noWin.dbg with state := 1, busy := true } }.modCtx x.asid (fun x => { x with precise := true }))
      else .next s.dbgErr
    else if (g.state = 0 && !g.busy) || (g.state = 1 && x.precise) then
      let s := (s.noWin.modCtx x.asid (fun x => { x with precise := false })).dbgStop x.asid 3 x.n
      .next { s with dbg := { s.dbg with busy := true } }
    else if g.state = 4 then .next ((s.dbgStop x.asid 3 x.n).settleStep x.asid)
    else .next s.dbgErr

/-- Selected cores, a gang with all of its members. -/
def State.stepSel (s : State) : List CoreId := (s.dbgSel.flatMap s.gangOf).dedup

/-- STEP. -/
def execStep (s : State) : Host.Outcome State Fault Refusal :=
  let sel := s.stepSel
  if !s.mayCommand [2, 3] || sel.isEmpty || s.dbgCtx?.isNone then .next s.dbgErr
  else
    let s := sel.foldl (fun s id => s.modCore id (fun c => { c with stepping := true, replay := none })) s.noWin
    .next { s with dbg := { s.dbg with prev := s.dbg.state, state := 4, busy := true } }

/-! ### Rewind (R408, R409) -/

/-- Age of a store sequence number of a core; negative for a number it has not yet given out. -/
def CoreSt.seqAge (c : CoreSt) (q : Nat) : Int := (c.storeSeq - BitVec.ofNat 40 q).toInt

/-- Rewind one core to window `w`; a memory rewind to a number before the window stays (R345), but for a rewind to the oldest
uncommitted window, before which no entry was applied. -/
def State.dbgRewind (s : State) (id : CoreId) (w : Nat) : State :=
  let c := s.core id
  let back (m : Nat) : Bool := match c.ckpts.find? (fun k => k.win == w) with
    | some k => decide (c.seqAge m ≤ c.seqAge k.seq) || c.win.pos w == 0
    | none => true
  let keep := c.memRw.filter (fun m => !back m)
  (s.haltRewind id w).modCore id (fun c => { c with memRw := keep })

/-- The rewind of cores of a context to window `w`, once every request of theirs has arrived; until then the command is in progress
(spec/14 R339, R402). -/
def State.rewindWin (s : State) (x : Ctx) (w : Nat) (ids : List CoreId) : State :=
  let t := ids.foldl State.settleRequests s
  if ids.any (fun id => (t.core id).rqout != 0) then
    { t with dbg := { t.dbg with busy := true, todo := some (.rewind w (ids.map CoreId.l)) } }
  else
    let s := ids.foldl (fun s id => s.dbgRewind id w) t
    let s := if x.par.undo = 2 then s.rewindSuper x.asid w else s
    let still := s.cores.any (fun c => c.id.asid == x.asid && c.memRw.isSome)
    { s with dbg := { s.dbg with state := if still then 5 else 3, rewound := (s.dbg.rewound ++ ids.map CoreId.l).dedup, busy := false, todo := none } }

/-- The command in progress goes on, as far as it can. -/
def State.goOn (s : State) : State :=
  match s.dbgCtx?, s.dbg.todo with
  | some x, some (.rewind w ls) => s.rewindWin x w (ls.map (fun l => ⟨x.asid, l⟩))
  | some x, some .resume => s.dbgResume x.asid
  | _, _ => s

/-- REWIND_WIN. A request of a core that cannot arrive while the context is halted keeps the command in progress (R339, R402). -/
def execRewindWin (s : State) : Host.Outcome State Fault Refusal :=
  let w := s.dbg.darg.toNat % 2 ^ 32
  match s.dbgCtx? with
  | none => .next s.dbgErr
  | some x =>
    let ids := if x.par.undo = 2 then x.ids else s.dbgSel
    if !s.mayCommand [2, 3, 5] || ids.isEmpty || ids.any (fun id => !(s.core id).win.has w) then .next s.dbgErr
    else .next (s.rewindWin x w ids)

/-- REWIND_SEQ: entries from the number on are applied in descending order, marked, and kept (R345). -/
def execRewindSeq (s : State) : Host.Outcome State Fault Refusal :=
  let q := s.dbg.darg.toNat % 2 ^ 40
  let id := s.dbgCore
  let c := s.core id
  if !s.mayCommand [2, 3, 5] || bit s.dbg.dcore 24 || !s.hasCore id || s.dbgCtx?.isNone then .next s.dbgErr
  else
    let hit (e : LogEntry) : Bool := e.l == id.l && c.win.has e.win && decide (c.seqAge e.seq ≤ c.seqAge q)
    let es := sortEntries c.storeSeq.toNat ((s.ctx id.asid).log.filter hit)
    let s := es.foldl (fun s e => s.applyEntry id.asid e) s
    let s := s.modCtx id.asid (fun x => { x with log := x.log.map (fun e => if hit e then { e with applied := true } else e) })
    let old := match c.memRw with
      | some m => if c.seqAge m ≤ c.seqAge q then q else m
      | none => q
    let s := (s.modCore id (fun c => { c with memRw := some old })).noWin
    .next { s with dbg := { s.dbg with state := 5 } }

/-! ### Replay (R410, R411) -/

/-- The core stands at the start of a recorded window that a rewind has just restored. -/
def CoreSt.replayReady (c : CoreSt) : Bool :=
  c.memRw.isNone && c.dicnt == 0 && c.pfx.isNone &&
    (match c.win.unc with
     | some (_, h) => c.ckpts.any (fun k => k.win == h.toNat && k.rec_)
     | none => false)

/-- REPLAY. A core whose target is already reached stops at once. -/
def execReplay (s : State) : Host.Outcome State Fault Refusal :=
  let sel := s.stepSel
  if !s.mayCommand [3] || sel.any (fun id => !s.dbg.rewound.contains id.l) || sel.isEmpty || s.dbgCtx?.isNone || !sel.all (fun id => (s.core id).replayReady) then .next s.dbgErr
  else
    let n := s.dbg.darg.toNat
    let s := sel.foldl (fun s id => s.modCore id (fun c => { c with
      stepping := true, replay := some ⟨n⟩, inputs := c.inputs.map (fun i => { i with used := false }) })) s.noWin
    let s := { s with dbg := { s.dbg with prev := s.dbg.state, state := 4, busy := true } }
    .next (s.afterRun sel)

/-- REC_ON needs undo. -/
def execRecordOn (s : State) : Host.Outcome State Fault Refusal :=
  match s.dbgCtx? with
  | none => .next s.dbgErr
  | some x =>
    if !s.mayCommand anyState || x.par.undo = 0 then .next s.dbgErr
    else
      let s := s.modCtx x.asid (fun x => { x with recording := true })
      .next { s with dbg := { s.dbg with rec_ := true } }

/-- REC_OFF. -/
def execRecordOff (s : State) : Host.Outcome State Fault Refusal :=
  if !s.mayCommand anyState then .next s.dbgErr else .next (s.recStop s.dbg.asid)

/-! ### Slots (R403) -/

/-- The staged slot breaks a limit of R403. -/
def DbgBlk.slotBad (g : DbgBlk) : Bool :=
  let wlg := g.bctl.toNat / 8
  if bit g.dslot 3 then
    decide (bits g.dslot 2 0 > 3) || decide (wlg > 12) || decide (g.baddr.toNat % 2 ^ wlg ≠ 0)
      || (!g.bctl.getLsbD 1 && !g.bctl.getLsbD 2)
  else g.baddr.toNat % 4 != 0

/-- SLOT_SET in the selected cores. -/
def execSlotSet (s : State) : Host.Outcome State Fault Refusal :=
  let g := s.dbg
  let k := bits g.dslot 2 0
  if !s.mayCommand anyState || g.slotBad || s.dbgSel.isEmpty then .next s.dbgErr
  else
    let v : DbgSlot := ⟨g.baddr, g.bctl⟩
    .next (s.dbgSel.foldl (fun s id => s.modCore id (fun c =>
      if bit g.dslot 3 then { c with wp := vset c.wp k v } else { c with bp := vset c.bp k v })) s)

/-- SLOT_GET from the selected core. -/
def execSlotGet (s : State) : Host.Outcome State Fault Refusal :=
  let g := s.dbg
  let k := bits g.dslot 2 0
  let c := s.core s.dbgCore
  if !s.mayCommand anyState || bit g.dcore 24 || (bit g.dslot 3 && decide (k > 3)) || !s.hasCore s.dbgCore then .next s.dbgErr
  else
    let v := if bit g.dslot 3 then vget c.wp k ⟨0, 0⟩ else vget c.bp k ⟨0, 0⟩
    .next { s with dbg := { s.dbg with baddr := v.addr, bctl := v.ctl } }

/-! ### Refused commands -/

/-- A value of `dcmd` that names no command. -/
def dcmdBad (v : Word) : Bool := decide (v.toNat ≥ 16) || v == 0 || decide (v.toNat > 0xA)

/-- DEBUG_COMMAND_REFUSED: a value that names no command, or any command while the block is detached or busy. -/
def execDebugCommandRefused (v : Word) (s : State) : Host.Outcome State Fault Refusal :=
  if dcmdBad v || !s.dbg.en || s.dbg.busy then .next s.dbgErr else .next s

/-! ### Inspection (R407) -/

/-- DDATA_READ: a refused load sets `err`. -/
def execDdataRead (s : State) : Host.Outcome State Fault Refusal := .next (s.busRead 0x20060).2

/-- A doubleword of a state unit is written; of unit 79 the resume PC. -/
def CoreSt.unitPut (c : CoreSt) (off : Nat) (v : Word) : CoreSt :=
  let u := off / 2
  if u = 79 then (if off % 2 = 0 then { c with pc := sext54 (v.toNat % 2 ^ 54 / 4 * 4) } else c)
  else
    let old := c.unitGet u c.pc 0
    let new := if off % 2 = 0 then old / 2 ^ 64 * 2 ^ 64 + v.toNat else old % 2 ^ 64 + v.toNat * 2 ^ 64
    let c := c.unitSet u new
    if u < 32 then c.dirtyReg (2 * u + off % 2) else c

/-- What a store to `ddata` does to the selected core: nothing is logged, and dirty bits are set. -/
def State.ddataPut (s : State) (v : Word) : State :=
  let off := bits s.dbg.dloc 19 0
  let id := s.dbgCore
  match bits s.dbg.dloc 27 24 with
  | 0 => s.modCore id (fun c => c.wx (BitVec.ofNat 5 off) v)
  | 1 => s.modCore id (fun c => c.wf (BitVec.ofNat 5 off) v)
  | 2 => s.modCore id (fun c => { c with csr := c.csr.set off v })
  | 3 => s.writeRegSpace id off (leBytes 8 v.toNat)
  | 4 => s.writeScratch id.asid id.l off (leBytes 8 v.toNat)
  | _ => s.modCore id (fun c => c.unitPut off v)

/-- DDATA_WRITE: refused outside states 2, 3 and 5, beyond a space, and for an RO CSR. -/
def execDdataWrite (v : Word) (s : State) : Host.Outcome State Fault Refusal :=
  if !s.ddataOk || (bits s.dbg.dloc 27 24 == 2 && csrReadOnly (bits s.dbg.dloc 19 0)) then .next s.dbgErr
  else .next (s.ddataPut v)

/-! ### Hits (R404) -/

/-- BREAKPOINT_HIT: the core's next action is the fetch of a parcel at an enabled breakpoint. -/
def execBreakpointHit (id : CoreId) (s : State) : Host.Outcome State Fault Refusal :=
  let ids := s.gangOf id
  if !ids.all s.mayRun || (s.core (s.leader id)).due.isSome
      || ids.any (fun m => (s.core m).pendReady || (s.core m).awaited 3 || (s.core m).rewinding.isSome) then .next s
  else match ids.findSome? (fun m => s.breakStop m) with
    | some t => .next (t.afterRun ids)
    | none => .next s

/-- The instructions whose accesses watchpoints see. -/
def accessRun (i : Instr) (s : State) : Host.Outcome State Fault Refusal :=
  match i with
  | .load op rd rs1 imm => execLoad op rd rs1 imm s
  | .store op rs1 rs2 imm => execStore op rs1 rs2 imm s
  | .amo op dbl aq rl rd rs1 rs2 => execAmo op dbl aq rl rd rs1 rs2 s
  | .lr dbl aq rl rd rs1 => execLr dbl aq rl rd rs1 s
  | .sc dbl aq rl rd rs1 rs2 => execSc dbl aq rl rd rs1 rs2 s
  | .floatOp op => execFloatOp op s
  | .lda sz sc rd rs1 imm => execLda sz sc rd rs1 imm s
  | .stl sz sc rs1 rs2 imm => execStl sz sc rs1 rs2 imm s
  | .redaddW rs1 rs2 => execRedaddW rs1 rs2 s
  | .redaddD rs1 rs2 => execRedaddD rs1 rs2 s
  | .redaddF rs1 rs2 => execRedaddF rs1 rs2 s
  | .samo op sc off dbl rd rs1 rs2 => execSamo op sc off dbl rd rs1 rs2 s
  | .msend rs1 rs2 len => execMsend rs1 rs2 len s
  | .mpop rd ib rs1 => execMpop rd ib rs1 s
  | .vld vw rs1 imm => execVld vw rs1 imm s
  | .vst vw rs1 imm => execVst vw rs1 imm s
  | .tld vw col rs1 imm => execTld vw col rs1 imm s
  | .tst vw col rs1 imm => execTst vw col rs1 imm s
  | .xmv dst src => execXmv dst src s
  | _ => .next s

/-- WATCHPOINT_HIT: the core's next instruction makes a watched access, and the context stops before it is made. Hits of
engine words are taken when the word makes its access. -/
def execWatchpointHit (id : CoreId) (s : State) : Host.Outcome State Fault Refusal :=
  let raised (t : State) : Bool := t.dbg.why == 2 && (s.dbg.why != 2 || ((s.ctx id.asid).halt.isNone && (t.ctx id.asid).halt.isSome))
  match s.asEvent id accessRun with
  | .next t => if raised t then .next t else .next s
  | _ => .next s

/-! ### Trace (R412, R413) -/

/-- TRACE_CONFIG_WRITE: `trbase`, `trsize` and `sper` change only while `trk` is 0. -/
def execTraceConfigWrite (off : BitVec 24) (v : Word) (s : State) : Host.Outcome State Fault Refusal :=
  let g := s.dbg
  match off.toNat with
  | 0x20038 =>
    if g.trk ≠ 0 ∧ bits v 13 8 ≠ g.sper then .next s.dbgErr
    else .next { s with dbg := { g with sper := bits v 13 8, trk := v.setWidth 6 } }
  | 0x20040 =>
    let b := v &&& 0x003FFFFFFFFFFFE0#64
    if g.trk ≠ 0 ∧ b ≠ g.trbase then .next s.dbgErr else .next { s with dbg := { g with trbase := b } }
  | 0x20048 =>
    let n := bits v 31 0
    if g.trk ≠ 0 ∧ n ≠ g.trsize then .next s.dbgErr else .next { s with dbg := { g with trsize := n } }
  | _ => .next s

/-- TRACE_SAMPLE of a core at a multiple of the sample period. -/
def execTraceSample (id : CoreId) (s : State) : Host.Outcome State Fault Refusal :=
  let c := s.core id
  if !s.hasCore id || !s.attached id.asid || (s.ctx id.asid).run != .running || s.pcc (s.dieOf id) % 2 ^ s.dbg.sper ≠ 0 then .next s
  else .next (s.trace 0x02 id c.pc (word ((if c.runtime then 2 ^ 24 else 0) + c.lcnOrNone)))

end Sys2Proof.Machine
end

