-- ==== Sys2Proof/Machine/Xmss.lean ====
section
/-! DEFINITION. The signature of an image (spec/22 R420): XMSS with parameter set XMSS-SHAKE256_10_256. The spec names the
function; what it computes is the published standards (notes/assumptions/57.md). -/

namespace Sys2Proof.Machine

/-! ### SHAKE256 -/

/-- Round constants of the permutation. -/
def keccakRounds : List Word :=
  [0x0000000000000001#64, 0x0000000000008082#64, 0x800000000000808A#64, 0x8000000080008000#64,
   0x000000000000808B#64, 0x0000000080000001#64, 0x8000000080008081#64, 0x8000000000008009#64] ++
  [0x000000000000008A#64, 0x0000000000000088#64, 0x0000000080008009#64, 0x000000008000000A#64,
   0x000000008000808B#64, 0x800000000000008B#64, 0x8000000000008089#64, 0x8000000000008003#64] ++
  [0x8000000000008002#64, 0x8000000000000080#64, 0x000000000000800A#64, 0x800000008000000A#64,
   0x8000000080008081#64, 0x8000000000008080#64, 0x0000000080000001#64, 0x8000000080008008#64]

/-- Turns of the 25 lanes, lane `x + 5y` at its index. -/
def keccakTurns : List Nat :=
  [0, 1, 62, 28, 27, 36, 44, 6, 55, 20, 3, 10, 43, 25, 39, 41, 45, 15, 21, 8, 18, 2, 61, 56, 14]

/-- One round on the 25 lanes. -/
def keccakRound (a : List Word) (rc : Word) : List Word :=
  let col := (List.range 5).map (fun x => a.getD x 0 ^^^ a.getD (x + 5) 0 ^^^ a.getD (x + 10) 0 ^^^ a.getD (x + 15) 0 ^^^ a.getD (x + 20) 0)
  let turned := (List.range 25).map (fun i =>
    (a.getD i 0 ^^^ col.getD ((i + 4) % 5) 0 ^^^ (col.getD ((i + 1) % 5) 0).rotateLeft 1).rotateLeft (keccakTurns.getD i 0))
  let moved := (List.range 25).map (fun i => turned.getD ((i % 5 + 3 * (i / 5)) % 5 + 5 * (i % 5)) 0)
  (List.range 25).map (fun i =>
    let row := i - i % 5
    moved.getD i 0 ^^^ (~~~(moved.getD (row + (i + 1) % 5) 0) &&& moved.getD (row + (i + 2) % 5) 0) ^^^ (if i = 0 then rc else 0))

/-- A block of 136 bytes is taken into the sponge. -/
def keccakBlock (a : List Word) (bs : List Byte) : List Word :=
  keccakRounds.foldl keccakRound
    ((List.range 25).map (fun i => a.getD i 0 ^^^ BitVec.ofNat 64 (leNat ((bs.drop (8 * i)).take 8))))

/-- The first 32 bytes of SHAKE256 of bytes: padded with the bits 11111 and 10…01 to whole blocks. -/
def shake256 (bs : List Byte) : List Byte :=
  let blocks := bs.length / 136 + 1
  let p := bs ++ List.replicate (136 * blocks - bs.length) 0
  let p := (p.set bs.length 0x1F#8)
  let p := p.set (136 * blocks - 1) (p.getD (136 * blocks - 1) 0 ||| 0x80#8)
  let a := (List.range blocks).foldl (fun a i => keccakBlock a ((p.drop (136 * i)).take 136)) (List.replicate 25 0)
  (List.range 4).flatMap (fun i => leBytes 8 (a.getD i 0).toNat)

/-! ### XMSS -/

/-- The most significant byte first. -/
def beBytes (n v : Nat) : List Byte := (leBytes n v).reverse

/-- A keyed hash of the standard, told apart by its number. -/
def xmssHash (k : Nat) (key m : List Byte) : List Byte := shake256 (beBytes 32 k ++ key ++ m)

/-- A string under a mask. -/
def maskBytes (a b : List Byte) : List Byte := List.zipWith (fun x y => x ^^^ y) a b

/-- Key or mask `which` of the hash at an address of type `kind` with three further words. -/
def xmssMask (seed : List Byte) (kind a b c which : Nat) : List Byte :=
  xmssHash 3 seed (beBytes 12 0 ++ beBytes 4 kind ++ beBytes 4 a ++ beBytes 4 b ++ beBytes 4 c ++ beBytes 4 which)

/-- `n` steps of chain `i` of one-time key `ots`, from step `j` on. -/
def xmssChain (seed : List Byte) (ots i : Nat) : Nat → Nat → List Byte → List Byte
  | 0, _, x => x
  | n + 1, j, x =>
    xmssChain seed ots i n (j + 1) (xmssHash 0 (xmssMask seed 0 ots i j 0) (maskBytes x (xmssMask seed 0 ots i j 1)))

/-- The parent of two nodes of a tree. -/
def xmssParent (seed : List Byte) (kind a height index : Nat) (l r : List Byte) : List Byte :=
  xmssHash 1 (xmssMask seed kind a height index 0)
    (maskBytes l (xmssMask seed kind a height index 1) ++ maskBytes r (xmssMask seed kind a height index 2))

/-- One level of the tree over a one-time key: neighbours join, a last one alone goes up as it is. -/
def xmssLevel (seed : List Byte) (ots height : Nat) : Nat → List (List Byte) → List (List Byte)
  | i, l :: r :: rest => xmssParent seed 1 ots height i l r :: xmssLevel seed ots height (i + 1) rest
  | _, rest => rest

/-- The leaf of one-time key `ots`: the root over the ends of its 67 chains, seven levels up. -/
def xmssLeaf (seed : List Byte) (ots : Nat) (ends : List (List Byte)) : List Byte :=
  ((List.range 7).foldl (fun ns h => xmssLevel seed ots h 0 ns) ends).getD 0 []

/-- The root over a leaf and its authentication path. -/
def xmssRoot (seed : List Byte) (idx : Nat) (auth : List (List Byte)) (leaf : List Byte) : List Byte :=
  auth.zipIdx.foldl (fun node (sib, k) =>
    let (l, r) := if idx / 2 ^ k % 2 = 0 then (node, sib) else (sib, node)
    xmssParent seed 2 0 k (idx / 2 ^ (k + 1)) l r) leaf

/-- The 67 digits of base 16 that the chains of a digest have gone: its own 64, the high half of a byte first, and the three of
their checksum. -/
def xmssDigits (m : List Byte) : List Nat :=
  let ds := m.flatMap (fun b => [b.toNat / 16, b.toNat % 16])
  let sum := (ds.map (fun d => 15 - d)).sum
  ds ++ [sum / 256 % 16, sum / 16 % 16, sum % 16]

/-- The digest of a message that a signature signs. -/
def xmssDigest (k : XmssKey) (g : XmssSig) (msg : List Byte) : List Byte := xmssHash 2 (g.rand ++ k.root ++ beBytes 32 g.idx) msg

/-- The ends of the chains that a signature stands in. -/
def xmssEnds (k : XmssKey) (g : XmssSig) (digits : List Nat) : List (List Byte) :=
  (digits.zip g.ots).zipIdx.map (fun ((d, x), i) => xmssChain k.seed g.idx i (15 - d) d x)

/-- A signature has the form that the parameter set gives it. -/
def XmssSig.formed (g : XmssSig) : Bool :=
  decide (g.idx < 1024) && g.rand.length == 32 && g.ots.length == 67 && g.ots.all (fun x => x.length == 32) &&
    g.auth.length == 10 && g.auth.all (fun x => x.length == 32)

/-- The signature verifies over a message under a public key. -/
def xmssVerify (k : XmssKey) (g : XmssSig) (msg : List Byte) : Bool :=
  XmssSig.formed g && xmssRoot k.seed g.idx g.auth (xmssLeaf k.seed g.idx (xmssEnds k g (xmssDigits (xmssDigest k g msg)))) == k.root

/-- The SHAKE256 hash of a public key in the standard's form: the number of the parameter set, root and seed. -/
def XmssKey.hash (k : XmssKey) : Nat := leNat (shake256 (beBytes 4 0x10 ++ k.root ++ k.seed))

end Sys2Proof.Machine
end

