-- ==== Sys2Proof/Machine/Package.lean ====
section
/-! DEFINITION. The package (spec/22): die resets and routes (R416 to R419), key control (R425, R426), attestation (R423,
R424), Rabor ports (R433, R434). -/

namespace Sys2Proof.Machine

/-! ### The grid (spec/01 R13, spec/22 R416 to R418) -/

/-- Neighbours of a die in the grid of two rows and four columns. -/
def dieNeighbours (d : Nat) : List Nat :=
  (List.range 8).filter (fun e => (e % 4 == d % 4 && e / 4 != d / 4) || (e / 4 == d / 4 && (e % 4 == d % 4 + 1 || d % 4 == e % 4 + 1)))

/-- Dies of a set that reach the I/O node, behind dies 3 and 7, through dies of the set. -/
def reachIo (p : Nat → Bool) : Nat → List Nat
  | 0 => [3, 7].filter p
  | fuel + 1 =>
    let r := reachIo p fuel
    (List.range 8).filter (fun d => p d && (r.contains d || (dieNeighbours d).any (fun e => r.contains e)))

/-- Every die of a set has a path to the I/O node through the set, and the I/O node has a gateway in it. -/
def pathsOk (p : Nat → Bool) : Bool :=
  (p 3 || p 7) && (List.range 8).all (fun d => !p d || (reachIo p 8).contains d)

/-- The dies on the column-and-row path from `s` through row `r` to `t`: along `s`'s column to row `r`, along the row to `t`'s
column, and to `t`. -/
def gridPath (s r t : Nat) : List Nat :=
  let cs := s % 4
  let ct := t % 4
  let cols := if cs ≤ ct then (List.range (ct - cs + 1)).map (fun i => cs + i) else (List.range (cs - ct + 1)).map (fun i => cs - i)
  (if s / 4 = r then [] else [s]) ++ cols.map (fun c => r * 4 + c) ++ (if t / 4 = r then [] else [t])

/-- Path of a packet between two dies (R416): X-first, Y-first, other row; the first that crosses no excluded die. A source or
destination is never excluded from its own packet. -/
def State.route (s : State) (a b : Nat) : Option (List Nat) :=
  let other := if a / 4 = b / 4 then 1 - a / 4 else a / 4
  [gridPath a (a / 4) b, gridPath a (b / 4) b, gridPath a other b].find?
    (fun p => p.all (fun d => d == a || d == b || s.crossable d))

/-- The gateway die by which a die's traffic reaches the I/O node (R416). -/
def State.gateway (s : State) (a : Nat) : Nat :=
  let g := if a / 4 = 0 then 3 else 7
  if s.crossable g || g = a then g else 10 - g

/-! ### Die reset (R418, R419) -/

/-- DIE_RESET_REQUEST: a write of `v` to the request register. -/
def execDieResetRequest (v : Word) (s : State) : Host.Outcome State Fault Refusal :=
  let d := bits v 2 0
  if !bit v 8 then .next s
  else if (s.die d).st != .live || (s.die d).lost || bits v 63 9 != 0 || bits v 7 3 != 0
      || !pathsOk (fun e => e != d && (s.die e).st == .live && !(s.die e).lost) then .next { s with pkgErr := true }
  else .next ((s.modDie d (fun x => { x with st := .transit })).dieGone d)

/-- REROUTE: a die in TRANSIT is excluded from the paths; a lost die ends ABSENT. -/
def execReroute (die : Nat) (s : State) : Host.Outcome State Fault Refusal :=
  let x := s.die die
  if x.st = .transit then .next (s.modDie die (fun x => { x with st := .reroute }))
  else if x.st = .reroute && x.lost then .next (s.modDie die (fun x => { x with st := .absent }))
  else .next s

/-- DRAIN: packets leave the die's routers. -/
def execDrain (die : Nat) (s : State) : Host.Outcome State Fault Refusal :=
  let x := s.die die
  if x.st = .reroute && !x.lost then .next (s.modDie die (fun x => { x with st := .drain })) else .next s

/-- The core state of a reset core (spec/06 R127, spec/11 R257). -/
def State.resetCores (s : State) (die : Nat) : State :=
  { s with cores := s.cores.map (fun c => if s.dieOf c.id = die && (s.ctx c.id.asid).run != .spilled then CoreSt.init c.id else c) }

/-- A context whose state is all in the veneer, so that no reset of a die it ran on touches it (spec/15 R370, R373). -/
def State.spilledCtx (s : State) (asid : Nat) : Bool := (s.ctx? asid).any (fun x => x.run == .spilled)

/-- DIE_RESET: routers and cores reset; the stack's contents stay, and the die's copies of the key slots go. What a spilled context
keeps stays. -/
def execDieReset (die : Nat) (s : State) : Host.Outcome State Fault Refusal :=
  let x := s.die die
  if x.st = .drain then
    .next ((s.resetCores die).modDie die (fun x => { Die.reset with
      st := .reset, skew := x.skew
      pool := x.pool.filter (fun p => s.spilledCtx p.asid)
      egress := x.egress.filter (fun h => s.spilledCtx h.owner.1) }))
  else .next s

/-- Replace a measurement. -/
def Trust.measure (t : Trust) (i : Nat) (digest : List Byte) : Trust :=
  { t with meas := (i, digest) :: t.meas.filter (fun m => m.1 != i) }

/-- An image of security version `min` or above whose signature verifies under a root public key of an unrevoked fused slot
(R420). -/
def Fuses.accepts (f : Fuses) (min : Nat) (i : SignedImage) : Bool :=
  xmssVerify i.key i.sig i.body && f.roots.any (fun r => r.1 == XmssKey.hash i.key && !r.2) && decide (min ≤ Config.imageVersion i.body)

/-- What an update slot holds: slot B for true. -/
def Mgmt.slot (m : Mgmt) (b : Bool) : UpdateImages := if b then m.slotB else m.slotA

/-- REJOIN: a reset die is measured, verified and tested; then it becomes LIVE on a pass, with its digest and every slot's
current state, or ABSENT. Its image is the active slot's, unless another (`strayed`) was loaded on it. -/
def execRejoin (die : Nat) (strayed : Option SignedImage) (selfTest : Bool) (s : State) : Host.Outcome State Fault Refusal :=
  let x := s.die die
  let image := strayed.getD (s.mgmt.slot s.mgmt.act).die
  let pass := s.trust.fuses.accepts s.trust.fuses.minDie image && selfTest
  if x.st = .reset then .next (s.modDie die (fun x => { x with st := .rejoin }))
  else if x.st = .rejoin then
    let s := s.modDie die (fun x => { x with st := if pass then .live else .absent, pass })
    .next (if pass then { s with trust := s.trust.measure (4 + die) (sha384 image.body) } else s)
  else .next s

/-! ### Key control (R425, R426) -/

/-- A slot takes a state. -/
def KeyBlk.setSlot (k : KeyBlk) (slot : Nat) (st : KeySt) : KeyBlk :=
  { k with slots := k.slots.filter (fun p => p.1 != slot) ++ (if st = .empty then [] else [(slot, st)]) }

/-- A key operation: refused for a slot beyond 1,024 or while busy. Every access from the operation on finds the slot's new state,
also while `busy` still reads 1: the spec leaves open which accesses find the old one (spec/03 R77; the model's choice,
notes/assumptions/53.md). -/
def State.keyOp (s : State) (slot : Nat) (st : KeySt) : State :=
  if slot > 1024 || s.keys.busy then { s with keys := { s.keys with err := true } }
  else
    let s := s.keepKeys slot
    { s with keys := { (s.keys.setSlot slot st) with busy := true } }

/-- KEY_SLOT_EMPTY. -/
def execKeySlotEmpty (slot : BitVec 11) (s : State) : Host.Outcome State Fault Refusal := .next (s.keyOp slot.toNat .empty)

/-- KEY_SLOT_PLAIN. -/
def execKeySlotPlain (slot : BitVec 11) (s : State) : Host.Outcome State Fault Refusal := .next (s.keyOp slot.toNat .plain)

/-- KEY_SLOT_KEYED with a fresh key. -/
def execKeySlotKeyed (slot : BitVec 11) (s : State) : Host.Outcome State Fault Refusal :=
  if slot.toNat > 1024 || s.keys.busy then .next { s with keys := { s.keys with err := true } }
  else
    let t := s.keyOp slot.toNat (.keyed s.keys.nextKey)
    .next { t with keys := { t.keys with nextKey := t.keys.nextKey + 1 } }

/-- KEY_UPDATE_DONE: every live controller holds the new state. -/
def execKeyUpdateDone (s : State) : Host.Outcome State Fault Refusal := .next { s with keys := { s.keys with busy := false } }

/-! ### Attestation (R423, R424; framing by DSP0274, notes/assumptions/25.md) -/

/-- An answer joins the answers and the transcript. -/
def State.answer (s : State) (bs : List Byte) : State :=
  { s with trust := { s.trust with answers := s.trust.answers ++ [bs], transcript := s.trust.transcript ++ bs } }

/-- An ERROR answer. -/
def State.spdmError (s : State) (code data : Nat) : State :=
  s.answer [0x13, 0x7F, BitVec.ofNat 8 code, BitVec.ofNat 8 data]

/-- A request that the responder takes up once the link is up; otherwise it is not reached (R420). -/
def State.spdm (s : State) (ready : Bool) (f : State → State) : Host.Outcome State Fault Refusal :=
  if !s.trust.up then .next s else if ready then .next (f s) else .next (s.spdmError 0x04 0)

/-- Measurement of an index (R424). -/
def State.measurement (s : State) (i : Nat) : List Byte :=
  if i = 12 then sha384 (s.lmask :: ((s.trust.meas.find? (fun m => m.1 == 12)).map (fun m => m.2)).getD [])
  else if i = 13 then sha384 [if s.dbg.en then 1 else 0]
  else ((s.trust.meas.find? (fun m => m.1 == i)).map (fun m => m.2)).getD (List.replicate 48 0)

/-- GET_VERSION: SPDM 1.3; the connection begins anew. -/
def execGetVersion (s : State) : Host.Outcome State Fault Refusal :=
  s.spdm true (fun (s : State) =>
    let t : State := { s with trust := { s.trust with vers := true, caps := false, alg := false, transcript := [] } }
    t.answer [0x10, 0x04, 0, 0, 0, 1, 0x00, 0x13])

/-- GET_CAPABILITIES: certificates, challenge, signed measurements; the responder's timing and sizes are its own. -/
def execGetCapabilities (s : State) : Host.Outcome State Fault Refusal :=
  s.spdm s.trust.vers (fun (s : State) =>
    let t : State := { s with trust := { s.trust with caps := true } }
    t.answer ([0x13, 0x61, 0, 0, 0] ++ leBytes 1 (Config.spdmSizes 0) ++ leBytes 2 0 ++ leBytes 4 0x16
      ++ leBytes 4 (Config.spdmSizes 1) ++ leBytes 4 (Config.spdmSizes 2)))

/-- NEGOTIATE_ALGORITHMS: ECDSA over P-384, SHA-384, DMTF measurements of SHA-384 digests. -/
def execNegotiateAlgorithms (asym hash meas : Nat) (s : State) : Host.Outcome State Fault Refusal :=
  s.spdm s.trust.caps (fun (s : State) =>
    if asym / 2 ^ 7 % 2 = 1 ∧ hash / 2 % 2 = 1 ∧ meas % 2 = 1 then
      let t : State := { s with trust := { s.trust with alg := true } }
      t.answer ([0x13, 0x63, 0, 0] ++ leBytes 2 36 ++ [1, 0] ++ leBytes 4 4 ++ leBytes 4 (2 ^ 7) ++ leBytes 4 2 ++ leBytes 16 0)
    else s.spdmError 0x01 0)

/-- GET_DIGESTS of the chains of slots 0 and 1. -/
def execGetDigests (s : State) : Host.Outcome State Fault Refusal :=
  s.spdm s.trust.alg (fun s =>
    s.answer ([0x13, 0x01, 0x03, 0x03] ++ sha384 (Config.certificate 0) ++ sha384 (Config.certificate 1)))

/-- GET_CERTIFICATE: part of the chain of slot 0 or 1. -/
def execGetCertificate (slot offset len : Nat) (s : State) : Host.Outcome State Fault Refusal :=
  s.spdm s.trust.alg (fun s =>
    let c := Config.certificate slot
    if slot > 1 ∨ offset ≥ c.length then s.spdmError 0x01 0
    else
      let part := (c.drop offset).take len
      s.answer ([0x13, 0x02, BitVec.ofNat 8 slot, 0] ++ leBytes 2 part.length ++ leBytes 2 (c.length - offset - part.length) ++ part))

/-- The responder's own nonce of 32 bytes, which nothing determines. -/
def State.ownNonce (s : State) : List Byte := (List.range 4).flatMap (fun i => leBytes 8 (Config.freeWord (s.fresh + i)).toNat)

/-- The block of a measurement: its index, the DMTF format, its size, the kind of what is measured, its digest. -/
def State.measBlock (s : State) (i : Nat) : List Byte :=
  let kind : Byte := if i = 1 then 0 else if i ≤ 11 then 1 else 2
  [BitVec.ofNat 8 i, 1] ++ leBytes 2 51 ++ [kind] ++ leBytes 2 48 ++ s.measurement i

/-- The digest of the measurements that a challenge asks for: none, those of the trusted base, or all. -/
def State.measSummary (s : State) (summary : Nat) : List Byte :=
  match summary with
  | 0 => []
  | 1 => sha384 ([1, 2].flatMap s.measBlock)
  | _ => sha384 (((List.range 13).map (fun i => i + 1)).flatMap s.measBlock)

/-- CHALLENGE of slot 0 or 1, answered with a signature over the transcript, the request's nonce and the responder's. -/
def execChallenge (slot : Nat) (req : ChallengeReq) (s : State) : Host.Outcome State Fault Refusal :=
  s.spdm s.trust.alg (fun s =>
    if slot > 1 ∨ (req.summary > 1 ∧ req.summary ≠ 0xFF) then s.spdmError 0x01 0
    else
      let body := [0x13#8, 0x03, BitVec.ofNat 8 slot, 0x03] ++ sha384 (Config.certificate slot) ++ s.ownNonce ++ s.measSummary req.summary
        ++ leBytes 2 0 ++ leBytes 8 req.context
      ({ s with fresh := s.fresh + 4 } : State).answer (body ++ Config.signature slot (s.trust.transcript ++ leBytes 32 req.nonce ++ body)))

/-- GET_MEASUREMENTS: the count (0), one index, or all (0xFF), signed with the key of slot 0 or 1 where that is asked for. -/
def execGetMeasurements (index : Nat) (req : MeasureReq) (s : State) : Host.Outcome State Fault Refusal :=
  s.spdm s.trust.alg (fun s =>
    if (index > 13 ∧ index ≠ 0xFF) ∨ (req.signed ∧ req.slot > 1) then s.spdmError 0x01 0
    else
      let ix := if index = 0 then [] else if index = 0xFF then (List.range 13).map (fun i => i + 1) else [index]
      let record := ix.flatMap s.measBlock
      let body := [0x13#8, 0x60, if index = 0 then 13 else 0, if req.signed then BitVec.ofNat 8 req.slot else 0, BitVec.ofNat 8 ix.length]
        ++ leBytes 3 record.length ++ record ++ s.ownNonce ++ leBytes 2 0 ++ leBytes 8 req.context
      ({ s with fresh := s.fresh + 4 } : State).answer (body ++
        (if req.signed then Config.signature req.slot (s.trust.transcript ++ leBytes 32 req.nonce ++ body) else [])))

/-- SPDM_UNSUPPORTED: every other request is answered with ERROR, UnsupportedRequest. -/
def execSpdmUnsupported (code : Nat) (s : State) : Host.Outcome State Fault Refusal :=
  s.spdm true (fun s => s.spdmError 0x07 code)

/-! ### Rabor ports (R433, R434) -/

/-- PORT_DOWN: packets not wholly received are discarded and not counted; the machine holds whole packets only. -/
def execPortDown (port : Nat) (s : State) : Host.Outcome State Fault Refusal :=
  .next { s with ports := s.ports.modify port (fun p => { p with lst := 0 }) }

/-- PORT_UP: a down port begins training; a training port records its peer and is up. -/
def execPortUp (port : Nat) (peer : BitVec 32) (s : State) : Host.Outcome State Fault Refusal :=
  .next { s with ports := s.ports.modify port (fun p =>
    if p.lst = 0 then { p with lst := 1 } else if p.lst = 1 then { p with lst := 2, peer } else p) }

end Sys2Proof.Machine
end

