-- ==== Sys2Proof/Machine/Mgmt.lean ====
section
/-! DEFINITION. Boot (spec/22 R420 to R422), package reset and the update path (spec/23 R440, R441), sensors, power and
clocks (R436 to R438), injection and scrub (R442 to R444). -/

namespace Sys2Proof.Machine

/-! ### Updates (R440, R441) -/

/-- Number of an update slot: 0 A, 1 B. -/
def slotNo (b : Bool) : Nat := if b then 1 else 0

/-- UPDATE_STAGE: refused while a verification runs. -/
def execUpdateStage (s : State) : Host.Outcome State Fault Refusal :=
  let m := s.mgmt
  if m.ust = 1 then .next { s with mgmt := { m with err := true } }
  else .next { s with mgmt := { m with ust := 1, staged := some (m.ubase.toNat, m.ulen) } }

/-- UPDATE_CANCEL of a pending slot. -/
def execUpdateCancel (s : State) : Host.Outcome State Fault Refusal :=
  if s.mgmt.ust = 2 then .next { s with mgmt := { s.mgmt with ust := 0, staged := none } } else .next s

/-- The two images that the bytes of an update hold, of which the first takes `ioLen`. -/
def UpdateImages.ofBytes (ioLen : Nat) (bs : List Byte) : UpdateImages :=
  ⟨Config.signedImage (bs.take ioLen), Config.signedImage (bs.drop ioLen)⟩

/-- The update that stands in HBM under the shared slot where it was staged, when it can be read; what the read meets. Its I/O die
image takes the first `ioLen` bytes (notes/assumptions/57.md). -/
def State.stagedImages (s : State) (ioLen : Nat) : State × Option UpdateImages :=
  match s.mgmt.staged with
  | none => (s, none)
  | some (pa, n) =>
    let s := s.dmaMet none pa n
    (s, if n = 0 || s.hbmRefusal 1024 pa n != 0 then none else some (UpdateImages.ofBytes ioLen (s.hbmBytes 1024 pa n)))

/-- Both images of an update are accepted (R420). -/
def Fuses.acceptsBoth (f : Fuses) (u : UpdateImages) : Bool := f.accepts f.minIo u.io && f.accepts f.minDie u.die

/-- Write an update into a slot, B for true. -/
def Mgmt.fill (m : Mgmt) (b : Bool) (u : UpdateImages) : Mgmt := if b then { m with slotB := u } else { m with slotA := u }

/-- UPDATE_VERIFY_DONE: a staged update whose images are both accepted is written to the inactive slot and pending; another
leaves the slot as it was. -/
def execUpdateVerifyDone (ioLen : Nat) (s : State) : Host.Outcome State Fault Refusal :=
  if s.mgmt.ust ≠ 1 then .next s
  else
    let (s, found) := s.stagedImages ioLen
    let other := !s.mgmt.act
    match found.filter s.trust.fuses.acceptsBoth with
    | some u => .next (State.logEvent { s with mgmt := { s.mgmt.fill other u with ust := 2 } } 0x07 0xFF (slotNo other))
    | none => .next (State.logEvent { s with mgmt := { s.mgmt with ust := 3, staged := none } } 0x08 0xFF (slotNo other))

/-! ### Package reset and boot -/

/-- PACKAGE_RESET: the machine is as at reset, the PCC at 0 and the event log clear; a pending slot becomes active. What lies
outside the reset stays: host memory, the bytes of the HBM stacks, and the inputs still to come (notes/assumptions/26.md). -/
def execPackageReset (s : State) : Host.Outcome State Fault Refusal :=
  let r := State.reset
  .next { r with
    hbm := s.hbm, ktag := s.ktag, host := s.host, hostOut := s.hostOut, hostReads := s.hostReads, sent := s.sent
    poison := s.poison.filter (fun p => p.1 == 5)
    keys := { r.keys with nextKey := s.keys.nextKey }
    trust := { r.trust with fuses := s.trust.fuses }
    mgmt := { r.mgmt with
      act := if s.mgmt.ust = 2 then !s.mgmt.act else s.mgmt.act
      staged := if s.mgmt.ust = 2 then s.mgmt.staged else none
      slotA := s.mgmt.slotA
      slotB := s.mgmt.slotB
      injected := s.mgmt.injected.filter (fun p => p.arr == 5) }
    agenda := s.agenda, fresh := s.fresh, cur := s.cur, curq := s.curq }

/-- The image as loaded on die `d` when boot runs from a slot with `image`. -/
def BootInput.loaded (b : BootInput) (image : SignedImage) (d : Nat) : SignedImage :=
  ((b.strayed.find? (fun x => x.1 == d)).map (fun x => x.2)).getD image

/-- The image loaded on a compute die is accepted. -/
def BootInput.verified (b : BootInput) (f : Fuses) (image : SignedImage) (d : Nat) : Bool :=
  f.accepts f.minDie (BootInput.loaded b image d)

/-- The dies that boot finds good: verified and through self-test. -/
def BootInput.passed (b : BootInput) (f : Fuses) (image : SignedImage) (d : Nat) : Bool :=
  b.selfTest.getLsbD d && BootInput.verified b f image d

/-- The live-die mask (R421). -/
def BootInput.live (b : BootInput) (f : Fuses) (image : SignedImage) : Nat :=
  dieMask (fun d => (reachIo (fun e => BootInput.passed b f image e) 8).contains d)

/-- The I/O die image of a slot is accepted and the I/O die passes self-test under it. -/
def BootInput.ioOk (b : BootInput) (f : Fuses) (m : Mgmt) (slotB : Bool) : Bool :=
  (if slotB then b.ioSelfB else b.ioSelfA) && f.accepts f.minIo (m.slot slotB).io

/-- The slot that boot runs from: the active one, else the other one. -/
def BootInput.slot (b : BootInput) (f : Fuses) (m : Mgmt) : Option Bool :=
  if BootInput.ioOk b f m m.act then some m.act else if BootInput.ioOk b f m !m.act then some !m.act else none

/-- The measurements that boot from a slot with images `u` leaves (R424): the digest of each image it met, zeros for a die that is
not released. -/
def BootInput.measured (b : BootInput) (f : Fuses) (u : UpdateImages) : List (Nat × List Byte) :=
  [(1, leBytes 48 b.romDigest), (2, sha384 b.firmware.body), (3, sha384 u.io.body),
    (12, leBytes 4 f.minFw ++ leBytes 4 f.minIo ++ leBytes 4 f.minDie)] ++
  (List.range 8).map (fun d => (4 + d,
    if BootInput.verified b f u.die d then sha384 (BootInput.loaded b u.die d).body else List.replicate 48 0))

/-- BOOT: the trust die verifies its own firmware, the I/O die image and the compute die image as loaded on each die; then there
are the measurements, the released dies, the live-die mask and the shared key. With its firmware or every I/O die image rejected
the link stays down. -/
def execBoot (b : BootInput) (s : State) : Host.Outcome State Fault Refusal :=
  if s.trust.booted then .next s
  else
    let m := s.mgmt
    let f := s.trust.fuses
    if !f.accepts f.minFw b.firmware then .next { s with trust := { s.trust with booted := true } }
    else match BootInput.slot b f m with
    | none =>
      let t := State.logEvent { s with trust := { s.trust with booted := true } } 0x08 0xFF (slotNo m.act)
      .next { t with mgmt := { t.mgmt with ust := 3, staged := none } }
    | some sl =>
      let fell := sl != m.act
      let s := if fell then s.logEvent 0x08 0xFF (slotNo m.act) else s
      let u := m.slot sl
      let live := BitVec.ofNat 8 (BootInput.live b f u.die)
      let s := { s with
        dies := s.dies.mapIdx (fun d (x : Die) => { x with pass := BootInput.passed b f u.die d, st := if live.getLsbD d then .live else .absent })
        lmask := live
        keys := { slots := [(1024, .keyed s.keys.nextKey)], busy := false, err := false, nextKey := s.keys.nextKey + 1 }
        trust := { s.trust with booted := true, up := true, meas := BootInput.measured b f u }
        mgmt := { s.mgmt with act := sl, ust := if fell then 3 else s.mgmt.ust, staged := none } }
      .next (s.logEvent 0x09 0xFF (slotNo sl))

/-! ### Sensors and power (R436 to R438) -/

/-- SENSOR_SAMPLE: the latest readings. -/
def execSensorSample (readings : List (Nat × BitVec 32)) (s : State) : Host.Outcome State Fault Refusal :=
  let good := readings.filter (fun r => (sensorDie r.1).isSome)
  .next { s with mgmt := { s.mgmt with
    sensors := good ++ s.mgmt.sensors.filter (fun o => !good.any (fun r => r.1 == o.1)) } }

/-- THERMAL_HALVING of a bench (die × 36 + bench) at `temp` sixteenths of a degree. -/
def execThermalHalving (bench : Nat) (temp : Nat) (s : State) : Host.Outcome State Fault Refusal :=
  let d := bench / 36
  if d ≥ 8 || temp < 105 * 16 || (s.die d).halved.contains (bench % 36) then .next s
  else .next ((s.modDie d (fun x => { x with halved := x.halved ++ [bench % 36] })).logEvent 0x04 d (bench % 36))

/-- THERMAL_RECOVERY of a halved bench. -/
def execThermalRecovery (bench : Nat) (temp : Nat) (s : State) : Host.Outcome State Fault Refusal :=
  let d := bench / 36
  if temp ≥ 100 * 16 then .next s
  else .next (s.modDie d (fun x => { x with halved := x.halved.filter (fun b => b != bench % 36) }))

/-- CURRENT_TRIP of a die above 450 A. -/
def execCurrentTrip (die mA : Nat) (s : State) : Host.Outcome State Fault Refusal :=
  if die ≥ 8 || mA ≤ 450000 || (s.die die).tripped.isSome || (s.die die).lost then .next s
  else .next ((s.modDie die (fun x => { x with tripped := some (s.pcc die) })).logEvent 0x01 die mA)

/-- TRIP_CLEAR: the first sample below 405 A at least 100 µs after the trip. -/
def execTripClear (die mA : Nat) (s : State) : Host.Outcome State Fault Refusal :=
  match (s.die die).tripped with
  | none => .next s
  | some t =>
    if mA ≥ 405000 || s.pcc die < t + 100000 then .next s
    else .next ((s.modDie die (fun x => { x with tripped := none })).logEvent 0x02 die mA)

/-- DIE_POWER_DOWN: still above 450 A 1 ms after the trip; the die is lost. -/
def execDiePowerDown (die mA : Nat) (s : State) : Host.Outcome State Fault Refusal :=
  match (s.die die).tripped with
  | none => .next s
  | some t =>
    if mA ≤ 450000 || s.pcc die < t + 1000000 || (s.die die).lost then .next s
    else .next ((s.modDie die (fun x => { x with tripped := none })).loseDie die)

/-! ### Soft errors (R442 to R444) -/

/-- INJECT_ARM: a write of `v` to the injection registers. -/
def execInjectArm (off : BitVec 24) (v : Word) (s : State) : Host.Outcome State Fault Refusal :=
  let m := s.mgmt
  match off.toNat with
  | 0x100048 =>
    let arr := bits v 63 56
    if bits v 1 0 = 3 ∨ arr = 0 ∨ arr > 8 then .next { s with mgmt := { m with err := true } }
    else .next { s with mgmt := { m with iarr := arr, inb := bits v 1 0 } }
  | 0x100050 => .next { s with mgmt := { m with iaddr := v } }
  | _ => .next s

/-- SCRUB of a unit of the HBM or the veneer: damage found there is repaired, or poisons the unit, and is logged. -/
def execScrub (array : BitVec 8) (unit : Word) (s : State) : Host.Outcome State Fault Refusal :=
  let arr := array.toNat
  if arr ≠ 4 ∧ arr ≠ 5 then .next s
  else
    let own := unit.toNat / 2 ^ 52 % 2 ^ 11
    let found := s.mgmt.injected.filter (fun p => p.arr == arr && p.addr.toNat % 2 ^ 52 == unit.toNat % 2 ^ 52 / 16 * 16
      && (arr == 5 || p.addr.toNat / 2 ^ 52 % 2 ^ 11 == own))
    .next (found.foldl (fun s p => s.foundDamage none p) s)

end Sys2Proof.Machine
end

