-- ==== Sys2Proof/Machine/Bus.lean ====
section
/-! DEFINITION. Writes that reach the device registers (spec/22 R415), and the actions of an agenda (notes/assumptions/1.md):
what one step of the machine can be beside the current core's instruction. -/

namespace Sys2Proof.Machine

/-! ### Register writes as rows -/

/-- A write of `v` to the invalidation register (spec/03 R68). -/
def invalInstr (v : Word) : Instr :=
  if bits v 63 62 = 3 || bits v 51 40 != 0 then .invalidateRejected v
  else if bits v 63 62 = 0 then .invalidatePage (BitVec.ofNat 10 (bits v 61 52)) (v.setWidth 40)
  else if bits v 63 62 = 1 then .invalidateAsid (BitVec.ofNat 10 (bits v 61 52))
  else .invalidateAll

/-- A write of `v` to `dcmd` (spec/21 R402). -/
def dcmdInstr (v : Word) : Instr :=
  if v = 1 then .stop
  else if v = 2 then .resume
  else if v = 3 then .step
  else if v = 4 then .rewindWin
  else if v = 5 then .rewindSeq
  else if v = 6 then .replay
  else if v = 7 then .recordOn
  else if v = 8 then .recordOff
  else if v = 9 then .slotSet
  else if v = 10 then .slotGet
  else .debugCommandRefused v

/-- A write of `v` to the key register (spec/22 R425, R426). -/
def keyInstr (v : Word) : Instr :=
  if bits v 63 13 != 0 || bits v 12 11 = 3 then .registerWrite 0x40000 v
  else if bits v 12 11 = 0 then .keySlotEmpty (v.setWidth 11)
  else if bits v 12 11 = 1 then .keySlotPlain (v.setWidth 11)
  else .keySlotKeyed (v.setWidth 11)

/-- A write that reaches no register: one to an unassigned offset (spec/22 R415). -/
def busNone : Instr := .registerWrite 0xFFFFF8 0

/-- The row that a write of `v` to the register at `off` is. -/
def busInstr (off : Nat) (v : Word) : Instr :=
  match off with
  | 0x00000 => .launchQueueConfigWrite false v
  | 0x00008 => .launchQueueConfigWrite true v
  | 0x00018 => .launch v
  | 0x10008 => invalInstr v
  | 0x20000 => if bit v 10 then .debugAttach (v.setWidth 10) else .registerWrite 0x20000 v
  | 0x20018 => dcmdInstr v
  | 0x20038 => .traceConfigWrite 0x20038 v
  | 0x20040 => .traceConfigWrite 0x20040 v
  | 0x20048 => .traceConfigWrite 0x20048 v
  | 0x20060 => .ddataWrite v
  | 0x30008 => .dieResetRequest v
  | 0x40000 => keyInstr v
  | 0x100040 => if bits v 1 0 = 1 then .updateStage else if bits v 1 0 = 2 then .updateCancel else .registerWrite 0x100040 v
  | 0x100048 => .injectArm 0x100048 v
  | 0x100050 => .injectArm 0x100050 v
  | _ => if off < 2 ^ 24 then .registerWrite (BitVec.ofNat 24 off) v else busNone

/-- What a write sets beside its row: `err` cleared by a write that carries `ucmd`. -/
def State.busBefore (s : State) (off : Nat) (v : Word) : State :=
  if off = 0x100040 && bit v 8 && (bits v 1 0 == 1 || bits v 1 0 == 2) then { s with mgmt := { s.mgmt with err := false } } else s

/-- The W1C bits of the register at `off` (spec/03 R68, spec/21 R401, spec/22 R417, R425, R428, spec/23 R435). -/
def w1cMask (off : Nat) : Nat :=
  if off = 0x20 ∨ off = 0x30010 then 2 ^ 32
  else if off = 0x10010 ∨ off = 0x40008 then 2
  else if off = 0x20020 then 2 ^ 7
  else if off = 0x100040 then 2 ^ 8
  else 0

/-- Value that a write of `n` bytes at `off` gives the whole register, and the register's offset: fields that it does not
write keep what they hold, and W1C bits that it does not write get a 0, which leaves them (spec/00 R7). -/
def State.busValue (s : State) (off n : Nat) (v : Word) : Nat × Word :=
  let o := off / 8 * 8
  let k := off % 8
  if n ≥ 8 then (o, v)
  else
    let r := (s.busRead o).1.toNat
    let old := leBytes 8 (r - (r &&& w1cMask o))
    (o, word (leNat (old.take k ++ leBytes n v.toNat ++ old.drop (k + n))))

/-- Low bytes of a register that hold the fields a write acts on; the rest is reserved or must be 0. -/
def actBytes (off : Nat) : Nat :=
  if off = 0x18 then 4
  else if off = 0x20018 then 1
  else if off = 0x20000 ∨ off = 0x30008 ∨ off = 0x40000 ∨ off = 0x100040 then 2
  else 8

/-- The row of a write of `n` bytes at `off` that gives the register at `o` the value `v`: one that writes none of the fields
which a write acts on does nothing, unless it breaks a must-be-0 (notes/assumptions/39.md). -/
def narrowInstr (off n o : Nat) (v : Word) : Instr :=
  let k := off % 8
  if n < 8 && decide (k ≥ actBytes o) && (o == 0x20000 || o == 0x100040 || v.toNat / 2 ^ (8 * actBytes o) == 0) then busNone
  else if n < 8 && o == 0x100040 && k == 1 then (if bit v 8 then .registerWrite 0x100040 (word (2 ^ 8)) else busNone)
  else busInstr o v

/-- A write to a full invalidation queue is held (spec/03 R69). -/
def State.busHeld (s : State) (i : Instr) : Bool :=
  match i with
  | .invalidatePage .. => decide (s.invq.length ≥ 16)
  | .invalidateAsid _ => decide (s.invq.length ≥ 16)
  | .invalidateAll => decide (s.invq.length ≥ 16)
  | _ => false

/-- The oldest posted register write, as its row, unless it is held. -/
def State.busNext (s : State) : Option (Nat × Word × Instr) :=
  match s.busq with
  | [] => none
  | (off, n, v) :: _ =>
    let p := s.busValue off n v
    let i := narrowInstr off n p.1 p.2
    if s.busHeld i then none else some (p.1, p.2, i)

/-- The oldest posted register write takes effect. -/
def State.busRun (s : State) (off : Nat) (v : Word) (i : Instr) (run : Instr → State → Host.Outcome State Fault Refusal) :
    Host.Outcome State Fault Refusal :=
  run i (State.busBefore { s with busq := s.busq.drop 1 } off v)

/-! ### Acts -/

/-- A scalar instruction: only a core that fetches it executes it. -/
def isScalar (i : Instr) : Bool := (encodeParcel i).isSome

/-- A load of a core takes its bytes before its turn (spec/10 R245): global memory that the die's own writes do not meet, read as
that load would read it now. -/
def State.loadAhead (s : State) (id : CoreId) (va : Word) (n : Nat) : State :=
  let c := s.core id
  if !s.mayRun id || n = 0 || n > 8 || va.toNat % n != 0 then s
  else match s.resolve id c.runtime va n .load with
    | .error _ => s
    | .ok p =>
      let meets (w : BufWrite) : Bool := w.place.meets w.n p n
      let dev := match p with
        | .dev _ => true
        | _ => false
      if p.isLocal || dev || c.sb.any meets || (s.die (s.dieOf id)).edge.any meets
          || s.placeRefusal id.asid p n != 0 || s.poisonAt id p n || !(s.damageAt id p n).isEmpty then s
      else
        let e : Early := ⟨p, s.placeBytes id p n, s.relsAt id p n, []⟩
        ((if s.watched then s else { s with marks := [] }).reach id.asid p n).modCore id (fun c => { c with early := e :: keepAhead c.early p n })

/-- An engine's write to a byte becomes visible to the core's loads, with the rest of its unit (spec/10 R243, R251). -/
def State.seeUnit (s : State) (id : CoreId) (reg : Bool) (a : Nat) : State :=
  let hit (x : Stale) : Bool := x.reg == reg && x.a / 16 == a / 16
  s.modCore id (fun c => { c with stale := c.stale.filter (fun x => !hit x) ++
    (staleLeft (fun _ u => u.any (fun x => x.a == a)) (staleUnits (c.stale.filter hit)).reverse [] 0).1 })

/-- Some bytes of a piece of a copy word in flight are read, and written too unless `only` reads them (spec/04 R88). -/
def State.pieceStep (s : State) (id : CoreId) (i k o n : Nat) (only : Bool) : State :=
  match ((s.core id).flightsOf .eqc)[i]? with
  | none => s
  | some f =>
    if f.suspended || !s.answers (s.dieOf id) || n = 0 || decide (f.pieces.length ≤ k) then s
    else if only then (s.copyReadStep id f k o n).state
    else (s.copyStep id f k o n).state

/-! ### Soft errors (spec/23 R442 to R444) -/

/-- One or two stored bits of a unit flip by themselves: in the register space or scratchpad of a core, at a PA of the HBM, or in
another array. -/
def State.upset (s : State) (id : CoreId) (arr : Nat) (a : Word) (flips : Nat) : State :=
  let own (k : Nat) : Damage := ⟨arr, ownKey id, word ((s.ctx id.asid).pcn id.l * 2 ^ 52 + a.toNat % k / 16 * 16), flips⟩
  if flips ≠ 1 ∧ flips ≠ 2 then s
  else
    let strike (d : Damage) : State := { s with mgmt := { s.mgmt with injected := d :: s.mgmt.injected } }
    match arr with
    | 1 => if s.hasCore id then strike (own 0x20000) else s
    | 3 => if s.hasCore id then strike (own 0xC0000) else s
    | 5 => strike ⟨5, 0, word (a.toNat % 2 ^ 63 / 16 * 16), flips⟩
    | _ => if looseArray arr then strike ⟨arr, 0, a, flips⟩ else s

/-- A whole unit of such an array is written: damage and poison there go, and an injection armed for it acts, once (spec/15 R366,
spec/23 R443). -/
def State.unitWritten (s : State) (arr : Nat) (a : Word) : State :=
  let m := s.mgmt
  if !looseArray arr then s
  else
    let hit := m.inb != 0 && m.iarr == arr && m.iaddr == a
    let fresh : List Damage := if hit then [⟨arr, 0, a, m.inb⟩] else []
    { s with
      poison := s.poison.filter (fun p => !(p.1 == arr && p.2.2 == a.toNat))
      mgmt := { m with
        injected := fresh ++ m.injected.filter (fun p => !(p.arr == arr && p.addr == a))
        inb := if hit then 0 else m.inb } }

/-- A unit is read for a running core. A poisoned one refuses the access with code 0x0B (spec/15 R366). A damaged copy of a
translation entry is discarded, to be fetched anew, which counts as corrected; other damage of one bit is corrected, and of two
raises UNCORRECTABLE_ERROR. -/
def State.unitUsed (s : State) (id : CoreId) (d : Damage) : State :=
  if !looseArray d.arr || !s.mayRun id || s.leader id != id then s
  else if s.poison.contains (d.arr, 0, d.addr.toNat) then State.takeTrap { s with cur := id } (refusalTrap 0x0B d.addr false)
  else if !s.mgmt.injected.contains d then s
  else if d.arr = 7 then
    let die := d.addr.toNat / 2 ^ 52 % 8
    let lose (l : List TlbEnt) : List TlbEnt := l.eraseIdx (Config.freeIndex s.fresh % (l.length + 1))
    let t : State := { s.bump with mgmt := { s.mgmt with injected := s.mgmt.injected.filter (fun q => q != d) } }
    (t.modDie die (fun x => { x with leafs := lose x.leafs, ptrs := lose x.ptrs })).logError 7 d.addr false (some id.asid)
  else (s.consume id [d]).1

/-- What reaches the device through its host link: register writes, doorbells, debug commands, memory accesses. Until boot has
brought the link up the device answers none of them (spec/22 R420). -/
def hostRow (i : Instr) : Bool :=
  match i with
  | .launchQueueConfigWrite .. | .launch _ | .invalidatePage .. | .invalidateAsid _ | .invalidateAll | .invalidateRejected _
  | .debugAttach _ | .debugDetach | .stop | .resume | .step | .rewindWin | .rewindSeq | .replay | .recordOn | .recordOff
  | .slotSet | .slotGet | .debugCommandRefused _ | .traceConfigWrite .. | .ddataRead | .ddataWrite _ | .dieResetRequest _
  | .registerWrite .. | .keySlotEmpty _ | .keySlotPlain _ | .keySlotKeyed _ | .updateStage | .updateCancel | .injectArm ..
  | .hostMemRead .. | .hostMemWrite .. => true
  | _ => false

/-- One act of an agenda. -/
def State.act (s : State) (a : Act) (run : Instr → State → Host.Outcome State Fault Refusal) :
    Host.Outcome State Fault Refusal :=
  match a with
  | .core c => if s.hasCore c then State.coreRun { s with cur := c } run else .next s
  | .ev i => if isScalar i || (hostRow i && !s.trust.up) then .next s else run i s
  | .send c => .next (s.sendOne c)
  | .select c => .next { s with cur := c }
  | .tick n => .next (s.passCycles run n)
  | .prefetch c va => .next (s.prefetch c va)
  | .copyPiece c i k o n => .next (s.pieceStep c i k o n false)
  | .copyRead c i k o n => .next (s.pieceStep c i k o n true)
  | .copyStart c => .next (s.issueCopy c (fun _ => true)).1
  | .holdBank who acc => .next (s.holdBank who acc)
  | .spillUnits asid l b => .next (s.spillUnits asid l b)
  | .loadAhead c va n => .next (s.loadAhead c va n)
  | .hostStore pa bs => .next { s.changed none ⟨0, 0⟩ (.hostCoh pa) bs.length with host := s.host.write pa bs }
  | .readLoads asid die => .next (s.readLoads asid die)
  | .useUnit c reg a => .next (s.seeUnit c reg a)
  | .upset c arr a flips => .next (s.upset c arr a flips)
  | .command => .next s.goOn
  | .unitWritten arr a => .next (s.unitWritten arr a)
  | .unitUsed c d => .next (s.unitUsed c d)

end Sys2Proof.Machine
end

