-- ==== Sys2Proof/Machine/Dispatch.lean ====
section
/-! DEFINITION. The meaning of every instruction: one arm per constructor, each one call. -/

namespace Sys2Proof.Machine

def exec (i : Instr) (s : State) : Host.Outcome State Fault Refusal :=
  match i with
  -- standard RISC-V
  | .load op rd rs1 imm => Sys2Proof.Machine.execLoad op rd rs1 imm s
  | .store op rs1 rs2 imm => Sys2Proof.Machine.execStore op rs1 rs2 imm s
  | .amo op dbl aq rl rd rs1 rs2 => Sys2Proof.Machine.execAmo op dbl aq rl rd rs1 rs2 s
  | .lr dbl aq rl rd rs1 => Sys2Proof.Machine.execLr dbl aq rl rd rs1 s
  | .sc dbl aq rl rd rs1 rs2 => Sys2Proof.Machine.execSc dbl aq rl rd rs1 rs2 s
  | .fence fm pred succ => Sys2Proof.Machine.execFence fm pred succ s
  | .fenceI => Sys2Proof.Machine.execFenceI s
  | .ecall => Sys2Proof.Machine.execEcall s
  | .ebreak => Sys2Proof.Machine.execEbreak s
  | .csrAccess op useImm csr rd src => Sys2Proof.Machine.execCsrAccess op useImm csr rd src s
  | .integerOp op => Sys2Proof.Machine.execIntegerOp op s
  | .floatOp op => Sys2Proof.Machine.execFloatOp op s
  | .branchJump op => Sys2Proof.Machine.execBranchJump op s
  -- custom-0
  | .lda sz sc rd rs1 imm => Sys2Proof.Machine.execLda sz sc rd rs1 imm s
  | .stl sz sc rs1 rs2 imm => Sys2Proof.Machine.execStl sz sc rs1 rs2 imm s
  | .ofence sc => Sys2Proof.Machine.execOfence sc s
  | .xfence dir => Sys2Proof.Machine.execXfence dir s
  | .scx sc => Sys2Proof.Machine.execScx sc s
  | .redaddW rs1 rs2 => Sys2Proof.Machine.execRedaddW rs1 rs2 s
  | .redaddD rs1 rs2 => Sys2Proof.Machine.execRedaddD rs1 rs2 s
  | .redaddF rs1 rs2 => Sys2Proof.Machine.execRedaddF rs1 rs2 s
  | .imx p => Sys2Proof.Machine.execImx p s
  | .samo op sc off dbl rd rs1 rs2 => Sys2Proof.Machine.execSamo op sc off dbl rd rs1 rs2 s
  -- custom-1
  | .spawn rs1 => Sys2Proof.Machine.execSpawn rs1 s
  | .arm rs1 rs2 => Sys2Proof.Machine.execArm rs1 rs2 s
  | .sig rs1 rs2 => Sys2Proof.Machine.execSig rs1 rs2 s
  | .tdone => Sys2Proof.Machine.execTdone s
  | .tyield => Sys2Proof.Machine.execTyield s
  | .tcall rd rs1 => Sys2Proof.Machine.execTcall rd rs1 s
  | .tret => Sys2Proof.Machine.execTret s
  | .join rs1 => Sys2Proof.Machine.execJoin rs1 s
  | .leave rs1 => Sys2Proof.Machine.execLeave rs1 s
  | .bar rs1 rs2 => Sys2Proof.Machine.execBar rs1 rs2 s
  | .bara rs1 rs2 => Sys2Proof.Machine.execBara rs1 rs2 s
  | .barw rs1 rs2 => Sys2Proof.Machine.execBarw rs1 rs2 s
  | .vote rd rs1 rs2 => Sys2Proof.Machine.execVote rd rs1 rs2 s
  | .sstep rd => Sys2Proof.Machine.execSstep rd s
  | .gfuse rs1 => Sys2Proof.Machine.execGfuse rs1 s
  | .gsplit => Sys2Proof.Machine.execGsplit s
  | .qpush q rs1 => Sys2Proof.Machine.execQpush q rs1 s
  | .qpop rd q => Sys2Proof.Machine.execQpop rd q s
  | .qpeek rd q => Sys2Proof.Machine.execQpeek rd q s
  | .msend rs1 rs2 len => Sys2Proof.Machine.execMsend rs1 rs2 len s
  | .mpop rd ib rs1 => Sys2Proof.Machine.execMpop rd ib rs1 s
  | .epush eq rs1 => Sys2Proof.Machine.execEpush eq rs1 s
  | .epushb eq rs1 rs2 => Sys2Proof.Machine.execEpushb eq rs1 rs2 s
  | .epop rd eq => Sys2Proof.Machine.execEpop rd eq s
  | .epopnb rd eq => Sys2Proof.Machine.execEpopnb rd eq s
  | .gset g => Sys2Proof.Machine.execGset g s
  | .gclr g => Sys2Proof.Machine.execGclr g s
  | .wfc rs1 => Sys2Proof.Machine.execWfc rs1 s
  | .wfcy rs1 => Sys2Proof.Machine.execWfcy rs1 s
  | .wopen rd => Sys2Proof.Machine.execWopen rd s
  | .wcommit rs1 => Sys2Proof.Machine.execWcommit rs1 s
  | .wrewind rs1 => Sys2Proof.Machine.execWrewind rs1 s
  | .wstat rd rs1 => Sys2Proof.Machine.execWstat rd rs1 s
  | .bcb cb imm => Sys2Proof.Machine.execBcb cb imm s
  | .bcbn cb imm => Sys2Proof.Machine.execBcbn cb imm s
  -- custom-2
  | .vwset vw rs1 rs2 => Sys2Proof.Machine.execVwset vw rs1 rs2 s
  | .vwget rd vw half => Sys2Proof.Machine.execVwget rd vw half s
  | .vld vw rs1 imm => Sys2Proof.Machine.execVld vw rs1 imm s
  | .vst vw rs1 imm => Sys2Proof.Machine.execVst vw rs1 imm s
  | .tld vw col rs1 imm => Sys2Proof.Machine.execTld vw col rs1 imm s
  | .tst vw col rs1 imm => Sys2Proof.Machine.execTst vw col rs1 imm s
  | .ringset rg rs1 rs2 => Sys2Proof.Machine.execRingset rg rs1 rs2 s
  | .ringadv rg rs1 => Sys2Proof.Machine.execRingadv rg rs1 s
  | .ringrel rg rs1 => Sys2Proof.Machine.execRingrel rg rs1 s
  | .xmv dst src => Sys2Proof.Machine.execXmv dst src s
  | .shape rs1 => Sys2Proof.Machine.execShape rs1 s
  -- custom-3
  | .nfcvtN rm fmt rd rs1 rs2 => Sys2Proof.Machine.execNfcvtN rm fmt rd rs1 rs2 s
  | .nfcvtF rm fmt rd rs1 rs2 => Sys2Proof.Machine.execNfcvtF rm fmt rd rs1 rs2 s
  | .nfpack fmt rd rs1 rs2 => Sys2Proof.Machine.execNfpack fmt rd rs1 rs2 s
  | .nfunpk fmt rd rs1 rs2 => Sys2Proof.Machine.execNfunpk fmt rd rs1 rs2 s
  | .rngrd sid rd rs1 => Sys2Proof.Machine.execRngrd sid rd rs1 s
  -- matrix words
  | .mmf88 h w => Sys2Proof.Machine.execMmf88 h w s
  | .mmf84 h w => Sys2Proof.Machine.execMmf84 h w s
  | .mmf44 h w => Sys2Proof.Machine.execMmf44 h w s
  | .mmh16 h w => Sys2Proof.Machine.execMmh16 h w s
  | .mmh8 h w => Sys2Proof.Machine.execMmh8 h w s
  | .mmi88 h w => Sys2Proof.Machine.execMmi88 h w s
  | .mmi84 h w => Sys2Proof.Machine.execMmi84 h w s
  | .mmi44 h w => Sys2Proof.Machine.execMmi44 h w s
  | .mspf88 h w => Sys2Proof.Machine.execMspf88 h w s
  | .mspf44 h w => Sys2Proof.Machine.execMspf44 h w s
  | .mspi88 h w => Sys2Proof.Machine.execMspi88 h w s
  | .msph16 h w => Sys2Proof.Machine.execMsph16 h w s
  | .mzero h w => Sys2Proof.Machine.execMzero h w s
  | .manch h w => Sys2Proof.Machine.execManch h w s
  | .mresI h w => Sys2Proof.Machine.execMresI h w s
  | .mresF h w => Sys2Proof.Machine.execMresF h w s
  | .mcmp h w => Sys2Proof.Machine.execMcmp h w s
  -- vector words
  | .vadd h w => Sys2Proof.Machine.execVadd h w s
  | .vsub h w => Sys2Proof.Machine.execVsub h w s
  | .vmul h w => Sys2Proof.Machine.execVmul h w s
  | .vfma h w => Sys2Proof.Machine.execVfma h w s
  | .vmax h w => Sys2Proof.Machine.execVmax h w s
  | .vmin h w => Sys2Proof.Machine.execVmin h w s
  | .vabs h w => Sys2Proof.Machine.execVabs h w s
  | .vneg h w => Sys2Proof.Machine.execVneg h w s
  | .vshl h w => Sys2Proof.Machine.execVshl h w s
  | .vshr h w => Sys2Proof.Machine.execVshr h w s
  | .vsra h w => Sys2Proof.Machine.execVsra h w s
  | .vand h w => Sys2Proof.Machine.execVand h w s
  | .vor h w => Sys2Proof.Machine.execVor h w s
  | .vxor h w => Sys2Proof.Machine.execVxor h w s
  | .vcmp h w => Sys2Proof.Machine.execVcmp h w s
  | .vsel h w => Sys2Proof.Machine.execVsel h w s
  | .vcvt h w => Sys2Proof.Machine.execVcvt h w s
  | .vrcp h w => Sys2Proof.Machine.execVrcp h w s
  | .vexp2 h w => Sys2Proof.Machine.execVexp2 h w s
  | .vreds h w => Sys2Proof.Machine.execVreds h w s
  | .vredm h w => Sys2Proof.Machine.execVredm h w s
  | .vperm h w => Sys2Proof.Machine.execVperm h w s
  | .vbcast h w => Sys2Proof.Machine.execVbcast h w s
  | .vscl h w => Sys2Proof.Machine.execVscl h w s
  | .vclamp h w => Sys2Proof.Machine.execVclamp h w s
  | .vrq h w => Sys2Proof.Machine.execVrq h w s
  | .vnfin h w => Sys2Proof.Machine.execVnfin h w s
  -- copy words
  | .cpy h w => Sys2Proof.Machine.execCpy h w s
  | .cps h w => Sys2Proof.Machine.execCps h w s
  | .gth h w => Sys2Proof.Machine.execGth h w s
  | .sct h w => Sys2Proof.Machine.execSct h w s
  | .rdx h w => Sys2Proof.Machine.execRdx h w s
  | .bcs h w => Sys2Proof.Machine.execBcs h w s
  | .fil h w => Sys2Proof.Machine.execFil h w s
  | .xch h w => Sys2Proof.Machine.execXch h w s
  -- population words
  | .prank h w => Sys2Proof.Machine.execPrank h w s
  | .pcull h w => Sys2Proof.Machine.execPcull h w s
  | .pmig h w => Sys2Proof.Machine.execPmig h w s
  | .plog h w => Sys2Proof.Machine.execPlog h w s
  -- engine, memory and scheduling steps
  | .engineWordRetire c q => Sys2Proof.Machine.execEngineWordRetire c q s
  | .copyWordRetire c k => Sys2Proof.Machine.execCopyWordRetire c k s
  | .populationWordRetire c => Sys2Proof.Machine.execPopulationWordRetire c s
  | .discardWord c q => Sys2Proof.Machine.execDiscardWord c q s
  | .jmuRunEnd bench => Sys2Proof.Machine.execJmuRunEnd bench s
  | .promiseMissed c rseq revised => Sys2Proof.Machine.execPromiseMissed c rseq revised s
  | .wfcyExpiry c => Sys2Proof.Machine.execWfcyExpiry c s
  | .wfcWake c => Sys2Proof.Machine.execWfcWake c s
  | .lateRefusal c => Sys2Proof.Machine.execLateRefusal c s
  | .storeBufferDrain c => Sys2Proof.Machine.execStoreBufferDrain c s
  | .edgeQueueDrain die k => Sys2Proof.Machine.execEdgeQueueDrain die k s
  | .shadowMerge die k => Sys2Proof.Machine.execShadowMerge die k s
  | .translationWalk die asid va => Sys2Proof.Machine.execTranslationWalk die asid va s
  | .messageDelivery k => Sys2Proof.Machine.execMessageDelivery k s
  | .counterIncrement k => Sys2Proof.Machine.execCounterIncrement k s
  | .taskStart c => Sys2Proof.Machine.execTaskStart c s
  | .barrierComplete asid grp name => Sys2Proof.Machine.execBarrierComplete asid grp name s
  | .superstepComplete asid => Sys2Proof.Machine.execSuperstepComplete asid s
  | .governorPeriod asid die => Sys2Proof.Machine.execGovernorPeriod asid die s
  | .balancerPeriod asid => Sys2Proof.Machine.execBalancerPeriod asid s
  | .migrationArrival k => Sys2Proof.Machine.execMigrationArrival k s
  | .pmigArrival port p => Sys2Proof.Machine.execPmigArrival port p s
  | .logDrain c => Sys2Proof.Machine.execLogDrain c s
  | .trapEntry c => Sys2Proof.Machine.execTrapEntry c s
  | .takePendingTrap c => Sys2Proof.Machine.execTakePendingTrap c s
  | .halt asid => Sys2Proof.Machine.execHalt asid s
  | .wordSuspend c q k => Sys2Proof.Machine.execWordSuspend c q k s
  | .contextAbort asid => Sys2Proof.Machine.execContextAbort asid s
  | .abortAgreement asid => Sys2Proof.Machine.execAbortAgreement asid s
  | .dieLost die => Sys2Proof.Machine.execDieLost die s
  | .preemption asid favour => Sys2Proof.Machine.execPreemption asid favour s
  | .scratchpadSwap out into core block => Sys2Proof.Machine.execScratchpadSwap out into core block s
  | .contextSpill asid => Sys2Proof.Machine.execContextSpill asid s
  | .contextRestore asid benches => Sys2Proof.Machine.execContextRestore asid benches s
  | .sliceExpiry asid => Sys2Proof.Machine.execSliceExpiry asid s
  -- host, launch and translation control
  | .launch v => Sys2Proof.Machine.execLaunch v s
  | .launchQueueConfigWrite size v => Sys2Proof.Machine.execLaunchQueueConfigWrite size v s
  | .launchDispatch img => Sys2Proof.Machine.execLaunchDispatch img s
  | .launchComplete asid => Sys2Proof.Machine.execLaunchComplete asid s
  | .invalidatePage asid vpn => Sys2Proof.Machine.execInvalidatePage asid vpn s
  | .invalidateAsid asid => Sys2Proof.Machine.execInvalidateAsid asid s
  | .invalidateAll => Sys2Proof.Machine.execInvalidateAll s
  | .invalidateRejected v => Sys2Proof.Machine.execInvalidateRejected v s
  | .invalidationComplete => Sys2Proof.Machine.execInvalidationComplete s
  | .registerWrite off v => Sys2Proof.Machine.execRegisterWrite off v s
  | .hostMemRead pa n => Sys2Proof.Machine.execHostMemRead pa n s
  | .hostMemWrite pa data => Sys2Proof.Machine.execHostMemWrite pa data s
  -- debug
  | .debugAttach asid => Sys2Proof.Machine.execDebugAttach asid s
  | .debugDetach => Sys2Proof.Machine.execDebugDetach s
  | .stop => Sys2Proof.Machine.execStop s
  | .resume => Sys2Proof.Machine.execResume s
  | .step => Sys2Proof.Machine.execStep s
  | .rewindWin => Sys2Proof.Machine.execRewindWin s
  | .rewindSeq => Sys2Proof.Machine.execRewindSeq s
  | .replay => Sys2Proof.Machine.execReplay s
  | .recordOn => Sys2Proof.Machine.execRecordOn s
  | .recordOff => Sys2Proof.Machine.execRecordOff s
  | .slotSet => Sys2Proof.Machine.execSlotSet s
  | .slotGet => Sys2Proof.Machine.execSlotGet s
  | .debugCommandRefused v => Sys2Proof.Machine.execDebugCommandRefused v s
  | .ddataRead => Sys2Proof.Machine.execDdataRead s
  | .ddataWrite v => Sys2Proof.Machine.execDdataWrite v s
  | .breakpointHit c => Sys2Proof.Machine.execBreakpointHit c s
  | .watchpointHit c => Sys2Proof.Machine.execWatchpointHit c s
  | .traceConfigWrite off v => Sys2Proof.Machine.execTraceConfigWrite off v s
  | .traceSample c => Sys2Proof.Machine.execTraceSample c s
  -- package, trust, links
  | .dieResetRequest v => Sys2Proof.Machine.execDieResetRequest v s
  | .reroute die => Sys2Proof.Machine.execReroute die s
  | .drain die => Sys2Proof.Machine.execDrain die s
  | .dieReset die => Sys2Proof.Machine.execDieReset die s
  | .rejoin die strayed selfTest => Sys2Proof.Machine.execRejoin die strayed selfTest s
  | .keySlotEmpty slot => Sys2Proof.Machine.execKeySlotEmpty slot s
  | .keySlotPlain slot => Sys2Proof.Machine.execKeySlotPlain slot s
  | .keySlotKeyed slot => Sys2Proof.Machine.execKeySlotKeyed slot s
  | .keyUpdateDone => Sys2Proof.Machine.execKeyUpdateDone s
  | .getVersion => Sys2Proof.Machine.execGetVersion s
  | .getCapabilities => Sys2Proof.Machine.execGetCapabilities s
  | .negotiateAlgorithms asym hash meas => Sys2Proof.Machine.execNegotiateAlgorithms asym hash meas s
  | .getDigests => Sys2Proof.Machine.execGetDigests s
  | .getCertificate slot offset len => Sys2Proof.Machine.execGetCertificate slot offset len s
  | .challenge slot req => Sys2Proof.Machine.execChallenge slot req s
  | .getMeasurements index req => Sys2Proof.Machine.execGetMeasurements index req s
  | .spdmUnsupported code => Sys2Proof.Machine.execSpdmUnsupported code s
  | .portDown port => Sys2Proof.Machine.execPortDown port s
  -- management, power, soft errors
  | .updateStage => Sys2Proof.Machine.execUpdateStage s
  | .updateCancel => Sys2Proof.Machine.execUpdateCancel s
  | .updateVerifyDone ioLen => Sys2Proof.Machine.execUpdateVerifyDone ioLen s
  | .packageReset => Sys2Proof.Machine.execPackageReset s
  | .boot inp => Sys2Proof.Machine.execBoot inp s
  | .sensorSample readings => Sys2Proof.Machine.execSensorSample readings s
  | .thermalHalving bench temp => Sys2Proof.Machine.execThermalHalving bench temp s
  | .thermalRecovery bench temp => Sys2Proof.Machine.execThermalRecovery bench temp s
  | .currentTrip die mA => Sys2Proof.Machine.execCurrentTrip die mA s
  | .tripClear die mA => Sys2Proof.Machine.execTripClear die mA s
  | .diePowerDown die mA => Sys2Proof.Machine.execDiePowerDown die mA s
  | .injectArm off v => Sys2Proof.Machine.execInjectArm off v s
  | .scrub array unit => Sys2Proof.Machine.execScrub array unit s
  | .portUp port peer => Sys2Proof.Machine.execPortUp port peer s

end Sys2Proof.Machine
end

