-- ==== Sys2Proof/Machine/Placed.lean ====
section
/-! DEFINITION. One step of the machine over the meanings of the instructions, and a machine with a program placed in it
(notes/assumptions/7.md): what boot, a key operation, page tables and a launch leave, so that the next step fetches. -/

namespace Sys2Proof.Machine

/-- One step: the oldest posted register write; else the next act of the agenda; else the current core's instruction, while
the core clock counts one cycle. What copy words of a halted context have yet to read is kept as it stood at the end of the step in
which the line rose (spec/15 R365). -/
def State.stepWith (s : State) (run : Instr → State → Host.Outcome State Fault Refusal) : Host.Outcome State Fault Refusal :=
  thenNext State.freezeNew (match s.busNext with
  | some (off, v, i) => s.busRun off v i run
  | none =>
    match s.agenda with
    | a :: rest => State.act { s with agenda := rest } a run
    | [] => thenNext (State.passCycle run) (if s.hasCore s.cur then s.coreRun run else .next s))

/-! ### A placed program -/

/-- Address of the placed instruction, virtual and physical. -/
def placedPc : Nat := 0x10000

/-- ASID table at PA 0, whose entry 1 names a root at PA 0x400; the root's entry 0 names a table at PA 0x4000, whose entry 0
is a leaf of 64 GiB at PA 0 with read, write and execute (spec/03 R61 to R64). -/
def placedTables : Mem :=
  Mem.write (Mem.write (Mem.write [] 8 (leBytes 8 0x401)) 0x400 (leBytes 8 0x4001)) 0x4000 (leBytes 8 0x3B)

/-- The launch parameters of the placed context: one bench, 64 KiB of scratchpad, a log ring of no slots. -/
def placedPar : LaunchPar := { LaunchPar.zero with nb := 1, fp := 65536, asid := 1 }

/-- The record of the placed task. -/
def placedRec : TaskRec := ⟨word placedPc, 0, [0, 0, 0, 0, 0, 0], 0⟩

/-- A booted device with every die live, plain key slots 1 and 1,024, and a context on bench 0 of die 0 whose core 0 runs a
task at `placedPc`. -/
def State.placed (s : State) : State :=
  let x : Ctx := { Ctx.init 1 placedPar [0] with tdm := 1 }
  let id : CoreId := ⟨1, 0⟩
  let cores := x.ids.map (fun i => x.freshCore (0, 0, 0) [] i)
  { s with
    dies := s.dies.map (fun (d : Die) => { d with st := .live, pass := true, lost := false })
    lmask := 0xFF
    keys := { slots := [(1, .plain), (1024, .plain)], busy := false, err := false, nextKey := s.keys.nextKey }
    trust := { s.trust with booted := true, up := true }
    asidbase := 0
    hbm := placedTables
    ktag := []
    ctxs := [x]
    cores := cores.map (fun c => if c.id = id then c.start placedRec else c)
    cur := id }

/-- The current core can take an instruction at its pc as its next action. -/
def State.canFetch (s : State) : Bool :=
  let c := s.core s.cur
  s.hasCore s.cur && s.leader s.cur == s.cur && s.mayRun s.cur && c.due.isNone && c.pend.isEmpty && c.rewinding.isNone
    && c.replay.isNone && c.gang.isNone && c.pfx.isNone && !c.breakHit

/-- A machine whose next step is its current core's instruction. -/
def State.ready (s : State) : State :=
  let s := { s with busq := [], agenda := [] }
  if s.canFetch then s else s.placed

/-- Put a parcel where the current core fetches next: in device memory where its pc leads there, else in its fetch buffer. -/
def State.putParcel (s : State) (w : Parcel) : State :=
  let id := s.cur
  let c := s.core id
  let bs := leBytes 4 w.toNat
  match s.resolve id c.runtime c.pc 4 .fetch with
  | .ok (.hbm sl pa) =>
    (s.hbmWrite sl pa bs).modCore id (fun c => { c with ibuf := c.ibuf.filter (fun p => p.1 != c.pc) })
  | _ => s.modCore id (fun c => { c with ibuf := (c.pc, c.runtime, w) :: c.ibuf.filter (fun p => p.1 != c.pc) })

/-- Put a command word at the head of its queue of the current core, as a push would, and let the machine's next act be its
issue. -/
def State.putWord (s : State) (w : CmdWord) : State :=
  let id := s.cur
  let c := s.core id
  let q := queueOf (BitVec.ofNat 2 (wordClass w - 1))
  let pw := match q with
    | .eqm => c.captureMv w
    | .eqv => c.captureMv w
    | .eqc => plainWord w
    | .eqp => c.capturePop w
  let p : Push := ⟨0, 0, c.win.openWin, [pw], some 0, List.replicate 8 0, false, none, 0, false, [], c.lcn, c.runtime, none, 0, [], false⟩
  let e := c.queue q
  let s := s.modCore id (fun c => c.setQueue q { e with pushes := [p], fifo := [], lastEnd := 0, vEnd := 0 })
  match decodeWord w with
  | .ok i => { s with cycle := s.cycle + 256, curq := q, agenda := [.ev i] }
  | .error _ => s

end Sys2Proof.Machine
end

