-- ==== Sys2Proof/Machine/Step.lean ====
section
/-! DEFINITION. The step of the machine. -/

namespace Sys2Proof.Machine

/-- One step of the machine. -/
def step (s : State) : Host.Outcome State Fault Refusal := s.stepWith exec

/-- A machine whose next step runs the instruction with bits `w`: a parcel at the current core's pc, or a command word at the
head of its queue. -/
def State.withFetchWord (s : State) (nbits w : Nat) : State :=
  let s := s.ready
  if nbits ≤ 32 then s.putParcel (BitVec.ofNat 32 (w % 2 ^ nbits)) else s.putWord (BitVec.ofNat 256 (w % 2 ^ nbits))

end Sys2Proof.Machine
end

