-- ==== Sys2Proof/Safety.lean ====
section
/-! DEFINITION. What claims about runs are stated in: an instruction that retires, a core with nothing on its way, a place
that can be accessed, the memories in canonical form, and the effects that several claims name. -/

namespace Sys2Proof.Machine

/-! ### How an instruction ends -/

/-- The core whose instruction retired: the pc one parcel on, the unit over, the counts of instructions one higher
(spec/02 R29, R37). -/
def CoreSt.after (c : CoreSt) : CoreSt :=
  { c with pc := c.pc + 4, pfx := none, instret := c.instret + 1, dicnt := c.dicnt + 1 }

/-- The core whose instruction jumped to `t` and retired. -/
def CoreSt.jumped (c : CoreSt) (t : Word) : CoreSt :=
  { c with pc := t, pfx := none, instret := c.instret + 1, dicnt := c.dicnt + 1 }

/-- The machine in which the current core is changed by `f`, its instruction retired. -/
def State.retiring (s : State) (f : CoreSt → CoreSt) : State := { s.modCore s.cur f with note := .retired }

/-- What an instruction that traps leaves: the trap of a cause and value, with the trapping parcel in `tdet1` (spec/15 R350). -/
def State.traps (s : State) (i : Instr) (code : Nat) (val : Word) : Host.Outcome State Fault Refusal :=
  .next (s.takeTrap ⟨code, val, 0, (parcelOf i).setWidth 64⟩)

/-- What an access that is refused leaves: the precise trap of the refusal code at its address (spec/03 R66). -/
def State.refuses (s : State) (i : Instr) (code : Nat) (va : Word) : Host.Outcome State Fault Refusal :=
  .next (s.takeTrap ⟨refusalCause code, va, word (code * 2 ^ 24), (parcelOf i).setWidth 64⟩)

/-- What an instruction that has to wait leaves: everything as it stood. -/
def State.waits (s : State) : Host.Outcome State Fault Refusal := .next { s with note := .waited }

/-! ### A core with nothing on its way -/

/-- Nothing stands beside what a core's instructions and engines do: no window of it is open, no watchpoint is set, no damage
is injected, no unit is poisoned, every block of its context's scratchpads has come in, and it is not replaying. -/
structure State.Clear (s : State) (id : CoreId) : Prop where
  core   : s.hasCore id = true
  win    : (s.core id).win.unc = none
  wp     : ∀ w ∈ (s.core id).wp.toList, w.ctl.getLsbD 0 = false
  damage : s.mgmt.injected = []
  poison : s.poison = []
  spill  : (s.ctx id.asid).spillIn = []
  replay : (s.core id).replay = none

/-- Nothing of the current core is on its way either: its store buffer, the edge queue and shadow table of its die are empty,
no load was taken ahead and no write of `fitness` is unseen anywhere, no host atomic and no posted register write waits, none of
its own in a window either, and request numbers are left. Engine writes to its own bytes may still be unseen. -/
structure State.Still (s : State) : Prop extends State.Clear s s.cur where
  sb     : (s.core s.cur).sb = []
  edge   : (s.die (s.dieOf s.cur)).edge = []
  shadow : (s.die (s.dieOf s.cur)).shadow = []
  watched : s.watched = false
  posted : ∀ h ∈ (s.die (s.dieOf s.cur)).egress, h.isDev = true → h.owner.1 = s.cur.asid → h.owner.2.1 ≠ s.cur.l
  amo    : (s.core s.cur).hostAmo = none
  busq   : s.busq = []
  rqout  : (s.core s.cur).rqout < 65535

/-- A still machine whose current core has seen every engine write. -/
structure State.Quiet (s : State) : Prop extends State.Still s where
  stale  : (s.core s.cur).stale = []

/-- The current core, the leader of its gang if it has one, takes the instruction at its pc as its next action: no due entry, no
pending trap, no rewind, no breakpoint, no input of a replay and no end of one stands before it (spec/15 R352). -/
structure State.Acts (s : State) : Prop where
  core   : s.hasCore s.cur = true
  runs   : (s.gangOf s.cur).all s.mayRun = true
  rewind : (s.core s.cur).rewinding = none
  due    : (s.core s.cur).due = none
  pend   : ∀ m ∈ s.gangOf s.cur, (s.core m).pendReady = false
  input  : ∀ m ∈ s.gangOf s.cur, (s.core m).awaited 3 = false
  replay : ∀ r, (s.core s.cur).replay = some r → (s.core s.cur).pfx = none → (s.core s.cur).dicnt < r.target
  breaks : ∀ m ∈ s.gangOf s.cur, s.breakStop m = none

/-- Nothing refuses an access of `n` bytes at place `p`, and the die that serves it is there. -/
structure State.Open (s : State) (p : Place) (n : Nat) : Prop where
  late : s.placeRefusal s.cur.asid p n = 0
  die  : ∀ d, s.servedBy s.cur.asid p = some d → s.answers d = true

/-! ### Memory -/

/-- Bytes of a place as the current core reads them there. -/
def State.peek (s : State) (p : Place) (n : Nat) : List Byte :=
  match p with
  | .dev off => leBytes n ((s.busRead (off / 8 * 8)).1.toNat / 256 ^ (off % 8))
  | p => s.placeBytes s.cur p n

/-- The machine after a load of `n` bytes at a place: the die that serves it is touched; a device register may change when it
is read. -/
def State.reading (s : State) (p : Place) (n : Nat) : State :=
  match p with
  | .dev off => (s.busRead (off / 8 * 8)).2
  | p => s.reach s.cur.asid p n

/-- The machine with bytes put at a place outside every window. -/
def State.storing (s : State) (p : Place) (bs : List Byte) : State :=
  match s.put s.cur none p bs with
  | .done t => t
  | .blocked t => t

/-- The store-buffer entry of a write that a core makes, a release write at `sc`; a store to local memory has no request number
(spec/09 R227). -/
def CoreSt.entry (c : CoreSt) (p : Place) (n v : Nat) (kind : WriteKind) (va : Word) (sc : Scope := .die) : BufWrite :=
  ⟨c.id.asid, c.id.l, p, n, v % 256 ^ n, kind, va, if p.isLocal && kind == .store then 0 else c.reqSeq.toNat, c.storeSeq.toNat,
    c.win.openWin, Scope.near sc, c.fitNo, c.rels, 0⟩

/-- The core with a write put into its store buffer: it takes the next store number and, unless it is a store to local
memory, the next request number; what it loaded ahead of those bytes is dropped (spec/09 R227, spec/14 R328). -/
def CoreSt.buffering (c : CoreSt) (e : BufWrite) : CoreSt :=
  { c with
    sb := c.sb ++ [e]
    early := keepAhead c.early e.place e.n
    storeSeq := c.storeSeq + 1
    reqSeq := if e.place.isLocal && e.kind == .store then c.reqSeq else c.reqSeq + 1 }

/-- Stores of the current core to its own scratchpad that lie in no window (a store buffer's entries, oldest first). -/
def State.ownStores (s : State) (ws : List BufWrite) : Bool :=
  ws.all (fun w => w.kind == .store && w.asid == s.cur.asid && w.l == s.cur.l && w.win.isNone &&
    (match w.place with
     | .scratch l _ => l == s.cur.l
     | _ => false))

/-- A table of numbers keyed by rising indices. -/
def tabOk (t : List (Nat × Nat)) : Prop := t.Pairwise (fun p q => p.1 < q.1)

/-- Every memory of the machine stands in its canonical form: device memory, host memory, and the scratchpad, register space
and counters of every core. -/
def State.MemOk (s : State) : Prop :=
  Mem.wf s.hbm ∧ Mem.wf s.host ∧ ∀ c ∈ s.cores, Mem.wf c.reg ∧ Mem.wf c.scratch ∧ tabOk c.ctrs

/-- Places that take LR and SC or every atomic: device memory and scratchpads (spec/02 R29, spec/09 R217). -/
def Place.plain : Place → Bool
  | .scratch .. => true
  | .hbm .. => true
  | _ => false

/-! ### Effects named by several claims -/

/-- Accrue float flags in `fcsr` (spec/02 R29). -/
def CoreSt.accruing (c : CoreSt) (fl : Nat) : CoreSt := { c with csr := { c.csr with fcsr := accrue c.csr.fcsr fl } }

/-- What a float instruction does to its core: a rounding mode that the instruction and `frm` leave reserved has no effect
(spec/02 R29). -/
def floatDo (op : FloatOp) (c : CoreSt) : Option (CoreSt → CoreSt) :=
  let put (fmt : FFmt) (rd : Reg) (r : Nat × Nat) : CoreSt → CoreSt := fun x => (x.wf rd (nanBox fmt r.1)).accruing r.2
  let code (fmt : FFmt) (r : Reg) : Nat := unbox fmt (c.rf r)
  let mode (rm : BitVec 3) : Option RM := fpMode rm c.csr.fcsr
  match op with
  | .fma op fmt rd a b d rm =>
    (mode rm).map (fun m => put fmt rd (fmaEval op (fpFmt fmt) (code fmt a) (code fmt b) (code fmt d) m))
  | .arith op fmt rd a b rm => (mode rm).map (fun m => put fmt rd (arithEval op (fpFmt fmt) (code fmt a) (code fmt b) m))
  | .sqrt fmt rd a rm => (mode rm).map (fun m => put fmt rd (fpSqrt (fpFmt fmt) (code fmt a) m))
  | .sgnj op fmt rd a b => some (fun x => x.wf rd (nanBox fmt (sgnEval op (fpFmt fmt) (code fmt a) (code fmt b))))
  | .minmax mx fmt rd a b => some (put fmt rd (fpMinMax (fpFmt fmt) mx (code fmt a) (code fmt b)))
  | .cmp op fmt rd a b =>
    let r := fpCmp (fpFmt fmt) op (code fmt a) (code fmt b)
    some (fun x => (x.wx rd (bool64 r.1)).accruing r.2)
  | .toInt ity fmt rd a rm => (mode rm).map (fun m =>
    let r := fpToInt (fpFmt fmt) ity (code fmt a) m
    fun x => (x.wx rd r.1).accruing r.2)
  | .ofInt ity fmt rd a rm => (mode rm).map (fun m => put fmt rd (fpOfInt (fpFmt fmt) ity (c.rx a) m))
  | .cvt dst src rd a rm => (mode rm).map (fun m => put dst rd (fpCvt (fpFmt dst) (fpFmt src) (code src a) m))
  | .mvX fmt rd a => some (fun x => x.wx rd (sextNat (fpWidth fmt) (c.rf a).toNat))
  | .mvF fmt rd a => some (fun x => x.wf rd (nanBox fmt (c.rx a).toNat))
  | .cls fmt rd a => some (fun x => x.wx rd (fpClass (fpFmt fmt) (code fmt a)))

/-- Destination of a load written: integer registers sign- or zero-extended, float registers NaN-boxed (spec/02 R29,
spec/07 R154). -/
def CoreSt.loaded (c : CoreSt) (op : LoadOp) (rd : Reg) (v : Nat) : CoreSt :=
  match op with
  | .lb => c.wx rd (sextNat 8 v)
  | .lh => c.wx rd (sextNat 16 v)
  | .lw => c.wx rd (sextNat 32 v)
  | .ld => c.wx rd (sextNat 64 v)
  | .lbu | .lhu | .lwu => c.wx rd (word v)
  | .flh => c.wf rd (nanBox .h v)
  | .flw => c.wf rd (nanBox .s v)
  | .fld => c.wf rd (word v)

/-- A CSR instruction writes unless it is a set or clear with operand register or immediate 0. -/
def csrWrites (op : CsrOp) (src : Reg) : Bool := op == .rw || src != 0

/-- New value of a CSR from its old one and the operand. -/
def csrNew (op : CsrOp) (old arg : Word) : Word :=
  match op with
  | .rw => arg
  | .rs => old ||| arg
  | .rc => old &&& ~~~arg

/-- A CSR instruction is allowed: the register exists, its level is met, and no read-only register is written. -/
def csrAllowed (c : CoreSt) (op : CsrOp) (n : Nat) (src : Reg) : Bool :=
  csrExists n && (c.runtime || !csrRuntime n) && !(csrReadOnly n && csrWrites op src)

/-- One armed record met by an increment of counter `k`: the counter pays for it and it is launched, or it stays (spec/11
R265). -/
def launchStep (k : Nat) (acc : Nat × List Armed × List Armed) (w : Armed) : Nat × List Armed × List Armed :=
  if w.ctr = k ∧ w.th ≤ acc.1 then (acc.1 - w.th, acc.2.1 ++ [w], acc.2.2) else (acc.1, acc.2.1, acc.2.2 ++ [w])

/-- Bytes of the own scratchpad at `a` can be read: they lie below F and nothing refuses them. -/
structure State.OwnOk (s : State) (a n : Nat) : Prop where
  fits : a + n ≤ (s.ctx s.cur.asid).par.fp
  low  : a + n ≤ 2 ^ 20
  open_ : s.Open (.scratch s.cur.l a) n

/-- The record at own-scratchpad address `a`, as the running core publishes it (spec/11 R259, R268). -/
def State.recordAt (s : State) (a : Nat) : TaskRec := TaskRec.ofBytes (s.peek (.scratch s.cur.l a) 64) s.cur.l

/-- A publication at own-scratchpad address `v` passes its checks (spec/11 R261, R268). -/
structure State.Publishable (s : State) (v : Word) : Prop where
  align : v.toNat % 64 = 0
  own   : s.OwnOk v.toNat 64
  valid : (s.ctx s.cur.asid).recReason (s.recordAt v.toNat) = 0

/-- The run pool that a record enters has room. -/
def State.roomFor (s : State) (r : TaskRec) : Prop := s.poolFull ((s.ctx s.cur.asid).dieOf r.lcn) = false

/-- The core becomes idle: the trace record of the task's end, and the gang split (spec/11 R271, R272, R282). -/
def State.idling (s : State) (yield : Bool) (d0 : Word) : State :=
  (s.trace 0x04 s.cur d0 (word ((if yield then 2 ^ 24 else 0) + (s.core s.cur).lcnOrNone))).splitGang s.cur

/-- The core left by a `tdone` or `tyield` that retired. -/
def CoreSt.idled (c : CoreSt) : CoreSt :=
  { c with task := none, cont := false, pfx := none, instret := c.instret + 1, dicnt := c.dicnt + 1 }

/-- The pc moves on before the core becomes idle. -/
def State.onward (s : State) : State := s.modCore s.cur (fun c => { c with pc := c.pc + 4 })

/-- An arrival at the barrier that descriptor `d` names passes the checks 0x02 to 0x05 of spec/11 R275. -/
structure State.MayArrive (s : State) (d : Word) (gth : Bool) : Prop where
  member : (s.ctx s.cur.asid).inGroup (Barrier.grpOf d) (s.core s.cur).lcn = true
  first  : s.arrivalOf s.cur.asid (s.core s.cur).lcn (Barrier.nameOf d) = none
  oneDie : Barrier.dsc d = true → ((s.ctx s.cur.asid).members (Barrier.grpOf d)).all (fun m =>
    (s.ctx s.cur.asid).dieOf m == (s.ctx s.cur.asid).dieOf (((s.ctx s.cur.asid).members (Barrier.grpOf d)).headD 0)) = true
  same   : (s.ctx s.cur.asid).barriers.any (fun b =>
    b.grp == Barrier.grpOf d && b.name == Barrier.nameOf d && b.gth != gth) = false

/-- The machine after an arrival; `waits` says that the instruction stays to wait at it. -/
def State.arriving (s : State) (d : Word) (gth : Bool) (cen ballot : Option Nat) (waits : Bool) : State :=
  let c := s.core s.cur
  (s.modCtx s.cur.asid (fun x => x.arriveAt (Barrier.grpOf d) (Barrier.nameOf d) c.lcn gth cen ballot c.gathered [])).modCore
    ⟨s.cur.asid, c.lcn⟩ (fun h => { h with arrivals := h.arrivals ++
      [⟨Barrier.nameOf d, Barrier.grpOf d, gth, false, 0, [], [], if waits then some (s.cur.l, c.pc) else none⟩] })

/-- View `vw` of the running core, the container of its elements, and the rows and row length of its image. -/
def State.viewImage (s : State) (vw : BitVec 4) (col : Bool) : Desc × Nat × Nat × Nat :=
  let c := s.core s.cur
  let v := vget c.vw vw.toNat Desc.zero
  (v, v.container (c.viewFmt v), if col then v.shape.2 else v.shape.1, if col then v.shape.1 else v.shape.2)

/-- A transfer between view `vw` and the image at own-scratchpad address `a` passes its checks (spec/06 R138, R139). -/
structure State.TransferOk (s : State) (vw : BitVec 4) (a : Word) (vec col : Bool) : Prop where
  set   : (s.viewImage vw col).1.isNone = false
  shape : (s.viewImage vw col).1.isVec = vec
  size  : (s.viewImage vw col).1.sizeReason (s.viewImage vw col).2.1 = 0
  even  : (s.viewImage vw col).2.1 = 4 → (s.viewImage vw col).2.2.2 % 2 = 0 ∧
    ((s.viewImage vw col).1.isVec = false → (s.viewImage vw col).1.cols % 2 = 0)
  align : a.toNat % 16 = 0
  own   : s.OwnOk a.toNat ((s.viewImage vw col).2.2.1 * ((s.viewImage vw col).2.2.2 * (s.viewImage vw col).2.1 / 8))
  low   : a.toNat < 2 ^ 20

/-- The machine after elements moved into view `v` of the running core; bit [127] of an accumulator element keeps its value
(spec/07 R157). -/
def State.moved (s : State) (v : Desc) (k : Nat) (es : List Nat) : State :=
  s.viewWrite s.cur v k (v.keepSpare (v.readFrom k (s.core s.cur).reg) es)

/-- The machine after a transfer from the image at `a` to view `vw`. -/
def State.viewLoaded (s : State) (vw : BitVec 4) (a : Nat) (col : Bool) : State :=
  let (v, k, nr, nc) := s.viewImage vw col
  let es := unpack k (s.peek (.scratch s.cur.l a) (nr * (nc * k / 8)))
  (s.reach s.cur.asid (.scratch s.cur.l a) (nr * (nc * k / 8)) true).moved v k (if col then transpose nr nc es else es)

/-- The machine after a transfer from view `vw` to the image at `a`, which the other cores of the die see at once. -/
def State.viewStored (s : State) (vw : BitVec 4) (a : Nat) (col : Bool) : State :=
  let (v, k, _, _) := s.viewImage vw col
  let es := v.readFrom k (s.core s.cur).reg
  let bs := pack k (if col then transpose v.shape.1 v.shape.2 es else es)
  let p := Place.scratch s.cur.l a
  let n := (s.viewImage vw col).2.2.1 * ((s.viewImage vw col).2.2.2 * k / 8)
  (s.storing p bs).askPlace s.cur.asid 2 s.cur.l 0 p n

/-- `xmv` between two views passes its checks (spec/06 R142, R143). -/
structure State.MoveOk (s : State) (dst src : BitVec 4) : Prop where
  set   : (vget (s.core s.cur).vw src.toNat Desc.zero).isNone = false ∧ (vget (s.core s.cur).vw dst.toNat Desc.zero).isNone = false
  size  : let c := s.core s.cur
          let S := vget c.vw src.toNat Desc.zero
          let D := vget c.vw dst.toNat Desc.zero
          S.sizeReason (S.container (c.viewFmt S)) = 0 ∧ D.sizeReason (D.container (c.viewFmt D)) = 0 ∧
          (S.container (c.viewFmt S) = 4 → S.shape.2 % 2 = 0) ∧ (D.container (c.viewFmt D) = 4 → D.shape.2 % 2 = 0) ∧
          S.elems = D.elems

/-- The machine goes on: the outcome is a next state. -/
def goesOn (r : Host.Outcome State Fault Refusal) : Prop :=
  match r with
  | .next _ => True
  | _ => False

/-! ### Engine words -/

/-- The machine after a push of the words `ws`, captured as `ps`: it enters its queue with a request number and a store
number, and a copy push enters a promise in its FIFO (spec/09 R226, R227, spec/04 R84). -/
def State.pushing (s : State) (q : Queue) (ws : List CmdWord) (ps : List PWord) : State :=
  let c := s.core s.cur
  let e := c.queue q
  let tick := s.pcc (s.dieOf s.cur)
  let promise : Word :=
    if q = .eqc then
      (if openEnded ws then word (2 ^ 64 - 1) else word (min (tick + 1 + (Config.freeWord s.fresh).toNat) (2 ^ 64 - 2)))
    else 0
  let p : Push := ⟨c.reqSeq.toNat, c.storeSeq.toNat, none, ps, some 0, List.replicate 8 0, false, none, promise, false, [], c.lcn,
    c.runtime, none, s.cycle, [], false⟩
  let fifo := if q = .eqc then (if e.fifo.length ≥ 32 then e.fifo.drop 1 else e.fifo) ++ [(promise, none, [])] else e.fifo
  (if q = .eqc then s.bump else s).retiring (fun x =>
    (({ x with reqSeq := x.reqSeq + 1, storeSeq := x.storeSeq + 1 } : CoreSt).setQueue q
      { e with pushes := e.pushes ++ [p], fifo }).after)

/-- How a push captures a word for a queue: with its views and formats for the matrix, vector and population queues. -/
def CoreSt.capture (c : CoreSt) (q : Queue) (w : CmdWord) : PWord :=
  match q with
  | .eqm | .eqv => c.captureMv w
  | .eqc => plainWord w
  | .eqp => c.capturePop w

/-- The queue and the command of a matrix or vector word. -/
def mvOpOf (i : Instr) : Option (Queue × MvOp) :=
  match i with
  | .mmf88 .. => some (.eqm, mulOp ⟨8, 8, true, false, 16⟩)
  | .mmf84 .. => some (.eqm, mulOp ⟨8, 4, true, false, 16⟩)
  | .mmf44 .. => some (.eqm, mulOp ⟨4, 4, true, false, 32⟩)
  | .mmh16 .. => some (.eqm, mulOp ⟨16, 16, true, false, 8⟩)
  | .mmh8 .. => some (.eqm, mulOp ⟨16, 8, true, false, 8⟩)
  | .mmi88 .. => some (.eqm, mulOp ⟨8, 8, false, false, 16⟩)
  | .mmi84 .. => some (.eqm, mulOp ⟨8, 4, false, false, 16⟩)
  | .mmi44 .. => some (.eqm, mulOp ⟨4, 4, false, false, 32⟩)
  | .mspf88 .. => some (.eqm, mulOp ⟨8, 8, true, true, 16⟩)
  | .mspf44 .. => some (.eqm, mulOp ⟨4, 4, true, true, 32⟩)
  | .mspi88 .. => some (.eqm, mulOp ⟨8, 8, false, true, 16⟩)
  | .msph16 .. => some (.eqm, mulOp ⟨16, 16, true, true, 8⟩)
  | .mzero .. => some (.eqm, mzeroOp)
  | .manch .. => some (.eqm, manchOp)
  | .mresI .. => some (.eqm, mresIOp)
  | .mresF .. => some (.eqm, mresFOp)
  | .mcmp .. => some (.eqm, mcmpOp)
  | .vadd .. => some (.eqv, vecOp vAdd)
  | .vsub .. => some (.eqv, vecOp vSub)
  | .vmul .. => some (.eqv, vecOp vMul)
  | .vfma .. => some (.eqv, vecOp vFma)
  | .vmax .. => some (.eqv, vecOp vMax)
  | .vmin .. => some (.eqv, vecOp vMin)
  | .vabs .. => some (.eqv, vecOp vAbs)
  | .vneg .. => some (.eqv, vecOp vNeg)
  | .vshl .. => some (.eqv, vecOp vShl)
  | .vshr .. => some (.eqv, vecOp vShr)
  | .vsra .. => some (.eqv, vecOp vSra)
  | .vand .. => some (.eqv, vecOp vAnd)
  | .vor .. => some (.eqv, vecOp vOr)
  | .vxor .. => some (.eqv, vecOp vXor)
  | .vcmp .. => some (.eqv, vecOp vCmp)
  | .vsel .. => some (.eqv, vecOp vSel)
  | .vcvt .. => some (.eqv, vecOp vCvt)
  | .vrcp .. => some (.eqv, vecOp vRcp)
  | .vexp2 .. => some (.eqv, vecOp vExp2)
  | .vreds .. => some (.eqv, vecOp vReds)
  | .vredm .. => some (.eqv, vecOp vRedm)
  | .vperm .. => some (.eqv, vecOp vPerm)
  | .vbcast .. => some (.eqv, vecOp vBcast)
  | .vscl .. => some (.eqv, vecOp vScl)
  | .vclamp .. => some (.eqv, vecOp vClamp)
  | .vrq .. => some (.eqv, vecOp vRq)
  | .vnfin .. => some (.eqv, ⟨vecTime, 2, false, runVector true vNfin⟩)
  | _ => none

/-- A copy word. -/
def isCopyWord (i : Instr) : Bool :=
  match i with
  | .cpy .. | .cps .. | .gth .. | .sct .. | .rdx .. | .bcs .. | .fil .. | .xch .. => true
  | _ => false

/-- What a population word does. -/
def popRunOf (i : Instr) : Option (State → CoreId → Head → PopRes) :=
  match i with
  | .prank .. => some runPrank
  | .pcull .. => some runPcull
  | .pmig .. => some runPmig
  | .plog .. => some runPlog
  | _ => none

/-- The conditions on which a matrix or vector word at the head of a queue starts (spec/08 R173), its unit among them, with
every word before it in the queue done, so that every read is of what stands in memory now (R180, R181); its push lies in no
window. The machine is taken after the guards of this cycle have been examined. -/
structure State.MvStarts (s : State) (q : Queue) (w : CmdWord) (h : Head) (ents : List (Nat × Nat)) : Prop where
  clear : s.Clear s.cur
  head  : (s.core s.cur).headOf q = some h
  word  : h.pw.word = w
  ready : s.mvReady s.cur q = true
  unit  : (s.takeUnit s.cur q).isSome = true
  rings : ((s.core s.cur).claims (fieldRings w)).map Prod.snd = some ents
  done  : ∀ f ∈ (s.core s.cur).flights, f.q = q → f.occEnd ≤ f.retireAt ∧ f.retireAt ≤ s.cycle
  early : (s.core s.cur).checks q = true → ((s.core s.cur).queue q).shortfall h.pw.word
    (h.pw.reads ++ h.pw.entryRegions s.cur.l ents false) h.pw.accReads h.push.came = 0
  win   : h.push.win = none

/-- The pushes of a queue after the one at its head has ended: it stays only while words of it are in flight (spec/04 R84). -/
def CoreSt.headEnded (c : CoreSt) (q : Queue) : List Push :=
  (modHeadPush (fun p => { p with pos := none, decided := none }) (c.queue q).pushes).filter
    (fun p => p.pos.isSome || c.flights.any (fun f => f.ofPush q p))

/-- What a matrix or vector word computes: its command on the register space, scratchpad and claimed entries of the core. -/
def State.mvOut (s : State) (op : MvOp) (h : Head) (ents : List (Nat × Nat)) : MvOut :=
  let c := s.core s.cur
  op.run ⟨h.pw, c.reg, c.scratch, claimAt ents, (s.ctx s.cur.asid).par.seed, h.push.lcn, fun i => Config.freeWord (s.fresh + i)⟩

/-- Register space with the writes of a word made and the `res` flags set that it sets (spec/07 R157). -/
def MvOut.onReg (o : MvOut) (m : Mem) : Mem :=
  o.resAt.foldl (fun m a => m.write a (leBytes 16 ((m.readNat a 16 ||| 2 ^ 125) % 2 ^ 127)))
    (o.regW.foldl (fun m w => m.write w.1 w.2) m)

/-- The conditions on which a copy word at the head of `eqc` issues (spec/04 R80, R81), its push in no window, its index list
within the scratchpad. The machine is taken after the guards of this cycle have been examined. -/
structure State.CopyStarts (s : State) (w : CmdWord) (h : Head) (eng : Nat) : Prop where
  clear : s.Clear s.cur
  head  : (s.core s.cur).headOf .eqc = some h
  word  : h.pw.word = w
  ready : s.copyReady s.cur = true
  turn  : s.copyTurn s.cur = true
  eng_  : s.engineFor s.cur w = some eng
  index : ∀ e, indexRange ⟨w⟩ (ShapeRec.ofBytes h.pw.shape) = some e → e.1 + e.2 ≤ (s.ctx s.cur.asid).par.fp
  win   : h.push.win = none

/-- The pieces of a copy word: the destination bytes it moves, with where each comes from (spec/04 R91 to R99). -/
def State.piecesOf (s : State) (h : Head) : List Piece :=
  let r := ShapeRec.ofBytes h.pw.shape
  let is : List Nat := match indexRange ⟨h.pw.word⟩ r with
    | none => []
    | some (a, _) => (List.range (r.e 1)).map (fun j => (s.core s.cur).scratch.readNat (a + 4 * j) 4)
  if wordOp h.pw.word = 0x08 then [] else copyPieces ⟨h.pw.word⟩ r is ((s.ctx s.cur.asid).members (CpF.grp ⟨h.pw.word⟩))

/-- The flight of a copy word that has just issued. -/
def State.copyFlight (s : State) (h : Head) (eng : Nat) : Flight :=
  { Flight.of (s.core s.cur) .eqc h with
    occEnd := s.cycle, retireAt := s.cycle, scope := CpF.scope ⟨h.pw.word⟩, pieces := s.piecesOf h
    logs := s.extents s.cur h.push.runtime (s.piecesOf h)
    xpend := decide (wordOp h.pw.word = 0x08) && !h.pw.block.isEmpty, eng }

/-- The machine in which a copy word has issued: its push has moved on, into the block of an `xch`, and its flight is in its
engine (spec/04 R80, R95). -/
def State.copyIssued (s : State) (h : Head) (eng : Nat) : State :=
  let isX := wordOp h.pw.word = 0x08
  let uid := (s.core s.cur).issueNo
  let s0 := match indexRange ⟨h.pw.word⟩ (ShapeRec.ofBytes h.pw.shape) with
    | some (a, n) => s.askPlace s.cur.asid 3 (16 + s.cur.l) 0 (.scratch s.cur.l a) n
    | none => s
  let s1 := s0.modHead s.cur .eqc (fun p =>
    if (decide isX && !h.pw.block.isEmpty) = true then
      { p with xrun := some ⟨uid, some 0, List.replicate 8 0, false⟩, decided := none }
    else p.step h.pw.word)
  let s2 := s1.modCore s.cur (fun c => { (c.setQueue .eqc { c.eqc with lastEnd := s.cycle }) with
    issueNo := uid + 1, flights := c.flights ++ [s.copyFlight h eng] })
  (s2.modLease s.cur (fun l => { l with clast := s.cur.l % 4 })).modDie (s.dieOf s.cur) (fun d =>
    { d with portLast := if isX then d.portLast else s.benchAt s.cur % 36 })

/-- The conditions on which a population word at the head of `eqp` issues (spec/13 R308), its push in no window. The machine
is taken after the guards of this cycle have been examined. -/
structure State.PopStarts (s : State) (w : CmdWord) (h : Head) : Prop where
  clear : s.Clear s.cur
  head  : (s.core s.cur).headOf .eqp = some h
  word  : h.pw.word = w
  ready : s.popReady s.cur = true
  turn  : s.popTurn s.cur = true
  win   : h.push.win = none

/-- The ranking of the group of a population word, as the word reads it (spec/13 R311). -/
def State.ranked (s : State) (h : Head) : List Ranked := (s.ranking s.cur.asid (PpF.grp ⟨h.pw.word⟩) (some (s.cur.l, h.push.seq))).2

/-- The scratchpads of a list of logical cores of the running context answer. -/
def State.cellsOpen (s : State) (ls : List Nat) : Prop := ∀ l ∈ ls, s.answers ((s.ctx s.cur.asid).dieOf l) = true

/-- A population word in flight on a core: what its retirement hands over (spec/13 R308). -/
structure CoreSt.PopInFlight (c : CoreSt) (h : Head) (result : Word) (lineage : List (List Byte)) : Prop where
  there : ∃ f ∈ c.flights, f.q = .eqp ∧ f.word = h.pw.word ∧ f.result = some result ∧ f.lineage = lineage

/-- The lineage ring takes records from a slot on, one after the other, each in the 32 bytes of its slot, and `t` is what they leave
(spec/13 R317). -/
def State.RingTakes (s : State) (id : CoreId) (h : Head) (base size slot : Nat) : List (List Byte) → State → Prop
  | [], t => t = s
  | r :: rs, t => ∃ u bs, s.engWrite id h.push.runtime
      ⟨h.push.win, h.push.seq, false, .run (s.core id).issueNo slot, 32, []⟩ ⟨0, 0, base + slot * 32⟩ r = .ok u bs ∧
      u.RingTakes id h base size ((slot + 1) % size) rs t

/-- Nothing that a word's pops or its signal would launch is armed on its core: no pool has to have room for it (spec/11 R262). -/
def CoreSt.LaunchFree (c : CoreSt) (ps : List (Nat × Nat)) (signals : Bool) : Prop :=
  c.waiting = [] ∨ signals = false ∧ ∀ r ∈ ps, bit (vget c.rg r.1 Desc.zero).d0 52 = false

/-- A word in flight on core `id` can retire: its writes are made, no completion is held or owed, no load was taken ahead and no write of `fitness` is unseen, nothing is recorded or replayed, no push-time write of the
edge queue stands before it, and what its signal and its pops launch finds room in the pools (spec/08 R173, R175, spec/04
R87, spec/11 R262). -/
structure State.Retires (s : State) (id : CoreId) (f : Flight) : Prop where
  core   : s.hasCore id = true
  made   : f.scrW = []
  owes   : s.owes id f = false
  holds  : s.holds id f = false
  watched : s.watched = false
  win    : (s.core id).win.unc = none
  replay : (s.core id).replay = none
  edge   : (s.die (s.dieOf id)).edge = []
  arms   : (s.core id).LaunchFree f.pops f.sig.isSome

/-- A flight has left its engine, its counts entered in the event counters of its core (spec/09 R239). -/
def State.flown (s : State) (id : CoreId) (f : Flight) : State :=
  s.modCore id (fun c => ({ c.countFlight f with flights := c.flights.filter (fun g => g.uid != f.uid) } : CoreSt).prune f.q)

/-- Rings popped, each by its number of entries; a ring that counts its pops counts them in one increment (spec/05 R110). -/
def State.popped (s : State) (id : CoreId) (ps : List (Nat × Nat)) : State :=
  ps.foldl (fun s r =>
    let d := vget (s.core id).rg r.1 Desc.zero
    let t := s.modCore id (fun c =>
      { c with rg := vset c.rg r.1 (d.setPtrs (d.head + r.2) d.tail ((d.hslot + r.2) % d.count)) })
    if d.unset then s else if bit d.d0 52 then t.increment id (bits d.d0 51 40) r.2 else t) s

/-- The machine after a head word was discarded: its claims are made, its destination entries published and its source entries
popped, its signal counted; its push has moved on, and on `eqm` it counts in the run (spec/09 R224). -/
def State.discarded (s : State) (id : CoreId) (q : Queue) (h : Head) (claimed : CoreSt) : State :=
  let w := h.pw.word
  let s := s.modCore id (fun c => { c with rgp := claimed.rgp })
  let s := ((fieldRings w).filter (fun r => r.2.2)).foldl (fun s r => s.pubRing id r.2.1) s
  let s := s.popped id (wordPops w)
  let s := if wbits w 17 17 = 1 then s.increment id (wbits w 29 18) 1 else s
  let s := s.modHead id q (fun p => { p.step w with gone := (h.key, s.cycle) :: p.gone.filter (fun g => g.2 == s.cycle) })
  let s := s.modCore id (fun c => (c.setQueue q ((c.queue q).ended w h.push.came s.cycle)).prune q)
  if q = .eqm then s.modLease id (fun l => { l with words := l.words + 1 }) else s

/-- The machine after the completion of a word: the entries it used are published and popped, its result element enters its
FIFO, its lineage records the context's buffer, and its completion counter is signalled; the writes it made are visible
(spec/04 R87, spec/08 R175, spec/13 R308). -/
def State.completed (s : State) (id : CoreId) (f : Flight) : State :=
  let s := f.pubs.foldl (fun s r => s.pubRing id r.1) s
  let s := s.popped id f.pops
  let s := match f.result with
    | some v => s.modCore id (fun c => c.setQueue f.q { c.queue f.q with fifo := (c.queue f.q).fifo ++ [(v, f.win, [])] })
    | none => s
  let s := s.modCtx id.asid (fun x => { x with lineage := x.lineage ++ f.lineage.map (fun r => (id.l, f.win, r)) })
  match f.sig with
  | some n => if f.faulted then s else s.increment id n 1
  | none => s

end Sys2Proof.Machine
end

