-- ==== Sys2Proof/WellFormed.lean ====
section
/-! DEFINITION. Which instructions an encoding admits: limits on operands that their types do not state. -/

namespace Sys2Proof

/-- Rules of spec/02 that an instruction's operands obey when it can be written as a parcel or a command word:
`fm` of `fence` (R29), 5-bit shift amounts, a conversion between two formats, `gset` and `gclr` of g1 to g15 (R38), the
index register of `nfcvt` only with `.sr` (R41), the reserved bits of copy words (R47). -/
def wellFormed : Instr → Bool
  | .fence fm _ _ => fm == 0#4 || fm == 8#4
  | .integerOp (.shift .slliw _ _ sh) => sh.ult 32#6
  | .integerOp (.shift .srliw _ _ sh) => sh.ult 32#6
  | .integerOp (.shift .sraiw _ _ sh) => sh.ult 32#6
  | .integerOp (.shift .roriw _ _ sh) => sh.ult 32#6
  | .floatOp (.cvt dst src _ _ _) => dst != src
  | .gset g => g != 0#4
  | .gclr g => g != 0#4
  | .nfcvtN rm _ _ _ rs2 => rm == .sr || rs2 == 0#5
  | .nfcvtF rm _ _ _ rs2 => rm == .sr || rs2 == 0#5
  | .cpy _ w | .cps _ w | .gth _ w | .sct _ w | .rdx _ w | .bcs _ w | .xch _ w => w.lo.extractLsb' 60 4 == 0#4
  | _ => true

end Sys2Proof
end

