-- ==== Sys2Proof/Certificates/Slice0/Obligations.lean ====
section
/-! DEFINITION. What is claimed of the machine. Each statement's docstring names the rules it rests on; a clause that rests
on a choice of the model names its log entry. -/

open Sys2Proof Sys2Proof.Machine

/-! ### Standard RISC-V -/

/-- Every integer instruction retires: it writes the result of its operands, the upper immediate of an `imx` counted in, to
its destination (x0 discards), and leaves every other register, flag and all memory as they were (spec/02 R29, R35).

The results are those of the standard classes that R29 names: sums, products and shifts of 64 bits; exact high products;
division that rounds towards zero, with all ones for a zero divisor and the dividend for an overflow; `W` forms that work on the
low 32 bits and sign-extend; the address, count, byte and compare forms of Zba and Zbb. -/
def Obligations.IntegerOpResult : Prop :=
  (∀ (s : State) (op : IntegerOp), s.hasCore s.cur = true →
    exec (.integerOp op) s =
      .next (s.retiring (fun c => (c.wx (intResult op (s.core s.cur)).1 (intResult op (s.core s.cur)).2).after))) ∧
  (∀ (c : CoreSt) (rd r1 r2 : Reg) (o : RROp) (u : UnOp) (m : ImmOp) (h : ShOp) (imm : BitVec 12) (sh : BitVec 6) (up : BitVec 20),
    (intResult (.rr o rd r1 r2) c).1 = rd ∧ (intResult (.un u rd r1) c).1 = rd ∧ (intResult (.imm m rd r1 imm) c).1 = rd ∧
    (intResult (.shift h rd r1 sh) c).1 = rd ∧ (intResult (.lui rd up) c).1 = rd ∧ (intResult (.auipc rd up) c).1 = rd) ∧
  (∀ (c : CoreSt) (rd r1 r2 : Reg),
    let a := c.rx r1
    let b := c.rx r2
    let k := b.toNat % 64
    let res (op : RROp) : Word := (intResult (.rr op rd r1 r2) c).2
    let one (op : UnOp) : Word := (intResult (.un op rd r1) c).2
    (res .add).toNat = (a.toNat + b.toNat) % 2 ^ 64 ∧ res .sub + b = a ∧
    (res .sll).toNat = a.toNat * 2 ^ k % 2 ^ 64 ∧ (res .srl).toNat = a.toNat / 2 ^ k ∧ (res .sra).toInt = a.toInt / 2 ^ k ∧
    res .slt = (if a.toInt < b.toInt then 1 else 0) ∧ res .sltu = (if a.toNat < b.toNat then 1 else 0) ∧
    (∀ i < 64, (res .xor).getLsbD i = (a.getLsbD i != b.getLsbD i) ∧ (res .or).getLsbD i = (a.getLsbD i || b.getLsbD i) ∧
      (res .and).getLsbD i = (a.getLsbD i && b.getLsbD i) ∧ (res .andn).getLsbD i = (a.getLsbD i && !b.getLsbD i) ∧
      (res .orn).getLsbD i = (a.getLsbD i || !b.getLsbD i) ∧ (res .xnor).getLsbD i = (a.getLsbD i == b.getLsbD i) ∧
      (res .rol).getLsbD i = a.getLsbD ((i + 64 - k) % 64) ∧ (res .ror).getLsbD i = a.getLsbD ((i + k) % 64)) ∧
    (res .mul).toNat = a.toNat * b.toNat % 2 ^ 64 ∧
    (res .mulh).toInt * 2 ^ 64 + (res .mul).toNat = a.toInt * b.toInt ∧
    (res .mulhsu).toInt * 2 ^ 64 + (res .mul).toNat = a.toInt * b.toNat ∧
    (res .mulhu).toNat * 2 ^ 64 + (res .mul).toNat = a.toNat * b.toNat ∧
    (b = 0 → res .div = BitVec.allOnes 64 ∧ res .divu = BitVec.allOnes 64 ∧ res .rem = a ∧ res .remu = a) ∧
    (b ≠ 0 → (res .divu).toNat = a.toNat / b.toNat ∧ (res .remu).toNat = a.toNat % b.toNat ∧
      (res .rem).toInt = a.toInt.tmod b.toInt ∧ (b ≠ -1#64 → (res .div).toInt = a.toInt.tdiv b.toInt)) ∧
    (b = -1#64 → res .div = 0#64 - a ∧ res .rem = 0) ∧
    res .sh1add = 2#64 * a + b ∧ res .sh2add = 4#64 * a + b ∧ res .sh3add = 8#64 * a + b ∧
    (let z : Word := word (a.toNat % 2 ^ 32)
     res .adduw = z + b ∧ res .sh1adduw = 2#64 * z + b ∧ res .sh2adduw = 4#64 * z + b ∧ res .sh3adduw = 8#64 * z + b) ∧
    (res .min).toInt = min a.toInt b.toInt ∧ (res .max).toInt = max a.toInt b.toInt ∧
    (res .minu).toNat = min a.toNat b.toNat ∧ (res .maxu).toNat = max a.toNat b.toNat ∧
    (a = 0 → one .clz = 64 ∧ one .ctz = 64) ∧
    (a ≠ 0 → (one .clz).toNat < 64 ∧ 2 ^ (63 - (one .clz).toNat) ≤ a.toNat ∧ a.toNat < 2 ^ (64 - (one .clz).toNat) ∧
      (one .ctz).toNat < 64 ∧ 2 ^ (one .ctz).toNat ∣ a.toNat ∧ ¬ 2 ^ ((one .ctz).toNat + 1) ∣ a.toNat) ∧
    (one .cpop).toNat = ((List.range 64).filter (fun i => a.getLsbD i)).length ∧
    one .sextb = (a.setWidth 8).signExtend 64 ∧ one .sexth = (a.setWidth 16).signExtend 64 ∧ one .zexth = (a.setWidth 16).setWidth 64 ∧
    (∀ i < 8, (one .rev8).toNat / 256 ^ i % 256 = a.toNat / 256 ^ (7 - i) % 256 ∧
      (one .orcb).toNat / 256 ^ i % 256 = if a.toNat / 256 ^ i % 256 = 0 then 0 else 255)) ∧
  (∀ (c : CoreSt) (rd r1 r2 : Reg),
    let a : BitVec 32 := (c.rx r1).setWidth 32
    let b : BitVec 32 := (c.rx r2).setWidth 32
    let k := b.toNat % 32
    let low (op : RROp) (v : BitVec 32) : Prop := (intResult (.rr op rd r1 r2) c).2 = v.signExtend 64
    let one (op : UnOp) : Word := (intResult (.un op rd r1) c).2
    low .addw (a + b) ∧ low .subw (a - b) ∧ low .mulw (a * b) ∧ low .sllw (a <<< k) ∧ low .srlw (a >>> k) ∧
    low .sraw (a.sshiftRight k) ∧ low .rolw (a.rotateLeft k) ∧ low .rorw (a.rotateRight k) ∧
    (b = 0 → low .divw (BitVec.allOnes 32) ∧ low .divuw (BitVec.allOnes 32) ∧ low .remw a ∧ low .remuw a) ∧
    (b ≠ 0 → low .divuw (BitVec.ofNat 32 (a.toNat / b.toNat)) ∧ low .remuw (BitVec.ofNat 32 (a.toNat % b.toNat)) ∧
      low .divw (BitVec.ofInt 32 (a.toInt.tdiv b.toInt)) ∧ low .remw (BitVec.ofInt 32 (a.toInt.tmod b.toInt))) ∧
    (a = 0 → one .clzw = 32 ∧ one .ctzw = 32) ∧
    (a ≠ 0 → (one .clzw).toNat < 32 ∧ 2 ^ (31 - (one .clzw).toNat) ≤ a.toNat ∧ a.toNat < 2 ^ (32 - (one .clzw).toNat) ∧
      (one .ctzw).toNat < 32 ∧ 2 ^ (one .ctzw).toNat ∣ a.toNat ∧ ¬ 2 ^ ((one .ctzw).toNat + 1) ∣ a.toNat) ∧
    (one .cpopw).toNat = ((List.range 32).filter (fun i => a.getLsbD i)).length) ∧
  (∀ (c : CoreSt) (rd r1 : Reg) (imm : BitVec 12) (sh : BitVec 6) (up : BitVec 20),
    let a := c.rx r1
    let i := c.imm12 imm
    let al : BitVec 32 := a.setWidth 32
    let k5 := sh.toNat % 32
    let res (op : ImmOp) : Word := (intResult (.imm op rd r1 imm) c).2
    let shf (op : ShOp) : Word := (intResult (.shift op rd r1 sh) c).2
    res .addi = a + i ∧ res .slti = (if a.toInt < i.toInt then 1 else 0) ∧ res .sltiu = (if a.toNat < i.toNat then 1 else 0) ∧
    res .xori = a ^^^ i ∧ res .ori = a ||| i ∧ res .andi = a &&& i ∧ res .addiw = ((a + i).setWidth 32).signExtend 64 ∧
    shf .slli = a <<< sh.toNat ∧ shf .srli = a >>> sh.toNat ∧ shf .srai = a.sshiftRight sh.toNat ∧ shf .rori = a.rotateRight sh.toNat ∧
    shf .slliuw = (al.setWidth 64) <<< sh.toNat ∧ shf .slliw = (al <<< k5).signExtend 64 ∧ shf .srliw = (al >>> k5).signExtend 64 ∧
    shf .sraiw = (al.sshiftRight k5).signExtend 64 ∧ shf .roriw = (al.rotateRight k5).signExtend 64 ∧
    (intResult (.lui rd up) c).2 = (up ++ 0#12).signExtend 64 ∧ (intResult (.auipc rd up) c).2 = c.pc + (up ++ 0#12).signExtend 64)

/-- Every float instruction whose rounding mode is not reserved retires with its result and its accrued flags; one whose
mode is reserved raises ILLEGAL_INSTRUCTION (spec/02 R29). -/
def Obligations.FloatOpResult : Prop :=
  ∀ (s : State) (op : FloatOp), s.hasCore s.cur = true →
    (∀ f, floatDo op (s.core s.cur) = some f → exec (.floatOp op) s = .next (s.retiring (fun c => (f c).after))) ∧
    (floatDo op (s.core s.cur) = none → exec (.floatOp op) s = s.traps (.floatOp op) 0x01 0)

/-- Branches and jumps to aligned targets retire: a branch not taken goes on, a taken one and the jumps go to their
target, the jumps write the link; a gang's leader decides (spec/02 R29, spec/11 R282).

A transfer to a target that is not a multiple of 4 raises MISALIGNED with the target in `tval`; no link is written
(spec/02 R29, spec/15 R350). -/
def Obligations.BranchJumpResult : Prop :=
  (∀ (s : State) (o : BrOp) (rd rs1 rs2 : Reg) (imm : BitVec 12) (off : BitVec 20), s.hasCore s.cur = true →
    let c := s.core s.cur
    let d := s.core (s.leader s.cur)
    let bt := c.pc + brOff imm
    let jt := c.pc + sextNat 21 (off.toNat * 2)
    let rt := (d.rx rs1 + c.imm12 imm) &&& ~~~1#64
    (brEval o (d.rx rs1) (d.rx rs2) = false → exec (.branchJump (.br o rs1 rs2 imm)) s = .next (s.retiring CoreSt.after)) ∧
    (brEval o (d.rx rs1) (d.rx rs2) = true → bt.toNat % 4 = 0 →
      exec (.branchJump (.br o rs1 rs2 imm)) s = .next (s.retiring (fun c => c.jumped bt))) ∧
    (jt.toNat % 4 = 0 →
      exec (.branchJump (.jal rd off)) s = .next (s.retiring (fun x => (x.wx rd (c.pc + 4)).jumped jt))) ∧
    (rt.toNat % 4 = 0 →
      exec (.branchJump (.jalr rd rs1 imm)) s = .next (s.retiring (fun x => (x.wx rd (c.pc + 4)).jumped rt)))) ∧
  (∀ (s : State) (o : BrOp) (rd rs1 rs2 : Reg) (imm : BitVec 12) (off : BitVec 20), s.hasCore s.cur = true →
    let c := s.core s.cur
    let d := s.core (s.leader s.cur)
    let bt := c.pc + brOff imm
    let jt := c.pc + sextNat 21 (off.toNat * 2)
    let rt := (d.rx rs1 + c.imm12 imm) &&& ~~~1#64
    (brEval o (d.rx rs1) (d.rx rs2) = true → bt.toNat % 4 ≠ 0 →
      exec (.branchJump (.br o rs1 rs2 imm)) s = s.traps (.branchJump (.br o rs1 rs2 imm)) 0x05 bt) ∧
    (jt.toNat % 4 ≠ 0 → exec (.branchJump (.jal rd off)) s = s.traps (.branchJump (.jal rd off)) 0x05 jt) ∧
    (rt.toNat % 4 ≠ 0 → exec (.branchJump (.jalr rd rs1 imm)) s = s.traps (.branchJump (.jalr rd rs1 imm)) 0x05 rt))

/-- A load, and an acquire load `lda`, at an aligned address that resolves to an open place writes the bytes that stand
there, extended; no byte of memory changes (spec/09 R211, spec/10 R245). -/
def Obligations.LoadResult : Prop :=
  ∀ (s : State) (op : LoadOp) (sz : Size) (sc : Scope) (rd rs1 : Reg) (imm : BitVec 12) (off : BitVec 7) (p : Place), s.Quiet →
    let c := s.core s.cur
    let va := c.ea rs1 imm
    let vb := c.rx rs1 + off.signExtend 64
    (va.toNat % loadBytes op = 0 → s.resolve s.cur c.runtime va (loadBytes op) .load = .ok p → s.Open p (loadBytes op) →
      exec (.load op rd rs1 imm) s =
        .next ((s.reading p (loadBytes op)).retiring (fun x => (x.loaded op rd (leNat (s.peek p (loadBytes op)))).after))) ∧
    (vb.toNat % Size.bytes sz = 0 → s.resolve s.cur c.runtime vb (Size.bytes sz) .load = .ok p → s.Open p (Size.bytes sz) →
      exec (.lda sz sc rd rs1 off) s =
        .next ((s.reading p (Size.bytes sz)).retiring (fun x => (x.wx rd (sextNat (8 * Size.bytes sz) (leNat (s.peek p (Size.bytes sz))))).after)))

/-- A store, a release store `stl` and a `redadd` at an aligned address that resolves take their place in the store buffer;
no byte of memory changes yet (spec/09 R212, R218, spec/10 R245, spec/14 R328). A `redadd` enters for device memory and
scratchpads only. -/
def Obligations.StoreBuffered : Prop :=
  ∀ (s : State) (op : StoreOp) (sz : Size) (sc : Scope) (rs1 rs2 : Reg) (imm : BitVec 12) (off : BitVec 7) (p : Place), s.Quiet →
    let c := s.core s.cur
    let va := c.ea rs1 imm
    let vb := c.rx rs1 + off.signExtend 64
    let vr := c.rx rs1
    let into (n v : Nat) (k : WriteKind) (a : Word) (sc : Scope) : Host.Outcome State Fault Refusal :=
      .next (s.retiring (fun x => (x.buffering (c.entry p n v k a sc)).after))
    (va.toNat % storeBytes op = 0 → s.resolve s.cur c.runtime va (storeBytes op) .store = .ok p →
      exec (.store op rs1 rs2 imm) s = into (storeBytes op) (storeData op c rs2).toNat .store va c.scope) ∧
    (vb.toNat % Size.bytes sz = 0 → s.resolve s.cur c.runtime vb (Size.bytes sz) .store = .ok p →
      exec (.stl sz sc rs1 rs2 off) s = into (Size.bytes sz) (c.rx rs2).toNat .store vb sc) ∧
    (p.plain = true → vr.toNat % 4 = 0 → s.resolve s.cur c.runtime vr 4 .store = .ok p →
      exec (.redaddW rs1 rs2) s = into 4 (c.rx rs2).toNat .addW vr .die ∧
      exec (.redaddF rs1 rs2) s = into 4 (unbox .s (c.rf rs2)) .addF vr .die) ∧
    (p.plain = true → vr.toNat % 8 = 0 → s.resolve s.cur c.runtime vr 8 .store = .ok p →
      exec (.redaddD rs1 rs2) s = into 8 (c.rx rs2).toNat .addD vr .die)

/-- A scalar load, store, AMO, `samo`, LR, SC or `redadd` at an address that is not a multiple of its size raises MISALIGNED with
the address in `tval`; of a `samo` with an offset it is the address with the offset (spec/02 R29, spec/09 R211, R212, R216, R218,
spec/15 R350).

A load from an address that does not resolve takes the precise trap of the refusal code (spec/03 R65, R66). -/
def Obligations.AccessTraps : Prop :=
  (∀ (s : State) (rd rs1 rs2 : Reg) (imm : BitVec 12), s.hasCore s.cur = true →
    let c := s.core s.cur
    (∀ op, (c.ea rs1 imm).toNat % loadBytes op ≠ 0 →
      exec (.load op rd rs1 imm) s = s.traps (.load op rd rs1 imm) 0x05 (c.ea rs1 imm)) ∧
    (∀ op, (c.ea rs1 imm).toNat % storeBytes op ≠ 0 →
      exec (.store op rs1 rs2 imm) s = s.traps (.store op rs1 rs2 imm) 0x05 (c.ea rs1 imm)) ∧
    (∀ op d aq rl, (c.rx rs1).toNat % dblBytes d ≠ 0 →
      exec (.amo op d aq rl rd rs1 rs2) s = s.traps (.amo op d aq rl rd rs1 rs2) 0x05 (c.rx rs1)) ∧
    (∀ d aq rl, (c.rx rs1).toNat % dblBytes d ≠ 0 →
      exec (.lr d aq rl rd rs1) s = s.traps (.lr d aq rl rd rs1) 0x05 (c.rx rs1) ∧
      exec (.sc d aq rl rd rs1 rs2) s = s.traps (.sc d aq rl rd rs1 rs2) 0x05 (c.rx rs1)) ∧
    (∀ q sc off d, let va := c.rx rs1 + (if off then word (dblBytes d) else 0)
      va.toNat % dblBytes d ≠ 0 →
      exec (.samo q sc off d rd rs1 rs2) s = s.traps (.samo q sc off d rd rs1 rs2) 0x05 va) ∧
    ((c.rx rs1).toNat % 4 ≠ 0 →
      exec (.redaddW rs1 rs2) s = s.traps (.redaddW rs1 rs2) 0x05 (c.rx rs1) ∧
      exec (.redaddF rs1 rs2) s = s.traps (.redaddF rs1 rs2) 0x05 (c.rx rs1)) ∧
    ((c.rx rs1).toNat % 8 ≠ 0 → exec (.redaddD rs1 rs2) s = s.traps (.redaddD rs1 rs2) 0x05 (c.rx rs1)) ∧
    (∀ sz sc (off : BitVec 7), (c.rx rs1 + off.signExtend 64).toNat % Size.bytes sz ≠ 0 →
      exec (.lda sz sc rd rs1 off) s = s.traps (.lda sz sc rd rs1 off) 0x05 (c.rx rs1 + off.signExtend 64) ∧
      exec (.stl sz sc rs1 rs2 off) s = s.traps (.stl sz sc rs1 rs2 off) 0x05 (c.rx rs1 + off.signExtend 64))) ∧
  (∀ (s : State) (op : LoadOp) (rd rs1 : Reg) (imm : BitVec 12) (code : Nat), s.Quiet →
    let va := (s.core s.cur).ea rs1 imm
    va.toNat % loadBytes op = 0 → s.resolve s.cur (s.core s.cur).runtime va (loadBytes op) .load = .error code →
      exec (.load op rd rs1 imm) s = s.refuses (.load op rd rs1 imm) code va)

/-- `amo` and `samo` on device memory or a scratchpad read the old value into their destination and write the new one at
once; a `samo` compare that fails writes nothing (spec/02 R29, spec/09 R216, spec/10 R249).

LR reads and reserves the aligned 16 bytes; SC writes and answers 0 while the reservation is held, else answers 1 and
writes nothing; either way the reservation ends (spec/02 R29). That SC succeeds exactly while the reservation is held, and
that LR and a failed SC take no store number, is the model's reading (notes/assumptions/15.md).

On host memory an atomic that the page takes reads and writes the host's bytes in the same way; one that it does not take, and
LR and SC there or at a place that takes none, are refused with code 0x07 and change nothing (spec/03 R73, R74, spec/09 R217). -/
def Obligations.AtomicReserveResult : Prop :=
  (∀ (s : State) (o : AmoOp) (q : SamoOp) (sc : Scope) (off dbl aq rl : Bool) (rd rs1 rs2 : Reg) (p : Place),
    s.Quiet → p.plain = true →
    let c := s.core s.cur
    let n := dblBytes dbl
    let m := 2 ^ (8 * n)
    let va := c.rx rs1
    let vb := c.rx rs1 + (if off then word n else 0)
    let old := leNat (s.peek p n)
    let put (v : Nat) : State := (s.reach s.cur.asid p n).storing p (leBytes n v)
    let done (x : CoreSt) : CoreSt := (({ x with storeSeq := x.storeSeq + 1 }).wx rd (sextNat (8 * n) old)).after
    s.Open p n →
    (va.toNat % n = 0 → s.resolve s.cur c.runtime va n .amo = .ok p →
      exec (.amo o dbl aq rl rd rs1 rs2) s = .next ((put (amoEval o n old ((c.rx rs2).toNat % m))).retiring done)) ∧
    (vb.toNat % n = 0 → s.resolve s.cur c.runtime vb n .amo = .ok p →
      (∀ v, samoEval q n ((c.rx rd).toNat % m) ((c.rx rs2).toNat % m) old = some v →
        exec (.samo q sc off dbl rd rs1 rs2) s = .next ((put v).retiring done)) ∧
      (samoEval q n ((c.rx rd).toNat % m) ((c.rx rs2).toNat % m) old = none →
        exec (.samo q sc off dbl rd rs1 rs2) s = .next ((s.reach s.cur.asid p n).retiring done)))) ∧
  (∀ (s : State) (dbl aq rl : Bool) (rd rs1 rs2 : Reg) (p : Place), s.Quiet → p.plain = true →
    let c := s.core s.cur
    let n := dblBytes dbl
    let va := c.rx rs1
    va.toNat % n = 0 → s.Open p n →
    (s.resolve s.cur c.runtime va n .load = .ok p →
      exec (.lr dbl aq rl rd rs1) s = .next ((s.reach s.cur.asid p n).retiring (fun x =>
        (({ x with resv := some p.unit }).wx rd (sextNat (8 * n) (leNat (s.peek p n)))).after))) ∧
    (s.resolve s.cur c.runtime va n .store = .ok p →
      (c.resv = some p.unit →
        exec (.sc dbl aq rl rd rs1 rs2) s =
          .next (((s.reach s.cur.asid p n).storing p (leBytes n (c.rx rs2).toNat)).retiring
            (fun x => ({ ({ x with storeSeq := x.storeSeq + 1 }).wx rd 0 with resv := none }).after))) ∧
      (c.resv ≠ some p.unit →
        exec (.sc dbl aq rl rd rs1 rs2) s =
          .next ((s.reach s.cur.asid p n).retiring (fun x => ({ x.wx rd 1 with resv := none }).after))))) ∧
  (∀ (s : State) (o : AmoOp) (q : SamoOp) (sc : Scope) (off dbl aq rl : Bool) (rd rs1 rs2 : Reg) (p : Place), s.Quiet →
    let c := s.core s.cur
    let n := dblBytes dbl
    let m := 2 ^ (8 * n)
    let va := c.rx rs1
    let vb := c.rx rs1 + (if off then word n else 0)
    let old := s.host.readNat p.addr n
    let put (v : Nat) : State := s.hostAccept p.addr (leBytes n v) (some s.cur)
    let done (x : CoreSt) : CoreSt := (({ x with storeSeq := x.storeSeq + 1, hostAmo := none }).wx rd (sextNat (8 * n) old)).after
    (∀ v, ((put v).host.readNat p.addr n) = v % m ∧ (put v).hbm = s.hbm ∧
      ∀ b, b < p.addr ∨ p.addr + n ≤ b → (put v).host.read b = s.host.read b) ∧
    (p.isHost = true → (s.die (s.dieOf s.cur)).egress = [] →
      (va.toNat % n = 0 → s.resolve s.cur c.runtime va n .amo = .ok p → p.takesAtomic (amoBulk o && Config.hostAtomicOps n) = true →
        exec (.amo o dbl aq rl rd rs1 rs2) s = .next ((put (amoEval o n old ((c.rx rs2).toNat % m))).retiring done)) ∧
      (vb.toNat % n = 0 → s.resolve s.cur c.runtime vb n .amo = .ok p → p.takesAtomic (samoBulk q && Config.hostAtomicOps n) = true →
        (∀ v, samoEval q n ((c.rx rd).toNat % m) ((c.rx rs2).toNat % m) old = some v →
          exec (.samo q sc off dbl rd rs1 rs2) s = .next ((put v).retiring done)) ∧
        (samoEval q n ((c.rx rd).toNat % m) ((c.rx rs2).toNat % m) old = none →
          exec (.samo q sc off dbl rd rs1 rs2) s = .next (s.retiring done)))) ∧
    (va.toNat % n = 0 → s.resolve s.cur c.runtime va n .amo = .ok p → p.takesAtomic (amoBulk o && Config.hostAtomicOps n) = false →
      exec (.amo o dbl aq rl rd rs1 rs2) s = s.refuses (.amo o dbl aq rl rd rs1 rs2) 0x07 va) ∧
    (vb.toNat % n = 0 → s.resolve s.cur c.runtime vb n .amo = .ok p → p.takesAtomic (samoBulk q && Config.hostAtomicOps n) = false →
      exec (.samo q sc off dbl rd rs1 rs2) s = s.refuses (.samo q sc off dbl rd rs1 rs2) 0x07 vb) ∧
    (p.plain = false → va.toNat % n = 0 →
      (s.resolve s.cur c.runtime va n .load = .ok p →
        exec (.lr dbl aq rl rd rs1) s = s.refuses (.lr dbl aq rl rd rs1) 0x07 va) ∧
      (s.resolve s.cur c.runtime va n .store = .ok p →
        exec (.sc dbl aq rl rd rs1 rs2) s = s.refuses (.sc dbl aq rl rd rs1 rs2) 0x07 va)) ∧
    (∀ (x : Place) (b : Bool), x.takesAtomic b = false ↔ (∃ a, x = .reg a) ∨ (∃ a, x = .dev a) ∨ (b = false ∧ ∃ a, x = .hostBulk a)))

/-- Every fence retires on a core of which nothing is on its way, and changes nothing else but this: `fence.i` drops every fetched
parcel, and `xfence.el` and `xfence.both` let the core see every engine write to its own scratchpad and register space, so that
what it reads there next is what stands there, whatever it had still to see (spec/09 R213, R215, spec/10 R245, R249, R251, R255).

Where its stores wait in its store buffer for the own scratchpad, the ordering fences, `fence.i` and the first form of `xfence` leave
the buffer empty and the stores in memory in program order; a `fence` with an empty set orders nothing.

A store that waits in the buffer for device or host memory enters the edge queue of its die with a fence at `.die`; one at `.pkg`
or `.sys`, and `fence.i` and the first form of `xfence`, perform it at its memory (spec/03 R73, spec/10 R245). -/
def Obligations.FenceResult : Prop :=
  (∀ (s : State) (fm pred succ : BitVec 4) (sc : Scope), s.Still →
    exec (.fence fm pred succ) s = .next (s.retiring CoreSt.after) ∧
    exec (.ofence sc) s = .next (s.retiring CoreSt.after) ∧
    exec (.xfence .se) s = .next (s.retiring CoreSt.after) ∧
    exec .fenceI s = .next (s.retiring (fun c => ({ c with ibuf := [] }).after))) ∧
  (∀ (s : State) (dir : XDir), dir ≠ .se → (s.hasCore s.cur = true ∧ dir = .el ∨ s.Still) →
    let t := s.retiring (fun c => ({ c with stale := [] }).after)
    exec (.xfence dir) s = .next t ∧
    ∀ a n, readAt (.scratch s.cur.l a) n t = .ok ((s.core s.cur).scratch.readBytes a n, t) ∧
      readAt (.reg a) n t = .ok ((s.core s.cur).reg.readBytes a n, t)) ∧
  (∀ (s : State) (fm pred succ : BitVec 4) (sc : Scope) (dir : XDir) (ws : List BufWrite),
    (s.core s.cur).sb = ws → (s.modCore s.cur (fun c => { c with sb := [] })).Still → s.ownStores ws = true →
    let landed (r : Host.Outcome State Fault Refusal) (f : CoreSt → CoreSt) : Prop :=
      ∃ t, r = .next t ∧ t.note = .retired ∧ (t.core s.cur).sb = [] ∧ (t.core s.cur).ibuf = (f (s.core s.cur)).ibuf ∧
        (t.core s.cur).pc = (s.core s.cur).pc + 4 ∧ (t.core s.cur).x = (s.core s.cur).x ∧ t.hbm = s.hbm ∧ t.host = s.host ∧
        (t.core s.cur).scratch = ws.foldl (fun m w => m.write w.place.addr (leBytes w.n w.val)) (s.core s.cur).scratch ∧
        ((f (s.core s.cur)).stale = [] → (t.core s.cur).stale = [])
    (pred ≠ 0 → succ ≠ 0 → landed (exec (.fence fm pred succ) s) id) ∧
    (pred = 0 ∨ succ = 0 → exec (.fence fm pred succ) s = .next (s.retiring CoreSt.after)) ∧
    landed (exec (.ofence sc) s) id ∧ landed (exec .fenceI s) (fun c => { c with ibuf := [] }) ∧
    (dir = .se ∨ dir = .both → landed (exec (.xfence dir) s) (fun c => if dir = .both then { c with stale := [] } else c))) ∧
  (∀ (s : State) (fm pred succ : BitVec 4) (sc : Scope) (dir : XDir) (w : BufWrite),
    (s.core s.cur).sb = [w] → (s.modCore s.cur (fun c => { c with sb := [] })).Still → w.kind = .store → w.win = none →
    w.asid = s.cur.asid → w.l = s.cur.l → s.hasCore s.cur = true → s.dieOf s.cur < s.dies.length →
    let bs := leBytes w.n w.val
    let ran (r : Host.Outcome State Fault Refusal) (edge : List BufWrite) (out : Nat) (hbm host : Mem) : Prop :=
      ∃ t, r = .next t ∧ t.note = .retired ∧ (t.core s.cur).sb = [] ∧ (t.die (s.dieOf s.cur)).edge = edge ∧
        (t.core s.cur).rqout = (s.core s.cur).rqout + out ∧ t.hbm = hbm ∧ t.host = host ∧ (t.core s.cur).x = (s.core s.cur).x ∧
        (t.core s.cur).pc = (s.core s.cur).pc + 4
    (w.place.isHost = true ∨ (∃ sl a, w.place = .hbm sl a) →
      (sc = .die → ran (exec (.ofence sc) s) [{ w with shown := s.seen }] 1 s.hbm s.host) ∧
      (pred ≠ 0 → succ ≠ 0 → (s.core s.cur).scope = .die → ran (exec (.fence fm pred succ) s) [{ w with shown := s.seen }] 1 s.hbm s.host)) ∧
    (∀ hbm host : Mem, (∃ sl a, w.place = .hbm sl a ∧ s.placeRefusal s.cur.asid w.place w.n = 0 ∧
          s.answers (s.stackOf a) = true ∧ hbm = s.hbm.write a bs ∧ host = s.host) ∨
        (w.place.isHost = true ∧ hbm = s.hbm ∧ host = s.host.write w.place.addr bs) →
      (wide sc = true → ran (exec (.ofence sc) s) [] 0 hbm host) ∧
      (pred ≠ 0 → succ ≠ 0 → wide (s.core s.cur).scope = true → ran (exec (.fence fm pred succ) s) [] 0 hbm host) ∧
      ran (exec .fenceI s) [] 0 hbm host ∧ (dir = .se ∨ dir = .both → ran (exec (.xfence dir) s) [] 0 hbm host)))

/-- A first `imx` or `scx` opens or extends the unit and moves on; a second of its kind raises ILLEGAL_PREFIX. Neither
changes a register (spec/02 R35 to R37). That `tdet1` of this trap is the second prefix is the model's reading
(notes/assumptions/16.md). A target that does not accept a prefix is stated with the step (StepRunsDecoded).

With `imx` the immediate is the 32-bit value {p, imm}, sign-extended from bit 31; without it the 12 bits are
sign-extended: the worked values of spec/02 R35 and R37. -/
def Obligations.PrefixResult : Prop :=
  (∀ (s : State) (p : BitVec 20) (sc : Scope), s.hasCore s.cur = true →
    let c := s.core s.cur
    let from_ (x : CoreSt) : Pfx := (x.pfx).getD ⟨x.pc, none, none⟩
    (c.ix = none → exec (.imx p) s = .next { s.modCore s.cur (fun x =>
      { x with pfx := some { from_ x with imx := some p }, pc := x.pc + 4 }) with note := .none }) ∧
    (c.pfx.bind Pfx.scx = none → exec (.scx sc) s = .next { s.modCore s.cur (fun x =>
      { x with pfx := some { from_ x with scx := some sc }, pc := x.pc + 4 }) with note := .none }) ∧
    (c.ix ≠ none → exec (.imx p) s = s.traps (.imx p) 0x02 0) ∧
    (c.pfx.bind Pfx.scx ≠ none → exec (.scx sc) s = s.traps (.scx sc) 0x02 0)) ∧
  ((∀ (c : CoreSt) (imm : BitVec 12), c.ix = none → c.imm12 imm = imm.signExtend 64) ∧
  (∀ (c : CoreSt) (p : BitVec 20) (imm : BitVec 12), c.ix = some p → c.imm12 imm = (p ++ imm).signExtend 64))

/-- A CSR instruction that its level and the register allow reads the old value into its destination and writes the new one
as the register keeps it; a refused format image raises FORMAT_INVALID and writes nothing. One of `fitness` leaves its old value
for a late reader (spec/02 R29, spec/07 R149, spec/09 R238, spec/13 R312). The reason shown of an image refused for several is the
lowest, `Fmt.invalidReason`: R149 gives no order, and this is the model's choice (notes/assumptions/53.md).

A CSR that does not exist, a write to a read-only one, and a runtime-level CSR at the task level raise
ILLEGAL_INSTRUCTION (spec/02 R29, spec/09 R238, R239). -/
def Obligations.CsrResult : Prop :=
  (∀ (s : State) (op : CsrOp) (useImm : Bool) (csr : BitVec 12) (rd src : Reg), s.Quiet →
    let c := s.core s.cur
    let n := csr.toNat
    let old := s.csrGet s.cur n
    let new := csrNew op old (if useImm then src.setWidth 64 else c.rx src)
    let bad := if 0x800 ≤ n ∧ n ≤ 0x807 then Fmt.invalidReason (new &&& 0xFFFFF#64) else 0
    let i : Instr := .csrAccess op useImm csr rd src
    csrAllowed c op n src = true →
      (csrWrites op src = false → exec i s = .next (s.retiring (fun x => (x.wx rd old).after))) ∧
      (csrWrites op src = true → bad = 0 →
        exec i s = .next (s.retiring (fun x => ((x.putCsr n new).wx rd old).after))) ∧
      (csrWrites op src = true → bad ≠ 0 → exec i s = s.traps i 0x13 (word (bad * 256)))) ∧
  (∀ (s : State) (op : CsrOp) (useImm : Bool) (csr : BitVec 12) (rd src : Reg), s.hasCore s.cur = true →
    csrAllowed (s.core s.cur) op csr.toNat src = false →
      exec (.csrAccess op useImm csr rd src) s = s.traps (.csrAccess op useImm csr rd src) 0x01 0)

/-! ### Tasks, counters, the runtime level -/

/-- `spawn` and `arm` of a valid record that has room publish it: `spawn` and a reached threshold make it runnable (the
counter pays the threshold), a threshold not reached enters the waiting table; `cont` marks the run (spec/11 R265, R268,
R269).

A record that is refused publishes nothing, with either instruction: MISALIGNED, ACCESS_FAULT code 0x0A, TASK_INVALID with the
reason of its table. An `arm` whose operand is malformed raises TASK_INVALID, and one on a counter below its threshold with 256
records armed WAIT_TABLE_FULL (spec/11 R261, R268, R269). The refusals of the address come first. -/
def Obligations.PublishResult : Prop :=
  (∀ (s : State) (rs1 rs2 : Reg), s.Quiet →
    let c := s.core s.cur
    let a := c.rx rs1
    let t := c.rx rs2
    let r := s.recordAt a.toNat
    let s1 := s.reach s.cur.asid (.scratch s.cur.l a.toNat) 64
    let k := bits t 11 0
    let th := bits t 43 12
    let fin (x : CoreSt) : CoreSt := (if bit t 63 then { x with cont := true } else x).after
    s.Publishable a →
    (s.roomFor r → exec (.spawn rs1) s =
      .next ((s1.makeRunnable s.cur.asid (s.dieOf s.cur) r none).retiring CoreSt.after)) ∧
    (bits t 62 44 = 0 → th ≤ c.ctr k → s.roomFor r → exec (.arm rs1 rs2) s =
      .next (((s1.modCore s.cur (fun x => x.setCtr k (x.ctr k - th))).makeRunnable s.cur.asid (s.dieOf s.cur) r none
        (c.ctrCarried k)).retiring fin)) ∧
    (bits t 62 44 = 0 → c.ctr k < th → c.waiting.length < 256 → exec (.arm rs1 rs2) s =
      .next (s1.retiring (fun x => fin { x with waiting := x.waiting ++ [⟨r, k, th, []⟩] })))) ∧
  (∀ (s : State) (rs1 rs2 : Reg), s.Quiet →
    let c := s.core s.cur
    let a := c.rx rs1
    let t := c.rx rs2
    let reason := (s.ctx s.cur.asid).recReason (s.recordAt a.toNat)
    (a.toNat % 64 ≠ 0 → exec (.spawn rs1) s = s.traps (.spawn rs1) 0x05 a ∧ exec (.arm rs1 rs2) s = s.traps (.arm rs1 rs2) 0x05 a) ∧
    (a.toNat % 64 = 0 → a.toNat ≥ 2 ^ 20 ∨ a.toNat + 64 > (s.ctx s.cur.asid).par.fp →
      exec (.spawn rs1) s = s.refuses (.spawn rs1) 0x0A a ∧ exec (.arm rs1 rs2) s = s.refuses (.arm rs1 rs2) 0x0A a) ∧
    (a.toNat % 64 = 0 → s.OwnOk a.toNat 64 →
      (reason ≠ 0 → exec (.spawn rs1) s = s.traps (.spawn rs1) 0x15 (word (reason * 256))) ∧
      (bits t 62 44 ≠ 0 → exec (.arm rs1 rs2) s = s.traps (.arm rs1 rs2) 0x15 (word 0x100)) ∧
      (bits t 62 44 = 0 → reason ≠ 0 → exec (.arm rs1 rs2) s = s.traps (.arm rs1 rs2) 0x15 (word (reason * 256))) ∧
      (bits t 62 44 = 0 → reason = 0 → c.ctr (bits t 11 0) < bits t 43 12 → 256 ≤ c.waiting.length →
        exec (.arm rs1 rs2) s = s.traps (.arm rs1 rs2) 0x16 0)))

/-- `sig` posts its amount towards the counter it names and takes a request number (spec/09 R227, spec/11 R270).

On an increment a counter gains the amount, saturating at 0xFFFF_FFFF; then every armed record on it, in arm order, that
the counter has reached takes its threshold and is launched; the other counters keep their values (spec/11 R265). -/
def Obligations.SigIncrement : Prop :=
  (∀ (s : State) (rs1 rs2 : Reg), s.Quiet →
    let c := s.core s.cur
    let t := c.rx rs1
    let v := c.rx rs2
    bits t 63 36 = 0 → bits v 63 32 = 0 → bits t 23 0 < (s.ctx s.cur.asid).n →
      exec (.sig rs1 rs2) s =
        .next (((s.modCore s.cur (fun x => { x with reqSeq := x.reqSeq + 1 })).postIncr s.cur (bits t 23 0) (bits t 35 24)
          v.toNat true).retiring CoreSt.after)) ∧
  (∀ (s : State) (id : CoreId) (k n : Nat), s.hasCore id = true → tabOk (s.core id).ctrs →
    let c := s.core id
    let r := c.waiting.foldl (launchStep k) (min (c.ctr k + n) 0xFFFFFFFF, [], [])
    let t := s.increment id k n
    (t.core id).ctr k = r.1 ∧ (t.core id).waiting = r.2.2 ∧ (∀ j, j ≠ k → (t.core id).ctr j = c.ctr j) ∧
    t = r.2.1.foldl (fun u w => u.makeRunnable id.asid (s.dieOf id) w.rec_ none (w.rels ++ c.ctrCarried k))
      (s.modCore id (fun x => { (x.setCtr k r.1) with waiting := r.2.2 })))

/-- `tdone` ends the task: the completion counter of its record is signalled when `ccen` is 1, and the core becomes idle
(spec/11 R271). A member of a gang record other than the one that signals, signals nothing (R284).

`tyield` gives up the core: without a continuation the thread's record becomes runnable again on this die, at the next
pc and with x10 to x15; with one, nothing is written back (spec/11 R272). What becomes of a gang record that a member yields is
the model's reading (notes/assumptions/17.md). -/
def Obligations.TaskEndYield : Prop :=
  (∀ (s : State), s.Quiet →
    let c := s.core s.cur
    let s1 := match c.task with
      | some r => if r.ccen && !r.silent then s.postIncr s.cur r.pub r.ccid 1 false else s
      | none => s
    exec .tdone s = .next ((s1.onward.idling false ((c.task.map TaskRec.d0).getD 0)).retiring CoreSt.idled)) ∧
  (∀ (s : State) (r : TaskRec), s.hasCore s.cur = true → (s.core s.cur).task = some r →
    let c := s.core s.cur
    let r' := r.yielded (c.pc + 4) [c.rx 10, c.rx 11, c.rx 12, c.rx 13, c.rx 14, c.rx 15]
    (c.cont = true → exec .tyield s = .next ((s.onward.idling true r.d0).retiring CoreSt.idled)) ∧
    (c.cont = false → s.poolFull (s.dieOf s.cur) = false → exec .tyield s =
      .next (((s.makeRunnable s.cur.asid (s.dieOf s.cur) r' (some (s.dieOf s.cur))).onward.idling true r'.d0).retiring
        CoreSt.idled)))

/-- `tcall` of an existing service enters the runtime level at it, saving the return address; at the runtime level it is
ILLEGAL_INSTRUCTION, and a service number that is not below `nsvc` is SERVICE_INVALID (spec/09 R236).

`tret` restores the level and the pc that the call or trap saved and clears `call`; at the task level it is
ILLEGAL_INSTRUCTION (spec/09 R237). -/
def Obligations.ServiceCallReturn : Prop :=
  (∀ (s : State) (rd rs1 : Reg), s.hasCore s.cur = true →
    let c := s.core s.cur
    let k := (c.rx rs1).toNat
    let nsvc := bits c.csr.rtsvc 63 56
    (c.runtime = false → k < nsvc → exec (.tcall rd rs1) s = .next (s.retiring (fun x =>
      { x.wx rd (c.pc + 4) with
        csr := { x.csr with tepc := epcOf (c.pc + 4), tstat := 2 }
        runtime := true
        pc := sext54 (bits x.csr.rtsvc 53 6 * 64 + 64 * k)
        pfx := none, instret := x.instret + 1, dicnt := x.dicnt + 1 }))) ∧
    (c.runtime = true → exec (.tcall rd rs1) s = s.traps (.tcall rd rs1) 0x01 0) ∧
    (c.runtime = false → nsvc ≤ k → exec (.tcall rd rs1) s = s.traps (.tcall rd rs1) 0x14 0)) ∧
  (∀ (s : State), s.hasCore s.cur = true →
    ((s.core s.cur).runtime = true → exec .tret s = .next (s.retiring (fun x =>
      { x with
        runtime := bit x.csr.tstat 0
        csr := { x.csr with tstat := x.csr.tstat &&& 1#64 }
        pc := sext54 x.csr.tepc.toNat
        pfx := none, instret := x.instret + 1, dicnt := x.dicnt + 1 }))) ∧
    ((s.core s.cur).runtime = false → exec .tret s = s.traps .tret 0x01 0))

/-! ### Groups, barriers, supersteps, gangs -/

/-- `join` adds the running task's logical number to a group and `leave` takes it out (also of the snapshots of open
barriers); group 0 or a nonzero upper part raises GROUP_INVALID (spec/11 R273, R275).

After `join` the number is a member of the group and after `leave` it is not; every other membership is as it was
(spec/11 R273). -/
def Obligations.GroupResult : Prop :=
  (∀ (s : State) (rs1 : Reg), s.hasCore s.cur = true →
    let c := s.core s.cur
    let v := c.rx rs1
    let g := bits v 11 0
    (bits v 63 12 = 0 → g ≠ 0 →
      exec (.join rs1) s = .next ((s.modCtx s.cur.asid (fun x => x.join g c.lcn)).retiring CoreSt.after) ∧
      exec (.leave rs1) s = .next ((s.modCtx s.cur.asid (fun x => x.leave g c.lcn)).retiring CoreSt.after)) ∧
    (bits v 63 12 ≠ 0 ∨ g = 0 →
      exec (.join rs1) s = s.traps (.join rs1) 0x17 0 ∧ exec (.leave rs1) s = s.traps (.leave rs1) 0x17 0)) ∧
  (∀ (x : Ctx) (g h l m : Nat), g ≠ 0 →
    ((x.join g l).inGroup g l = true) ∧
    ((x.leave g l).inGroup g l = false) ∧
    ((h, m) ≠ (g, l) → (x.join g l).inGroup h m = x.inGroup h m ∧ (x.leave g l).inGroup h m = x.inGroup h m))

/-- `bara` arrives and retires at once. A `bar` or `vote` that arrives stays to wait. A waiting `bar`, `barw` or `vote`
whose arrival has completed takes it and retires; a `vote` writes the result (spec/11 R275 to R277).

A `barw` whose gathering arrival has completed stores the 40-byte record at its address, as five stores of the core, and
retires (spec/11 R275, R276). That they are five stores of 8 bytes is the model's reading (notes/assumptions/30.md).

The result of a vote holds the largest ballot in bits [1:0], zeros above it, and how many cast it from bit 32 on
(spec/11 R277). -/
def Obligations.BarrierResult : Prop :=
  (∀ (s : State) (rd rs1 rs2 : Reg) (a : Arrival), s.Quiet →
    let c := s.core s.cur
    let d := c.rx rs1
    let v := c.rx rs2
    let name := Barrier.nameOf d
    let cen := if bit v 32 then some (bits v 31 20) else none
    let taken : State := s.dropArrival s.cur.asid c.lcn name
    bits d 63 21 = 0 →
    (bits v 63 33 = 0 → bits v 19 0 = 0 → s.MayArrive d (Barrier.gthOf d) →
      exec (.bara rs1 rs2) s = .next ((s.arriving d (Barrier.gthOf d) cen none false).retiring CoreSt.after)) ∧
    (bits v 63 33 = 0 → Barrier.gthOf d = false → s.MayArrive d false →
      exec (.bar rs1 rs2) s = (s.arriving d false cen none true).waits) ∧
    (bits v 63 2 = 0 → Barrier.gthOf d = false → s.MayArrive d false →
      exec (.vote rd rs1 rs2) s = (s.arriving d false none (some (bits v 1 0)) true).waits) ∧
    (s.arrivalOf s.cur.asid c.lcn name = some a → a.done = true → a.gth = false →
      (bits v 63 33 = 0 → a.by_ = some (s.cur.l, c.pc) → exec (.bar rs1 rs2) s = .next (taken.retiring CoreSt.after)) ∧
      (bits v 63 33 = 0 → bit v 32 = false → Barrier.gthOf d = false →
        exec (.barw rs1 rs2) s = .next (taken.retiring CoreSt.after)) ∧
      (bits v 63 2 = 0 → Barrier.gthOf d = false → a.by_ = some (s.cur.l, c.pc) →
        exec (.vote rd rs1 rs2) s = .next (taken.retiring (fun x => (x.wx rd a.res).after))))) ∧
  (∀ (s : State) (rs1 rs2 : Reg) (a : Arrival), s.Quiet →
    let c := s.core s.cur
    let d := c.rx rs1
    let v := c.rx rs2
    let addr := bits v 19 0
    bits d 63 21 = 0 → bits v 63 33 = 0 → bit v 32 = false → Barrier.gthOf d = true →
    s.arrivalOf s.cur.asid c.lcn (Barrier.nameOf d) = some a → a.done = true → a.gth = true →
    addr % 8 = 0 → addr + 40 ≤ (s.ctx s.cur.asid).par.fp → addr + 40 ≤ 0xC0000 → c.lcn = s.cur.l →
    ∃ t, exec (.barw rs1 rs2) s = .next t ∧ t.note = .retired ∧
      (t.core s.cur).sb.map (fun w => (w.place, w.n, w.val)) =
        (List.range 5).map (fun i => (Place.scratch s.cur.l (addr + 8 * i), 8, leNat ((a.record.drop (8 * i)).take 8) % 2 ^ 64))) ∧
  (∀ (b : List Nat), b ≠ [] → (∀ x ∈ b, x ≤ 3) → b.length < 2 ^ 24 →
    ∃ m ∈ b, (∀ x ∈ b, x ≤ m) ∧ bits (voteResult b) 31 0 = m ∧ bits (voteResult b) 63 32 = b.count m)

/-- An `sstep` whose superstep has completed takes its arrival and returns the superstep counter (with automatic windows
the count of instructions restarts: notes/assumptions/9.md); one that has not arrived arrives at the current tick and waits
(spec/11 R279).

`gsplit` dissolves the gang and goes on; the last core to execute `gfuse` with a mask forms the gang, every member of
which continues after the leader's instruction (spec/11 R281, R283). -/
def Obligations.SuperstepGang : Prop :=
  (∀ (s : State) (rd : Reg), s.Quiet →
    let c := s.core s.cur
    let x := s.ctx s.cur.asid
    let hold : CoreId := ⟨s.cur.asid, c.lcn⟩
    let h := s.core hold
    (h.sstepAt.isSome = true → h.sstepBy = some (s.cur.l, c.pc, rd) → h.sstepDone = true →
      exec (.sstep rd) s =
        .next ((s.modCore hold (fun h => { h with sstepAt := none, sstepBy := none, sstepDone := false, sstepRels := [] })).retiring
          (fun y => let z := (y.wx rd (x.sscnt.setWidth 64)).after
                    if x.par.undo = 2 then { z with dicnt := 0 } else z))) ∧
    (h.sstepAt = none → h.sstepBy = none → s.hasCore hold = true →
      exec (.sstep rd) s = (s.modCore hold (fun h => { h with
        sstepAt := some (s.pcc (s.dieOf s.cur)), sstepBy := some (s.cur.l, c.pc, rd), sstepDone := false, sstepRels := [] })).waits)) ∧
  (∀ (s : State) (rs1 : Reg), s.hasCore s.cur = true →
    let c := s.core s.cur
    let v := c.rx rs1
    let mask : BitVec 4 := v.setWidth 4
    let at_ (i : Nat) : CoreId := ⟨s.cur.asid, s.cur.l / 4 * 4 + i⟩
    (exec .gsplit s = .next ((s.splitGang s.cur).retiring CoreSt.after)) ∧
    (bits v 63 4 = 0 → popcount 4 mask.toNat = 2 ∨ popcount 4 mask.toNat = 4 → mask.getLsbD (s.cur.l % 4) = true →
      c.gang = none → (∀ i < 4, s.hasCore (at_ i) = true) →
      (∀ i < 4, i ≠ s.cur.l % 4 → mask.getLsbD i = true → (s.core (at_ i)).fuse = some mask) →
      (∀ i < 4, mask.getLsbD i = false → (s.core (at_ i)).fuse = none) →
      ∃ t, exec (.gfuse rs1) s = .next t ∧ t.note = .retired ∧
        ∀ i < 4, mask.getLsbD i = true → (t.core (at_ i)).gang = some ⟨mask⟩ ∧ (t.core (at_ i)).fuse = none ∧
          ∀ k < 4, mask.getLsbD k = true → (∀ j < k, mask.getLsbD j = false) →
            (t.core (at_ i)).pc = (s.core (at_ k)).pc + 4))

/-! ### Stage queues, messages, FIFOs, guards, waits -/

/-- `qpush` appends an entry to a queue of its die that is configured and has room; a set bit 31, an unconfigured queue and a
full one trap, in this order (spec/12 R297).

`qpop` and `qpeek` of a configured queue return its least entry with bit 31 set, and 0 when it is empty; `qpop` removes
it; an unconfigured queue traps (spec/12 R292, R298).

A pop takes an entry with the least key, and among equal keys the one accepted first (spec/12 R293). -/
def Obligations.StageQueueResult : Prop :=
  (∀ (s : State) (q : BitVec 4) (rs1 : Reg), s.Quiet →
    let x := s.ctx s.cur.asid
    let e := (s.core s.cur).rx rs1
    let d := s.dieOf s.cur
    let i : Instr := .qpush q rs1
    (bit e 31 = false → x.qen q.toNat = true → (x.sq d q.toNat).length < x.qcap →
      exec i s = .next ((s.modCtx s.cur.asid (fun y => { y with squeues := y.squeues ++
        [(d, q.toNat, ⟨BitVec.ofNat 32 (bits e 63 32), BitVec.ofNat 31 (bits e 30 0), []⟩)] })).retiring CoreSt.after)) ∧
    (bit e 31 = true → exec i s = s.traps i 0x1B (word 0x100)) ∧
    (bit e 31 = false → x.qen q.toNat = false → exec i s = s.traps i 0x1B (word 0x200)) ∧
    (bit e 31 = false → x.qen q.toNat = true → x.qcap ≤ (x.sq d q.toNat).length → exec i s = s.traps i 0x1C 0)) ∧
  (∀ (s : State) (q : BitVec 4) (rd : Reg), s.Quiet →
    let x := s.ctx s.cur.asid
    let d := s.dieOf s.cur
    let es := x.sq d q.toNat
    (x.qen q.toNat = true → leastEntry es = none →
      exec (.qpop rd q) s = .next (s.retiring (fun c => (c.wx rd 0).after)) ∧
      exec (.qpeek rd q) s = .next (s.retiring (fun c => (c.wx rd 0).after))) ∧
    (∀ e, x.qen q.toNat = true → leastEntry es = some e →
      exec (.qpop rd q) s = .next ((s.modCtx s.cur.asid (fun y => { y with squeues := dropEntry d q.toNat e y.squeues })).retiring
        (fun c => (c.wx rd (word (e.key.toNat * 2 ^ 32 + 2 ^ 31 + e.pay.toNat))).after)) ∧
      exec (.qpeek rd q) s =
        .next (s.retiring (fun c => (c.wx rd (word (e.key.toNat * 2 ^ 32 + 2 ^ 31 + e.pay.toNat))).after))) ∧
    (x.qen q.toNat = false →
      exec (.qpop rd q) s = s.traps (.qpop rd q) 0x1B (word 0x200) ∧
      exec (.qpeek rd q) s = s.traps (.qpeek rd q) 0x1B (word 0x200))) ∧
  (∀ (es : List SqEntry) (e : SqEntry), leastEntry es = some e ↔
    ∃ l r, es = l ++ e :: r ∧ (∀ y ∈ l, e.key.toNat < y.key.toNat) ∧ (∀ y ∈ r, e.key.toNat ≤ y.key.toNat))

/-- `msend` of a valid target and own-scratchpad payload captures the payload and queues the message outbound, with a
request number, a store number and one more outstanding request (spec/05 R117 to R119). The sender that it carries is the core's
number, the model's choice (notes/assumptions/53.md).

`mpop` of an empty inbox writes 0 and takes its store number; else the oldest payload is stored at the own-scratchpad address, and the sender's
number and the length are returned (spec/05 R123). That it asks the banks as message delivery is the model's choice
(notes/assumptions/61.md).

`epop` and `epopnb` remove and return the oldest element of a result FIFO that holds one; on an empty FIFO `epop` waits
and `epopnb` returns 0 (spec/09 R228). -/
def Obligations.MessageFifoResult : Prop :=
  (∀ (s : State) (rs1 rs2 : Reg) (len : BitVec 3), s.Quiet →
    let c := s.core s.cur
    let x := s.ctx s.cur.asid
    let t := c.rx rs1
    let a := (c.rx rs2).toNat
    let n := (len.toNat + 1) * 8
    let dst := bits t 23 0
    bits t 63 61 = 0 → (bit t 60 = false → bits t 59 48 = 0) → (bit t 24 = false → bits t 47 28 = 0) →
    (bit t 24 = true → bits t 27 25 = 0 ∧ bits t 30 28 = 0 ∧ bits t 47 28 + n ≤ x.par.fp) → dst < x.n →
    a % 8 = 0 → s.OwnOk a n → c.outq.length < 8 → (∀ p, x.portTo s.cur.l dst = some p → s.portFlight s.cur p < 2) →
      exec (.msend rs1 rs2 len) s =
        .next ((s.reach s.cur.asid (.scratch s.cur.l a) n).retiring (fun y =>
          ({ y with
            reqSeq := y.reqSeq + 1, storeSeq := y.storeSeq + 1, rqout := y.rqout + 1, sentNo := y.sentNo + 1
            outq := y.outq ++ [(⟨s.cur.asid, s.cur.l, s.cur.l, t, s.peek (.scratch s.cur.l a) n, none, c.storeSeq.toNat,
              x.portTo s.cur.l dst, c.sentNo, c.reqSeq.toNat, []⟩ : Msg)] } : CoreSt).after))) ∧
  (∀ (s : State) (rd rs1 : Reg) (ib : BitVec 3), s.Quiet →
    let c := s.core s.cur
    let a := (c.rx rs1).toNat
    a % 8 = 0 → a + 64 ≤ (s.ctx s.cur.asid).par.fp →
      (c.inbox.getD ib.toNat [] = [] → exec (.mpop rd ib rs1) s =
        .next (s.retiring (fun y => (({ y with storeSeq := y.storeSeq + 1 } : CoreSt).wx rd 0).after))) ∧
      (∀ m ms, c.inbox.getD ib.toNat [] = m :: ms →
        exec (.mpop rd ib rs1) s =
          .next (((s.storing (.scratch s.cur.l a) m.payload).askPlace s.cur.asid 4 s.cur.l 0 (.scratch s.cur.l a) m.payload.length).retiring (fun y =>
            (({ y with storeSeq := y.storeSeq + 1, inbox := y.inbox.set ib.toNat ms } : CoreSt).wx rd
              (word (m.srcLcn * 256 + m.payload.length))).after)))) ∧
  (∀ (s : State) (rd : Reg) (q : Queue), s.Quiet →
    let c := s.core s.cur
    (∀ e, c.fifoHead q = some e →
      exec (.epop rd q) s = .next (s.retiring (fun y => ((y.popFifo q).wx rd e).after)) ∧
      exec (.epopnb rd q) s = .next (s.retiring (fun y => ((y.popFifo q).wx rd e).after))) ∧
    (c.fifoHead q = none →
      exec (.epop rd q) s = s.waits ∧ exec (.epopnb rd q) s = .next (s.retiring (fun y => (y.wx rd 0).after))))

/-- `gset` and `gclr` resolve a slot TRUE and FALSE, whatever it was, and leave the others; slot 0 is ILLEGAL_INSTRUCTION; their
worked parcels decode to them. The heads of this cycle see the slots as they were, those of the next as they stand then; a guard
is open while the slot that a head sees is not resolved (spec/09 R222, R223). -/
def Obligations.GuardResolve : Prop :=
  (∀ (s : State) (id : CoreId), s.hasCore id = true →
    (s.nextCycle.core id).gslSeen = (s.core id).csr.gsl ∧ s.nextCycle.cycle = s.cycle + 1) ∧
  (∀ (c : CoreSt) (w : CmdWord), c.guard w = none ↔ bit c.gslSeen (wbits w 15 12) = false) ∧
  ∀ (s : State) (g : BitVec 4), s.hasCore s.cur = true →
    (g ≠ 0 → ∃ f h : Word → Word,
      exec (.gset g) s = .next (s.retiring (fun c => ({ c with csr := { c.csr with gsl := f c.csr.gsl } }).after)) ∧
      exec (.gclr g) s = .next (s.retiring (fun c => ({ c with csr := { c.csr with gsl := h c.csr.gsl } }).after)) ∧
      ∀ w (i : Nat), i < 64 →
        (f w).getLsbD i = (decide (i = g.toNat) || decide (i = 16 + g.toNat) || w.getLsbD i) ∧
        (h w).getLsbD i = (decide (i = g.toNat) || (!decide (i = 16 + g.toNat) && w.getLsbD i))) ∧
    (g = 0 → exec (.gset g) s = s.traps (.gset g) 0x01 0 ∧ exec (.gclr g) s = s.traps (.gclr g) 0x01 0) ∧
    decodeParcel 0x0800312B#32 = .ok (.gset 2) ∧ decodeParcel 0x0A00312B#32 = .ok (.gclr 2)

/-- `bcb` and `bcbn` to an aligned target branch when the condition bit of the gang's leader is 1, or 0; a misaligned target
raises MISALIGNED whatever the bit (spec/09 R230). That a branch or wait sees the present bits, of those up to 4 cycles old, is
the model's choice (notes/assumptions/53.md).

`wfc` retires when its mask is 0 or a selected condition bit is 1, else waits; `wfcy` retires once the PCC of its die has
reached its operand, else waits. Neither changes a register (spec/04 R86, spec/09 R231). -/
def Obligations.ConditionWaitResult : Prop :=
  (∀ (s : State) (cb : BitVec 6) (imm : BitVec 12), s.Quiet →
    let t := (s.core s.cur).pc + brOff imm
    let b := bit (s.cbits (s.leader s.cur)) cb.toNat
    (t.toNat % 4 = 0 →
      exec (.bcb cb imm) s = .next (s.retiring (fun c => if b then c.jumped t else c.after)) ∧
      exec (.bcbn cb imm) s = .next (s.retiring (fun c => if b then c.after else c.jumped t))) ∧
    (t.toNat % 4 ≠ 0 → exec (.bcb cb imm) s = s.traps (.bcb cb imm) 0x05 t ∧
      exec (.bcbn cb imm) s = s.traps (.bcbn cb imm) 0x05 t)) ∧
  (∀ (s : State) (rs1 : Reg), s.Quiet →
    let v := (s.core s.cur).rx rs1
    (v = 0 ∨ s.cbits s.cur &&& v ≠ 0 → exec (.wfc rs1) s = .next (s.retiring CoreSt.after)) ∧
    (v ≠ 0 → s.cbits s.cur &&& v = 0 → exec (.wfc rs1) s = s.waits) ∧
    (v.toNat ≤ s.pcc (s.dieOf s.cur) → exec (.wfcy rs1) s = .next (s.retiring CoreSt.after)) ∧
    (s.pcc (s.dieOf s.cur) < v.toNat → exec (.wfcy rs1) s = s.waits))

/-! ### Windows -/

/-- `wopen` opens the next window with its checkpoint and returns its number; with 16 windows uncommitted it first commits the
oldest where the log-full policy is AUTOCOMMIT, and raises WINDOW_INVALID reason 0x03 where it is not; with none uncommitted and
fewer free ring slots than its checkpoint takes it raises reason 0x06, and outside undo mode 1 reason 0x02 (spec/14 R331, R337).
That the instruction which opens a window does not count in it is the model's reading (notes/assumptions/33.md).

`wcommit` of an uncommitted window commits up to it, and of one already committed, or with none open, changes nothing (R338).

With windows `o` to `h` uncommitted, `wcommit` of a window in that range commits every window up to it, of an earlier one
does nothing, and of a later one raises WINDOW_INVALID (spec/14 R338). -/
def Obligations.WindowOpenCommit : Prop :=
  (∀ (s : State) (rd rs1 : Reg), s.Quiet →
    let c := s.core s.cur
    let x := s.ctx s.cur.asid
    let key : LogKey := ⟨2, c.storeSeq.toNat, none, 0⟩
    (x.par.undo = 1 → c.ckptNeed ≤ s.ringFree s.cur.asid → s.logTakes s.cur none c.ckptNeed = true →
      exec (.wopen rd) s = .next (((s.modCore s.cur (fun y => { y with logWait := y.logWait.filter (fun k => !k.same key) })).openWindow
        s.cur c.win.wnext (c.pc + 4) rd).retiring (fun y =>
        { (y.wx rd (c.win.wnext.setWidth 64)).after with dicnt := 0 }))) ∧
    (x.par.undo = 1 → s.ringFree s.cur.asid < c.ckptNeed → exec (.wopen rd) s = s.traps (.wopen rd) 0x1D (word 0x600)) ∧
    (x.par.undo ≠ 1 → exec (.wopen rd) s = s.traps (.wopen rd) 0x1D (word 0x200)) ∧
    (x.par.undo ≠ 0 → bits (c.rx rs1) 63 32 = 0 → exec (.wcommit rs1) s = .next (s.retiring CoreSt.after))) ∧
  (∀ (s : State) (rd : Reg) (o h : BitVec 32), s.hasCore s.cur = true → (s.core s.cur).win.unc = some (o, h) →
    (s.core s.cur).sb = [] → (s.ctx s.cur.asid).par.undo = 1 → 16 ≤ (s.core s.cur).win.count →
    let s1 := s.commitTo s.cur o
    let c1 := s1.core s.cur
    let key : LogKey := ⟨2, c1.storeSeq.toNat, none, 0⟩
    ((s.ctx s.cur.asid).par.lfull ≠ 2 → exec (.wopen rd) s = s.traps (.wopen rd) 0x1D (word 0x300)) ∧
    ((s.ctx s.cur.asid).par.lfull = 2 → c1.ckptNeed ≤ s1.ringFree s.cur.asid → s1.logTakes s.cur none c1.ckptNeed = true →
      exec (.wopen rd) s = .next (((s1.modCore s.cur (fun y => { y with logWait := y.logWait.filter (fun k => !k.same key) })).openWindow
        s.cur c1.win.wnext (c1.pc + 4) rd).retiring (fun y => { (y.wx rd (c1.win.wnext.setWidth 64)).after with dicnt := 0 })) ∧
      c1.win.unc = some (o + 1, h) ∧ c1.win.wnext = (s.core s.cur).win.wnext)) ∧
  (∀ (s : State) (rs1 : Reg) (o h : BitVec 32), s.hasCore s.cur = true → (s.core s.cur).win.unc = some (o, h) →
    (s.ctx s.cur.asid).par.undo ≠ 0 →
    let v := (s.core s.cur).rx rs1
    let w : BitVec 32 := v.setWidth 32
    bits v 63 32 = 0 →
      ((w - o).toNat ≤ (h - o).toNat → (h - o).toNat < 2 ^ 31 →
        exec (.wcommit rs1) s = .next ((s.commitTo s.cur w).retiring CoreSt.after)) ∧
      (2 ^ 31 ≤ (w - o).toNat → exec (.wcommit rs1) s = .next (s.retiring CoreSt.after)) ∧
      ((w - o).toNat < 2 ^ 31 → (h - o).toNat < (w - o).toNat →
        exec (.wcommit rs1) s = s.traps (.wcommit rs1) 0x1D (word 0x400)))

/-- `wrewind` of an uncommitted window, with its cores settled, takes each of them back to the window's start, where its task
goes on, and counts one instruction (spec/14 R339, R340).

`wstat` reads the window value its operand selects and changes nothing else; a selector above 7 raises WINDOW_INVALID
(spec/14 R342). -/
def Obligations.WindowRewindStatus : Prop :=
  (∀ (s s2 s3 : State) (rs1 : Reg), s.hasCore s.cur = true → (s.core s.cur).win.unc ≠ none → (s.core s.cur).rewinding = none →
    let x := s.ctx s.cur.asid
    let v := (s.core s.cur).rx rs1
    let w := (v.setWidth 32 : BitVec 32).toNat
    let ids := x.rewindSet s.cur
    let clear (t : State) : State :=
      if x.par.undo = 2 then
        x.ids.foldl (fun t i => t.modCore i (fun c => { c with sstepAt := none, sstepBy := none, sstepDone := false }))
          (t.modCtx t.cur.asid (fun y => { y with sscnt := BitVec.ofNat 32 w }))
      else t
    x.par.undo ≠ 0 → bits v 63 32 = 0 → (∀ i ∈ ids, (s.core i).win.has w = true) →
    tryEach (fun t i => t.drainCore i) (ids.foldl (fun t i => t.modCore i (fun c => c.rewindStart w)) s) ids = .done s2 →
    (∀ i ∈ ids, (s2.core i).settled = true) →
    tryEach (fun t i => t.rewindCore i w) s2 ids = .done s3 →
      exec (.wrewind rs1) s = .next { (clear s3).retiring (fun y => { y with pfx := none, instret := y.instret + 1, dicnt := 0 }) with
        note := .rewound }) ∧
  (∀ (s : State) (rs1 : Reg), s.hasCore s.cur = true → (s.core s.cur).rewinding = none → (s.ctx s.cur.asid).par.undo = 1 →
    (s.core s.cur).sb = [] → (s.core s.cur).flights = [] → (s.core s.cur).rqout = 0 →
    (s.die (s.dieOf s.cur)).edge = [] → (s.die (s.dieOf s.cur)).shadow = [] →
    let v := (s.core s.cur).rx rs1
    let w := (v.setWidth 32 : BitVec 32).toNat
    let s1 := (((s.modCore s.cur (fun c => c.rewindStart w)).rewindBody s.cur w).modCore s.cur (fun c => { c with logWait := [] })).released
      s.cur .pkg
    bits v 63 32 = 0 → (s.core s.cur).win.has w = true →
      exec (.wrewind rs1) s = .next { s1.retiring (fun y => { y with pfx := none, instret := y.instret + 1, dicnt := 0 }) with
        note := .rewound } ∧
      (∀ k pc rd r, (s.core s.cur).ckpts.find? (fun k => k.win == w) = some k → k.resume = some (pc, rd, r) →
        (s1.core s.cur).pc = pc ∧ (s1.core s.cur).task = some r ∧ (rd ≠ 0 → (s1.core s.cur).rx rd = word (w + 2 ^ 63)) ∧
        (s1.core s.cur).win.openWin = some w)) ∧
  (∀ (s : State) (rd rs1 : Reg), s.hasCore s.cur = true →
    let c := s.core s.cur
    let v := c.rx rs1
    let gives (n : Nat) : Prop := exec (.wstat rd rs1) s = .next (s.retiring (fun y => (y.wx rd (word n)).after))
    (v = 0 → (∀ o h, c.win.unc = some (o, h) → gives h.toNat) ∧
      (c.win.unc = none → gives ((c.win.wnext - 1).toNat + 2 ^ 63))) ∧
    (v = 1 → (∀ o h, c.win.unc = some (o, h) → gives o.toNat) ∧ (c.win.unc = none → gives 0)) ∧
    (v = 2 → gives c.win.count) ∧
    (v = 3 → gives (((s.ctx s.cur.asid).log.filter (fun e => e.l == s.cur.l)).map (fun e => e.slots.length)).sum) ∧
    (v = 4 → gives ((c.ckpts.map (fun k => k.units.length)).sum + c.committed.length + c.inputs.length)) ∧
    (v = 5 → gives (s.ringFree s.cur.asid)) ∧
    (v = 6 → gives ((((s.die (s.dieOf s.cur)).egress.filter (fun h =>
      h.owner.1 == s.cur.asid && h.owner.2.1 == s.cur.l)).map HeldItem.size).sum)) ∧
    (v = 7 → gives c.storeSeq.toNat) ∧
    (7 < v.toNat → exec (.wstat rd rs1) s = s.traps (.wstat rd rs1) 0x1D (word 0x100)))

/-- A logged write to a scratchpad in a window that the log has room for appends one entry, of that window, store number and
core, whose old bytes, put back, restore the scratchpad (spec/14 R325 to R328, R339). -/
def Obligations.LogRestores : Prop :=
  ∀ (s t : State) (id : CoreId) (w seq : Nat) (l a : Nat) (bs : List Byte) (atom first : Bool) (form : LogForm),
    (s.ctx? id.asid).isSome = true → s.hasCore ⟨id.asid, l⟩ = true → (s.core id).win.has w = true →
    (∀ c ∈ s.cores, Mem.wf c.scratch) →
    s.perform id (some w) seq (.scratch l a) bs atom form first = .done t →
    (if form = .block then 1 + (bs.length + 15) / 16 else 1) ≤ s.ringFree id.asid →
      ∃ e, (t.ctx id.asid).log = (s.ctx id.asid).log ++ [e] ∧ e.win = w ∧ e.seq = seq ∧ e.l = id.l ∧
        ((t.applyEntry id.asid e).core ⟨id.asid, l⟩).scratch = (s.core ⟨id.asid, l⟩).scratch

/-! ### Views, rings, shapes, narrow formats -/

/-- `vwget` returns a doubleword of a view, 0 for an unset one, and does nothing else (spec/06 R136). -/
def Obligations.ViewGet : Prop :=
  ∀ (s : State) (rd : Reg) (vw : BitVec 4) (half : Bool), s.hasCore s.cur = true →
    let d := vget (s.core s.cur).vw vw.toNat Desc.zero
    exec (.vwget rd vw half) s = .next (s.retiring (fun c => (c.wx rd (if half then d.d1 else d.d0)).after)) ∧
    (d.isNone = true → d.d0 = 0 ∧ d.d1 = 0)

/-- `vwset` of a descriptor that is valid, or all zeros, sets the view; another raises VIEW_INVALID with its reason and keeps
the view (spec/06 R134, R135). -/
def Obligations.ViewSet : Prop :=
  ∀ (s : State) (vw : BitVec 4) (rs1 rs2 : Reg), s.hasCore s.cur = true →
    let c := s.core s.cur
    let d : Desc := ⟨c.rx rs1, c.rx rs2⟩
    (d.isNone = true ∨ c.viewReason d = 0 →
      exec (.vwset vw rs1 rs2) s = .next (s.retiring (fun x => ({ x with vw := vset x.vw vw.toNat d }).after))) ∧
    (d.isNone = false → c.viewReason d ≠ 0 →
      exec (.vwset vw rs1 rs2) s = s.traps (.vwset vw rs1 rs2) 0x0C (word (c.viewReason d * 256)))

/-- The transfers of spec/06 R138 to R141 that pass their checks: `vld` and `tld` write the image's elements to the view,
`vst` and `tst` write the view's elements to the image as one store of the core; the column forms transpose.

`xmv` between views of equal element count and container copies the elements; from an accumulator view to an `i32` or
`f32` one it resolves each element, counting events (spec/06 R142, R143). -/
def Obligations.TransferMoveResult : Prop :=
  (∀ (s : State) (vw : BitVec 4) (col : Bool) (rs1 : Reg) (imm : BitVec 12), s.Quiet →
    let a := (s.core s.cur).ea rs1 imm
    let stored (x : CoreSt) : CoreSt := ({ x with storeSeq := x.storeSeq + 1 } : CoreSt).after
    (s.TransferOk vw a true false →
      exec (.vld vw rs1 imm) s = .next ((s.viewLoaded vw a.toNat false).retiring CoreSt.after) ∧
      exec (.vst vw rs1 imm) s = .next ((s.viewStored vw a.toNat false).retiring stored)) ∧
    (s.TransferOk vw a false col →
      exec (.tld vw col rs1 imm) s = .next ((s.viewLoaded vw a.toNat col).retiring CoreSt.after) ∧
      exec (.tst vw col rs1 imm) s = .next ((s.viewStored vw a.toNat col).retiring stored))) ∧
  (∀ (s : State) (dst src : BitVec 4), s.Quiet →
    let c := s.core s.cur
    let S := vget c.vw src.toNat Desc.zero
    let D := vget c.vw dst.toNat Desc.zero
    let cs := S.container (c.viewFmt S)
    let cd := D.container (c.viewFmt D)
    let es := S.readFrom cs c.reg
    s.MoveOk dst src →
      (S.isAcc = D.isAcc → cs = cd →
        exec (.xmv dst src) s = .next ((s.moved D cd es).retiring CoreSt.after)) ∧
      (S.isAcc = true → D.isAcc = false → D.fsel = false → D.etype = 0x3 ∨ D.etype = 0xA →
        es.all (fun e => (AE.ofNat e).float == (D.etype == 0xA)) = true →
        (S.strict = true → es.all (fun e => (AE.ofNat e).res) = true) →
        exec (.xmv dst src) s =
          .next (((s.modCore s.cur (fun x => x.countEvs ((es.map resolveRead).flatMap (fun r => r.2)))).moved D cd
            ((es.map resolveRead).map (fun r => r.1))).retiring CoreSt.after)))

/-- `ringset` of a valid or all-zero descriptor sets a ring that no queued engine word names; `ringadv` publishes entries
that fit; `ringrel` releases consumed entries and counts them when the ring says so, once the pools have room for what the count
launches (spec/05 R113 to R115, spec/11 R262).

`shape` checks a record and changes nothing; one that fails a check raises SHAPE_INVALID with its reason (spec/04 R96,
R99). -/
def Obligations.RingShapeResult : Prop :=
  (∀ (s : State) (rg : BitVec 4) (rs1 rs2 : Reg), s.Quiet →
    let c := s.core s.cur
    let n := c.rx rs1
    let nd : Desc := ⟨c.rx rs1, c.rx rs2⟩
    let d := vget c.rg rg.toNat Desc.zero
    let p := vget c.rgp rg.toNat ⟨0, 0⟩
    (c.namesRing rg.toNat = false → nd = ⟨0, 0⟩ ∨ (nd.d0 ≠ 0 ∧ nd.ringReason (s.ctx s.cur.asid).par.fp = 0) →
      exec (.ringset rg rs1 rs2) s = .next (s.retiring (fun x => (x.setRing rg.toNat nd).after))) ∧
    (d.unset = false → n.toNat ≤ d.count - d.occ →
      exec (.ringadv rg rs1) s = .next (s.retiring (fun x =>
        ({ x with rg := vset x.rg rg.toNat (d.setPtrs d.head (d.tail + n.toNat) d.hslot) }).after))) ∧
    (d.unset = false → p.rd.toNat = d.head → n.toNat ≤ d.occ →
      (bit d.d0 52 = true → n ≠ 0 → s.launchRoom s.cur (bits d.d0 51 40) n.toNat = true) →
      let s1 := s.modCore s.cur (fun x => { x with
        rg := vset x.rg rg.toNat (d.setPtrs (d.head + n.toNat) d.tail ((d.hslot + n.toNat) % d.count))
        rgp := vset x.rgp rg.toNat { p with rd := BitVec.ofNat 16 (d.head + n.toNat) } })
      exec (.ringrel rg rs1) s = .next ((if bit d.d0 52 = true ∧ n ≠ 0 then s1.increment s.cur (bits d.d0 51 40) n.toNat else s1).retiring
        CoreSt.after)) ∧
    (d.unset = false → p.rd.toNat = d.head → n.toNat ≤ d.occ → bit d.d0 52 = true → n ≠ 0 →
      s.launchRoom s.cur (bits d.d0 51 40) n.toNat = false → exec (.ringrel rg rs1) s = s.waits) ∧
    (d.unset = false → d.count - d.occ < n.toNat → exec (.ringadv rg rs1) s = s.traps (.ringadv rg rs1) 0x10 0) ∧
    (d.unset = false → p.rd.toNat = d.head → d.occ < n.toNat → exec (.ringrel rg rs1) s = s.traps (.ringrel rg rs1) 0x11 0)) ∧
  (∀ (s : State) (rs1 : Reg), s.Quiet →
    let a := ((s.core s.cur).rx rs1).toNat % 2 ^ 20
    let r := ShapeRec.ofBytes (s.peek (.scratch s.cur.l a) 64)
    a + 64 ≤ 0xC0000 → s.OwnOk a 64 →
      (r.early = 0 → r.tooBig = false → a % 64 = 0 →
        exec (.shape rs1) s = .next ((s.reach s.cur.asid (.scratch s.cur.l a) 64).retiring CoreSt.after)) ∧
      (r.early ≠ 0 → exec (.shape rs1) s = s.traps (.shape rs1) 0x0B (word (r.early * 256))) ∧
      (r.early = 0 → r.tooBig = true → exec (.shape rs1) s = s.traps (.shape rs1) 0x0B (word 0x800)) ∧
      (r.early = 0 → r.tooBig = false → a % 64 ≠ 0 → exec (.shape rs1) s = s.traps (.shape rs1) 0x0B (word 0x900)))

/-- `nfcvt` rounds between FP32 and the narrow format of its format register, counts the events of the rounding and leaves
`fcsr` alone; `rngrd` returns the random word of its stream and index (spec/07 R165, spec/09 R232, R234). -/
def Obligations.NarrowConvert : Prop :=
  ∀ (s : State) (rm : Rnd) (fmt : BitVec 3) (sid : BitVec 7) (rd rs1 rs2 : Reg), s.hasCore s.cur = true →
    let c := s.core s.cur
    let seed := (s.ctx s.cur.asid).par.seed
    let F := Fmt.ofReg (c.fmtReg fmt)
    let draw := if rm = .sr then srDraw seed c.lcn (bits (c.rx rs2) 63 56) (bits (c.rx rs2) 55 0) else 0
    let n := roundTo F (decodeFloat Fmt.f32 (unbox .s (c.rf rs1))) (rndRM rm) draw
    let w := roundTo Fmt.f32 (decodeFloat F ((c.rx rs1).toNat % 2 ^ F.width)) (rndRM rm) draw
    exec (.nfcvtN rm fmt rd rs1 rs2) s = .next (s.retiring (fun x => ((x.countEvs n.2).wx rd (word n.1)).after)) ∧
    exec (.nfcvtF rm fmt rd rs1 rs2) s = .next (s.retiring (fun x => ((x.countEvs w.2).wf rd (nanBox .s w.1)).after)) ∧
    exec (.rngrd sid rd rs1) s =
      .next (s.retiring (fun x => (x.wx rd (rand64 seed c.lcn sid.toNat (c.rx rs1).toNat)).after))

/-- `nfpack` shifts the doubleword down by one container and puts the code in its top container; `nfunpk` returns one
element's code. Neither rounds, counts or traps; their worked parcels decode to them (spec/09 R233). -/
def Obligations.NarrowPack : Prop :=
  ∀ (s : State) (fmt : BitVec 3) (rd rs1 rs2 : Reg), s.hasCore s.cur = true →
    let c := s.core s.cur
    let F := Fmt.ofReg (c.fmtReg fmt)
    let i := (c.rx rs2).toNat % (64 / F.cont)
    exec (.nfpack fmt rd rs1 rs2) s = .next (s.retiring (fun x =>
      (x.wx rd (((c.rx rs1) >>> F.cont) ||| word ((c.rx rs2).toNat % 2 ^ F.width * 2 ^ (64 - F.cont)))).after)) ∧
    exec (.nfunpk fmt rd rs1 rs2) s = .next (s.retiring (fun x =>
      (x.wx rd (word ((c.rx rs1).toNat / 2 ^ (i * F.cont) % 2 ^ F.width))).after)) ∧
    decodeParcel 0x026292FB#32 = .ok (.nfpack 1 5 5 6) ∧ decodeParcel 0x0282A4FB#32 = .ok (.nfunpk 1 9 5 8)

/-! ### Command words: push, issue, retirement -/

/-- `epush` and `epushb` of words that pass validation enter their queue when it has room, with a request number, a store
number and, on `eqc`, a promise in its FIFO (whose tick is the model's choice: notes/assumptions/31.md); matrix, vector and
population words are captured with the views and formats of the push; an alignment or count that is wrong, and the first word that
fails a check, raise COMMAND_INVALID with the reason and that word's slot, and a block beyond F is refused with code 0x0A; these push
nothing (spec/02 R51, spec/04 R84, spec/09 R226, R227). That the read of the block asks the banks as the core's scalar access is the
model's choice (notes/assumptions/61.md). -/
def Obligations.PushResult : Prop :=
  ∀ (s s2 : State) (q : Queue) (rs1 rs2 : Reg) (n : Nat) (ws : List CmdWord) (ps : List PWord), s.Quiet → s2.Quiet → s2.cur = s.cur →
    let c := s.core s.cur
    let a := c.rx rs1
    let s1 := s.reach s.cur.asid (.scratch s.cur.l a.toNat) (32 * n)
    let fp := (s.ctx s.cur.asid).par.fp
    (1 ≤ n → n ≤ capWords q → a.toNat % 32 = 0 → s.OwnOk a.toNat (32 * n) →
      ws = blockWords (s.peek (.scratch s.cur.l a.toNat) (32 * n)) n →
      (captureWords q n ((List.range n).zip ws) s1 = .ok (ps, s2) → ((s2.core s.cur).queue q).hasRoom q n = true →
        (n = 1 → exec (.epush q rs1) s = .next (s2.pushing q ws ps)) ∧
        (c.rx rs2 = word n → exec (.epushb q rs1 rs2) s = .next (s2.pushing q ws ps))) ∧
      (q ≠ .eqc → (∀ w ∈ ws, c.wordReason q fp n false (c.capture q w) = 0) →
        captureWords q n ((List.range n).zip ws) s1 = .ok (ws.map (fun w => c.capture q w), s1)) ∧
      (n = 1 → ∀ w, ws = [w] → c.wordReason q fp 1 false (c.capture q w) ≠ 0 →
        exec (.epush q rs1) s = s.traps (.epush q rs1) 0x0A (word (c.wordReason q fp 1 false (c.capture q w) * 256))) ∧
      (∀ k w, ws[k]? = some w → captureWords q n ((List.range k).zip (ws.take k)) s1 = .ok (ps, s2) → (s2.ctx s.cur.asid).par.fp = fp →
        let c2 := s2.core s.cur
        let r := c2.wordReason q fp n false (c2.capture q w)
        r ≠ 0 → c.rx rs2 = word n → exec (.epushb q rs1 rs2) s = s.traps (.epushb q rs1 rs2) 0x0A (word (k + r * 256)))) ∧
    (a.toNat % 32 ≠ 0 → exec (.epush q rs1) s = s.traps (.epush q rs1) 0x0A (word 0xB00) ∧
      exec (.epushb q rs1 rs2) s = s.traps (.epushb q rs1 rs2) 0x0A (word 0xB00)) ∧
    (1 ≤ n → n ≤ capWords q → a.toNat % 32 = 0 → a.toNat ≥ 2 ^ 20 ∨ a.toNat + 32 * n > fp →
      (n = 1 → exec (.epush q rs1) s = s.refuses (.epush q rs1) 0x0A a) ∧
      (c.rx rs2 = word n → exec (.epushb q rs1 rs2) s = s.refuses (.epushb q rs1 rs2) 0x0A a)) ∧
    (c.rx rs2 = 0 ∨ (c.rx rs2).toNat > capWords q → exec (.epushb q rs1 rs2) s = s.traps (.epushb q rs1 rs2) 0x0A (word 0xB00))

/-- A matrix or vector word at the head of its queue whose conditions are met, with every word before it in the queue done,
runs its command on the register space, the scratchpad and the claimed ring entries as they stand: its writes are made, and it
is in flight with its result element and the counts of its events until its occupancy and latency are over; a fault of its data
changes no data, ends its push, which leaves its queue unless words of it are in flight, and is held pending with the word that
raised it. Neither changes another memory, of another core or outside, or a scalar register (spec/08 R173, R175, R180, R182, R183, spec/09 R239). With the scoreboard on the word issues one cycle later. That its
writes are made in the step that issues it is the model's choice (notes/assumptions/19.md). -/
def Obligations.MatrixVectorResult : Prop :=
  ∀ (s : State) (i : Instr) (q : Queue) (op : MvOp) (w : CmdWord) (h : Head) (ents : List (Nat × Nat)),
    mvOpOf i = some (q, op) → encodeWord i = some w → (s.decideHeads s.cur).MvStarts q w h ents →
    let s0 := s.decideHeads s.cur
    let c := s0.core s.cur
    let out := s0.mvOut op h ents
    let same (u : State) : Prop := u.hbm = s.hbm ∧ u.host = s.host ∧ u.cycle = s.cycle ∧
      (u.core s.cur).x = c.x ∧ (u.core s.cur).f = c.f ∧ (u.core s.cur).pc = c.pc ∧ (u.core s.cur).vw = c.vw ∧
      (u.core s.cur).csr = c.csr ∧ ∀ j, j ≠ s.cur → (u.core j).reg = (s.core j).reg ∧ (u.core j).scratch = (s.core j).scratch
    (out.fault = none → ∃ u f, exec i s = .next u ∧ same u ∧
      (u.core s.cur).reg = out.onReg c.reg ∧ (u.core s.cur).scratch = out.scrW.foldl (fun m w => m.write w.1 w.2) c.scratch ∧
      (∀ c' es, c.claims (fieldRings w) = some (c', es) → (u.core s.cur).rgp = c'.rgp) ∧
      (u.core s.cur).flights = c.flights ++ [f] ∧ f.q = q ∧ f.word = w ∧ f.result = out.result ∧ f.evAdd = out.evs ∧
      f.nfAdd = out.nfs ∧ f.occEnd = s.cycle + (if c.checks q then 1 else 0) + op.time h.pw ∧ f.retireAt = f.occEnd + op.lat) ∧
    (∀ cause detail, out.fault = some (cause, detail) → c.pend.length < 64 → c.LaunchFree (wordPops w) false →
      ∃ u, exec i s = .next u ∧ same u ∧ (u.core s.cur).reg = c.reg ∧ (u.core s.cur).scratch = c.scratch ∧
        ((u.core s.cur).queue q).pushes = c.headEnded q ∧
        (u.core s.cur).pend = c.pend ++
          [⟨cause, 0, word (h.push.rq % 65536 + h.slot % 256 * 2 ^ 16 + (Queue.code q).toNat * 2 ^ 24), word detail⟩])

/-- A copy word at the head of `eqc` whose conditions are met, with an engine free and its turn come, issues, and its pieces
run to their end (that they do so at issue is the model's choice: notes/assumptions/19.md). A population word whose conditions
are met does its work: `prank` writes the ranking into the scratchpad of its leader, `pcull` gives each replaced member its
parent's generation plus one and a lineage record, `pmig` sends its packet or, on a port that is not up or not bound, faults,
`plog` writes the lineage records to the slots of the ring, one after the other, and the tail and slot after them into its descriptor; each holds
its result element until it retires. What it may not do raises POPULATION_FAULT with the reason (spec/04 R80, spec/13 R308, R311,
R313, R314, R317, R318, R320).

Whether the far side of a port is bound is free. These are the model's choices: that the words of an `xch` block have eight loop
counters of their own, which start at 0 (notes/assumptions/60.md), that `pmig` shows reason 0x06 before 0x04 where both apply
(notes/assumptions/29.md), and that `prank` shows 0x01 before 0x03 and the lineage record of a `pmig` names the sender as parent
(notes/assumptions/53.md). -/
def Obligations.CopyPopulationResult : Prop :=
  ∀ (s : State) (i : Instr) (w : CmdWord) (h : Head), encodeWord i = some w →
    let s0 := s.decideHeads s.cur
    let c := s0.core s.cur
    let x := s0.ctx s.cur.asid
    let f : PpF := ⟨w⟩
    (∀ eng, isCopyWord i = true → s0.CopyStarts w h eng →
      exec i s = .next ((s0.copyIssued h eng).copyAll s.cur c.issueNo ((s0.copyIssued h eng).copyFuel s.cur c.issueNo))) ∧
    (s0.PopStarts w h → c.pend.length < 64 →
      let R := s0.ranked h
      let faults (reason code : Nat) : Prop := ∃ u, exec i s = .next u ∧ u.hbm = s.hbm ∧
        (u.core s.cur).pend = c.pend ++ [⟨0x24, 0, word (h.push.rq % 65536 + h.slot % 256 * 2 ^ 16 + (Queue.code .eqp).toNat * 2 ^ 24),
          word (reason * 2 ^ 8 + code * 2 ^ 24)⟩]
      (∀ run, popRunOf i = some run → exec i s = .next (State.settlePop s.cur h (run s0 s.cur h))) ∧
      (∀ hd b, i = .prank hd b →
        let leader := (R.map Ranked.l).foldl min ((R.head?.map Ranked.l).getD s.cur.l)
        (notMember R h.push.lcn = true → faults 0x01 0) ∧
        (notMember R h.push.lcn = false → f.addr + 16 + 16 * R.length ≤ x.par.fp → s0.hasCore ⟨s.cur.asid, leader⟩ = true →
          s0.cellsOpen [leader] → ∃ u, exec i s = .next u ∧ u.hbm = s.hbm ∧
            (u.core s.cur).PopInFlight h (popResult 0x01 f.grp (nanCount R * 2 ^ 16 + R.length)) [] ∧
            (u.core ⟨s.cur.asid, leader⟩).scratch =
              (s0.core ⟨s.cur.asid, leader⟩).scratch.write f.addr (rankTable x.sscnt f.grp R))) ∧
      (∀ hd b, i = .pcull hd b →
        (notMember R h.push.lcn = true → faults 0x01 0) ∧
        (notMember R h.push.lcn = false → R.length < 2 * f.k → faults 0x02 0) ∧
        (notMember R h.push.lcn = false → 2 * f.k ≤ R.length → s0.lineageFree s.cur.asid < f.k → faults 0x04 0) ∧
        (notMember R h.push.lcn = false → 2 * f.k ≤ R.length → f.k ≤ s0.lineageFree s.cur.asid → (R.map Ranked.l).Nodup →
          (∀ r ∈ R, s0.hasCore ⟨s.cur.asid, r.l⟩ = true) → s0.cellsOpen (R.map Ranked.l) →
          ∃ u, exec i s = .next u ∧ u.hbm = s.hbm ∧
            (u.core s.cur).PopInFlight h (popResult 0x02 f.grp f.k)
              (((R.take f.k).zip (R.reverse.take f.k)).map (fun p =>
                lineageRec 0x01 p.2.l x.sscnt f.sigma p.1.l f.seed (p.1.gen + 1) p.1.fit)) ∧
            ∀ p ∈ (R.take f.k).zip (R.reverse.take f.k), (u.core ⟨s.cur.asid, p.2.l⟩).genNum = p.1.gen + 1)) ∧
      (∀ hd b, i = .pmig hd b →
        ((s0.ports.getD f.port Port.reset).lst ≠ 2 → faults 0x06 0) ∧
        ((s0.ports.getD f.port Port.reset).lst = 2 → Config.freeBool s0.fresh = false → faults 0x06 0) ∧
        ((s0.ports.getD f.port Port.reset).lst = 2 → s0.cellsOpen [s.cur.l] → 1 ≤ s0.lineageFree s.cur.asid →
          ∃ u, exec i s = .next u ∧ u.hbm = s.hbm ∧ (Config.freeBool s0.fresh = true → ∃ p : Packet,
            (u.core s.cur).PopInFlight h (popResult 0x03 0 p.weights.length)
              [lineageRec 0x03 h.push.lcn x.sscnt f.sigma h.push.lcn f.seed p.gen p.fitness.toNat] ∧
            p.grp = BitVec.ofNat 12 f.grp ∧ p.addr = BitVec.ofNat 20 f.addr ∧ p.gen = (s0.core ⟨s.cur.asid, h.push.lcn⟩).genNum ∧
            (f.pert = false → p.weights = s0.peek (.scratch s.cur.l f.addr) f.bytes)))) ∧
      (∀ hd b, i = .plog hd b → s0.cellsOpen [s.cur.l] →
        let bs := s0.peek (.scratch s.cur.l f.addr) 32
        let d (k : Nat) : Nat := leNat ((bs.drop (8 * k)).take 8)
        let recs := x.lineage.map (fun r => r.2.2)
        let bad : Bool := d 0 / 2 ^ 54 != 0 || d 0 % 32 != 0 || d 1 / 2 ^ 32 != 0 || d 1 = 0 || d 2 / 2 ^ 32 != 0 || d 3 ≥ d 1
        (bad = true → faults 0x05 0) ∧
        (∀ t, bad = false → (s0.touch s.cur.asid (x.dieOf s.cur.l)).RingTakes s.cur h (d 0) (d 1) (d 3) recs t →
          ∃ u, exec i s = .next u ∧ (u.core s.cur).PopInFlight h (popResult 0x04 0 recs.length) [] ∧
            (u.ctx s.cur.asid).lineage = [] ∧ u.hbm = t.hbm ∧ u.host = t.host ∧
            (u.core s.cur).scratch = (t.core s.cur).scratch.write f.addr
              (bs.take 16 ++ leBytes 8 ((d 2 + recs.length) % 2 ^ 32) ++ leBytes 8 ((d 3 + recs.length) % d 1)))))

/-- A word in flight that is done retires: the entries it used are published and popped, its result enters its FIFO, its
lineage records the buffer, its completion counter is signalled, its counts enter the event counters, and it leaves its engine;
a population word waits for room (spec/04 R87, spec/08 R173, R175, spec/09 R239, spec/13 R308). -/
def Obligations.WordRetireResult : Prop :=
  ∀ (s : State) (id : CoreId) (f : Flight), s.Retires id f →
    let t := ((s.modCtx id.asid (fun x => x.noteUnit id.l f)).completed id f).flown id f
    (∀ q, q = .eqm ∨ q = .eqv → (s.core id).firstFlight q = some f → f.retireAt ≤ s.cycle →
      exec (.engineWordRetire id q) s = .next t) ∧
    (∀ k, ((s.core id).flightsOf .eqc)[k]? = some f → (s.core id).copyDone f = true →
      exec (.copyWordRetire id k) s = .next t) ∧
    ((s.core id).firstFlight .eqp = some f → f.suspended = false → (∀ g ∈ (s.core id).flights, g.uid = f.uid → g.pieces = []) →
      (f.result.isSome = true → (s.core id).eqp.fifo.length < 16) →
      exec (.populationWordRetire id) s = .next (t.modCore id (fun c => { c with eqp := { c.eqp with lastEnd := t.cycle } })))

/-- A head word whose guard slot decides against it is discarded, on `eqm` with the lease of its slot: nothing of it is done
but its rings, its place in the queue and its signal. A run of a JMU that is over, or whose slot cannot go on while another
waits, passes the lease to the next slot of the bench that waits; the slot goes on when none does. A push whose promise has
passed gets PROMISE_MISSED once, with a later revised promise (spec/04 R85, spec/08 R176 to R178, spec/09 R224). -/
def Obligations.DiscardLeasePromise : Prop :=
  (∀ (s s1 : State) (id : CoreId) (q : Queue) (h : Head) (c' : CoreSt) (es : List (Nat × Nat)),
    let s0 := s.decideHeads id
    let c := s0.core id
    s0.hasCore id = true → c.headOf q = some h → s0.engineOn id = true → s0.stallMet id q h.pw.word = true →
    c.decision h = some false → c.claims (fieldRings h.pw.word) = some (c', es) →
    (if q = .eqm then s0.takeLease id else some s0) = some s1 → c.win.unc = none → c.replay = none →
    c.LaunchFree (wordPops h.pw.word) (wbits h.pw.word 17 17 == 1) →
      exec (.discardWord id q) s = .next (s1.discarded id q h c') ∧
      (s1.discarded id q h c').hbm = s.hbm ∧ (s1.discarded id q h c').host = s.host ∧
      ((s1.discarded id q h c').core id).reg = c.reg ∧ ((s1.discarded id q h c').core id).scratch = c.scratch ∧
      ((s1.discarded id q h c').core id).flights = c.flights) ∧
  (∀ (s : State) (bench k : Nat),
    let ids := s.benchCores bench
    let l := s.benchLease bench
    let others := (s.slotsFrom bench (k + 1)).filter (fun j => j != k)
    l.holder = some k → l.busy ≤ s.cycle →
    (l.spent s.cycle = true ∨ s.slotWaits ids k = false ∨
      others ≠ [] ∧ (ids.filter (fun id => s.slotOf id == k)).all s.headStuck = true) →
      (∀ j js, others = j :: js → exec (.jmuRunEnd bench) s = .next (s.setLease bench (l.begin_ j s.cycle))) ∧
      (others = [] → exec (.jmuRunEnd bench) s = .next (s.setLease bench { l.begin_ k s.cycle with
        holder := if s.slotWaits ids k then some k else none }))) ∧
  (∀ (s : State) (id : CoreId) (rseq : BitVec 16) (revised : Word) (p : Push), s.hasCore id = true →
    (s.core id).eqc.pushes.find? (fun p => p.rq == rseq.toNat && !p.missed && p.promise != 0 && p.promise != BitVec.allOnes 64
      && decide (p.promise.toNat < s.pcc (s.dieOf id))) = some p → s.pcc (s.dieOf id) + 1 ≤ revised.toNat →
      exec (.promiseMissed id rseq revised) s = .next ((s.modCore id (fun c => c.setQueue .eqc { c.eqc with
        pushes := c.eqc.pushes.map (fun r => if r.seq = p.seq then { r with missed := true } else r) })).pendTrap id
          ⟨0x21, word p.rq, p.promise, revised⟩))

/-! ### Steps that no instruction takes by itself -/

/-- A `wfcy` whose tick has come and a `wfc` one of whose bits is 1 complete as events of their core; a due handler entry is
made, and a pending trap is taken, at a boundary; a halt line that is up reaches every unit of its context (spec/04 R86,
spec/09 R231, spec/15 R352, R353, R357). That a pending trap splits the gang of its core is the model's reading
(notes/assumptions/41.md), that an entry waits while a store cannot leave the buffer is too (notes/assumptions/62.md), and that a host
atomic still held starts again after the handler is its choice (notes/assumptions/39.md). -/
def Obligations.BoundarySteps : Prop :=
  (∀ (s : State) (id : CoreId) (rs1 : Reg), ({ s with cur := id } : State).Quiet → s.attached id.asid = false →
    (s.core id).stepping = false → (s.core id).gang = none →
    (s.standsAt id = some (.wfcy rs1) → ((s.core id).rx rs1).toNat ≤ s.pcc (s.dieOf id) →
      ∃ t, exec (.wfcyExpiry id) s = .next t ∧ t.cur = s.cur ∧ (t.core id).x = (s.core id).x ∧ (t.core id).pc = (s.core id).pc + 4) ∧
    (s.standsAt id = some (.wfc rs1) → s.cbits id &&& (s.core id).rx rs1 ≠ 0 →
      ∃ t, exec (.wfcWake id) s = .next t ∧ t.cur = s.cur ∧ (t.core id).x = (s.core id).x ∧ (t.core id).pc = (s.core id).pc + 4)) ∧
  (∀ (s : State) (id : CoreId) (d : DueEntry), s.mayRun id = true → (s.core id).due = some d →
    let s0 : State := { s with note := .none }
    (s0.storeWaits id = false → exec (.trapEntry id) s = .next ((s0.enterHandler id d.epc d.trap false).afterRun [id])) ∧
    (s0.storeWaits id = true → exec (.trapEntry id) s = .next (({ s0.flush id with note := .waited } : State).afterRun [id]))) ∧
  (∀ (s : State) (id : CoreId) (t : TrapInfo) (ts : List TrapInfo), (s.gangOf id).all s.mayRun = true →
    (s.core id).pendReady = true → (s.core id).rewinding = none → (s.core id).replay = none → (s.core id).pend = t :: ts →
    (s.storeWaits id = false →
      exec (.takePendingTrap id) s = .next ((((((s.dropHostAmo id).modCore id (fun c => { c with pend := ts })).splitGang id).enterHandler
        id (s.core id).pc t true)).afterRun [id])) ∧
    (s.storeWaits id = true →
      exec (.takePendingTrap id) s = .next (({ s.flush id with note := .waited } : State).afterRun [id]))) ∧
  (∀ (s : State) (asid : Nat) (x : Ctx) (h : HaltInfo), s.ctx? asid = some x → x.halt = some h → h.reached = false →
    (h.cause ≠ 0 ∨ x.run = .running) → (∀ id ∈ x.ids, (s.core id).rewinding = none) →
    exec (.halt asid) s = .next (s.stopAll asid))

/-- A trap entry saves the pc with its low two bits as the register keeps them, the cause, value and details and the level,
enters the runtime level and goes to `rtvec`; at the runtime level it is DOUBLE_TRAP, with no handler UNHANDLED, and while a
halt, of a core that no STEP runs, or a pre-emption is due it stays due (spec/15 R350 to R352). `ecall` takes ENVIRONMENT_CALL and
`ebreak` BREAKPOINT (spec/02 R29). That the store buffer drains at the entry, which stays due while a store cannot leave it, is the
model's reading (notes/assumptions/62.md). -/
def Obligations.TrapEntryResult : Prop :=
  (∀ (s : State) (id : CoreId) (epc : Word) (t : TrapInfo) (async : Bool), s.hasCore id = true →
    bits (s.core id).csr.rtvec 53 2 ≠ 0 →
    let c := s.core id
    let d := (s.enterHandler id epc t async).core id
    d.csr.tepc = epcOf epc ∧ d.csr.tcause = word (t.code + if async then 2 ^ 63 else 0) ∧ d.csr.tval = t.tval ∧
    d.csr.tdet0 = t.det0 ∧ d.csr.tdet1 = t.det1 ∧ d.csr.tstat = (if c.runtime then 1 else 0) ∧ d.runtime = true ∧
    d.pc = sext54 (bits c.csr.rtvec 53 2 * 4) ∧ d.pfx = none ∧ d.x = c.x ∧ d.f = c.f ∧ d.instret = c.instret ∧
    (c.sb = [] → d.reg = c.reg ∧ d.scratch = c.scratch) ∧
    (s.ownStores c.sb = true → s.cur = id → s.poison = [] → (s.die (s.dieOf id)).edge = [] →
      d.sb = [] ∧ d.scratch = c.sb.foldl (fun m w => m.write w.place.addr (leBytes w.n w.val)) c.scratch)) ∧
  (∀ (s : State) (t : TrapInfo), s.hasCore s.cur = true → (s.core s.cur).gang = none → (s.core s.cur).replay = none →
    let c := s.core s.cur
    let x := s.ctx s.cur.asid
    let s1 : State := { s.splitGang s.cur with note := .trapped t c.unitPc }
    (c.runtime = false → x.halt = none ∨ c.stepping = true → x.preempt = none → s1.storeWaits s.cur = false →
      s.takeTrap t = s1.enterHandler s.cur c.unitPc t false) ∧
    (c.runtime = true → s.takeTrap t =
      (s1.modCore s.cur (fun c => { c with pc := (s.core s.cur).unitPc, pfx := none })).raiseHalt s.cur.asid 0x30 s.cur.l) ∧
    (c.runtime = false → x.preempt ≠ none ∨ (x.halt ≠ none ∧ c.stepping = false) ∨ s1.storeWaits s.cur = true → s.takeTrap t =
      s1.modCore s.cur (fun c => { c with pc := (s.core s.cur).unitPc, pfx := none, due := some ⟨(s.core s.cur).unitPc, t⟩ }))) ∧
  (∀ (s : State) (id : CoreId) (epc : Word) (t : TrapInfo) (async : Bool), bits (s.core id).csr.rtvec 53 2 = 0 →
    s.enterHandler id epc t async =
      (s.modCore id (fun c => { c with pc := epc, pfx := none, due := none, fuse := none })).raiseHalt id.asid 0x31 id.l) ∧
  (∀ (s : State), s.hasCore s.cur = true →
    exec .ecall s = s.traps .ecall 0x04 0 ∧ exec .ebreak s = s.traps .ebreak 0x03 0)

/-- A refusal on its way back acknowledges its request and becomes a pending trap. The oldest entry of a store buffer is
performed when it is local and enters its die's edge queue when it is not, unless the hold buffer of its die keeps the core's stores
back (spec/14 R335); an edge-queue entry is performed, or returns a refusal; a shadow entry is merged into its home and charged to the core that started it; a walk that succeeds fills the leaf
cache of its die; the log buffer of a core goes out (spec/03 R66, R67, spec/09 R219, spec/10 R245, spec/14 R326, R327). -/
def Obligations.MemorySteps : Prop :=
  (∀ (s : State) (id : CoreId) (t : TrapInfo) (ts : List TrapInfo), (s.core id).late = t :: ts →
    exec (.lateRefusal id) s = .next (((s.modCore id (fun c => { c with late := ts })).ack id).pendTrap id t)) ∧
  (∀ (s : State) (id : CoreId) (w : BufWrite) (ws : List BufWrite), (s.core id).sb = w :: ws → w.kind = .store →
    let left (t : State) : State := t.modCore id (fun c => { c with sb := c.sb.drop 1 })
    let gone (t : State) : State := (left (t.markBuf { w with shown := t.seen })).askPlace id.asid (scalarAsker id.l w.place) id.l 0 w.place w.n
    (w.place.isLocal = true → s.holdFull id w = false → s.poisonAt id w.place w.n = false →
      (∀ t, s.performBuf w true = .done t → exec (.storeBufferDrain id) s = .next (gone t)) ∧
      (∀ l a, w.win = none → w.place = .scratch l a →
        exec (.storeBufferDrain id) s = .next (gone (s.writeScratch w.asid l a (leBytes w.n w.val))))) ∧
    (w.place.isLocal = true → s.holdFull id w = false → s.poisonAt id w.place w.n = true →
      exec (.storeBufferDrain id) s = .next (((left s).outstanding id).lateRefusal w 0x0B)) ∧
    (s.holdFull id w = true → exec (.storeBufferDrain id) s = .next s) ∧
    (w.place.isLocal = false → s.holdFull id w = false →
      exec (.storeBufferDrain id) s =
        .next (((left (s.shownTo (s.dieOf id) w)).modDie (s.dieOf id) (fun x => { x with
          edge := x.edge ++ [{ w with shown := (s.shownTo (s.dieOf id) w).seen }] })).outstanding id))) ∧
  (∀ (s : State) (d i : Nat) (w : BufWrite), (s.die d).edge[i]? = some w → edgeReady (s.die d).edge i = true →
    let s0 := match s.servedBy w.asid w.place with
      | some t => s.touch w.asid t
      | none => s
    let left (t : State) : State := t.modDie d (fun x => { x with edge := x.edge.eraseIdx i })
    let code := s0.placeRefusal w.asid w.place w.n
    (code = 0 →
      (∀ t, s0.performBuf w true = .done t → exec (.edgeQueueDrain d i) s = .next ((left (t.markBuf w)).ack ⟨w.asid, w.l⟩)) ∧
      (∀ sl pa, w.kind = .store → w.win = none → w.place = .hbm sl pa →
        exec (.edgeQueueDrain d i) s = .next ((left ((s0.hbmWrite sl pa (leBytes w.n w.val) (some ⟨w.asid, w.l⟩)).markBuf w)).ack ⟨w.asid, w.l⟩))) ∧
    (code ≠ 0 → exec (.edgeQueueDrain d i) s = .next ((left s0).lateRefusal w code))) ∧
  (∀ (s : State) (d i : Nat) (e : Shadow), (s.die d).shadow[i]? = some e →
    let n := if e.kind = .addD then 8 else 4
    let s0 := s.touch e.asid (s.stackOf e.pa)
    let gone (t : State) : State := t.modDie d (fun x => { x with shadow := x.shadow.filter (fun y => y != e) })
    let sum := addKind e.kind (leNat (s0.hbmBytes e.slot e.pa n)) e.sum
    (∀ t, s.mergeEntry d e e.starter true = .done t → exec (.shadowMerge d i) s = .next t) ∧
    (s0.hbmRefusal e.slot e.pa n ≠ 0 → exec (.shadowMerge d i) s = .next (gone s0)) ∧
    (s0.hbmRefusal e.slot e.pa n = 0 → s.mgmt.injected = [] → (s.core e.starter).win.unc = none →
      exec (.shadowMerge d i) s = .next (gone ((s0.hbmWrite e.slot e.pa (leBytes n sum) (some e.starter)).modCore e.starter (fun c =>
        { c with storeSeq := c.storeSeq + 1 }))))) ∧
  (∀ (s : State) (d asid : Nat) (va : Word) (e : Word) (lv : Nat) (ptrs : List (Nat × Word)),
    (s.ctx asid).dies.contains d = true → canonical va = true → va.toNat < localBase →
    s.walkDamage d asid (va.toNat % 2 ^ 54) = [] → s.walk d asid (va.toNat % 2 ^ 54) = .ok (e, lv, ptrs) → d < s.dies.length →
    ∃ t, exec (.translationWalk d asid va) s = .next t ∧ t.cores = s.cores ∧ t.hbm = s.hbm ∧
      (⟨asid, lv, va.toNat % 2 ^ 54 / 2 ^ leafBits lv * 8 + station (va.toNat % 2 ^ 54), e⟩ : TlbEnt) ∈ (t.die d).leafs) ∧
  (∀ (s : State) (id : CoreId), s.hasCore id = true →
    ∃ t, exec (.logDrain id) s = .next t ∧ (∀ e ∈ (t.ctx id.asid).log, e.l = id.l → e.drained = true) ∧
      (∀ k ∈ (t.core id).ckpts, k.drained = true) ∧ (t.core id).draining = [] ∧ ∀ k ∈ (t.core id).inputs, k.drained = true)

/-- A message is delivered after what its sender sent to that core before it, into its inbox or scratchpad, and then counts;
an increment is made; what is in transit arrives, or waits while it finds no room; an idle core takes, of the records that may run on
it, that of least class that entered first, and its task starts with its arguments and no load taken ahead of what the publication
released; a migrant replaces the worst-ranked member (spec/05 R120, R121, spec/10 R247, spec/11 R260 to R263, R265, R266, R290, spec/12
R305, spec/13 R319). These are the model's choices: that a task starts at the task level (notes/assumptions/37.md), that what is in
transit waits for room (notes/assumptions/56.md), how records that are passed count towards R290 (notes/assumptions/50.md), and that a
migrant's lineage record lies in no window (notes/assumptions/29.md). -/
def Obligations.DeliverySteps : Prop :=
  (∀ (s t : State) (i : Nat) (m : Msg), s.msgs[i]? = some m → s.inOrder m.asid m.src m.dst m.ord = true →
    (s.deliver m = .done t → exec (.messageDelivery i) s = .next { t with msgs := s.msgs.eraseIdx i }) ∧
    (bit m.target 24 = false → bit m.target 60 = false → ((s.core ⟨m.asid, m.dst⟩).inbox.getD (bits m.target 27 25) []).length < 4 →
      exec (.messageDelivery i) s = .next { (s.modCore ⟨m.asid, m.dst⟩ (fun c => { c with
        inbox := c.inbox.set (bits m.target 27 25) ((s.core ⟨m.asid, m.dst⟩).inbox.getD (bits m.target 27 25) [] ++ [m]) })).ack
          ⟨m.asid, m.src⟩ with msgs := s.msgs.eraseIdx i })) ∧
  (∀ (s : State) (i : Nat) (r : Incr), s.incrs[i]? = some r → s.inOrder r.asid r.src r.dst r.ord = true →
    (s.core ⟨r.asid, r.dst⟩).replay = none → (s.core ⟨r.asid, r.dst⟩).win.unc = none →
    s.launchRoom ⟨r.asid, r.dst⟩ r.ctr r.amount = true →
    let t := s.increment ⟨r.asid, r.dst⟩ r.ctr r.amount r.rels
    let u : State := { t with incrs := t.incrs.eraseIdx i }
    exec (.counterIncrement i) s = .next (if r.remote then u.ack ⟨r.asid, r.src⟩ else u)) ∧
  (∀ (s : State) (i asid d q : Nat) (rs : List PoolRec) (es : List SqEntry),
    (s.transit[i]? = some (.recs asid d rs) → (s.die d).pool.length + rs.length ≤ 8192 → exec (.migrationArrival i) s =
      .next ({ s with transit := s.transit.eraseIdx i }.modDie d (fun x => { x with pool := x.pool ++ rs }))) ∧
    (s.transit[i]? = some (.entries asid q d es) → ((s.ctx asid).sq d q).length + es.length ≤ (s.ctx asid).qcap →
      exec (.migrationArrival i) s =
      .next ({ s with transit := s.transit.eraseIdx i }.modCtx asid (fun x => { x with
        squeues := x.squeues ++ es.map (fun e => (d, q, e)) }))) ∧
    (∀ t, s.transit[i]? = some t → s.transitFits t = false → exec (.migrationArrival i) s = .next s)) ∧
  (∀ (s : State) (id : CoreId) (i : Nat) (p : PoolRec), s.mayStart id = true →
    s.pickRec (s.core id) (s.die (s.dieOf id)).pool = some (i, p) →
    exec (.taskStart id) s = .next (((s.modDie (s.dieOf id) (fun x => { x with
      pool := (passOver (s.ctx id.asid).par i p (s.die (s.dieOf id)).pool).eraseIdx i })).startRec id p.rec_ p.rels).feedAll)) ∧
  (∀ (s : State) (c : CoreSt) (pool : List PoolRec) (i : Nat) (p : PoolRec),
    (s.pickRec c pool = some (i, p) ↔ pool[i]? = some p ∧ s.mayTake c p = true ∧
      ∀ j q, pool[j]? = some q → s.mayTake c q = true → p.cls < q.cls ∨ p.cls = q.cls ∧ i ≤ j) ∧
    (s.mayTake c p = true ↔ p.asid = c.id.asid ∧
      (if p.rec_.gang = true then p.rec_.lcn / 4 = c.id.l / 4 ∧ ∀ k < 4, s.mayStart ⟨p.asid, c.id.l / 4 * 4 + k⟩ = true
       else (p.rec_.aff = 0 → p.rec_.lcn = c.id.l) ∧ (p.rec_.aff = 1 → p.rec_.lcn / 4 = c.id.l / 4) ∧
        (3 ≤ p.rec_.aff → c.stage = some p.rec_.sq)))) ∧
  (∀ (s : State) (asid src dst ord : Nat), s.inOrder asid src dst ord = true ↔
    (∀ m ∈ s.msgs, m.asid = asid → m.src = src → m.dst = dst → ord ≤ m.ord) ∧
    (∀ r ∈ s.incrs, r.asid = asid → r.src = src → r.dst = dst → ord ≤ r.ord) ∧
    ∀ m ∈ (s.core ⟨asid, src⟩).outq, m.dst = dst → ord ≤ m.ord) ∧
  (∀ (s : State) (id : CoreId) (r : TaskRec) (rels : List Rel), s.hasCore id = true → r.gang = false →
    let c := (s.startRec id r rels).core id
    (s.dbg.en = false → ∀ e ∈ c.early, e ∈ (s.core id).early ∧ ∀ x ∈ rels, x.by_ ≠ id ∨ x.word = true →
      s.inScope x.sc x.by_ id = true → s.inScope (s.ctx id.asid).sctx id x.by_ = true →
      e.behind (fun o => s.dieOf o == s.dieOf id) x = false) ∧
    c.runtime = false ∧ c.pc = sext54 r.pc ∧ c.cont = false ∧ c.csr.fcsr = 0 ∧
    (∀ i : Nat, 10 ≤ i → i < 16 → c.rx (BitVec.ofNat 5 i) = r.args.getD (i - 10) 0) ∧
    (∀ i : Nat, i < 10 ∨ 16 ≤ i → i < 32 → c.rx (BitVec.ofNat 5 i) = 0)) ∧
  (∀ (s : State) (port : Nat) (p : Packet) (w : Ranked),
    let q := s.ports.getD port Port.reset
    let t : CoreId := ⟨q.basid, w.l⟩
    let c := typeBits p.wt.toNat
    port < 12 → q.lst = 2 → q.bv = true → (s.ctx? q.basid).isSome = true → (s.ranking q.basid p.grp.toNat none).2.getLast? = some w →
    p.addr.toNat + p.cnt.toNat * c / 8 ≤ (s.ctx q.basid).par.fp → p.addr.toNat % max 1 (c / 8) = 0 → 1 ≤ s.lineageFree q.basid →
    s.poisonLeft t (.scratch w.l p.addr.toNat) p.weights.length = false → s.answers ((s.ctx q.basid).dieOf w.l) = true →
    (s.core t).win.unc = none → s.hasCore t = true → (s.ctx q.basid).spillIn = [] →
    ∃ u, exec (.pmigArrival port p) s = .next u ∧ (u.core t).genNum = p.gen + 1 ∧ u.hbm = s.hbm ∧
      (u.core t).scratch = (s.core t).scratch.write p.addr.toNat p.weights ∧
      (u.ctx q.basid).lineage = (s.ctx q.basid).lineage ++
        [(w.l, none, lineageRec 0x02 w.l (s.ctx q.basid).sscnt 0 0xFFFFFF 0 (p.gen + 1) p.fitness.toNat)])

/-- A barrier whose members have all arrived completes: its arrivals are done and its counters are signalled. A superstep at
which every logical core waits completes: the counter rises by one and every arrival is done (spec/11 R275, R279). -/
def Obligations.CompletionSteps : Prop :=
  (∀ (s : State) (asid grp name : Nat) (b : Barrier),
    (s.ctx asid).barriers.find? (fun b => b.grp == grp && b.name == name) = some b → b.complete = true →
    (s.ctx asid).run = .running →
    (exec (.barrierComplete asid grp name) s = .next (s.completeBarrier asid b)) ∧
    (b.cens = [] → ∃ u, exec (.barrierComplete asid grp name) s = .next u ∧
      (u.ctx asid).barriers = (s.ctx asid).barriers.filter (fun x => !(x.grp == b.grp && x.name == b.name)) ∧ u.hbm = s.hbm ∧
      ∀ l ∈ b.arrived, ∀ a ∈ (u.core ⟨asid, l⟩).arrivals, a.name = b.name → a.grp = b.grp → a.done = true)) ∧
  (∀ (s : State) (asid : Nat), s.superReady asid = true → (s.ctx asid).par.undo ≠ 2 → (s.ctx asid).precise = false →
    (s.ctx? asid).isSome = true →
    ∃ t, exec (.superstepComplete asid) s = .next t ∧ (t.ctx asid).sscnt = (s.ctx asid).sscnt + 1 ∧
      ∀ id ∈ (s.ctx asid).ids, (t.core id).sstepDone = true ∧ (t.core id).pc = (s.core id).pc)

/-- Once its period is over the governor of a die moves one core of the coldest stage to the hottest, and the balancer of a
context moves entries of a balanced stage, and records, from the most to the least loaded die: of the entries those that would be
popped last; a context whose slice is over gets a pre-emption due, and one that is due happens at its cores' boundaries (spec/12
R301 to R304, spec/15 R371, spec/22 R432). Which of several waiting contexts the pre-emption favours is open
(notes/assumptions/23.md); that a period in which nothing acted is not made up for is the model's reading
(notes/assumptions/50.md), that what has moved waits in transit for room its choice (notes/assumptions/56.md), and that the stores of
the cores leave their buffers before a swap, which waits while one cannot, its reading (notes/assumptions/62.md). A move from a queue
that holds fewer entries than were counted takes those it holds, the model's choice (notes/assumptions/53.md). -/
def Obligations.PeriodSteps : Prop :=
  (∀ (s : State) (asid d : Nat) (x : Ctx), s.ctx? asid = some x →
    let per := bits x.par.sc1 63 44 * 64
    let last := ((x.lastGov.find? (fun p => p.1 == d)).map Prod.snd).getD x.since
    let s1 := s.modCtx asid (fun y => { y with lastGov := (d, periodAt last per (s.pcc d)) :: y.lastGov.filter (fun p => p.1 != d) })
    per ≠ 0 → x.run = .running → x.halt = none → x.preempt = none → x.dies.contains d = true → last + per ≤ s.pcc d →
    (∀ id q, s.govern x d = some (id, q) →
      exec (.governorPeriod asid d) s = .next (s1.modCore id (fun c => { c with stage := some q }))) ∧
    (s.govern x d = none → exec (.governorPeriod asid d) s = .next s1)) ∧
  (∀ (s : State) (asid : Nat) (x : Ctx), s.ctx? asid = some x →
    let per := bits x.par.sc0 19 0 * 64
    let now := s.pcc (x.dies.headD 0)
    let began := periodAt x.lastBal per now
    let vector (d : Nat) : List Nat × Int :=
      ((x.loads.find? (fun p => p.1 == d && decide (began ≤ p.2.1))).map (fun p => p.2.2)).getD (s.loadVector x d)
    let s1 := s.modCtx asid (fun y => { y with lastBal := began, loads := [] })
    let thr : Int := bits x.par.sc1 15 0
    let balanced := x.stages.filter (fun q => bit x.par.sc0 (24 + q))
    per ≠ 0 → x.run = .running → x.halt = none → x.preempt = none → x.lastBal + per ≤ now →
    (balanced = [] → bit x.par.sc0 23 = false → exec (.balancerPeriod asid) s = .next s1) ∧
    (balanced = [] → bit x.par.sc0 23 = true → ∀ a b diff, balance x.dies (fun d => (vector d).2) = some (a, b, diff) →
      thr ≤ diff → 1 ≤ diff.toNat / 2 →
      exec (.balancerPeriod asid) s = .next (s1.moveRecs asid a b (min (diff.toNat / 2) 256))) ∧
    (∀ q, balanced = [q] → bit x.par.sc0 23 = false →
      ∀ a b diff, balance x.dies (fun d => ((vector d).1.getD q 0 : Int)) = some (a, b, diff) →
      let n := min (diff.toNat / 2) (min 4096 (x.qcap - (vector b).1.getD q 0))
      (thr ≤ diff → 1 ≤ n → exec (.balancerPeriod asid) s = .next (s1.moveEntries asid q a b n)) ∧
      (diff < thr ∨ n = 0 → exec (.balancerPeriod asid) s = .next s1))) ∧
  (∀ (s : State) (asid q a b n : Nat), (s.ctx? asid).isSome = true →
    let es := (s.ctx asid).sq a q
    let u := s.moveEntries asid q a b n
    let left := (u.ctx asid).sq a q
    ∃ out, u.transit = s.transit ++ [.entries asid q b out] ∧ out.length = min n es.length ∧ (left ++ out).Perm es ∧
      (∀ e ∈ left, ∀ o ∈ out, e.key.toNat ≤ o.key.toNat) ∧
      ∀ d k, (d, k) ≠ (a, q) → (u.ctx asid).sq d k = (s.ctx asid).sq d k) ∧
  (∀ (s : State) (asid a b n : Nat), a < s.dies.length →
    let u := s.moveRecs asid a b n
    let may (p : PoolRec) : Bool := p.asid == asid && decide (p.rec_.aff ≥ 2)
    ∃ out, u.transit = s.transit ++ [.recs asid b (out.map (fun p => { p with home := b }))] ∧
      out.length = min n ((s.die a).pool.countP may) ∧ (∀ p ∈ out, may p = true) ∧ ((u.die a).pool ++ out).Perm (s.die a).pool) ∧
  (∀ (s : State) (asid : Nat) (x : Ctx), s.ctx? asid = some x → s.slice ≠ 0 → x.run = .running → x.halt = none →
    x.preempt = none → x.since + s.slice.toNat * 1000 ≤ s.pcc (x.dieOf 0) →
    (∃ f, s.mayFavour x f = true ∧ (f = none ∨ ∃ y ∈ s.ctxs, f = some y.asid)) →
    ∃ f, s.mayFavour x f = true ∧ exec (.sliceExpiry asid) s = .next (s.bump.modCtx asid (fun y => { y with preempt := some f }))) ∧
  (∀ (s t : State) (asid : Nat) (f : Option Nat) (x : Ctx), s.ctx? asid = some x → x.run = .running → x.preempt = some f →
    x.halt = none → s.atBoundary x = true → s.mayFavour x f = true → s.shadowRoom asid x.par.fp x.benches = true →
    let s1 := x.ids.foldl State.flush s
    (x.ids.any s.storeWaits = true → exec (.preemption asid f) s = .next s1) ∧
    (x.ids.any s.storeWaits = false → (s1.mergeCtx x.ids = .done t ∨ t = s1 ∧ ∀ d, (s1.die d).shadow = []) →
      (f = none → exec (.preemption asid f) s = .next (t.leave asid)) ∧
      (∀ a, f = some a → exec (.preemption asid f) s = .next ((t.leave asid).enter a))))

/-- A faulted context whose units have settled ends when it has no undo or lost a die; with undo its peers agree on a window
and go back to it; the loss of a die takes its contexts with it; a copy or population word is suspended 4 µs after the halt
(spec/15 R359, R361 to R363, R368, R369). -/
def Obligations.HaltSteps : Prop :=
  (∀ (s : State) (asid : Nat) (x : Ctx) (h : HaltInfo), s.ctx? asid = some x → x.halt = some h → h.reached = true →
    h.cause ≠ 0 → s.settledCtx x = true →
    (x.par.undo = 0 ∨ h.cause = 0x26 → exec (.contextAbort asid) s = .next (s.freeCtx asid 3)) ∧
    (x.par.undo ≠ 0 → h.cause ≠ 0x26 → s.attached asid = false ∨ s.dbg.state = 0 →
      (∀ id ∈ s.peers x h, (s.core id).rqout = 0) → exec (.abortAgreement asid) s = .next (s.settleAbort asid))) ∧
  (∀ (s : State) (d : Nat), d < 8 → (s.die d).lost = false → (s.die d).st ≠ .absent →
    exec (.dieLost d) s =
      .next (((s.modDie d (fun x => { x with lost := true, st := .reroute })).logEvent 0x03 d 0).dieGone d)) ∧
  (∀ (s : State) (id : CoreId) (q : Queue) (i : Nat) (f : Flight) (h : HaltInfo), ((s.core id).flightsOf q)[i]? = some f →
    (s.ctx id.asid).halt = some h → s.holds id f = true → h.tick + 4000 ≤ s.pcc (s.dieOf id) → f.suspended = false →
    q = .eqc ∨ q = .eqp → (s.core id).flights.find? (fun g => g.uid == f.uid) = some f →
    exec (.wordSuspend id q i) s =
      .next ((s.modFlight id f.uid (fun g => { g with suspended := true })).settleRec id { f with suspended := true }))

/-- The spill engine moves the next eight units of a block of the running context, the first of them only when every engine word
of each context that goes out has retired and the block is next: one that an access waits for, else the lowest of its core that has
still to come in while no access waits for another. A block goes out and its counterpart comes in once all its units have moved and
been served. A banked context at rest is spilled, but for one of the concurrent class; what the shadow table holds of it merges
first. It is restored into banks of a partition of its size that has room for it, with its tasks, queues and the
touched dies following (spec/05 R105, spec/09 R219, spec/11 R290, spec/15 R372, R373). How queues and records join on the new dies, and
the room they need, are the model's reading (notes/assumptions/24.md), as are that a banked context comes back by itself
(notes/assumptions/44.md) and that a block is in when its last unit is served (notes/assumptions/61.md). -/
def Obligations.ContextMoves : Prop :=
  (∀ (s : State) (out into core block : Nat) (x y : Ctx), s.ctx? out = some x → s.ctx? into = some y → x.run = .banked →
    y.run = .running → core < x.n →
    let at_ := x.seat core
    (∀ k, y.lAt at_.1 at_.2 = some k → s.blockMoved into (k, block) = true →
      ∃ t, exec (.scratchpadSwap out into core block) s = .next t ∧
        t = s.bringIn into (k, block) ∧ (k, block) ∉ (t.ctx into).spillIn ∧ t.cores = s.cores ∧ t.hbm = s.hbm) ∧
    (∀ k, y.lAt at_.1 at_.2 = some k → s.blockMoved into (k, block) = false →
      exec (.scratchpadSwap out into core block) s = .next s) ∧
    (y.lAt at_.1 at_.2 = none → exec (.scratchpadSwap out into core block) s = .next s)) ∧
  (∀ (s : State) (asid l b : Nat),
    let x := s.ctx asid
    let k := x.moved (l, b)
    let asks := (s.modCtx asid (fun x => { x with
      spillAt := (l, b, k + 1) :: x.spillAt.filter (fun p => (p.1, p.2.1) != (l, b)) })).askBank asid l 0 0 0 (b * 4096 + k % 32 * 128) 128
    (x.run = .running → k < s.moveLen asid (l, b) → 0 < k ∨ s.moveNext asid (l, b) = true → s.spillUnits asid l b = asks) ∧
    (x.run ≠ .running ∨ s.moveLen asid (l, b) ≤ k ∨ k = 0 ∧ s.moveNext asid (l, b) = false → s.spillUnits asid l b = s) ∧
    (s.moveNext asid (l, b) = true ↔
      ((l, b) ∈ x.wanted ∨ (∀ p ∈ x.spillIn, p.1 = l → b ≤ p.2) ∧ ∀ p ∈ x.wanted, p.1 ≠ l) ∧
      ∀ y ∈ s.ctxs, y.run = .banked → y.asid ≠ asid → x.benchOf l ∈ y.benches → ∀ id ∈ y.ids, (s.core id).flights = []) ∧
    (s.blockMoved asid (l, b) = true ↔ 0 < s.moveLen asid (l, b) ∧ s.moveLen asid (l, b) ≤ k ∧
      ∀ a ∈ s.bankq, ¬ (a.asid = asid ∧ a.l = l ∧ a.who = 0 ∧ a.unit / 256 = b))) ∧
  (∀ (s : State) (asid : Nat) (x : Ctx), s.ctx? asid = some x → x.run = .banked → s.hasShadow x = true →
    exec (.contextSpill asid) s = .next (State.mergeCtx s x.ids).state) ∧
  (∀ (s : State) (asid : Nat) (x : Ctx), s.ctx? asid = some x → x.run = .banked → x.halt = none → s.hasShadow x = false →
    (∀ id ∈ x.ids, (s.core id).rqout = 0 ∧ (s.core id).flights = [] ∧ (s.core id).sb = [] ∧ (s.core id).late = []) →
    (x.par.pclass = 2 → exec (.contextSpill asid) s = .next s) ∧
    (x.par.pclass ≠ 2 → (∀ t ∈ (s.arriveAll asid).transit, t.asid ≠ asid) →
      exec (.contextSpill asid) s = .next ((x.ids.foldl (fun t id => t.modCore id (fun c => { c with sLines := 0, sRegs := 0 }))
        (s.arriveAll asid)).modCtx asid (fun y => { y with run := .spilled, swapped := y.blocks, spillIn := [] })))) ∧
  (∀ (s : State) (asid : Nat) (bs : List Nat) (x : Ctx), s.ctx? asid = some x → x.run = .spilled →
    let y : Ctx := { x with benches := bs }
    s.partitionOk x.benches.length bs = true → s.restoreRoom x y = true →
    let r := (s.rehome x y).takeBanks bs
    let s2 := r.1.modCtx asid (fun c => { c with benches := bs, banks := r.2, run := .banked })
    let s3 := y.dies.foldl (fun t d => t.touch asid d) s2
    r.2.map Prod.fst = bs ∧ (∀ g ∈ s2.graves, (g.bench, g.bank) ∉ r.2) ∧
    exec (.contextRestore asid bs) s =
      .next ((y.ids.foldl (fun u id => u.injectAt 1 (ownKey id) (y.pcn id.l) 0 0x20000) s3).switchIn s3.ctxs.length))

/-! ### Host, launch and translation control -/

/-- The launch doorbell takes its value or is refused; the queue is configured only while it is empty; the dispatcher starts
a launch that passes its checks on the benches of the policy and passes on, ends one that fails with its reason, one of no units
with status 2, and every one with reason 0x04 while no die is live, and frees a context that has nothing left with status 2
(spec/11 R286 to R289, spec/22 R421, R429, R430, R432). These are the model's choices: that a launch of the concurrent class starts at
its dispatch (notes/assumptions/40.md), what is performed when a context completes (`State.flushCtx`, notes/assumptions/44.md), that the
image is an input of the dispatch and where the reason 0x04 is found (notes/assumptions/45.md), and which of a rejected block's `done`
is written (notes/assumptions/53.md). -/
def Obligations.LaunchResult : Prop :=
  ∀ (s : State) (v : Word) (img : List (Nat × Byte)) (asid : Nat) (x : Ctx),
    let L := s.launch
    let bs := s.hbmBytes 1024 (L.lqbase.toNat + L.slotOf L.next.toNat * 128) 128
    let p := LaunchPar.ofBlock bs
    let refused := L.lqsize = 0 ∨ bits v 63 32 ≠ 0 ∨ L.lqsize < (v.setWidth 32 - L.lqhead).toNat
    let here := L.next ≠ L.lqtail ∧ L.lqsize ≠ 0 ∧ s.capacity ≠ 0 ∧ s.mgmt.injected = [] ∧ s.hbmRefusal 1024 (L.lqbase.toNat + L.slotOf L.next.toNat * 128) 128 = 0
    (refused → exec (.launch v) s = .next { s with launch := { L with err := true } }) ∧
    (¬ refused → exec (.launch v) s = .next { s with launch := { L with lqtail := v.setWidth 32 } }) ∧
    (L.lqtail = L.lqhead →
      exec (.launchQueueConfigWrite true v) s = .next { s with launch := { L with lqsize := bits v 15 0, lqhslot := 0 } } ∧
      exec (.launchQueueConfigWrite false v) s =
        .next { s with launch := { L with lqbase := v &&& 0x000FFFFFFFFFFF80#64, lqhslot := 0 } }) ∧
    (L.lqtail ≠ L.lqhead → ∀ b, exec (.launchQueueConfigWrite b v) s = .next { s with launch := { L with err := true } }) ∧
    (L.next ≠ L.lqtail → L.lqsize ≠ 0 → s.capacity = 0 →
      exec (.launchDispatch img) s = .next (s.endLaunch (LaunchPar.ofBlock []) 0x84 false)) ∧
    (here → s.launchReason bs = 0 →
      (s.descriptor p.asid = none → exec (.launchDispatch img) s = .next (s.endLaunch p 0x8C true)) ∧
      (s.descriptor p.asid ≠ none → p.units = 0 → exec (.launchDispatch img) s = .next (s.endLaunch p 2 true))) ∧
    (here → s.launchReason bs = 0 → ∀ desc benches, s.descriptor p.asid = some desc → p.units ≠ 0 → s.place p.nb = some benches →
      s.shareFree p benches = true → (∀ b ∈ benches, s.runnerOf b = none) →
      exec (.launchDispatch img) s = .next { s.bind p desc benches img with
        launch := { (s.bind p desc benches img).launch with next := (s.bind p desc benches img).launch.next + 1 } }) ∧
    (here → s.launchReason bs ≠ 0 → exec (.launchDispatch img) s =
      .next (s.endLaunch p (0x80 + s.launchReason bs) (s.launchReason bs ≠ 0x06 && blockNat bs 96 8 % 8 = 0))) ∧
    (s.ctx? asid = some x → s.completeCtx x = true →
      exec (.launchComplete asid) s = .next ((x.ids.foldl (fun t id => match (t.core id).win.unc with
        | some (_, h) => t.commitTo id h
        | none => t) (s.flushCtx asid)).freeCtx asid 2))

/-- An invalidation joins the queue, or is held while the queue is full, one at a time completes once nothing translated by what it removes is on its way, and
then no cache holds it; a malformed one sets `err`. A register write sets its field; a host read changes no memory and a host
write stores its bytes under the shared slot and ends reservations on them (spec/03 R68, R69, R75, R76, spec/22 R415). -/
def Obligations.TranslationHostResult : Prop :=
  (∀ (s : State) (asid : BitVec 10) (vpn : BitVec 40), s.invq.length < 16 →
    exec (.invalidatePage asid vpn) s = .next { s with invq := s.invq ++ [.page asid.toNat vpn.toNat] } ∧
    exec (.invalidateAsid asid) s = .next { s with invq := s.invq ++ [.asid asid.toNat] } ∧
    exec .invalidateAll s = .next { s with invq := s.invq ++ [.all] }) ∧
  (∀ (s : State) (asid : BitVec 10) (vpn : BitVec 40), 16 ≤ s.invq.length →
    exec (.invalidatePage asid vpn) s = .next { s with invHeld := s.invHeld ++ [.page asid.toNat vpn.toNat] } ∧
    exec (.invalidateAsid asid) s = .next { s with invHeld := s.invHeld ++ [.asid asid.toNat] } ∧
    exec .invalidateAll s = .next { s with invHeld := s.invHeld ++ [.all] }) ∧
  (∀ (s : State) (v : Word), bits v 63 62 = 3 ∨ bits v 51 40 ≠ 0 →
    exec (.invalidateRejected v) s = .next { s with invErr := true }) ∧
  (∀ (s : State) (i : Inval) (is : List Inval), s.invq = i :: is → s.invalDone i = true →
    ∃ t, exec .invalidationComplete s = .next t ∧ t.invq = is ++ s.invHeld.take 1 ∧ t.invHeld = s.invHeld.drop 1 ∧
      t.cores = s.cores ∧ t.hbm = s.hbm ∧
      ∀ d ∈ t.dies, (∀ e ∈ d.leafs, i.hitsLeaf e = false) ∧ (∀ e ∈ d.ptrs, i.hitsPtr e = false)) ∧
  (∀ (s : State) (v : Word),
    exec (.registerWrite 0x20008 v) s = .next { s with dbg := { s.dbg with dcore := v &&& 0x1FFFFFF#64 } } ∧
    exec (.registerWrite 0x20010 v) s = .next { s with dbg := { s.dbg with darg := v } } ∧
    exec (.registerWrite 0x10000 v) s = .next { s with asidbase := v &&& 0x000FFFFFFFFFFC00#64 } ∧
    exec (.registerWrite 0x50000 v) s = .next { s with pmode := BitVec.ofNat 2 (bits v 33 32), slice := v.setWidth 32 } ∧
    exec (.registerWrite 0x00020 v) s = .next { s with launch := { s.launch with err := s.launch.err && !bit v 32 } } ∧
    exec (.registerWrite 0x100030 v) s = .next { s with mgmt := { s.mgmt with ubase := v &&& 0x000FFFFFFFFFF000#64 } }) ∧
  (∀ (s : State) (pa n : Nat) (bs : List Byte), s.mgmt.injected = [] →
    (s.hbmRefusal 1024 pa n = 0 →
      exec (.hostMemRead pa n) s = .next { s with hostReads := s.hostReads ++ [(pa, s.hbmBytes 1024 pa n)] }) ∧
    (s.hbmRefusal 1024 pa n ≠ 0 → exec (.hostMemRead pa n) s = .next s) ∧
    (bs ≠ [] → s.hbmWriteRefusal 1024 pa bs.length = 0 →
      ∃ t, exec (.hostMemWrite pa bs) s = .next t ∧ t.hbm = s.hbm.write pa bs ∧ t.host = s.host ∧
        t.cores = s.cores.map (fun c => c.breakHbm pa bs.length)) ∧
    (s.hbmWriteRefusal 1024 pa bs.length ≠ 0 → exec (.hostMemWrite pa bs) s = .next s))

/-! ### Debug -/

/-- The block attaches to a context and detaches from it, with the ASID that the write holds; STOP raises the stop of its context,
RESUME lifts it, or after a fault with undo has the peers agree and go back, once what the cores have under way has ended (until then
it is in progress: notes/assumptions/46.md); STEP lets the selected cores run one instruction; a command that the state does not
allow, or that names none, sets `err` and does nothing else (spec/00 R7, spec/15 R364, spec/21 R402, R405 to R407). -/
def Obligations.DebugControl : Prop :=
  ∀ (s : State) (a : BitVec 10) (x : Ctx) (v : Word),
    (s.attached a.toNat = false ∨ s.dbg.state = 6 → (s.detach.ctx a.toNat).halt = none →
      exec (.debugAttach a) s = .next { s.detach with dbg := { s.detach.dbg with
        en := true, asid := a.toNat, state := 0, busy := false, rewound := [], rec_ := false } }) ∧
    (s.dbg.en = true → ∃ t, exec .debugDetach s = .next t ∧ t.dbg.en = false ∧ t.dbg.state = 6 ∧ t.dbg.asid = s.dbg.asid ∧
      ∀ c ∈ t.cores, c.id.asid = s.dbg.asid → c.bp = Vector.replicate 8 ⟨0, 0⟩ ∧ c.wp = Vector.replicate 4 ⟨0, 0⟩) ∧
    (s.dbg.en = false → exec .debugDetach s = .next s) ∧
    (bit v 10 = false → ∃ t, exec .debugDetach s = .next t ∧
      exec (.registerWrite 0x20000 v) s = .next { t with dbg := { t.dbg with asid := bits v 9 0 } }) ∧
    (s.dbgCtx? = some x → s.dbg.state = 0 → s.dbg.busy = false →
      (bit s.dbg.darg 0 = true → exec .stop s =
        .next ({ s.noWin with dbg := { s.noWin.dbg with state := 1, busy := true } }.modCtx x.asid (fun x => { x with precise := true }))) ∧
      (bit s.dbg.darg 0 = false →
        let t := (s.noWin.modCtx x.asid (fun x => { x with precise := false })).dbgStop x.asid 3 x.n
        exec .stop s = .next { t with dbg := { t.dbg with busy := true } })) ∧
    (s.dbgCtx? = some x → s.dbg.busy = false → s.dbg.state = 2 ∨ s.dbg.state = 3 →
      (∀ h, (s.noWin.ctx s.dbg.asid).halt = some h → h.cause = 0 → (s.noWin.resumeCtx s.dbg.asid).dbg.state ≠ 6 → exec .resume s =
        .next { s.noWin.resumeCtx s.dbg.asid with
          dbg := { (s.noWin.resumeCtx s.dbg.asid).dbg with state := 0 } }) ∧
      (∀ h, (s.noWin.ctx s.dbg.asid).halt = some h → h.cause ≠ 0 → h.cause ≠ 0x26 → x.par.undo ≠ 0 →
        let t := x.ids.foldl State.settleCore s.noWin
        let ended := t.settledCtx x = true ∧ ∀ id ∈ t.peers x h, (t.core id).rqout = 0
        (¬ ended → exec .resume s = .next { t with dbg := { t.dbg with busy := true, todo := some .resume } }) ∧
        (ended → (t.settleAbort s.dbg.asid).dbg.state ≠ 6 → exec .resume s = .next { t.settleAbort s.dbg.asid with
          dbg := { (t.settleAbort s.dbg.asid).dbg with state := 0, busy := false, todo := none } })) ∧
      (s.stepSel ≠ [] → ∃ t, exec .step s = .next t ∧ t.dbg.state = 4 ∧ t.dbg.busy = true ∧
        (∀ id ∈ s.stepSel, s.hasCore id = true → (t.core id).stepping = true ∧ (t.core id).pc = (s.core id).pc) ∧
        (∀ id, id ∉ s.stepSel → t.core id = s.core id))) ∧
    (s.dbg.en = false ∨ s.dbg.busy = true ∨ s.dbg.state ∉ [2, 3] →
      exec .resume s = .next { s with dbg := { s.dbg with err := true } } ∧
      exec .step s = .next { s with dbg := { s.dbg with err := true } }) ∧
    (v = 0 ∨ 0xA < v.toNat ∨ s.dbg.en = false ∨ s.dbg.busy = true →
      exec (.debugCommandRefused v) s = .next { s with dbg := { s.dbg with err := true } })

/-- REWIND_WIN takes the selected cores to the start of an uncommitted window, under undo mode 2 every core of the context with its
superstep state (`sscnt` becomes the window, and every arrival is discarded), REWIND_SEQ memory to a store number, each with
its state; REPLAY runs the selected cores from a recorded window to a count; REC_ON and REC_OFF switch recording (spec/14 R340, spec/21
R408 to R411). Requests that can arrive while the context is halted do so before the rewind, and while one cannot the command is in
progress, busy, and goes on at a later cycle: the model's reading (notes/assumptions/46.md). -/
def Obligations.DebugRewindResult : Prop :=
  ∀ (s : State) (x : Ctx), s.dbgCtx? = some x →
    let w := s.dbg.darg.toNat % 2 ^ 32
    let ids := if x.par.undo = 2 then x.ids else s.dbgSel
    let settle (js : List CoreId) (u : State) : State := js.foldl State.settleRequests u
    let rewound (u : State) (js : List CoreId) (v : Nat) : State :=
      let r := js.foldl (fun t id => t.dbgRewind id v) u
      let r := if x.par.undo = 2 then r.rewindSuper x.asid v else r
      { r with dbg := { r.dbg with
        state := if r.cores.any (fun c => c.id.asid == x.asid && c.memRw.isSome) then 5 else 3
        rewound := (r.dbg.rewound ++ js.map CoreId.l).dedup, busy := false, todo := none } }
    let waiting (u : State) (js : List CoreId) (v : Nat) : State :=
      { u with dbg := { u.dbg with busy := true, todo := some (.rewind v (js.map CoreId.l)) } }
    (s.dbg.busy = false → s.dbg.state = 2 ∨ s.dbg.state = 3 ∨ s.dbg.state = 5 → ids ≠ [] →
      (∀ id ∈ ids, (s.core id).win.has w = true) →
      ((∀ id ∈ ids, ((settle ids s).core id).rqout = 0) → exec .rewindWin s = .next (rewound (settle ids s) ids w)) ∧
      ((∃ id ∈ ids, ((settle ids s).core id).rqout ≠ 0) → exec .rewindWin s = .next (waiting (settle ids s) ids w))) ∧
    (s.dbg.busy = false → (∃ id ∈ ids, (s.core id).win.has w = false) →
      exec .rewindWin s = .next { s with dbg := { s.dbg with err := true } }) ∧
    (∀ v ls rest, s.busNext = none → s.agenda = .command :: rest → s.dbg.busy = true → s.dbg.todo = some (.rewind v ls) →
      let js := ls.map (fun l => (⟨x.asid, l⟩ : CoreId))
      let u := settle js { s with agenda := rest }
      ((∀ id ∈ js, (u.core id).rqout = 0) → step s = .next (rewound u js v).freezeNew) ∧
      ((∃ id ∈ js, (u.core id).rqout ≠ 0) → step s = .next (waiting u js v).freezeNew)) ∧
    (∀ (u : State) (v : Nat), u.ctx? x.asid = some x →
      let t := u.rewindSuper x.asid v
      (t.ctx x.asid).sscnt = BitVec.ofNat 32 v ∧ t.hbm = u.hbm ∧
      ∀ id ∈ x.ids, u.hasCore id = true → (t.core id).sstepAt = none ∧ (t.core id).sstepBy = none ∧ (t.core id).pc = (u.core id).pc) ∧
    (s.dbg.busy = false → s.dbg.state = 2 ∨ s.dbg.state = 3 ∨ s.dbg.state = 5 → bit s.dbg.dcore 24 = false →
      s.hasCore s.dbgCore = true →
      ∃ t, exec .rewindSeq s = .next t ∧ t.dbg.state = 5 ∧ (t.core s.dbgCore).memRw.isSome = true ∧
        (t.core s.dbgCore).pc = (s.core s.dbgCore).pc ∧ (t.core s.dbgCore).x = (s.core s.dbgCore).x ∧
        (t.ctx s.dbg.asid).log.length = (s.ctx s.dbg.asid).log.length) ∧
    (s.dbg.busy = false → s.dbg.state = 3 → s.stepSel ≠ [] →
      (∀ id ∈ s.stepSel, id.l ∈ s.dbg.rewound ∧ (s.core id).replayReady = true) →
      let t := s.stepSel.foldl (fun t id => t.modCore id (fun c => { c with
        stepping := true, replay := some ⟨s.dbg.darg.toNat⟩, inputs := c.inputs.map (fun i => { i with used := false }) })) s.noWin
      exec .replay s = .next (State.afterRun { t with dbg := { t.dbg with prev := t.dbg.state, state := 4, busy := true } } s.stepSel)) ∧
    (s.dbg.busy = false → s.dbg.state < 6 →
      (x.par.undo ≠ 0 → exec .recordOn s =
        .next { s.modCtx x.asid (fun x => { x with recording := true }) with dbg := { s.dbg with rec_ := true } }) ∧
      (x.par.undo = 0 → exec .recordOn s = .next { s with dbg := { s.dbg with err := true } }) ∧
      (∃ t, exec .recordOff s = .next t ∧ t.dbg.rec_ = false ∧ t.hbm = s.hbm ∧
        ∀ c ∈ t.cores, c.id.asid = s.dbg.asid → ∀ k ∈ c.ckpts, k.rec_ = false))

/-- Slots are set in every selected core and read from the selected one; an inspected value is written to its place, and a
refused access sets `err`; a breakpoint stops its core before the parcel at it, a watchpoint before a load or a store that it covers is
made; the trace is configured while no kind is on, and samples record the pc (spec/21 R403, R404, R407, R412, R413). That a sample is
due when the clock is a multiple of its period is the model's choice (notes/assumptions/46.md). -/
def Obligations.DebugInspectResult : Prop :=
  ∀ (s : State) (id : CoreId) (v : Word),
    let g := s.dbg
    let k := bits g.dslot 2 0
    (s.mayCommand anyState = true → g.slotBad = false → s.dbgSel ≠ [] →
      exec .slotSet s = .next (s.dbgSel.foldl (fun t i => t.modCore i (fun c =>
        if bit g.dslot 3 then { c with wp := vset c.wp k ⟨g.baddr, g.bctl⟩ } else { c with bp := vset c.bp k ⟨g.baddr, g.bctl⟩ })) s)) ∧
    (s.mayCommand anyState = true → bit g.dcore 24 = false → (bit g.dslot 3 = true → k ≤ 3) → s.hasCore s.dbgCore = true →
      let c := s.core s.dbgCore
      let d := if bit g.dslot 3 then vget c.wp k ⟨0, 0⟩ else vget c.bp k ⟨0, 0⟩
      exec .slotGet s = .next { s with dbg := { s.dbg with baddr := d.addr, bctl := d.ctl } }) ∧
    (exec .ddataRead s = .next (s.busRead 0x20060).2) ∧
    (s.ddataOk = true →
      (bits g.dloc 27 24 = 0 →
        exec (.ddataWrite v) s = .next (s.modCore s.dbgCore (fun c => c.wx (BitVec.ofNat 5 (bits g.dloc 19 0)) v))) ∧
      (bits g.dloc 27 24 = 3 →
        exec (.ddataWrite v) s = .next (s.writeRegSpace s.dbgCore (bits g.dloc 19 0) (leBytes 8 v.toNat)))) ∧
    (s.ddataOk = false → exec (.ddataWrite v) s = .next { s with dbg := { g with err := true } }) ∧
    (s.mayRun id = true → s.gangOf id = [id] → (s.core id).due = none → (s.core id).pendReady = false →
      (s.core id).awaited 3 = false → (s.core id).rewinding = none → ∀ t, s.breakStop id = some t →
      exec (.breakpointHit id) s = .next (t.afterRun [id])) ∧
    (∀ rs1 imm n i (write : Bool), s.standsAt id = some i → (s.core id).gang = none → (s.core id).stepping = false →
      (s.core id).replay = none → (s.ctx id.asid).halt = none → g.why ≠ 2 → ((s.core id).ea rs1 imm).toNat % n = 0 →
      (write = false ∧ ∃ op rd, i = .load op rd rs1 imm ∧ n = loadBytes op) ∨
        (write = true ∧ ∃ op rs2, i = .store op rs1 rs2 imm ∧ n = storeBytes op) →
      (s.core id).watchHit ((s.core id).ea rs1 imm) n write = true →
      ∃ t, exec (.watchpointHit id) s = .next t ∧ t.dbg.why = 2 ∧ ((t.ctx id.asid).halt).isSome = true ∧ t.cur = s.cur ∧
        (t.core id).x = (s.core id).x ∧ (t.core id).f = (s.core id).f ∧ (t.core id).pc = (s.core id).pc) ∧
    (g.trk = 0 → exec (.traceConfigWrite 0x20038 v) s = .next { s with dbg := { g with sper := bits v 13 8, trk := v.setWidth 6 } } ∧
      exec (.traceConfigWrite 0x20040 v) s = .next { s with dbg := { g with trbase := v &&& 0x003FFFFFFFFFFFE0#64 } } ∧
      exec (.traceConfigWrite 0x20048 v) s = .next { s with dbg := { g with trsize := bits v 31 0 } }) ∧
    (g.trk ≠ 0 → v &&& 0x003FFFFFFFFFFFE0#64 ≠ g.trbase →
      exec (.traceConfigWrite 0x20040 v) s = .next { s with dbg := { g with err := true } }) ∧
    (s.hasCore id = true → s.attached id.asid = true → (s.ctx id.asid).run = .running → s.pcc (s.dieOf id) % 2 ^ g.sper = 0 →
      exec (.traceSample id) s = .next (s.trace 0x02 id (s.core id).pc
        (word ((if (s.core id).runtime then 2 ^ 24 else 0) + (s.core id).lcnOrNone))))

/-! ### Package, trust, links, management -/

/-- A reset request for a live die that leaves every other die its path is accepted and the die enters TRANSIT; another sets
`err`; the reset goes through REROUTE, DRAIN and RESET, which resets its cores, to REJOIN, and on to LIVE when its image is
accepted and it passes its self-test, else to ABSENT; a lost die goes from REROUTE to ABSENT (spec/22 R418, R419). That a path may
use LIVE dies only, and that REJOIN takes two steps, are the model's reading (notes/assumptions/47.md). -/
def Obligations.DieResetResult : Prop :=
  ∀ (s : State) (d : Nat) (v : Word) (strayed : Option SignedImage) (selfTest : Bool),
    let r := bits v 2 0
    let ok := (s.die r).st = .live ∧ (s.die r).lost = false ∧ bits v 63 9 = 0 ∧ bits v 7 3 = 0 ∧
      pathsOk (fun e => e != r && (s.die e).st == .live && !(s.die e).lost) = true
    (bit v 8 = true → ok → exec (.dieResetRequest v) s = .next ((s.modDie r (fun x => { x with st := .transit })).dieGone r)) ∧
    (bit v 8 = true → ¬ ok → exec (.dieResetRequest v) s = .next { s with pkgErr := true }) ∧
    ((s.die d).st = .transit → exec (.reroute d) s = .next (s.modDie d (fun x => { x with st := .reroute }))) ∧
    ((s.die d).st = .reroute → (s.die d).lost = true → exec (.reroute d) s = .next (s.modDie d (fun x => { x with st := .absent }))) ∧
    ((s.die d).st = .reroute → (s.die d).lost = false → exec (.drain d) s = .next (s.modDie d (fun x => { x with st := .drain }))) ∧
    ((s.die d).st = .drain →
      ∃ t, exec (.dieReset d) s = .next t ∧
        t = (s.resetCores d).modDie d (fun x => { Die.reset with
          st := .reset, skew := x.skew
          pool := x.pool.filter (fun p => s.spilledCtx p.asid), egress := x.egress.filter (fun h => s.spilledCtx h.owner.1) }) ∧
        t.hbm = s.hbm ∧
        ∀ c ∈ t.cores, s.dieOf c.id = d → (s.ctx c.id.asid).run ≠ .spilled → c = CoreSt.init c.id) ∧
    ((s.die d).st = .reset → exec (.rejoin d strayed selfTest) s = .next (s.modDie d (fun x => { x with st := .rejoin }))) ∧
    ((s.die d).st = .rejoin →
      let img := strayed.getD (s.mgmt.slot s.mgmt.act).die
      let pass := s.trust.fuses.accepts s.trust.fuses.minDie img && selfTest
      let u := s.modDie d (fun x => { x with st := if pass then .live else .absent, pass := pass })
      (exec (.rejoin d strayed selfTest) s = .next (if pass then { u with trust := u.trust.measure (4 + d) (sha384 img.body) } else u)))

/-- A key operation on a slot up to 1,024 while none runs gives the slot its state and is busy until it is done; each keying
takes the next key; another operation sets `err` and changes no slot and no key. That the slot shows its new state at
once, while the operation is still busy, is the model's choice (notes/assumptions/53.md). A port that goes down keeps its counts; one that comes up records its peer (spec/22 R425, R426, R433, R434): that a
first PORT_UP begins its training and a second ends it is the model's reading (notes/assumptions/47.md). -/
def Obligations.KeyPortResult : Prop :=
  (∀ (s : State) (slot : BitVec 11), slot.toNat ≤ 1024 → s.keys.busy = false →
    let gives (i : Instr) (st : KeySt) (next : Nat) : Prop :=
      ∃ t, exec i s = .next t ∧ t.keySt slot.toNat = st ∧ t.keys.nextKey = next ∧ t.keys.busy = true ∧ t.keys.err = s.keys.err ∧
        t.hbm = s.hbm ∧ t.ctxs = s.ctxs ∧ t.dies = s.dies ∧ (∀ j, j ≠ slot.toNat → t.keySt j = s.keySt j) ∧
        ∀ id, (t.core id).x = (s.core id).x ∧ (t.core id).pc = (s.core id).pc ∧ (t.core id).scratch = (s.core id).scratch ∧
          (t.core id).reg = (s.core id).reg
    gives (.keySlotEmpty slot) .empty s.keys.nextKey ∧ gives (.keySlotPlain slot) .plain s.keys.nextKey ∧
      gives (.keySlotKeyed slot) (.keyed s.keys.nextKey) (s.keys.nextKey + 1)) ∧
  (∀ (s : State) (slot : BitVec 11), 1024 < slot.toNat ∨ s.keys.busy = true →
    exec (.keySlotEmpty slot) s = .next { s with keys := { s.keys with err := true } } ∧
    exec (.keySlotPlain slot) s = .next { s with keys := { s.keys with err := true } } ∧
    exec (.keySlotKeyed slot) s = .next { s with keys := { s.keys with err := true } }) ∧
  (∀ (s : State), exec .keyUpdateDone s = .next { s with keys := { s.keys with busy := false } }) ∧
  (∀ (s : State) (p : Nat) (q : Port) (peer : BitVec 32), s.ports[p]? = some q →
    exec (.portDown p) s = .next { s with ports := s.ports.set p { q with lst := 0 } } ∧
    (q.lst = 0 → exec (.portUp p peer) s = .next { s with ports := s.ports.set p { q with lst := 1 } }) ∧
    (q.lst = 1 → exec (.portUp p peer) s = .next { s with ports := s.ports.set p { q with lst := 2, peer } }))

/-- Once the link is up the responder answers version, capabilities and algorithms in turn, digests, certificates, challenges
and measurements after them, and every other request with an error; until then nothing is answered (spec/22 R420, R423, R424).
The framing, the layout of the answers and the order of the requests are DSP0274's, presumed: notes/assumptions/25.md. -/
def Obligations.AttestationResult : Prop :=
  ∀ (s : State) (slot offset len index code : Nat) (ask : ChallengeReq) (req : MeasureReq),
    let answering (bs : List Byte) (f : Trust → Trust) : State :=
      { s with trust := { f s.trust with answers := (f s.trust).answers ++ [bs], transcript := (f s.trust).transcript ++ bs } }
    let err (a b : Nat) : State := answering [0x13, 0x7F, BitVec.ofNat 8 a, BitVec.ofNat 8 b] id
    let chain := Config.certificate slot
    (s.trust.up = false → exec .getVersion s = .next s ∧ exec (.spdmUnsupported code) s = .next s) ∧
    (s.trust.up = true →
      (exec .getVersion s = .next (answering [0x10, 0x04, 0, 0, 0, 1, 0x00, 0x13] (fun t =>
        { t with vers := true, caps := false, alg := false, transcript := [] }))) ∧
      (exec (.spdmUnsupported code) s = .next (err 0x07 code)) ∧
      (s.trust.vers = true → exec .getCapabilities s =
        .next (answering ([0x13, 0x61, 0, 0, 0] ++ leBytes 1 (Config.spdmSizes 0) ++ leBytes 2 0 ++ leBytes 4 0x16 ++
          leBytes 4 (Config.spdmSizes 1) ++ leBytes 4 (Config.spdmSizes 2)) (fun t => { t with caps := true }))) ∧
      (s.trust.caps = true → exec (.negotiateAlgorithms (2 ^ 7) 2 1) s =
        .next (answering ([0x13, 0x63, 0, 0] ++ leBytes 2 36 ++ [1, 0] ++ leBytes 4 4 ++ leBytes 4 (2 ^ 7) ++ leBytes 4 2 ++
          leBytes 16 0) (fun t => { t with alg := true }))) ∧
      (s.trust.alg = true →
        (exec .getDigests s = .next (answering ([0x13, 0x01, 0x03, 0x03] ++ sha384 (Config.certificate 0) ++
          sha384 (Config.certificate 1)) id)) ∧
        (slot ≤ 1 → offset < chain.length →
          let part := (chain.drop offset).take len
          exec (.getCertificate slot offset len) s = .next (answering ([0x13, 0x02, BitVec.ofNat 8 slot, 0] ++ leBytes 2 part.length ++
            leBytes 2 (chain.length - offset - part.length) ++ part) id)) ∧
        (1 < slot → exec (.getCertificate slot offset len) s = .next (err 0x01 0) ∧
          exec (.challenge slot ask) s = .next (err 0x01 0)) ∧
        (slot ≤ 1 → ask.summary ≤ 1 ∨ ask.summary = 0xFF → ∃ sig, exec (.challenge slot ask) s =
          .next { answering ([0x13, 0x03, BitVec.ofNat 8 slot, 0x03] ++ sha384 (Config.certificate slot) ++ s.ownNonce ++
            s.measSummary ask.summary ++ leBytes 2 0 ++ leBytes 8 ask.context ++ sig) id with fresh := s.fresh + 4 }) ∧
        (index ≤ 13 ∨ index = 0xFF → (req.signed = true → req.slot ≤ 1) →
          let ix := if index = 0 then [] else if index = 0xFF then (List.range 13).map (fun i => i + 1) else [index]
          let record := ix.flatMap s.measBlock
          ∃ sig, (req.signed = false → sig = []) ∧ exec (.getMeasurements index req) s =
            .next { answering ([0x13, 0x60, if index = 0 then 13 else 0, if req.signed then BitVec.ofNat 8 req.slot else 0,
              BitVec.ofNat 8 ix.length] ++ leBytes 3 record.length ++ record ++ s.ownNonce ++ leBytes 2 0 ++ leBytes 8 req.context ++
              sig) id with fresh := s.fresh + 4 }) ∧
        (13 < index → index ≠ 0xFF → exec (.getMeasurements index req) s = .next (err 0x01 0))) ∧
      (s.trust.alg = false → exec .getDigests s = .next (err 0x04 0)))

/-- An update is staged unless one is being verified; one whose images are both accepted is written to the inactive slot and pending
until a reset makes that slot active, and another changes no slot; a package reset leaves the machine as at reset but for what lies
outside it; boot verifies its own firmware, falls back to the other slot when the active one's I/O die image is not accepted,
measures, releases the dies that pass, sets the live-die mask and keys the shared slot (spec/22 R420 to R422, spec/23 R440, R441).
What a package reset keeps, and that a failing firmware leaves the link down, are the model's (notes/assumptions/26.md,
notes/assumptions/57.md). -/
def Obligations.BootUpdateResult : Prop :=
  ∀ (s : State) (b : BootInput),
    let f := s.trust.fuses
    let m := s.mgmt
    let other := !m.act
    (m.ust ≠ 1 →
      exec .updateStage s = .next { s with mgmt := { m with ust := 1, staged := some (m.ubase.toNat, m.ulen) } }) ∧
    (m.ust = 1 →
      (exec .updateStage s = .next { s with mgmt := { m with err := true } }) ∧
      (∀ pa n k, m.staged = some (pa, n) → m.injected = [] →
        let u := UpdateImages.ofBytes k (s.hbmBytes 1024 pa n)
        let good := n ≠ 0 ∧ s.hbmRefusal 1024 pa n = 0 ∧ f.accepts f.minIo u.io = true ∧ f.accepts f.minDie u.die = true
        (good → exec (.updateVerifyDone k) s = .next (State.logEvent { s with mgmt := { m.fill other u with ust := 2 } } 0x07 0xFF (slotNo other))) ∧
        (¬ good → exec (.updateVerifyDone k) s = .next (State.logEvent { s with mgmt := { m with ust := 3, staged := none } } 0x08 0xFF
          (slotNo other))))) ∧
    (∀ u, (m.fill other u).slot other = u ∧ (m.fill other u).slot m.act = m.slot m.act ∧ (m.fill other u).act = m.act) ∧
    (m.ust = 2 → exec .updateCancel s = .next { s with mgmt := { m with ust := 0, staged := none } }) ∧
    (∃ t, exec .packageReset s = .next t ∧ t.cores = [] ∧ t.ctxs = [] ∧ t.dies = State.reset.dies ∧ t.launch = State.reset.launch ∧
      t.cycle = 0 ∧ t.trust = { State.reset.trust with fuses := f } ∧ t.dbg = State.reset.dbg ∧ t.hbm = s.hbm ∧ t.host = s.host ∧
      t.mgmt.act = (if m.ust = 2 then other else m.act) ∧ t.mgmt.slotA = m.slotA ∧ t.mgmt.slotB = m.slotB ∧ t.mgmt.evlog = [] ∧
      t.mgmt.evhead = 0) ∧
    (s.trust.booted = true → exec (.boot b) s = .next s) ∧
    (s.trust.booted = false → f.accepts f.minFw b.firmware = false →
      exec (.boot b) s = .next { s with trust := { s.trust with booted := true } }) ∧
    (s.trust.booted = false → f.accepts f.minFw b.firmware = true → BootInput.ioOk b f m m.act = false →
      BootInput.ioOk b f m other = false →
      ∃ t, exec (.boot b) s = .next t ∧ t.trust.booted = true ∧ t.trust.up = s.trust.up ∧ t.mgmt.ust = 3 ∧ t.mgmt.act = m.act ∧
        t.mgmt.evhead = m.evhead + 1 ∧ t.dies = s.dies) ∧
    (s.trust.booted = false → f.accepts f.minFw b.firmware = true → ∀ sl,
      (sl = m.act ∧ BootInput.ioOk b f m m.act = true) ∨
        (sl = other ∧ BootInput.ioOk b f m m.act = false ∧ BootInput.ioOk b f m other = true) →
      let u := m.slot sl
      let live : BitVec 8 := BitVec.ofNat 8 (BootInput.live b f u.die)
      ∃ t, exec (.boot b) s = .next t ∧ t.trust.booted = true ∧ t.trust.up = true ∧ t.mgmt.act = sl ∧
        t.mgmt.ust = (if sl = m.act then m.ust else 3) ∧ t.mgmt.evhead = m.evhead + (if sl = m.act then 1 else 2) ∧
        t.trust.meas = BootInput.measured b f u ∧ (3, sha384 u.io.body) ∈ t.trust.meas ∧
        t.lmask = live ∧ t.keySt 1024 = .keyed s.keys.nextKey ∧ t.cores = s.cores ∧ t.hbm = s.hbm ∧
        ∀ d < s.dies.length, (t.die d).st = (if live.getLsbD d then .live else .absent)) ∧
    (∀ image d, d < 8 → (BitVec.ofNat 8 (BootInput.live b f image) : BitVec 8).getLsbD d = true →
      b.selfTest.getLsbD d = true ∧ f.accepts f.minDie (BootInput.loaded b image d) = true)

/-- The latest reading of a sensor replaces the one before; a bench at 105 °C halves its clock until it is below 100 °C; a die
above 450 A trips, clears below 405 A after 100 µs, and is lost when it is still above after 1 ms; an injection is armed by its
registers; a scrub of damage of one bit repairs it and of two poisons the unit (spec/23 R436 to R438, R442 to R444). -/
def Obligations.PowerErrorResult : Prop :=
  ∀ (s : State) (i d b mA temp : Nat) (val : BitVec 32) (v : Word) (arr : BitVec 8),
    ((sensorDie i).isSome = true → exec (.sensorSample [(i, val)]) s =
      .next { s with mgmt := { s.mgmt with sensors := (i, val) :: s.mgmt.sensors.filter (fun o => !(i == o.1)) } }) ∧
    (d < 8 → b < 36 → (105 * 16 ≤ temp → (s.die d).halved.contains b = false →
        exec (.thermalHalving (36 * d + b) temp) s =
          .next ((s.modDie d (fun x => { x with halved := x.halved ++ [b] })).logEvent 0x04 d b)) ∧
      (temp < 100 * 16 → exec (.thermalRecovery (36 * d + b) temp) s =
        .next (s.modDie d (fun x => { x with halved := x.halved.filter (fun k => k != b) })))) ∧
    (d < 8 → 450000 < mA → (s.die d).tripped = none → (s.die d).lost = false → exec (.currentTrip d mA) s =
      .next ((s.modDie d (fun x => { x with tripped := some (s.pcc d) })).logEvent 0x01 d mA)) ∧
    (∀ t, (s.die d).tripped = some t →
      (mA < 405000 → t + 100000 ≤ s.pcc d → exec (.tripClear d mA) s =
        .next ((s.modDie d (fun x => { x with tripped := none })).logEvent 0x02 d mA)) ∧
      (450000 < mA → t + 1000000 ≤ s.pcc d → (s.die d).lost = false → exec (.diePowerDown d mA) s =
        .next ((s.modDie d (fun x => { x with tripped := none })).loseDie d))) ∧
    (bits v 1 0 ≠ 3 → 1 ≤ bits v 63 56 → bits v 63 56 ≤ 8 → exec (.injectArm 0x100048 v) s =
      .next { s with mgmt := { s.mgmt with iarr := bits v 63 56, inb := bits v 1 0 } }) ∧
    (bits v 1 0 = 3 → exec (.injectArm 0x100048 v) s = .next { s with mgmt := { s.mgmt with err := true } }) ∧
    (exec (.injectArm 0x100050 v) s = .next { s with mgmt := { s.mgmt with iaddr := v } }) ∧
    (arr = 5 → v.toNat < 2 ^ 52 → v.toNat % 16 = 0 →
      (s.mgmt.injected = [⟨5, 0, v, 1⟩] → s.poisoned 5 0 v.toNat 16 = false → exec (.scrub arr v) s =
        .next (State.logError { s with mgmt := { s.mgmt with injected := [] } } 5 v false none)) ∧
      (s.mgmt.injected = [⟨5, 0, v, 2⟩] → s.poisoned 5 0 v.toNat 16 = false → exec (.scrub arr v) s =
        .next { State.logError { s with mgmt := { s.mgmt with injected := [] } } 5 v true none with
          poison := (5, 0, v.toNat) :: s.poison }))

/-! ### Numbers -/

/-- The value of an accumulator element is that of its flags, else of V = S + C read as 56-bit two's complement: V itself for
an integer element, and (2V + slo) × 2^(E − 168) for a float one. An `e8s` code is 2^(c − 127), 0xFF is NaN. -/
def Obligations.AccumulatorValue : Prop :=
  (∀ a : AE,
    (-(2 ^ 55 : Int) ≤ a.V ∧ a.V < 2 ^ 55 ∧ (2 ^ 56 : Int) ∣ a.V - ((a.S : Int) + a.C)) ∧
    (a.nan = true ∨ (a.pinf = true ∧ a.ninf = true) → a.value = .nan) ∧
    (a.nan = false → a.pinf = true → a.ninf = false → a.value = .inf false) ∧
    (a.nan = false → a.pinf = false → a.ninf = true → a.value = .inf true) ∧
    (a.nan = false → a.pinf = false → a.ninf = false →
      (a.float = false → ∃ g n, a.value = .num g n 1 ∧ XR.top g n = a.V) ∧
      (a.float = true → ∃ g n d, a.value = .num g n d ∧ 0 < d ∧
        XR.top g n * 2 ^ 168 = (2 * a.V + (if a.slo then 1 else 0)) * 2 ^ a.E * d))) ∧
  (∀ (F : Fmt) (c : Nat), F.e8s = true →
    (c < 255 → ∃ n d, decodeFloat F c = .num false n d ∧ 0 < d ∧ n * 2 ^ 127 = 2 ^ c * d) ∧
    decodeFloat F 255 = .nan)

/-! ### The machine as a whole -/

/-- Words of each major opcode, the four custom ones among them, and of the matrix and population queues, written out from the
encodings of spec/02, decode to the instructions they stand for; reserved encodings do not decode. -/
def Obligations.DecodeWorkedWords : Prop :=
  decodeParcel 0x00A28293#32 = .ok (.integerOp (.imm .addi 5 5 10)) ∧
  decodeParcel 0x0062B023#32 = .ok (.store .sd 5 6 0) ∧
  decodeParcel 0x0800312B#32 = .ok (.gset 2) ∧
  decodeParcel 0x0A00312B#32 = .ok (.gclr 2) ∧
  decodeParcel 0x026292FB#32 = .ok (.nfpack 1 5 5 6) ∧
  decodeParcel 0x0282A4FB#32 = .ok (.nfunpk 1 9 5 8) ∧
  decodeParcel 0x00000073#32 = .ok .ecall ∧
  decodeParcel 0x00100073#32 = .ok .ebreak ∧
  decodeParcel 0x7903028B#32 = .ok (.lda .d .pkg 5 6 16) ∧
  decodeParcel 0x5093940B#32 = .ok (.stl .w .die 7 9 8) ∧
  decodeParcel 0x0030200B#32 = .ok (.ofence .pkg) ∧
  decodeParcel 0x0455F30B#32 = .ok (.samo .add .die true true 6 11 5) ∧
  decodeParcel 0x0204E05B#32 = .ok (.shape 9) ∧
  decodeParcel 0x0003E0DB#32 = .ok (.xmv 1 7) ∧
  decodeWord (BitVec.ofNat 256 (0x0000010000460120 + 0x0000000000080000 * 2 ^ 64)) =
    .ok (.mzero ⟨0, 0, 0, 4, 0, 17, true, false, 0⟩ ⟨0, 0, 0, 0, 0, 0, 0, 0, 0, 0, 0, false, 0, 0, 0, 0, 8, 0, 0⟩) ∧
  decodeWord (BitVec.ofNat 256 (0x00000100001A0401 + 0x0000000008000005 * 2 ^ 64)) =
    .ok (.prank ⟨0, 0, 0, 4, 0, 6, true, false, 0⟩ ⟨0, 0, 0, false, 0, 0, 0, 0x8000, 5⟩) ∧
  (decodeParcel 0x0000302B#32).toOption = some (.epush .eqm 0) ∧
  (decodeParcel 0x0000412B#32).toOption = some (.wopen 2) ∧
  (decodeParcel 0x0200200B#32).toOption = none ∧
  (decodeParcel 0x0800302B#32).toOption = none ∧
  (decodeParcel 0x00000000#32).toOption = none ∧
  (decodeParcel 0x0000007F#32).toOption = none

/-- Decoding what the encoder writes gives the instruction back: for every well-formed instruction that is a parcel and every
one that is a command word, with every operand at every value that the encoding admits (spec/02). -/
def Obligations.EncodeDecode : Prop :=
  ∀ i : Instr, wellFormed i = true →
    (∀ w, encodeParcel i = some w → decodeParcel w = .ok i) ∧ (∀ w, encodeWord i = some w → decodeWord w = .ok i)

/-- When no posted register write is due and the agenda is empty, a core that can take its next instruction runs the decoded
one: step is its `exec` in the state after the fetch, followed by what a step or a replay adds, by the end of the cycle, and by what a
halt line raised in this step freezes (notes/assumptions/43.md). So it is
inside a prefix unit and in a replay; the instruction of a gang is every member's, retires in all of them or in none, and a trap of a
member splits the gang. A target that does not accept a prefix of its unit raises ILLEGAL_PREFIX, a parcel that is reserved
ILLEGAL_INSTRUCTION, or behind a prefix ILLEGAL_PREFIX (notes/assumptions/18.md), and every member of a gang takes that cause
(spec/02 R37, spec/11 R282, spec/21 R411). An agenda entry that is an event is its `exec` (notes/assumptions/1.md); one that comes
from the host does nothing until boot has brought the link up (notes/assumptions/57.md). -/
def Obligations.StepRunsDecoded : Prop :=
  (∀ (s s1 : State) (w : Parcel) (i : Instr), s.busNext = none →
    let s0 : State := { s with cur := s.leader s.cur, note := .none }
    let c := s0.core s0.cur
    let ends (t : State) : State :=
      (State.passCycle exec
        ((if t.note == .waited && (t.core t.cur).awaited 2 then t.replayWait t.cur 2 else t).afterRun (s0.gangOf s0.cur))).freezeNew
    let all (code : Nat) : State := s1.trapAll ⟨code, 0, 0, w.setWidth 64⟩
    (s.agenda = [] → s.hasCore s.cur = true → s0.Acts → s0.fetch s0.cur c.pc = (s1, .ok w) →
      (decodeParcel w = .ok i → c.accepts i = true → (∀ m ∈ s1.gangOf s0.cur, (s1.core m).mismatched i = none) →
        (c.gang = none → step s = thenNext ends (exec i s1)) ∧
        (c.gang ≠ none → step s = thenNext ends (s1.gangRun (exec i)))) ∧
      (decodeParcel w = .ok i → c.accepts i = false → step s = .next (ends (all 0x02))) ∧
      ((decodeParcel w).toOption = none → step s = .next (ends (all (c.badParcel w))))) ∧
    (∀ rest, s.agenda = .ev i :: rest → isScalar i = false →
      (hostRow i = true → s.trust.up = true) → step s = thenNext State.freezeNew (exec i { s with agenda := rest })) ∧
    (∀ rest, s.agenda = .ev i :: rest → hostRow i = true → s.trust.up = false →
      step s = .next ({ s with agenda := rest } : State).freezeNew)) ∧
  (∀ (c : CoreSt) (i : Instr) (w : Parcel),
    (c.accepts i = false ↔ ∃ p, c.pfx = some p ∧ (∀ v, i ≠ .imx v) ∧ (∀ v, i ≠ .scx v) ∧
      ((p.imx.isSome = true ∧ acceptsImx i = false) ∨ (p.scx.isSome = true ∧ acceptsScx i = false))) ∧
    (c.pfx = none → c.badParcel w = 0x01) ∧ (c.pfx ≠ none → isScx w = false → c.badParcel w = 0x02) ∧
    (∀ o rd rs1 rs2, acceptsImx (.integerOp (.rr o rd rs1 rs2)) = false ∧ acceptsScx (.integerOp (.rr o rd rs1 rs2)) = false) ∧
    (∀ o rd rs1 imm, acceptsImx (.integerOp (.imm o rd rs1 imm)) = true ∧ acceptsScx (.integerOp (.imm o rd rs1 imm)) = false) ∧
    (∀ o rd rs1 imm, acceptsImx (.load o rd rs1 imm) = true ∧ acceptsScx (.load o rd rs1 imm) = true) ∧
    acceptsScx .fenceI = false) ∧
  (∀ (s t : State) (run : State → Host.Outcome State Fault Refusal),
    let ms := s.gangOf s.cur
    let lead := s.leader s.cur
    let note (m : CoreId) : Note := (gangOne run s m).note
    ((∃ m ∈ ms, ∃ i e, note m = .trapped i e) →
      ∃ traps, traps ≠ [] ∧ s.gangRun run = .next { s.gangTrap ms traps with cur := lead } ∧
        ∀ m i e, (m, i, e) ∈ traps ↔ m ∈ ms ∧ note m = .trapped i e) ∧
    ((∀ m ∈ ms, (∀ i e, note m ≠ .trapped i e) ∧ note m ≠ .waited ∧ note m ≠ .rewound) → gangChain run s ms.reverse = .ok t →
      s.gangRun run = .next { (if (t.core lead).gang.isSome = true then
        ms.foldl (fun u m => u.modCore m (fun c => { c with pc := (t.core lead).pc })) t else t) with cur := lead }))

/-- What reset leaves: no context, no core, every memory unlisted, the clock at 0, every register of the launch, translation,
policy, debug, key, port and management blocks at the value its rule gives; and a core of a new context has the register values of
its rules, every dirty bit set, no view, ring, window, counter or word (spec/00 R9, spec/06 R144, spec/07 R149, spec/11 R257).
Registers whose rule gives no value, x, f and the pc of a core among them, stand at 0 (notes/assumptions/2.md). That every memory is
empty (notes/assumptions/3.md), and that `act` and `lmask`, which are set at boot, stand at 0 before it (notes/assumptions/5.md), are
the model's choices too. -/
def Obligations.ResetValues : Prop :=
  (State.reset.MemOk ∧ State.reset.cores = [] ∧ State.reset.ctxs = [] ∧ State.reset.hbm = [] ∧ State.reset.host = [] ∧
    State.reset.cycle = 0 ∧ State.reset.msgs = [] ∧ State.reset.incrs = [] ∧ State.reset.transit = [] ∧ State.reset.busq = []) ∧
  (let L := State.reset.launch
   L.lqbase = 0 ∧ L.lqsize = 0 ∧ L.lqtail = 0 ∧ L.lqhead = 0 ∧ L.lqhslot = 0 ∧ L.err = false) ∧
  (State.reset.asidbase = 0 ∧ State.reset.invq = [] ∧ State.reset.invHeld = [] ∧ State.reset.invErr = false) ∧
  (State.reset.slice = 0 ∧ State.reset.pmode = 0 ∧ State.reset.bmasks = Vector.replicate 8 0 ∧ State.reset.lmask = 0 ∧
    State.reset.pkgErr = false) ∧
  (let g := State.reset.dbg
   g.en = false ∧ g.asid = 0 ∧ g.dcore = 0 ∧ g.darg = 0 ∧ g.slcn = 0xFFFFFF ∧ g.why = 0 ∧ g.err = false ∧ g.rec_ = false ∧
    g.busy = false ∧ g.state = 0 ∧ g.ddiv = 0 ∧ g.sper = 0 ∧ g.trk = 0 ∧ g.trbase = 0 ∧ g.trsize = 0 ∧ g.trtail = 0 ∧ g.dloc = 0 ∧
    g.dslot = 0 ∧ g.baddr = 0 ∧ g.bctl = 0 ∧ g.sridx = 0) ∧
  (let m := State.reset.mgmt
   m.sidx = 0 ∧ m.evlog = [] ∧ m.evhead = 0 ∧ m.evslot = 0 ∧ m.ubase = 0 ∧ m.ulen = 0 ∧ m.err = false ∧ m.ust = 0 ∧ m.act = false ∧
    m.iarr = 0 ∧ m.inb = 0 ∧ m.iaddr = 0 ∧ m.eslot = 0 ∧ m.earr = 0 ∧ m.elog = [] ∧ m.ecount = [] ∧ m.staged = none ∧ m.injected = []) ∧
  (State.reset.keys.slots = [] ∧ State.reset.keys.busy = false ∧ State.reset.keys.err = false ∧
    State.reset.ports = List.replicate 12 Port.reset ∧ Port.reset.lst = 0 ∧ Port.reset.peer = 0 ∧ Port.reset.bv = false ∧
    Port.reset.rxok = 0 ∧ Port.reset.dunb = 0 ∧ Port.reset.dgrp = 0 ∧ Port.reset.dsize = 0 ∧ Port.reset.dlin = 0 ∧
    State.reset.trust.booted = false ∧ State.reset.trust.up = false) ∧
  (∀ id : CoreId, let c := CoreSt.init id
    c.x = Vector.replicate 32 0 ∧ c.f = Vector.replicate 32 0 ∧ c.pc = 0 ∧ c.pfx = none ∧ c.resv = none ∧
    c.csr.fmt = Vector.replicate 8 0x000D073C#64 ∧ c.csr.gsl = 0x00010001#64 ∧ c.csr.fcsr = 0 ∧ c.csr.ev = Vector.replicate 8 0#64 ∧
    c.csr.fitness = 0 ∧ c.csr.ectl = 0 ∧ c.csr.nfs = 0 ∧ c.csr.rtvec = 0 ∧ c.csr.rtsvc = 0 ∧ c.csr.tepc = 0 ∧ c.csr.tstat = 0 ∧
    c.csr.tcause = 0 ∧ c.csr.tval = 0 ∧ c.csr.tdet0 = 0 ∧ c.csr.tdet1 = 0 ∧ c.csr.tscratch = 0 ∧ c.instret = 0 ∧
    c.wLines = BitVec.allOnes 512 ∧ c.wRegs = BitVec.allOnes 64 ∧ c.sLines = BitVec.allOnes 512 ∧ c.sRegs = BitVec.allOnes 64 ∧
    c.vw = Vector.replicate 16 ⟨0, 0⟩ ∧ c.rg = Vector.replicate 16 ⟨0, 0⟩ ∧ c.win.unc = none ∧ c.win.wnext = 0 ∧ c.ctrs = [] ∧
    c.waiting = [] ∧ c.inbox = List.replicate 8 [] ∧ c.flights = [] ∧ c.pend = [] ∧ c.sb = [] ∧
    c.reg = [] ∧ c.scratch = [] ∧ c.storeSeq = 0 ∧ c.reqSeq = 0 ∧ c.rqout = 0 ∧ c.genNum = 0 ∧ c.runtime = false ∧ c.task = none)

/-- Every step keeps every memory of the machine in its canonical form, whatever the state. -/
def Obligations.MemoryFormKept : Prop :=
  ∀ s t : State, step s = .next t → s.MemOk → t.MemOk

/-- Putting bytes at a place changes the bytes of that place and of no other: every byte of device memory, host memory and
every scratchpad and register space outside it reads as before, and no scalar register changes. Bytes for host memory are read back
there, or, while their window is open and they are held, by the die that wrote them (notes/assumptions/39.md). -/
def Obligations.StoreFrame : Prop :=
  ∀ (s t : State) (id : CoreId) (win : Option Nat) (p : Place) (bs : List Byte), s.put id win p bs = .done t →
    (∀ j, (t.core j).x = (s.core j).x ∧ (t.core j).f = (s.core j).f ∧ (t.core j).pc = (s.core j).pc) ∧
    (∀ l a, p = .scratch l a → t.hbm = s.hbm ∧ t.host = s.host ∧ (∀ j, (t.core j).reg = (s.core j).reg) ∧
      (∀ j b, j ≠ ⟨id.asid, l⟩ ∨ b < a ∨ a + bs.length ≤ b → (t.core j).scratch.read b = (s.core j).scratch.read b) ∧
      (s.hasCore ⟨id.asid, l⟩ = true → ∀ k < bs.length, (t.core ⟨id.asid, l⟩).scratch.read (a + k) = bs.getD k 0)) ∧
    (∀ sl a, p = .hbm sl a → t.host = s.host ∧ (∀ j, (t.core j).scratch = (s.core j).scratch ∧ (t.core j).reg = (s.core j).reg) ∧
      (∀ b, b < a ∨ a + bs.length ≤ b → t.hbm.read b = s.hbm.read b) ∧
      (∀ k < bs.length, t.hbm.read (a + k) = bs.getD k 0)) ∧
    (∀ a, p = .reg a → t.hbm = s.hbm ∧ t.host = s.host ∧ (∀ j, (t.core j).scratch = (s.core j).scratch) ∧
      (∀ j b, j ≠ id ∨ b < a ∨ a + bs.length ≤ b → (t.core j).reg.read b = (s.core j).reg.read b) ∧
      (s.hasCore id = true → ∀ k < bs.length, (t.core id).reg.read (a + k) = bs.getD k 0)) ∧
    (∀ a, p = .hostBulk a ∨ p = .hostCoh a → t.hbm = s.hbm ∧ (∀ j, t.core j = s.core j) ∧
      (∀ b, b < a ∨ a + bs.length ≤ b → t.host.read b = s.host.read b) ∧
      ((s.core id).holds win = false → ∀ k < bs.length, t.host.read (a + k) = bs.getD k 0) ∧
      ((s.core id).holds win = true → t.host = s.host ∧ (s.dieOf id < s.dies.length → t.hostSeen id a bs.length = bs))) ∧
    (∀ off, p = .dev off → t.hbm = s.hbm ∧ t.host = s.host ∧ ∀ j, t.core j = s.core j)
end

