-- ==== Sys2Proof/Laws/State.lean ====
section
/-! SUPPORT. What each update of the state leaves as it was: one lemma per field per update. -/

namespace Sys2Proof.Machine

/-! ### Updates of the machine -/

@[simp] theorem State.bump_cores (s : State) : s.bump.cores = s.cores := rfl
@[simp] theorem State.bump_ctxs (s : State) : s.bump.ctxs = s.ctxs := rfl
@[simp] theorem State.bump_dies (s : State) : s.bump.dies = s.dies := rfl
@[simp] theorem State.bump_hbm (s : State) : s.bump.hbm = s.hbm := rfl
@[simp] theorem State.bump_ktag (s : State) : s.bump.ktag = s.ktag := rfl
@[simp] theorem State.bump_host (s : State) : s.bump.host = s.host := rfl
@[simp] theorem State.bump_hostOut (s : State) : s.bump.hostOut = s.hostOut := rfl
@[simp] theorem State.bump_hostReads (s : State) : s.bump.hostReads = s.hostReads := rfl
@[simp] theorem State.bump_poison (s : State) : s.bump.poison = s.poison := rfl
@[simp] theorem State.bump_msgs (s : State) : s.bump.msgs = s.msgs := rfl
@[simp] theorem State.bump_incrs (s : State) : s.bump.incrs = s.incrs := rfl
@[simp] theorem State.bump_transit (s : State) : s.bump.transit = s.transit := rfl
@[simp] theorem State.bump_graves (s : State) : s.bump.graves = s.graves := rfl
@[simp] theorem State.bump_keys (s : State) : s.bump.keys = s.keys := rfl
@[simp] theorem State.bump_launch (s : State) : s.bump.launch = s.launch := rfl
@[simp] theorem State.bump_asidbase (s : State) : s.bump.asidbase = s.asidbase := rfl
@[simp] theorem State.bump_invq (s : State) : s.bump.invq = s.invq := rfl
@[simp] theorem State.bump_invHeld (s : State) : s.bump.invHeld = s.invHeld := rfl
@[simp] theorem State.bump_invErr (s : State) : s.bump.invErr = s.invErr := rfl
@[simp] theorem State.bump_pmode (s : State) : s.bump.pmode = s.pmode := rfl
@[simp] theorem State.bump_slice (s : State) : s.bump.slice = s.slice := rfl
@[simp] theorem State.bump_bmasks (s : State) : s.bump.bmasks = s.bmasks := rfl
@[simp] theorem State.bump_lmask (s : State) : s.bump.lmask = s.lmask := rfl
@[simp] theorem State.bump_pkgErr (s : State) : s.bump.pkgErr = s.pkgErr := rfl
@[simp] theorem State.bump_ports (s : State) : s.bump.ports = s.ports := rfl
@[simp] theorem State.bump_sent (s : State) : s.bump.sent = s.sent := rfl
@[simp] theorem State.bump_dbg (s : State) : s.bump.dbg = s.dbg := rfl
@[simp] theorem State.bump_mgmt (s : State) : s.bump.mgmt = s.mgmt := rfl
@[simp] theorem State.bump_trust (s : State) : s.bump.trust = s.trust := rfl
@[simp] theorem State.bump_cycle (s : State) : s.bump.cycle = s.cycle := rfl
@[simp] theorem State.bump_busq (s : State) : s.bump.busq = s.busq := rfl
@[simp] theorem State.bump_bankq (s : State) : s.bump.bankq = s.bankq := rfl
@[simp] theorem State.bump_bankHeld (s : State) : s.bump.bankHeld = s.bankHeld := rfl
@[simp] theorem State.bump_cur (s : State) : s.bump.cur = s.cur := rfl
@[simp] theorem State.bump_curq (s : State) : s.bump.curq = s.curq := rfl
@[simp] theorem State.bump_agenda (s : State) : s.bump.agenda = s.agenda := rfl
@[simp] theorem State.bump_seen (s : State) : s.bump.seen = s.seen := rfl
@[simp] theorem State.bump_marks (s : State) : s.bump.marks = s.marks := rfl
@[simp] theorem State.bump_note (s : State) : s.bump.note = s.note := rfl

@[simp] theorem State.modCore_ctxs (s : State) (id : CoreId) (f : CoreSt → CoreSt) : (s.modCore id f).ctxs = s.ctxs := rfl
@[simp] theorem State.modCore_dies (s : State) (id : CoreId) (f : CoreSt → CoreSt) : (s.modCore id f).dies = s.dies := rfl
@[simp] theorem State.modCore_hbm (s : State) (id : CoreId) (f : CoreSt → CoreSt) : (s.modCore id f).hbm = s.hbm := rfl
@[simp] theorem State.modCore_ktag (s : State) (id : CoreId) (f : CoreSt → CoreSt) : (s.modCore id f).ktag = s.ktag := rfl
@[simp] theorem State.modCore_host (s : State) (id : CoreId) (f : CoreSt → CoreSt) : (s.modCore id f).host = s.host := rfl
@[simp] theorem State.modCore_hostOut (s : State) (id : CoreId) (f : CoreSt → CoreSt) : (s.modCore id f).hostOut = s.hostOut := rfl
@[simp] theorem State.modCore_hostReads (s : State) (id : CoreId) (f : CoreSt → CoreSt) : (s.modCore id f).hostReads = s.hostReads := rfl
@[simp] theorem State.modCore_poison (s : State) (id : CoreId) (f : CoreSt → CoreSt) : (s.modCore id f).poison = s.poison := rfl
@[simp] theorem State.modCore_msgs (s : State) (id : CoreId) (f : CoreSt → CoreSt) : (s.modCore id f).msgs = s.msgs := rfl
@[simp] theorem State.modCore_incrs (s : State) (id : CoreId) (f : CoreSt → CoreSt) : (s.modCore id f).incrs = s.incrs := rfl
@[simp] theorem State.modCore_transit (s : State) (id : CoreId) (f : CoreSt → CoreSt) : (s.modCore id f).transit = s.transit := rfl
@[simp] theorem State.modCore_graves (s : State) (id : CoreId) (f : CoreSt → CoreSt) : (s.modCore id f).graves = s.graves := rfl
@[simp] theorem State.modCore_keys (s : State) (id : CoreId) (f : CoreSt → CoreSt) : (s.modCore id f).keys = s.keys := rfl
@[simp] theorem State.modCore_launch (s : State) (id : CoreId) (f : CoreSt → CoreSt) : (s.modCore id f).launch = s.launch := rfl
@[simp] theorem State.modCore_asidbase (s : State) (id : CoreId) (f : CoreSt → CoreSt) : (s.modCore id f).asidbase = s.asidbase := rfl
@[simp] theorem State.modCore_invq (s : State) (id : CoreId) (f : CoreSt → CoreSt) : (s.modCore id f).invq = s.invq := rfl
@[simp] theorem State.modCore_invHeld (s : State) (id : CoreId) (f : CoreSt → CoreSt) : (s.modCore id f).invHeld = s.invHeld := rfl
@[simp] theorem State.modCore_invErr (s : State) (id : CoreId) (f : CoreSt → CoreSt) : (s.modCore id f).invErr = s.invErr := rfl
@[simp] theorem State.modCore_pmode (s : State) (id : CoreId) (f : CoreSt → CoreSt) : (s.modCore id f).pmode = s.pmode := rfl
@[simp] theorem State.modCore_slice (s : State) (id : CoreId) (f : CoreSt → CoreSt) : (s.modCore id f).slice = s.slice := rfl
@[simp] theorem State.modCore_bmasks (s : State) (id : CoreId) (f : CoreSt → CoreSt) : (s.modCore id f).bmasks = s.bmasks := rfl
@[simp] theorem State.modCore_lmask (s : State) (id : CoreId) (f : CoreSt → CoreSt) : (s.modCore id f).lmask = s.lmask := rfl
@[simp] theorem State.modCore_pkgErr (s : State) (id : CoreId) (f : CoreSt → CoreSt) : (s.modCore id f).pkgErr = s.pkgErr := rfl
@[simp] theorem State.modCore_ports (s : State) (id : CoreId) (f : CoreSt → CoreSt) : (s.modCore id f).ports = s.ports := rfl
@[simp] theorem State.modCore_sent (s : State) (id : CoreId) (f : CoreSt → CoreSt) : (s.modCore id f).sent = s.sent := rfl
@[simp] theorem State.modCore_dbg (s : State) (id : CoreId) (f : CoreSt → CoreSt) : (s.modCore id f).dbg = s.dbg := rfl
@[simp] theorem State.modCore_mgmt (s : State) (id : CoreId) (f : CoreSt → CoreSt) : (s.modCore id f).mgmt = s.mgmt := rfl
@[simp] theorem State.modCore_trust (s : State) (id : CoreId) (f : CoreSt → CoreSt) : (s.modCore id f).trust = s.trust := rfl
@[simp] theorem State.modCore_cycle (s : State) (id : CoreId) (f : CoreSt → CoreSt) : (s.modCore id f).cycle = s.cycle := rfl
@[simp] theorem State.modCore_busq (s : State) (id : CoreId) (f : CoreSt → CoreSt) : (s.modCore id f).busq = s.busq := rfl
@[simp] theorem State.modCore_bankq (s : State) (id : CoreId) (f : CoreSt → CoreSt) : (s.modCore id f).bankq = s.bankq := rfl
@[simp] theorem State.modCore_bankHeld (s : State) (id : CoreId) (f : CoreSt → CoreSt) : (s.modCore id f).bankHeld = s.bankHeld := rfl
@[simp] theorem State.modCore_cur (s : State) (id : CoreId) (f : CoreSt → CoreSt) : (s.modCore id f).cur = s.cur := rfl
@[simp] theorem State.modCore_curq (s : State) (id : CoreId) (f : CoreSt → CoreSt) : (s.modCore id f).curq = s.curq := rfl
@[simp] theorem State.modCore_agenda (s : State) (id : CoreId) (f : CoreSt → CoreSt) : (s.modCore id f).agenda = s.agenda := rfl
@[simp] theorem State.modCore_seen (s : State) (id : CoreId) (f : CoreSt → CoreSt) : (s.modCore id f).seen = s.seen := rfl
@[simp] theorem State.modCore_marks (s : State) (id : CoreId) (f : CoreSt → CoreSt) : (s.modCore id f).marks = s.marks := rfl
@[simp] theorem State.modCore_fresh (s : State) (id : CoreId) (f : CoreSt → CoreSt) : (s.modCore id f).fresh = s.fresh := rfl
@[simp] theorem State.modCore_note (s : State) (id : CoreId) (f : CoreSt → CoreSt) : (s.modCore id f).note = s.note := rfl

@[simp] theorem State.modCtx_cores (s : State) (asid : Nat) (f : Ctx → Ctx) : (s.modCtx asid f).cores = s.cores := rfl
@[simp] theorem State.modCtx_dies (s : State) (asid : Nat) (f : Ctx → Ctx) : (s.modCtx asid f).dies = s.dies := rfl
@[simp] theorem State.modCtx_hbm (s : State) (asid : Nat) (f : Ctx → Ctx) : (s.modCtx asid f).hbm = s.hbm := rfl
@[simp] theorem State.modCtx_ktag (s : State) (asid : Nat) (f : Ctx → Ctx) : (s.modCtx asid f).ktag = s.ktag := rfl
@[simp] theorem State.modCtx_host (s : State) (asid : Nat) (f : Ctx → Ctx) : (s.modCtx asid f).host = s.host := rfl
@[simp] theorem State.modCtx_hostOut (s : State) (asid : Nat) (f : Ctx → Ctx) : (s.modCtx asid f).hostOut = s.hostOut := rfl
@[simp] theorem State.modCtx_hostReads (s : State) (asid : Nat) (f : Ctx → Ctx) : (s.modCtx asid f).hostReads = s.hostReads := rfl
@[simp] theorem State.modCtx_poison (s : State) (asid : Nat) (f : Ctx → Ctx) : (s.modCtx asid f).poison = s.poison := rfl
@[simp] theorem State.modCtx_msgs (s : State) (asid : Nat) (f : Ctx → Ctx) : (s.modCtx asid f).msgs = s.msgs := rfl
@[simp] theorem State.modCtx_incrs (s : State) (asid : Nat) (f : Ctx → Ctx) : (s.modCtx asid f).incrs = s.incrs := rfl
@[simp] theorem State.modCtx_transit (s : State) (asid : Nat) (f : Ctx → Ctx) : (s.modCtx asid f).transit = s.transit := rfl
@[simp] theorem State.modCtx_graves (s : State) (asid : Nat) (f : Ctx → Ctx) : (s.modCtx asid f).graves = s.graves := rfl
@[simp] theorem State.modCtx_keys (s : State) (asid : Nat) (f : Ctx → Ctx) : (s.modCtx asid f).keys = s.keys := rfl
@[simp] theorem State.modCtx_launch (s : State) (asid : Nat) (f : Ctx → Ctx) : (s.modCtx asid f).launch = s.launch := rfl
@[simp] theorem State.modCtx_asidbase (s : State) (asid : Nat) (f : Ctx → Ctx) : (s.modCtx asid f).asidbase = s.asidbase := rfl
@[simp] theorem State.modCtx_invq (s : State) (asid : Nat) (f : Ctx → Ctx) : (s.modCtx asid f).invq = s.invq := rfl
@[simp] theorem State.modCtx_invHeld (s : State) (asid : Nat) (f : Ctx → Ctx) : (s.modCtx asid f).invHeld = s.invHeld := rfl
@[simp] theorem State.modCtx_invErr (s : State) (asid : Nat) (f : Ctx → Ctx) : (s.modCtx asid f).invErr = s.invErr := rfl
@[simp] theorem State.modCtx_pmode (s : State) (asid : Nat) (f : Ctx → Ctx) : (s.modCtx asid f).pmode = s.pmode := rfl
@[simp] theorem State.modCtx_slice (s : State) (asid : Nat) (f : Ctx → Ctx) : (s.modCtx asid f).slice = s.slice := rfl
@[simp] theorem State.modCtx_bmasks (s : State) (asid : Nat) (f : Ctx → Ctx) : (s.modCtx asid f).bmasks = s.bmasks := rfl
@[simp] theorem State.modCtx_lmask (s : State) (asid : Nat) (f : Ctx → Ctx) : (s.modCtx asid f).lmask = s.lmask := rfl
@[simp] theorem State.modCtx_pkgErr (s : State) (asid : Nat) (f : Ctx → Ctx) : (s.modCtx asid f).pkgErr = s.pkgErr := rfl
@[simp] theorem State.modCtx_ports (s : State) (asid : Nat) (f : Ctx → Ctx) : (s.modCtx asid f).ports = s.ports := rfl
@[simp] theorem State.modCtx_sent (s : State) (asid : Nat) (f : Ctx → Ctx) : (s.modCtx asid f).sent = s.sent := rfl
@[simp] theorem State.modCtx_dbg (s : State) (asid : Nat) (f : Ctx → Ctx) : (s.modCtx asid f).dbg = s.dbg := rfl
@[simp] theorem State.modCtx_mgmt (s : State) (asid : Nat) (f : Ctx → Ctx) : (s.modCtx asid f).mgmt = s.mgmt := rfl
@[simp] theorem State.modCtx_trust (s : State) (asid : Nat) (f : Ctx → Ctx) : (s.modCtx asid f).trust = s.trust := rfl
@[simp] theorem State.modCtx_cycle (s : State) (asid : Nat) (f : Ctx → Ctx) : (s.modCtx asid f).cycle = s.cycle := rfl
@[simp] theorem State.modCtx_busq (s : State) (asid : Nat) (f : Ctx → Ctx) : (s.modCtx asid f).busq = s.busq := rfl
@[simp] theorem State.modCtx_bankq (s : State) (asid : Nat) (f : Ctx → Ctx) : (s.modCtx asid f).bankq = s.bankq := rfl
@[simp] theorem State.modCtx_bankHeld (s : State) (asid : Nat) (f : Ctx → Ctx) : (s.modCtx asid f).bankHeld = s.bankHeld := rfl
@[simp] theorem State.modCtx_cur (s : State) (asid : Nat) (f : Ctx → Ctx) : (s.modCtx asid f).cur = s.cur := rfl
@[simp] theorem State.modCtx_curq (s : State) (asid : Nat) (f : Ctx → Ctx) : (s.modCtx asid f).curq = s.curq := rfl
@[simp] theorem State.modCtx_agenda (s : State) (asid : Nat) (f : Ctx → Ctx) : (s.modCtx asid f).agenda = s.agenda := rfl
@[simp] theorem State.modCtx_seen (s : State) (asid : Nat) (f : Ctx → Ctx) : (s.modCtx asid f).seen = s.seen := rfl
@[simp] theorem State.modCtx_marks (s : State) (asid : Nat) (f : Ctx → Ctx) : (s.modCtx asid f).marks = s.marks := rfl
@[simp] theorem State.modCtx_fresh (s : State) (asid : Nat) (f : Ctx → Ctx) : (s.modCtx asid f).fresh = s.fresh := rfl
@[simp] theorem State.modCtx_note (s : State) (asid : Nat) (f : Ctx → Ctx) : (s.modCtx asid f).note = s.note := rfl

@[simp] theorem State.modDie_cores (s : State) (d : Nat) (f : Die → Die) : (s.modDie d f).cores = s.cores := rfl
@[simp] theorem State.modDie_ctxs (s : State) (d : Nat) (f : Die → Die) : (s.modDie d f).ctxs = s.ctxs := rfl
@[simp] theorem State.modDie_hbm (s : State) (d : Nat) (f : Die → Die) : (s.modDie d f).hbm = s.hbm := rfl
@[simp] theorem State.modDie_ktag (s : State) (d : Nat) (f : Die → Die) : (s.modDie d f).ktag = s.ktag := rfl
@[simp] theorem State.modDie_host (s : State) (d : Nat) (f : Die → Die) : (s.modDie d f).host = s.host := rfl
@[simp] theorem State.modDie_hostOut (s : State) (d : Nat) (f : Die → Die) : (s.modDie d f).hostOut = s.hostOut := rfl
@[simp] theorem State.modDie_hostReads (s : State) (d : Nat) (f : Die → Die) : (s.modDie d f).hostReads = s.hostReads := rfl
@[simp] theorem State.modDie_poison (s : State) (d : Nat) (f : Die → Die) : (s.modDie d f).poison = s.poison := rfl
@[simp] theorem State.modDie_msgs (s : State) (d : Nat) (f : Die → Die) : (s.modDie d f).msgs = s.msgs := rfl
@[simp] theorem State.modDie_incrs (s : State) (d : Nat) (f : Die → Die) : (s.modDie d f).incrs = s.incrs := rfl
@[simp] theorem State.modDie_transit (s : State) (d : Nat) (f : Die → Die) : (s.modDie d f).transit = s.transit := rfl
@[simp] theorem State.modDie_graves (s : State) (d : Nat) (f : Die → Die) : (s.modDie d f).graves = s.graves := rfl
@[simp] theorem State.modDie_keys (s : State) (d : Nat) (f : Die → Die) : (s.modDie d f).keys = s.keys := rfl
@[simp] theorem State.modDie_launch (s : State) (d : Nat) (f : Die → Die) : (s.modDie d f).launch = s.launch := rfl
@[simp] theorem State.modDie_asidbase (s : State) (d : Nat) (f : Die → Die) : (s.modDie d f).asidbase = s.asidbase := rfl
@[simp] theorem State.modDie_invq (s : State) (d : Nat) (f : Die → Die) : (s.modDie d f).invq = s.invq := rfl
@[simp] theorem State.modDie_invHeld (s : State) (d : Nat) (f : Die → Die) : (s.modDie d f).invHeld = s.invHeld := rfl
@[simp] theorem State.modDie_invErr (s : State) (d : Nat) (f : Die → Die) : (s.modDie d f).invErr = s.invErr := rfl
@[simp] theorem State.modDie_pmode (s : State) (d : Nat) (f : Die → Die) : (s.modDie d f).pmode = s.pmode := rfl
@[simp] theorem State.modDie_slice (s : State) (d : Nat) (f : Die → Die) : (s.modDie d f).slice = s.slice := rfl
@[simp] theorem State.modDie_bmasks (s : State) (d : Nat) (f : Die → Die) : (s.modDie d f).bmasks = s.bmasks := rfl
@[simp] theorem State.modDie_lmask (s : State) (d : Nat) (f : Die → Die) : (s.modDie d f).lmask = s.lmask := rfl
@[simp] theorem State.modDie_pkgErr (s : State) (d : Nat) (f : Die → Die) : (s.modDie d f).pkgErr = s.pkgErr := rfl
@[simp] theorem State.modDie_ports (s : State) (d : Nat) (f : Die → Die) : (s.modDie d f).ports = s.ports := rfl
@[simp] theorem State.modDie_sent (s : State) (d : Nat) (f : Die → Die) : (s.modDie d f).sent = s.sent := rfl
@[simp] theorem State.modDie_dbg (s : State) (d : Nat) (f : Die → Die) : (s.modDie d f).dbg = s.dbg := rfl
@[simp] theorem State.modDie_mgmt (s : State) (d : Nat) (f : Die → Die) : (s.modDie d f).mgmt = s.mgmt := rfl
@[simp] theorem State.modDie_trust (s : State) (d : Nat) (f : Die → Die) : (s.modDie d f).trust = s.trust := rfl
@[simp] theorem State.modDie_cycle (s : State) (d : Nat) (f : Die → Die) : (s.modDie d f).cycle = s.cycle := rfl
@[simp] theorem State.modDie_busq (s : State) (d : Nat) (f : Die → Die) : (s.modDie d f).busq = s.busq := rfl
@[simp] theorem State.modDie_bankq (s : State) (d : Nat) (f : Die → Die) : (s.modDie d f).bankq = s.bankq := rfl
@[simp] theorem State.modDie_bankHeld (s : State) (d : Nat) (f : Die → Die) : (s.modDie d f).bankHeld = s.bankHeld := rfl
@[simp] theorem State.modDie_cur (s : State) (d : Nat) (f : Die → Die) : (s.modDie d f).cur = s.cur := rfl
@[simp] theorem State.modDie_curq (s : State) (d : Nat) (f : Die → Die) : (s.modDie d f).curq = s.curq := rfl
@[simp] theorem State.modDie_agenda (s : State) (d : Nat) (f : Die → Die) : (s.modDie d f).agenda = s.agenda := rfl
@[simp] theorem State.modDie_seen (s : State) (d : Nat) (f : Die → Die) : (s.modDie d f).seen = s.seen := rfl
@[simp] theorem State.modDie_marks (s : State) (d : Nat) (f : Die → Die) : (s.modDie d f).marks = s.marks := rfl
@[simp] theorem State.modDie_fresh (s : State) (d : Nat) (f : Die → Die) : (s.modDie d f).fresh = s.fresh := rfl
@[simp] theorem State.modDie_note (s : State) (d : Nat) (f : Die → Die) : (s.modDie d f).note = s.note := rfl

@[simp] theorem State.retire_ctxs (s : State) : s.retire.ctxs = s.ctxs := rfl
@[simp] theorem State.retire_dies (s : State) : s.retire.dies = s.dies := rfl
@[simp] theorem State.retire_hbm (s : State) : s.retire.hbm = s.hbm := rfl
@[simp] theorem State.retire_ktag (s : State) : s.retire.ktag = s.ktag := rfl
@[simp] theorem State.retire_host (s : State) : s.retire.host = s.host := rfl
@[simp] theorem State.retire_hostOut (s : State) : s.retire.hostOut = s.hostOut := rfl
@[simp] theorem State.retire_hostReads (s : State) : s.retire.hostReads = s.hostReads := rfl
@[simp] theorem State.retire_poison (s : State) : s.retire.poison = s.poison := rfl
@[simp] theorem State.retire_msgs (s : State) : s.retire.msgs = s.msgs := rfl
@[simp] theorem State.retire_incrs (s : State) : s.retire.incrs = s.incrs := rfl
@[simp] theorem State.retire_transit (s : State) : s.retire.transit = s.transit := rfl
@[simp] theorem State.retire_graves (s : State) : s.retire.graves = s.graves := rfl
@[simp] theorem State.retire_keys (s : State) : s.retire.keys = s.keys := rfl
@[simp] theorem State.retire_launch (s : State) : s.retire.launch = s.launch := rfl
@[simp] theorem State.retire_asidbase (s : State) : s.retire.asidbase = s.asidbase := rfl
@[simp] theorem State.retire_invq (s : State) : s.retire.invq = s.invq := rfl
@[simp] theorem State.retire_invHeld (s : State) : s.retire.invHeld = s.invHeld := rfl
@[simp] theorem State.retire_invErr (s : State) : s.retire.invErr = s.invErr := rfl
@[simp] theorem State.retire_pmode (s : State) : s.retire.pmode = s.pmode := rfl
@[simp] theorem State.retire_slice (s : State) : s.retire.slice = s.slice := rfl
@[simp] theorem State.retire_bmasks (s : State) : s.retire.bmasks = s.bmasks := rfl
@[simp] theorem State.retire_lmask (s : State) : s.retire.lmask = s.lmask := rfl
@[simp] theorem State.retire_pkgErr (s : State) : s.retire.pkgErr = s.pkgErr := rfl
@[simp] theorem State.retire_ports (s : State) : s.retire.ports = s.ports := rfl
@[simp] theorem State.retire_sent (s : State) : s.retire.sent = s.sent := rfl
@[simp] theorem State.retire_dbg (s : State) : s.retire.dbg = s.dbg := rfl
@[simp] theorem State.retire_mgmt (s : State) : s.retire.mgmt = s.mgmt := rfl
@[simp] theorem State.retire_trust (s : State) : s.retire.trust = s.trust := rfl
@[simp] theorem State.retire_cycle (s : State) : s.retire.cycle = s.cycle := rfl
@[simp] theorem State.retire_busq (s : State) : s.retire.busq = s.busq := rfl
@[simp] theorem State.retire_bankq (s : State) : s.retire.bankq = s.bankq := rfl
@[simp] theorem State.retire_bankHeld (s : State) : s.retire.bankHeld = s.bankHeld := rfl
@[simp] theorem State.retire_cur (s : State) : s.retire.cur = s.cur := rfl
@[simp] theorem State.retire_curq (s : State) : s.retire.curq = s.curq := rfl
@[simp] theorem State.retire_agenda (s : State) : s.retire.agenda = s.agenda := rfl
@[simp] theorem State.retire_seen (s : State) : s.retire.seen = s.seen := rfl
@[simp] theorem State.retire_marks (s : State) : s.retire.marks = s.marks := rfl
@[simp] theorem State.retire_fresh (s : State) : s.retire.fresh = s.fresh := rfl

@[simp] theorem State.bump_fresh (s : State) : s.bump.fresh = s.fresh + 1 := rfl
@[simp] theorem State.retire_note (s : State) : s.retire.note = .retired := rfl

/-! ### Updates of a core -/

@[simp] theorem CoreSt.dirtyReg_id (c : CoreSt) (i : Nat) : (c.dirtyReg i).id = c.id := rfl
@[simp] theorem CoreSt.dirtyReg_x (c : CoreSt) (i : Nat) : (c.dirtyReg i).x = c.x := rfl
@[simp] theorem CoreSt.dirtyReg_f (c : CoreSt) (i : Nat) : (c.dirtyReg i).f = c.f := rfl
@[simp] theorem CoreSt.dirtyReg_pc (c : CoreSt) (i : Nat) : (c.dirtyReg i).pc = c.pc := rfl
@[simp] theorem CoreSt.dirtyReg_runtime (c : CoreSt) (i : Nat) : (c.dirtyReg i).runtime = c.runtime := rfl
@[simp] theorem CoreSt.dirtyReg_pfx (c : CoreSt) (i : Nat) : (c.dirtyReg i).pfx = c.pfx := rfl
@[simp] theorem CoreSt.dirtyReg_resv (c : CoreSt) (i : Nat) : (c.dirtyReg i).resv = c.resv := rfl
@[simp] theorem CoreSt.dirtyReg_csr (c : CoreSt) (i : Nat) : (c.dirtyReg i).csr = c.csr := rfl
@[simp] theorem CoreSt.dirtyReg_instret (c : CoreSt) (i : Nat) : (c.dirtyReg i).instret = c.instret := rfl
@[simp] theorem CoreSt.dirtyReg_task (c : CoreSt) (i : Nat) : (c.dirtyReg i).task = c.task := rfl
@[simp] theorem CoreSt.dirtyReg_gslSeen (c : CoreSt) (i : Nat) : (c.dirtyReg i).gslSeen = c.gslSeen := rfl
@[simp] theorem CoreSt.dirtyReg_cont (c : CoreSt) (i : Nat) : (c.dirtyReg i).cont = c.cont := rfl
@[simp] theorem CoreSt.dirtyReg_stage (c : CoreSt) (i : Nat) : (c.dirtyReg i).stage = c.stage := rfl
@[simp] theorem CoreSt.dirtyReg_vw (c : CoreSt) (i : Nat) : (c.dirtyReg i).vw = c.vw := rfl
@[simp] theorem CoreSt.dirtyReg_rg (c : CoreSt) (i : Nat) : (c.dirtyReg i).rg = c.rg := rfl
@[simp] theorem CoreSt.dirtyReg_rgp (c : CoreSt) (i : Nat) : (c.dirtyReg i).rgp = c.rgp := rfl
@[simp] theorem CoreSt.dirtyReg_reg (c : CoreSt) (i : Nat) : (c.dirtyReg i).reg = c.reg := rfl
@[simp] theorem CoreSt.dirtyReg_scratch (c : CoreSt) (i : Nat) : (c.dirtyReg i).scratch = c.scratch := rfl
@[simp] theorem CoreSt.dirtyReg_wLines (c : CoreSt) (i : Nat) : (c.dirtyReg i).wLines = c.wLines := rfl
@[simp] theorem CoreSt.dirtyReg_sLines (c : CoreSt) (i : Nat) : (c.dirtyReg i).sLines = c.sLines := rfl
@[simp] theorem CoreSt.dirtyReg_ctrs (c : CoreSt) (i : Nat) : (c.dirtyReg i).ctrs = c.ctrs := rfl
@[simp] theorem CoreSt.dirtyReg_waiting (c : CoreSt) (i : Nat) : (c.dirtyReg i).waiting = c.waiting := rfl
@[simp] theorem CoreSt.dirtyReg_inbox (c : CoreSt) (i : Nat) : (c.dirtyReg i).inbox = c.inbox := rfl
@[simp] theorem CoreSt.dirtyReg_outq (c : CoreSt) (i : Nat) : (c.dirtyReg i).outq = c.outq := rfl
@[simp] theorem CoreSt.dirtyReg_eqm (c : CoreSt) (i : Nat) : (c.dirtyReg i).eqm = c.eqm := rfl
@[simp] theorem CoreSt.dirtyReg_eqv (c : CoreSt) (i : Nat) : (c.dirtyReg i).eqv = c.eqv := rfl
@[simp] theorem CoreSt.dirtyReg_eqc (c : CoreSt) (i : Nat) : (c.dirtyReg i).eqc = c.eqc := rfl
@[simp] theorem CoreSt.dirtyReg_eqp (c : CoreSt) (i : Nat) : (c.dirtyReg i).eqp = c.eqp := rfl
@[simp] theorem CoreSt.dirtyReg_flights (c : CoreSt) (i : Nat) : (c.dirtyReg i).flights = c.flights := rfl
@[simp] theorem CoreSt.dirtyReg_sb (c : CoreSt) (i : Nat) : (c.dirtyReg i).sb = c.sb := rfl
@[simp] theorem CoreSt.dirtyReg_late (c : CoreSt) (i : Nat) : (c.dirtyReg i).late = c.late := rfl
@[simp] theorem CoreSt.dirtyReg_pend (c : CoreSt) (i : Nat) : (c.dirtyReg i).pend = c.pend := rfl
@[simp] theorem CoreSt.dirtyReg_due (c : CoreSt) (i : Nat) : (c.dirtyReg i).due = c.due := rfl
@[simp] theorem CoreSt.dirtyReg_win (c : CoreSt) (i : Nat) : (c.dirtyReg i).win = c.win := rfl
@[simp] theorem CoreSt.dirtyReg_ckpts (c : CoreSt) (i : Nat) : (c.dirtyReg i).ckpts = c.ckpts := rfl
@[simp] theorem CoreSt.dirtyReg_inputs (c : CoreSt) (i : Nat) : (c.dirtyReg i).inputs = c.inputs := rfl
@[simp] theorem CoreSt.dirtyReg_storeSeq (c : CoreSt) (i : Nat) : (c.dirtyReg i).storeSeq = c.storeSeq := rfl
@[simp] theorem CoreSt.dirtyReg_reqSeq (c : CoreSt) (i : Nat) : (c.dirtyReg i).reqSeq = c.reqSeq := rfl
@[simp] theorem CoreSt.dirtyReg_rqout (c : CoreSt) (i : Nat) : (c.dirtyReg i).rqout = c.rqout := rfl
@[simp] theorem CoreSt.dirtyReg_issueNo (c : CoreSt) (i : Nat) : (c.dirtyReg i).issueNo = c.issueNo := rfl
@[simp] theorem CoreSt.dirtyReg_sentNo (c : CoreSt) (i : Nat) : (c.dirtyReg i).sentNo = c.sentNo := rfl
@[simp] theorem CoreSt.dirtyReg_dicnt (c : CoreSt) (i : Nat) : (c.dirtyReg i).dicnt = c.dicnt := rfl
@[simp] theorem CoreSt.dirtyReg_gang (c : CoreSt) (i : Nat) : (c.dirtyReg i).gang = c.gang := rfl
@[simp] theorem CoreSt.dirtyReg_fuse (c : CoreSt) (i : Nat) : (c.dirtyReg i).fuse = c.fuse := rfl
@[simp] theorem CoreSt.dirtyReg_arrivals (c : CoreSt) (i : Nat) : (c.dirtyReg i).arrivals = c.arrivals := rfl
@[simp] theorem CoreSt.dirtyReg_sstepAt (c : CoreSt) (i : Nat) : (c.dirtyReg i).sstepAt = c.sstepAt := rfl
@[simp] theorem CoreSt.dirtyReg_sstepBy (c : CoreSt) (i : Nat) : (c.dirtyReg i).sstepBy = c.sstepBy := rfl
@[simp] theorem CoreSt.dirtyReg_sstepDone (c : CoreSt) (i : Nat) : (c.dirtyReg i).sstepDone = c.sstepDone := rfl
@[simp] theorem CoreSt.dirtyReg_genNum (c : CoreSt) (i : Nat) : (c.dirtyReg i).genNum = c.genNum := rfl
@[simp] theorem CoreSt.dirtyReg_bp (c : CoreSt) (i : Nat) : (c.dirtyReg i).bp = c.bp := rfl
@[simp] theorem CoreSt.dirtyReg_wp (c : CoreSt) (i : Nat) : (c.dirtyReg i).wp = c.wp := rfl
@[simp] theorem CoreSt.dirtyReg_ibuf (c : CoreSt) (i : Nat) : (c.dirtyReg i).ibuf = c.ibuf := rfl
@[simp] theorem CoreSt.dirtyReg_stale (c : CoreSt) (i : Nat) : (c.dirtyReg i).stale = c.stale := rfl
@[simp] theorem CoreSt.dirtyReg_stopped (c : CoreSt) (i : Nat) : (c.dirtyReg i).stopped = c.stopped := rfl
@[simp] theorem CoreSt.dirtyReg_fcause (c : CoreSt) (i : Nat) : (c.dirtyReg i).fcause = c.fcause := rfl
@[simp] theorem CoreSt.dirtyReg_memRw (c : CoreSt) (i : Nat) : (c.dirtyReg i).memRw = c.memRw := rfl
@[simp] theorem CoreSt.dirtyReg_stepping (c : CoreSt) (i : Nat) : (c.dirtyReg i).stepping = c.stepping := rfl
@[simp] theorem CoreSt.dirtyReg_replay (c : CoreSt) (i : Nat) : (c.dirtyReg i).replay = c.replay := rfl
@[simp] theorem CoreSt.dirtyReg_committed (c : CoreSt) (i : Nat) : (c.dirtyReg i).committed = c.committed := rfl
@[simp] theorem CoreSt.dirtyReg_logWait (c : CoreSt) (i : Nat) : (c.dirtyReg i).logWait = c.logWait := rfl
@[simp] theorem CoreSt.dirtyReg_draining (c : CoreSt) (i : Nat) : (c.dirtyReg i).draining = c.draining := rfl
@[simp] theorem CoreSt.dirtyReg_early (c : CoreSt) (i : Nat) : (c.dirtyReg i).early = c.early := rfl
@[simp] theorem CoreSt.dirtyReg_fits (c : CoreSt) (i : Nat) : (c.dirtyReg i).fits = c.fits := rfl
@[simp] theorem CoreSt.dirtyReg_fitNo (c : CoreSt) (i : Nat) : (c.dirtyReg i).fitNo = c.fitNo := rfl
@[simp] theorem CoreSt.dirtyReg_rels (c : CoreSt) (i : Nat) : (c.dirtyReg i).rels = c.rels := rfl
@[simp] theorem CoreSt.dirtyReg_heard (c : CoreSt) (i : Nat) : (c.dirtyReg i).heard = c.heard := rfl
@[simp] theorem CoreSt.dirtyReg_ctrRels (c : CoreSt) (i : Nat) : (c.dirtyReg i).ctrRels = c.ctrRels := rfl
@[simp] theorem CoreSt.dirtyReg_sstepRels (c : CoreSt) (i : Nat) : (c.dirtyReg i).sstepRels = c.sstepRels := rfl
@[simp] theorem CoreSt.dirtyReg_hostAmo (c : CoreSt) (i : Nat) : (c.dirtyReg i).hostAmo = c.hostAmo := rfl
@[simp] theorem CoreSt.dirtyReg_rewinding (c : CoreSt) (i : Nat) : (c.dirtyReg i).rewinding = c.rewinding := rfl

@[simp] theorem CoreSt.setCtr_id (c : CoreSt) (i v : Nat) : (c.setCtr i v).id = c.id := rfl
@[simp] theorem CoreSt.setCtr_x (c : CoreSt) (i v : Nat) : (c.setCtr i v).x = c.x := rfl
@[simp] theorem CoreSt.setCtr_f (c : CoreSt) (i v : Nat) : (c.setCtr i v).f = c.f := rfl
@[simp] theorem CoreSt.setCtr_pc (c : CoreSt) (i v : Nat) : (c.setCtr i v).pc = c.pc := rfl
@[simp] theorem CoreSt.setCtr_runtime (c : CoreSt) (i v : Nat) : (c.setCtr i v).runtime = c.runtime := rfl
@[simp] theorem CoreSt.setCtr_pfx (c : CoreSt) (i v : Nat) : (c.setCtr i v).pfx = c.pfx := rfl
@[simp] theorem CoreSt.setCtr_resv (c : CoreSt) (i v : Nat) : (c.setCtr i v).resv = c.resv := rfl
@[simp] theorem CoreSt.setCtr_csr (c : CoreSt) (i v : Nat) : (c.setCtr i v).csr = c.csr := rfl
@[simp] theorem CoreSt.setCtr_instret (c : CoreSt) (i v : Nat) : (c.setCtr i v).instret = c.instret := rfl
@[simp] theorem CoreSt.setCtr_task (c : CoreSt) (i v : Nat) : (c.setCtr i v).task = c.task := rfl
@[simp] theorem CoreSt.setCtr_gslSeen (c : CoreSt) (i v : Nat) : (c.setCtr i v).gslSeen = c.gslSeen := rfl
@[simp] theorem CoreSt.setCtr_cont (c : CoreSt) (i v : Nat) : (c.setCtr i v).cont = c.cont := rfl
@[simp] theorem CoreSt.setCtr_stage (c : CoreSt) (i v : Nat) : (c.setCtr i v).stage = c.stage := rfl
@[simp] theorem CoreSt.setCtr_vw (c : CoreSt) (i v : Nat) : (c.setCtr i v).vw = c.vw := rfl
@[simp] theorem CoreSt.setCtr_rg (c : CoreSt) (i v : Nat) : (c.setCtr i v).rg = c.rg := rfl
@[simp] theorem CoreSt.setCtr_rgp (c : CoreSt) (i v : Nat) : (c.setCtr i v).rgp = c.rgp := rfl
@[simp] theorem CoreSt.setCtr_reg (c : CoreSt) (i v : Nat) : (c.setCtr i v).reg = c.reg := rfl
@[simp] theorem CoreSt.setCtr_scratch (c : CoreSt) (i v : Nat) : (c.setCtr i v).scratch = c.scratch := rfl
@[simp] theorem CoreSt.setCtr_wLines (c : CoreSt) (i v : Nat) : (c.setCtr i v).wLines = c.wLines := rfl
@[simp] theorem CoreSt.setCtr_wRegs (c : CoreSt) (i v : Nat) : (c.setCtr i v).wRegs = c.wRegs := rfl
@[simp] theorem CoreSt.setCtr_sLines (c : CoreSt) (i v : Nat) : (c.setCtr i v).sLines = c.sLines := rfl
@[simp] theorem CoreSt.setCtr_sRegs (c : CoreSt) (i v : Nat) : (c.setCtr i v).sRegs = c.sRegs := rfl
@[simp] theorem CoreSt.setCtr_waiting (c : CoreSt) (i v : Nat) : (c.setCtr i v).waiting = c.waiting := rfl
@[simp] theorem CoreSt.setCtr_inbox (c : CoreSt) (i v : Nat) : (c.setCtr i v).inbox = c.inbox := rfl
@[simp] theorem CoreSt.setCtr_outq (c : CoreSt) (i v : Nat) : (c.setCtr i v).outq = c.outq := rfl
@[simp] theorem CoreSt.setCtr_eqm (c : CoreSt) (i v : Nat) : (c.setCtr i v).eqm = c.eqm := rfl
@[simp] theorem CoreSt.setCtr_eqv (c : CoreSt) (i v : Nat) : (c.setCtr i v).eqv = c.eqv := rfl
@[simp] theorem CoreSt.setCtr_eqc (c : CoreSt) (i v : Nat) : (c.setCtr i v).eqc = c.eqc := rfl
@[simp] theorem CoreSt.setCtr_eqp (c : CoreSt) (i v : Nat) : (c.setCtr i v).eqp = c.eqp := rfl
@[simp] theorem CoreSt.setCtr_flights (c : CoreSt) (i v : Nat) : (c.setCtr i v).flights = c.flights := rfl
@[simp] theorem CoreSt.setCtr_sb (c : CoreSt) (i v : Nat) : (c.setCtr i v).sb = c.sb := rfl
@[simp] theorem CoreSt.setCtr_late (c : CoreSt) (i v : Nat) : (c.setCtr i v).late = c.late := rfl
@[simp] theorem CoreSt.setCtr_pend (c : CoreSt) (i v : Nat) : (c.setCtr i v).pend = c.pend := rfl
@[simp] theorem CoreSt.setCtr_due (c : CoreSt) (i v : Nat) : (c.setCtr i v).due = c.due := rfl
@[simp] theorem CoreSt.setCtr_win (c : CoreSt) (i v : Nat) : (c.setCtr i v).win = c.win := rfl
@[simp] theorem CoreSt.setCtr_ckpts (c : CoreSt) (i v : Nat) : (c.setCtr i v).ckpts = c.ckpts := rfl
@[simp] theorem CoreSt.setCtr_inputs (c : CoreSt) (i v : Nat) : (c.setCtr i v).inputs = c.inputs := rfl
@[simp] theorem CoreSt.setCtr_storeSeq (c : CoreSt) (i v : Nat) : (c.setCtr i v).storeSeq = c.storeSeq := rfl
@[simp] theorem CoreSt.setCtr_reqSeq (c : CoreSt) (i v : Nat) : (c.setCtr i v).reqSeq = c.reqSeq := rfl
@[simp] theorem CoreSt.setCtr_rqout (c : CoreSt) (i v : Nat) : (c.setCtr i v).rqout = c.rqout := rfl
@[simp] theorem CoreSt.setCtr_issueNo (c : CoreSt) (i v : Nat) : (c.setCtr i v).issueNo = c.issueNo := rfl
@[simp] theorem CoreSt.setCtr_sentNo (c : CoreSt) (i v : Nat) : (c.setCtr i v).sentNo = c.sentNo := rfl
@[simp] theorem CoreSt.setCtr_dicnt (c : CoreSt) (i v : Nat) : (c.setCtr i v).dicnt = c.dicnt := rfl
@[simp] theorem CoreSt.setCtr_gang (c : CoreSt) (i v : Nat) : (c.setCtr i v).gang = c.gang := rfl
@[simp] theorem CoreSt.setCtr_fuse (c : CoreSt) (i v : Nat) : (c.setCtr i v).fuse = c.fuse := rfl
@[simp] theorem CoreSt.setCtr_arrivals (c : CoreSt) (i v : Nat) : (c.setCtr i v).arrivals = c.arrivals := rfl
@[simp] theorem CoreSt.setCtr_sstepAt (c : CoreSt) (i v : Nat) : (c.setCtr i v).sstepAt = c.sstepAt := rfl
@[simp] theorem CoreSt.setCtr_sstepBy (c : CoreSt) (i v : Nat) : (c.setCtr i v).sstepBy = c.sstepBy := rfl
@[simp] theorem CoreSt.setCtr_sstepDone (c : CoreSt) (i v : Nat) : (c.setCtr i v).sstepDone = c.sstepDone := rfl
@[simp] theorem CoreSt.setCtr_genNum (c : CoreSt) (i v : Nat) : (c.setCtr i v).genNum = c.genNum := rfl
@[simp] theorem CoreSt.setCtr_bp (c : CoreSt) (i v : Nat) : (c.setCtr i v).bp = c.bp := rfl
@[simp] theorem CoreSt.setCtr_wp (c : CoreSt) (i v : Nat) : (c.setCtr i v).wp = c.wp := rfl
@[simp] theorem CoreSt.setCtr_ibuf (c : CoreSt) (i v : Nat) : (c.setCtr i v).ibuf = c.ibuf := rfl
@[simp] theorem CoreSt.setCtr_stale (c : CoreSt) (i v : Nat) : (c.setCtr i v).stale = c.stale := rfl
@[simp] theorem CoreSt.setCtr_stopped (c : CoreSt) (i v : Nat) : (c.setCtr i v).stopped = c.stopped := rfl
@[simp] theorem CoreSt.setCtr_fcause (c : CoreSt) (i v : Nat) : (c.setCtr i v).fcause = c.fcause := rfl
@[simp] theorem CoreSt.setCtr_memRw (c : CoreSt) (i v : Nat) : (c.setCtr i v).memRw = c.memRw := rfl
@[simp] theorem CoreSt.setCtr_stepping (c : CoreSt) (i v : Nat) : (c.setCtr i v).stepping = c.stepping := rfl
@[simp] theorem CoreSt.setCtr_replay (c : CoreSt) (i v : Nat) : (c.setCtr i v).replay = c.replay := rfl
@[simp] theorem CoreSt.setCtr_committed (c : CoreSt) (i v : Nat) : (c.setCtr i v).committed = c.committed := rfl
@[simp] theorem CoreSt.setCtr_logWait (c : CoreSt) (i v : Nat) : (c.setCtr i v).logWait = c.logWait := rfl
@[simp] theorem CoreSt.setCtr_draining (c : CoreSt) (i v : Nat) : (c.setCtr i v).draining = c.draining := rfl
@[simp] theorem CoreSt.setCtr_early (c : CoreSt) (i v : Nat) : (c.setCtr i v).early = c.early := rfl
@[simp] theorem CoreSt.setCtr_fits (c : CoreSt) (i v : Nat) : (c.setCtr i v).fits = c.fits := rfl
@[simp] theorem CoreSt.setCtr_fitNo (c : CoreSt) (i v : Nat) : (c.setCtr i v).fitNo = c.fitNo := rfl
@[simp] theorem CoreSt.setCtr_rels (c : CoreSt) (i v : Nat) : (c.setCtr i v).rels = c.rels := rfl
@[simp] theorem CoreSt.setCtr_heard (c : CoreSt) (i v : Nat) : (c.setCtr i v).heard = c.heard := rfl
@[simp] theorem CoreSt.setCtr_ctrRels (c : CoreSt) (i v : Nat) : (c.setCtr i v).ctrRels = c.ctrRels := rfl
@[simp] theorem CoreSt.setCtr_sstepRels (c : CoreSt) (i v : Nat) : (c.setCtr i v).sstepRels = c.sstepRels := rfl
@[simp] theorem CoreSt.setCtr_hostAmo (c : CoreSt) (i v : Nat) : (c.setCtr i v).hostAmo = c.hostAmo := rfl
@[simp] theorem CoreSt.setCtr_rewinding (c : CoreSt) (i v : Nat) : (c.setCtr i v).rewinding = c.rewinding := rfl

@[simp] theorem CoreSt.countEv_id (c : CoreSt) (i : Nat) : (c.countEv i).id = c.id := rfl
@[simp] theorem CoreSt.countEv_x (c : CoreSt) (i : Nat) : (c.countEv i).x = c.x := rfl
@[simp] theorem CoreSt.countEv_f (c : CoreSt) (i : Nat) : (c.countEv i).f = c.f := rfl
@[simp] theorem CoreSt.countEv_pc (c : CoreSt) (i : Nat) : (c.countEv i).pc = c.pc := rfl
@[simp] theorem CoreSt.countEv_runtime (c : CoreSt) (i : Nat) : (c.countEv i).runtime = c.runtime := rfl
@[simp] theorem CoreSt.countEv_pfx (c : CoreSt) (i : Nat) : (c.countEv i).pfx = c.pfx := rfl
@[simp] theorem CoreSt.countEv_resv (c : CoreSt) (i : Nat) : (c.countEv i).resv = c.resv := rfl
@[simp] theorem CoreSt.countEv_instret (c : CoreSt) (i : Nat) : (c.countEv i).instret = c.instret := rfl
@[simp] theorem CoreSt.countEv_task (c : CoreSt) (i : Nat) : (c.countEv i).task = c.task := rfl
@[simp] theorem CoreSt.countEv_gslSeen (c : CoreSt) (i : Nat) : (c.countEv i).gslSeen = c.gslSeen := rfl
@[simp] theorem CoreSt.countEv_cont (c : CoreSt) (i : Nat) : (c.countEv i).cont = c.cont := rfl
@[simp] theorem CoreSt.countEv_stage (c : CoreSt) (i : Nat) : (c.countEv i).stage = c.stage := rfl
@[simp] theorem CoreSt.countEv_vw (c : CoreSt) (i : Nat) : (c.countEv i).vw = c.vw := rfl
@[simp] theorem CoreSt.countEv_rg (c : CoreSt) (i : Nat) : (c.countEv i).rg = c.rg := rfl
@[simp] theorem CoreSt.countEv_rgp (c : CoreSt) (i : Nat) : (c.countEv i).rgp = c.rgp := rfl
@[simp] theorem CoreSt.countEv_reg (c : CoreSt) (i : Nat) : (c.countEv i).reg = c.reg := rfl
@[simp] theorem CoreSt.countEv_scratch (c : CoreSt) (i : Nat) : (c.countEv i).scratch = c.scratch := rfl
@[simp] theorem CoreSt.countEv_wLines (c : CoreSt) (i : Nat) : (c.countEv i).wLines = c.wLines := rfl
@[simp] theorem CoreSt.countEv_wRegs (c : CoreSt) (i : Nat) : (c.countEv i).wRegs = c.wRegs := rfl
@[simp] theorem CoreSt.countEv_sLines (c : CoreSt) (i : Nat) : (c.countEv i).sLines = c.sLines := rfl
@[simp] theorem CoreSt.countEv_sRegs (c : CoreSt) (i : Nat) : (c.countEv i).sRegs = c.sRegs := rfl
@[simp] theorem CoreSt.countEv_ctrs (c : CoreSt) (i : Nat) : (c.countEv i).ctrs = c.ctrs := rfl
@[simp] theorem CoreSt.countEv_waiting (c : CoreSt) (i : Nat) : (c.countEv i).waiting = c.waiting := rfl
@[simp] theorem CoreSt.countEv_inbox (c : CoreSt) (i : Nat) : (c.countEv i).inbox = c.inbox := rfl
@[simp] theorem CoreSt.countEv_outq (c : CoreSt) (i : Nat) : (c.countEv i).outq = c.outq := rfl
@[simp] theorem CoreSt.countEv_eqm (c : CoreSt) (i : Nat) : (c.countEv i).eqm = c.eqm := rfl
@[simp] theorem CoreSt.countEv_eqv (c : CoreSt) (i : Nat) : (c.countEv i).eqv = c.eqv := rfl
@[simp] theorem CoreSt.countEv_eqc (c : CoreSt) (i : Nat) : (c.countEv i).eqc = c.eqc := rfl
@[simp] theorem CoreSt.countEv_eqp (c : CoreSt) (i : Nat) : (c.countEv i).eqp = c.eqp := rfl
@[simp] theorem CoreSt.countEv_flights (c : CoreSt) (i : Nat) : (c.countEv i).flights = c.flights := rfl
@[simp] theorem CoreSt.countEv_sb (c : CoreSt) (i : Nat) : (c.countEv i).sb = c.sb := rfl
@[simp] theorem CoreSt.countEv_late (c : CoreSt) (i : Nat) : (c.countEv i).late = c.late := rfl
@[simp] theorem CoreSt.countEv_pend (c : CoreSt) (i : Nat) : (c.countEv i).pend = c.pend := rfl
@[simp] theorem CoreSt.countEv_due (c : CoreSt) (i : Nat) : (c.countEv i).due = c.due := rfl
@[simp] theorem CoreSt.countEv_win (c : CoreSt) (i : Nat) : (c.countEv i).win = c.win := rfl
@[simp] theorem CoreSt.countEv_ckpts (c : CoreSt) (i : Nat) : (c.countEv i).ckpts = c.ckpts := rfl
@[simp] theorem CoreSt.countEv_inputs (c : CoreSt) (i : Nat) : (c.countEv i).inputs = c.inputs := rfl
@[simp] theorem CoreSt.countEv_storeSeq (c : CoreSt) (i : Nat) : (c.countEv i).storeSeq = c.storeSeq := rfl
@[simp] theorem CoreSt.countEv_reqSeq (c : CoreSt) (i : Nat) : (c.countEv i).reqSeq = c.reqSeq := rfl
@[simp] theorem CoreSt.countEv_rqout (c : CoreSt) (i : Nat) : (c.countEv i).rqout = c.rqout := rfl
@[simp] theorem CoreSt.countEv_issueNo (c : CoreSt) (i : Nat) : (c.countEv i).issueNo = c.issueNo := rfl
@[simp] theorem CoreSt.countEv_sentNo (c : CoreSt) (i : Nat) : (c.countEv i).sentNo = c.sentNo := rfl
@[simp] theorem CoreSt.countEv_dicnt (c : CoreSt) (i : Nat) : (c.countEv i).dicnt = c.dicnt := rfl
@[simp] theorem CoreSt.countEv_gang (c : CoreSt) (i : Nat) : (c.countEv i).gang = c.gang := rfl
@[simp] theorem CoreSt.countEv_fuse (c : CoreSt) (i : Nat) : (c.countEv i).fuse = c.fuse := rfl
@[simp] theorem CoreSt.countEv_arrivals (c : CoreSt) (i : Nat) : (c.countEv i).arrivals = c.arrivals := rfl
@[simp] theorem CoreSt.countEv_sstepAt (c : CoreSt) (i : Nat) : (c.countEv i).sstepAt = c.sstepAt := rfl
@[simp] theorem CoreSt.countEv_sstepBy (c : CoreSt) (i : Nat) : (c.countEv i).sstepBy = c.sstepBy := rfl
@[simp] theorem CoreSt.countEv_sstepDone (c : CoreSt) (i : Nat) : (c.countEv i).sstepDone = c.sstepDone := rfl
@[simp] theorem CoreSt.countEv_genNum (c : CoreSt) (i : Nat) : (c.countEv i).genNum = c.genNum := rfl
@[simp] theorem CoreSt.countEv_bp (c : CoreSt) (i : Nat) : (c.countEv i).bp = c.bp := rfl
@[simp] theorem CoreSt.countEv_wp (c : CoreSt) (i : Nat) : (c.countEv i).wp = c.wp := rfl
@[simp] theorem CoreSt.countEv_ibuf (c : CoreSt) (i : Nat) : (c.countEv i).ibuf = c.ibuf := rfl
@[simp] theorem CoreSt.countEv_stale (c : CoreSt) (i : Nat) : (c.countEv i).stale = c.stale := rfl
@[simp] theorem CoreSt.countEv_stopped (c : CoreSt) (i : Nat) : (c.countEv i).stopped = c.stopped := rfl
@[simp] theorem CoreSt.countEv_fcause (c : CoreSt) (i : Nat) : (c.countEv i).fcause = c.fcause := rfl
@[simp] theorem CoreSt.countEv_memRw (c : CoreSt) (i : Nat) : (c.countEv i).memRw = c.memRw := rfl
@[simp] theorem CoreSt.countEv_stepping (c : CoreSt) (i : Nat) : (c.countEv i).stepping = c.stepping := rfl
@[simp] theorem CoreSt.countEv_replay (c : CoreSt) (i : Nat) : (c.countEv i).replay = c.replay := rfl
@[simp] theorem CoreSt.countEv_committed (c : CoreSt) (i : Nat) : (c.countEv i).committed = c.committed := rfl
@[simp] theorem CoreSt.countEv_logWait (c : CoreSt) (i : Nat) : (c.countEv i).logWait = c.logWait := rfl
@[simp] theorem CoreSt.countEv_draining (c : CoreSt) (i : Nat) : (c.countEv i).draining = c.draining := rfl
@[simp] theorem CoreSt.countEv_early (c : CoreSt) (i : Nat) : (c.countEv i).early = c.early := rfl
@[simp] theorem CoreSt.countEv_fits (c : CoreSt) (i : Nat) : (c.countEv i).fits = c.fits := rfl
@[simp] theorem CoreSt.countEv_fitNo (c : CoreSt) (i : Nat) : (c.countEv i).fitNo = c.fitNo := rfl
@[simp] theorem CoreSt.countEv_rels (c : CoreSt) (i : Nat) : (c.countEv i).rels = c.rels := rfl
@[simp] theorem CoreSt.countEv_heard (c : CoreSt) (i : Nat) : (c.countEv i).heard = c.heard := rfl
@[simp] theorem CoreSt.countEv_ctrRels (c : CoreSt) (i : Nat) : (c.countEv i).ctrRels = c.ctrRels := rfl
@[simp] theorem CoreSt.countEv_sstepRels (c : CoreSt) (i : Nat) : (c.countEv i).sstepRels = c.sstepRels := rfl
@[simp] theorem CoreSt.countEv_hostAmo (c : CoreSt) (i : Nat) : (c.countEv i).hostAmo = c.hostAmo := rfl
@[simp] theorem CoreSt.countEv_rewinding (c : CoreSt) (i : Nat) : (c.countEv i).rewinding = c.rewinding := rfl

@[simp] theorem CoreSt.doReturn_id (c : CoreSt) : c.doReturn.id = c.id := rfl
@[simp] theorem CoreSt.doReturn_x (c : CoreSt) : c.doReturn.x = c.x := rfl
@[simp] theorem CoreSt.doReturn_f (c : CoreSt) : c.doReturn.f = c.f := rfl
@[simp] theorem CoreSt.doReturn_pfx (c : CoreSt) : c.doReturn.pfx = c.pfx := rfl
@[simp] theorem CoreSt.doReturn_resv (c : CoreSt) : c.doReturn.resv = c.resv := rfl
@[simp] theorem CoreSt.doReturn_instret (c : CoreSt) : c.doReturn.instret = c.instret := rfl
@[simp] theorem CoreSt.doReturn_task (c : CoreSt) : c.doReturn.task = c.task := rfl
@[simp] theorem CoreSt.doReturn_gslSeen (c : CoreSt) : c.doReturn.gslSeen = c.gslSeen := rfl
@[simp] theorem CoreSt.doReturn_cont (c : CoreSt) : c.doReturn.cont = c.cont := rfl
@[simp] theorem CoreSt.doReturn_stage (c : CoreSt) : c.doReturn.stage = c.stage := rfl
@[simp] theorem CoreSt.doReturn_vw (c : CoreSt) : c.doReturn.vw = c.vw := rfl
@[simp] theorem CoreSt.doReturn_rg (c : CoreSt) : c.doReturn.rg = c.rg := rfl
@[simp] theorem CoreSt.doReturn_rgp (c : CoreSt) : c.doReturn.rgp = c.rgp := rfl
@[simp] theorem CoreSt.doReturn_reg (c : CoreSt) : c.doReturn.reg = c.reg := rfl
@[simp] theorem CoreSt.doReturn_scratch (c : CoreSt) : c.doReturn.scratch = c.scratch := rfl
@[simp] theorem CoreSt.doReturn_wLines (c : CoreSt) : c.doReturn.wLines = c.wLines := rfl
@[simp] theorem CoreSt.doReturn_wRegs (c : CoreSt) : c.doReturn.wRegs = c.wRegs := rfl
@[simp] theorem CoreSt.doReturn_sLines (c : CoreSt) : c.doReturn.sLines = c.sLines := rfl
@[simp] theorem CoreSt.doReturn_sRegs (c : CoreSt) : c.doReturn.sRegs = c.sRegs := rfl
@[simp] theorem CoreSt.doReturn_ctrs (c : CoreSt) : c.doReturn.ctrs = c.ctrs := rfl
@[simp] theorem CoreSt.doReturn_waiting (c : CoreSt) : c.doReturn.waiting = c.waiting := rfl
@[simp] theorem CoreSt.doReturn_inbox (c : CoreSt) : c.doReturn.inbox = c.inbox := rfl
@[simp] theorem CoreSt.doReturn_outq (c : CoreSt) : c.doReturn.outq = c.outq := rfl
@[simp] theorem CoreSt.doReturn_eqm (c : CoreSt) : c.doReturn.eqm = c.eqm := rfl
@[simp] theorem CoreSt.doReturn_eqv (c : CoreSt) : c.doReturn.eqv = c.eqv := rfl
@[simp] theorem CoreSt.doReturn_eqc (c : CoreSt) : c.doReturn.eqc = c.eqc := rfl
@[simp] theorem CoreSt.doReturn_eqp (c : CoreSt) : c.doReturn.eqp = c.eqp := rfl
@[simp] theorem CoreSt.doReturn_flights (c : CoreSt) : c.doReturn.flights = c.flights := rfl
@[simp] theorem CoreSt.doReturn_sb (c : CoreSt) : c.doReturn.sb = c.sb := rfl
@[simp] theorem CoreSt.doReturn_late (c : CoreSt) : c.doReturn.late = c.late := rfl
@[simp] theorem CoreSt.doReturn_pend (c : CoreSt) : c.doReturn.pend = c.pend := rfl
@[simp] theorem CoreSt.doReturn_due (c : CoreSt) : c.doReturn.due = c.due := rfl
@[simp] theorem CoreSt.doReturn_win (c : CoreSt) : c.doReturn.win = c.win := rfl
@[simp] theorem CoreSt.doReturn_ckpts (c : CoreSt) : c.doReturn.ckpts = c.ckpts := rfl
@[simp] theorem CoreSt.doReturn_inputs (c : CoreSt) : c.doReturn.inputs = c.inputs := rfl
@[simp] theorem CoreSt.doReturn_storeSeq (c : CoreSt) : c.doReturn.storeSeq = c.storeSeq := rfl
@[simp] theorem CoreSt.doReturn_reqSeq (c : CoreSt) : c.doReturn.reqSeq = c.reqSeq := rfl
@[simp] theorem CoreSt.doReturn_rqout (c : CoreSt) : c.doReturn.rqout = c.rqout := rfl
@[simp] theorem CoreSt.doReturn_issueNo (c : CoreSt) : c.doReturn.issueNo = c.issueNo := rfl
@[simp] theorem CoreSt.doReturn_sentNo (c : CoreSt) : c.doReturn.sentNo = c.sentNo := rfl
@[simp] theorem CoreSt.doReturn_dicnt (c : CoreSt) : c.doReturn.dicnt = c.dicnt := rfl
@[simp] theorem CoreSt.doReturn_gang (c : CoreSt) : c.doReturn.gang = c.gang := rfl
@[simp] theorem CoreSt.doReturn_fuse (c : CoreSt) : c.doReturn.fuse = c.fuse := rfl
@[simp] theorem CoreSt.doReturn_arrivals (c : CoreSt) : c.doReturn.arrivals = c.arrivals := rfl
@[simp] theorem CoreSt.doReturn_sstepAt (c : CoreSt) : c.doReturn.sstepAt = c.sstepAt := rfl
@[simp] theorem CoreSt.doReturn_sstepBy (c : CoreSt) : c.doReturn.sstepBy = c.sstepBy := rfl
@[simp] theorem CoreSt.doReturn_sstepDone (c : CoreSt) : c.doReturn.sstepDone = c.sstepDone := rfl
@[simp] theorem CoreSt.doReturn_genNum (c : CoreSt) : c.doReturn.genNum = c.genNum := rfl
@[simp] theorem CoreSt.doReturn_bp (c : CoreSt) : c.doReturn.bp = c.bp := rfl
@[simp] theorem CoreSt.doReturn_wp (c : CoreSt) : c.doReturn.wp = c.wp := rfl
@[simp] theorem CoreSt.doReturn_ibuf (c : CoreSt) : c.doReturn.ibuf = c.ibuf := rfl
@[simp] theorem CoreSt.doReturn_stale (c : CoreSt) : c.doReturn.stale = c.stale := rfl
@[simp] theorem CoreSt.doReturn_stopped (c : CoreSt) : c.doReturn.stopped = c.stopped := rfl
@[simp] theorem CoreSt.doReturn_fcause (c : CoreSt) : c.doReturn.fcause = c.fcause := rfl
@[simp] theorem CoreSt.doReturn_memRw (c : CoreSt) : c.doReturn.memRw = c.memRw := rfl
@[simp] theorem CoreSt.doReturn_stepping (c : CoreSt) : c.doReturn.stepping = c.stepping := rfl
@[simp] theorem CoreSt.doReturn_replay (c : CoreSt) : c.doReturn.replay = c.replay := rfl
@[simp] theorem CoreSt.doReturn_committed (c : CoreSt) : c.doReturn.committed = c.committed := rfl
@[simp] theorem CoreSt.doReturn_logWait (c : CoreSt) : c.doReturn.logWait = c.logWait := rfl
@[simp] theorem CoreSt.doReturn_draining (c : CoreSt) : c.doReturn.draining = c.draining := rfl
@[simp] theorem CoreSt.doReturn_early (c : CoreSt) : c.doReturn.early = c.early := rfl
@[simp] theorem CoreSt.doReturn_fits (c : CoreSt) : c.doReturn.fits = c.fits := rfl
@[simp] theorem CoreSt.doReturn_fitNo (c : CoreSt) : c.doReturn.fitNo = c.fitNo := rfl
@[simp] theorem CoreSt.doReturn_rels (c : CoreSt) : c.doReturn.rels = c.rels := rfl
@[simp] theorem CoreSt.doReturn_heard (c : CoreSt) : c.doReturn.heard = c.heard := rfl
@[simp] theorem CoreSt.doReturn_ctrRels (c : CoreSt) : c.doReturn.ctrRels = c.ctrRels := rfl
@[simp] theorem CoreSt.doReturn_sstepRels (c : CoreSt) : c.doReturn.sstepRels = c.sstepRels := rfl
@[simp] theorem CoreSt.doReturn_hostAmo (c : CoreSt) : c.doReturn.hostAmo = c.hostAmo := rfl
@[simp] theorem CoreSt.doReturn_rewinding (c : CoreSt) : c.doReturn.rewinding = c.rewinding := rfl

@[simp] theorem CoreSt.wf_id (c : CoreSt) (i : Reg) (v : Word) : (c.wf i v).id = c.id := rfl
@[simp] theorem CoreSt.wf_x (c : CoreSt) (i : Reg) (v : Word) : (c.wf i v).x = c.x := rfl
@[simp] theorem CoreSt.wf_pc (c : CoreSt) (i : Reg) (v : Word) : (c.wf i v).pc = c.pc := rfl
@[simp] theorem CoreSt.wf_runtime (c : CoreSt) (i : Reg) (v : Word) : (c.wf i v).runtime = c.runtime := rfl
@[simp] theorem CoreSt.wf_pfx (c : CoreSt) (i : Reg) (v : Word) : (c.wf i v).pfx = c.pfx := rfl
@[simp] theorem CoreSt.wf_resv (c : CoreSt) (i : Reg) (v : Word) : (c.wf i v).resv = c.resv := rfl
@[simp] theorem CoreSt.wf_csr (c : CoreSt) (i : Reg) (v : Word) : (c.wf i v).csr = c.csr := rfl
@[simp] theorem CoreSt.wf_instret (c : CoreSt) (i : Reg) (v : Word) : (c.wf i v).instret = c.instret := rfl
@[simp] theorem CoreSt.wf_task (c : CoreSt) (i : Reg) (v : Word) : (c.wf i v).task = c.task := rfl
@[simp] theorem CoreSt.wf_gslSeen (c : CoreSt) (i : Reg) (v : Word) : (c.wf i v).gslSeen = c.gslSeen := rfl
@[simp] theorem CoreSt.wf_cont (c : CoreSt) (i : Reg) (v : Word) : (c.wf i v).cont = c.cont := rfl
@[simp] theorem CoreSt.wf_stage (c : CoreSt) (i : Reg) (v : Word) : (c.wf i v).stage = c.stage := rfl
@[simp] theorem CoreSt.wf_vw (c : CoreSt) (i : Reg) (v : Word) : (c.wf i v).vw = c.vw := rfl
@[simp] theorem CoreSt.wf_rg (c : CoreSt) (i : Reg) (v : Word) : (c.wf i v).rg = c.rg := rfl
@[simp] theorem CoreSt.wf_rgp (c : CoreSt) (i : Reg) (v : Word) : (c.wf i v).rgp = c.rgp := rfl
@[simp] theorem CoreSt.wf_reg (c : CoreSt) (i : Reg) (v : Word) : (c.wf i v).reg = c.reg := rfl
@[simp] theorem CoreSt.wf_scratch (c : CoreSt) (i : Reg) (v : Word) : (c.wf i v).scratch = c.scratch := rfl
@[simp] theorem CoreSt.wf_wLines (c : CoreSt) (i : Reg) (v : Word) : (c.wf i v).wLines = c.wLines := rfl
@[simp] theorem CoreSt.wf_sLines (c : CoreSt) (i : Reg) (v : Word) : (c.wf i v).sLines = c.sLines := rfl
@[simp] theorem CoreSt.wf_ctrs (c : CoreSt) (i : Reg) (v : Word) : (c.wf i v).ctrs = c.ctrs := rfl
@[simp] theorem CoreSt.wf_waiting (c : CoreSt) (i : Reg) (v : Word) : (c.wf i v).waiting = c.waiting := rfl
@[simp] theorem CoreSt.wf_inbox (c : CoreSt) (i : Reg) (v : Word) : (c.wf i v).inbox = c.inbox := rfl
@[simp] theorem CoreSt.wf_outq (c : CoreSt) (i : Reg) (v : Word) : (c.wf i v).outq = c.outq := rfl
@[simp] theorem CoreSt.wf_eqm (c : CoreSt) (i : Reg) (v : Word) : (c.wf i v).eqm = c.eqm := rfl
@[simp] theorem CoreSt.wf_eqv (c : CoreSt) (i : Reg) (v : Word) : (c.wf i v).eqv = c.eqv := rfl
@[simp] theorem CoreSt.wf_eqc (c : CoreSt) (i : Reg) (v : Word) : (c.wf i v).eqc = c.eqc := rfl
@[simp] theorem CoreSt.wf_eqp (c : CoreSt) (i : Reg) (v : Word) : (c.wf i v).eqp = c.eqp := rfl
@[simp] theorem CoreSt.wf_flights (c : CoreSt) (i : Reg) (v : Word) : (c.wf i v).flights = c.flights := rfl
@[simp] theorem CoreSt.wf_sb (c : CoreSt) (i : Reg) (v : Word) : (c.wf i v).sb = c.sb := rfl
@[simp] theorem CoreSt.wf_late (c : CoreSt) (i : Reg) (v : Word) : (c.wf i v).late = c.late := rfl
@[simp] theorem CoreSt.wf_pend (c : CoreSt) (i : Reg) (v : Word) : (c.wf i v).pend = c.pend := rfl
@[simp] theorem CoreSt.wf_due (c : CoreSt) (i : Reg) (v : Word) : (c.wf i v).due = c.due := rfl
@[simp] theorem CoreSt.wf_win (c : CoreSt) (i : Reg) (v : Word) : (c.wf i v).win = c.win := rfl
@[simp] theorem CoreSt.wf_ckpts (c : CoreSt) (i : Reg) (v : Word) : (c.wf i v).ckpts = c.ckpts := rfl
@[simp] theorem CoreSt.wf_inputs (c : CoreSt) (i : Reg) (v : Word) : (c.wf i v).inputs = c.inputs := rfl
@[simp] theorem CoreSt.wf_storeSeq (c : CoreSt) (i : Reg) (v : Word) : (c.wf i v).storeSeq = c.storeSeq := rfl
@[simp] theorem CoreSt.wf_reqSeq (c : CoreSt) (i : Reg) (v : Word) : (c.wf i v).reqSeq = c.reqSeq := rfl
@[simp] theorem CoreSt.wf_rqout (c : CoreSt) (i : Reg) (v : Word) : (c.wf i v).rqout = c.rqout := rfl
@[simp] theorem CoreSt.wf_issueNo (c : CoreSt) (i : Reg) (v : Word) : (c.wf i v).issueNo = c.issueNo := rfl
@[simp] theorem CoreSt.wf_sentNo (c : CoreSt) (i : Reg) (v : Word) : (c.wf i v).sentNo = c.sentNo := rfl
@[simp] theorem CoreSt.wf_dicnt (c : CoreSt) (i : Reg) (v : Word) : (c.wf i v).dicnt = c.dicnt := rfl
@[simp] theorem CoreSt.wf_gang (c : CoreSt) (i : Reg) (v : Word) : (c.wf i v).gang = c.gang := rfl
@[simp] theorem CoreSt.wf_fuse (c : CoreSt) (i : Reg) (v : Word) : (c.wf i v).fuse = c.fuse := rfl
@[simp] theorem CoreSt.wf_arrivals (c : CoreSt) (i : Reg) (v : Word) : (c.wf i v).arrivals = c.arrivals := rfl
@[simp] theorem CoreSt.wf_sstepAt (c : CoreSt) (i : Reg) (v : Word) : (c.wf i v).sstepAt = c.sstepAt := rfl
@[simp] theorem CoreSt.wf_sstepBy (c : CoreSt) (i : Reg) (v : Word) : (c.wf i v).sstepBy = c.sstepBy := rfl
@[simp] theorem CoreSt.wf_sstepDone (c : CoreSt) (i : Reg) (v : Word) : (c.wf i v).sstepDone = c.sstepDone := rfl
@[simp] theorem CoreSt.wf_genNum (c : CoreSt) (i : Reg) (v : Word) : (c.wf i v).genNum = c.genNum := rfl
@[simp] theorem CoreSt.wf_bp (c : CoreSt) (i : Reg) (v : Word) : (c.wf i v).bp = c.bp := rfl
@[simp] theorem CoreSt.wf_wp (c : CoreSt) (i : Reg) (v : Word) : (c.wf i v).wp = c.wp := rfl
@[simp] theorem CoreSt.wf_ibuf (c : CoreSt) (i : Reg) (v : Word) : (c.wf i v).ibuf = c.ibuf := rfl
@[simp] theorem CoreSt.wf_stale (c : CoreSt) (i : Reg) (v : Word) : (c.wf i v).stale = c.stale := rfl
@[simp] theorem CoreSt.wf_stopped (c : CoreSt) (i : Reg) (v : Word) : (c.wf i v).stopped = c.stopped := rfl
@[simp] theorem CoreSt.wf_fcause (c : CoreSt) (i : Reg) (v : Word) : (c.wf i v).fcause = c.fcause := rfl
@[simp] theorem CoreSt.wf_memRw (c : CoreSt) (i : Reg) (v : Word) : (c.wf i v).memRw = c.memRw := rfl
@[simp] theorem CoreSt.wf_stepping (c : CoreSt) (i : Reg) (v : Word) : (c.wf i v).stepping = c.stepping := rfl
@[simp] theorem CoreSt.wf_replay (c : CoreSt) (i : Reg) (v : Word) : (c.wf i v).replay = c.replay := rfl
@[simp] theorem CoreSt.wf_committed (c : CoreSt) (i : Reg) (v : Word) : (c.wf i v).committed = c.committed := rfl
@[simp] theorem CoreSt.wf_logWait (c : CoreSt) (i : Reg) (v : Word) : (c.wf i v).logWait = c.logWait := rfl
@[simp] theorem CoreSt.wf_draining (c : CoreSt) (i : Reg) (v : Word) : (c.wf i v).draining = c.draining := rfl
@[simp] theorem CoreSt.wf_early (c : CoreSt) (i : Reg) (v : Word) : (c.wf i v).early = c.early := rfl
@[simp] theorem CoreSt.wf_fits (c : CoreSt) (i : Reg) (v : Word) : (c.wf i v).fits = c.fits := rfl
@[simp] theorem CoreSt.wf_fitNo (c : CoreSt) (i : Reg) (v : Word) : (c.wf i v).fitNo = c.fitNo := rfl
@[simp] theorem CoreSt.wf_rels (c : CoreSt) (i : Reg) (v : Word) : (c.wf i v).rels = c.rels := rfl
@[simp] theorem CoreSt.wf_heard (c : CoreSt) (i : Reg) (v : Word) : (c.wf i v).heard = c.heard := rfl
@[simp] theorem CoreSt.wf_ctrRels (c : CoreSt) (i : Reg) (v : Word) : (c.wf i v).ctrRels = c.ctrRels := rfl
@[simp] theorem CoreSt.wf_sstepRels (c : CoreSt) (i : Reg) (v : Word) : (c.wf i v).sstepRels = c.sstepRels := rfl
@[simp] theorem CoreSt.wf_hostAmo (c : CoreSt) (i : Reg) (v : Word) : (c.wf i v).hostAmo = c.hostAmo := rfl
@[simp] theorem CoreSt.wf_rewinding (c : CoreSt) (i : Reg) (v : Word) : (c.wf i v).rewinding = c.rewinding := rfl

@[simp] theorem CoreSt.wx_id (c : CoreSt) (i : Reg) (v : Word) : (c.wx i v).id = c.id := by
  unfold CoreSt.wx; split <;> rfl
@[simp] theorem CoreSt.wx_f (c : CoreSt) (i : Reg) (v : Word) : (c.wx i v).f = c.f := by
  unfold CoreSt.wx; split <;> rfl
@[simp] theorem CoreSt.wx_pc (c : CoreSt) (i : Reg) (v : Word) : (c.wx i v).pc = c.pc := by
  unfold CoreSt.wx; split <;> rfl
@[simp] theorem CoreSt.wx_runtime (c : CoreSt) (i : Reg) (v : Word) : (c.wx i v).runtime = c.runtime := by
  unfold CoreSt.wx; split <;> rfl
@[simp] theorem CoreSt.wx_pfx (c : CoreSt) (i : Reg) (v : Word) : (c.wx i v).pfx = c.pfx := by
  unfold CoreSt.wx; split <;> rfl
@[simp] theorem CoreSt.wx_resv (c : CoreSt) (i : Reg) (v : Word) : (c.wx i v).resv = c.resv := by
  unfold CoreSt.wx; split <;> rfl
@[simp] theorem CoreSt.wx_csr (c : CoreSt) (i : Reg) (v : Word) : (c.wx i v).csr = c.csr := by
  unfold CoreSt.wx; split <;> rfl
@[simp] theorem CoreSt.wx_instret (c : CoreSt) (i : Reg) (v : Word) : (c.wx i v).instret = c.instret := by
  unfold CoreSt.wx; split <;> rfl
@[simp] theorem CoreSt.wx_task (c : CoreSt) (i : Reg) (v : Word) : (c.wx i v).task = c.task := by
  unfold CoreSt.wx; split <;> rfl
@[simp] theorem CoreSt.wx_gslSeen (c : CoreSt) (i : Reg) (v : Word) : (c.wx i v).gslSeen = c.gslSeen := by
  unfold CoreSt.wx; split <;> rfl
@[simp] theorem CoreSt.wx_cont (c : CoreSt) (i : Reg) (v : Word) : (c.wx i v).cont = c.cont := by
  unfold CoreSt.wx; split <;> rfl
@[simp] theorem CoreSt.wx_stage (c : CoreSt) (i : Reg) (v : Word) : (c.wx i v).stage = c.stage := by
  unfold CoreSt.wx; split <;> rfl
@[simp] theorem CoreSt.wx_vw (c : CoreSt) (i : Reg) (v : Word) : (c.wx i v).vw = c.vw := by
  unfold CoreSt.wx; split <;> rfl
@[simp] theorem CoreSt.wx_rg (c : CoreSt) (i : Reg) (v : Word) : (c.wx i v).rg = c.rg := by
  unfold CoreSt.wx; split <;> rfl
@[simp] theorem CoreSt.wx_rgp (c : CoreSt) (i : Reg) (v : Word) : (c.wx i v).rgp = c.rgp := by
  unfold CoreSt.wx; split <;> rfl
@[simp] theorem CoreSt.wx_reg (c : CoreSt) (i : Reg) (v : Word) : (c.wx i v).reg = c.reg := by
  unfold CoreSt.wx; split <;> rfl
@[simp] theorem CoreSt.wx_scratch (c : CoreSt) (i : Reg) (v : Word) : (c.wx i v).scratch = c.scratch := by
  unfold CoreSt.wx; split <;> rfl
@[simp] theorem CoreSt.wx_wLines (c : CoreSt) (i : Reg) (v : Word) : (c.wx i v).wLines = c.wLines := by
  unfold CoreSt.wx; split <;> rfl
@[simp] theorem CoreSt.wx_sLines (c : CoreSt) (i : Reg) (v : Word) : (c.wx i v).sLines = c.sLines := by
  unfold CoreSt.wx; split <;> rfl
@[simp] theorem CoreSt.wx_ctrs (c : CoreSt) (i : Reg) (v : Word) : (c.wx i v).ctrs = c.ctrs := by
  unfold CoreSt.wx; split <;> rfl
@[simp] theorem CoreSt.wx_waiting (c : CoreSt) (i : Reg) (v : Word) : (c.wx i v).waiting = c.waiting := by
  unfold CoreSt.wx; split <;> rfl
@[simp] theorem CoreSt.wx_inbox (c : CoreSt) (i : Reg) (v : Word) : (c.wx i v).inbox = c.inbox := by
  unfold CoreSt.wx; split <;> rfl
@[simp] theorem CoreSt.wx_outq (c : CoreSt) (i : Reg) (v : Word) : (c.wx i v).outq = c.outq := by
  unfold CoreSt.wx; split <;> rfl
@[simp] theorem CoreSt.wx_eqm (c : CoreSt) (i : Reg) (v : Word) : (c.wx i v).eqm = c.eqm := by
  unfold CoreSt.wx; split <;> rfl
@[simp] theorem CoreSt.wx_eqv (c : CoreSt) (i : Reg) (v : Word) : (c.wx i v).eqv = c.eqv := by
  unfold CoreSt.wx; split <;> rfl
@[simp] theorem CoreSt.wx_eqc (c : CoreSt) (i : Reg) (v : Word) : (c.wx i v).eqc = c.eqc := by
  unfold CoreSt.wx; split <;> rfl
@[simp] theorem CoreSt.wx_eqp (c : CoreSt) (i : Reg) (v : Word) : (c.wx i v).eqp = c.eqp := by
  unfold CoreSt.wx; split <;> rfl
@[simp] theorem CoreSt.wx_flights (c : CoreSt) (i : Reg) (v : Word) : (c.wx i v).flights = c.flights := by
  unfold CoreSt.wx; split <;> rfl
@[simp] theorem CoreSt.wx_sb (c : CoreSt) (i : Reg) (v : Word) : (c.wx i v).sb = c.sb := by
  unfold CoreSt.wx; split <;> rfl
@[simp] theorem CoreSt.wx_late (c : CoreSt) (i : Reg) (v : Word) : (c.wx i v).late = c.late := by
  unfold CoreSt.wx; split <;> rfl
@[simp] theorem CoreSt.wx_pend (c : CoreSt) (i : Reg) (v : Word) : (c.wx i v).pend = c.pend := by
  unfold CoreSt.wx; split <;> rfl
@[simp] theorem CoreSt.wx_due (c : CoreSt) (i : Reg) (v : Word) : (c.wx i v).due = c.due := by
  unfold CoreSt.wx; split <;> rfl
@[simp] theorem CoreSt.wx_win (c : CoreSt) (i : Reg) (v : Word) : (c.wx i v).win = c.win := by
  unfold CoreSt.wx; split <;> rfl
@[simp] theorem CoreSt.wx_ckpts (c : CoreSt) (i : Reg) (v : Word) : (c.wx i v).ckpts = c.ckpts := by
  unfold CoreSt.wx; split <;> rfl
@[simp] theorem CoreSt.wx_inputs (c : CoreSt) (i : Reg) (v : Word) : (c.wx i v).inputs = c.inputs := by
  unfold CoreSt.wx; split <;> rfl
@[simp] theorem CoreSt.wx_storeSeq (c : CoreSt) (i : Reg) (v : Word) : (c.wx i v).storeSeq = c.storeSeq := by
  unfold CoreSt.wx; split <;> rfl
@[simp] theorem CoreSt.wx_reqSeq (c : CoreSt) (i : Reg) (v : Word) : (c.wx i v).reqSeq = c.reqSeq := by
  unfold CoreSt.wx; split <;> rfl
@[simp] theorem CoreSt.wx_rqout (c : CoreSt) (i : Reg) (v : Word) : (c.wx i v).rqout = c.rqout := by
  unfold CoreSt.wx; split <;> rfl
@[simp] theorem CoreSt.wx_issueNo (c : CoreSt) (i : Reg) (v : Word) : (c.wx i v).issueNo = c.issueNo := by
  unfold CoreSt.wx; split <;> rfl
@[simp] theorem CoreSt.wx_sentNo (c : CoreSt) (i : Reg) (v : Word) : (c.wx i v).sentNo = c.sentNo := by
  unfold CoreSt.wx; split <;> rfl
@[simp] theorem CoreSt.wx_dicnt (c : CoreSt) (i : Reg) (v : Word) : (c.wx i v).dicnt = c.dicnt := by
  unfold CoreSt.wx; split <;> rfl
@[simp] theorem CoreSt.wx_gang (c : CoreSt) (i : Reg) (v : Word) : (c.wx i v).gang = c.gang := by
  unfold CoreSt.wx; split <;> rfl
@[simp] theorem CoreSt.wx_fuse (c : CoreSt) (i : Reg) (v : Word) : (c.wx i v).fuse = c.fuse := by
  unfold CoreSt.wx; split <;> rfl
@[simp] theorem CoreSt.wx_arrivals (c : CoreSt) (i : Reg) (v : Word) : (c.wx i v).arrivals = c.arrivals := by
  unfold CoreSt.wx; split <;> rfl
@[simp] theorem CoreSt.wx_sstepAt (c : CoreSt) (i : Reg) (v : Word) : (c.wx i v).sstepAt = c.sstepAt := by
  unfold CoreSt.wx; split <;> rfl
@[simp] theorem CoreSt.wx_sstepBy (c : CoreSt) (i : Reg) (v : Word) : (c.wx i v).sstepBy = c.sstepBy := by
  unfold CoreSt.wx; split <;> rfl
@[simp] theorem CoreSt.wx_sstepDone (c : CoreSt) (i : Reg) (v : Word) : (c.wx i v).sstepDone = c.sstepDone := by
  unfold CoreSt.wx; split <;> rfl
@[simp] theorem CoreSt.wx_genNum (c : CoreSt) (i : Reg) (v : Word) : (c.wx i v).genNum = c.genNum := by
  unfold CoreSt.wx; split <;> rfl
@[simp] theorem CoreSt.wx_bp (c : CoreSt) (i : Reg) (v : Word) : (c.wx i v).bp = c.bp := by
  unfold CoreSt.wx; split <;> rfl
@[simp] theorem CoreSt.wx_wp (c : CoreSt) (i : Reg) (v : Word) : (c.wx i v).wp = c.wp := by
  unfold CoreSt.wx; split <;> rfl
@[simp] theorem CoreSt.wx_ibuf (c : CoreSt) (i : Reg) (v : Word) : (c.wx i v).ibuf = c.ibuf := by
  unfold CoreSt.wx; split <;> rfl
@[simp] theorem CoreSt.wx_stale (c : CoreSt) (i : Reg) (v : Word) : (c.wx i v).stale = c.stale := by
  unfold CoreSt.wx; split <;> rfl
@[simp] theorem CoreSt.wx_stopped (c : CoreSt) (i : Reg) (v : Word) : (c.wx i v).stopped = c.stopped := by
  unfold CoreSt.wx; split <;> rfl
@[simp] theorem CoreSt.wx_fcause (c : CoreSt) (i : Reg) (v : Word) : (c.wx i v).fcause = c.fcause := by
  unfold CoreSt.wx; split <;> rfl
@[simp] theorem CoreSt.wx_memRw (c : CoreSt) (i : Reg) (v : Word) : (c.wx i v).memRw = c.memRw := by
  unfold CoreSt.wx; split <;> rfl
@[simp] theorem CoreSt.wx_stepping (c : CoreSt) (i : Reg) (v : Word) : (c.wx i v).stepping = c.stepping := by
  unfold CoreSt.wx; split <;> rfl
@[simp] theorem CoreSt.wx_replay (c : CoreSt) (i : Reg) (v : Word) : (c.wx i v).replay = c.replay := by
  unfold CoreSt.wx; split <;> rfl
@[simp] theorem CoreSt.wx_committed (c : CoreSt) (i : Reg) (v : Word) : (c.wx i v).committed = c.committed := by
  unfold CoreSt.wx; split <;> rfl
@[simp] theorem CoreSt.wx_logWait (c : CoreSt) (i : Reg) (v : Word) : (c.wx i v).logWait = c.logWait := by
  unfold CoreSt.wx; split <;> rfl
@[simp] theorem CoreSt.wx_draining (c : CoreSt) (i : Reg) (v : Word) : (c.wx i v).draining = c.draining := by
  unfold CoreSt.wx; split <;> rfl
@[simp] theorem CoreSt.wx_early (c : CoreSt) (i : Reg) (v : Word) : (c.wx i v).early = c.early := by
  unfold CoreSt.wx; split <;> rfl
@[simp] theorem CoreSt.wx_fits (c : CoreSt) (i : Reg) (v : Word) : (c.wx i v).fits = c.fits := by
  unfold CoreSt.wx; split <;> rfl
@[simp] theorem CoreSt.wx_fitNo (c : CoreSt) (i : Reg) (v : Word) : (c.wx i v).fitNo = c.fitNo := by
  unfold CoreSt.wx; split <;> rfl
@[simp] theorem CoreSt.wx_rels (c : CoreSt) (i : Reg) (v : Word) : (c.wx i v).rels = c.rels := by
  unfold CoreSt.wx; split <;> rfl
@[simp] theorem CoreSt.wx_heard (c : CoreSt) (i : Reg) (v : Word) : (c.wx i v).heard = c.heard := by
  unfold CoreSt.wx; split <;> rfl
@[simp] theorem CoreSt.wx_ctrRels (c : CoreSt) (i : Reg) (v : Word) : (c.wx i v).ctrRels = c.ctrRels := by
  unfold CoreSt.wx; split <;> rfl
@[simp] theorem CoreSt.wx_sstepRels (c : CoreSt) (i : Reg) (v : Word) : (c.wx i v).sstepRels = c.sstepRels := by
  unfold CoreSt.wx; split <;> rfl
@[simp] theorem CoreSt.wx_hostAmo (c : CoreSt) (i : Reg) (v : Word) : (c.wx i v).hostAmo = c.hostAmo := by
  unfold CoreSt.wx; split <;> rfl
@[simp] theorem CoreSt.wx_rewinding (c : CoreSt) (i : Reg) (v : Word) : (c.wx i v).rewinding = c.rewinding := by
  unfold CoreSt.wx; split <;> rfl

@[simp] theorem CoreSt.setQueue_id (c : CoreSt) (q : Queue) (e : EQueue) : (c.setQueue q e).id = c.id := by
  cases q <;> rfl
@[simp] theorem CoreSt.setQueue_x (c : CoreSt) (q : Queue) (e : EQueue) : (c.setQueue q e).x = c.x := by
  cases q <;> rfl
@[simp] theorem CoreSt.setQueue_f (c : CoreSt) (q : Queue) (e : EQueue) : (c.setQueue q e).f = c.f := by
  cases q <;> rfl
@[simp] theorem CoreSt.setQueue_pc (c : CoreSt) (q : Queue) (e : EQueue) : (c.setQueue q e).pc = c.pc := by
  cases q <;> rfl
@[simp] theorem CoreSt.setQueue_runtime (c : CoreSt) (q : Queue) (e : EQueue) : (c.setQueue q e).runtime = c.runtime := by
  cases q <;> rfl
@[simp] theorem CoreSt.setQueue_pfx (c : CoreSt) (q : Queue) (e : EQueue) : (c.setQueue q e).pfx = c.pfx := by
  cases q <;> rfl
@[simp] theorem CoreSt.setQueue_resv (c : CoreSt) (q : Queue) (e : EQueue) : (c.setQueue q e).resv = c.resv := by
  cases q <;> rfl
@[simp] theorem CoreSt.setQueue_csr (c : CoreSt) (q : Queue) (e : EQueue) : (c.setQueue q e).csr = c.csr := by
  cases q <;> rfl
@[simp] theorem CoreSt.setQueue_instret (c : CoreSt) (q : Queue) (e : EQueue) : (c.setQueue q e).instret = c.instret := by
  cases q <;> rfl
@[simp] theorem CoreSt.setQueue_task (c : CoreSt) (q : Queue) (e : EQueue) : (c.setQueue q e).task = c.task := by
  cases q <;> rfl
@[simp] theorem CoreSt.setQueue_gslSeen (c : CoreSt) (q : Queue) (e : EQueue) : (c.setQueue q e).gslSeen = c.gslSeen := by
  cases q <;> rfl
@[simp] theorem CoreSt.setQueue_cont (c : CoreSt) (q : Queue) (e : EQueue) : (c.setQueue q e).cont = c.cont := by
  cases q <;> rfl
@[simp] theorem CoreSt.setQueue_stage (c : CoreSt) (q : Queue) (e : EQueue) : (c.setQueue q e).stage = c.stage := by
  cases q <;> rfl
@[simp] theorem CoreSt.setQueue_vw (c : CoreSt) (q : Queue) (e : EQueue) : (c.setQueue q e).vw = c.vw := by
  cases q <;> rfl
@[simp] theorem CoreSt.setQueue_rg (c : CoreSt) (q : Queue) (e : EQueue) : (c.setQueue q e).rg = c.rg := by
  cases q <;> rfl
@[simp] theorem CoreSt.setQueue_rgp (c : CoreSt) (q : Queue) (e : EQueue) : (c.setQueue q e).rgp = c.rgp := by
  cases q <;> rfl
@[simp] theorem CoreSt.setQueue_reg (c : CoreSt) (q : Queue) (e : EQueue) : (c.setQueue q e).reg = c.reg := by
  cases q <;> rfl
@[simp] theorem CoreSt.setQueue_scratch (c : CoreSt) (q : Queue) (e : EQueue) : (c.setQueue q e).scratch = c.scratch := by
  cases q <;> rfl
@[simp] theorem CoreSt.setQueue_wLines (c : CoreSt) (q : Queue) (e : EQueue) : (c.setQueue q e).wLines = c.wLines := by
  cases q <;> rfl
@[simp] theorem CoreSt.setQueue_wRegs (c : CoreSt) (q : Queue) (e : EQueue) : (c.setQueue q e).wRegs = c.wRegs := by
  cases q <;> rfl
@[simp] theorem CoreSt.setQueue_sLines (c : CoreSt) (q : Queue) (e : EQueue) : (c.setQueue q e).sLines = c.sLines := by
  cases q <;> rfl
@[simp] theorem CoreSt.setQueue_sRegs (c : CoreSt) (q : Queue) (e : EQueue) : (c.setQueue q e).sRegs = c.sRegs := by
  cases q <;> rfl
@[simp] theorem CoreSt.setQueue_ctrs (c : CoreSt) (q : Queue) (e : EQueue) : (c.setQueue q e).ctrs = c.ctrs := by
  cases q <;> rfl
@[simp] theorem CoreSt.setQueue_waiting (c : CoreSt) (q : Queue) (e : EQueue) : (c.setQueue q e).waiting = c.waiting := by
  cases q <;> rfl
@[simp] theorem CoreSt.setQueue_inbox (c : CoreSt) (q : Queue) (e : EQueue) : (c.setQueue q e).inbox = c.inbox := by
  cases q <;> rfl
@[simp] theorem CoreSt.setQueue_outq (c : CoreSt) (q : Queue) (e : EQueue) : (c.setQueue q e).outq = c.outq := by
  cases q <;> rfl
@[simp] theorem CoreSt.setQueue_flights (c : CoreSt) (q : Queue) (e : EQueue) : (c.setQueue q e).flights = c.flights := by
  cases q <;> rfl
@[simp] theorem CoreSt.setQueue_sb (c : CoreSt) (q : Queue) (e : EQueue) : (c.setQueue q e).sb = c.sb := by
  cases q <;> rfl
@[simp] theorem CoreSt.setQueue_late (c : CoreSt) (q : Queue) (e : EQueue) : (c.setQueue q e).late = c.late := by
  cases q <;> rfl
@[simp] theorem CoreSt.setQueue_pend (c : CoreSt) (q : Queue) (e : EQueue) : (c.setQueue q e).pend = c.pend := by
  cases q <;> rfl
@[simp] theorem CoreSt.setQueue_due (c : CoreSt) (q : Queue) (e : EQueue) : (c.setQueue q e).due = c.due := by
  cases q <;> rfl
@[simp] theorem CoreSt.setQueue_win (c : CoreSt) (q : Queue) (e : EQueue) : (c.setQueue q e).win = c.win := by
  cases q <;> rfl
@[simp] theorem CoreSt.setQueue_ckpts (c : CoreSt) (q : Queue) (e : EQueue) : (c.setQueue q e).ckpts = c.ckpts := by
  cases q <;> rfl
@[simp] theorem CoreSt.setQueue_inputs (c : CoreSt) (q : Queue) (e : EQueue) : (c.setQueue q e).inputs = c.inputs := by
  cases q <;> rfl
@[simp] theorem CoreSt.setQueue_storeSeq (c : CoreSt) (q : Queue) (e : EQueue) : (c.setQueue q e).storeSeq = c.storeSeq := by
  cases q <;> rfl
@[simp] theorem CoreSt.setQueue_reqSeq (c : CoreSt) (q : Queue) (e : EQueue) : (c.setQueue q e).reqSeq = c.reqSeq := by
  cases q <;> rfl
@[simp] theorem CoreSt.setQueue_rqout (c : CoreSt) (q : Queue) (e : EQueue) : (c.setQueue q e).rqout = c.rqout := by
  cases q <;> rfl
@[simp] theorem CoreSt.setQueue_issueNo (c : CoreSt) (q : Queue) (e : EQueue) : (c.setQueue q e).issueNo = c.issueNo := by
  cases q <;> rfl
@[simp] theorem CoreSt.setQueue_sentNo (c : CoreSt) (q : Queue) (e : EQueue) : (c.setQueue q e).sentNo = c.sentNo := by
  cases q <;> rfl
@[simp] theorem CoreSt.setQueue_dicnt (c : CoreSt) (q : Queue) (e : EQueue) : (c.setQueue q e).dicnt = c.dicnt := by
  cases q <;> rfl
@[simp] theorem CoreSt.setQueue_gang (c : CoreSt) (q : Queue) (e : EQueue) : (c.setQueue q e).gang = c.gang := by
  cases q <;> rfl
@[simp] theorem CoreSt.setQueue_fuse (c : CoreSt) (q : Queue) (e : EQueue) : (c.setQueue q e).fuse = c.fuse := by
  cases q <;> rfl
@[simp] theorem CoreSt.setQueue_arrivals (c : CoreSt) (q : Queue) (e : EQueue) : (c.setQueue q e).arrivals = c.arrivals := by
  cases q <;> rfl
@[simp] theorem CoreSt.setQueue_sstepAt (c : CoreSt) (q : Queue) (e : EQueue) : (c.setQueue q e).sstepAt = c.sstepAt := by
  cases q <;> rfl
@[simp] theorem CoreSt.setQueue_sstepBy (c : CoreSt) (q : Queue) (e : EQueue) : (c.setQueue q e).sstepBy = c.sstepBy := by
  cases q <;> rfl
@[simp] theorem CoreSt.setQueue_sstepDone (c : CoreSt) (q : Queue) (e : EQueue) : (c.setQueue q e).sstepDone = c.sstepDone := by
  cases q <;> rfl
@[simp] theorem CoreSt.setQueue_genNum (c : CoreSt) (q : Queue) (e : EQueue) : (c.setQueue q e).genNum = c.genNum := by
  cases q <;> rfl
@[simp] theorem CoreSt.setQueue_bp (c : CoreSt) (q : Queue) (e : EQueue) : (c.setQueue q e).bp = c.bp := by
  cases q <;> rfl
@[simp] theorem CoreSt.setQueue_wp (c : CoreSt) (q : Queue) (e : EQueue) : (c.setQueue q e).wp = c.wp := by
  cases q <;> rfl
@[simp] theorem CoreSt.setQueue_ibuf (c : CoreSt) (q : Queue) (e : EQueue) : (c.setQueue q e).ibuf = c.ibuf := by
  cases q <;> rfl
@[simp] theorem CoreSt.setQueue_stale (c : CoreSt) (q : Queue) (e : EQueue) : (c.setQueue q e).stale = c.stale := by
  cases q <;> rfl
@[simp] theorem CoreSt.setQueue_stopped (c : CoreSt) (q : Queue) (e : EQueue) : (c.setQueue q e).stopped = c.stopped := by
  cases q <;> rfl
@[simp] theorem CoreSt.setQueue_fcause (c : CoreSt) (q : Queue) (e : EQueue) : (c.setQueue q e).fcause = c.fcause := by
  cases q <;> rfl
@[simp] theorem CoreSt.setQueue_memRw (c : CoreSt) (q : Queue) (e : EQueue) : (c.setQueue q e).memRw = c.memRw := by
  cases q <;> rfl
@[simp] theorem CoreSt.setQueue_stepping (c : CoreSt) (q : Queue) (e : EQueue) : (c.setQueue q e).stepping = c.stepping := by
  cases q <;> rfl
@[simp] theorem CoreSt.setQueue_replay (c : CoreSt) (q : Queue) (e : EQueue) : (c.setQueue q e).replay = c.replay := by
  cases q <;> rfl
@[simp] theorem CoreSt.setQueue_committed (c : CoreSt) (q : Queue) (e : EQueue) : (c.setQueue q e).committed = c.committed := by
  cases q <;> rfl
@[simp] theorem CoreSt.setQueue_logWait (c : CoreSt) (q : Queue) (e : EQueue) : (c.setQueue q e).logWait = c.logWait := by
  cases q <;> rfl
@[simp] theorem CoreSt.setQueue_draining (c : CoreSt) (q : Queue) (e : EQueue) : (c.setQueue q e).draining = c.draining := by
  cases q <;> rfl
@[simp] theorem CoreSt.setQueue_early (c : CoreSt) (q : Queue) (e : EQueue) : (c.setQueue q e).early = c.early := by
  cases q <;> rfl
@[simp] theorem CoreSt.setQueue_fits (c : CoreSt) (q : Queue) (e : EQueue) : (c.setQueue q e).fits = c.fits := by
  cases q <;> rfl
@[simp] theorem CoreSt.setQueue_fitNo (c : CoreSt) (q : Queue) (e : EQueue) : (c.setQueue q e).fitNo = c.fitNo := by
  cases q <;> rfl
@[simp] theorem CoreSt.setQueue_rels (c : CoreSt) (q : Queue) (e : EQueue) : (c.setQueue q e).rels = c.rels := by
  cases q <;> rfl
@[simp] theorem CoreSt.setQueue_heard (c : CoreSt) (q : Queue) (e : EQueue) : (c.setQueue q e).heard = c.heard := by
  cases q <;> rfl
@[simp] theorem CoreSt.setQueue_ctrRels (c : CoreSt) (q : Queue) (e : EQueue) : (c.setQueue q e).ctrRels = c.ctrRels := by
  cases q <;> rfl
@[simp] theorem CoreSt.setQueue_sstepRels (c : CoreSt) (q : Queue) (e : EQueue) : (c.setQueue q e).sstepRels = c.sstepRels := by
  cases q <;> rfl
@[simp] theorem CoreSt.setQueue_hostAmo (c : CoreSt) (q : Queue) (e : EQueue) : (c.setQueue q e).hostAmo = c.hostAmo := by
  cases q <;> rfl
@[simp] theorem CoreSt.setQueue_rewinding (c : CoreSt) (q : Queue) (e : EQueue) : (c.setQueue q e).rewinding = c.rewinding := by
  cases q <;> rfl

end Sys2Proof.Machine
end

