-- ==== Sys2Proof/Laws/Access.lean ====
section
/-! SUPPORT. Reading back what the accessors write: cores, contexts, dies, general and float registers. -/

namespace Sys2Proof.Machine

/-! ### Cores -/

theorem find_map_core (l : List CoreSt) (id i : CoreId) (f : CoreSt → CoreSt) :
    (l.map (fun c => if c.id = id then { f c with id := c.id } else c)).find? (fun c => c.id == i)
      = (l.find? (fun c => c.id == i)).map (fun c => if c.id = id then { f c with id := c.id } else c) := by
  induction l with
  | nil => rfl
  | cons a l ih =>
    by_cases h : a.id = id <;> by_cases hi : a.id = i <;> simp_all

theorem State.core?_modCore (s : State) (id i : CoreId) (f : CoreSt → CoreSt) :
    (s.modCore id f).core? i = (s.core? i).map (fun c => if c.id = id then { f c with id := c.id } else c) :=
  find_map_core s.cores id i f

theorem State.core?_id {s : State} {i : CoreId} {c : CoreSt} (h : s.core? i = some c) : c.id = i := by
  simpa using List.find?_some h

/-- A core found by its number has that number; an absent one reads as freshly created. -/
@[simp] theorem State.core_id (s : State) (i : CoreId) : (s.core i).id = i := by
  unfold State.core
  cases h : s.core? i with
  | none => rfl
  | some c => exact State.core?_id h

@[simp] theorem State.hasCore_modCore (s : State) (id i : CoreId) (f : CoreSt → CoreSt) :
    (s.modCore id f).hasCore i = s.hasCore i := by
  simp [State.hasCore, State.core?_modCore]

theorem State.core_modCore_self {s : State} {id : CoreId} (f : CoreSt → CoreSt) (h : s.hasCore id = true) :
    (s.modCore id f).core id = { f (s.core id) with id := id } := by
  unfold State.core
  obtain ⟨c, hc⟩ := Option.isSome_iff_exists.mp h
  have hid := State.core?_id hc
  simp [State.core?_modCore, hc, hid]

/-- A core with the number it had is the core that `modCore` leaves. -/
theorem State.core_modCore_eq {s : State} {id : CoreId} {f : CoreSt → CoreSt} (h : s.hasCore id = true)
    (hf : (f (s.core id)).id = id) : (s.modCore id f).core id = f (s.core id) := by
  rw [State.core_modCore_self f h]
  generalize f (s.core id) = c at *
  cases c; simp_all

theorem State.core_modCore_ne {s : State} {id i : CoreId} (f : CoreSt → CoreSt) (h : i ≠ id) :
    (s.modCore id f).core i = s.core i := by
  unfold State.core
  rw [State.core?_modCore]
  cases hc : s.core? i with
  | none => rfl
  | some c =>
    have hid := State.core?_id hc
    simp [hid, h]

@[simp] theorem State.core_congr (s : State) (i : CoreId) (cs : List CoreSt) (h : cs = s.cores) :
    ({ s with cores := cs } : State).core i = s.core i := by
  subst h; rfl

@[simp] theorem State.core_modCtx (s : State) (a : Nat) (f : Ctx → Ctx) (i : CoreId) : (s.modCtx a f).core i = s.core i := rfl
@[simp] theorem State.core_modDie (s : State) (d : Nat) (f : Die → Die) (i : CoreId) : (s.modDie d f).core i = s.core i := rfl
@[simp] theorem State.core_bump (s : State) (i : CoreId) : s.bump.core i = s.core i := rfl
@[simp] theorem State.hasCore_modCtx (s : State) (a : Nat) (f : Ctx → Ctx) (i : CoreId) : (s.modCtx a f).hasCore i = s.hasCore i := rfl
@[simp] theorem State.hasCore_modDie (s : State) (d : Nat) (f : Die → Die) (i : CoreId) : (s.modDie d f).hasCore i = s.hasCore i := rfl
@[simp] theorem State.hasCore_bump (s : State) (i : CoreId) : s.bump.hasCore i = s.hasCore i := rfl
@[simp] theorem State.hasCore_retire (s : State) (i : CoreId) : s.retire.hasCore i = s.hasCore i :=
  State.hasCore_modCore s _ i _

/-! ### Contexts and dies -/

@[simp] theorem State.ctx_modCore (s : State) (id : CoreId) (f : CoreSt → CoreSt) (a : Nat) : (s.modCore id f).ctx a = s.ctx a := rfl
@[simp] theorem State.ctx_modDie (s : State) (d : Nat) (f : Die → Die) (a : Nat) : (s.modDie d f).ctx a = s.ctx a := rfl
@[simp] theorem State.ctx_bump (s : State) (a : Nat) : s.bump.ctx a = s.ctx a := rfl
@[simp] theorem State.ctx_retire (s : State) (a : Nat) : s.retire.ctx a = s.ctx a := rfl
@[simp] theorem State.die_modCore (s : State) (id : CoreId) (f : CoreSt → CoreSt) (d : Nat) : (s.modCore id f).die d = s.die d := rfl
@[simp] theorem State.die_modCtx (s : State) (a : Nat) (f : Ctx → Ctx) (d : Nat) : (s.modCtx a f).die d = s.die d := rfl
@[simp] theorem State.die_bump (s : State) (d : Nat) : s.bump.die d = s.die d := rfl
@[simp] theorem State.die_retire (s : State) (d : Nat) : s.retire.die d = s.die d := rfl
@[simp] theorem State.dieOf_modCore (s : State) (id : CoreId) (f : CoreSt → CoreSt) (i : CoreId) : (s.modCore id f).dieOf i = s.dieOf i := rfl
@[simp] theorem State.dieOf_modDie (s : State) (d : Nat) (f : Die → Die) (i : CoreId) : (s.modDie d f).dieOf i = s.dieOf i := rfl

theorem find_map_ctx (l : List Ctx) (a i : Nat) (f : Ctx → Ctx) :
    (l.map (fun c => if c.asid = a then { f c with asid := c.asid } else c)).find? (fun c => c.asid == i)
      = (l.find? (fun c => c.asid == i)).map (fun c => if c.asid = a then { f c with asid := c.asid } else c) := by
  induction l with
  | nil => rfl
  | cons c l ih =>
    by_cases h : c.asid = a <;> by_cases hi : c.asid = i <;> simp_all

theorem State.ctx?_asid {s : State} {a : Nat} {x : Ctx} (h : s.ctx? a = some x) : x.asid = a := by
  simpa using List.find?_some h

@[simp] theorem State.ctx_asid (s : State) (a : Nat) : (s.ctx a).asid = a := by
  unfold State.ctx
  cases h : s.ctx? a with
  | none => rfl
  | some x => exact State.ctx?_asid h

theorem State.ctx?_modCtx (s : State) (a i : Nat) (f : Ctx → Ctx) :
    (s.modCtx a f).ctx? i = (s.ctx? i).map (fun c => if c.asid = a then { f c with asid := c.asid } else c) :=
  find_map_ctx s.ctxs a i f

theorem State.ctx_modCtx_self {s : State} {a : Nat} (f : Ctx → Ctx) (h : (s.ctx? a).isSome = true) :
    (s.modCtx a f).ctx a = { f (s.ctx a) with asid := a } := by
  unfold State.ctx
  obtain ⟨x, hx⟩ := Option.isSome_iff_exists.mp h
  have ha := State.ctx?_asid hx
  simp [State.ctx?_modCtx, hx, ha]

theorem State.ctx_modCtx_ne {s : State} {a i : Nat} (f : Ctx → Ctx) (h : i ≠ a) : (s.modCtx a f).ctx i = s.ctx i := by
  unfold State.ctx
  rw [State.ctx?_modCtx]
  cases hx : s.ctx? i with
  | none => rfl
  | some x =>
    have ha := State.ctx?_asid hx
    simp [ha, h]

/-! ### Registers -/

@[simp] theorem CoreSt.rx_zero (c : CoreSt) : c.rx 0 = 0 := rfl

@[simp] theorem CoreSt.wx_zero (c : CoreSt) (v : Word) : c.wx 0 v = c := rfl

theorem CoreSt.rx_wx (c : CoreSt) (i j : Reg) (v : Word) : (c.wx i v).rx j = if j = i ∧ i ≠ 0 then v else c.rx j := by
  by_cases hi : i = 0
  · subst hi; rw [CoreSt.wx_zero]; simp
  by_cases hj : j = 0
  · subst hj
    rw [CoreSt.rx_zero, CoreSt.rx_zero, if_neg]
    rintro ⟨rfl, h⟩; exact h rfl
  unfold CoreSt.wx CoreSt.rx
  rw [if_neg hi, if_neg hj, if_neg hj]
  by_cases h : j = i
  · subst h; simp only [CoreSt.dirtyReg, ne_eq, hj, not_false_eq_true, and_self, if_true, Vector.getElem_set_self]
  · have hn : i.toNat ≠ j.toNat := fun e => h (BitVec.eq_of_toNat_eq e.symm)
    simp only [CoreSt.dirtyReg, h, false_and, if_false]
    exact Vector.getElem_set_ne _ _ hn

theorem CoreSt.rx_wx_self {c : CoreSt} {i : Reg} (v : Word) (h : i ≠ 0) : (c.wx i v).rx i = v := by
  rw [CoreSt.rx_wx, if_pos ⟨rfl, h⟩]

theorem CoreSt.rx_wx_ne {c : CoreSt} {i j : Reg} (v : Word) (h : j ≠ i) : (c.wx i v).rx j = c.rx j := by
  simp [CoreSt.rx_wx, h]

theorem CoreSt.rf_wf (c : CoreSt) (i j : Reg) (v : Word) : (c.wf i v).rf j = if j = i then v else c.rf j := by
  unfold CoreSt.wf CoreSt.rf
  by_cases h : j = i
  · subst h; simp [CoreSt.dirtyReg]
  · have hn : i.toNat ≠ j.toNat := fun e => h (BitVec.eq_of_toNat_eq e.symm)
    simp [h, CoreSt.dirtyReg, hn]

@[simp] theorem CoreSt.rf_wx (c : CoreSt) (i j : Reg) (v : Word) : (c.wx i v).rf j = c.rf j := by
  simp [CoreSt.rf]

@[simp] theorem CoreSt.rx_wf (c : CoreSt) (i j : Reg) (v : Word) : (c.wf i v).rx j = c.rx j := by
  simp [CoreSt.rx]

end Sys2Proof.Machine
end

