-- ==== Sys2Proof/Laws/Ops.lean ====
section
/-! SUPPORT. What the operations that every scalar meaning is built from can do: how an instruction ends, what each
operation does on a core with nothing on its way, and what taking a trap writes. -/

namespace Sys2Proof.Machine

/-! ### Sequencing -/

theorem M.bind_ok {α β : Type} {m : M α} {k : α → M β} {s s' : State} {a : α} (h : m s = .ok (a, s')) :
    (m >>= k) s = k a s' := by
  show StateT.bind m k s = _
  unfold StateT.bind
  rw [h]; rfl

theorem M.bind_error {α β : Type} {m : M α} {k : α → M β} {s : State} {e : Stop} (h : m s = .error e) :
    (m >>= k) s = .error e := by
  show StateT.bind m k s = _
  unfold StateT.bind
  rw [h]; rfl

@[simp] theorem M.pure_apply {α : Type} (a : α) (s : State) : (pure a : M α) s = .ok (a, s) := rfl
@[simp] theorem M.bind_pure {α β : Type} (a : α) (k : α → M β) (s : State) : ((pure a : M α) >>= k) s = k a s := rfl
@[simp] theorem M.bind_me {β : Type} (k : CoreSt → M β) (s : State) : (me >>= k) s = k (s.core s.cur) s := rfl
@[simp] theorem M.bind_myId {β : Type} (k : CoreId → M β) (s : State) : (myId >>= k) s = k s.cur s := rfl
@[simp] theorem M.bind_myCtx {β : Type} (k : Ctx → M β) (s : State) : (myCtx >>= k) s = k (s.ctx s.cur.asid) s := rfl
@[simp] theorem M.bind_get {β : Type} (k : State → M β) (s : State) : ((get : M State) >>= k) s = k s s := rfl
@[simp] theorem M.bind_rxM {β : Type} (i : Reg) (k : Word → M β) (s : State) : (rxM i >>= k) s = k ((s.core s.cur).rx i) s := rfl
@[simp] theorem M.bind_rfM {β : Type} (i : Reg) (k : Word → M β) (s : State) : (rfM i >>= k) s = k ((s.core s.cur).rf i) s := rfl
@[simp] theorem M.bind_modMe {β : Type} (f : CoreSt → CoreSt) (k : Unit → M β) (s : State) :
    (modMe f >>= k) s = k () (s.modCore s.cur f) := rfl
@[simp] theorem M.bind_wxM {β : Type} (i : Reg) (v : Word) (k : Unit → M β) (s : State) :
    (wxM i v >>= k) s = k () (s.modCore s.cur (fun c => c.wx i v)) := rfl
@[simp] theorem M.bind_wfM {β : Type} (i : Reg) (v : Word) (k : Unit → M β) (s : State) :
    (wfM i v >>= k) s = k () (s.modCore s.cur (fun c => c.wf i v)) := rfl
@[simp] theorem M.bind_updM {β : Type} (f : State → State) (k : Unit → M β) (s : State) : (updM f >>= k) s = k () (f s) := rfl
@[simp] theorem M.bind_trapM {α β : Type} (t : TrapInfo) (k : α → M β) (s : State) : ((trapM t : M α) >>= k) s = .error (.trap t) := rfl
@[simp] theorem M.bind_takeSeq {β : Type} (k : Nat → M β) (s : State) : (takeSeq >>= k) s =
    k (s.core s.cur).storeSeq.toNat (s.modCore s.cur (fun c => { c with storeSeq := c.storeSeq + 1 })) := rfl
@[simp] theorem M.bind_takeRq {β : Type} (k : Nat → M β) (s : State) : (takeRq >>= k) s =
    k (s.core s.cur).reqSeq.toNat (s.modCore s.cur (fun c => { c with reqSeq := c.reqSeq + 1 })) := rfl
@[simp] theorem M.modMe_apply (f : CoreSt → CoreSt) (s : State) : modMe f s = .ok ((), s.modCore s.cur f) := rfl
@[simp] theorem M.advance_apply (s : State) : advance s = .ok ((), s.modCore s.cur (fun c => { c with pc := c.pc + 4 })) := rfl
@[simp] theorem M.updM_apply (f : State → State) (s : State) : updM f s = .ok ((), f s) := rfl

/-! ### How an instruction ends -/

theorem runScalar_ok {p : Parcel} {m : M Unit} {s s' : State} (hc : s.hasCore s.cur = true) (h : m s = .ok ((), s')) :
    runScalar p m s = .next s'.retire := by
  simp [runScalar, hc, h]

theorem runScalar_trap {p : Parcel} {m : M Unit} {s : State} {t : TrapInfo} (hc : s.hasCore s.cur = true)
    (h : m s = .error (.trap t)) : runScalar p m s = .next (s.takeTrap { t with det1 := p.setWidth 64 }) := by
  simp [runScalar, hc, h]

/-- A scalar instruction of an existing core answers a next state, whatever it does. -/
theorem runScalar_next (p : Parcel) (m : M Unit) {s : State} (hc : s.hasCore s.cur = true) :
    ∃ t, runScalar p m s = .next t := by
  unfold runScalar
  rw [if_pos hc]
  cases m s with
  | ok a => exact ⟨_, rfl⟩
  | error e => cases e <;> exact ⟨_, rfl⟩

/-- What a scalar instruction can end in: it retires, it traps, it waits, the halt line rises on it, or it waits for blocks of its
scratchpad. -/
theorem runScalar_cases {p : Parcel} {m : M Unit} {s t : State} (h : runScalar p m s = .next t) :
    s.hasCore s.cur = true ∧
      ((∃ s', m s = .ok ((), s') ∧ t = s'.retire) ∨
       (∃ i, m s = .error (.trap i) ∧ t = s.takeTrap { i with det1 := p.setWidth 64 }) ∨
       (∃ d i, m s = .error (.refused d i) ∧ t = (s.reached d).takeTrap { i with det1 := p.setWidth 64 }) ∨
       (∃ s', (m s = .error (.wait s') ∨ m s = .error (.halt s')) ∧ t = { s' with note := .waited }) ∨
       (∃ p n, m s = .error (.absent p n) ∧ t = { s.want s.cur.asid p n with note := .waited })) := by
  unfold runScalar at h
  split at h
  · rename_i hc
    refine ⟨hc, ?_⟩
    cases hm : m s with
    | ok a => rw [hm] at h; injection h with h; exact .inl ⟨a.2, rfl, h.symm⟩
    | error e =>
      rw [hm] at h
      cases e with
      | trap i => injection h with h; exact .inr (.inl ⟨i, rfl, h.symm⟩)
      | refused d i => injection h with h; exact .inr (.inr (.inl ⟨d, i, rfl, h.symm⟩))
      | wait s' => injection h with h; exact .inr (.inr (.inr (.inl ⟨s', .inl rfl, h.symm⟩)))
      | halt s' => injection h with h; exact .inr (.inr (.inr (.inl ⟨s', .inr rfl, h.symm⟩)))
      | absent p n => injection h with h; exact .inr (.inr (.inr (.inr ⟨p, n, rfl, h.symm⟩)))
  · cases h

theorem runPrefix_ok {p : Parcel} {m : M Unit} {s s' : State} (hc : s.hasCore s.cur = true) (h : m s = .ok ((), s')) :
    runPrefix p m s = .next { s' with note := .none } := by
  simp [runPrefix, hc, h]

/-! ### Two changes of one core -/

theorem State.modCore_modCore (s : State) (id : CoreId) (f g : CoreSt → CoreSt) :
    (s.modCore id f).modCore id g = s.modCore id (fun c => g { f c with id := c.id }) := by
  unfold State.modCore
  simp only [List.map_map]
  congr 1
  apply List.map_congr_left
  intro c _
  by_cases h : c.id = id <;> simp [h]

/-- Two changes that agree on the core that is there are one. -/
theorem State.modCore_congr {s : State} {id : CoreId} {f g : CoreSt → CoreSt}
    (h : ∀ c ∈ s.cores, c.id = id → { f c with id := id } = { g c with id := id }) : s.modCore id f = s.modCore id g := by
  unfold State.modCore
  congr 1
  apply List.map_congr_left
  intro c hc
  by_cases e : c.id = id
  · have := h c hc e; simp [e, this]
  · simp [e]

theorem State.core_retire {s : State} (hc : s.hasCore s.cur = true) :
    s.retire.core s.cur = { (s.core s.cur) with
      pfx := none, instret := (s.core s.cur).instret + 1, dicnt := (s.core s.cur).dicnt + 1 } :=
  State.core_modCore_eq (f := fun c => { c with pfx := none, instret := c.instret + 1, dicnt := c.dicnt + 1 }) hc (State.core_id s s.cur)

theorem State.core_retire_ne {s : State} {i : CoreId} (h : i ≠ s.cur) : s.retire.core i = s.core i :=
  State.core_modCore_ne _ h

/-! ### A core with nothing on its way -/

theorem CoreSt.watchHit_quiet {c : CoreSt} (h : ∀ w ∈ c.wp.toList, w.ctl.getLsbD 0 = false) (va : Word) (n : Nat) (wr : Bool) :
    c.watchHit va n wr = false := by
  unfold CoreSt.watchHit
  rw [List.any_eq_false]
  intro w hw
  have := h w hw
  simp only [this, Bool.false_and, Bool.false_eq_true, not_false_eq_true]

theorem watch_quiet {s : State} (h : s.Still) (va : Word) (n : Nat) (wr : Bool) : watch va n wr s = .ok ((), s) := by
  simp [watch, CoreSt.watchHit_quiet h.wp]

theorem drainM_quiet {s : State} (h : s.Still) : drainM s = .ok ((), s) := by
  simp [drainM, tryM, h.sb, State.drainAll]

theorem drainTo_quiet {s : State} (h : s.Still) (p : BufWrite → Bool) : drainTo p s = .ok ((), s) := by
  simp [drainTo, tryM, h.sb, State.drainAll]

theorem edgeM_quiet {s : State} (h : s.Still) (p : BufWrite → Bool) : edgeM p s = .ok ((), s) := by
  simp [edgeM, tryM, h.edge, State.edgeWhere]

theorem mergeOf_quiet {s : State} (h : s.Still) : s.mergeOf s.cur = .done s := by
  simp [State.mergeOf, h.shadow, State.mergeAll]

/-! ### Where nothing can turn on what is visible to whom -/

theorem watched_cores {s t : State} (h : t.cores = s.cores) : t.watched = s.watched := by simp [State.watched, h]

/-- A change of a core that keeps its loads taken ahead and its writes of `fitness`. -/
theorem watched_modCore {s : State} (h : s.watched = false) (id : CoreId) {f : CoreSt → CoreSt}
    (hf : ∀ c, (f c).early = c.early ∧ (f c).fits = c.fits) : (s.modCore id f).watched = false := by
  unfold State.watched at h ⊢
  rw [List.any_eq_false] at h ⊢
  intro c hc
  obtain ⟨d, hd, rfl⟩ := List.mem_map.mp (show c ∈ s.cores.map _ from hc)
  have := h d hd
  by_cases e : d.id = id
  · simpa [e, hf d] using this
  · simpa [e] using this

/-- No core has taken a load ahead. -/
theorem early_unwatched {s : State} (h : s.watched = false) (id : CoreId) : (s.core id).early = [] := by
  unfold State.core State.core?
  cases hf : s.cores.find? (fun c => c.id == id) with
  | none => rfl
  | some c =>
    have := List.any_eq_false.mp (show s.cores.any _ = false from h) c (List.mem_of_find?_eq_some hf)
    simp only [Bool.or_eq_true, Bool.not_eq_eq_eq_not, Bool.not_true, not_or, Bool.not_eq_false, List.isEmpty_iff] at this
    exact this.1

theorem acquires_unwatched {s : State} (h : s.watched = false) (id : CoreId) (sc : Scope) (rs : List Rel) : s.acquires id sc rs = s := by
  simp [State.acquires, h]

theorem hear_unwatched {s : State} (h : s.watched = false) (id : CoreId) (sc : Scope) (rs : List Rel) : s.hear id sc rs = s := by
  simp [State.hear, h]

theorem released_unwatched {s : State} (h : s.watched = false) (id : CoreId) (sc : Scope) : s.released id sc = s := by
  simp [State.released, h]

theorem releaseOf_unwatched {s : State} (h : s.watched = false) (id : CoreId) (sc : Scope) : s.releaseOf id sc = [] := by
  simp [State.releaseOf, h]

theorem begins_unwatched {s : State} (h : s.watched = false) (id : CoreId) (sc : Scope) : s.begins id sc = s := by
  simp [State.begins, early_unwatched h]

theorem changed_unwatched {s : State} (h : s.watched = false) (b : Option CoreId) (id : CoreId) (p : Place) (n : Nat) :
    s.changed b id p n = s := by simp [State.changed, h]

theorem mark_unwatched {s : State} (h : s.watched = false) (m : Mark) : s.mark m = s := by simp [State.mark, h]

theorem markStore_unwatched {s : State} (h : s.watched = false) (id : CoreId) (p : Place) (n : Nat) (seq : List Rel) :
    s.markStore id p n seq = s := mark_unwatched h _

theorem markBuf_unwatched {s : State} (h : s.watched = false) (w : BufWrite) : s.markBuf w = s := by
  unfold State.markBuf; split
  · exact mark_unwatched h _
  · rfl

theorem shownTo_unwatched {s : State} (h : s.watched = false) (d : Nat) (w : BufWrite) : s.shownTo d w = s := by simp [State.shownTo, h]

theorem acquire_unwatched {s : State} (h : s.watched = false) (sc : Scope) : acquire sc s = .ok ((), s) := by
  simp [acquire, acquires_unwatched h]

theorem acquireOf_unwatched {s : State} (h : s.watched = false) (sc : Scope) (rs : List Rel) : acquireOf sc rs s = .ok ((), s) := by
  simp [acquireOf, acquires_unwatched h]

theorem acquireNow_unwatched {s : State} (h : s.watched = false) (sc : Scope) : acquireNow sc s = .ok ((), s) := by
  unfold acquireNow
  rw [M.bind_ok (acquire_unwatched h sc)]
  simp [begins_unwatched h]

theorem hearM_unwatched {s : State} (h : s.watched = false) (sc : Scope) (rs : List Rel) : hearM sc rs s = .ok ((), s) := by
  simp [hearM, hear_unwatched h]

theorem heedM_unwatched {s : State} (h : s.watched = false) (p : Place) (n : Nat) (sc : Scope) : heedM p n sc s = .ok ((), s) := by
  simp [heedM, hear_unwatched h]

theorem release_quiet {s : State} (h : s.Still) (sc : Scope) : release sc s = .ok ((), s) := by
  have hr : updM (fun s => s.released s.cur sc) s = .ok ((), s) := by simp [released_unwatched h.watched]
  unfold release
  rw [M.bind_ok (drainM_quiet h)]
  split
  · rw [M.bind_ok (show tryM (fun s => s.mergeOf s.cur) s = .ok ((), s) by simp [tryM, mergeOf_quiet h]), M.bind_ok (edgeM_quiet h _)]
    exact hr
  · exact hr

theorem openWin_quiet {s : State} (h : s.Still) : (s.core s.cur).win.openWin = none := by
  simp [WinSt.openWin, h.win]

theorem inputM_quiet {s : State} (h : s.Still) (k : Nat) (v : Word) : inputM k v s = .ok (v, s) := by
  unfold inputM
  rw [M.bind_get]
  simp only [h.replay, Option.isSome_none, Bool.false_eq_true, if_false]
  rw [M.bind_ok (show recordM k v s = .ok ((), s) by
    simp [recordM, tryM, State.recordInput, openWin_quiet h])]
  rfl

/-- A change of a context that leaves its benches leaves the die of every core. -/
theorem State.dieOf_modCtx (s : State) (a : Nat) {f : Ctx → Ctx} (hf : ∀ c, (f c).benches = c.benches) (i : CoreId) :
    (s.modCtx a f).dieOf i = s.dieOf i := by
  unfold State.dieOf State.ctx
  rw [State.ctx?_modCtx]
  cases s.ctx? i.asid with
  | none => rfl
  | some c =>
    simp only [Option.map_some, Option.getD_some, Ctx.dieOf, Ctx.benchOf]
    split <;> simp [hf]

theorem reserveM_quiet {s : State} (h : s.Still) (n : Nat) (p : Place) : reserveM n p s = .ok ((), s) := by
  unfold reserveM
  rw [M.bind_me, openWin_quiet h]; rfl

theorem rqRoom_quiet {s : State} (h : s.Still) : rqRoom s = .ok ((), s) := by
  unfold rqRoom
  rw [M.bind_me, if_neg (by have := h.rqout; simp [CoreSt.requests, h.sb]; omega)]; rfl

theorem acquire_quiet {s : State} (h : s.Still) (sc : Scope) : acquire sc s = .ok ((), s) := acquire_unwatched h.watched sc

theorem acquire_same {s t : State} (h : s.Still) (hc : t.cores = s.cores) (sc : Scope) : acquire sc t = .ok ((), t) :=
  acquire_unwatched (by rw [watched_cores hc]; exact h.watched) sc

/-- Reading a device register changes no core. -/
theorem busRead_cores (s : State) (off : Nat) : (s.busRead off).2.cores = s.cores ∧ (s.busRead off).2.cur = s.cur := by
  obtain ⟨P, hP⟩ : ∃ P : Word × State → Prop, P = fun r => r.2.cores = s.cores ∧ r.2.cur = s.cur := ⟨_, rfl⟩
  have same : ∀ w, P (w, s) := by intro w; rw [hP]; exact ⟨rfl, rfl⟩
  have noted : ∀ w g, P (w, { s.bump with dbg := g }) := by intro w g; rw [hP]; exact ⟨rfl, rfl⟩
  have pick : ∀ (c : Prop) [Decidable c] (a b : Word × State), P a → P b → P (if c then a else b) := by
    intro c _ a b ha hb; split <;> assumption
  suffices h : P (s.busRead off) by rw [hP] at h; exact h
  unfold State.busRead
  repeat' (first | exact same _ | exact noted _ _ | apply pick | split | (dsimp only; split))

/-! ### Blocks of a scratchpad that have all come in -/

theorem lacks_nil {x : Ctx} (h : x.spillIn = []) (p : Place) (n : Nat) : x.lacks p n = [] := by
  unfold Ctx.lacks; split <;> simp [h]

theorem blocksIn_clear {s : State} {asid : Nat} (h : (s.ctx asid).spillIn = []) (p : Place) (n : Nat) :
    s.blocksIn asid p n = true := by simp [State.blocksIn, lacks_nil h]

theorem want_clear {s : State} {asid : Nat} (h : (s.ctx asid).spillIn = []) (p : Place) (n : Nat) : s.want asid p n = s := by
  simp [State.want, blocksIn_clear h]

theorem demandM_quiet {s : State} (h : s.Still) (p : Place) (n : Nat) : demandM p n s = .ok ((), s) := by
  simp [demandM, blocksIn_clear h.spill]

/-! ### Places that open -/

/-- Asking the banks adds to what they are asked for. -/
theorem askPlace_bankq (s : State) (asid who acc by_ : Nat) (p : Place) (n : Nat) :
    ∃ q, s.askPlace asid who acc by_ p n = { s with bankq := q } := by
  unfold State.askPlace
  split
  · exact ⟨_, rfl⟩
  · exact ⟨s.bankq, rfl⟩

/-- Reaching a place whose die answers changes only the contexts (the touched dies) and what the banks are asked for. -/
theorem reach_ctxs {s : State} {asid : Nat} {p : Place} (n : Nat) (u : Bool)
    (hl : ∀ d, s.servedBy asid p = some d → s.answers d = true) :
    ∃ cs q, s.reach asid p n u = { s with ctxs := cs, bankq := q } := by
  unfold State.reach
  obtain ⟨q, hq⟩ := askPlace_bankq s asid (if u = true then 2 else scalarAsker s.cur.l p) s.cur.l 0 p n
  rw [hq]
  cases hv : s.servedBy asid p with
  | none => exact ⟨s.ctxs, q, rfl⟩
  | some d =>
    simp only [State.touch]
    split
    · exact ⟨s.ctxs, q, rfl⟩
    · split
      · rename_i hbad
        exact absurd (show (!s.answers d) = true from hbad) (by simp [hl d hv])
      · exact ⟨_, q, rfl⟩

theorem damageAt_none {s : State} (h : s.mgmt.injected = []) (id : CoreId) (p : Place) (n : Nat) : s.damageAt id p n = [] := by
  unfold State.damageAt
  split
  · simp [State.damaged, h]
  · rfl

theorem poisonAt_none {s : State} (h : s.poison = []) (id : CoreId) (p : Place) (n : Nat) : s.poisonAt id p n = false := by
  unfold State.poisonAt
  split
  · simp [State.poisoned, h]
  · rfl

/-- A change of the contexts that leaves the die of every core. -/
theorem reach_die {s : State} {asid : Nat} {p : Place} (n : Nat) (u : Bool)
    (hl : ∀ d, s.servedBy asid p = some d → s.answers d = true) (i : CoreId) : (s.reach asid p n u).dieOf i = s.dieOf i := by
  unfold State.reach
  obtain ⟨q, hq⟩ := askPlace_bankq s asid (if u = true then 2 else scalarAsker s.cur.l p) s.cur.l 0 p n
  rw [hq]
  split
  · rename_i d hv
    simp only [State.touch]
    split
    · rfl
    · split
      · rename_i hbad
        exact absurd (show (!s.answers d) = true from hbad) (by simp [hl d hv])
      · exact (State.dieOf_modCtx { s with bankq := q } asid (by intro c; rfl) i)
  · rfl

theorem reach_ctx_dieOf {s : State} {asid : Nat} {p : Place} (n : Nat) (u : Bool)
    (hl : ∀ d, s.servedBy asid p = some d → s.answers d = true) (a l : Nat) :
    ((s.reach asid p n u).ctx a).dieOf l = (s.ctx a).dieOf l := reach_die n u hl ⟨a, l⟩

/-- A place that nothing refuses, whose die answers, opens: it has been reached and nothing else has changed. -/
theorem openPlace_open {s : State} (h : s.Clear s.cur) {p : Place} {n : Nat} (va : Word) (u : Bool) (ho : s.Open p n) :
    openPlace p n va u s = .ok ((), s.reach s.cur.asid p n u) := by
  obtain ⟨hr, hl⟩ := ho
  obtain ⟨c2, q2, h2⟩ := reach_ctxs n u hl
  have hd := reach_ctx_dieOf n u hl s.cur.asid
  unfold openPlace
  simp only [blocksIn_clear h.spill, Bool.not_true, Bool.false_eq_true, if_false]
  have hp : (s.reach s.cur.asid p n u).placeRefusal s.cur.asid p n = 0 := by
    rw [← hr]
    cases p with
    | scratch l a =>
      simp only [State.placeRefusal, hd]
      rw [h2]; rfl
    | hbm sl a => rw [h2]; rfl
    | _ => rfl
  simp only [hp]
  rw [damageAt_none (by rw [h2]; exact h.damage)]
  simp only [State.consume]
  rw [if_neg]
  rw [poisonAt_none (by rw [h2]; exact h.poison)]; decide

/-- Device memory reads by its bytes, its tags and the key slots alone. -/
theorem State.hbmBytes_congr {s t : State} (hm : t.hbm = s.hbm) (hk : t.ktag = s.ktag) (hs : t.keys = s.keys) (sl pa n : Nat) :
    t.hbmBytes sl pa n = s.hbmBytes sl pa n := by
  induction n generalizing pa with
  | zero => rfl
  | succ n ih =>
    have hr : ∀ rd wr a, t.rereadByte rd wr a = s.rereadByte rd wr a := by
      intro rd wr a; simp only [State.rereadByte, hm]
    have hkey : t.keySt sl = s.keySt sl := by unfold State.keySt; rw [hs]
    simp only [State.hbmBytes, hkey, hm, hk, ih, hr]

/-- What a core with nothing on its way reads at a place other than a device register. -/
theorem readAt_ctxs {s : State} (h : s.Quiet) (cs : List Ctx) (q : List BankAsk) {p : Place} (n : Nat) (hd : ∀ off, p ≠ .dev off)
    (hc : ({ s with ctxs := cs, bankq := q } : State).dieOf s.cur = s.dieOf s.cur) :
    readAt p n { s with ctxs := cs, bankq := q } = .ok (s.peek p n, { s with ctxs := cs, bankq := q }) := by
  have hst : ∀ r a, ({ s with ctxs := cs, bankq := q } : State).seeStale s.cur r a n = ({ s with ctxs := cs, bankq := q }, []) := by
    intro r a
    have : (({ s with ctxs := cs, bankq := q } : State).core s.cur).stale = [] := h.stale
    simp [State.seeStale, this]
  cases p with
  | dev off => exact absurd rfl (hd off)
  | scratch l a =>
    unfold readAt
    simp only [hst]
    by_cases e : l = s.cur.l
    · subst e; rw [if_pos rfl]; rfl
    · rw [if_neg e]; rfl
  | reg a => unfold readAt; simp only [hst]; rfl
  | hbm sl a =>
    have := State.hbmBytes_congr (s := s) (t := { s with ctxs := cs, bankq := q }) rfl rfl rfl sl a n
    exact congrArg (fun b => Except.ok (b, ({ s with ctxs := cs, bankq := q } : State))) this
  | hostBulk a => unfold readAt; simp only [State.peek, State.placeBytes, State.hostSeen, hc]; rfl
  | hostCoh a => unfold readAt; simp only [State.peek, State.placeBytes, State.hostSeen, hc]; rfl

theorem readAt_reach {s : State} (h : s.Quiet) {p : Place} {m : Nat} (n : Nat) (ho : s.Open p m) (hd : ∀ off, p ≠ .dev off) :
    readAt p n (s.reach s.cur.asid p m) = .ok (s.peek p n, s.reach s.cur.asid p m) := by
  obtain ⟨cs, q, hc⟩ := reach_ctxs m false ho.die
  have := reach_die m false ho.die s.cur
  rw [hc] at this ⊢; exact readAt_ctxs h cs q n hd this

theorem youngest_nil (p : Place) (n : Nat) : youngest [] p n = none := rfl

theorem aheadM_quiet {s : State} (h : s.Still) (p : Place) (n : Nat) (sc : Scope) : aheadM p n sc s = .ok (none, s) := by
  simp [aheadM, early_unwatched h.watched]

theorem dropAheadM_reach {s : State} (h : s.Still) {p : Place} {n : Nat} (ho : s.Open p n) :
    dropAheadM p n (s.reach s.cur.asid p n) = .ok ((), s.reach s.cur.asid p n) := by
  obtain ⟨cs, q, hc⟩ := reach_ctxs n false ho.die
  unfold dropAheadM
  rw [M.bind_me, hc]
  have : (({ s with ctxs := cs, bankq := q } : State).core ({ s with ctxs := cs, bankq := q } : State).cur).early = [] :=
    early_unwatched h.watched _
  simp [this]

theorem heedM_reach {s : State} (h : s.Still) {p : Place} {m : Nat} (n : Nat) (sc : Scope) (ho : s.Open p m) :
    heedM p n sc (s.reach s.cur.asid p m) = .ok ((), s.reach s.cur.asid p m) := by
  obtain ⟨cs, q, hc⟩ := reach_ctxs m false ho.die
  exact heedM_unwatched (by rw [hc]; exact h.watched) p n sc

/-- A load of a core with nothing on its way, at an open place. -/
theorem loadPlace_quiet {s : State} (h : s.Quiet) {p : Place} {n : Nat} (sc : Scope) (va : Word) (ho : s.Open p n) :
    loadPlace p n sc va s = .ok (leNat (s.peek p n), s.reading p n) := by
  cases p with
  | dev off =>
    unfold loadPlace
    simp only [M.bind_me]
    rw [M.bind_ok (drainTo_quiet h.toStill _), M.bind_ok (edgeM_quiet h.toStill _)]
    have he : ((s.die (s.dieOf s.cur)).egress.any fun e => e.isDev && e.owner.1 == (s.core s.cur).id.asid && e.owner.2.1 == (s.core s.cur).id.l) = false := by
      rw [List.any_eq_false]
      intro e hm hb
      simp only [Bool.and_eq_true, beq_iff_eq, State.core_id] at hb
      exact h.posted e hm hb.1.1 hb.1.2 hb.2
    simp only [M.bind_get, he, h.busq, List.isEmpty_nil, Bool.not_true, Bool.or_false, Bool.false_eq_true, if_false]
    rfl
  | _ =>
    unfold loadPlace
    simp only [M.bind_me, h.sb, youngest_nil, M.bind_get, h.edge, Place.isLocal, if_true, Bool.false_eq_true, if_false]
    first
      | rw [M.bind_ok (openPlace_open h.toClear va false ho), M.bind_ok (readAt_reach h n ho (by intro off; simp)),
          M.bind_ok (heedM_reach h.toStill n sc ho)]
        rfl
      | split
        · rw [M.bind_ok (openPlace_open h.toClear va false ho), M.bind_ok (readAt_reach h n ho (by intro off; simp)),
            M.bind_ok (dropAheadM_reach h.toStill ho), M.bind_ok (heedM_reach h.toStill n sc ho)]
          rfl
        · rw [M.bind_ok (aheadM_quiet h.toStill _ n sc)]
          simp only []
          rw [M.bind_ok (openPlace_open h.toClear va false ho), M.bind_ok (readAt_reach h n ho (by intro off; simp)),
            M.bind_ok (dropAheadM_reach h.toStill ho), M.bind_ok (heedM_reach h.toStill n sc ho)]
          rfl

/-- A load at an open place changes no core. -/
theorem reading_cores {s : State} {p : Place} {n : Nat} (ho : s.Open p n) :
    (s.reading p n).cores = s.cores ∧ (s.reading p n).cur = s.cur := by
  unfold State.reading
  split
  · exact busRead_cores ..
  · obtain ⟨cs, q, hc⟩ := reach_ctxs n false ho.die
    rw [hc]; exact ⟨rfl, rfl⟩

/-- Without damage anywhere no walk meets any. -/
theorem walkMet_none {s : State} (h : s.mgmt.injected = []) (id : CoreId) (rt : Bool) (va : Word) : s.walkMet id rt va = (s, false) := by
  unfold State.walkMet
  split
  · rfl
  · have : s.walkDamage (s.dieOf id) id.asid (va.toNat % 2 ^ 54) = [] := by
      unfold State.walkDamage
      split
      · rfl
      · simp [State.damaged, h]
    rw [this]; rfl

theorem walkM_none {s : State} (h : s.mgmt.injected = []) (va : Word) : walkM va s = .ok ((), s) := by
  simp [walkM, walkMet_none h]

theorem resolveM_ok {s : State} (h : s.mgmt.injected = []) {va : Word} {n : Nat} {acc : Access} {p : Place}
    (hr : s.resolve s.cur (s.core s.cur).runtime va n acc = .ok p) : resolveM va n acc s = .ok (p, s) := by
  unfold resolveM
  rw [M.bind_ok (walkM_none h va), M.bind_get]
  simp [hr]

theorem resolveM_error {s : State} (h : s.mgmt.injected = []) {va : Word} {n : Nat} {acc : Access} {code : Nat}
    (hr : s.resolve s.cur (s.core s.cur).runtime va n acc = .error code) :
    resolveM va n acc s = .error (.trap (refusalTrap code va false)) := by
  unfold resolveM
  rw [M.bind_ok (walkM_none h va), M.bind_get]
  simp only [hr]; rfl

theorem loadM_quiet {s : State} (h : s.Quiet) {va : Word} {p : Place} {n : Nat} (sc : Scope)
    (hr : s.resolve s.cur (s.core s.cur).runtime va n .load = .ok p) (ho : s.Open p n) :
    loadM va n sc s = .ok (leNat (s.peek p n), s.reading p n) := by
  unfold loadM
  rw [M.bind_ok (watch_quiet h.toStill ..), M.bind_ok (resolveM_ok h.damage hr)]
  exact loadPlace_quiet h sc va ho

theorem aligned_ok {va : Word} {n : Nat} (h : va.toNat % n = 0) (s : State) : aligned va n s = .ok ((), s) := by
  simp [aligned, h]

theorem aligned_error {va : Word} {n : Nat} (h : va.toNat % n ≠ 0) (s : State) :
    aligned va n s = .error (.trap ⟨0x05, va, 0, 0⟩) := by
  simp only [aligned, h, if_false]; rfl

/-- Two changes of one core. -/
theorem modCore_two (s : State) (id : CoreId) (f g : CoreSt → CoreSt) (hf : ∀ c, (f c).id = c.id) :
    (s.modCore id f).modCore id g = s.modCore id (fun c => g (f c)) := by
  rw [State.modCore_modCore]
  congr 1
  funext c
  have := hf c
  generalize f c = d at *
  cases d; simp_all

/-! ### Retiring -/

theorem retire_one (s : State) (f : CoreSt → CoreSt) (hf : ∀ c, (f c).id = c.id) :
    (s.modCore s.cur f).retire =
      s.retiring (fun c => { f c with pfx := none, instret := (f c).instret + 1, dicnt := (f c).dicnt + 1 }) := by
  unfold State.retire State.retiring
  rw [State.modCore_cur, modCore_two _ _ _ _ hf]

/-- A change of the core followed by moving past the parcel. -/
theorem retire_advance (s : State) (f : CoreSt → CoreSt) (hf : ∀ c, (f c).id = c.id) :
    ((s.modCore s.cur f).modCore s.cur (fun c => { c with pc := c.pc + 4 })).retire = s.retiring (fun c => (f c).after) := by
  rw [modCore_two _ _ _ _ hf, retire_one _ _ (by intro c; exact hf c)]; rfl

theorem retire_advance_only (s : State) :
    (s.modCore s.cur (fun c => { c with pc := c.pc + 4 })).retire = s.retiring CoreSt.after := by
  rw [retire_one _ _ (by intro c; rfl)]; rfl

/-- The same of a core named otherwise. -/
theorem retire_advance_at {s : State} {id : CoreId} (hid : s.cur = id) (f : CoreSt → CoreSt) (hf : ∀ c, (f c).id = c.id) :
    ((s.modCore id f).modCore id (fun c => { c with pc := c.pc + 4 })).retire = s.retiring (fun c => (f c).after) := by
  subst hid; exact retire_advance s f hf

/-- What a scalar meaning that changes only its core and goes on leaves. -/
theorem runScalar_advance {p : Parcel} {m : M Unit} {s : State} {f : CoreSt → CoreSt} (hc : s.hasCore s.cur = true)
    (h : m s = .ok ((), s.modCore s.cur f)) (hf : ∀ c, (f c).id = c.id) :
    runScalar p (do m; advance) s = .next (s.retiring (fun c => (f c).after)) := by
  rw [runScalar_ok hc (M.bind_ok h)]
  simp only [State.modCore_cur]
  rw [retire_advance _ _ hf]

/-- A write that resolves takes its place in the store buffer. -/
theorem bufferM_quiet {s : State} (h : s.Still) (va : Word) (n v : Nat) (k : WriteKind) (p : Place) (sc : Scope := .die) :
    bufferM va n v k (.ok p) sc s =
      .ok ((), s.modCore s.cur (fun x => x.buffering ((s.core s.cur).entry p n v k va sc))) := by
  unfold bufferM
  simp only [M.bind_myId, M.bind_me]
  rw [M.bind_ok (demandM_quiet h p n)]
  by_cases hl : (p.isLocal && k == .store) = true
  · rw [if_pos hl, M.bind_pure]
    simp only [M.bind_takeSeq, M.modMe_apply, State.modCore_cur]
    rw [modCore_two _ _ _ _ (by intro c; rfl)]
    simp [CoreSt.buffering, CoreSt.entry, hl]
  · rw [if_neg hl, M.bind_ok (rqRoom_quiet h)]
    simp only [M.bind_takeRq, M.bind_takeSeq, M.modMe_apply, State.modCore_cur]
    rw [State.core_modCore_self _ h.core, State.modCore_modCore, State.modCore_modCore]
    simp [CoreSt.buffering, CoreSt.entry, hl]

end Sys2Proof.Machine
end

