-- ==== Sys2Proof/Laws/Engine.lean ====
section
/-! SUPPORT. What the completion of an engine word does: rings published and popped, a counter signalled, the word gone. -/

open Sys2Proof Sys2Proof.Machine

namespace Sys2Proof.Laws

/-- A core with no window open and not replaying: nothing of its completions is recorded, logged or held back. -/
structure NoWindow (s : State) (id : CoreId) : Prop where
  core : s.hasCore id = true
  win : (s.core id).win.unc = none
  replay : (s.core id).replay = none

/-- With no record armed a pool has room for what an increment launches. -/
theorem launchRoom_unarmed {s : State} {id : CoreId} (h : (s.core id).waiting = []) (k n : Nat) : s.launchRoom id k n = true := by
  simp [State.launchRoom, h, launchArmed]

/-- An increment is made at once when nothing of it is recorded and its launches have room. -/
theorem incrementRec_done {s : State} {id : CoreId} (h : NoWindow s id) {k n : Nat} (hl : s.launchRoom id k n = true) :
    s.incrementRec id k n = .done (s.increment id k n) := by
  simp [State.incrementRec, hl, h.replay, State.recordInput, WinSt.openWin, h.win]

theorem NoWindow.modCore {s : State} {id : CoreId} (h : NoWindow s id) (f : CoreSt → CoreSt) (h1 : ∀ c, (f c).win = c.win) (h2 : ∀ c, (f c).replay = c.replay) :
    NoWindow (s.modCore id f) id := by
  refine ⟨by simpa using h.core, ?_, ?_⟩ <;> rw [State.core_modCore_self _ h.core]
  · show (f _).win.unc = none; rw [h1]; exact h.win
  · show (f _).replay = none; rw [h2]; exact h.replay

theorem NoWindow.waiting_modCore {s : State} {id : CoreId} (h : NoWindow s id) (f : CoreSt → CoreSt) (h1 : ∀ c, (f c).waiting = c.waiting) :
    ((s.modCore id f).core id).waiting = (s.core id).waiting := by
  rw [State.core_modCore_self _ h.core]; exact h1 _

theorem NoWindow.increment {s : State} {id : CoreId} (h : NoWindow s id) (hw : (s.core id).waiting = []) (k n : Nat) :
    NoWindow (s.increment id k n) id ∧ ((s.increment id k n).core id).waiting = [] := by
  have e : s.increment id k n = s.modCore id (fun c => { (c.setCtr k (min ((s.core id).ctr k + n) 0xFFFFFFFF)) with waiting := [] }) := by
    simp [State.increment, hw, launchArmed]
  rw [e]
  refine ⟨h.modCore _ (fun _ => rfl) (fun _ => rfl), ?_⟩
  rw [State.core_modCore_self _ h.core]

/-- Moving a ring's pointers keeps its first doubleword. -/
theorem d0_with_d1 (d : Desc) (x : BitVec 64) : ({ d with d1 := x } : Desc).d0 = d.d0 := rfl
theorem d0_setPtrs (d : Desc) (a b c : Nat) : (d.setPtrs a b c).d0 = d.d0 := d0_with_d1 d _

theorem vget_vset_d0 (v : Vector Desc 16) (r : Nat) (d : Desc) (hd : d.d0 = (vget v r Desc.zero).d0) (k : Nat) :
    (vget (vset v r d) k Desc.zero).d0 = (vget v k Desc.zero).d0 := by
  unfold vget vset at *
  simp only [Vector.toList_setIfInBounds, List.getD_eq_getElem?_getD, List.getElem?_set] at *
  by_cases hk : r = k
  · subst hk
    by_cases hl : r < v.toList.length
    · have h16 : r < 16 := by simpa using hl
      simpa [h16] using hd
    · have h16 : ¬ r < 16 := by simpa using hl
      simp [h16]
  · simp [hk]

/-- The rings' first doublewords do not change. -/
def SameD0 (s t : State) (id : CoreId) : Prop := ∀ k, (vget (t.core id).rg k Desc.zero).d0 = (vget (s.core id).rg k Desc.zero).d0

/-- No pop of these rings launches an armed record. -/
def PopsFree (s : State) (id : CoreId) (ps : List (Nat × Nat)) : Prop :=
  (s.core id).waiting = [] ∨ ∀ r ∈ ps, bit (vget (s.core id).rg r.1 Desc.zero).d0 52 = false

/-- Popping rings that launch nothing always completes. -/
theorem NoWindow.popRings (id : CoreId) (ps : List (Nat × Nat)) : ∀ (s : State), NoWindow s id → PopsFree s id ps →
    s.popRings id ps = .done (s.popped id ps) ∧ NoWindow (s.popped id ps) id ∧ ((s.core id).waiting = [] → ((s.popped id ps).core id).waiting = []) := by
  induction ps with
  | nil => intro s h _; exact ⟨rfl, h, fun x => x⟩
  | cons r rs ih =>
    intro s h hf
    let d := vget (s.core id).rg r.1 Desc.zero
    let t := s.modCore id (fun c => { c with rg := vset c.rg r.1 (d.setPtrs (d.head + r.2) d.tail ((d.hslot + r.2) % d.count)) })
    let u := if d.unset then s else if bit d.d0 52 then t.increment id (bits d.d0 51 40) r.2 else t
    have ht : NoWindow t id := h.modCore _ (fun _ => rfl) (fun _ => rfl)
    have hwt : (t.core id).waiting = (s.core id).waiting := NoWindow.waiting_modCore h _ (fun _ => rfl)
    have key : s.popRing id r.1 r.2 = .done u ∧ NoWindow u id ∧ PopsFree u id rs ∧ ((s.core id).waiting = [] → (u.core id).waiting = []) := by
      show State.popRing s id r.1 r.2 = .done u ∧ _
      by_cases hu : d.unset = true
      · have : u = s := by simp [u, hu]
        rw [this]
        refine ⟨by simp [State.popRing, d] at *; simp [hu], h, ?_, fun x => x⟩
        rcases hf with hf | hf
        · exact .inl hf
        · exact .inr (fun x hx => hf x (List.mem_cons_of_mem _ hx))
      · by_cases hb : bit d.d0 52 = true
        · have hw : (s.core id).waiting = [] := by
            rcases hf with hf | hf
            · exact hf
            · have := hf r List.mem_cons_self; simp only [d] at hb; rw [hb] at this; cases this
          have e : u = t.increment id (bits d.d0 51 40) r.2 := by simp [u, hu, hb]
          rw [e]
          obtain ⟨a, b⟩ := NoWindow.increment ht (hwt.trans hw) (bits d.d0 51 40) r.2
          refine ⟨?_, a, .inl b, fun _ => b⟩
          have := incrementRec_done ht (launchRoom_unarmed (hwt.trans hw) (bits d.d0 51 40) r.2)
          simp only [State.popRing]
          rw [if_neg (by simpa [d] using hu), if_pos (by simpa [d] using hb)]
          exact this
        · have e : u = t := by simp [u, hu, hb]
          rw [e]
          refine ⟨?_, ht, ?_, fun x => hwt.trans x⟩
          · simp only [State.popRing]
            rw [if_neg (by simpa [d] using hu), if_neg (by simpa [d] using hb)]
          · rcases hf with hf | hf
            · exact .inl (hwt.trans hf)
            · refine .inr (fun x hx => ?_)
              have := hf x (List.mem_cons_of_mem _ hx)
              have e2 : (vget (t.core id).rg x.1 Desc.zero).d0 = (vget (s.core id).rg x.1 Desc.zero).d0 := by
                simp only [t]
                rw [State.core_modCore_self _ h.core]
                exact vget_vset_d0 _ _ _ (by rw [d0_setPtrs]) _
              rw [e2]; exact this
    obtain ⟨k1, k2, k3, k4⟩ := key
    obtain ⟨i1, i2, i3⟩ := ih u k2 k3
    have hp : s.popped id (r :: rs) = u.popped id rs := rfl
    rw [hp]
    refine ⟨?_, i2, fun x => i3 (k4 x)⟩
    simp only [State.popRings, k1]; exact i1

/-- Publishing entries launches nothing and keeps every ring's first doubleword. -/
theorem NoWindow.pubRings (id : CoreId) (ps : List (Nat × Nat)) : ∀ (s : State), NoWindow s id →
    NoWindow (ps.foldl (fun s r => s.pubRing id r.1) s) id ∧ ((ps.foldl (fun s r => s.pubRing id r.1) s).core id).waiting = (s.core id).waiting ∧
    SameD0 s (ps.foldl (fun s r => s.pubRing id r.1) s) id := by
  induction ps with
  | nil => intro s h; exact ⟨h, rfl, fun _ => rfl⟩
  | cons r rs ih =>
    intro s h
    have a : NoWindow (s.pubRing id r.1) id := h.modCore _ (fun c => by dsimp only; split <;> rfl) (fun c => by dsimp only; split <;> rfl)
    have b : ((s.pubRing id r.1).core id).waiting = (s.core id).waiting := NoWindow.waiting_modCore h _ (fun c => by dsimp only; split <;> rfl)
    have e : SameD0 s (s.pubRing id r.1) id := by
      intro k
      unfold State.pubRing
      rw [State.core_modCore_self _ h.core]
      dsimp only
      split
      · rfl
      · exact vget_vset_d0 _ _ _ (by rw [d0_setPtrs]) _
    obtain ⟨x, y, z⟩ := ih _ a
    exact ⟨x, y.trans b, fun k => (z k).trans (e k)⟩

end Sys2Proof.Laws
end

