-- ==== Sys2Proof/Laws/Mem.lean ====
section
/-! SUPPORT. Memory: the canonical form is kept, a read after a write gives what was written, and bytes outside a write stay. -/

namespace Sys2Proof.Machine

/-! ### The canonical form -/

theorem Mem.wf_nil : Mem.wf [] := by simp [Mem.wf]

theorem Mem.cells_mem {a : Nat} {bs : List Byte} {p : Host.Cell} (h : p ∈ Mem.cells a bs) :
    a ≤ p.1 ∧ p.1 < a + bs.length ∧ p.2 ≠ unlistedByte := by
  induction bs generalizing a with
  | nil => simp [Mem.cells] at h
  | cons b bs ih =>
    unfold Mem.cells at h
    split at h
    · have := ih h; simp only [List.length_cons]; refine ⟨by omega, by omega, this.2.2⟩
    · rcases List.mem_cons.mp h with rfl | h
      · simp; assumption
      · have := ih h; simp only [List.length_cons]; refine ⟨by omega, by omega, this.2.2⟩

theorem Mem.cells_wf (a : Nat) (bs : List Byte) : Mem.wf (Mem.cells a bs) := by
  refine ⟨?_, fun p hp => (Mem.cells_mem hp).2.2⟩
  induction bs generalizing a with
  | nil => simp [Mem.cells]
  | cons b bs ih =>
    unfold Mem.cells
    split
    · exact ih _
    · refine List.pairwise_cons.mpr ⟨fun p hp => ?_, ih _⟩
      have := (Mem.cells_mem hp).1; simp; omega

theorem Mem.filter_wf {m : Mem} (p : Host.Cell → Bool) (h : Mem.wf m) : Mem.wf (m.filter p) :=
  ⟨h.1.filter _, fun q hq => h.2 q (List.mem_filter.mp hq).1⟩

/-- A write keeps the canonical form. -/
theorem Mem.write_wf {m : Mem} (a : Nat) (bs : List Byte) (h : Mem.wf m) : Mem.wf (m.write a bs) := by
  unfold Mem.write
  refine ⟨?_, ?_⟩
  · refine List.pairwise_append.mpr ⟨(Mem.filter_wf _ h).1, List.pairwise_append.mpr ⟨(Mem.cells_wf a bs).1, (Mem.filter_wf _ h).1, ?_⟩, ?_⟩
    · intro p hp q hq
      have h1 := Mem.cells_mem hp
      have h2 := (List.mem_filter.mp hq).2
      simp at h2; omega
    · intro p hp q hq
      have h1 := (List.mem_filter.mp hp).2
      simp at h1
      rcases List.mem_append.mp hq with hq | hq
      · have := Mem.cells_mem hq; omega
      · have h2 := (List.mem_filter.mp hq).2
        simp at h2; omega
  · intro p hp
    rcases List.mem_append.mp hp with hp | hp
    · exact h.2 p (List.mem_filter.mp hp).1
    · rcases List.mem_append.mp hp with hp | hp
      · exact (Mem.cells_mem hp).2.2
      · exact h.2 p (List.mem_filter.mp hp).1

theorem Mem.writeNat_wf {m : Mem} (a n v : Nat) (h : Mem.wf m) : Mem.wf (m.writeNat a n v) := Mem.write_wf a _ h

/-! ### Reading back -/

theorem Mem.read_filter (m : Mem) (p : Nat → Bool) (x : Nat) :
    Mem.read (m.filter (fun q => p q.1)) x = if p x then m.read x else unlistedByte := by
  induction m with
  | nil => simp [Mem.read]
  | cons q m ih =>
    obtain ⟨k, b⟩ := q
    by_cases hk : p k
    · simp only [List.filter_cons, hk, if_true, Mem.read, ih]
      by_cases e : k = x
      · subst e; simp [hk]
      · simp [e]
    · have hf : ((k, b) :: m).filter (fun q => p q.1) = m.filter (fun q => p q.1) := by simp [hk]
      rw [hf, ih]
      by_cases e : k = x
      · subst e; simp [hk]
      · simp [Mem.read, e]

theorem Mem.read_append (m n : Mem) (x : Nat) (h : ∀ p ∈ m, p.1 ≠ x) : Mem.read (m ++ n) x = n.read x := by
  induction m with
  | nil => rfl
  | cons q m ih =>
    obtain ⟨k, b⟩ := q
    have h1 : k ≠ x := h (k, b) (by simp)
    simp [Mem.read, h1, ih (fun p hp => h p (by simp [hp]))]

theorem Mem.read_append_left (m n : Mem) (x : Nat) (h : ∀ p ∈ n, p.1 ≠ x) : Mem.read (m ++ n) x = m.read x := by
  induction m with
  | nil =>
    have := Mem.read_append n [] x h
    simpa [Mem.read] using this
  | cons q m ih =>
    obtain ⟨k, b⟩ := q
    simp [Mem.read, ih]

theorem Mem.read_cells (a : Nat) (bs : List Byte) (x : Nat) :
    Mem.read (Mem.cells a bs) x = if a ≤ x then bs.getD (x - a) unlistedByte else unlistedByte := by
  induction bs generalizing a with
  | nil => simp [Mem.cells, Mem.read]
  | cons b bs ih =>
    have key : (if a + 1 ≤ x then bs.getD (x - (a + 1)) unlistedByte else unlistedByte)
        = if x = a then unlistedByte else if a ≤ x then (b :: bs).getD (x - a) unlistedByte else unlistedByte := by
      by_cases e : x = a
      · subst e; simp
      · by_cases l : a ≤ x
        · have : x - a = (x - (a + 1)) + 1 := by omega
          simp [e, l, this, show a + 1 ≤ x by omega]
        · simp [e, l, show ¬ (a + 1 ≤ x) by omega]
    unfold Mem.cells
    split
    · rename_i hb
      rw [ih, key]
      by_cases e : x = a
      · subst e; simp [hb]
      · simp [e]
    · simp only [Mem.read, ih, key]
      by_cases e : x = a
      · subst e; simp
      · simp [e, Ne.symm e]

/-- A read after a write: the written byte inside the range, the old one outside. -/
theorem Mem.read_write (m : Mem) (a : Nat) (bs : List Byte) (x : Nat) :
    (m.write a bs).read x = if a ≤ x ∧ x < a + bs.length then bs.getD (x - a) unlistedByte else m.read x := by
  unfold Mem.write
  have hl := Mem.read_filter m (fun k => decide (k < a)) x
  have hr := Mem.read_filter m (fun k => decide (a + bs.length ≤ k)) x
  by_cases h1 : x < a
  · rw [Mem.read_append_left, hl]
    · simp [h1, show ¬ (a ≤ x ∧ x < a + bs.length) by omega]
    · intro p hp
      rcases List.mem_append.mp hp with hp | hp
      · have := Mem.cells_mem hp; omega
      · have := (List.mem_filter.mp hp).2; simp at this; omega
  · rw [Mem.read_append _ _ _ (fun p hp => by have := (List.mem_filter.mp hp).2; simp at this; omega)]
    by_cases h2 : x < a + bs.length
    · rw [Mem.read_append_left _ _ _ (fun p hp => by have := (List.mem_filter.mp hp).2; simp at this; omega), Mem.read_cells]
      simp [show a ≤ x by omega, h2]
    · rw [Mem.read_append _ _ _ (fun p hp => by have := Mem.cells_mem hp; omega), hr]
      simp [h2, show a + bs.length ≤ x by omega]

theorem Mem.read_write_outside {m : Mem} {a x : Nat} {bs : List Byte} (h : x < a ∨ a + bs.length ≤ x) :
    (m.write a bs).read x = m.read x := by
  rw [Mem.read_write, if_neg (by omega)]

theorem Mem.length_readBytes (m : Mem) (a n : Nat) : (m.readBytes a n).length = n := by
  induction n generalizing a with
  | zero => rfl
  | succ n ih => simp [Mem.readBytes, ih]

theorem Mem.getElem_readBytes (m : Mem) (a n i : Nat) (h : i < (m.readBytes a n).length) :
    (m.readBytes a n)[i] = m.read (a + i) := by
  induction n generalizing a i with
  | zero => simp [Mem.readBytes] at h
  | succ n ih =>
    cases i with
    | zero => simp [Mem.readBytes]
    | succ i => simp only [Mem.readBytes, List.getElem_cons_succ, ih]; congr 1; omega

/-- The bytes just written are read back. -/
theorem Mem.readBytes_write (m : Mem) (a : Nat) (bs : List Byte) : (m.write a bs).readBytes a bs.length = bs := by
  apply List.ext_getElem
  · exact Mem.length_readBytes _ _ _
  · intro i h1 h2
    rw [Mem.getElem_readBytes, Mem.read_write, if_pos (by omega)]
    simp [List.getD_eq_getElem?_getD, h2]

theorem Mem.readBytes_write_outside {m : Mem} {a b n : Nat} {bs : List Byte} (h : b + n ≤ a ∨ a + bs.length ≤ b) :
    (m.write a bs).readBytes b n = m.readBytes b n := by
  apply List.ext_getElem
  · simp [Mem.length_readBytes]
  · intro i h1 h2
    rw [Mem.length_readBytes] at h1
    rw [Mem.getElem_readBytes, Mem.getElem_readBytes, Mem.read_write_outside (by omega)]

/-! ### Little-endian numbers -/

@[simp] theorem length_leBytes (n v : Nat) : (leBytes n v).length = n := by
  induction n generalizing v with
  | zero => rfl
  | succ n ih => simp [leBytes, ih]

theorem leNat_leBytes (n v : Nat) : leNat (leBytes n v) = v % 256 ^ n := by
  induction n generalizing v with
  | zero => simp [leBytes, leNat, Nat.mod_one]
  | succ n ih =>
    simp only [leBytes, leNat, ih, BitVec.toNat_ofNat, show (2 : Nat) ^ 8 = 256 from rfl]
    rw [Nat.pow_succ, Nat.mul_comm (256 ^ n) 256, Nat.mod_mul]

/-- A number just written is read back, cut to its bytes. -/
theorem Mem.readNat_writeNat (m : Mem) (a n v : Nat) : (m.writeNat a n v).readNat a n = v % 256 ^ n := by
  unfold Mem.readNat Mem.writeNat
  have h := Mem.readBytes_write m a (leBytes n v)
  rw [length_leBytes] at h
  rw [h, leNat_leBytes]

theorem leNat_lt (bs : List Byte) : leNat bs < 256 ^ bs.length := by
  induction bs with
  | nil => simp [leNat]
  | cons b bs ih =>
    have := b.isLt
    simp only [leNat, List.length_cons, Nat.pow_succ]; omega

/-- Equal memories in canonical form: a memory is known by its bytes. -/
theorem Mem.ext_of_wf {m n : Mem} (hm : Mem.wf m) (hn : Mem.wf n) (h : ∀ x, m.read x = n.read x) : m = n := by
  have lookup : ∀ {l : Mem}, Mem.wf l → ∀ {p : Host.Cell}, p ∈ l ↔ (l.read p.1 = p.2 ∧ p.2 ≠ unlistedByte) := by
    intro l
    induction l with
    | nil => intro _ p; simp [Mem.read]; exact fun e => e.symm
    | cons q l ih =>
      intro hl p
      obtain ⟨k, b⟩ := q
      have hl' : Mem.wf l := ⟨(List.pairwise_cons.mp hl.1).2, fun p hp => hl.2 p (by simp [hp])⟩
      constructor
      · intro hp
        refine ⟨?_, hl.2 p hp⟩
        rcases List.mem_cons.mp hp with rfl | hp
        · simp [Mem.read]
        · have := (List.pairwise_cons.mp hl.1).1 p hp
          simp only [Mem.read]
          rw [if_neg (by simp at this; omega)]
          exact ((ih hl').mp hp).1
      · rintro ⟨h1, h2⟩
        simp only [Mem.read] at h1
        split at h1
        · rename_i e
          subst h1; subst e; simp
        · exact List.mem_cons_of_mem _ ((ih hl').mpr ⟨h1, h2⟩)
  have hmem : ∀ p, p ∈ m ↔ p ∈ n := fun p => by rw [lookup hm, lookup hn, h]
  have nd : ∀ {l : Mem}, Mem.wf l → l.Nodup := fun hl => hl.1.imp (fun {a b} hab e => by subst e; omega)
  exact List.Perm.eq_of_pairwise (fun a b _ _ h1 h2 => by omega) hm.1 hn.1
    ((List.perm_ext_iff_of_nodup (nd hm) (nd hn)).mpr hmem)

end Sys2Proof.Machine
end

