-- ==== Sys2Proof/Laws/Xmss.lean ====
section
/-! SUPPORT. That a signature made by the standard's rule verifies, so that images exist which boot accepts (spec/22 R420). -/

namespace Sys2Proof.Machine

/-- Steps of a chain add up. -/
theorem xmssChain_add (seed : List Byte) (ots i m n j : Nat) (x : List Byte) :
    xmssChain seed ots i n (j + m) (xmssChain seed ots i m j x) = xmssChain seed ots i (m + n) j x := by
  induction m generalizing j x with
  | zero => simp [xmssChain]
  | succ m ih =>
    have h := ih (j + 1) (xmssHash 0 (xmssMask seed 0 ots i j 0) (maskBytes x (xmssMask seed 0 ots i j 1)))
    rw [show j + (m + 1) = j + 1 + m by omega, show m + 1 + n = (m + n) + 1 by omega]
    exact h

theorem shake256_length (bs : List Byte) : (shake256 bs).length = 32 := by
  simp [shake256, List.length_flatMap]

theorem xmssChain_length (seed : List Byte) (ots i n j : Nat) (x : List Byte) (h : x.length = 32) :
    (xmssChain seed ots i n j x).length = 32 := by
  induction n generalizing j x with
  | zero => exact h
  | succ n ih => exact ih _ _ (shake256_length _)

theorem xmssDigits_le (m : List Byte) : ∀ d ∈ xmssDigits m, d ≤ 15 := by
  intro d hd
  simp only [xmssDigits, List.mem_append, List.mem_flatMap, List.mem_cons, List.not_mem_nil, or_false] at hd
  have h (b : Byte) : b.toNat < 256 := b.isLt
  rcases hd with ⟨b, -, rfl | rfl⟩ | rfl | rfl | rfl
  · have := h b; omega
  · have := h b; omega
  all_goals omega

theorem xmssDigits_length (m : List Byte) (h : m.length = 32) : (xmssDigits m).length = 67 := by
  simp [xmssDigits, List.length_flatMap, h]

/-- 32 bytes of zeros: every secret of the signer, its seed and its siblings. -/
def zeros32 : List Byte := List.replicate 32 0

/-- The public key of the signer. -/
def signerKey : XmssKey :=
  ⟨xmssRoot zeros32 0 (List.replicate 10 zeros32) (xmssLeaf zeros32 0 ((List.range 67).map (fun i => xmssChain zeros32 0 i 15 0 zeros32))),
    zeros32⟩

/-- The digits of a message that the signer signs. -/
def signerDigits (msg : List Byte) : List Nat := xmssDigits (xmssDigest signerKey ⟨0, zeros32, [], []⟩ msg)

/-- The signer's signature of a message. -/
def signerSig (msg : List Byte) : XmssSig :=
  ⟨0, zeros32, (signerDigits msg).zipIdx.map (fun p => xmssChain zeros32 0 p.2 p.1 0 zeros32), List.replicate 10 zeros32⟩

/-- The signer's image of some bytes. -/
def signedBy (msg : List Byte) : SignedImage := ⟨msg, signerKey, signerSig msg⟩

theorem signerDigits_length (msg : List Byte) : (signerDigits msg).length = 67 := xmssDigits_length _ (shake256_length _)

theorem signer_formed (msg : List Byte) : XmssSig.formed (signerSig msg) = true := by
  have h : ∀ x ∈ (signerSig msg).ots, x.length = 32 := by
    intro x hx
    obtain ⟨p, -, rfl⟩ := List.mem_map.mp hx
    exact xmssChain_length _ _ _ _ _ _ (by simp [zeros32])
  simp only [XmssSig.formed, Bool.and_eq_true, decide_eq_true_eq, beq_iff_eq, List.all_eq_true]
  refine ⟨⟨⟨⟨⟨?_, ?_⟩, ?_⟩, h⟩, ?_⟩, ?_⟩
  · simp [signerSig]
  · simp [signerSig, zeros32]
  · simp [signerSig, signerDigits_length]
  · simp [signerSig]
  · simp [signerSig, zeros32]

theorem signer_ends (msg : List Byte) : xmssEnds signerKey (signerSig msg) (signerDigits msg) =
    (List.range 67).map (fun i => xmssChain zeros32 0 i 15 0 zeros32) := by
  have hl := signerDigits_length msg
  apply List.ext_getElem
  · simp [xmssEnds, signerSig, hl]
  · intro i h1 h2
    have hi : i < (signerDigits msg).length := by rw [hl]; simpa using h2
    have hd : (signerDigits msg)[i] ≤ 15 := xmssDigits_le _ _ (List.getElem_mem hi)
    have := xmssChain_add zeros32 0 i (signerDigits msg)[i] (15 - (signerDigits msg)[i]) 0 zeros32
    rw [show (signerDigits msg)[i] + (15 - (signerDigits msg)[i]) = 15 by omega, Nat.zero_add] at this
    simpa [xmssEnds, signerSig, signerKey] using this

/-- The root over the ends of the signer's chains is the one that its key names. -/
theorem signer_root (ends : List (List Byte)) (h : ends = (List.range 67).map (fun i => xmssChain zeros32 0 i 15 0 zeros32)) :
    xmssRoot zeros32 0 (List.replicate 10 zeros32) (xmssLeaf zeros32 0 ends) = signerKey.root := by subst h; rfl

/-- The signer's signature verifies. -/
theorem signer_verifies (msg : List Byte) : xmssVerify signerKey (signerSig msg) msg = true := by
  have h := signer_root _ (signer_ends msg)
  unfold xmssVerify
  exact Bool.and_eq_true_iff.mpr ⟨signer_formed msg, beq_iff_eq.mpr h⟩

/-- Fuses with the signer's key accept the signer's images. -/
theorem accepts_signed (f : Fuses) (msg : List Byte) (h : f.roots = [(XmssKey.hash signerKey, false)]) :
    f.accepts 0 (signedBy msg) = true := by
  simp [Fuses.accepts, signedBy, signer_verifies, h]

end Sys2Proof.Machine
end

