-- ==== Sys2Proof/Tests/Slice0.lean ====
section
/-! SUPPORT. Tests of the model, each on one step or one operation: ill-formed terms, words written out from the encodings of
spec/02, values worked in spec/, and for every statement with hypotheses a state and operands that meet them. -/

open Sys2Proof Sys2Proof.Machine

namespace Sys2Proof.Tests

set_option Elab.async false

/-! ### Small states -/

/-- The placed machine: core 0 of a context of one bench at pc 0x10000. -/
def demo : State := State.reset.placed

/-- `demo` with its core changed. -/
def demoWith (f : CoreSt → CoreSt) : State := demo.modCore ⟨1, 0⟩ f

/-- `demo` with two registers set. -/
def demoRegs (a b : Word) : State := demoWith (fun c => (c.wx 5 a).wx 6 b)

/-- Address `a` of the own scratchpad as a virtual address (spec/01 R16). -/
def own (a : Nat) : Word := word (0xFFFFFFFFFFF00000 + a)

/-- The same facts as `State.Clear` of the current core, computed. -/
def clearB (s : State) : Bool :=
  let c := s.core s.cur
  s.hasCore s.cur && decide (c.win.unc = none) && c.wp.toList.all (fun w => !w.ctl.getLsbD 0) && decide (s.mgmt.injected = [])
    && decide (s.poison = []) && decide ((s.ctx s.cur.asid).spillIn = []) && decide (c.replay = none)

theorem clear_of {s : State} (h : clearB s = true) : s.Clear s.cur := by
  simp only [clearB, Bool.and_eq_true, decide_eq_true_eq, List.all_eq_true, Bool.not_eq_true'] at h
  obtain ⟨⟨⟨⟨⟨⟨h1, h2⟩, h3⟩, h4⟩, h5⟩, h6⟩, h7⟩ := h
  exact ⟨h1, h2, h3, h4, h5, h6, h7⟩

/-- The same facts as `State.Still`, computed. -/
def stillB (s : State) : Bool :=
  let c := s.core s.cur
  let d := s.die (s.dieOf s.cur)
  clearB s && decide (c.sb = []) && decide (d.edge = []) && decide (d.shadow = []) && !s.watched
    && d.egress.all (fun h => !(h.isDev && decide (h.owner.1 = s.cur.asid) && decide (h.owner.2.1 = s.cur.l)))
    && decide (c.hostAmo = none) && decide (s.busq = []) && decide (c.rqout < 65535)

theorem still_of {s : State} (h : stillB s = true) : s.Still := by
  simp only [stillB, Bool.and_eq_true, decide_eq_true_eq, List.all_eq_true, Bool.not_eq_true', Bool.and_eq_false_imp,
    decide_eq_false_iff_not] at h
  obtain ⟨⟨⟨⟨⟨⟨⟨⟨h1, h2⟩, h3⟩, h4⟩, h5⟩, hd⟩, h8⟩, h9⟩, ha⟩ := h
  exact ⟨clear_of h1, h2, h3, h4, h5, fun h hh e1 e2 e3 => by simpa [e1, e2, e3] using hd h hh, h8, h9, ha⟩

/-- The same facts as `State.Quiet`, computed. -/
def quietB (s : State) : Bool := stillB s && decide ((s.core s.cur).stale = [])

theorem quiet_of {s : State} (h : quietB s = true) : s.Quiet := by
  simp only [quietB, Bool.and_eq_true, decide_eq_true_eq] at h
  exact ⟨still_of h.1, h.2⟩

/-- The same facts as `State.Open`, computed. -/
def openB (s : State) (p : Place) (n : Nat) : Bool :=
  decide (s.placeRefusal s.cur.asid p n = 0) && match s.servedBy s.cur.asid p with
    | some d => s.answers d
    | none => true

theorem open_of {s : State} {p : Place} {n : Nat} (h : openB s p n = true) : s.Open p n := by
  simp only [openB, Bool.and_eq_true, decide_eq_true_eq] at h
  refine ⟨h.1, fun d hd => ?_⟩
  have := h.2
  rw [hd] at this
  simpa using this

theorem ownOk_of {s : State} {a n : Nat} (h : (decide (a + n ≤ (s.ctx s.cur.asid).par.fp) && decide (a + n ≤ 2 ^ 20)
    && openB s (.scratch s.cur.l a) n) = true) : s.OwnOk a n := by
  simp only [Bool.and_eq_true, decide_eq_true_eq] at h
  exact ⟨h.1.1, h.1.2, open_of h.2⟩

/-- Where an access goes, or no place. -/
def placeOf (s : State) (va : Word) (n : Nat) (acc : Access) : Option Place := (s.resolve s.cur false va n acc).toOption

/-- The refusal code of an access, if it is refused. -/
def codeOf (s : State) (va : Word) (n : Nat) (acc : Access) : Option Nat :=
  match s.resolve s.cur false va n acc with
  | .error e => some e
  | .ok _ => none

/-- What an outcome's state answers to a question; `none` when the machine does not go on. -/
def after? {α : Type} (r : Host.Outcome State Fault Refusal) (f : State → α) : Option α :=
  match r with
  | .next t => some (f t)
  | _ => none

/-- `f` of the first core after the instruction at the pc of a state has run. -/
def afterStep {α : Type} (s : State) (i : Instr) (f : CoreSt → α) : Option α := after? (exec i s) (fun t => f (t.core s.cur))

/-! ### Witnesses: standard RISC-V -/

theorem demo_quiet : demo.Quiet := quiet_of (by decide +kernel)

theorem wit_IntegerOpResult :
    demo.hasCore demo.cur = true ∧ (let c := (demoRegs 0xFFFFFFFFFFFFFFFF 3).core ⟨1, 0⟩
     c.rx 5 = -1#64 ∧ c.rx 6 ≠ 0 ∧ c.rx 6 ≠ -1#64 ∧ c.rx 7 = 0) := by decide +kernel

theorem wit_FloatOpResult :
    (floatDo (.arith .add .s 1 2 3 0) (demo.core demo.cur)).isSome = true ∧
    floatDo (.arith .add .s 1 2 3 5) (demo.core demo.cur) = none := by decide +kernel

theorem wit_BranchJumpResult :
    let c := demo.core demo.cur
    brEval .bne (c.rx 0) (c.rx 0) = false ∧
    (brEval .beq (c.rx 0) (c.rx 0) = true ∧ (c.pc + brOff 0x7FE).toNat % 4 = 0) ∧
    (c.pc + sextNat 21 ((0x80000#20).toNat * 2)).toNat % 4 = 0 ∧ ((c.rx 0 + c.imm12 4) &&& ~~~1#64).toNat % 4 = 0 ∧
    (c.pc + brOff 0x7FF).toNat % 4 ≠ 0 ∧ (c.pc + sextNat 21 ((1#20).toNat * 2)).toNat % 4 ≠ 0 ∧
    ((c.rx 0 + c.imm12 3) &&& ~~~1#64).toNat % 4 ≠ 0 := by decide +kernel

theorem wit_LoadResult_scratch :
    (demoRegs (own 65528) 0).Quiet ∧ ((demoRegs (own 65528) 0).core ⟨1, 0⟩).ea 5 0 = own 65528 ∧ (own 65528).toNat % 8 = 0 ∧
    (demoRegs (own 65528) 0).resolve ⟨1, 0⟩ false (own 65528) 8 .load = .ok (.scratch 0 65528) ∧
    (demoRegs (own 65528) 0).Open (.scratch 0 65528) 8 :=
  ⟨quiet_of (by decide +kernel), by decide +kernel, by decide +kernel, by rfl, open_of (by decide +kernel)⟩

theorem wit_LoadResult_hbm :
    placeOf (demoRegs 0x10000 0) 0x10000 8 .load = some (.hbm 1 0x10000) ∧ openB (demoRegs 0x10000 0) (.hbm 1 0x10000) 8 = true := by
  decide +kernel

theorem wit_StoreBuffered :
    placeOf demo (own 8) 8 .store = some (.scratch 0 8) ∧ placeOf demo 0x18 8 .store = some (.hbm 1 0x18) ∧
    (Place.scratch 0 8).plain = true ∧ (Place.hbm 1 0x18).plain = true := by decide +kernel

theorem wit_AccessTraps :
    ((demoRegs (own 1) 0).core ⟨1, 0⟩).ea 5 0 = own 1 ∧ (own 1).toNat % loadBytes .lh ≠ 0 ∧ (own 1).toNat % storeBytes .sh ≠ 0 ∧
    (own 1).toNat % dblBytes true ≠ 0 ∧ (own 1).toNat % Size.bytes .h ≠ 0 ∧ (own 1 + word (dblBytes false)).toNat % dblBytes false ≠ 0 ∧
    (own 1).toNat % 4 ≠ 0 ∧ (own 4).toNat % 8 ≠ 0 ∧
    codeOf demo (own 65536) 8 .load = some 0x0A ∧
    (own 65536).toNat % 8 = 0 := by decide +kernel

theorem wit_AtomicReserveResult :
    let s := demoRegs 0x18 7
    quietB s = true ∧ placeOf s 0x18 8 .amo = some (.hbm 1 0x18) ∧ openB s (.hbm 1 0x18) 8 = true ∧
    placeOf s 0x18 8 .load = some (.hbm 1 0x18) ∧ placeOf s 0x18 8 .store = some (.hbm 1 0x18) ∧
    samoEval .cas 8 0 7 0 = some 7 ∧ samoEval .cas 8 1 7 0 = none ∧ (s.core s.cur).resv ≠ some (Place.hbm 1 0x18).unit := by
  decide +kernel

theorem wit_AtomicReserveResult_held :
    let s := demoWith (fun c => { c.wx 5 0x18 with resv := some (.hbm 0 0x10) })
    quietB s = true ∧ (s.core s.cur).resv = some (Place.hbm 1 0x18).unit := by decide +kernel

/-- `demoRegs` with three more leaves of 64 GiB: host bulk, host coherent and device registers. -/
def demoMapped (a b : Word) : State :=
  let s := demoRegs a b
  { s with hbm := ((s.hbm.write 0x4008 (leBytes 8 0x9B)).write 0x4010 (leBytes 8 0x11B)).write 0x4018 (leBytes 8 0x1DB) }

theorem wit_AtomicReserveResult_host :
    let s := demoMapped (word (2 ^ 37 + 0x18)) 7
    let b := demoMapped (word (2 ^ 36 + 0x18)) 7
    quietB s = true ∧ (s.die (s.dieOf s.cur)).egress = [] ∧ placeOf s (word (2 ^ 37 + 0x18)) 8 .amo = some (.hostCoh 0x18) ∧
    (Place.hostCoh 0x18).isHost = true ∧ (Place.hostCoh 0x18).takesAtomic (amoBulk .max && Config.hostAtomicOps 8) = true ∧
    (Place.hostCoh 0x18).takesAtomic (samoBulk .cas && Config.hostAtomicOps 8) = true ∧ samoEval .cas 8 0 7 0 = some 7 ∧
    samoEval .cas 8 1 7 0 = none ∧ quietB b = true ∧ placeOf b (word (2 ^ 36 + 0x18)) 8 .amo = some (.hostBulk 0x18) ∧
    (Place.hostBulk 0x18).takesAtomic (amoBulk .max && Config.hostAtomicOps 8) = false ∧ (Place.hostBulk 0x18).plain = false ∧
    placeOf b (word (2 ^ 36 + 0x18)) 8 .load = some (.hostBulk 0x18) ∧ placeOf b (word (2 ^ 36 + 0x18)) 8 .store = some (.hostBulk 0x18) := by
  decide +kernel

/-- An 8-byte store of 7 by core 0 of the placed context. -/
def storeTo (p : Place) (kind : WriteKind) : BufWrite := ⟨1, 0, p, 8, 7, kind, 0x18, 3, 4, none, .die, 0, [], 0⟩

theorem wit_FenceResult :
    let s := demoWith (fun c => { c with sb := [storeTo (.scratch 0 8) .store, storeTo (.scratch 0 12) .store] })
    quietB (s.modCore s.cur (fun c => { c with sb := [] })) = true ∧ s.ownStores (s.core s.cur).sb = true ∧ quietB demo = true := by
  decide +kernel

theorem wit_FenceResult_stale :
    let s := demoWith (fun c => { c with stale := [⟨false, 8, 1, false, false⟩] })
    stillB s = true ∧ s.hasCore s.cur = true ∧ (s.core s.cur).stale ≠ [] ∧ XDir.el ≠ .se ∧ XDir.both ≠ .se := by decide +kernel

theorem wit_FenceResult_one :
    let ok (p : Place) (pfx : Option Pfx) (wd : Bool) : Bool :=
      let s := demoWith (fun c => { c with sb := [storeTo p .store], pfx })
      let w := storeTo p .store
      quietB (s.modCore s.cur (fun c => { c with sb := [] })) && w.win.isNone && decide (w.asid = s.cur.asid) && decide (w.l = s.cur.l) &&
      s.hasCore s.cur && decide (s.dieOf s.cur < s.dies.length) && (wide (s.core s.cur).scope == wd)
    ok (.hbm 1 0x18) none false = true ∧ ok (.hostBulk 0x18) none false = true ∧
    ok (.hbm 1 0x18) (some ⟨0x10000, none, some .pkg⟩) true = true ∧ ok (.hostBulk 0x18) (some ⟨0x10000, none, some .sys⟩) true = true ∧
    demo.placeRefusal 1 (.hbm 1 0x18) 8 = 0 ∧ (demo.die (demo.stackOf 0x18)).lost = false := by decide +kernel

theorem wit_PrefixResult :
    let s := demoWith (fun c => { c with pfx := some ⟨c.pc, some 5, some .pkg⟩ })
    (demo.core demo.cur).ix = none ∧ (demo.core demo.cur).pfx.bind Pfx.scx = none ∧
    (s.core s.cur).ix = some 5 ∧ (s.core s.cur).pfx.bind Pfx.scx ≠ none := by decide +kernel

theorem wit_CsrResult :
    let c := demo.core demo.cur
    csrAllowed c .rs 0xC00 0 = true ∧ csrWrites .rs 0 = false ∧ csrAllowed c .rw 0x800 0 = true ∧ csrWrites .rw 0 = true ∧
    Fmt.invalidReason ((0x000D073C#64) &&& 0xFFFFF#64) = 0 ∧ Fmt.invalidReason ((0#64) &&& 0xFFFFF#64) ≠ 0 ∧
    csrAllowed c .rs 0xC00 1 = false ∧ csrAllowed c .rs 0xFFF 0 = false := by decide +kernel

/-! ### Witnesses: tasks, the runtime level, groups -/

theorem wit_PublishResult :
    let s := demoRegs 64 0
    quietB s = true ∧ (64 : Nat) % 64 = 0 ∧ (s.ctx s.cur.asid).recReason (s.recordAt 64) = 0 ∧
    s.poolFull ((s.ctx s.cur.asid).dieOf (s.recordAt 64).lcn) = false ∧ bits 0 62 44 = 0 ∧ bits 0 43 12 ≤ (s.core s.cur).ctr 0 := by
  decide +kernel

theorem wit_PublishResult_publishable : (demoRegs 64 0).Publishable 64 :=
  ⟨by decide, ownOk_of (by decide +kernel), by decide +kernel⟩

theorem wit_PublishResult_armed :
    let s := demoRegs 64 0x3007
    quietB s = true ∧ bits (0x3007#64) 62 44 = 0 ∧ (s.core s.cur).ctr (bits (0x3007#64) 11 0) < bits (0x3007#64) 43 12 ∧
    (s.core s.cur).waiting.length < 256 := by decide +kernel

theorem wit_PublishResult_refused :
    (demoRegs 65 0).Quiet ∧ (65 : Nat) % 64 ≠ 0 ∧ (65536 : Nat) % 64 = 0 ∧ (demo.ctx demo.cur.asid).par.fp < 65536 + 64 ∧
    (let s := demoWith (fun c => { c with scratch := c.scratch.write 64 (leBytes 8 (3 * 2 ^ 54)) })
     (s.ctx s.cur.asid).recReason (s.recordAt 64) ≠ 0 ∧ openB s (.scratch s.cur.l 64) 64 = true) :=
  ⟨quiet_of (by decide +kernel), by decide +kernel⟩

theorem wit_PublishResult_arm :
    let s := demoWith (fun c => { c.wx 5 64 with waiting := List.replicate 256 ⟨placedRec, 7, 1, []⟩ })
    quietB s = true ∧ bits (2 ^ 44) 62 44 ≠ 0 ∧ bits (0x1007#64) 62 44 = 0 ∧ (s.core s.cur).ctr (bits (0x1007#64) 11 0) < bits (0x1007#64) 43 12 ∧
    256 ≤ (s.core s.cur).waiting.length ∧ (s.ctx s.cur.asid).recReason (s.recordAt 64) = 0 := by decide +kernel

theorem wit_PublishResult_arm_own :
    (demoWith (fun c => { c.wx 5 64 with waiting := List.replicate 256 ⟨placedRec, 7, 1, []⟩ })).OwnOk 64 64 := ownOk_of (by decide +kernel)

theorem wit_SigIncrement :
    let s := demoRegs 0x5000003 0xFFFFFFFF
    quietB s = true ∧ bits (0x5000003#64) 63 36 = 0 ∧ bits (0xFFFFFFFF#64) 63 32 = 0 ∧
    bits (0x5000003#64) 23 0 < (s.ctx s.cur.asid).n := by decide +kernel

theorem wit_SigIncrement_count : demo.hasCore ⟨1, 0⟩ = true ∧ tabOk (demo.core ⟨1, 0⟩).ctrs := by
  refine ⟨by decide +kernel, ?_⟩
  have h : (demo.core ⟨1, 0⟩).ctrs = [] := by decide +kernel
  rw [h]
  exact List.Pairwise.nil

theorem wit_TaskEndYield :
    (demo.core demo.cur).task = some placedRec ∧ (demo.core demo.cur).cont = false ∧
    (demoWith (fun c => { c with cont := true })).hasCore ⟨1, 0⟩ = true := by decide +kernel

theorem wit_ServiceCallReturn :
    let s := demoWith (fun c => { c.wx 5 2 with csr := { c.csr with rtsvc := word (3 * 2 ^ 56) } })
    let t := demoWith (fun c => { c with runtime := true })
    ((s.core s.cur).runtime = false ∧ ((s.core s.cur).rx 5).toNat < bits (s.core s.cur).csr.rtsvc 63 56) ∧
    bits (demo.core demo.cur).csr.rtsvc 63 56 ≤ ((demo.core demo.cur).rx 5).toNat ∧ (t.core t.cur).runtime = true := by
  decide +kernel

theorem wit_GroupResult :
    bits (5#64) 63 12 = 0 ∧ bits (5#64) 11 0 ≠ 0 ∧ bits (0x1005#64) 63 12 ≠ 0 ∧ bits (0#64) 11 0 = 0 ∧ (1 : Nat) ≠ 0 ∧
    (2, 0) ≠ ((1, 0) : Nat × Nat) := by decide +kernel

theorem wit_BarrierResult :
    let d : Word := 0x3000
    quietB demo = true ∧ bits d 63 21 = 0 ∧ bits 0 63 33 = 0 ∧ bits 0 19 0 = 0 ∧ Barrier.gthOf d = false ∧ bits 0 63 2 = 0 := by
  decide +kernel

theorem wit_BarrierResult_arrive : demo.MayArrive 0x83000 true ∧ demo.MayArrive 0x3000 false :=
  ⟨⟨by decide +kernel, by decide +kernel, by decide +kernel, by decide +kernel⟩,
   ⟨by decide +kernel, by decide +kernel, by decide +kernel, by decide +kernel⟩⟩

theorem wit_BarrierResult_done :
    let s := demoWith (fun c => { c with arrivals := [⟨3, 0, false, true, 7, [], [], some (0, c.pc)⟩] })
    quietB s = true ∧ s.arrivalOf s.cur.asid (s.core s.cur).lcn (Barrier.nameOf 0x3000) =
      some ⟨3, 0, false, true, 7, [], [], some (s.cur.l, (s.core s.cur).pc)⟩ := by decide +kernel

theorem wit_BarrierResult_record :
    let s := demoWith (fun c => { c with arrivals := [⟨3, 0, true, true, 7, leBytes 40 9, [], none⟩] })
    quietB s = true ∧ bits (0x83000#64) 63 21 = 0 ∧ Barrier.gthOf 0x83000 = true ∧ bits (0xFFD8#64) 63 33 = 0 ∧
    bit 0xFFD8 32 = false ∧ bits (0xFFD8#64) 19 0 + 40 = (s.ctx s.cur.asid).par.fp ∧ bits (0xFFD8#64) 19 0 % 8 = 0 ∧
    s.arrivalOf s.cur.asid (s.core s.cur).lcn (Barrier.nameOf 0x83000) = some ⟨3, 0, true, true, 7, leBytes 40 9, [], none⟩ ∧
    (s.core s.cur).lcn = s.cur.l := by decide +kernel

theorem wit_BarrierResult_vote : [3, 0, 3] ≠ [] ∧ (∀ x ∈ [3, 0, 3], x ≤ 3) ∧ [3, 0, 3].length < 2 ^ 24 := by decide

theorem wit_SuperstepGang :
    let s := demoWith (fun c => { c with sstepAt := some 0, sstepBy := some (0, c.pc, 5), sstepDone := true })
    quietB s = true ∧ (s.core ⟨1, 0⟩).sstepAt.isSome = true ∧ (s.core ⟨1, 0⟩).sstepBy = some (0, (s.core ⟨1, 0⟩).pc, 5) ∧
    (s.core ⟨1, 0⟩).sstepDone = true ∧ (s.core s.cur).lcn = 0 ∧
    (demo.core ⟨1, 0⟩).sstepAt = none ∧ (demo.core ⟨1, 0⟩).sstepBy = none ∧ demo.hasCore ⟨1, 0⟩ = true := by decide +kernel

theorem wit_SuperstepGang_fuse :
    let s := (demoRegs 3 0).modCore ⟨1, 1⟩ (fun c => { c with fuse := some 3 })
    let mask : BitVec 4 := ((s.core s.cur).rx 5).setWidth 4
    bits ((s.core s.cur).rx 5) 63 4 = 0 ∧ popcount 4 mask.toNat = 2 ∧ mask.getLsbD (s.cur.l % 4) = true ∧
    (s.core s.cur).gang = none ∧ (∀ i < 4, s.hasCore ⟨s.cur.asid, s.cur.l / 4 * 4 + i⟩ = true) ∧
    (∀ i < 4, i ≠ s.cur.l % 4 → mask.getLsbD i = true → (s.core ⟨s.cur.asid, s.cur.l / 4 * 4 + i⟩).fuse = some mask) ∧
    (∀ i < 4, mask.getLsbD i = false → (s.core ⟨s.cur.asid, s.cur.l / 4 * 4 + i⟩).fuse = none) := by decide +kernel

/-! ### Witnesses: queues, messages, waits -/

/-- A context with queue 2 of capacity 1, holding `es` on die 0. -/
def demoQueue (es : List SqEntry) (e : Word) : State :=
  (demoRegs e 0).modCtx 1 (fun x => { x with
    par := { x.par with sc0 := word (2 ^ 50) }, squeues := es.map (fun y => (0, 2, y)) })

theorem wit_StageQueueResult :
    let s := demoQueue [] 0x500000007
    let t := demoQueue [⟨5, 7, []⟩] 0x80000000
    quietB s = true ∧ bit (0x500000007#64) 31 = false ∧ (s.ctx s.cur.asid).qen 2 = true ∧
    ((s.ctx s.cur.asid).sq (s.dieOf s.cur) 2).length < (s.ctx s.cur.asid).qcap ∧ bit (0x80000000#64) 31 = true ∧
    (s.ctx s.cur.asid).qen 3 = false ∧ (t.ctx t.cur.asid).qcap ≤ ((t.ctx t.cur.asid).sq (t.dieOf t.cur) 2).length ∧
    leastEntry ((s.ctx s.cur.asid).sq (s.dieOf s.cur) 2) = none ∧
    leastEntry ((t.ctx t.cur.asid).sq (t.dieOf t.cur) 2) = some ⟨5, 7, []⟩ := by decide +kernel

theorem wit_MessageFifoResult :
    let s := demoRegs 1 65472
    quietB s = true ∧ bits (1#64) 63 61 = 0 ∧ bits (1#64) 59 48 = 0 ∧ bits (1#64) 47 28 = 0 ∧ bit 1 24 = false ∧ bit 1 60 = false ∧
    bits (1#64) 23 0 < (s.ctx s.cur.asid).n ∧ (65472 : Nat) % 8 = 0 ∧ (s.core s.cur).outq.length < 8 ∧
    (s.ctx s.cur.asid).portTo s.cur.l 1 = none := by decide +kernel

theorem wit_MessageFifoResult_own : (demoRegs 1 65472).OwnOk 65472 64 := ownOk_of (by decide +kernel)

theorem wit_MessageFifoResult_pop :
    let m : Msg := ⟨1, 1, 1, 0, leBytes 8 5, none, 0, none, 0, 0, []⟩
    let s := (demoWith (fun c => ({ c with inbox := c.inbox.set 7 [m] } : CoreSt).setQueue .eqc { c.eqc with fifo := [(9, none, [])] }))
    quietB s = true ∧ (s.core s.cur).inbox.getD 7 [] = [m] ∧ (s.core s.cur).inbox.getD 0 [] = [] ∧
    65472 + 64 ≤ (s.ctx s.cur.asid).par.fp ∧ (s.core s.cur).fifoHead .eqc = some 9 ∧ (s.core s.cur).fifoHead .eqm = none := by
  decide +kernel

theorem wit_GuardResolve : demo.hasCore demo.cur = true ∧ (15#4) ≠ 0 ∧ (0#4) = 0 := by decide +kernel

theorem wit_ConditionWaitResult :
    let s := demoRegs 1 0
    quietB s = true ∧ ((demo.core demo.cur).pc + brOff 0x7FE).toNat % 4 = 0 ∧ ((demo.core demo.cur).pc + brOff 1).toNat % 4 ≠ 0 ∧
    (s.core s.cur).rx 5 ≠ 0 ∧ s.cbits s.cur &&& (s.core s.cur).rx 5 = 0 ∧ (demo.core demo.cur).rx 5 = 0 ∧
    ((demo.core demo.cur).rx 5).toNat ≤ demo.pcc (demo.dieOf demo.cur) ∧
    s.pcc (s.dieOf s.cur) < ((s.core s.cur).rx 5).toNat := by decide +kernel

/-! ### Witnesses: windows -/

/-- A context with manual windows, a ring of `n` slots, and clean register units; `win` is the window state of its core. -/
def demoWindow (n : Nat) (win : WinSt) (f : CoreSt → CoreSt) : State :=
  (demoWith (fun c => f { c with wLines := 0, wRegs := 0, win })).modCtx 1 (fun x => { x with
    par := { x.par with undo := 1, logsize := n } })

theorem wit_WindowOpenCommit :
    let s := demoWindow 64 ⟨0, none⟩ id
    quietB s = true ∧ (s.ctx s.cur.asid).par.undo = 1 ∧ (s.core s.cur).ckptNeed ≤ s.ringFree s.cur.asid ∧
    s.logTakes s.cur none (s.core s.cur).ckptNeed = true ∧ (let t := demoWindow 0 ⟨0, none⟩ id
     quietB t = true ∧ (t.ctx t.cur.asid).par.undo = 1 ∧ t.ringFree t.cur.asid < (t.core t.cur).ckptNeed) ∧
    (demo.ctx demo.cur.asid).par.undo ≠ 1 ∧ bits ((s.core s.cur).rx 5) 63 32 = 0 := by decide +kernel

theorem wit_WindowOpenCommit_sixteen :
    let s (lfull : Nat) : State := (demoWindow 64 ⟨16, some (0, 15)⟩ id).modCtx 1 (fun x => { x with par := { x.par with lfull } })
    let t := (s 2).commitTo (s 2).cur 0
    (s 2).hasCore (s 2).cur = true ∧ ((s 2).core (s 2).cur).win.unc = some (0, 15) ∧ ((s 2).core (s 2).cur).sb = [] ∧
    ((s 2).ctx (s 2).cur.asid).par.undo = 1 ∧ 16 ≤ ((s 2).core (s 2).cur).win.count ∧ ((s 1).ctx (s 1).cur.asid).par.lfull ≠ 2 ∧
    ((s 2).ctx (s 2).cur.asid).par.lfull = 2 ∧ (t.core t.cur).ckptNeed ≤ t.ringFree t.cur.asid ∧
    t.logTakes t.cur none (t.core t.cur).ckptNeed = true := by decide +kernel

theorem wit_WindowOpenCommit_range :
    let s (v : Word) : State := demoWindow 64 ⟨8, some (5, 7)⟩ (fun c => c.wx 5 v)
    let w (v : Word) : BitVec 32 := v.setWidth 32
    (s 7).hasCore (s 7).cur = true ∧ ((s 7).core (s 7).cur).win.unc = some (5, 7) ∧ ((s 7).core (s 7).cur).rx 5 = 7 ∧
    bits (0xFFFFFFFF#64) 63 32 = 0 ∧ (w 7 - 5).toNat ≤ ((7#32) - 5).toNat ∧ ((7#32) - 5).toNat < 2 ^ 31 ∧
    2 ^ 31 ≤ (w 4 - 5).toNat ∧ (w 8 - 5).toNat < 2 ^ 31 ∧ ((7#32) - 5).toNat < (w 8 - 5).toNat := by decide +kernel

/-- `demoWindow` with window 0 just opened. -/
def demoOpened : State := (demoWindow 64 ⟨0, none⟩ id).openWindow ⟨1, 0⟩ 0 0x10004 5

/-- The machine of a `Try` that is done. -/
def doneOf (r : Try) : Option State :=
  match r with
  | .done t => some t
  | .blocked _ => none

/-- `demoOpened` as its rewind to window 0 begins, and as its stores drain. -/
def demoRewind : Option State :=
  let s := demoOpened.modCore demoOpened.cur (fun c => c.rewindStart 0)
  doneOf (tryEach (fun t i => t.drainCore i) s ((s.ctx 1).rewindSet s.cur))

theorem wit_WindowRewindStatus :
    let s := demoOpened
    s.hasCore s.cur = true ∧ (s.core s.cur).win.unc = some (0, 0) ∧ (s.core s.cur).rewinding = none ∧
    (s.ctx s.cur.asid).par.undo ≠ 0 ∧ bits ((s.core s.cur).rx 7) 63 32 = 0 ∧ (s.ctx s.cur.asid).rewindSet s.cur = [s.cur] ∧
    (s.core s.cur).win.has 0 = true ∧
    (demoRewind.map (fun t => (t.core s.cur).settled)) = some true ∧
    (demoRewind.bind (fun t => doneOf (t.rewindCore s.cur 0))).isSome = true := by decide +kernel

theorem wit_WindowRewindStatus_one :
    let s := demoOpened
    (s.ctx s.cur.asid).par.undo = 1 ∧ (s.core s.cur).sb = [] ∧ (s.core s.cur).flights = [] ∧ (s.core s.cur).rqout = 0 ∧
    (s.die (s.dieOf s.cur)).edge = [] ∧ (s.die (s.dieOf s.cur)).shadow = [] ∧
    ((((s.core s.cur).ckpts.find? (fun k => k.win == 0)).bind Ckpt.resume).map (fun r => (r.1, r.2.1))) = some (0x10004, 5) := by
  decide +kernel

theorem wit_WindowRewindStatus_status :
    ((demoRegs 7 8).core ⟨1, 0⟩).rx 5 = 7 ∧ 7 < (((demoRegs 7 8).core ⟨1, 0⟩).rx 6).toNat ∧ (demo.core demo.cur).win.unc = none := by
  decide +kernel

theorem wit_LogRestores :
    let s := demoOpened
    (s.ctx? 1).isSome = true ∧ s.hasCore ⟨1, 1⟩ = true ∧ (s.core ⟨1, 0⟩).win.has 0 = true ∧
    (∀ c ∈ s.cores, Mem.wf c.scratch) ∧ s.ringFree 1 ≥ 1 ∧
    (doneOf (s.perform ⟨1, 0⟩ (some 0) 3 (.scratch 1 65528) (leBytes 8 7) false .access true)).isSome = true := by decide +kernel

/-! ### Witnesses: views, rings, shapes -/

/-- A vector view of `n` elements of FP32 at register-space address `a`, an accumulator view, a ring of two entries. -/
def vecDesc (a n : Nat) : Desc := ⟨word (0xA * 2 ^ 56 + a), word n⟩

theorem wit_ViewGet : (vget (demo.core demo.cur).vw 3 Desc.zero).isNone = true := by decide +kernel

theorem wit_ViewSet :
    (demo.core demo.cur).viewReason (vecDesc 0 16) = 0 ∧ (vecDesc 0 16).isNone = false ∧
    (demo.core demo.cur).viewReason (vecDesc 8 16) ≠ 0 ∧ (⟨0, 0⟩ : Desc).isNone = true := by decide +kernel

/-- `demo` with three views: a vector and a matrix of FP32 and an accumulator vector; and a ring of 8 entries of 16 bytes with
`k` of them occupied. -/
def demoViews (k n : Nat) : State := demoWith (fun c => { c.wx 5 (word n) with
  vw := ((c.vw.set 0 (vecDesc 0 16)).set 1 ⟨word (2 ^ 62 + 0xA * 2 ^ 56 + 0x400), word (16 * 2 ^ 32 + 4 * 2 ^ 16 + 2)⟩).set 2
    ⟨word (2 ^ 63 + 0x10000), word (64 * 2 ^ 32 + 4 * 2 ^ 16 + 1)⟩ |>.set 3 ⟨word (3 * 2 ^ 56 + 0x800), word 4⟩
  rg := c.rg.set 1 ⟨word (2 ^ 52 + 5 * 2 ^ 40 + 7 * 2 ^ 32 + 2 ^ 20), word (k * 2 ^ 16)⟩
  rgp := c.rgp.set 1 ⟨0, 0⟩ })

theorem wit_TransferMoveResult :
    (demoViews 0 0).Quiet ∧ (demoViews 0 0).TransferOk 0 (word 65472) true false ∧
    (demoViews 0 0).TransferOk 1 (word 0) false true :=
  ⟨quiet_of (by decide +kernel),
   ⟨by decide +kernel, by decide +kernel, by decide +kernel, by decide +kernel, by decide +kernel, ownOk_of (by decide +kernel),
     by decide +kernel⟩,
   ⟨by decide +kernel, by decide +kernel, by decide +kernel, by decide +kernel, by decide +kernel, ownOk_of (by decide +kernel),
     by decide +kernel⟩⟩

theorem wit_TransferMoveResult_copy : (demoViews 0 0).MoveOk 0 0 ∧ (demoViews 0 0).MoveOk 3 2 :=
  ⟨⟨by decide +kernel, by decide +kernel⟩, ⟨by decide +kernel, by decide +kernel⟩⟩

theorem wit_TransferMoveResult_resolve :
    let s := demoViews 0 0
    let c := s.core s.cur
    let S := vget c.vw 2 Desc.zero
    let D := vget c.vw 3 Desc.zero
    S.isAcc = true ∧ D.isAcc = false ∧ D.fsel = false ∧ D.etype = 3 ∧ S.strict = false ∧
    (S.readFrom (S.container (c.viewFmt S)) c.reg).all (fun e => (AE.ofNat e).float == (D.etype == 0xA)) = true := by
  decide +kernel

theorem wit_RingShapeResult :
    let s := demoViews 3 3
    let d := vget (s.core s.cur).rg 1 Desc.zero
    let p := vget (s.core s.cur).rgp 1 ⟨0, 0⟩
    quietB s = true ∧ (s.core s.cur).namesRing 1 = false ∧ d.d0 ≠ 0 ∧ d.ringReason (s.ctx s.cur.asid).par.fp = 0 ∧
    d.unset = false ∧ d.occ = 3 ∧ d.count = 8 ∧ p.rd.toNat = d.head ∧ ((s.core s.cur).rx 5).toNat ≤ d.count - d.occ ∧
    ((s.core s.cur).rx 5).toNat ≤ d.occ ∧ bit d.d0 52 = true ∧ ((⟨0, 0⟩ : Desc) = ⟨0, 0⟩) ∧
    d.count - d.occ < (6#64).toNat ∧ d.occ < (4#64).toNat := by decide +kernel

/-- A record of one dimension with `e` elements of type `t`. -/
def shapeBytes (e t : Nat) : List Byte := leBytes 8 t ++ leBytes 8 e ++ List.replicate 48 0

theorem wit_RingShapeResult_room :
    let s := demoViews 3 3
    let d := vget (s.core s.cur).rg 1 Desc.zero
    let k := bits d.d0 51 40
    let t := (s.modCore s.cur (fun c => { c with waiting := [⟨placedRec, k, 1, []⟩] })).modDie 0 (fun x => { x with
      pool := List.replicate 8192 ⟨1, placedRec, 0, false, 0, []⟩ })
    s.launchRoom s.cur k 3 = true ∧ quietB t = true ∧ t.launchRoom t.cur k 3 = false ∧ vget (t.core t.cur).rg 1 Desc.zero = d := by
  decide +kernel

theorem wit_RingShapeResult_shape :
    let s (bs : List Byte) : State := demoWith (fun c => { c with scratch := (c.scratch.write 64 bs).write 144 bs })
    let r (s : State) (a : Nat) : ShapeRec := ShapeRec.ofBytes (s.peek (.scratch s.cur.l a) 64)
    let t := s (shapeBytes 8 2)
    let big := s (leBytes 8 0x1A ++ leBytes 8 0xFFFFFFFF ++ leBytes 8 262140 ++ List.replicate 8 0 ++ leBytes 8 262140 ++
      List.replicate 24 0)
    (r big 64).early = 0 ∧ (r big 64).tooBig = true ∧
    quietB t = true ∧ openB t (.scratch 0 144) 64 = true ∧ (r t 64).early = 0 ∧ (r t 64).tooBig = false ∧ (64 : Nat) % 64 = 0 ∧
    (r t 144).early = 0 ∧ (r t 144).tooBig = false ∧ (144 : Nat) % 64 ≠ 0 ∧
    (r (s (shapeBytes 0 2)) 64).early ≠ 0 := by decide +kernel

theorem wit_NarrowConvert : demo.hasCore demo.cur = true := by decide +kernel

/-! ### Witnesses: command words -/

/-- A header that only takes effect, and a body of zeros: operands a, b and d are view 0. -/
def hdr0 : Header := ⟨0, 0, 0, 0, 0, 0, false, false, 0⟩
def body0 : MvBody := ⟨0, 0, 0, 0, 0, 0, 0, 0, 0, 0, 0, false, 0, 0, 0, 0, 0, 0, 0⟩

/-- `vadd` of view 0 to itself; a fill of 16 bytes of zeros at scratchpad 0x400; `prank` of group 0 to scratchpad 0x800. -/
def vaddI : Instr := .vadd hdr0 body0
def filI : Instr := .fil { hdr0 with ccnt := 0 } { grp := 0, scope := 0, len := 16, shen := false, shp := 0, dspace := 2, dst := 0x400, lo := 0 }
def prankI : Instr := .prank hdr0 ⟨0, 0, 0, false, 0, 0, 0, 0x800, 0⟩

/-- The word of an instruction. -/
def wordOf (i : Instr) : CmdWord := (encodeWord i).getD 0

/-- A core with the word of `i` at scratchpad 0. -/
def demoPush (i : Instr) (n : Nat) : State :=
  (demoViews 0 0).modCore ⟨1, 0⟩ (fun c => { c.wx 6 (word n) with scratch := c.scratch.write 0 (leBytes 32 (wordOf i).toNat) })

/-- The reason with which a push of one word is refused, and the words that it captures. -/
def pushReason (s : State) (q : Queue) (w : CmdWord) : Nat :=
  (s.core s.cur).wordReason q (s.ctx s.cur.asid).par.fp 1 false ((s.core s.cur).capture q w)
def captured (s : State) (q : Queue) (w : CmdWord) : Bool :=
  match captureWords q 1 ((List.range 1).zip [w]) (s.reach s.cur.asid (.scratch s.cur.l 0) 32) with
  | .ok (ps, t) => quietB t && decide (t.cur = s.cur) && decide (ps.length = 1) && ((t.core s.cur).queue q).hasRoom q 1
  | .error _ => false

theorem wit_PushResult :
    let s := demoPush vaddI 1
    quietB s = true ∧ (1 : Nat) ≤ capWords .eqv ∧ (0 : Nat) % 32 = 0 ∧ ((s.core s.cur).rx 6) = word 1 ∧
    blockWords (s.peek (.scratch s.cur.l 0) 32) 1 = [wordOf vaddI] ∧ captured s .eqv (wordOf vaddI) = true ∧
    pushReason s .eqv (wordOf vaddI) = 0 ∧ pushReason s .eqv (wordOf filI) ≠ 0 ∧
    (let t := (demoPush vaddI 2).modCore ⟨1, 0⟩ (fun c => { c with scratch := c.scratch.write 32 (leBytes 32 (wordOf filI).toNat) })
     let ws := blockWords (t.peek (.scratch t.cur.l 0) 64) 2
     ws[1]? = some (wordOf filI) ∧ (t.core t.cur).rx 6 = word 2 ∧ pushReason t .eqv (wordOf filI) ≠ 0 ∧
     (match captureWords .eqv 2 ((List.range 1).zip (ws.take 1)) (t.reach t.cur.asid (.scratch t.cur.l 0) 64) with
      | .ok (ps, u) => quietB u && decide (u.cur = t.cur) && decide (ps.length = 1) &&
          decide ((u.ctx t.cur.asid).par.fp = (t.ctx t.cur.asid).par.fp) &&
          (u.core t.cur).wordReason .eqv (t.ctx t.cur.asid).par.fp 2 false ((u.core t.cur).capture .eqv (wordOf filI)) != 0
      | .error _ => false) = true) ∧
    (s.ctx s.cur.asid).par.fp = 65536 ∧ 65536 < 65536 + 32 * 1 ∧ (65536 : Nat) % 32 = 0 ∧
    ((demoPush vaddI 0).core ⟨1, 0⟩).rx 6 = 0 ∧ (1000#64).toNat > capWords .eqv ∧ (31 : Nat) % 32 ≠ 0 := by decide +kernel

theorem wit_PushResult_copy :
    captured (demoPush filI 1) .eqc (wordOf filI) = true ∧ (demoPush filI 1).cur = demo.cur ∧
    captured (demoPush prankI 1) .eqp (wordOf prankI) = true := by decide +kernel

theorem wit_PushResult_own : (demoPush vaddI 1).OwnOk 0 32 := ownOk_of (by decide +kernel)

/-- The machine with the word of `i` at the head of its queue, its guards examined. -/
def demoWord (i : Instr) : State := (demoViews 0 0).putWord (wordOf i)
def decided (s : State) : State := s.decideHeads s.cur

/-- The conditions of `State.MvStarts`, computed, and what the command comes to. -/
def mvStartsB (s : State) (q : Queue) (op : MvOp) (w : CmdWord) (p : MvOut → Bool) : Bool :=
  match (s.core s.cur).headOf q with
  | none => false
  | some h =>
    match (s.core s.cur).claims (fieldRings w) with
    | none => false
    | some e => clearB s && decide (h.pw.word = w) && s.mvReady s.cur q && (s.takeUnit s.cur q).isSome
      && (s.core s.cur).flights.all (fun f => f.q != q) && !(s.core s.cur).checks q && decide (h.push.win = none) && p (s.mvOut op h e.2)

theorem mvStarts_of {s : State} {q : Queue} {op : MvOp} {w : CmdWord} {p : MvOut → Bool} (h : mvStartsB s q op w p = true) :
    ∃ h ents, s.MvStarts q w h ents ∧ p (s.mvOut op h ents) = true := by
  unfold mvStartsB at h
  split at h
  · cases h
  · rename_i hd e1
    split at h
    · cases h
    · rename_i e e2
      simp only [Bool.and_eq_true, decide_eq_true_eq, List.all_eq_true, Bool.not_eq_true'] at h
      obtain ⟨⟨⟨⟨⟨⟨⟨h1, h2⟩, h3⟩, h4⟩, h5⟩, h6⟩, h7⟩, h8⟩ := h
      refine ⟨hd, e.2, ⟨clear_of h1, e1, h2, h3, h4, by simp [e2], fun f hf hq => ?_, fun hc => ?_, h7⟩, h8⟩
      · exact absurd hq (by simpa using h5 f hf)
      · rw [h6] at hc; cases hc

theorem wit_MatrixVectorResult :
    (∃ h ents, (decided (demoWord vaddI)).MvStarts .eqv (wordOf vaddI) h ents ∧
      (((decided (demoWord vaddI)).mvOut (vecOp vAdd) h ents).fault == none) = true) ∧
    mvOpOf vaddI = some (.eqv, vecOp vAdd) ∧ encodeWord vaddI = some (wordOf vaddI) :=
  ⟨mvStarts_of (p := fun o => o.fault == none) (by decide +kernel), rfl, by decide +kernel⟩

/-- `vneg` of a strict accumulator view whose elements are not resolved, on a core with no armed record. -/
def vnegI : Instr := .vneg hdr0 { body0 with a := 10, d := 6 }
def demoFault : State :=
  ((demoViews 0 0).modCore ⟨1, 0⟩ (fun c => { c with
    vw := c.vw.set 5 ⟨word (2 ^ 63 + 2 ^ 61 + 0x10000), word (64 * 2 ^ 32 + 4 * 2 ^ 16 + 1)⟩ })).putWord (wordOf vnegI)

theorem wit_MatrixVectorResult_fault :
    (∃ h ents, (decided demoFault).MvStarts .eqv (wordOf vnegI) h ents ∧
      (((decided demoFault).mvOut (vecOp vNeg) h ents).fault == some (0x0E, 0)) = true) ∧
    mvOpOf vnegI = some (.eqv, vecOp vNeg) ∧
    ((decided demoFault).core demo.cur).pend.length < 64 ∧ ((decided demoFault).core demo.cur).waiting = [] :=
  ⟨mvStarts_of (p := fun o => o.fault == some (0x0E, 0)) (by decide +kernel), rfl, by decide +kernel⟩

/-- A matrix word: `mzero` of the accumulator view. -/
def mzeroI : Instr := .mzero hdr0 { body0 with d := 4 }

theorem wit_MatrixVectorResult_matrix :
    (∃ h ents, (decided (demoWord mzeroI)).MvStarts .eqm (wordOf mzeroI) h ents ∧
      (((decided (demoWord mzeroI)).mvOut mzeroOp h ents).fault == none) = true) ∧ mvOpOf mzeroI = some (.eqm, mzeroOp) :=
  ⟨mvStarts_of (p := fun o => o.fault == none) (by decide +kernel), rfl⟩

/-- The conditions of `State.CopyStarts`, computed for a word that takes engine `eng`. -/
def copyStartsB (s : State) (w : CmdWord) (eng : Nat) : Bool :=
  match (s.core s.cur).headOf .eqc with
  | none => false
  | some h => clearB s && decide (h.pw.word = w) && s.copyReady s.cur && s.copyTurn s.cur && decide (s.engineFor s.cur w = some eng)
      && decide (h.push.win = none) && decide (indexRange ⟨w⟩ (ShapeRec.ofBytes h.pw.shape) = none)

theorem copyStarts_of {s : State} {w : CmdWord} {eng : Nat} (h : copyStartsB s w eng = true) : ∃ h, s.CopyStarts w h eng := by
  unfold copyStartsB at h
  split at h
  · cases h
  · rename_i hd e1
    simp only [Bool.and_eq_true, decide_eq_true_eq] at h
    obtain ⟨⟨⟨⟨⟨⟨h1, h2⟩, h3⟩, h4⟩, h5⟩, h6⟩, h7⟩ := h
    exact ⟨hd, ⟨clear_of h1, e1, h2, h3, h4, h5, fun e he => (by rw [h7] at he; cases he), h6⟩⟩

theorem wit_CopyPopulationResult :
    (∃ h, (decided (demoWord filI)).CopyStarts (wordOf filI) h 0) ∧ isCopyWord filI = true ∧ encodeWord filI = some (wordOf filI) :=
  ⟨copyStarts_of (by decide +kernel), rfl, by decide +kernel⟩

/-- The conditions of `State.PopStarts`, computed, and a question about the head word. -/
def popStartsB (s : State) (w : CmdWord) (p : Head → Bool) : Bool :=
  match (s.core s.cur).headOf .eqp with
  | none => false
  | some h => clearB s && decide (h.pw.word = w) && s.popReady s.cur && s.popTurn s.cur && decide (h.push.win = none) && p h

theorem popStarts_of {s : State} {w : CmdWord} {p : Head → Bool} (h : popStartsB s w p = true) : ∃ h, s.PopStarts w h ∧ p h = true := by
  unfold popStartsB at h
  split at h
  · cases h
  · rename_i hd e1
    simp only [Bool.and_eq_true, decide_eq_true_eq] at h
    obtain ⟨⟨⟨⟨⟨h1, h2⟩, h3⟩, h4⟩, h5⟩, h6⟩ := h
    exact ⟨hd, ⟨clear_of h1, e1, h2, h3, h4, h5⟩, h6⟩

/-- `pcull` of one member of group `g` with the weights of 16 FP32 values at 0x800, `pmig` of them by port 3, and `plog`. -/
def pcullI (g : BitVec 12) (k : BitVec 16) : Instr := .pcull hdr0 ⟨0, 16 * 16 + 10, 0, false, 0, k, 0, 0x800, g⟩
def pmigI : Instr := .pmig hdr0 ⟨3, 16 * 16 + 10, 0, false, 0, 0, 0, 0x800, 0⟩
def plogI : Instr := .plog hdr0 ⟨0, 0, 0, false, 0, 0, 0, 0x800, 0⟩

/-- The machine with the word of `i` at the head of its queue and port 3 in state `lst`; the lineage ring of 8 slots at device
address 0x18000 is described at 0x800. -/
def demoPop (i : Instr) (lst : BitVec 2) : State :=
  let s : State := { demoWord i with ports := demo.ports.set 3 { Port.reset with lst } }
  s.modCore ⟨1, 0⟩ (fun c => { c with
    scratch := c.scratch.write 0x800 (leBytes 8 0x18000 ++ leBytes 8 8 ++ leBytes 8 0 ++ leBytes 8 0) })

theorem wit_CopyPopulationResult_population :
    (∃ h, (decided (demoPop prankI 0)).PopStarts (wordOf prankI) h ∧
      (let s := decided (demoPop prankI 0)
       let R := s.ranked h
       let f : PpF := ⟨wordOf prankI⟩
       !notMember R h.push.lcn && decide (f.addr + 16 + 16 * R.length ≤ (s.ctx s.cur.asid).par.fp) &&
        decide ((R.map Ranked.l).foldl min ((R.head?.map Ranked.l).getD s.cur.l) = 0)) = true) ∧
    demo.hasCore ⟨1, 0⟩ = true ∧ demo.answers 0 = true ∧ (popRunOf prankI).isSome = true :=
  ⟨popStarts_of (by decide +kernel), by decide +kernel⟩

/-- The conditions of a `pcull` that replaces, and of each that it refuses. -/
theorem wit_CopyPopulationResult_pcull :
    (∃ h, (decided (demoPop (pcullI 0 1) 0)).PopStarts (wordOf (pcullI 0 1)) h ∧
      (let s := decided (demoPop (pcullI 0 1) 0)
       let R := s.ranked h
       !notMember R h.push.lcn && decide (2 * 1 ≤ R.length) && decide (1 ≤ s.lineageFree s.cur.asid) && decide ((R.map Ranked.l).Nodup)
         && R.all (fun r => s.hasCore ⟨s.cur.asid, r.l⟩ && s.answers ((s.ctx s.cur.asid).dieOf r.l))) = true) ∧
    (∃ h, (decided (demoPop (pcullI 0 3) 0)).PopStarts (wordOf (pcullI 0 3)) h ∧
      (let R := (decided (demoPop (pcullI 0 3) 0)).ranked h
       !notMember R h.push.lcn && decide (R.length < 2 * 3)) = true) ∧
    (∃ h, (decided ((demoPop (pcullI 5 0) 0).modCtx 1 (fun x => x.join 5 2))).PopStarts (wordOf (pcullI 5 0)) h ∧
      (notMember ((decided ((demoPop (pcullI 5 0) 0).modCtx 1 (fun x => x.join 5 2))).ranked h) h.push.lcn) = true) :=
  ⟨popStarts_of (by decide +kernel), popStarts_of (by decide +kernel), popStarts_of (by decide +kernel)⟩

theorem wit_CopyPopulationResult_pmig :
    (∃ h, (decided (demoPop pmigI 2)).PopStarts (wordOf pmigI) h ∧ true = true) ∧
    ((decided (demoPop pmigI 2)).ports.getD 3 Port.reset).lst = 2 ∧ ((decided (demoPop pmigI 0)).ports.getD 3 Port.reset).lst ≠ 2 ∧
    1 ≤ (decided (demoPop pmigI 2)).lineageFree 1 ∧ demo.answers ((demo.ctx 1).dieOf 0) = true :=
  ⟨popStarts_of (p := fun _ => true) (by decide +kernel), by decide +kernel⟩

theorem wit_CopyPopulationResult_plog :
    let s := (decided (demoPop plogI 0)).modCtx 1 (fun x => { x with lineage := [(0, none, leBytes 32 7)] })
    (∃ h, s.PopStarts (wordOf plogI) h ∧
      (match (s.reach 1 (.scratch 0 0x800) 32).engWrite ⟨1, 0⟩ h.push.runtime
          ⟨none, h.push.seq, false, .run (s.core s.cur).issueNo 0, 32, []⟩ ⟨0, 0, 0x18000⟩ (leBytes 32 7) with
       | .ok _ _ => true
       | _ => false) = true) ∧
    (s.peek (.scratch 0 0x800) 32) = leBytes 8 0x18000 ++ leBytes 8 8 ++ leBytes 8 0 ++ leBytes 8 0 ∧
    (let bs := (decided (demoPop plogI 0)).peek (.scratch 0 0x820) 32
     leNat ((bs.drop 8).take 8) = 0) :=
  ⟨popStarts_of (by decide +kernel), by decide +kernel⟩

/-- A machine on which the word of `i` has issued, 1,024 cycles later. -/
def demoFlight (i : Instr) : Option State :=
  (after? (exec i (demoWord i)) (fun t => { t with cycle := t.cycle + 1024 }))

/-- The conditions of `State.Retires`, computed. -/
def retiresB (s : State) (id : CoreId) (f : Flight) : Bool :=
  let c := s.core id
  s.hasCore id && decide (f.scrW = []) && !s.owes id f && !s.holds id f && !s.watched && decide (c.win.unc = none)
    && decide (c.replay = none) && decide ((s.die (s.dieOf id)).edge = []) && decide (c.waiting = []) && decide (f.retireAt ≤ s.cycle)

theorem retires_of {s : State} {id : CoreId} {f : Flight} (h : retiresB s id f = true) : s.Retires id f := by
  simp only [retiresB, Bool.and_eq_true, decide_eq_true_eq, Bool.not_eq_true'] at h
  obtain ⟨⟨⟨⟨⟨⟨⟨⟨⟨h1, hm⟩, ho⟩, h2⟩, hw⟩, h3⟩, h4⟩, h5⟩, h6⟩, _⟩ := h
  exact ⟨h1, hm, ho, h2, hw, h3, h4, h5, .inl h6⟩

/-- The oldest word in flight of a queue of the current core meets `retiresB` and `p`. -/
def flightIs (s : Option State) (q : Queue) (p : State → Flight → Bool) : Bool :=
  match s with
  | none => false
  | some s =>
    match (s.core s.cur).firstFlight q with
    | none => false
    | some f => retiresB s s.cur f && p s f

theorem wit_WordRetireResult :
    flightIs (demoFlight vaddI) .eqv (fun _ _ => true) = true ∧
    flightIs (demoFlight filI) .eqc (fun s f => decide (((s.core s.cur).flightsOf .eqc)[0]? = some f) && (s.core s.cur).copyDone f) = true ∧
    flightIs (demoFlight prankI) .eqp (fun s f => !f.suspended && (s.core s.cur).flights.all (fun g => g.uid != f.uid || g.pieces.isEmpty)
      && decide ((s.core s.cur).eqp.fifo.length < 16)) = true := by
  decide +kernel

/-- The head word of `demoWord i`, guarded by slot 1, which is resolved FALSE. -/
def demoGuarded (i : Instr) : State :=
  decided ((demoWord i).modCore ⟨1, 0⟩ (fun c => { c with csr := { c.csr with gsl := 0x00010003 }, gslSeen := 0x00010003 }))

/-- What a discard asks of a head word. -/
def discardB (s : State) (q : Queue) : Bool :=
  match (s.core s.cur).headOf q with
  | none => false
  | some h => s.hasCore s.cur && s.engineOn s.cur && s.stallMet s.cur q h.pw.word && decide ((s.core s.cur).decision h = some false) &&
      ((s.core s.cur).claims (fieldRings h.pw.word)).isSome && (if q = .eqm then s.takeLease s.cur else some s).isSome &&
      decide ((s.core s.cur).win.unc = none) && decide ((s.core s.cur).replay = none) && decide ((s.core s.cur).waiting = [])

theorem wit_DiscardLeasePromise :
    discardB (demoGuarded (.vadd { hdr0 with gslot := 1 } body0)) .eqv = true ∧
    discardB (demoGuarded (.mzero { hdr0 with gslot := 1 } { body0 with d := 4 })) .eqm = true := by decide +kernel

/-- Bench 0 of `demo` with a run of its JMU for core 1 of 3 words, and words of `ls` waiting for the JMU. -/
def demoLease (ls : List Nat) : State :=
  let s := ls.foldl (fun s l => ({ s with cur := ⟨1, l⟩ } : State).putWord (wordOf mzeroI)) (demoViews 0 0)
  ({ s with cur := ⟨1, 0⟩, cycle := 2048 } : State).modDie 0 (fun d => { d with leases := d.leases.set 0 ⟨some 1, 3, 0, false, 0, 0, 0, 0, 0⟩ })

theorem wit_DiscardLeasePromise_lease :
    let ok (s : State) (others : List Nat) : Bool :=
      let l := s.benchLease 0
      decide (l.holder = some 1) && decide (l.busy ≤ s.cycle) && l.spent s.cycle && decide ((s.slotsFrom 0 2).filter (fun j => j != 1) = others)
    ok (demoLease []) [] = true ∧ ok (demoLease [3, 0]) [3, 0] = true ∧ ok (demoLease [1]) [] = true ∧
    (demoLease []).slotWaits ((demoLease []).benchCores 0) 1 = false ∧
    (let s := demoLease [1, 3]
     (s.benchCores 0).filter (fun id => s.slotOf id == 1) = [⟨1, 1⟩]) := by decide +kernel

theorem wit_DiscardLeasePromise_promise :
    let p : Push := ⟨7, 0, none, [], none, [], false, none, 5, false, [], 0, false, none, 0, [], false⟩
    let s : State := { demoWith (fun c => c.setQueue .eqc { c.eqc with pushes := [p] }) with cycle := 12 }
    s.hasCore ⟨1, 0⟩ = true ∧ s.pcc (s.dieOf ⟨1, 0⟩) + 1 ≤ (7#64).toNat ∧
    (s.core ⟨1, 0⟩).eqc.pushes.find? (fun p => p.rq == (7#16).toNat && !p.missed && p.promise != 0 && p.promise != BitVec.allOnes 64
      && decide (p.promise.toNat < s.pcc (s.dieOf ⟨1, 0⟩))) = some p := by decide +kernel

/-! ### Witnesses: steps of the hardware -/

/-- `demo` with the parcel `w` in its fetch buffer, at 40 cycles. -/
def demoAt (w : Parcel) (a : Word) : State := { (demoRegs a 0).putParcel w with cycle := 40 }

/-- `wfcy x5` and `wfc x5`, from the encodings of spec/02 R38. -/
def wfcyW : Parcel := ((encodeParcel (.wfcy 5)).getD 0)
def wfcW : Parcel := ((encodeParcel (.wfc 5)).getD 0)

theorem wit_BoundarySteps_wake :
    (let s := demoAt wfcyW 20
     s.attached 1 = false ∧ (s.core ⟨1, 0⟩).stepping = false ∧ (s.core ⟨1, 0⟩).gang = none ∧
     s.standsAt ⟨1, 0⟩ = some (.wfcy 5) ∧ ((s.core ⟨1, 0⟩).rx 5).toNat ≤ s.pcc (s.dieOf ⟨1, 0⟩) ∧
     quietB { s with cur := ⟨1, 0⟩ } = true) ∧
    (let s := (demoAt wfcW (2 ^ 32)).modCore ⟨1, 0⟩ (fun c => { c with pend := [] }.setQueue .eqm { c.eqm with fifo := [(1, none, [])] })
     s.standsAt ⟨1, 0⟩ = some (.wfc 5)) := by decide +kernel

theorem wit_BoundarySteps_due :
    let s := demoWith (fun c => { c with due := some ⟨c.pc, ⟨3, 0, 0, 0⟩⟩, pend := [⟨0x20, 0, 0, 0⟩] })
    s.mayRun ⟨1, 0⟩ = true ∧ (s.core ⟨1, 0⟩).due.isSome = true := by decide +kernel

theorem wit_BoundarySteps_pending :
    let s := demoWith (fun c => { c with pend := [⟨0x20, 0, 0, 0⟩] })
    (s.gangOf ⟨1, 0⟩).all s.mayRun = true ∧ (s.core ⟨1, 0⟩).pendReady = true ∧ (s.core ⟨1, 0⟩).rewinding = none ∧
    (s.core ⟨1, 0⟩).replay = none ∧ (s.core ⟨1, 0⟩).pend = [⟨0x20, 0, 0, 0⟩] := by decide +kernel

/-- The context of `demo` with a halt of cause `k` raised, reached or not. -/
def demoHalt (k : Nat) (reached : Bool) (undo : Nat) : State :=
  demo.modCtx 1 (fun x => { x with halt := some ⟨k, 0, 0, 0, reached, reached⟩, par := { x.par with undo } })

theorem wit_BoundarySteps_halt :
    let s := demoHalt 0x31 false 0
    let x := s.ctx 1
    s.ctx? 1 = some x ∧ x.halt = some ⟨0x31, 0, 0, 0, false, false⟩ ∧ (∀ id ∈ x.ids, (s.core id).rewinding = none) := by decide +kernel

/-- Core 0 of the context with `demoOpened`'s window has a store that the hold buffer of its die keeps back. -/
def demoHeld : State :=
  (demoOpened.modCore ⟨1, 0⟩ (fun c => { c with sb := [storeTo (.scratch 0 8) .store], task := some placedRec })).modDie 0 (fun d =>
    { d with edge := [{ storeTo (.hostBulk 0x18) .store with win := some 0 }], egress := List.replicate 2048 (.devreg 1 0 0 0 0 8 0) })

theorem wit_BoundarySteps_waits :
    let s := demoHeld.modCore ⟨1, 0⟩ (fun c => { c with due := some ⟨c.pc, ⟨3, 0, 0, 0⟩⟩ })
    let t := demoHeld.modCore ⟨1, 0⟩ (fun c => { c with pend := [⟨0x20, 0, 0, 0⟩] })
    s.mayRun ⟨1, 0⟩ = true ∧ ({ s with note := .none } : State).storeWaits ⟨1, 0⟩ = true ∧
    (t.gangOf ⟨1, 0⟩).all t.mayRun = true ∧ (t.core ⟨1, 0⟩).pendReady = true ∧ t.storeWaits ⟨1, 0⟩ = true ∧
    demo.storeWaits ⟨1, 0⟩ = false := by decide +kernel

theorem wit_TrapEntryResult_waits :
    let t : State := { demoHeld with cur := ⟨1, 0⟩ }
    ({ t.splitGang t.cur with note := .trapped ⟨3, 0, 0, 0⟩ (t.core t.cur).unitPc } : State).storeWaits t.cur = true ∧
    (t.core t.cur).runtime = false ∧ (t.core t.cur).gang = none ∧ (t.core t.cur).replay = none ∧ (t.ctx 1).halt = none := by
  decide +kernel

theorem wit_TrapEntryResult :
    let s := demoWith (fun c => { c with csr := { c.csr with rtvec := 0x2000 } })
    bits (s.core ⟨1, 0⟩).csr.rtvec 53 2 ≠ 0 ∧ (s.core s.cur).gang = none ∧ (s.core s.cur).replay = none ∧
    (s.core s.cur).runtime = false ∧ (s.ctx s.cur.asid).halt = none ∧ (s.ctx s.cur.asid).preempt = none ∧
    bits (demo.core demo.cur).csr.rtvec 53 2 = 0 ∧ ((demo.modCtx 1 (fun x => { x with preempt := some none })).ctx 1).preempt ≠ none ∧
    ((demoWith (fun c => { c with runtime := true })).core ⟨1, 0⟩).runtime = true ∧
    ((demoHalt 0x31 false 0).ctx 1).halt ≠ none ∧ ((demoHalt 0x31 false 0).core ⟨1, 0⟩).stepping = false ∧
    (demoWith (fun c => { c with stepping := true })).hasCore ⟨1, 0⟩ = true := by decide +kernel

theorem wit_TrapEntryResult_drain :
    let s := demoWith (fun c => { c with
      csr := { c.csr with rtvec := 0x2000 }, sb := [storeTo (.scratch 0 8) .store, storeTo (.scratch 0 12) .store] })
    s.hasCore ⟨1, 0⟩ = true ∧ bits (s.core ⟨1, 0⟩).csr.rtvec 53 2 ≠ 0 ∧ s.ownStores (s.core ⟨1, 0⟩).sb = true ∧ s.cur = ⟨1, 0⟩ ∧
    s.poison = [] ∧ (s.die (s.dieOf ⟨1, 0⟩)).edge = [] := by decide +kernel

theorem wit_MemorySteps :
    let s := demoWith (fun c => { c with sb := [storeTo (.scratch 0 8) .store], late := [⟨0x20, 0, 0, 0⟩] })
    let t := demoWith (fun c => { c with sb := [storeTo (.hbm 1 0x18) .store] })
    let w := storeTo (.scratch 0 8) .store
    (s.core ⟨1, 0⟩).late = [⟨0x20, 0, 0, 0⟩] ∧ (s.core ⟨1, 0⟩).sb = [w] ∧ w.place.isLocal = true ∧
    (doneOf (s.performBuf w true)).isSome = true ∧ (t.core ⟨1, 0⟩).sb = [storeTo (.hbm 1 0x18) .store] ∧
    (storeTo (.hbm 1 0x18) .store).place.isLocal = false ∧ (storeTo (.hbm 1 0x18) .store).kind = .store ∧
    s.poisonAt ⟨1, 0⟩ w.place 8 = false ∧ t.holdFull ⟨1, 0⟩ (storeTo (.hbm 1 0x18) .store) = false ∧
    s.holdFull ⟨1, 0⟩ w = false ∧ ({ s with poison := [(3, ownKey ⟨1, 0⟩, 0)] } : State).poisonAt ⟨1, 0⟩ w.place 8 = true := by decide +kernel

theorem wit_MemorySteps_hold :
    let h : BufWrite := { storeTo (.hostBulk 0x18) .store with win := some 0 }
    let full : State := (demoOpened.modCore ⟨1, 0⟩ (fun c => { c with sb := [storeTo (.scratch 0 8) .store] })).modDie 0 (fun d => { d with
      edge := [h], egress := List.replicate 2048 (.devreg 1 0 0 0 0 8 0) })
    (full.core ⟨1, 0⟩).sb = [storeTo (.scratch 0 8) .store] ∧ full.holdFull ⟨1, 0⟩ (storeTo (.scratch 0 8) .store) = true := by decide +kernel

theorem wit_MemorySteps_edge :
    let w := storeTo (.hbm 1 0x18) .store
    let v := storeTo (.hbm 1 (2 ^ 51)) .store
    let s := demo.modDie 0 (fun d => { d with edge := [w, v] })
    (s.die 0).edge[0]? = some w ∧ edgeReady (s.die 0).edge 0 = true ∧ s.servedBy 1 w.place = some 0 ∧
    (s.touch 1 0).placeRefusal 1 w.place 8 = 0 ∧ (doneOf ((s.touch 1 0).performBuf w true)).isSome = true ∧
    (s.die 0).edge[1]? = some v ∧ edgeReady (s.die 0).edge 1 = true ∧ (s.touch 1 0).placeRefusal 1 v.place 8 ≠ 0 := by decide +kernel

theorem wit_MemorySteps_shadow :
    let e : Shadow := ⟨1, 1, 0x20, .addD, 5, [0]⟩
    let s := demo.modDie 0 (fun d => { d with shadow := [e] })
    (s.die 0).shadow[0]? = some e ∧ (doneOf (s.mergeEntry 0 e e.starter true)).isSome = true := by decide +kernel

theorem wit_MemorySteps_walk :
    (demo.ctx 1).dies.contains 0 = true ∧ canonical 0x10000 = true ∧ (0x10000#64).toNat < localBase ∧
    (demo.walk 0 1 ((0x10000#64).toNat % 2 ^ 54)).toOption.isSome = true ∧ demo.walkDamage 0 1 ((0x10000#64).toNat % 2 ^ 54) = [] ∧
    0 < demo.dies.length := by decide +kernel

/-- A message of 8 bytes from core 1 to core 0, into inbox 2; and one into scratchpad 0x100. -/
def demoMsg (sp : Bool) : Msg := ⟨1, 1, 1, if sp then word (0x100 * 2 ^ 28 + 2 ^ 24) else word (2 * 2 ^ 25), leBytes 8 5, none, 0, none, 0, 0, []⟩

theorem wit_DeliverySteps :
    let m := demoMsg false
    let s : State := { demo with msgs := [m], incrs := [⟨1, 1, 0, 5, 9, true, 0, []⟩] }
    s.msgs[0]? = some m ∧ s.inOrder m.asid m.src m.dst m.ord = true ∧ m.dst = 0 ∧ bit m.target 24 = false ∧ bit m.target 60 = false ∧
    ((s.core ⟨m.asid, m.dst⟩).inbox.getD (bits m.target 27 25) []).length < 4 ∧ (doneOf (s.deliver m)).isSome = true ∧
    s.incrs[0]? = some ⟨1, 1, 0, 5, 9, true, 0, []⟩ ∧ s.inOrder 1 1 0 0 = true ∧ (s.core ⟨1, 0⟩).replay = none ∧
    (s.core ⟨1, 0⟩).win.unc = none ∧ s.launchRoom ⟨1, 0⟩ 5 9 = true := by decide +kernel

theorem wit_DeliverySteps_scratchpad :
    let m := demoMsg true
    let s : State := { demo with msgs := [m] }
    bit m.target 24 = true ∧ (doneOf (s.deliver m)).isSome = true := by decide +kernel

theorem wit_DeliverySteps_start :
    let p : PoolRec := ⟨1, { placedRec with d1 := 1 }, 0, false, 0, []⟩
    let s := demo.modDie 0 (fun d => { d with pool := [p] })
    let t : State := { demoQueue [] 0 with transit := [.recs 1 0 [p], .entries 1 2 0 [⟨5, 7, []⟩]] }
    s.mayStart ⟨1, 1⟩ = true ∧ s.pickRec (s.core ⟨1, 1⟩) (s.die (s.dieOf ⟨1, 1⟩)).pool = some (0, p) ∧
    t.transit[0]? = some (.recs 1 0 [p]) ∧ t.transit[1]? = some (.entries 1 2 0 [⟨5, 7, []⟩]) ∧
    ((t.ctx 1).sq 0 2).length + 1 ≤ (t.ctx 1).qcap ∧ (t.die 0).pool.length + 1 ≤ 8192 ∧
    (let u : State := { demoQueue [⟨5, 7, []⟩] 0 with transit := [.entries 1 2 0 [⟨6, 7, []⟩]] }
     u.transit[0]? = some (.entries 1 2 0 [⟨6, 7, []⟩]) ∧ u.transitFits (.entries 1 2 0 [⟨6, 7, []⟩]) = false) ∧
    demo.hasCore ⟨1, 1⟩ = true ∧ placedRec.gang = false := by decide +kernel

theorem wit_DeliverySteps_migrant :
    let s : State := { demo with ports := demo.ports.set 3 { Port.reset with lst := 2, bv := true, basid := 1 } }
    let p : Packet := ⟨leBytes 16 5, 0xA, 4, 0, 0, 0x800, 9, 3, 0x3F800000⟩
    let q := s.ports.getD 3 Port.reset
    q.lst = 2 ∧ q.bv = true ∧ (s.ctx? q.basid).isSome = true ∧ ((s.ranking q.basid p.grp.toNat none).2.getLast?.map Ranked.l) = some 3 ∧
    p.addr.toNat + p.cnt.toNat * typeBits p.wt.toNat / 8 ≤ (s.ctx q.basid).par.fp ∧ p.addr.toNat % max 1 (typeBits p.wt.toNat / 8) = 0 ∧
    1 ≤ s.lineageFree q.basid ∧ s.poisonLeft ⟨1, 3⟩ (.scratch 3 p.addr.toNat) p.weights.length = false ∧ (s.ctx q.basid).spillIn = [] ∧ (s.core ⟨1, 3⟩).win.unc = none ∧ s.hasCore ⟨1, 3⟩ = true := by decide +kernel

theorem wit_CompletionSteps :
    let b : Barrier := ⟨0, 3, false, [0, 1, 2, 3], [0, 1, 2, 3], [], [], [], false, []⟩
    let s := demo.modCtx 1 (fun x => { x with barriers := [b] })
    let t : State := { demo with cores := demo.cores.map (fun c => { c with sstepAt := some 0 }) }
    (s.ctx 1).barriers.find? (fun b => b.grp == 0 && b.name == 3) = some b ∧ b.complete = true ∧ (s.ctx 1).run = .running ∧
    b.cens = [] ∧
    t.superReady 1 = true ∧ (t.ctx 1).par.undo ≠ 2 ∧ (t.ctx 1).precise = false ∧ (t.ctx? 1).isSome = true := by decide +kernel

/-- A context whose governor and balancer periods are 64 ticks, after 200 cycles; its queue 2 is configured when `q` says. -/
def demoPeriod (bal : Bool) (es : List SqEntry) : State :=
  { demo with cycle := 200, slice := 0, launch := { demo.launch with lqtail := 1, lqsize := 1 } }.modCtx 1 (fun x => { x with
    par := { x.par with sc0 := word (1 + (if bal then 2 ^ 23 else 0)), sc1 := word (2 ^ 44) }
    squeues := es.map (fun e => (0, 2, e)) })

theorem wit_PeriodSteps :
    let s := demoPeriod false []
    let x := s.ctx 1
    s.ctx? 1 = some x ∧ bits x.par.sc1 63 44 * 64 ≠ 0 ∧ x.run = .running ∧ x.halt = none ∧ x.preempt = none ∧
    x.dies.contains 0 = true ∧ x.since + bits x.par.sc1 63 44 * 64 ≤ s.pcc 0 ∧ s.govern x 0 = none ∧
    bits x.par.sc0 19 0 * 64 ≠ 0 ∧ x.lastBal + bits x.par.sc0 19 0 * 64 ≤ s.pcc (x.dies.headD 0) ∧
    x.stages.filter (fun q => bit x.par.sc0 (24 + q)) = [] ∧ bit x.par.sc0 23 = false ∧
    bit ((demoPeriod true []).ctx 1).par.sc0 23 = true := by decide +kernel

theorem wit_PeriodSteps_governor :
    let s := (demoPeriod false [⟨5, 7, []⟩]).modCtx 1 (fun x => { x with
      par := { x.par with sc0 := word (2 ^ 50 + 2 ^ 51) }, squeues := [(0, 3, ⟨5, 7, []⟩)] })
    let s := s.modCore ⟨1, 1⟩ (fun c => { c with stage := some 2 })
    s.govern (s.ctx 1) 0 = some (⟨1, 1⟩, 3) := by decide +kernel

/-- Two dies, the records of die 0 movable. -/
def demoBalance : State :=
  ((demoPeriod true []).modCtx 1 (fun x => { x with benches := [0, 36] })).modDie 0 (fun d => { d with
    pool := List.replicate 4 ⟨1, { placedRec with d0 := word (3 * 2 ^ 54) }, 0, false, 0, []⟩ })

theorem wit_PeriodSteps_balancer :
    let s := demoBalance
    let x := s.ctx 1
    x.loads = [] ∧ balance x.dies (fun d => (s.loadVector x d).2) = some (0, 1, 5) ∧
    x.stages.filter (fun q => bit x.par.sc0 (24 + q)) = [] ∧ bit x.par.sc0 23 = true ∧
    (bits x.par.sc1 15 0 : Int) ≤ 5 ∧ 1 ≤ (5 : Int).toNat / 2 := by decide +kernel

/-- Two dies, with `es` in queue 2 of die 0, which is balanced. -/
def demoStage (es : List SqEntry) : State :=
  (demoPeriod false es).modCtx 1 (fun x => { x with benches := [0, 36], par := { x.par with sc0 := word (1 + 2 ^ 26 + 2 ^ 50), sc1 := word (2 ^ 44) } })

theorem wit_PeriodSteps_stage :
    let ok (es : List SqEntry) (diff : Int) (n : Nat) : Bool :=
      let s := demoStage es
      let x := s.ctx 1
      decide (s.ctx? 1 = some x) && decide (x.loads = []) && decide (x.stages.filter (fun q => bit x.par.sc0 (24 + q)) = [2]) &&
      !bit x.par.sc0 23 && decide (bits x.par.sc0 19 0 * 64 ≠ 0) && x.run == .running && decide (x.lastBal + bits x.par.sc0 19 0 * 64 ≤ s.pcc 0) &&
      decide (balance x.dies (fun d => ((s.loadVector x d).1.getD 2 0 : Int)) = some (0, 1, diff)) &&
      decide ((bits x.par.sc1 15 0 : Int) ≤ diff) && decide (min (diff.toNat / 2) (min 4096 (x.qcap - (s.loadVector x 1).1.getD 2 0)) = n)
    ok (List.replicate 4 ⟨5, 7, []⟩) 4 1 = true ∧ ok [⟨5, 7, []⟩] 1 0 = true := by decide +kernel

theorem wit_PeriodSteps_slice :
    let s : State := { demoPeriod false [] with slice := 1, cycle := 4000 }
    let x := s.ctx 1
    s.slice ≠ 0 ∧ x.since + s.slice.toNat * 1000 ≤ s.pcc (x.dieOf 0) ∧ s.mayFavour x none = true := by decide +kernel

/-- The placed context pre-empted; context 2 is banked on the same bench. -/
def demoPreempt (f : Option Nat) : State :=
  let s := (demoPeriod false []).modCtx 1 (fun x => { x with preempt := some f })
  { s with ctxs := s.ctxs ++ [{ Ctx.init 2 { placedPar with asid := 2 } [0] with run := .banked }] }

theorem wit_PeriodSteps_preemption :
    let ok (f : Option Nat) (n : Nat) : Bool :=
      let s : State := { demoPreempt f with ctxs := (demoPreempt f).ctxs.take n }
      let x := s.ctx 1
      decide (s.ctx? 1 = some x) && x.run == .running && decide (x.preempt = some f) && x.halt.isNone && s.atBoundary x &&
        s.mayFavour x f && s.shadowRoom 1 x.par.fp x.benches && !x.ids.any s.storeWaits && (let s1 := x.ids.foldl State.flush s
          (doneOf (s1.mergeCtx x.ids)).isSome && s1.dies.all (fun d => d.shadow.isEmpty))
    ok none 1 = true ∧ ok (some 2) 2 = true := by decide +kernel

theorem wit_PeriodSteps_waits :
    let s : State := { demoHeld.modCtx 1 (fun x => { x with preempt := some none }) with
      launch := { demo.launch with lqtail := 1, lqsize := 1 } }
    let x := s.ctx 1
    s.ctx? 1 = some x ∧ x.run = .running ∧ x.preempt = some none ∧ x.halt = none ∧ s.atBoundary x = true ∧ s.mayFavour x none = true ∧
    s.shadowRoom 1 x.par.fp x.benches = true ∧ x.ids.any s.storeWaits = true := by decide +kernel

theorem wit_HaltSteps :
    let s := demoHalt 0x31 true 1
    let x := s.ctx 1
    s.ctx? 1 = some x ∧ x.halt = some ⟨0x31, 0, 0, 0, true, true⟩ ∧ s.settledCtx x = true ∧ ((demoHalt 0x31 true 0).ctx 1).par.undo = 0 ∧
    x.par.undo ≠ 0 ∧ s.attached 1 = false ∧ (∀ id ∈ s.peers x ⟨0x31, 0, 0, 0, true, true⟩, (s.core id).rqout = 0) ∧
    (demo.die 7).lost = false ∧ (demo.die 7).st ≠ .absent := by decide +kernel

theorem wit_HaltSteps_suspend :
    ((demoFlight filI).map (fun s =>
      let s : State := { s.modCtx 1 (fun x => { x with halt := some ⟨0x31, 0, 0, 0, true, true⟩ }) with cycle := 8000 }
      match ((s.core ⟨1, 0⟩).flightsOf .eqc)[0]? with
      | none => false
      | some f => s.holds ⟨1, 0⟩ f && decide (4000 ≤ s.pcc (s.dieOf ⟨1, 0⟩)) && !f.suspended && decide (f.done % 16 = 0) &&
          decide ((s.core ⟨1, 0⟩).flights.find? (fun g => g.uid == f.uid) = some f))) = some true := by decide +kernel

theorem wit_ContextMoves :
    let s := demoPreempt none
    let s := (s.modCtx 1 (fun x => { x with run := .banked })).modCtx 2 (fun x => { x with run := .running })
    let x := s.ctx 1
    let y := s.ctx 2
    s.ctx? 1 = some x ∧ s.ctx? 2 = some y ∧ x.run ≠ .running ∧ y.run = .running ∧ (∀ id ∈ x.ids, (s.core id).flights = []) ∧
    0 < x.n ∧ 0 < x.par.fp / 4096 ∧ x.swapped.contains (0, 0) = false ∧ y.lAt (x.benchOf 0) (0 % 4) = some 0 ∧
    (∀ id ∈ x.ids, (s.core id).rqout = 0 ∧ (s.core id).flights = [] ∧ (s.core id).sb = [] ∧ (s.core id).late = []) ∧
    x.run = .banked ∧ x.halt = none ∧ x.par.pclass ≠ 2 ∧ (∀ t ∈ (s.arriveAll 1).transit, t.asid ≠ 1) ∧ s.hasShadow x = false ∧
    (s.modDie 0 (fun d => { d with shadow := [⟨1, 1, 0x20, .addD, 5, [0]⟩] })).hasShadow x = true ∧
    ((s.modCtx 1 (fun x => { x with par := { x.par with pclass := 2 } })).ctx 1).par.pclass = 2 := by decide +kernel

/-- Context 2 comes in on the bench that context 1 goes out of, `k` eights of units of its block 0 of core 0 having moved. -/
def demoSwap (k : Nat) (bs : List (Nat × Nat)) (q : List BankAsk) : State :=
  let s := demoPreempt none
  let s := (s.modCtx 1 (fun x => { x with run := .banked })).modCtx 2 (fun x => { x with
    run := .running, spillIn := bs, spillAt := if k = 0 then [] else [(0, 0, k)] })
  { s with bankq := q }

theorem wit_ContextMoves_units :
    let s := demoSwap 64 [(0, 0)] []
    s.blockMoved 2 (0, 0) = true ∧ s.moveLen 2 (0, 0) = 64 ∧ (s.ctx 2).run = .running ∧
    (demoSwap 0 [(0, 0)] []).blockMoved 2 (0, 0) = false ∧ (demoSwap 64 [(0, 0)] [⟨2, 0, 0, 0, 3, 0, 0, 0⟩]).blockMoved 2 (0, 0) = false ∧
    (demoSwap 0 [(0, 0)] []).moveNext 2 (0, 0) = true ∧ (demoSwap 0 [(0, 0), (0, 1)] []).moveNext 2 (0, 1) = false ∧
    0 < (demoSwap 0 [(0, 0)] []).moveLen 2 (0, 0) ∧ ((demoSwap 5 [(0, 0)] []).ctx 2).moved (0, 0) = 5 := by decide +kernel

theorem wit_ContextMoves_elsewhere :
    let s := demoPreempt none
    let s := ((s.modCtx 1 (fun x => { x with run := .spilled })).modCtx 2 (fun x => { x with benches := [3] }))
    (s.ctx 2).lAt ((s.ctx 1).benchOf 0) 0 = none ∧ (s.ctx 1).run = .spilled ∧
    s.restoreRoom (s.ctx 1) { s.ctx 1 with benches := [287] } = true ∧ s.partitionOk (s.ctx 1).benches.length [287] = true := by decide +kernel

/-! ### Witnesses: launch, translation, host, debug -/

/-- The tables of `demo` with a root for ASID 3 that also maps the runtime half, and a queue whose slot 0 at PA 0xC000 holds a
launch of `u` units on one bench with 4 KiB of scratchpad. -/
def demoLaunch (asid u : Nat) : State :=
  let m := (Mem.write (Mem.write demo.hbm 24 (leBytes 8 0x401)) 0x600 (leBytes 8 0x8001)).write 0x8000 (leBytes 8 0x100000003B)
  let bs := leBytes 8 0x10000 ++ leBytes 4 u ++ [0, 0] ++ leBytes 2 1 ++ leBytes 4 4096 ++ leBytes 2 asid ++ List.replicate 106 0
  { demo with
    hbm := m.write 0xC000 bs
    ctxs := [], cores := []
    keys := { demo.keys with slots := (3, .plain) :: demo.keys.slots }
    bmasks := Vector.replicate 8 (BitVec.allOnes 36)
    launch := { demo.launch with lqbase := 0xC000, lqsize := 2, lqtail := 1 } }

/-- The block that the dispatcher reads next. -/
def nextBlock (s : State) : List Byte := s.hbmBytes 1024 (s.launch.lqbase.toNat + s.launch.slotOf s.launch.next.toNat * 128) 128

theorem wit_LaunchResult :
    let s := demoLaunch 3 1
    let p := LaunchPar.ofBlock (nextBlock s)
    s.launch.next ≠ s.launch.lqtail ∧ s.launch.lqsize ≠ 0 ∧ s.hbmRefusal 1024 0xC000 128 = 0 ∧ s.launchReason (nextBlock s) = 0 ∧
    (s.descriptor p.asid).isSome = true ∧ p.units ≠ 0 ∧ (s.place p.nb).isSome = true ∧
    (s.place p.nb).map (fun bs => s.shareFree p bs && bs.all (fun b => (s.runnerOf b).isNone)) = some true ∧
    s.launchReason (nextBlock (demoLaunch 2 1)) ≠ 0 ∧
    s.launch.lqsize < (((3#64).setWidth 32 : BitVec 32) - s.launch.lqhead).toNat ∧
    ¬ s.launch.lqsize < (((2#64).setWidth 32 : BitVec 32) - s.launch.lqhead).toNat ∧ bits (2 ^ 32) 63 32 ≠ 0 ∧
    demo.launch.lqtail = demo.launch.lqhead ∧ s.launch.lqtail ≠ s.launch.lqhead ∧ s.capacity ≠ 0 ∧ s.mgmt.injected = [] ∧
    (let d : State := { s with lmask := 0 }
     d.launch.next ≠ d.launch.lqtail ∧ d.launch.lqsize ≠ 0 ∧ d.capacity = 0) := by decide +kernel

theorem wit_LaunchResult_empty :
    let ok (s : State) (u : Bool) (desc : Bool) : Bool :=
      let p := LaunchPar.ofBlock (nextBlock s)
      decide (s.hbmRefusal 1024 0xC000 128 = 0) && decide (s.launchReason (nextBlock s) = 0) && decide (p.units = 0) == u &&
      (s.descriptor p.asid).isSome == desc
    ok (demoLaunch 3 0) true true = true ∧
    ok (let s := demoLaunch 3 1
        { s with hbm := s.hbm.write 0x600 (leBytes 8 0) }) false false = true := by decide +kernel

theorem wit_LaunchResult_complete :
    let s : State := { demo with cores := demo.cores.map (fun c => { c with task := none }) }
    s.ctx? 1 = some (s.ctx 1) ∧ s.completeCtx (s.ctx 1) = true := by decide +kernel

theorem wit_TranslationHostResult :
    let s : State := { demo with invq := [.page 1 4] }
    (List.replicate 16 (Inval.page 1 4)).length = 16 ∧ ({ demo with invq := List.replicate 16 (.page 1 4) } : State).invq.length = 16 ∧
    demo.invq.length < 16 ∧ bits (3 * 2 ^ 62) 63 62 = 3 ∧ bits (2 ^ 40) 51 40 ≠ 0 ∧ s.invq = [.page 1 4] ∧
    s.invalDone (.page 1 4) = true ∧ demo.mgmt.injected = [] ∧ leBytes 8 5 ≠ [] ∧ demo.hbmRefusal 1024 0x20000 8 = 0 ∧
    demo.hbmRefusal 1024 (2 ^ 51) 8 ≠ 0 := by decide +kernel

/-- `demo` with its context attached to the debug block in a state, stopped by it when `halted`. -/
def demoDebug (st : Nat) (halted : Bool) (g : DbgBlk → DbgBlk) : State :=
  { demo with dbg := g { demo.dbg with en := true, asid := 1, state := st } }.modCtx 1 (fun x => { x with
    halt := if halted then some ⟨0, 0, 0, 0, true, true⟩ else none })

theorem wit_DebugControl :
    let s := demoDebug 0 false id
    let t := demoDebug 2 true (fun g => { g with dcore := 0 })
    demo.attached 1 = false ∧ (demo.detach.ctx 1).halt = none ∧ s.dbg.en = true ∧ demo.dbg.en = false ∧
    s.dbgCtx? = some (s.ctx 1) ∧ s.dbg.state = 0 ∧ s.dbg.busy = false ∧ bit s.dbg.darg 0 = false ∧ bit 1 0 = true ∧
    t.dbgCtx? = some (t.ctx 1) ∧ (t.noWin.ctx 1).halt = some ⟨0, 0, 0, 0, true, true⟩ ∧ (t.noWin.resumeCtx 1).dbg.state ≠ 6 ∧
    t.stepSel ≠ [] ∧ s.dbg.state ∉ [2, 3] ∧ s.dbg.state = 0 ∧ bit s.dbg.darg 0 = false ∧ (0xB : Nat) < (0xC#64).toNat := by decide +kernel

/-- A context with undo that a fault of core 0 has stopped, in state 3; `out` requests of the core are still on their way. -/
def demoFaulted (out : Nat) : State :=
  ({ demoOpened with dbg := { demoOpened.dbg with en := true, asid := 1, state := 3 } }.modCtx 1 (fun x => { x with
    halt := some ⟨0x31, 0, 0, 0, true, true⟩ })).modCore ⟨1, 0⟩ (fun c => { c with rqout := out })

theorem wit_DebugControl_fault :
    let x (s : State) : Ctx := s.ctx 1
    let t (s : State) : State := (x s).ids.foldl State.settleCore s.noWin
    let s := demoFaulted 0
    let u := demoFaulted 1
    s.dbgCtx? = some (x s) ∧ s.dbg.busy = false ∧ (s.noWin.ctx s.dbg.asid).halt = some ⟨0x31, 0, 0, 0, true, true⟩ ∧ (x s).par.undo ≠ 0 ∧
    (t s).settledCtx (x s) = true ∧ (∀ id ∈ (t s).peers (x s) ⟨0x31, 0, 0, 0, true, true⟩, ((t s).core id).rqout = 0) ∧
    ((t s).settleAbort s.dbg.asid).dbg.state ≠ 6 ∧ ((t u).core ⟨1, 0⟩).rqout ≠ 0 ∧
    ⟨1, 0⟩ ∈ (t u).peers (x u) ⟨0x31, 0, 0, 0, true, true⟩ := by decide +kernel

theorem wit_DebugRewindResult :
    let s : State := { demoOpened with dbg := { demoOpened.dbg with en := true, asid := 1, state := 3 } }
    s.dbgCtx? = some (s.ctx 1) ∧ s.dbg.busy = false ∧ (s.ctx 1).par.undo ≠ 2 ∧ s.dbgSel ≠ [] ∧
    (∀ id ∈ s.dbgSel, (s.core id).win.has (s.dbg.darg.toNat % 2 ^ 32) = true) ∧ bit s.dbg.dcore 24 = false ∧
    s.hasCore s.dbgCore = true ∧ s.stepSel ≠ [] ∧ (s.ctx 1).par.undo ≠ 0 ∧
    (∀ id ∈ s.dbgSel, ((s.dbgSel.foldl State.settleRequests s).core id).rqout = 0) := by decide +kernel

theorem wit_DebugRewindResult_busy :
    let s : State := ({ demoOpened with dbg := { demoOpened.dbg with en := true, asid := 1, state := 3 } } : State).modCore ⟨1, 0⟩
      (fun c => { c with rqout := 1 })
    let t : State := { s with agenda := [.command], dbg := { s.dbg with busy := true, todo := some (.rewind 0 [0]) } }
    let u := t.modCore ⟨1, 0⟩ (fun c => { c with rqout := 0 })
    t.dbg.busy = true ∧ ((({ t with agenda := [] } : State).settleRequests ⟨1, 0⟩).core ⟨1, 0⟩).rqout ≠ 0 ∧
    ((({ u with agenda := [] } : State).settleRequests ⟨1, 0⟩).core ⟨1, 0⟩).rqout = 0 ∧ u.dbg.todo = some (.rewind 0 [0]) ∧
    s.dbgSel ≠ [] ∧ (∀ id ∈ s.dbgSel, (s.core id).win.has (s.dbg.darg.toNat % 2 ^ 32) = true) ∧
    (∃ id ∈ s.dbgSel, ((s.dbgSel.foldl State.settleRequests s).core id).rqout ≠ 0) ∧ t.busNext = none ∧ t.agenda = .command :: [] ∧
    t.dbg.todo = some (.rewind 0 [0]) ∧ t.dbgCtx? = some (t.ctx 1) := by decide +kernel

theorem wit_DebugRewindResult_whole :
    let s0 : State := ({ demoOpened with dbg := { demoOpened.dbg with en := true, asid := 1, state := 3 } } : State).modCtx 1 (fun x =>
      { x with par := { x.par with undo := 2 } })
    let s : State := { s0 with cores := s0.cores.map (fun c => { c with win := (s0.core ⟨1, 0⟩).win, sstepAt := some 0 }) }
    let x := s.ctx 1
    s.dbgCtx? = some x ∧ x.par.undo = 2 ∧ x.ids ≠ [] ∧ (∀ id ∈ x.ids, (s.core id).win.has (s.dbg.darg.toNat % 2 ^ 32) = true) ∧
    (∀ id ∈ x.ids, ((x.ids.foldl State.settleRequests s).core id).rqout = 0) ∧ s.ctx? x.asid = some x ∧
    (∃ i ∈ x.ids, ((demoDebug 2 true (fun g => g)).core i).win.has 0 = false) ∧
    (∃ id ∈ x.ids, s.hasCore id = true ∧ (s.core id).sstepAt ≠ none) := by decide +kernel

theorem wit_DebugRewindResult_replay :
    let s : State := { (demoOpened.modCore ⟨1, 0⟩ (fun c => { c with ckpts := c.ckpts.map (fun k => { k with rec_ := true }) })) with
      dbg := { demoOpened.dbg with en := true, asid := 1, state := 3, rewound := [0] } }
    s.stepSel ≠ [] ∧ (∀ id ∈ s.stepSel, id.l ∈ s.dbg.rewound ∧ (s.core id).replayReady = true) := by decide +kernel

theorem wit_DebugInspectResult :
    let s := demoDebug 2 true id
    s.mayCommand anyState = true ∧ s.dbg.slotBad = false ∧ s.dbgSel ≠ [] ∧ bit s.dbg.dcore 24 = false ∧ s.hasCore s.dbgCore = true ∧
    s.ddataOk = true ∧ bits s.dbg.dloc 27 24 = 0 ∧ demo.ddataOk = false ∧ s.dbg.trk = 0 ∧
    (demoDebug 0 false id).attached 1 = true ∧ (s.ctx 1).run = .running ∧ s.pcc (s.dieOf ⟨1, 0⟩) % 2 ^ s.dbg.sper = 0 ∧
    ((32#64) &&& 0x003FFFFFFFFFFFE0#64) ≠ s.dbg.trbase := by decide +kernel

theorem wit_DebugInspectResult_break :
    let s := (demoDebug 0 false id).modCore ⟨1, 0⟩ (fun c => { c with bp := c.bp.set 0 ⟨c.pc, 1⟩ })
    s.mayRun ⟨1, 0⟩ = true ∧ s.gangOf ⟨1, 0⟩ = [⟨1, 0⟩] ∧ (s.core ⟨1, 0⟩).due = none ∧ (s.core ⟨1, 0⟩).pendReady = false ∧
    (s.core ⟨1, 0⟩).awaited 3 = false ∧ (s.core ⟨1, 0⟩).rewinding = none ∧ (s.breakStop ⟨1, 0⟩).isSome = true := by decide +kernel

/-- `ld x6, 0(x5)` at the pc of an attached core, with a watchpoint on the doubleword it loads. -/
def demoWatch : State :=
  ((demoDebug 0 false id).modCore ⟨1, 0⟩ (fun c => { c.wx 5 (own 64) with wp := c.wp.set 0 ⟨own 64, 0x7F⟩ })).putParcel 0x0002B303

theorem wit_DebugInspectResult_watch :
    demoWatch.standsAt ⟨1, 0⟩ = some (.load .ld 6 5 0) ∧ (demoWatch.core ⟨1, 0⟩).ea 5 0 = own 64 ∧
    (demoWatch.core ⟨1, 0⟩).watchHit (own 64) 8 false = true ∧ (demoWatch.core ⟨1, 0⟩).gang = none ∧
    (demoWatch.core ⟨1, 0⟩).stepping = false ∧ (demoWatch.core ⟨1, 0⟩).replay = none ∧ (demoWatch.ctx 1).halt = none ∧
    demoWatch.dbg.why ≠ 2 ∧ after? (demoWatch.asEvent ⟨1, 0⟩ accessRun) (fun t => t.dbg.why) = some 2 := by decide +kernel

/-- `sd 0(x5), x6` at the pc of an attached core, with a watchpoint on the doubleword it stores to. -/
def demoWatchStore : State :=
  ((demoDebug 0 false id).modCore ⟨1, 0⟩ (fun c => { c.wx 5 (own 64) with wp := c.wp.set 0 ⟨own 64, 0x7F⟩ })).putParcel 0x0062B023

theorem wit_DebugInspectResult_watchStore :
    let s := demoWatchStore
    s.standsAt ⟨1, 0⟩ = some (.store .sd 5 6 0) ∧ ((s.core ⟨1, 0⟩).ea 5 0).toNat % storeBytes .sd = 0 ∧
    (s.core ⟨1, 0⟩).watchHit (own 64) 8 true = true ∧ s.dbg.why ≠ 2 ∧
    after? (s.asEvent ⟨1, 0⟩ accessRun) (fun t => t.dbg.why) = some 2 := by decide +kernel

/-! ### Witnesses: package, trust, links, management -/

theorem wit_DieResetResult :
    let st (k : DieSt) (l : Bool) : State := demo.modDie 3 (fun d => { d with st := k, lost := l })
    bit (0x103#64) 8 = true ∧ (demo.die 3).st = .live ∧ (demo.die 3).lost = false ∧ bits (0x103#64) 63 9 = 0 ∧ bits (0x103#64) 7 3 = 0 ∧
    pathsOk (fun e => e != 3 && (demo.die e).st == .live && !(demo.die e).lost) = true ∧ bits (0x10B#64) 7 3 ≠ 0 ∧
    ((st .transit false).die 3).st = .transit ∧ ((st .reroute true).die 3).lost = true ∧ ((st .drain false).die 3).st = .drain ∧
    ((st .reset false).die 3).st = .reset ∧ ((st .rejoin false).die 3).st = .rejoin ∧
    (st .live false).hasCore ⟨1, 0⟩ = true ∧ (demo.modDie 0 (fun d => { d with st := .drain })).dieOf ⟨1, 0⟩ = 0 := by decide +kernel

theorem wit_KeyPortResult :
    (1024#11).toNat ≤ 1024 ∧ demo.keys.busy = false ∧ 1024 < (1025#11).toNat ∧ demo.ports[11]? = some Port.reset ∧
    Port.reset.lst = 0 ∧ ({ Port.reset with lst := 1 } : Port).lst = 1 := by decide +kernel

theorem wit_AttestationResult :
    let s : State := { demo with trust := { demo.trust with vers := true, caps := true, alg := true } }
    State.reset.trust.up = false ∧ s.trust.up = true ∧ s.trust.vers = true ∧ s.trust.caps = true ∧ s.trust.alg = true ∧
    demo.trust.alg = false ∧ (1 : Nat) ≤ 1 ∧ 1 < 2 ∧ (13 : Nat) ≤ 13 ∧ 13 < 14 ∧ (14 : Nat) ≠ 0xFF := by decide +kernel

/-- Fuses with the signer's key in a slot and no least version; two pairs of images that the signer made; an erased image
verifies under no key. -/
def demoFuses : Fuses := ⟨[(XmssKey.hash signerKey, false)], 0, 0, 0⟩
def goodImages : UpdateImages := ⟨signedBy [1], signedBy [2]⟩

theorem good_accepted (m : List Byte) : demoFuses.accepts 0 (signedBy m) = true := accepts_signed _ _ rfl

theorem blank_refused (f : Fuses) (n : Nat) : f.accepts n SignedImage.blank = false := by
  simp [Fuses.accepts, xmssVerify, XmssSig.formed, SignedImage.blank]

/-- The machine before boot with those fuses and images in its slots. -/
def demoRom (a b : UpdateImages) : State :=
  { State.reset with
    trust := { State.reset.trust with fuses := demoFuses }, mgmt := { State.reset.mgmt with slotA := a, slotB := b } }

/-- A boot that meets firmware of the signer, with the I/O die and every die good. -/
def demoBoot : BootInput := ⟨5, signedBy [3], true, true, [(2, SignedImage.blank)], 0xFF⟩

theorem wit_BootUpdateResult :
    demo.mgmt.ust ≠ 1 ∧ demo.trust.booted = true ∧ State.reset.trust.booted = false ∧ ({ demo.mgmt with ust := 2 } : Mgmt).ust = 2 ∧
    (let s : State := { demo with mgmt := { demo.mgmt with ust := 1, staged := some (0x20000, 0) } }
     s.mgmt.ust = 1 ∧ s.mgmt.staged = some (0x20000, 0) ∧ s.mgmt.injected = [] ∧ ¬ (0 : Nat) ≠ 0) := by decide +kernel

/-- The machine with an update staged; when its bytes hold images of the signer it is good (what they hold is
`Config.signedImage`, open). -/
def demoStaged : State :=
  { demo with trust := { demo.trust with fuses := demoFuses }, mgmt := { demo.mgmt with ust := 1, staged := some (0x20000, 4096) } }

theorem wit_BootUpdateResult_good (k : Nat) (h : UpdateImages.ofBytes k (demoStaged.hbmBytes 1024 0x20000 4096) = goodImages) :
    let f := demoStaged.trust.fuses
    let u := UpdateImages.ofBytes k (demoStaged.hbmBytes 1024 0x20000 4096)
    demoStaged.mgmt.ust = 1 ∧ demoStaged.mgmt.injected = [] ∧ (4096 : Nat) ≠ 0 ∧ demoStaged.hbmRefusal 1024 0x20000 4096 = 0 ∧
    f.accepts f.minIo u.io = true ∧ f.accepts f.minDie u.die = true := by
  have hf : demoStaged.trust.fuses = demoFuses := rfl
  have hm : demoFuses.minIo = 0 ∧ demoFuses.minDie = 0 := ⟨rfl, rfl⟩
  have h1 : goodImages.io = signedBy [1] ∧ goodImages.die = signedBy [2] := ⟨rfl, rfl⟩
  refine ⟨rfl, by decide +kernel, by decide, by decide +kernel, ?_, ?_⟩
  · rw [h, hf, hm.1, h1.1, good_accepted]
  · rw [h, hf, hm.2, h1.2, good_accepted]

theorem io_good (b : BootInput) (m : Mgmt) (sl : Bool) (h : (if sl then b.ioSelfB else b.ioSelfA) = true)
    (e : (m.slot sl).io = signedBy [1]) : BootInput.ioOk b demoFuses m sl = true := by
  unfold BootInput.ioOk
  rw [h, e, show demoFuses.minIo = 0 from rfl, good_accepted, Bool.and_self]

theorem io_bad (b : BootInput) (m : Mgmt) (sl : Bool) (h : (if sl then b.ioSelfB else b.ioSelfA) = false ∨ (m.slot sl).io = SignedImage.blank) :
    BootInput.ioOk b demoFuses m sl = false := by
  unfold BootInput.ioOk
  rcases h with h | h
  · rw [h]; rfl
  · rw [h, blank_refused, Bool.and_false]

theorem boot_firmware : demoFuses.accepts demoFuses.minFw demoBoot.firmware = true := by
  rw [show demoFuses.minFw = 0 from rfl, show demoBoot.firmware = signedBy [3] from rfl, good_accepted]

theorem wit_BootUpdateResult_boot :
    let s := demoRom goodImages goodImages
    let t := demoRom ⟨SignedImage.blank, SignedImage.blank⟩ goodImages
    let f := s.trust.fuses
    s.trust.booted = false ∧ f.accepts f.minFw demoBoot.firmware = true ∧ f.accepts f.minFw SignedImage.blank = false ∧
    BootInput.ioOk demoBoot f s.mgmt s.mgmt.act = true ∧
    (BootInput.ioOk { demoBoot with ioSelfA := false } f s.mgmt s.mgmt.act = false ∧
      BootInput.ioOk { demoBoot with ioSelfA := false } f s.mgmt (!s.mgmt.act) = true) ∧
    (BootInput.ioOk demoBoot f t.mgmt t.mgmt.act = false ∧ BootInput.ioOk demoBoot f t.mgmt (!t.mgmt.act) = true) ∧
    BootInput.ioOk { demoBoot with ioSelfB := false } f t.mgmt (!t.mgmt.act) = false :=
  ⟨rfl, boot_firmware, blank_refused _ _, io_good _ _ _ rfl rfl, ⟨io_bad _ _ _ (.inl rfl), io_good _ _ _ rfl rfl⟩,
   ⟨io_bad _ _ _ (.inr rfl), io_good _ _ _ rfl rfl⟩, io_bad _ _ _ (.inl rfl)⟩

/-- Every die but die 2, which has another image, is live after that boot. -/
theorem wit_BootUpdateResult_live :
    (BitVec.ofNat 8 (BootInput.live demoBoot demoFuses (signedBy [2])) : BitVec 8) = 0xFB := by
  have h : (fun e => BootInput.passed demoBoot demoFuses (signedBy [2]) e) = fun e => decide (e < 8 ∧ e ≠ 2) := by
    funext e
    by_cases h2 : e = 2
    · subst h2
      simp [BootInput.passed, BootInput.verified, BootInput.loaded, demoBoot, blank_refused]
    · have h3 : (2 == e) = false := by simpa using fun h => h2 h.symm
      have h4 : (0xFF#8).getLsbD e = decide (e < 8) := by
        rcases Nat.lt_or_ge e 8 with h | h
        · interval_cases e <;> rfl
        · simp [BitVec.getLsbD_of_ge _ _ h, Nat.not_lt.mpr h]
      simp [BootInput.passed, BootInput.verified, BootInput.loaded, demoBoot, h2, h3, h4, good_accepted, show demoFuses.minDie = 0 from rfl]
  have e : BootInput.live demoBoot demoFuses (signedBy [2]) = dieMask (fun d => (reachIo (fun e => decide (e < 8 ∧ e ≠ 2)) 8).contains d) := by
    simp only [BootInput.live, h]
  rw [e]
  decide +kernel

theorem wit_PowerErrorResult :
    let s := demo.modDie 1 (fun d => { d with tripped := some 0 })
    let t (k : Nat) : State := { demo with mgmt := { demo.mgmt with injected := [⟨5, 0, 0x20, k⟩] } }
    (sensorDie 0).isSome = true ∧ (demo.die 0).halved.contains 35 = false ∧ (105 * 16 : Nat) ≤ 1680 ∧ (1599 : Nat) < 100 * 16 ∧
    450000 < 450001 ∧ (demo.die 0).tripped = none ∧ (demo.die 0).lost = false ∧ (s.die 1).tripped = some 0 ∧ 404999 < 405000 ∧
    0 + 1000000 ≤ ({ s with cycle := 2000000 } : State).pcc 1 ∧ (s.die 1).lost = false ∧
    bits (word (8 * 2 ^ 56 + 2)) 1 0 ≠ 3 ∧ 1 ≤ bits (word (8 * 2 ^ 56 + 2)) 63 56 ∧ bits (word (8 * 2 ^ 56 + 2)) 63 56 ≤ 8 ∧
    bits (3 : Word) 1 0 = 3 ∧ (0x20#64).toNat % 16 = 0 ∧ (t 1).mgmt.injected = [⟨5, 0, 0x20, 1⟩] ∧ (t 2).mgmt.injected = [⟨5, 0, 0x20, 2⟩] ∧
    (t 1).poisoned 5 0 (0x20#64).toNat 16 = false ∧ (t 2).poisoned 5 0 (0x20#64).toNat 16 = false := by decide +kernel

/-! ### Witnesses: numbers, decoding, the step -/

theorem wit_AccumulatorValue :
    let a (n p m f : Bool) : AE := { AE.freshElem with nan := n, pinf := p, ninf := m, float := f }
    (a true false false true).nan = true ∧ (a false true true true).ninf = true ∧ (a false true false true).pinf = true ∧
    (a false false true false).pinf = false ∧ (a false false false false).float = false ∧ (a false false false true).float = true := by
  decide +kernel

theorem wit_EncodeDecode :
    wellFormed (.integerOp (.shift .slliw 31 31 31)) = true ∧ (encodeParcel (.integerOp (.shift .slliw 31 31 31))).isSome = true ∧
    wellFormed vaddI = true ∧ (encodeWord vaddI).isSome = true := by decide +kernel

/-- The same facts as `State.Acts`, computed. -/
def actsB (s : State) : Bool :=
  let c := s.core s.cur
  let ms := s.gangOf s.cur
  s.hasCore s.cur && ms.all s.mayRun && c.rewinding.isNone && c.due.isNone && ms.all (fun m => !(s.core m).pendReady) &&
    ms.all (fun m => !(s.core m).awaited 3) && ms.all (fun m => (s.breakStop m).isNone) &&
    (match c.replay with
     | some r => c.pfx.isSome || decide (c.dicnt < r.target)
     | none => true)

theorem acts_of {s : State} (h : actsB s = true) : s.Acts := by
  simp only [actsB, Bool.and_eq_true, List.all_eq_true, Option.isNone_iff_eq_none, Bool.not_eq_true'] at h
  obtain ⟨⟨⟨⟨⟨⟨⟨h1, h2⟩, h3⟩, h4⟩, h5⟩, h6⟩, h7⟩, h8⟩ := h
  refine ⟨h1, List.all_eq_true.mpr h2, h3, h4, h5, h6, fun r hr hp => ?_, h7⟩
  rw [hr, hp] at h8
  simpa using h8

/-- What a step needs, computed: the core acts, and its fetch reads a parcel that `p` holds of, in the core and the state before. -/
def stepsB (s : State) (p : CoreSt → State → Parcel → Bool) : Bool :=
  let s0 : State := { s with cur := s.leader s.cur, note := .none }
  decide (s.busNext = none) && decide (s.agenda = []) && s.hasCore s.cur && actsB s0 && (match s0.fetch s0.cur (s0.core s0.cur).pc with
    | (s1, .ok w) => p (s0.core s0.cur) s1 w
    | _ => false)

/-- A parcel that decodes to `i`, which its unit accepts or not; one that does not decode. -/
def readsAs (i : Instr) (ok : Bool) (c : CoreSt) (_ : State) (w : Parcel) : Bool :=
  decide ((decodeParcel w).toOption = some i) && (c.accepts i == ok) && (c.mismatched i).isNone
def readsNone (_ : CoreSt) (_ : State) (w : Parcel) : Bool := decide ((decodeParcel w).toOption = none)

/-- `demo` with the unit of an `imx` open at the parcel before; with a gang of cores 0 and 1; in a replay. -/
def demoUnit (scx : Option Scope) : State := demoWith (fun c => { c with pfx := some ⟨0xFFFC, some 5, scx⟩ })
def demoGang : State :=
  [⟨1, 0⟩, ⟨1, 1⟩].foldl (fun s id => s.modCore id (fun c => { c.start placedRec with gang := some ⟨3⟩ })) demo
def demoReplay : State := demoOpened.modCore ⟨1, 0⟩ (fun c => { c with pc := 0x10000, stepping := true, replay := some ⟨3⟩, dicnt := 1 })

theorem wit_StepRunsDecoded :
    let addi : Instr := .integerOp (.imm .addi 5 5 10)
    stepsB (demo.putParcel 0x00A28293) (readsAs addi true) = true ∧ stepsB ((demoUnit none).putParcel 0x00A28293) (readsAs addi true) = true ∧
    stepsB ((demoUnit (some .pkg)).putParcel 0x00A28293) (readsAs addi false) = true ∧
    stepsB ((demoUnit none).putParcel 0x007302B3) (readsAs (.integerOp (.rr .add 5 6 7)) false) = true ∧
    stepsB (demo.putParcel 0x0000007F) readsNone = true ∧ stepsB ((demoUnit none).putParcel 0x0000007F) readsNone = true ∧
    stepsB (demoGang.putParcel 0x00A28293) (readsAs addi true) = true ∧ (demoGang.core demoGang.cur).gang ≠ none ∧
    stepsB (demoReplay.putParcel 0x00A28293) (readsAs addi true) = true := by decide +kernel

theorem wit_StepRunsDecoded_event :
    ({ demo with agenda := [.ev .keyUpdateDone] } : State).agenda = .ev .keyUpdateDone :: [] ∧ isScalar .keyUpdateDone = false ∧
    demo.trust.up = true ∧ State.reset.trust.up = false ∧ hostRow (.launch 1) = true ∧ hostRow .keyUpdateDone = false := by
  decide +kernel

theorem wit_StepRunsDecoded_gang :
    let run (i : Instr) : State → Host.Outcome State Fault Refusal := exec i
    let addi : Instr := .integerOp (.imm .addi 5 5 10)
    let trapped (m : CoreId) : Bool := match (gangOne (run .ecall) demoGang m).note with
      | .trapped _ _ => true
      | _ => false
    demoGang.gangOf demoGang.cur = [⟨1, 0⟩, ⟨1, 1⟩] ∧ trapped ⟨1, 0⟩ = true ∧ trapped ⟨1, 1⟩ = true ∧
    (∀ m ∈ demoGang.gangOf demoGang.cur, (gangOne (run addi) demoGang m).note = .retired) ∧
    (match gangChain (run addi) demoGang (demoGang.gangOf demoGang.cur).reverse with
     | .ok _ => true
     | .error _ => false) = true := by decide +kernel

theorem wit_MemoryFormKept : (after? (step demo) (fun t => t.cycle)) = some 1 := by decide +kernel

theorem demo_memOk : demo.MemOk := by
  refine ⟨by decide +kernel, by decide +kernel, ?_⟩
  have h : (demo.cores.all (fun c => decide (Mem.wf c.reg) && decide (Mem.wf c.scratch) && decide (c.ctrs = []))) = true := by
    decide +kernel
  intro c hc
  have := List.all_eq_true.mp h c hc
  simp only [Bool.and_eq_true, decide_eq_true_eq] at this
  refine ⟨this.1.1, this.1.2, ?_⟩
  rw [this.2]
  exact List.Pairwise.nil

theorem wit_StoreFrame :
    (doneOf (demo.put ⟨1, 0⟩ none (.scratch 0 65528) (leBytes 8 7))).isSome = true ∧
    (doneOf (demo.put ⟨1, 0⟩ none (.hbm 1 0x18) (leBytes 8 7))).isSome = true ∧
    (doneOf (demo.put ⟨1, 0⟩ none (.reg 0) (leBytes 8 7))).isSome = true ∧
    (doneOf (demo.put ⟨1, 0⟩ none (.hostBulk 0x18) (leBytes 8 7))).isSome = true ∧
    (doneOf (demo.put ⟨1, 0⟩ none (.dev 0x20010) (leBytes 8 7))).isSome = true ∧ demo.hasCore ⟨1, 0⟩ = true ∧
    (demo.core ⟨1, 0⟩).holds none = false ∧ (demoOpened.core ⟨1, 0⟩).holds (some 0) = true ∧ demoOpened.dieOf ⟨1, 0⟩ < demoOpened.dies.length ∧
    (doneOf (demoOpened.put ⟨1, 0⟩ (some 0) (.hostBulk 0x18) (leBytes 8 7))).isSome = true := by decide +kernel

/-! ### Ill-formed terms: one for each check of `wellFormed` -/

theorem test_illformed :
    [Instr.fence 1 0 0, .integerOp (.shift .slliw 1 2 32), .integerOp (.shift .srliw 1 2 32), .integerOp (.shift .sraiw 1 2 63),
      .integerOp (.shift .roriw 1 2 32), .floatOp (.cvt .s .s 1 2 0), .gset 0, .gclr 0, .nfcvtN .rne 0 1 2 3, .nfcvtF .rtz 0 1 2 3].all
      (fun i => !wellFormed i) = true := by decide

/-- A copy body whose bits [127:124] are not 0 (spec/02 R47). -/
def badCopy : CopyBody := ⟨0, 0, 0, false, 0, 0, 0, 1#64 <<< 60⟩

theorem test_illformed_copy :
    [Instr.cpy hdr0 badCopy, .cps hdr0 badCopy, .gth hdr0 badCopy, .sct hdr0 badCopy, .rdx hdr0 badCopy, .bcs hdr0 badCopy,
      .xch hdr0 badCopy].all (fun i => !wellFormed i) = true ∧ wellFormed (.fil hdr0 badCopy) = true := by decide

/-! ### Decoding: words written from the encodings of spec/02, as sums of field × 2^(lowest bit) -/

/-- The bits of an encoding: its fixed bits and its fields. -/
def bitsOf (base : Nat) (fs : List (Nat × Nat)) : Nat := fs.foldl (fun a f => a + f.1 * 2 ^ f.2) base

/-- Every listed parcel decodes to its instruction. -/
def readsParcels (ts : List (Nat × List (Nat × Nat) × Instr)) : Bool :=
  ts.all (fun t => decide ((decodeParcel (BitVec.ofNat 32 (bitsOf t.1 t.2.1))).toOption = some t.2.2))

/-- Standard formats (RISC-V unprivileged specification; spec/02 R29). -/
theorem test_decode_standard : readsParcels [
    (0x03, [(5, 7), (3, 12), (6, 15), (0xFF8, 20)], .load .ld 5 6 0xFF8),
    (0x07, [(5, 7), (2, 12), (6, 15), (4, 20)], .load .flw 5 6 4),
    (0x23, [(5, 7), (2, 12), (6, 15), (7, 20), (0x7F, 25)], .store .sw 6 7 0xFE5),
    (0x27, [(0, 7), (3, 12), (6, 15), (7, 20), (1, 25)], .store .fsd 6 7 0x20),
    (0x2F, [(5, 7), (3, 12), (6, 15), (7, 20), (1, 25), (1, 26), (0, 27)], .amo .add true true true 5 6 7),
    (0x2F, [(5, 7), (2, 12), (6, 15), (7, 20), (0x1C, 27)], .amo .maxu false false false 5 6 7),
    (0x2F, [(5, 7), (3, 12), (6, 15), (1, 26), (2, 27)], .lr true true false 5 6),
    (0x2F, [(5, 7), (2, 12), (6, 15), (7, 20), (1, 25), (3, 27)], .sc false false true 5 6 7),
    (0x0F, [(3, 20), (0xC, 24), (8, 28)], .fence 8 0xC 3), (0x0F, [(1, 12)], .fenceI), (0x73, [], .ecall), (0x73, [(1, 20)], .ebreak),
    (0x73, [(5, 7), (1, 12), (6, 15), (0x800, 20)], .csrAccess .rw false 0x800 5 6),
    (0x73, [(5, 7), (7, 12), (6, 15), (0xC00, 20)], .csrAccess .rc true 0xC00 5 6)] = true := by decide +kernel

theorem test_decode_integer : readsParcels [
    (0x13, [(5, 7), (6, 15), (0x800, 20)], .integerOp (.imm .addi 5 6 0x800)), (0x1B, [(5, 7), (6, 15), (1, 20)], .integerOp (.imm .addiw 5 6 1)),
    (0x13, [(5, 7), (5, 12), (6, 15), (63, 20), (0x10, 26)], .integerOp (.shift .srai 5 6 63)),
    (0x33, [(5, 7), (6, 15), (7, 20), (0x20, 25)], .integerOp (.rr .sub 5 6 7)),
    (0x33, [(5, 7), (4, 12), (6, 15), (7, 20), (1, 25)], .integerOp (.rr .div 5 6 7)),
    (0x3B, [(5, 7), (7, 12), (6, 15), (7, 20), (1, 25)], .integerOp (.rr .remuw 5 6 7)),
    (0x33, [(5, 7), (2, 12), (6, 15), (7, 20), (0x10, 25)], .integerOp (.rr .sh1add 5 6 7)),
    (0x13, [(5, 7), (1, 12), (6, 15), (2, 20), (0x30, 25)], .integerOp (.un .cpop 5 6)),
    (0x37, [(5, 7), (0xFFFFF, 12)], .integerOp (.lui 5 0xFFFFF)), (0x17, [(5, 7), (1, 12)], .integerOp (.auipc 5 1))] = true := by
  decide +kernel

theorem test_decode_float : readsParcels [
    (0x43, [(5, 7), (7, 12), (6, 15), (7, 20), (8, 27)], .floatOp (.fma .madd .s 5 6 7 8 7)),
    (0x53, [(5, 7), (1, 12), (6, 15), (7, 20), (0x0D, 25)], .floatOp (.arith .div .d 5 6 7 1)),
    (0x53, [(5, 7), (6, 15), (0x22, 25)], .floatOp (.cvt .h .s 5 6 0)), (0x53, [(5, 7), (6, 15), (1, 20), (0x20, 25)], .floatOp (.cvt .s .d 5 6 0)),
    (0x53, [(5, 7), (6, 15), (0x2E, 25)], .floatOp (.sqrt .h 5 6 0)), (0x53, [(5, 7), (2, 12), (6, 15), (7, 20), (0x10, 25)], .floatOp (.sgnj .sgnjx .s 5 6 7)),
    (0x53, [(5, 7), (1, 12), (6, 15), (7, 20), (0x15, 25)], .floatOp (.minmax true .d 5 6 7)),
    (0x53, [(5, 7), (1, 12), (6, 15), (7, 20), (0x50, 25)], .floatOp (.cmp .lt .s 5 6 7)),
    (0x53, [(5, 7), (1, 12), (6, 15), (3, 20), (0x61, 25)], .floatOp (.toInt .lu .d 5 6 1)),
    (0x53, [(5, 7), (6, 15), (1, 20), (0x68, 25)], .floatOp (.ofInt .wu .s 5 6 0)), (0x53, [(5, 7), (6, 15), (0x70, 25)], .floatOp (.mvX .s 5 6)),
    (0x53, [(5, 7), (1, 12), (6, 15), (0x72, 25)], .floatOp (.cls .h 5 6)), (0x53, [(5, 7), (6, 15), (0x79, 25)], .floatOp (.mvF .d 5 6))] = true := by
  decide +kernel

theorem test_decode_branch : readsParcels [
    (0x63, [(1, 12), (6, 15), (7, 20), (4, 8)], .branchJump (.br .bne 6 7 4)), (0x63, [(6, 15), (7, 20), (1, 31)], .branchJump (.br .beq 6 7 0x800)),
    (0x6F, [(1, 7), (1, 21)], .branchJump (.jal 1 1)), (0x6F, [(1, 7), (1, 20)], .branchJump (.jal 1 0x400)),
    (0x67, [(1, 7), (6, 15), (0xFFC, 20)], .branchJump (.jalr 1 6 0xFFC))] = true := by decide +kernel

/-- custom-0 (spec/02 R33 to R35), with the worked encoding of R34. -/
theorem test_decode_custom0 : readsParcels [
    (0x0B, [(3, 29), (2, 27), (0x7F, 20), (6, 15), (5, 7)], .lda .w .pkg 5 6 0x7F),
    (0x0B, [(1, 12), (4, 29), (3, 27), (2, 25), (7, 20), (6, 15), (1, 7)], .stl .d .sys 6 7 0x41),
    (0x0B, [(2, 12), (1, 20)], .ofence .bench), (0x0B, [(2, 12), (1, 25), (1, 20)], .xfence .se), (0x0B, [(2, 12), (1, 25), (2, 20)], .xfence .el),
    (0x0B, [(2, 12), (1, 25), (3, 20)], .xfence .both), (0x0B, [(2, 12), (2, 25), (0, 20)], .scx .core),
    (0x0B, [(2, 12), (4, 25), (7, 20), (6, 15)], .redaddW 6 7), (0x0B, [(2, 12), (5, 25), (7, 20), (6, 15)], .redaddD 6 7),
    (0x0B, [(2, 12), (6, 25), (7, 20), (6, 15)], .redaddF 6 7), (0x0B, [(3, 12), (0x1FFFF, 15), (5, 9)], .imx 0xFFFFD),
    (0x0455F30B, [], .samo .add .die true true 6 11 5),
    (0x0B, [(4, 12), (9, 28), (4, 25), (7, 20), (6, 15), (5, 7)], .samo .cas .sys false false 5 6 7)] = true := by decide +kernel

/-- custom-1 (spec/02 R38). -/
theorem test_decode_custom1_tasks : readsParcels [
    (0x2B, [(6, 15)], .spawn 6), (0x2B, [(1, 25), (7, 20), (6, 15)], .arm 6 7), (0x2B, [(2, 25), (7, 20), (6, 15)], .sig 6 7),
    (0x2B, [(3, 25)], .tdone), (0x2B, [(4, 25)], .tyield), (0x2B, [(5, 25), (6, 15), (5, 7)], .tcall 5 6), (0x2B, [(6, 25)], .tret),
    (0x2B, [(1, 12), (6, 15)], .join 6), (0x2B, [(1, 12), (1, 25), (6, 15)], .leave 6), (0x2B, [(1, 12), (2, 25), (7, 20), (6, 15)], .bar 6 7),
    (0x2B, [(1, 12), (3, 25), (7, 20), (6, 15)], .bara 6 7), (0x2B, [(1, 12), (4, 25), (7, 20), (6, 15)], .barw 6 7),
    (0x2B, [(1, 12), (5, 25), (7, 20), (6, 15), (5, 7)], .vote 5 6 7), (0x2B, [(1, 12), (6, 25), (5, 7)], .sstep 5),
    (0x2B, [(1, 12), (7, 25), (6, 15)], .gfuse 6), (0x2B, [(1, 12), (8, 25)], .gsplit)] = true := by decide +kernel

theorem test_decode_custom1_queues : readsParcels [
    (0x2B, [(2, 12), (15, 20), (6, 15)], .qpush 15 6), (0x2B, [(2, 12), (1, 25), (15, 20), (5, 7)], .qpop 5 15),
    (0x2B, [(2, 12), (2, 25), (3, 20), (5, 7)], .qpeek 5 3), (0x2B, [(2, 12), (3, 25), (7, 20), (6, 15), (7, 7)], .msend 6 7 7),
    (0x2B, [(2, 12), (4, 25), (7, 20), (6, 15), (5, 7)], .mpop 5 7 6), (0x2B, [(3, 12), (6, 15), (1, 7)], .epush .eqv 6),
    (0x2B, [(3, 12), (1, 25), (7, 20), (6, 15), (3, 7)], .epushb .eqp 6 7), (0x2B, [(3, 12), (2, 25), (2, 20), (5, 7)], .epop 5 .eqc),
    (0x2B, [(3, 12), (3, 25), (0, 20), (5, 7)], .epopnb 5 .eqm), (0x2B, [(3, 12), (4, 25), (15, 7)], .gset 15), (0x2B, [(3, 12), (5, 25), (1, 7)], .gclr 1),
    (0x2B, [(3, 12), (6, 25), (6, 15)], .wfc 6), (0x2B, [(3, 12), (7, 25), (6, 15)], .wfcy 6)] = true := by decide +kernel

theorem test_decode_custom1_windows : readsParcels [
    (0x2B, [(4, 12), (5, 7)], .wopen 5), (0x2B, [(4, 12), (1, 25), (6, 15)], .wcommit 6), (0x2B, [(4, 12), (2, 25), (6, 15)], .wrewind 6),
    (0x2B, [(4, 12), (3, 25), (6, 15), (5, 7)], .wstat 5 6), (0x2B, [(6, 12), (4, 8), (63, 15)], .bcb 63 4),
    (0x2B, [(7, 12), (1, 31), (1, 15)], .bcbn 1 0x800)] = true := by decide +kernel

/-- custom-2 (spec/02 R39, R40) and custom-3 (R41). -/
theorem test_decode_custom23 : readsParcels [
    (0x5B, [(7, 20), (6, 15), (15, 7)], .vwset 15 6 7), (0x5B, [(1, 25), (1, 20), (15, 15), (5, 7)], .vwget 5 15 true),
    (0x5B, [(1, 12), (0x810, 20), (6, 15), (3, 7)], .vld 3 6 0x810), (0x5B, [(2, 12), (0x40, 25), (3, 20), (6, 15), (0x10, 7)], .vst 3 6 0x810),
    (0x5B, [(3, 12), (0x810, 20), (6, 15), (1, 11), (3, 7)], .tld 3 true 6 0x810),
    (0x5B, [(4, 12), (0x40, 25), (1, 24), (3, 20), (6, 15), (0x10, 7)], .tst 3 true 6 0x810), (0x5B, [(5, 12), (7, 20), (6, 15), (2, 7)], .ringset 2 6 7),
    (0x5B, [(5, 12), (1, 25), (6, 15), (2, 7)], .ringadv 2 6), (0x5B, [(5, 12), (2, 25), (6, 15), (2, 7)], .ringrel 2 6),
    (0x5B, [(6, 12), (9, 15), (2, 7)], .xmv 2 9), (0x5B, [(6, 12), (1, 25), (6, 15)], .shape 6),
    (0x7B, [(2, 28), (7, 25), (8, 20), (6, 15), (5, 7)], .nfcvtN .sr 7 5 6 8), (0x7B, [(1, 31), (1, 28), (3, 25), (6, 15), (5, 7)], .nfcvtF .rtz 3 5 6 0),
    (0x7B, [(1, 12), (7, 25), (8, 20), (6, 15), (5, 7)], .nfpack 7 5 6 8), (0x7B, [(2, 12), (7, 25), (8, 20), (6, 15), (5, 7)], .nfunpk 7 5 6 8),
    (0x7B, [(3, 12), (0x7F, 25), (6, 15), (5, 7)], .rngrd 0x7F 5 6)] = true := by decide +kernel

/-- Reserved encodings have no instruction: `fm` 1 of `fence`, scope 0b101, direction 0b00, funct7 0x03 of custom-0, `samo` op
0b1011, `mret`, a conversion with a reserved rounding code, a compressed parcel. -/
theorem test_decode_reserved :
    [bitsOf 0x0F [(1, 28)], bitsOf 0x0B [(2, 12), (5, 20)], bitsOf 0x0B [(2, 12), (1, 25)], bitsOf 0x0B [(2, 12), (3, 25)],
      bitsOf 0x0B [(4, 12), (0xB, 28)], 0x30200073, bitsOf 0x7B [(3, 28)], bitsOf 0x7B [(1, 20)], 0x00000001].all
      (fun w => (decodeParcel (BitVec.ofNat 32 w)).toOption.isNone) = true := by decide +kernel

/-- The header and body of the command-word tests, each field with a value of its own. -/
def hdrT : Header := ⟨0xABC, 5, 0xC3, 6, 0xA5, 0x5A7, true, false, 9⟩
def hdrBits : List (Nat × Nat) := [(0xABC, 52), (5, 49), (0xC3, 41), (6, 38), (0xA5, 30), (0x5A7, 18), (1, 17), (0, 16), (9, 12)]
def mvT : MvBody := ⟨8, 0xDEADBEEF, 0x123, 0x456, 0x789, 0x1B, 0x15, 0x0B, 4, 0xC5, 2, true, 0x13, 6, 5, 3, 0x21, 0x3E, 0x07⟩
def mvBits : List (Nat × Nat) := [(8, 200), (0xDEADBEEF, 168), (0x123, 156), (0x456, 144), (0x789, 132), (0x1B, 127), (0x15, 122), (0x0B, 117),
  (4, 114), (0xC5, 106), (2, 103), (1, 102), (0x13, 97), (6, 94), (5, 91), (3, 88), (0x21, 80), (0x3E, 72), (0x07, 64)]
def cpT : CopyBody := ⟨0x9AB, 3, 0x9876543, true, 0xABCDE, 2, 0x3123456789ABCD, word (10 * 2 ^ 56 + 1 * 2 ^ 54 + 0x2BCDEF01234567)⟩
def cpBits : List (Nat × Nat) := [(0x9AB, 244), (3, 241), (0x9876543, 213), (1, 212), (0xABCDE, 192), (2, 182), (0x3123456789ABCD, 128),
  (10, 120), (1, 118), (0x2BCDEF01234567, 64)]
def popT : PopBody := ⟨11, 0x89ABCDEF, 0xFEDCBA9876543210, true, 5, 0xBEEF, 0x3F800001, 0x9ABCD, 0x345⟩
def popBits : List (Nat × Nat) := [(11, 244), (0x89ABCDEF, 212), (0xFEDCBA9876543210, 148), (1, 147), (5, 144), (0xBEEF, 128), (0x3F800001, 96),
  (0x9ABCD, 76), (0x345, 64)]

/-- Every listed opcode of a class decodes, with all its fields, to its command. -/
def readsWords (cls : Nat) (body : List (Nat × Nat)) (ts : List (Nat × Instr)) : Bool :=
  ts.all (fun t => decide ((decodeWord (BitVec.ofNat 256 (bitsOf (t.1 + cls * 256) (hdrBits ++ body)))).toOption = some t.2))

theorem test_decode_matrix : readsWords 1 mvBits [(0x01, .mmf88 hdrT mvT), (0x02, .mmf84 hdrT mvT), (0x03, .mmf44 hdrT mvT),
    (0x04, .mmh16 hdrT mvT), (0x05, .mmh8 hdrT mvT), (0x06, .mmi88 hdrT mvT), (0x07, .mmi84 hdrT mvT), (0x08, .mmi44 hdrT mvT),
    (0x11, .mspf88 hdrT mvT), (0x12, .mspf44 hdrT mvT), (0x13, .mspi88 hdrT mvT), (0x14, .msph16 hdrT mvT), (0x20, .mzero hdrT mvT),
    (0x21, .manch hdrT mvT), (0x30, .mresI hdrT mvT), (0x31, .mresF hdrT mvT), (0x38, .mcmp hdrT mvT)] = true := by decide +kernel

theorem test_decode_vector : readsWords 2 mvBits [(0x01, .vadd hdrT mvT), (0x02, .vsub hdrT mvT), (0x03, .vmul hdrT mvT), (0x04, .vfma hdrT mvT),
    (0x05, .vmax hdrT mvT), (0x06, .vmin hdrT mvT), (0x07, .vabs hdrT mvT), (0x08, .vneg hdrT mvT), (0x09, .vshl hdrT mvT), (0x0A, .vshr hdrT mvT),
    (0x0B, .vsra hdrT mvT), (0x0C, .vand hdrT mvT), (0x0D, .vor hdrT mvT), (0x0E, .vxor hdrT mvT), (0x0F, .vcmp hdrT mvT), (0x10, .vsel hdrT mvT),
    (0x11, .vcvt hdrT mvT), (0x12, .vrcp hdrT mvT), (0x13, .vexp2 hdrT mvT), (0x14, .vreds hdrT mvT), (0x15, .vredm hdrT mvT),
    (0x16, .vperm hdrT mvT), (0x17, .vbcast hdrT mvT), (0x18, .vscl hdrT mvT), (0x19, .vclamp hdrT mvT), (0x1A, .vrq hdrT mvT),
    (0x1B, .vnfin hdrT mvT)] = true := by decide +kernel

theorem test_decode_copy_population :
    readsWords 3 cpBits [(1, .cpy hdrT cpT), (2, .cps hdrT cpT), (3, .gth hdrT cpT), (4, .sct hdrT cpT), (5, .rdx hdrT cpT), (6, .bcs hdrT cpT),
      (7, .fil hdrT cpT), (8, .xch hdrT cpT)] = true ∧
    readsWords 4 popBits [(1, .prank hdrT popT), (2, .pcull hdrT popT), (3, .pmig hdrT popT), (4, .plog hdrT popT)] = true := by decide +kernel

/-- A class or opcode that is not assigned, and reserved bits, have no command (spec/02 R47, R48). -/
theorem test_decode_word_reserved :
    [bitsOf 0x100 [], bitsOf 0x109 [], bitsOf 0x21C [], bitsOf 0x501 [], bitsOf 0x101 [(1, 204)], bitsOf 0x301 [(1, 184)], bitsOf 0x301 [(1, 124)],
      bitsOf 0x401 [(1, 248)]].all (fun w => (decodeWord (BitVec.ofNat 256 w)).toOption.isNone) = true := by decide +kernel

/-! ### Values worked in spec/ -/

/-- spec/09 R212 to R215, spec/11, spec/12, spec/14: the worked parcels of the instruction tables. -/
theorem test_worked_parcels : readsParcels [
    (0x7903028B, [], .lda .d .pkg 5 6 16), (0x5093940B, [], .stl .w .die 7 9 8), (0x0030200B, [], .ofence .pkg), (0x0005002B, [], .spawn 10),
    (0x02B5002B, [], .arm 10 11), (0x04D6002B, [], .sig 12 13), (0x0205102B, [], .leave 10), (0x06B5102B, [], .bara 10 11),
    (0x0AB512AB, [], .vote 5 10 11), (0x0C0012AB, [], .sstep 5), (0x0E05102B, [], .gfuse 10), (0x0035202B, [], .qpush 3 10),
    (0x023022AB, [], .qpop 5 3), (0x000042AB, [], .wopen 5), (0x0404C02B, [], .wrewind 9), (0x0604C5AB, [], .wstat 11 9)] = true := by
  decide +kernel

/-- spec/02: `mzero d=vw4 sig=17 next=stop`; spec/13: `prank grp=5 addr=0x8000 sig=6`; spec/08: slot 1 of the accumulation. -/
theorem test_worked_words :
    [decodeWord (BitVec.ofNat 256 (0x0000010000460120 + 0x0000000000080000 * 2 ^ 64)),
      decodeWord (BitVec.ofNat 256 (0x00000100001A0401 + 0x0000000008000005 * 2 ^ 64)),
      decodeWord (BitVec.ofNat 256 (0x0040024000000106 + 0x0000000000042301 * 2 ^ 64 + 0x0000000400200200 * 2 ^ 128))].map Except.toOption =
    [some (.mzero ⟨0, 0, 0, 4, 0, 17, true, false, 0⟩ { body0 with d := 8 }),
      some (.prank ⟨0, 0, 0, 4, 0, 6, true, false, 0⟩ ⟨0, 0, 0, false, 0, 0, 0, 0x8000, 5⟩),
      some (.mmi88 ⟨4, 0, 1, 1, 0, 0, false, false, 0⟩ { body0 with a := 1, b := 0x23, d := 4, k := 64, n := 32, m := 32 })] := by
  decide +kernel

/-- spec/01 R23: core 2 of bench 14 on die 5 has physical number 0x053A. -/
theorem test_core_number : (Ctx.init 1 placedPar [5 * 36 + 14]).pcn 2 = 0x053A := by decide +kernel

/-- spec/03 R71: where PA 0x0012_3456_7ABC lies with eight, seven and five live stacks. -/
theorem test_interleave :
    [0xFF, 0xDF, 0x1F].map (fun m => let s : State := { demo with lmask := m }
      (s.stackOf 0x001234567ABC, s.stackOffset 0x001234567ABC)) = [(1, 0x2468ACABC), (3, 0x299C33ABC), (0, 0x3A4114ABC)] := by decide +kernel

/-- spec/07 R156: rounding to the format 0x000D_073C under the three modes with the draw 0x5A00_0000. -/
theorem test_round_narrow :
    let r (x : XR) (m : RM) : Nat × Evs := roundTo (Fmt.ofReg 0x000D073C) x m 0x5A000000
    let a : XR := .num false 21 16
    let b : XR := .num true 43 32
    [r a .rne, r a .rtz, r a .sr, r b .rne, r b .rtz, r b .sr, r (.num false 500 1) .rne, r (.num false 500 1) .sr] =
      [(0x3A, []), (0x3A, []), (0x3B, []), (0xBB, []), (0xBA, []), (0xBB, []), (0x7E, [5]), (0x7E, [5])] := by decide +kernel

/-- spec/09 R234: the codes that the worked loop packs, and what x5 holds after the fourth. -/
theorem test_pack_loop :
    let code (neg : Bool) (n : Nat) : Nat := (roundTo (Fmt.ofReg 0x000E011A) (.num neg n 1) .rne 0).1
    [code true 2, code false 6, code false 5, code false 3] = [0xC, 0x7, 0x6, 0x5] ∧
    afterStep (demoWith (fun c => { (c.wx 5 0x67C0000000000000).wx 6 5 with csr := { c.csr with fmt := c.csr.fmt.set 1 0x000E011A } }))
      (.nfpack 1 5 5 6) (fun c => c.rx 5) = some 0x567C000000000000 := by decide +kernel

/-- spec/08: `mres.i` with sh 6 of 512 gives 8; spec/07 R163: 10 and −11 with sh 2 under the three modes, draw 0x5A00_0000. -/
theorem test_resolve_int :
    let el (v : Nat) : AE := { AE.freshElem with S := v % 2 ^ 56 }
    let r (v : Nat) (m : RM) : Int := (resolveInt (el v) 2 m 0x5A000000).1
    (resolveInt (el 512) 6 .rne 0).1 = 8 ∧
    [r 10 .rne, r 10 .rtz, r 10 .sr, r (2 ^ 56 - 11) .rne, r (2 ^ 56 - 11) .rtz, r (2 ^ 56 - 11) .sr] = [2, 2, 3, -3, -2, -3] := by
  decide +kernel

/-- Integer corners of RV64IM (spec/02 R29): division by zero, the overflowing division, shifts, a wrap. -/
theorem test_integer_corners :
    [rrEval .div 7 0, rrEval .rem 7 0, rrEval .div (BitVec.ofNat 64 (2 ^ 63)) (BitVec.allOnes 64), rrEval .add (BitVec.allOnes 64) 1,
      rrEval .sraw 0x80000000 31, rrEval .mulhu (BitVec.allOnes 64) (BitVec.allOnes 64), rrEval .sll 1 65] =
    [BitVec.allOnes 64, 7, BitVec.ofNat 64 (2 ^ 63), 0, BitVec.allOnes 64, BitVec.allOnes 64 - 1, 2] := by decide +kernel

/-- 1.5 + 2.25 = 3.75; 1/3 rounds to nearest; the square root of −1 is the canonical NaN with the invalid flag. -/
theorem test_float_values :
    (arithEval .add Fmt.f32 0x3FC00000 0x40100000 .rne).1 = 0x40700000 ∧ (arithEval .div Fmt.f32 0x3F800000 0x40400000 .rne) = (0x3EAAAAAB, 1) ∧
    (fpSqrt Fmt.f32 0xBF800000 .rne) = (0x7FC00000, 16) := by decide +kernel

/-! ### One step of an instruction -/

theorem test_imx_addi : afterStep (demoWith (fun c => { c with pfx := some ⟨c.pc, some 0x12345, none⟩ })) (.integerOp (.imm .addi 5 0 0x678))
    (fun c => (c.rx 5, c.pc, c.instret)) = some (0x12345678, 0x10004, 1) := by decide +kernel

theorem test_load_signs : afterStep (demoWith (fun c => { c.wx 6 (own 8) with scratch := c.scratch.write 8 [0xFF, 0x80] })) (.load .lh 5 6 0)
    (fun c => c.rx 5) = some (word (2 ^ 64 - 0x7F01)) := by decide +kernel

theorem test_load_misaligned : afterStep ((demoRegs (own 1) 0).modCore ⟨1, 0⟩ (fun c => { c with csr := { c.csr with rtvec := 0x2000 } }))
    (.load .ld 6 5 0) (fun c => (c.csr.tcause, c.csr.tval, c.csr.tepc, c.pc, c.runtime)) = some (5, own 1, 0x10000, 0x2000, true) := by
  decide +kernel

theorem test_store_buffers : afterStep (demoRegs (own 8) 7) (.store .sd 5 6 0) (fun c => (c.sb.map (fun w => (w.place, w.val)), c.scratch, c.storeSeq))
    = some ([(.scratch 0 8, 7)], [], 1) := by decide +kernel

theorem test_amo_max : after? (exec (.amo .max false false false 7 5 6) ((demoRegs 0x20 5).hbmWrite 1 0x20 (leBytes 4 0xFFFFFFFE)))
    (fun t => ((t.core ⟨1, 0⟩).rx 7, t.hbm.readNat 0x20 4)) = some (word (2 ^ 64 - 2), 5) := by decide +kernel

theorem test_sc_fails : afterStep (demoRegs 0x20 5) (.sc true false false 7 5 6) (fun c => c.rx 7) = some 1 := by decide +kernel

theorem test_jalr_same : afterStep (demoRegs 0x2001 0) (.branchJump (.jalr 5 5 3)) (fun c => (c.pc, c.rx 5)) = some (0x2004, 0x10004) := by
  decide +kernel

theorem test_x0 : afterStep demo (.integerOp (.imm .addi 0 0 5)) (fun c => c.rx 0) = some 0 := by decide +kernel

theorem test_csr_illegal : after? (exec (.csrAccess .rw false 0xFFF 5 6) (demoWith (fun c => { c with csr := { c.csr with rtvec := 0x2000 } })))
    (fun t => ((t.core ⟨1, 0⟩).csr.tcause, (t.core ⟨1, 0⟩).runtime)) = some (1, true) := by decide +kernel

theorem test_ecall_no_handler : after? (exec .ecall demo) (fun t => ((t.ctx 1).halt.map HaltInfo.cause)) = some (some 0x31) := by decide +kernel

theorem test_qpop_least : after? (exec (.qpop 7 2) ((demoQueue [] 0).modCtx 1 (fun x => { x with
      squeues := [(0, 2, ⟨9, 1, []⟩), (0, 2, ⟨3, 2, []⟩), (0, 2, ⟨3, 4, []⟩)] })))
    (fun t => ((t.core ⟨1, 0⟩).rx 7, (t.ctx 1).squeues)) = some (0x380000002, [(0, 2, ⟨9, 1, []⟩), (0, 2, ⟨3, 4, []⟩)]) := by decide +kernel

theorem test_vote : voteResult [1, 3, 0, 3] = 0x200000003 := by decide +kernel

theorem test_gclr : afterStep demo (.gclr 2) (fun c => c.csr.gsl) = some 0x00010005 := by decide +kernel

theorem test_wopen : after? (exec (.wopen 7) (demoWindow 64 ⟨4, none⟩ (fun c => c.wx 5 9)))
    (fun t => ((t.core ⟨1, 0⟩).rx 7, (t.core ⟨1, 0⟩).win)) = some (4, ⟨5, some (4, 4)⟩) := by decide +kernel

/-- spec/13: the ranking worked there, fitness 2.5, NaN, 7, 2.5, −1, 4 of group 5. -/
theorem test_rank :
    let f : List Word := [0x40200000, 0x7FC00000, 0x40E00000, 0x40200000, 0xBF800000, 0x40800000]
    let x : Ctx := { Ctx.init 1 { placedPar with nb := 2 } [0, 1] with groups := (List.range 6).map (fun l => (5, l)) }
    let s : State := { demo with
      ctxs := [x], cores := x.ids.map (fun id => { CoreSt.init id with csr := { Csrs.reset with fitness := f.getD id.l 0 } }) }
    (s.ranking 1 5 none).2.map Ranked.l = [2, 5, 0, 3, 4, 1] := by decide +kernel

/-- 16 elements 1.5 + 1.5 of FP32. -/
theorem test_vadd : after? (exec vaddI ((demoWord vaddI).modCore ⟨1, 0⟩ (fun c => { c with
      reg := c.reg.write 0 ((List.range 16).flatMap (fun _ => leBytes 4 0x3FC00000)) })))
    (fun t => (List.range 16).map (fun i => (t.core ⟨1, 0⟩).reg.readNat (4 * i) 4)) = some (List.replicate 16 0x40400000) := by decide +kernel

/-- A fill of 16 bytes of the own scratchpad from 0x400 with a pattern. -/
def filJ : Instr := .fil hdr0 ⟨0, 0, 16, false, 0, 1, 0x400, 0x1122334455667788⟩

theorem test_fil : after? (exec filJ (demo.putWord (wordOf filJ))) (fun t => (t.core ⟨1, 0⟩).scratch.readNat 0x408 8) =
    some 0x1122334455667788 := by decide +kernel

theorem test_step_runs : after? (step (demo.putParcel 0x00A28293)) (fun t => ((t.core ⟨1, 0⟩).rx 5, (t.core ⟨1, 0⟩).pc, t.cycle))
    = some (10, 0x10004, 1) := by decide +kernel

/-- FIPS 197, appendix C.3: the AES-256 example. -/
def aesExample : List Nat := [0x8E, 0xA2, 0xB7, 0xCA, 0x51, 0x67, 0x45, 0xBF, 0xEA, 0xFC, 0x49, 0x90, 0x4B, 0x49, 0x60, 0x89]

theorem test_aes256 : aesEnc (aesKeys (List.range 32)) ((List.range 16).map (fun i => 17 * i)) = aesExample ∧
    aesDec (aesKeys (List.range 32)) aesExample = (List.range 16).map (fun i => 17 * i) := by decide +kernel

/-- FIPS 180-4: the first bytes of the SHA-384 digest of "abc". -/
theorem test_sha384 : (sha384 [0x61, 0x62, 0x63]).take 8 = [0xCB, 0x00, 0x75, 0x3F, 0x45, 0xA3, 0x5E, 0x8B] := by decide +kernel

end Sys2Proof.Tests
end

section
/-! The reset state and the core of a new context (spec/00 R9, spec/06 R144, spec/07 R149, spec/11 R257). -/

namespace Sys2Proof.Machine

/-- Before boot there is no core, and device memory and host memory list no byte: every memory is in canonical form. -/
theorem State.reset_memOk : State.reset.MemOk :=
  ⟨Mem.wf_nil, Mem.wf_nil, fun _ hc => nomatch hc⟩

/-- Settles O58: each register stands in the reset state, or in `CoreSt.init`, at the value its rule gives. -/
theorem resetValues : Obligations.ResetValues := by
  refine ⟨⟨State.reset_memOk, ?machine⟩, ?launch, ?translation, ?policy, ?debug, ?management, ?keysPorts, fun id => ?core⟩
  all_goals and_intros <;> rfl

end Sys2Proof.Machine
end

section
/-! The context that the debug block serves (spec/21 R402): only a write of `dsel` names another one. Every operation by which a
stopped context settles, resumes, rewinds or ends leaves `dbg.asid` as it stands: one lemma per operation, in the order of the model. -/

namespace Sys2Proof.Machine

/-! ### What an attempt or a run of operations leaves -/

@[simp] theorem Try.state_done (s : State) : (Try.done s).state = s := rfl
@[simp] theorem Try.state_blocked (s : State) : (Try.blocked s).state = s := rfl

@[simp] theorem Try.state_ite (c : Prop) [Decidable c] (r q : Try) :
    (if c then r else q).state = if c then r.state else q.state := apply_ite ..

/-- One attempt after another: the second starts from what the first has left. -/
theorem seq_dbgAsid {r : Try} {k : State → Try} (hk : ∀ t, (k t).state.dbg.asid = t.dbg.asid) :
    (match r with
      | .blocked t => .blocked t
      | .done t => k t : Try).state.dbg.asid = r.state.dbg.asid := by
  cases r with
  | done t => exact hk t
  | blocked t => rfl

theorem branch_dbgAsid {c : Prop} [Decidable c] {r q : Try} {a : Nat} (hr : r.state.dbg.asid = a) (hq : q.state.dbg.asid = a) :
    (if c then r else q).state.dbg.asid = a := by split <;> assumption

/-- What is done where there is something to do it for. -/
theorem onSome_dbgAsid {s : State} {o : Option Nat} {f : Nat → State} (hf : ∀ a, (f a).dbg.asid = s.dbg.asid) :
    (match o with
      | some a => f a
      | none => s : State).dbg.asid = s.dbg.asid := by
  cases o with
  | some a => exact hf a
  | none => rfl

theorem dbgAsid_of_done {r : Try} {t : State} (h : r = .done t) : t.dbg.asid = r.state.dbg.asid := by subst h; rfl

theorem dbgAsid_of_blocked {r : Try} {t : State} (h : r = .blocked t) : t.dbg.asid = r.state.dbg.asid := by subst h; rfl

theorem dbgAsid_of_pair {α : Type} {r : State × α} {t : State} {a : α} (h : r = (t, a)) : t.dbg.asid = r.1.dbg.asid := by
  subst h; rfl

@[simp] theorem ite_dbgAsid (c : Prop) [Decidable c] (s t : State) :
    (if c then s else t).dbg.asid = if c then s.dbg.asid else t.dbg.asid := by split <;> rfl

theorem foldl_dbgAsid {α : Type} {f : State → α → State} (hf : ∀ t a, (f t a).dbg.asid = t.dbg.asid) (l : List α) (s : State) :
    (l.foldl f s).dbg.asid = s.dbg.asid := by
  induction l generalizing s with
  | nil => rfl
  | cons a l ih => exact (ih _).trans (hf s a)

@[simp] theorem foldl_modCore_dbg {α : Type} (g : α → CoreId) (f : α → CoreSt → CoreSt) (l : List α) (s : State) :
    (l.foldl (fun t a => t.modCore (g a) (f a)) s).dbg = s.dbg := by
  induction l generalizing s with
  | nil => rfl
  | cons a l ih => exact ih _

@[simp] theorem foldl_modDie_dbg {α : Type} (g : α → Nat) (f : α → Die → Die) (l : List α) (s : State) :
    (l.foldl (fun t a => t.modDie (g a) (f a)) s).dbg = s.dbg := by
  induction l generalizing s with
  | nil => rfl
  | cons a l ih => exact ih _

/-! ### The undo log (spec/14) -/

@[simp] theorem takeSlots_dbgAsid (s : State) (asid : Nat) (used : List Nat) (n : Nat) :
    (s.takeSlots asid used n).2.dbg.asid = s.dbg.asid := by
  induction n generalizing s used with
  | zero => rfl
  | succ n ih => exact (ih ..).trans rfl

@[simp] theorem logMade_dbgAsid (s : State) (id : CoreId) (win : Option Nat) (seq : Nat) (p : Place) (n : Nat) (atom : Bool)
    (form : LogForm) (w : Option Nat) : (s.logMade id win seq p n atom form w).dbg.asid = s.dbg.asid := by
  unfold State.logMade
  split
  · simp [State.logEntry]
  · rfl

@[simp] theorem changed_dbgAsid (s : State) (by_ : Option CoreId) (id : CoreId) (p : Place) (n : Nat) :
    (s.changed by_ id p n).dbg.asid = s.dbg.asid := by simp [State.changed, State.overtake]

@[simp] theorem hostAccept_dbgAsid (s : State) (pa : Nat) (bs : List Byte) (by_ : Option CoreId) :
    (s.hostAccept pa bs by_).dbg.asid = s.dbg.asid := by simp [State.hostAccept]

@[simp] theorem mark_dbgAsid (s : State) (m : Mark) : (s.mark m).dbg.asid = s.dbg.asid := by simp [State.mark]

@[simp] theorem hostAtom_dbgAsid (s : State) (id : CoreId) (pa : Nat) (op : Rmw) :
    (s.hostAtom id pa op).dbg.asid = s.dbg.asid := by
  unfold State.hostAtom
  rw [State.modCore_dbg]
  split <;> simp [State.markStore]

@[simp] theorem releaseItem_dbgAsid (s : State) (h : HeldItem) : (s.releaseItem h).dbg.asid = s.dbg.asid := by
  cases h <;> simp [State.releaseItem, foldl_dbgAsid]

@[simp] theorem freeSlots_dbgAsid (s : State) (asid : Nat) (ks : List Nat) : (s.freeSlots asid ks).dbg.asid = s.dbg.asid := rfl

@[simp] theorem commitTo_dbgAsid (s : State) (id : CoreId) (c : BitVec 32) : (s.commitTo id c).dbg.asid = s.dbg.asid := by
  unfold State.commitTo
  dsimp only
  split
  · rfl
  · simp [State.retireCkpts, State.releaseHeld, foldl_dbgAsid]

@[simp] theorem autoCommit_dbgAsid (s : State) (id : CoreId) (need n : Nat) :
    (s.autoCommit id need n).dbg.asid = s.dbg.asid := by
  induction n generalizing s with
  | zero => rfl
  | succ n ih =>
    unfold State.autoCommit
    split
    · rfl
    · split <;> simp [ih]

/-! ### Halts and traps (spec/15, spec/21 R405) -/

@[simp] theorem unstep_dbg (s : State) (asid : Nat) : (s.unstep asid).dbg = s.dbg := rfl

@[simp] theorem dbgStop_dbgAsid (s : State) (asid why l : Nat) : (s.dbgStop asid why l).dbg.asid = s.dbg.asid := by
  unfold State.dbgStop
  split <;> simp

@[simp] theorem raiseHalt_dbgAsid (s : State) (asid cause l : Nat) : (s.raiseHalt asid cause l).dbg.asid = s.dbg.asid := by
  unfold State.raiseHalt
  dsimp only
  split
  · simp [State.diverge]
  · split <;> simp

@[simp] theorem pendTrap_dbgAsid (s : State) (id : CoreId) (t : TrapInfo) : (s.pendTrap id t).dbg.asid = s.dbg.asid := by
  simp [State.pendTrap]

@[simp] theorem touch_dbgAsid (s : State) (asid d : Nat) : (s.touch asid d).dbg.asid = s.dbg.asid := by
  simp [State.touch, foldl_dbgAsid]

@[simp] theorem room_dbgAsid (s : State) (id : CoreId) (die : Option Nat) (need : Nat) (key : LogKey) (first : Bool) :
    (s.room id die need key first).state.dbg.asid = s.dbg.asid := by
  simp [State.room, State.roomIf]

@[simp] theorem logWrite_dbgAsid (s : State) (id : CoreId) (win : Option Nat) (seq : Nat) (p : Place) (n : Nat) (atom : Bool)
    (form : LogForm) (first : Bool) : (s.logWrite id win seq p n atom form first).state.dbg.asid = s.dbg.asid := by
  unfold State.logWrite
  split
  · exact (seq_dbgAsid fun t => by simp).trans (room_dbgAsid ..)
  · rfl

/-! ### Stores, requests and their arrival -/

@[simp] theorem applyInjection_dbg (s : State) (arr own shown lo n : Nat) : (s.applyInjection arr own shown lo n).dbg = s.dbg := rfl

@[simp] theorem clearPoison_dbg (s : State) (arr own a n : Nat) : (s.clearPoison arr own a n).dbg = s.dbg := rfl

@[simp] theorem hbmWrite_dbgAsid (s : State) (slot pa : Nat) (bs : List Byte) (by_ : Option CoreId) :
    (s.hbmWrite slot pa bs by_).dbg.asid = s.dbg.asid := by simp [State.hbmWrite]

@[simp] theorem writeScratch_dbgAsid (s : State) (asid l a : Nat) (bs : List Byte) :
    (s.writeScratch asid l a bs).dbg.asid = s.dbg.asid := by simp [State.writeScratch]

@[simp] theorem writeRegSpace_dbgAsid (s : State) (id : CoreId) (a : Nat) (bs : List Byte) :
    (s.writeRegSpace id a bs).dbg.asid = s.dbg.asid := by simp [State.writeRegSpace]

@[simp] theorem hold_dbgAsid (s : State) (d : Nat) (it : HeldItem) : (s.hold d it).state.dbg.asid = s.dbg.asid := by
  simp [State.hold]

@[simp] theorem devWrite_dbgAsid (s : State) (id : CoreId) (win : Option Nat) (va : Word) (off n : Nat) (v : Word) :
    (s.devWrite id win va off n v).state.dbg.asid = s.dbg.asid := by simp [State.devWrite]

@[simp] theorem hostWrite_dbgAsid (s : State) (id : CoreId) (win : Option Nat) (tr : Transfer) (p : HostPart) (whole : Nat) :
    (s.hostWrite id win tr p whole).state.dbg.asid = s.dbg.asid := by
  unfold State.hostWrite
  dsimp only
  split
  · simp
  · exact branch_dbgAsid (by simp) ((seq_dbgAsid fun t => by simp).trans (hold_dbgAsid ..))

@[simp] theorem put_dbgAsid (s : State) (id : CoreId) (win : Option Nat) (p : Place) (bs : List Byte) (va : Word) :
    (s.put id win p bs va).state.dbg.asid = s.dbg.asid := by cases p <;> simp [State.put]

@[simp] theorem perform_dbgAsid (s : State) (id : CoreId) (win : Option Nat) (seq : Nat) (p : Place) (bs : List Byte) (atom : Bool)
    (form : LogForm) (first : Bool) (va : Word) : (s.perform id win seq p bs atom form first va).state.dbg.asid = s.dbg.asid := by
  unfold State.perform
  exact (seq_dbgAsid fun t => put_dbgAsid ..).trans (logWrite_dbgAsid ..)

@[simp] theorem foundDamage_dbgAsid (s : State) (asid : Option Nat) (p : Damage) : (s.foundDamage asid p).dbg.asid = s.dbg.asid := by
  simp [State.foundDamage, State.logError, State.logErrorEvent, State.logEvent]

@[simp] theorem consume_dbgAsid (s : State) (id : CoreId) (ps : List Damage) : (s.consume id ps).1.dbg.asid = s.dbg.asid := by
  induction ps generalizing s with
  | nil => rfl
  | cons p ps ih =>
    unfold State.consume
    dsimp only
    split <;> simp [ih]

@[simp] theorem addAt_dbgAsid (s : State) (id : CoreId) (win : Option Nat) (seq : Nat) (p : Place) (n : Nat) (kind : WriteKind) (v : Nat)
    (form : LogForm) (first : Bool) : (s.addAt id win seq p n kind v form first).state.dbg.asid = s.dbg.asid := by
  unfold State.addAt
  split <;> next h => simp [dbgAsid_of_pair h]

@[simp] theorem performBuf_dbgAsid (s : State) (w : BufWrite) (first : Bool) : (s.performBuf w first).state.dbg.asid = s.dbg.asid := by
  unfold State.performBuf
  dsimp only
  split <;> simp

@[simp] theorem ack_dbg (s : State) (id : CoreId) : (s.ack id).dbg = s.dbg := rfl

@[simp] theorem lateRefusal_dbg (s : State) (w : BufWrite) (code : Nat) : (s.lateRefusal w code).dbg = s.dbg := rfl

@[simp] theorem markBuf_dbgAsid (s : State) (w : BufWrite) : (s.markBuf w).dbg.asid = s.dbg.asid := by simp [State.markBuf]

@[simp] theorem edgeOne_dbgAsid (s : State) (d i : Nat) : (s.edgeOne d i).state.dbg.asid = s.dbg.asid := by
  unfold State.edgeOne
  split
  · rfl
  · next w _ =>
    have served := onSome_dbgAsid (o := s.servedBy w.asid w.place) fun t => touch_dbgAsid s w.asid t
    dsimp only
    split
    · exact (seq_dbgAsid fun t => by simp).trans ((performBuf_dbgAsid ..).trans served)
    · exact served

@[simp] theorem edgeWhere_dbgAsid (s : State) (d : Nat) (p : BufWrite → Bool) (n : Nat) :
    (s.edgeWhere d p n).state.dbg.asid = s.dbg.asid := by
  induction n generalizing s with
  | zero => rfl
  | succ n ih =>
    unfold State.edgeWhere
    split
    · rfl
    · exact (seq_dbgAsid fun t => ih t).trans (edgeOne_dbgAsid ..)

@[simp] theorem askPlace_dbg (s : State) (asid who acc by_ : Nat) (p : Place) (n : Nat) : (s.askPlace asid who acc by_ p n).dbg = s.dbg := by
  cases p <;> rfl

@[simp] theorem mergeEntry_dbgAsid (s : State) (d : Nat) (e : Shadow) (charged : CoreId) (first : Bool) :
    (s.mergeEntry d e charged first).state.dbg.asid = s.dbg.asid := by
  unfold State.mergeEntry
  refine branch_dbgAsid (by simp) ?_
  refine (seq_dbgAsid fun t => (seq_dbgAsid fun u => ?_).trans (addAt_dbgAsid ..)).trans ?_
  · simp
  · simp

@[simp] theorem contribute_dbgAsid (s : State) (w : BufWrite) (slot pa : Nat) : (s.contribute w slot pa).state.dbg.asid = s.dbg.asid := by
  unfold State.contribute
  dsimp only
  split
  · simp
  · split
    · split
      · exact (seq_dbgAsid fun t => by simp).trans (mergeEntry_dbgAsid ..)
      · simp
    · simp

@[simp] theorem shownTo_dbgAsid (s : State) (d : Nat) (w : BufWrite) : (s.shownTo d w).dbg.asid = s.dbg.asid := by
  simp [State.shownTo, State.overtake]

@[simp] theorem outstanding_dbg (s : State) (id : CoreId) : (s.outstanding id).dbg = s.dbg := rfl

@[simp] theorem drainOne_dbgAsid (s : State) (id : CoreId) : (s.drainOne id).state.dbg.asid = s.dbg.asid := by
  unfold State.drainOne
  split
  · rfl
  · dsimp only
    split
    · simp
    · split
      · split
        · simp
        · exact (seq_dbgAsid fun t => by simp).trans (performBuf_dbgAsid ..)
      · split
        · simp
        · split
          · simp
          · split
            · simp
            · exact (seq_dbgAsid fun t => by simp).trans (contribute_dbgAsid ..)
        · simp

@[simp] theorem drainAll_dbgAsid (s : State) (id : CoreId) (n : Nat) : (s.drainAll id n).state.dbg.asid = s.dbg.asid := by
  induction n generalizing s with
  | zero => rfl
  | succ n ih =>
    unfold State.drainAll
    split
    · rfl
    · exact (seq_dbgAsid fun t => ih t).trans (drainOne_dbgAsid ..)

@[simp] theorem drainCores_dbgAsid (s : State) (ids : List CoreId) : (s.drainCores ids).dbg.asid = s.dbg.asid := by
  induction ids generalizing s with
  | nil => rfl
  | cons id ids ih => simp [State.drainCores, ih]

@[simp] theorem drainCore_dbgAsid (s : State) (id : CoreId) : (s.drainCore id).state.dbg.asid = s.dbg.asid := by
  unfold State.drainCore
  exact (seq_dbgAsid fun t => edgeWhere_dbgAsid ..).trans (drainAll_dbgAsid ..)

@[simp] theorem mergeAll_dbgAsid (s : State) (d : Nat) (charged : CoreId) (es : List Shadow) :
    (s.mergeAll d charged es).state.dbg.asid = s.dbg.asid := by
  induction es generalizing s with
  | nil => rfl
  | cons e es ih =>
    unfold State.mergeAll
    exact (seq_dbgAsid fun t => ih t).trans (mergeEntry_dbgAsid ..)

@[simp] theorem mergeOf_dbgAsid (s : State) (id : CoreId) : (s.mergeOf id).state.dbg.asid = s.dbg.asid := mergeAll_dbgAsid ..

theorem tryEach_dbgAsid {α : Type} {f : State → α → Try} (hf : ∀ t a, (f t a).state.dbg.asid = t.dbg.asid) (s : State) (l : List α) :
    (tryEach f s l).state.dbg.asid = s.dbg.asid := by
  induction l generalizing s with
  | nil => rfl
  | cons a l ih =>
    unfold tryEach
    exact (seq_dbgAsid fun t => ih t).trans (hf s a)

@[simp] theorem flushCtx_dbgAsid (s : State) (asid : Nat) : (s.flushCtx asid).dbg.asid = s.dbg.asid := by
  simp [State.flushCtx, State.mergeCtx, tryEach_dbgAsid, foldl_dbgAsid]

/-! ### Words in flight that retire (spec/15 R358) -/

@[simp] theorem makeRunnable_dbg (s : State) (asid src : Nat) (r : TaskRec) (home : Option Nat) (rels : List Rel) :
    (s.makeRunnable asid src r home rels).dbg = s.dbg := by
  unfold State.makeRunnable
  dsimp only
  split <;> rfl

@[simp] theorem increment_dbgAsid (s : State) (id : CoreId) (ctr amount : Nat) (rels : List Rel) :
    (s.increment id ctr amount rels).dbg.asid = s.dbg.asid := by
  simp [State.increment, foldl_dbgAsid]

@[simp] theorem recordInput_dbgAsid (s : State) (id : CoreId) (kind : Nat) (v : Word) (who : Nat) :
    (s.recordInput id kind v who).state.dbg.asid = s.dbg.asid := by
  unfold State.recordInput
  dsimp only
  split
  · split
    · exact (seq_dbgAsid fun t => by simp).trans (room_dbgAsid ..)
    · rfl
  · rfl

@[simp] theorem incrementRec_dbgAsid (s : State) (id : CoreId) (ctr amount : Nat) (rels : List Rel) (who : Nat) :
    (s.incrementRec id ctr amount rels who).state.dbg.asid = s.dbg.asid := by
  unfold State.incrementRec
  dsimp only
  split
  · rfl
  · split
    · split
      · split <;> simp
      · rfl
    · exact (seq_dbgAsid fun t => by simp).trans (recordInput_dbgAsid ..)

@[simp] theorem popRing_dbgAsid (s : State) (id : CoreId) (r k : Nat) (rels : List Rel) :
    (s.popRing id r k rels).state.dbg.asid = s.dbg.asid := by simp [State.popRing]

@[simp] theorem popRings_dbgAsid (s : State) (id : CoreId) (ps : List (Nat × Nat)) (rels : List Rel) :
    (s.popRings id ps rels).state.dbg.asid = s.dbg.asid := by
  induction ps generalizing s with
  | nil => rfl
  | cons p ps ih =>
    unfold State.popRings
    exact (seq_dbgAsid fun t => ih t).trans (popRing_dbgAsid ..)

@[simp] theorem pubRing_dbg (s : State) (id : CoreId) (r : Nat) : (s.pubRing id r).dbg = s.dbg := rfl

@[simp] theorem signalFlight_dbgAsid (s : State) (id : CoreId) (f : Flight) : (s.signalFlight id f).state.dbg.asid = s.dbg.asid := by
  unfold State.signalFlight
  refine (seq_dbgAsid fun t => ?_).trans ((popRings_dbgAsid ..).trans ?_)
  · dsimp only
    split
    · refine branch_dbgAsid ?_ ((incrementRec_dbgAsid ..).trans ?_) <;> split <;> rfl
    · split <;> rfl
  · exact foldl_dbgAsid (fun t r => by rw [pubRing_dbg]) ..

@[simp] theorem releaseEdges_dbgAsid (s : State) (id : CoreId) (f : Flight) : (s.releaseEdges id f).state.dbg.asid = s.dbg.asid := by
  simp [State.releaseEdges]

@[simp] theorem inputRoom_dbgAsid (s : State) (id : CoreId) (n who : Nat) : (s.inputRoom id n who).state.dbg.asid = s.dbg.asid := by
  simp [State.inputRoom]

@[simp] theorem markFlight_dbgAsid (s : State) (id : CoreId) (f : Flight) : (s.markFlight id f).dbg.asid = s.dbg.asid := by
  simp [State.markFlight, foldl_dbgAsid]

@[simp] theorem completeFlight_dbgAsid (s : State) (id : CoreId) (f : Flight) :
    (s.completeFlight id f).state.dbg.asid = s.dbg.asid := by
  unfold State.completeFlight
  refine (seq_dbgAsid fun t => (seq_dbgAsid fun u => ?_).trans (inputRoom_dbgAsid ..)).trans (releaseEdges_dbgAsid ..)
  split
  · rfl
  · next h => simp [dbgAsid_of_done h]

@[simp] theorem settleRec_dbg (s : State) (id : CoreId) (f : Flight) : (s.settleRec id f).dbg = s.dbg := by
  unfold State.settleRec
  split <;> rfl

@[simp] theorem settleFlight_dbgAsid (s : State) (id : CoreId) (f : Flight) : (s.settleFlight id f).state.dbg.asid = s.dbg.asid := by
  unfold State.settleFlight
  dsimp only
  split
  · split
    · rfl
    · exact (seq_dbgAsid fun t => by simp).trans (completeFlight_dbgAsid ..)
  · split
    · simp
    · exact (seq_dbgAsid fun t => by simp).trans (completeFlight_dbgAsid ..)

@[simp] theorem scratchOn_dbgAsid (s : State) (id : CoreId) (win : Option Nat) (seq : Nat) (ws : List (Nat × List Byte)) :
    (s.scratchOn id win seq ws).1.dbg.asid = s.dbg.asid := by
  induction ws generalizing s with
  | nil => rfl
  | cons w ws ih =>
    unfold State.scratchOn
    split
    · next h => simp [dbgAsid_of_blocked h]
    · next h => simp [ih, dbgAsid_of_done h]

@[simp] theorem retireFlight_dbgAsid (s : State) (id : CoreId) (f : Flight) : (s.retireFlight id f).state.dbg.asid = s.dbg.asid := by
  simp [State.retireFlight]

@[simp] theorem completeHeld_dbgAsid (s : State) (hs : List Held) : (s.completeHeld hs).dbg.asid = s.dbg.asid := by
  induction hs generalizing s with
  | nil => rfl
  | cons h hs ih =>
    unfold State.completeHeld
    dsimp only
    split
    · rfl
    · split
      · next h => simp [dbgAsid_of_blocked h]
      · next h => simp [ih, dbgAsid_of_done h]

@[simp] theorem resumeCtx_dbgAsid (s : State) (asid : Nat) : (s.resumeCtx asid).dbg.asid = s.dbg.asid := by
  simp [State.resumeCtx]

/-! ### The end of a context (spec/15 R361) -/

@[simp] theorem feed_dbgAsid (s : State) (asid n : Nat) : (s.feed asid n).dbg.asid = s.dbg.asid := by
  induction n generalizing s with
  | zero => rfl
  | succ n ih => simp [State.feed, ih]

@[simp] theorem feedAll_dbgAsid (s : State) : s.feedAll.dbg.asid = s.dbg.asid := by simp [State.feedAll, foldl_dbgAsid]

@[simp] theorem foundIn_dbgAsid (s : State) (asid : Option Nat) (ps : List Damage) : (s.foundIn asid ps).1.dbg.asid = s.dbg.asid := by
  induction ps generalizing s with
  | nil => rfl
  | cons p ps ih =>
    unfold State.foundIn
    split <;> simp [ih]

@[simp] theorem dmaMet_dbgAsid (s : State) (asid : Option Nat) (pa n : Nat) : (s.dmaMet asid pa n).dbg.asid = s.dbg.asid := by
  simp [State.dmaMet, foldl_dbgAsid]

@[simp] theorem putDone_dbgAsid (s : State) (par : LaunchPar) : (s.putDone par).dbg.asid = s.dbg.asid := by
  unfold State.putDone
  dsimp only
  split
  · rfl
  · split
    · simp
    · split <;> simp

@[simp] theorem putStatus_dbgAsid (s : State) (i v : Nat) : (s.putStatus i v).dbg.asid = s.dbg.asid := by simp [State.putStatus]

@[simp] theorem arriveAll_dbgAsid (s : State) (asid : Nat) : (s.arriveAll asid).dbg.asid = s.dbg.asid := by
  refine foldl_dbgAsid (fun t a => ?_) ..
  cases a <;> simp [State.arrive]

@[simp] theorem trace_dbgAsid (s : State) (kind : Nat) (id : CoreId) (p1 p2 : Word) :
    (s.trace kind id p1 p2).dbg.asid = s.dbg.asid := by
  unfold State.trace State.traceAt
  dsimp only
  split
  · rfl
  · split
    · rfl
    · split
      · rfl
      · split
        · split
          · simp
          · rfl
        · rfl
        · rfl
        · rfl

@[simp] theorem stopAll_dbgAsid (s : State) (asid : Nat) : (s.stopAll asid).dbg.asid = s.dbg.asid := by
  unfold State.stopAll
  dsimp only
  split
  · rfl
  · simp [foldl_dbgAsid]

@[simp] theorem enter_dbgAsid (s : State) (asid : Nat) : (s.enter asid).dbg.asid = s.dbg.asid := by
  unfold State.enter
  dsimp only
  split <;> simp

@[simp] theorem switchIn_dbgAsid (s : State) (n : Nat) : (s.switchIn n).dbg.asid = s.dbg.asid := by
  induction n generalizing s with
  | zero => rfl
  | succ n ih =>
    unfold State.switchIn
    split <;> simp [ih]

@[simp] theorem freeCtx_dbgAsid (s : State) (asid status : Nat) : (s.freeCtx asid status).dbg.asid = s.dbg.asid := by
  simp [State.freeCtx, State.finish, State.dropDamage]

/-! ### Copy words that move their pieces (spec/04) -/

/-- The state that an engine access leaves. -/
def Acc.state : Acc → State
  | .ok s _ => s
  | .wait s => s
  | .refused s _ _ => s

@[simp] theorem Acc.state_ok (s : State) (bs : List Byte) : (Acc.ok s bs).state = s := rfl
@[simp] theorem Acc.state_wait (s : State) : (Acc.wait s).state = s := rfl
@[simp] theorem Acc.state_refused (s : State) (code : Nat) (a : Word) : (Acc.refused s code a).state = s := rfl

theorem accBranch_dbgAsid {c : Prop} [Decidable c] {r q : Acc} {a : Nat} (hr : r.state.dbg.asid = a) (hq : q.state.dbg.asid = a) :
    (if c then r else q).state.dbg.asid = a := by split <;> assumption

/-- One access after another: the second starts from what the first has left. -/
theorem accSeq_dbgAsid {r : Acc} {k : State → List Byte → Acc} (hk : ∀ t bs, (k t bs).state.dbg.asid = t.dbg.asid) :
    (match r with
      | .ok t bs => k t bs
      | q => q : Acc).state.dbg.asid = r.state.dbg.asid := by
  cases r with
  | ok t bs => exact hk t bs
  | wait t => rfl
  | refused t code a => rfl

/-- The same where waiting and refusal are named. -/
theorem accThen_dbgAsid {r : Acc} {k : State → List Byte → Acc} (hk : ∀ t bs, (k t bs).state.dbg.asid = t.dbg.asid) :
    (match r with
      | .wait t => .wait t
      | .refused t c a => .refused t c a
      | .ok t bs => k t bs : Acc).state.dbg.asid = r.state.dbg.asid := by
  cases r with
  | ok t bs => exact hk t bs
  | wait t => rfl
  | refused t code a => rfl

/-- An access after an attempt that may have to wait. -/
theorem tryAcc_dbgAsid {r : Try} {k : State → Acc} (hk : ∀ t, (k t).state.dbg.asid = t.dbg.asid) :
    (match r with
      | .blocked t => .wait t
      | .done t => k t : Acc).state.dbg.asid = r.state.dbg.asid := by
  cases r with
  | done t => exact hk t
  | blocked t => rfl

theorem dbgAsid_of_ok {r : Acc} {t : State} {bs : List Byte} (h : r = .ok t bs) : t.dbg.asid = r.state.dbg.asid := by subst h; rfl

@[simp] theorem modFlight_dbg (s : State) (id : CoreId) (uid : Nat) (f : Flight → Flight) : (s.modFlight id uid f).dbg = s.dbg := rfl

@[simp] theorem keysAt_dbg (s : State) (was : List KeyWas) (slot pa : Nat) : (s.keysAt was slot pa).dbg = s.dbg := by
  unfold State.keysAt
  split <;> rfl

@[simp] theorem markRun_dbgAsid (s : State) (id : CoreId) (o : WriteOf) (p : Place) (n : Nat) :
    (s.markRun id o p n).dbg.asid = s.dbg.asid := by
  unfold State.markRun
  split <;> simp

@[simp] theorem noteStale_dbgAsid (s : State) (id : CoreId) (before : List Stale) (olds : List (Bool × Nat × List Byte)) (atom : Bool) :
    (s.noteStale id before olds atom).dbg.asid = s.dbg.asid := by simp [State.noteStale]

@[simp] theorem askCopy_dbg (s : State) (id : CoreId) (eng : Nat) (c : CopyAddr) (n : Nat) : (s.askCopy id eng c n).dbg = s.dbg := by
  unfold State.askCopy
  split
  · rfl
  · split <;> simp

@[simp] theorem engineWatch_dbgAsid (s : State) (id : CoreId) (ts : Touches) : (s.engineWatch id ts).dbg.asid = s.dbg.asid := by
  simp [State.engineWatch]

/-- What a load of a device register can do: nothing, or note in `err` that the inspection was refused (spec/21 R407). -/
theorem busRead_cases {P : Word × State → Prop} (s : State) (off : Nat) (same : ∀ w, P (w, s))
    (noted : ∀ w, P (w, { s.bump with dbg := { s.dbg with err := true } })) : P (s.busRead off) := by
  have pick : ∀ {c : Prop} [Decidable c] {a b : Word × State}, P a → P b → P (if c then a else b) := by
    intro c _ a b ha hb
    split <;> assumption
  unfold State.busRead
  refine pick ?launch (pick ?translation (pick ?debug (pick ?package (pick ?keys (pick ?policy (pick ?ports (pick ?mgmt (same _))))))))
  case debug =>
    dsimp only
    split
    case h_12 => exact pick (same _) (noted _)
    case h_18 => exact pick (same _) (same _)
    all_goals exact same _
  case policy => exact pick (same _) (pick (same _) (same _))
  case ports =>
    refine pick ?_ (same _)
    dsimp only
    split <;> exact same _
  case mgmt =>
    dsimp only
    split
    case h_15 => split <;> exact same _
    all_goals exact same _
  all_goals
    dsimp only
    split <;> exact same _

@[simp] theorem busRead_dbgAsid (s : State) (off : Nat) : (s.busRead off).2.dbg.asid = s.dbg.asid :=
  busRead_cases (P := fun r => r.2.dbg.asid = s.dbg.asid) s off (fun _ => rfl) (fun _ => rfl)

@[simp] theorem busBytes_dbgAsid (s : State) (off n : Nat) : (s.busBytes off n).1.dbg.asid = s.dbg.asid := by
  induction n generalizing s off with
  | zero => rfl
  | succ n ih => simp [State.busBytes, ih]

@[simp] theorem engTouch_dbgAsid (s : State) (id : CoreId) (p : Place) (n : Nat) : (s.engTouch id p n).state.dbg.asid = s.dbg.asid := by
  unfold State.engTouch
  have served := onSome_dbgAsid (o := s.servedBy id.asid p) fun d => touch_dbgAsid s id.asid d
  refine branch_dbgAsid ?_ (branch_dbgAsid served ((edgeWhere_dbgAsid ..).trans served))
  simp [State.want]

@[simp] theorem engWalk_dbgAsid (s : State) (id : CoreId) (rt : Bool) (c : CopyAddr) : (s.engWalk id rt c).1.dbg.asid = s.dbg.asid := by
  unfold State.engWalk State.walkMet
  split
  · split
    · rfl
    · simp
  · rfl

@[simp] theorem engReadAt_dbgAsid (s : State) (id : CoreId) (p : Place) (n : Nat) (shown : Word) (was : List KeyWas) :
    (s.engReadAt id p n shown was).state.dbg.asid = s.dbg.asid := by
  unfold State.engReadAt
  refine (tryAcc_dbgAsid fun t => ?_).trans (engTouch_dbgAsid ..)
  refine accBranch_dbgAsid rfl (accBranch_dbgAsid (by simp) ?_)
  split <;> simp

@[simp] theorem engRead_one_dbgAsid (s : State) (id : CoreId) (rt : Bool) (was : List KeyWas) (c : CopyAddr) (n : Nat) :
    (State.engRead.one id rt was s c n).state.dbg.asid = s.dbg.asid := by
  unfold State.engRead.one
  split
  · next h => simp [dbgAsid_of_pair h]
  · next h => split <;> simp [dbgAsid_of_pair h]

@[simp] theorem engRead_dbgAsid (s : State) (id : CoreId) (rt : Bool) (c : CopyAddr) (n : Nat) (was : List KeyWas) :
    (s.engRead id rt c n was).state.dbg.asid = s.dbg.asid := by
  have go : ∀ (ks : List Nat) (s : State) (c : CopyAddr) (bs : List Byte),
      (State.engRead.go id rt was s c ks bs).state.dbg.asid = s.dbg.asid := by
    intro ks
    induction ks with
    | nil => intros; rfl
    | cons k ks ih =>
      intro s c bs
      unfold State.engRead.go
      exact (accSeq_dbgAsid fun t b => ih ..).trans (engRead_one_dbgAsid ..)
  exact accBranch_dbgAsid (go ..) (engRead_one_dbgAsid ..)

@[simp] theorem devParts_dbgAsid (s : State) (id : CoreId) (win : Option Nat) (va : Word) (off : Nat) (bs : List Byte) (ks : List Nat) :
    (s.devParts id win va off bs ks).state.dbg.asid = s.dbg.asid := by
  induction ks generalizing s va off bs with
  | nil => rfl
  | cons k ks ih =>
    unfold State.devParts
    exact (seq_dbgAsid fun t => ih ..).trans (devWrite_dbgAsid ..)

@[simp] theorem hbmParts_dbgAsid (s : State) (id : CoreId) (win : Option Nat) (seq : Nat) (atom : Bool) (w : Option Nat) (slot pa : Nat)
    (bs : List Byte) (ks : List Nat) : (s.hbmParts id win seq atom w slot pa bs ks).dbg.asid = s.dbg.asid := by
  induction ks generalizing s pa bs with
  | nil => rfl
  | cons k ks ih => simp [State.hbmParts, State.logUnit, ih]

@[simp] theorem engWriteAt_dbgAsid (s : State) (id : CoreId) (o : WriteOf) (p : Place) (bs : List Byte) (shown : Word) :
    (s.engWriteAt id o p bs shown).state.dbg.asid = s.dbg.asid := by
  unfold State.engWriteAt
  refine (tryAcc_dbgAsid fun t => ?_).trans (engTouch_dbgAsid ..)
  cases p with
  | scratch l a => exact accBranch_dbgAsid rfl (accBranch_dbgAsid rfl (by simp))
  | hbm sl pa =>
    refine accBranch_dbgAsid rfl ((tryAcc_dbgAsid fun u => ?_).trans ?_)
    · simp
    · simp
  | hostBulk a => exact accBranch_dbgAsid rfl ((tryAcc_dbgAsid fun u => by simp).trans (hostWrite_dbgAsid ..))
  | hostCoh a => exact accBranch_dbgAsid rfl ((tryAcc_dbgAsid fun u => by simp).trans (hostWrite_dbgAsid ..))
  | dev off =>
    exact accBranch_dbgAsid rfl (accBranch_dbgAsid rfl ((tryAcc_dbgAsid fun u => by simp).trans (devParts_dbgAsid ..)))
  | reg a => rfl

@[simp] theorem engWrite_one_dbgAsid (s : State) (id : CoreId) (rt : Bool) (o : WriteOf) (c : CopyAddr) (bs : List Byte) :
    (State.engWrite.one id rt s o c bs).state.dbg.asid = s.dbg.asid := by
  unfold State.engWrite.one
  split
  · next h => simp [dbgAsid_of_pair h]
  · next h => split <;> simp [dbgAsid_of_pair h]

@[simp] theorem engWrite_dbgAsid (s : State) (id : CoreId) (rt : Bool) (o : WriteOf) (c : CopyAddr) (bs : List Byte) :
    (s.engWrite id rt o c bs).state.dbg.asid = s.dbg.asid := by
  have go : ∀ (ks : List Nat) (s : State) (o : WriteOf) (c : CopyAddr) (bs : List Byte),
      (State.engWrite.go id rt s o c bs ks).state.dbg.asid = s.dbg.asid := by
    intro ks
    induction ks with
    | nil => intros; rfl
    | cons k ks ih =>
      intro s o c bs
      unfold State.engWrite.go
      exact (accSeq_dbgAsid fun t b => ih ..).trans (engWrite_one_dbgAsid ..)
  exact accBranch_dbgAsid (go ..) (engWrite_one_dbgAsid ..)

@[simp] theorem fetchPiece_dbgAsid (s : State) (id : CoreId) (f : Flight) (k o m : Nat) :
    (s.fetchPiece id f k o m).1.state.dbg.asid = s.dbg.asid := by
  unfold State.fetchPiece
  dsimp only
  split
  · rfl
  · split
    · rfl
    · split
      · rfl
      · split
        · rfl
        · have read : ∀ {c : Prop} [Decidable c] {bs : List Byte} {rt : Bool} {src : CopyAddr} {n : Nat},
              (if c then .ok s bs else s.engRead id rt src n f.keyWas : Acc).state.dbg.asid = s.dbg.asid :=
            accBranch_dbgAsid rfl (engRead_dbgAsid ..)
          split
          · next h => simp [dbgAsid_of_ok h, read]
          · exact read

@[simp] theorem writePiece_dbgAsid (s : State) (id : CoreId) (f : Flight) (k : Nat) :
    (s.writePiece id f k).state.dbg.asid = s.dbg.asid := by
  unfold State.writePiece
  dsimp only
  split
  · rfl
  · refine (accThen_dbgAsid fun t bs => (accSeq_dbgAsid fun u _ => ?_).trans (engWrite_dbgAsid ..)).trans ?_
    · simp
    · exact accBranch_dbgAsid ((accSeq_dbgAsid fun t b => by simp).trans (engRead_dbgAsid ..)) rfl

@[simp] theorem logFlight_dbgAsid (s : State) (id : CoreId) (f : Flight) (es : List (Nat × Nat × Nat)) :
    (s.logFlight id f es).state.dbg.asid = s.dbg.asid := by
  induction es generalizing s with
  | nil => rfl
  | cons e es ih =>
    unfold State.logFlight
    exact (seq_dbgAsid fun t => by simp [ih]).trans (logWrite_dbgAsid ..)

@[simp] theorem copyAcc_dbgAsid (id : CoreId) (f : Flight) (r : Acc) : (State.copyAcc id f r).state.dbg.asid = r.state.dbg.asid := by
  cases r with
  | ok s bs => rfl
  | wait s => rfl
  | refused s code a =>
    simp only [State.copyAcc, State.refuseCopy]
    split <;> split <;> simp

@[simp] theorem copyStep_dbgAsid (s : State) (id : CoreId) (f : Flight) (k o m : Nat) :
    (s.copyStep id f k o m).state.dbg.asid = s.dbg.asid := by
  unfold State.copyStep
  refine (seq_dbgAsid fun t => ?_).trans (logFlight_dbgAsid ..)
  have fetched := fetchPiece_dbgAsid t id f k o m
  split
  · next u bs j h =>
    rw [h] at fetched
    split
    · exact ((copyAcc_dbgAsid ..).trans (writePiece_dbgAsid ..)).trans fetched
    · exact fetched
  · next r j _ h =>
    rw [h] at fetched
    exact (copyAcc_dbgAsid ..).trans fetched

@[simp] theorem copyAll_dbgAsid (s : State) (id : CoreId) (uid n : Nat) : (s.copyAll id uid n).dbg.asid = s.dbg.asid := by
  induction n generalizing s with
  | zero => rfl
  | succ n ih =>
    unfold State.copyAll
    split
    · rfl
    · split
      · rfl
      · split
        · next h => simp [dbgAsid_of_blocked h]
        · next h => simp [ih, dbgAsid_of_done h]

@[simp] theorem finishWords_dbgAsid (s : State) (id : CoreId) : (s.finishWords id).dbg.asid = s.dbg.asid := by
  simp [State.finishWords, foldl_dbgAsid]

/-! ### Messages, refusals and rewinds of a stopped core (spec/14 R339, spec/15 R354, R363, R364) -/

@[simp] theorem sendOne_dbg (s : State) (id : CoreId) : (s.sendOne id).dbg = s.dbg := by
  unfold State.sendOne
  split
  · rfl
  · split <;> rfl

theorem execCounterIncrement_dbgAsid {s t : State} {i : Nat} (h : execCounterIncrement i s = .next t) : t.dbg.asid = s.dbg.asid := by
  unfold execCounterIncrement at h
  split at h
  · cases h; rfl
  · split at h
    · cases h; rfl
    · split at h
      · next hr => cases h; simp [dbgAsid_of_blocked hr]
      · next hr => cases h; split <;> simp [dbgAsid_of_done hr]

@[simp] theorem landMsg_dbgAsid (s : State) (m : Msg) : (s.landMsg m).dbg.asid = s.dbg.asid := by simp [State.landMsg]

@[simp] theorem deliver_dbgAsid (s : State) (m : Msg) : (s.deliver m).state.dbg.asid = s.dbg.asid := by
  unfold State.deliver
  refine branch_dbgAsid ?waits (branch_dbgAsid ?poisoned ((seq_dbgAsid fun t => ?lands).trans ?logged))
  case waits => simp [State.want]
  case poisoned => simp
  case logged => simp
  case lands =>
    refine branch_dbgAsid ((seq_dbgAsid fun u => ?_).trans (inputRoom_dbgAsid ..)) ?_
    · split
      · rfl
      · next h => simp [dbgAsid_of_done h]
    · simp

theorem execMessageDelivery_dbgAsid {s t : State} {i : Nat} (h : execMessageDelivery i s = .next t) : t.dbg.asid = s.dbg.asid := by
  unfold execMessageDelivery at h
  split at h
  · cases h; rfl
  · split at h
    · cases h; rfl
    · split at h
      · next hr => cases h; simp [dbgAsid_of_blocked hr]
      · next hr => cases h; simp [dbgAsid_of_done hr]

/-- What an event does if it happens. -/
theorem onNext_dbgAsid {s : State} {r : Host.Outcome State Fault Refusal} (hr : ∀ t, r = .next t → t.dbg.asid = s.dbg.asid) :
    (match (generalizing := false) r with
      | .next t => t
      | _ => s : State).dbg.asid = s.dbg.asid := by
  cases r with
  | next t => exact hr t rfl
  | fault => rfl
  | refused => rfl

@[simp] theorem settleMsgs_dbgAsid (s : State) (id : CoreId) (n : Nat) : (s.settleMsgs id n).dbg.asid = s.dbg.asid := by
  induction n generalizing s with
  | zero => rfl
  | succ n ih =>
    unfold State.settleMsgs
    rw [ih]
    refine (onSome_dbgAsid fun i => onNext_dbgAsid fun t h => execCounterIncrement_dbgAsid h).trans ?_
    refine (onSome_dbgAsid fun i => onNext_dbgAsid fun t h => execMessageDelivery_dbgAsid h).trans ?_
    rw [sendOne_dbg]

@[simp] theorem takeLate_dbgAsid (s : State) (id : CoreId) : (s.takeLate id).dbg.asid = s.dbg.asid := by
  simp [State.takeLate, foldl_dbgAsid]

@[simp] theorem settleRequests_dbgAsid (s : State) (id : CoreId) : (s.settleRequests id).dbg.asid = s.dbg.asid := by
  simp [State.settleRequests]

@[simp] theorem settleCore_dbgAsid (s : State) (id : CoreId) : (s.settleCore id).dbg.asid = s.dbg.asid := by
  simp [State.settleCore, foldl_dbgAsid]

@[simp] theorem endWords_dbgAsid (s : State) (id : CoreId) (w : Nat) : (s.endWords id w).dbg.asid = s.dbg.asid := by
  simp [State.endWords, foldl_dbgAsid]

@[simp] theorem applyEntry_dbgAsid (s : State) (asid : Nat) (e : LogEntry) : (s.applyEntry asid e).dbg.asid = s.dbg.asid := by
  unfold State.applyEntry
  split
  · rfl
  · split <;> simp

@[simp] theorem splitGang_dbg (s : State) (id : CoreId) : (s.splitGang id).dbg = s.dbg := by
  unfold State.splitGang
  split
  · rfl
  · simp [State.modLease]

@[simp] theorem unitsWritten_dbgAsid (s : State) (id : CoreId) (us : List CkUnit) : (s.unitsWritten id us).dbg.asid = s.dbg.asid :=
  foldl_dbgAsid (fun t u => by simp) ..

@[simp] theorem rewindBody_dbgAsid (s : State) (id : CoreId) (w : Nat) : (s.rewindBody id w).dbg.asid = s.dbg.asid := by
  unfold State.rewindBody
  extract_lets c x d later cut queuesCut heldCut lineageCut mine undone logCut freedLog after freed written restored
  rw [trace_dbgAsid, freeSlots_dbgAsid]
  calc
    restored.dbg.asid = written.dbg.asid := rfl
    _ = freedLog.dbg.asid := by rw [unitsWritten_dbgAsid, splitGang_dbg]
    _ = undone.dbg.asid := rfl
    _ = lineageCut.dbg.asid := foldl_dbgAsid (fun t e => applyEntry_dbgAsid ..) ..

@[simp] theorem rewindCore_dbgAsid (s : State) (id : CoreId) (w : Nat) : (s.rewindCore id w).state.dbg.asid = s.dbg.asid := by
  unfold State.rewindCore
  have body := rewindBody_dbgAsid s id w
  generalize s.rewindBody id w = t at body
  refine (seq_dbgAsid fun t => (seq_dbgAsid fun u => ?_).trans ?_).trans ((mergeOf_dbgAsid ..).trans body)
  · simp [State.released]
  · simp

@[simp] theorem haltRewind_dbgAsid (s : State) (id : CoreId) (w : Nat) : (s.haltRewind id w).dbg.asid = s.dbg.asid := by
  simp [State.haltRewind]

@[simp] theorem rewindSuper_dbg (s : State) (asid w : Nat) : (s.rewindSuper asid w).dbg = s.dbg := by simp [State.rewindSuper]

@[simp] theorem pendToken_dbgAsid (s : State) (id : CoreId) (t : TrapInfo) : (s.pendToken id t).dbg.asid = s.dbg.asid := by
  simp [State.pendToken]

@[simp] theorem settleAbort_dbgAsid (s : State) (asid : Nat) : (s.settleAbort asid).dbg.asid = s.dbg.asid := by
  unfold State.settleAbort
  dsimp only
  split
  · rfl
  · split <;> simp [foldl_dbgAsid]

/-! ### RESUME and the detachment (spec/21 R402, R407) -/

@[simp] theorem dbgResume_dbgAsid (s : State) (asid : Nat) : (s.dbgResume asid).dbg.asid = s.dbg.asid := by
  unfold State.dbgResume
  dsimp only
  split
  · rfl
  · simp [foldl_dbgAsid]

theorem detach_dbgAsid (s : State) : s.detach.dbg.asid = s.dbg.asid := by
  simp [State.detach, State.recStop]

end Sys2Proof.Machine
end

section
/-! What the commands of the debug block do: attaching and detaching, STOP, RESUME, STEP and refused commands (spec/21 R402, R405 to
R407). -/

namespace Sys2Proof.Machine

/-! ### The state in which a command is given -/

theorem State.mayCommand_iff {s : State} {states : List Nat} :
    s.mayCommand states = true ↔ s.dbg.en = true ∧ s.dbg.busy = false ∧ s.dbg.state ∈ states := by
  simp [State.mayCommand, and_assoc]

theorem State.ctx_of_ctx? {s : State} {a : Nat} {x : Ctx} (h : s.ctx? a = some x) : s.ctx a = x := by simp [State.ctx, h]

/-- The context that the block serves, while it is attached. -/
theorem State.dbgCtx?_some {s : State} {x : Ctx} (h : s.dbgCtx? = some x) :
    s.dbg.en = true ∧ s.ctx? s.dbg.asid = some x := by
  unfold State.dbgCtx? at h
  split at h
  · next hen => exact ⟨hen, h⟩
  · cases h

/-! ### Attach and detach (R402) -/

/-- Attaching detaches what was attached; a context that no halt holds goes on in state 0. -/
theorem State.attach_of_running {s : State} {a : Nat} (hfree : s.attached a = false ∨ s.dbg.state = 6)
    (hrun : (s.detach.ctx a).halt = none) :
    s.attach a = { s.detach with dbg := { s.detach.dbg with
      en := true, asid := a, state := 0, busy := false, rewound := [], rec_ := false } } := by
  have hnot : ¬(s.attached a && s.dbg.state ≠ 6) = true := by
    rcases hfree with h | h <;> simp [h]
  rw [State.attach, if_neg hnot]
  simp only [hrun]

theorem State.detach_of_detached {s : State} (h : s.dbg.en = false) : s.detach = s := by simp [State.detach, h]

/-- A detachment leaves the block in state 6, still naming its context, and clears every slot of that context. -/
theorem State.detach_leaves {s : State} (h : s.dbg.en = true) :
    s.detach.dbg.en = false ∧ s.detach.dbg.state = 6 ∧ s.detach.dbg.asid = s.dbg.asid ∧
    ∀ c ∈ s.detach.cores, c.id.asid = s.dbg.asid → c.bp = Vector.replicate 8 ⟨0, 0⟩ ∧ c.wp = Vector.replicate 4 ⟨0, 0⟩ := by
  refine ⟨?_, ?_, detach_dbgAsid s, ?_⟩
  · simp [State.detach, h]
  · simp [State.detach, h]
  · intro c hc hasid
    unfold State.detach at hc
    rw [if_neg (by simp [h])] at hc
    obtain ⟨d, -, rfl⟩ := List.mem_map.mp hc
    by_cases hd : d.id.asid = s.dbg.asid
    · simp [hd]
    · simp [hd] at hasid

/-! ### STOP (R405, R406) -/

/-- STOP at the next precise point. -/
theorem execStop_precise {s : State} {x : Ctx} (hx : s.dbgCtx? = some x) (hstate : s.dbg.state = 0) (hbusy : s.dbg.busy = false)
    (harg : bit s.dbg.darg 0 = true) : execStop s =
      .next ({ s.noWin with dbg := { s.noWin.dbg with state := 1, busy := true } }.modCtx x.asid (fun x => { x with precise := true })) := by
  simp [execStop, hx, hstate, hbusy, harg]

/-- STOP now. -/
theorem execStop_now {s : State} {x : Ctx} (hx : s.dbgCtx? = some x) (hstate : s.dbg.state = 0) (hbusy : s.dbg.busy = false)
    (harg : bit s.dbg.darg 0 = false) :
    let t := (s.noWin.modCtx x.asid (fun x => { x with precise := false })).dbgStop x.asid 3 x.n
    execStop s = .next { t with dbg := { t.dbg with busy := true } } := by
  simp [execStop, hx, hstate, hbusy, harg]

/-! ### RESUME (R407) -/

theorem execResume_accepted {s : State} {x : Ctx} (hx : s.dbgCtx? = some x) (hmay : s.mayCommand [2, 3] = true) :
    execResume s = .next (s.noWin.dbgResume s.dbg.asid) := by
  simp [execResume, hx, hmay]

/-- After a stop of the debugger RESUME lifts the halt. -/
theorem State.dbgResume_stop {s : State} {asid : Nat} {h : HaltInfo} (hh : (s.ctx asid).halt = some h) (hc : h.cause = 0)
    (hn : (s.resumeCtx asid).dbg.state ≠ 6) :
    s.dbgResume asid = { s.resumeCtx asid with dbg := { (s.resumeCtx asid).dbg with state := 0 } } := by
  simp [State.dbgResume, hh, hc, hn]

/-- What the cores of a stopped context have under way has ended: its words, and the requests of the peers of the faulting core. -/
def State.Ended (t : State) (x : Ctx) (h : HaltInfo) : Prop :=
  t.settledCtx x = true ∧ ∀ id ∈ t.peers x h, (t.core id).rqout = 0

/-- After a fault with undo RESUME waits until all has ended, and then has the peers agree and go back. -/
theorem State.dbgResume_fault {s : State} {asid : Nat} {x : Ctx} {h : HaltInfo} (hx : s.ctx asid = x) (hh : x.halt = some h)
    (hc : h.cause ≠ 0) (hd : h.cause ≠ 0x26) (hu : x.par.undo ≠ 0) :
    let t := x.ids.foldl State.settleCore s
    (¬ t.Ended x h → s.dbgResume asid = { t with dbg := { t.dbg with busy := true, todo := some .resume } }) ∧
    (t.Ended x h → (t.settleAbort asid).dbg.state ≠ 6 → s.dbgResume asid =
      { t.settleAbort asid with dbg := { (t.settleAbort asid).dbg with state := 0, busy := false, todo := none } }) := by
  intro t
  have hended : (t.settledCtx x && (t.peers x h).all fun id => (t.core id).rqout == 0) = true ↔ t.Ended x h := by
    simp [State.Ended]
  have hbody : s.dbgResume asid =
      if (t.settledCtx x && (t.peers x h).all fun id => (t.core id).rqout == 0) = true then
        if (t.settleAbort asid).dbg.state = 6 then t.settleAbort asid
        else { t.settleAbort asid with dbg := { (t.settleAbort asid).dbg with state := 0, busy := false, todo := none } }
      else { t with dbg := { t.dbg with busy := true, todo := some .resume } } := by
    simp only [State.dbgResume, hx, hh, if_neg hc, decide_eq_false hd, decide_eq_false hu, Bool.or_self, Bool.false_eq_true, if_false, t]
  constructor
  · intro hne
    rw [hbody, if_neg (hended.not.mpr hne)]
  · intro he hn
    rw [hbody, if_pos (hended.mpr he), if_neg hn]

/-! ### STEP (R407) -/

/-- A change of selected cores leaves the others. -/
theorem State.core_foldl_modCore_of_notMem (f : CoreSt → CoreSt) {ids : List CoreId} {i : CoreId} (h : i ∉ ids) (s : State) :
    (ids.foldl (fun t id => t.modCore id f) s).core i = s.core i := by
  induction ids generalizing s with
  | nil => rfl
  | cons a ids ih =>
    rw [List.mem_cons, not_or] at h
    rw [List.foldl_cons, ih h.2, State.core_modCore_ne f h.1]

/-- A change of selected cores, each named once, is made in each of them. -/
theorem State.core_foldl_modCore_of_mem (f : CoreSt → CoreSt) {ids : List CoreId} (hnd : ids.Nodup) {i : CoreId} (h : i ∈ ids)
    {s : State} (hc : s.hasCore i = true) :
    (ids.foldl (fun t id => t.modCore id f) s).core i = { f (s.core i) with id := i } := by
  induction ids generalizing s with
  | nil => cases h
  | cons a ids ih =>
    obtain ⟨ha, hnd⟩ := List.nodup_cons.mp hnd
    rw [List.foldl_cons]
    rcases List.mem_cons.mp h with rfl | h
    · rw [State.core_foldl_modCore_of_notMem f ha, State.core_modCore_self f hc]
    · have hne : i ≠ a := fun e => ha (e ▸ h)
      rw [ih hnd h (by simpa using hc), State.core_modCore_ne f hne]

/-- A core that runs one instruction. -/
def CoreSt.stepOne (c : CoreSt) : CoreSt := { c with stepping := true, replay := none }

theorem execStep_accepted {s : State} {x : Ctx} (hx : s.dbgCtx? = some x) (hmay : s.mayCommand [2, 3] = true) (hsel : s.stepSel ≠ []) :
    ∃ t, execStep s = .next t ∧ t.dbg.state = 4 ∧ t.dbg.busy = true ∧
      (∀ id ∈ s.stepSel, s.hasCore id = true → (t.core id).stepping = true ∧ (t.core id).pc = (s.core id).pc) ∧
      (∀ id, id ∉ s.stepSel → t.core id = s.core id) := by
  have hrun : execStep s = .next (let t := s.stepSel.foldl (fun t id => t.modCore id CoreSt.stepOne) s.noWin
      { t with dbg := { t.dbg with prev := t.dbg.state, state := 4, busy := true } }) := by
    simp only [execStep, hmay, hx, List.isEmpty_eq_false_iff.mpr hsel, Option.isNone_some, Bool.not_true, Bool.or_self,
      Bool.false_eq_true, if_false]
    rfl
  refine ⟨_, hrun, rfl, rfl, fun id hid hc => ?_, fun id hid => ?_⟩
  · have hcore := State.core_foldl_modCore_of_mem CoreSt.stepOne (List.nodup_dedup _) hid (s := s.noWin) hc
    exact ⟨(congrArg CoreSt.stepping hcore :), (congrArg CoreSt.pc hcore :)⟩
  · exact State.core_foldl_modCore_of_notMem CoreSt.stepOne hid s.noWin

/-! ### Refused commands (R402) -/

theorem execResume_refused {s : State} (h : s.mayCommand [2, 3] = false) : execResume s = .next s.dbgErr := by simp [execResume, h]

theorem execStep_refused {s : State} (h : s.mayCommand [2, 3] = false) : execStep s = .next s.dbgErr := by simp [execStep, h]

theorem execDebugCommandRefused_err {s : State} {v : Word}
    (h : v = 0 ∨ 0xA < v.toNat ∨ s.dbg.en = false ∨ s.dbg.busy = true) : execDebugCommandRefused v s = .next s.dbgErr := by
  have hbad : (dcmdBad v || !s.dbg.en || s.dbg.busy) = true := by
    rcases h with h | h | h | h <;> simp [dcmdBad, h]
  simp [execDebugCommandRefused, hbad]

/-- Settles O46: a case per command and per state that allows or refuses it. -/
theorem debugControl : Obligations.DebugControl := by
  intro s a x v
  refine ⟨?attach, ?detach, ?detached, ?other, ?stop, ?halted, ?refused, ?noCommand⟩
  case attach => exact fun hfree hrun => congrArg Host.Outcome.next (State.attach_of_running hfree hrun)
  case detach => exact fun hen => ⟨s.detach, rfl, State.detach_leaves hen⟩
  case detached => exact fun hen => congrArg Host.Outcome.next (State.detach_of_detached hen)
  case other =>
    intro hv
    refine ⟨s.detach, rfl, ?_⟩
    show execRegisterWrite 0x20000 v s = _
    simp [execRegisterWrite, hv]
  case stop =>
    exact fun hx hstate hbusy => ⟨execStop_precise hx hstate hbusy, execStop_now hx hstate hbusy⟩
  case halted =>
    intro hx hbusy hstate
    obtain ⟨hen, hctx⟩ := State.dbgCtx?_some hx
    have hmay : s.mayCommand [2, 3] = true := State.mayCommand_iff.mpr ⟨hen, hbusy, by simpa using hstate⟩
    have hresume : exec .resume s = .next (s.noWin.dbgResume s.dbg.asid) := execResume_accepted hx hmay
    have hx' : s.noWin.ctx s.dbg.asid = x := State.ctx_of_ctx? hctx
    refine ⟨fun h hh hc hn => ?_, fun h hh hc hd hu => ?_, execStep_accepted hx hmay⟩
    · rw [hresume, State.dbgResume_stop hh hc hn]
    · obtain ⟨hwait, hdone⟩ := State.dbgResume_fault hx' (hx' ▸ hh) hc hd hu
      exact ⟨fun hne => by rw [hresume, hwait hne], fun he hn => by rw [hresume, hdone he hn]⟩
  case refused =>
    intro h
    have hmay : s.mayCommand [2, 3] = false := by
      rw [Bool.eq_false_iff, ne_eq, State.mayCommand_iff]
      rintro ⟨hen, hbusy, hstate⟩
      simp_all
    exact ⟨execResume_refused hmay, execStep_refused hmay⟩
  case noCommand => exact execDebugCommandRefused_err

end Sys2Proof.Machine
end

section
/-! Decoding what the encoder writes (spec/02 R26 to R48): the fields of a format, the codes of its operands, the major opcodes, and
the classes of command words. -/

namespace Sys2Proof

/-! ### Fields of joined bits

Widths are left out of the index of these rewrites: a format of spec/02 states its width as 32 or 256, not as a sum. -/

@[simp] theorem extractLsb'_append_high {v w start len : Nat} (hi : BitVec v) (lo : BitVec w) (h : w ≤ start) :
    BitVec.extractLsb' start len (no_index (hi ++ lo)) = BitVec.extractLsb' (start - w) len hi :=
  BitVec.extractLsb'_append_eq_of_le h

@[simp] theorem extractLsb'_append_low {v w start len : Nat} (hi : BitVec v) (lo : BitVec w) (h : start + len ≤ w) :
    BitVec.extractLsb' start len (no_index (hi ++ lo)) = BitVec.extractLsb' start len lo :=
  BitVec.extractLsb'_append_eq_of_add_le h

/-- Two fields that lie side by side are one. -/
theorem extractLsb'_join {n a b m l : Nat} (x : BitVec n) (h : b = a + l) :
    no_index (BitVec.extractLsb' b m x ++ BitVec.extractLsb' a l x) = BitVec.extractLsb' a (m + l) x :=
  BitVec.extractLsb'_append_extractLsb'_eq_extractLsb' h

@[simp] theorem bool1_beq_one (b : Bool) : (bool1 b == 1#1) = b := by cases b <;> rfl

/-! ### Codes of operands -/

@[simp] theorem withScope_code (sc : Scope) (k : Scope → DRes) : withScope sc.code k = k sc := by cases sc <;> rfl

@[simp] theorem sizeOf2_code (sz : Size) : sizeOf2 sz.code = sz := by cases sz <;> rfl

@[simp] theorem queueOf_code (q : Queue) : queueOf q.code = q := by cases q <;> rfl

@[simp] theorem rndOf_code (rm : Rnd) : rndOf rm.code = some rm := by cases rm <;> rfl

@[simp] theorem ffmtOf_code (f : FFmt) : ffmtOf f.code = some f := by cases f <;> rfl

@[simp] theorem ifmtOf_code (t : IFmt) : ifmtOf t.code = some t := by cases t <;> rfl

/-! ### Major opcodes (R26, R27) -/

/-- What a major opcode's decoder needs to be reached: the opcode field alone. -/
theorem fld_low (w : Parcel) : fld w 0 2 = (fld w 0 7).extractLsb' 0 2 ∧ fld w 2 3 = (fld w 0 7).extractLsb' 2 3 := by
  constructor <;> exact (BitVec.extractLsb'_extractLsb'_of_le (by decide)).symm

section
variable {w : Parcel}

theorem decodeParcel_load (h : fld w 0 7 = 0x03#7 ∨ fld w 0 7 = 0x07#7) : decodeParcel w = dLoad w (fld w 0 7) := by
  rcases h with h | h <;> simp [decodeParcel, fld_low, h]

theorem decodeParcel_store (h : fld w 0 7 = 0x23#7 ∨ fld w 0 7 = 0x27#7) : decodeParcel w = dStore w (fld w 0 7) := by
  rcases h with h | h <;> simp [decodeParcel, fld_low, h]

theorem decodeParcel_misc (h : fld w 0 7 = 0x0F#7) : decodeParcel w = dMisc w := by simp [decodeParcel, fld_low, h]

theorem decodeParcel_int (h : fld w 0 7 = 0x13#7 ∨ fld w 0 7 = 0x1B#7 ∨ fld w 0 7 = 0x33#7 ∨ fld w 0 7 = 0x3B#7) :
    decodeParcel w = dInt w (fld w 0 7) := by
  rcases h with h | h | h | h <;> simp [decodeParcel, fld_low, h]

theorem decodeParcel_lui (h : fld w 0 7 = 0x37#7) : decodeParcel w = .ok (.integerOp (.lui (fld w 7 5) (fld w 12 20))) := by
  simp [decodeParcel, fld_low, h]

theorem decodeParcel_auipc (h : fld w 0 7 = 0x17#7) : decodeParcel w = .ok (.integerOp (.auipc (fld w 7 5) (fld w 12 20))) := by
  simp [decodeParcel, fld_low, h]

theorem decodeParcel_amo (h : fld w 0 7 = 0x2F#7) : decodeParcel w = dAmo w := by simp [decodeParcel, fld_low, h]

theorem decodeParcel_fma (o : FmaOp) (h : fld w 0 7 = o.code) : decodeParcel w = dFma w o.code := by
  cases o <;> simp [decodeParcel, fld_low, h, FmaOp.code]

theorem decodeParcel_fp (h : fld w 0 7 = 0x53#7) : decodeParcel w = dFp w := by simp [decodeParcel, fld_low, h]

theorem decodeParcel_br (o : BrOp) (h : fld w 0 7 = 0x63#7) (hf : fld w 12 3 = o.code) :
    decodeParcel w = .ok (.branchJump (.br o (fld w 15 5) (fld w 20 5) (bImm w))) := by
  cases o <;> simp [decodeParcel, fld_low, h, hf, BrOp.code]

theorem decodeParcel_jalr (h : fld w 0 7 = 0x67#7) (hf : fld w 12 3 = 0#3) :
    decodeParcel w = .ok (.branchJump (.jalr (fld w 7 5) (fld w 15 5) (fld w 20 12))) := by
  simp [decodeParcel, fld_low, h, hf]

theorem decodeParcel_jal (h : fld w 0 7 = 0x6F#7) : decodeParcel w = .ok (.branchJump (.jal (fld w 7 5) (jImm w))) := by
  simp [decodeParcel, fld_low, h]

theorem decodeParcel_system (h : fld w 0 7 = 0x73#7) : decodeParcel w = dSystem w := by simp [decodeParcel, fld_low, h]

theorem decodeParcel_custom0 (h : fld w 0 7 = 0x0B#7) : decodeParcel w = dCustom0 w := by simp [decodeParcel, fld_low, h]

theorem decodeParcel_custom1 (h : fld w 0 7 = 0x2B#7) : decodeParcel w = dCustom1 w := by simp [decodeParcel, fld_low, h]

theorem decodeParcel_custom2 (h : fld w 0 7 = 0x5B#7) : decodeParcel w = dCustom2 w := by simp [decodeParcel, fld_low, h]

theorem decodeParcel_custom3 (h : fld w 0 7 = 0x7B#7) : decodeParcel w = dCustom3 w := by simp [decodeParcel, fld_low, h]

end

/-! ### Immediates -/

@[simp] theorem sImm_sType (imm : BitVec 12) (rs2 rs1 : Reg) (f3 : BitVec 3) (op : BitVec 7) :
    sImm (sType imm rs2 rs1 f3 op) = imm := by
  simp [sImm, sType, rType, fld, extractLsb'_join]

theorem bImm_bType (imm : BitVec 12) (mid : BitVec 10) (f3 : BitVec 3) (op : BitVec 7) : bImm (bType imm mid f3 op) = imm := by
  simp [bImm, bType, fld, extractLsb'_join]

theorem jImm_jType (imm : BitVec 20) (rd : Reg) : jImm (jType imm rd) = imm := by
  simp [jImm, jType, fld, extractLsb'_join]

/-! ### Operations of a class, by their codes -/

theorem find?_load (o : LoadOp) :
    [LoadOp.lb, .lh, .lw, .ld, .lbu, .lhu, .lwu, .flh, .flw, .fld].find? (fun p => p.codes == o.codes) = some o := by
  cases o <;> rfl

theorem find?_store (o : StoreOp) :
    [StoreOp.sb, .sh, .sw, .sd, .fsh, .fsw, .fsd].find? (fun p => p.codes == o.codes) = some o := by
  cases o <;> rfl

theorem find?_amo (o : AmoOp) :
    [AmoOp.swap, .add, .xor, .and, .or, .min, .max, .minu, .maxu].find? (fun p => p.code == o.code) = some o := by
  cases o <;> rfl

/-- LR and SC have codes of their own. -/
theorem AmoOp.code_ne (o : AmoOp) : o.code ≠ 2#5 ∧ o.code ≠ 3#5 := by cases o <;> decide

theorem find?_samo (o : SamoOp) : allSamo.find? (fun p => p.code == o.code) = some o := by cases o <;> rfl

theorem find?_csr (o : CsrOp) : [CsrOp.rw, .rs, .rc].find? (fun p => p.code == o.code) = some o := by cases o <;> rfl

theorem CsrOp.code_ne_zero (o : CsrOp) : o.code ≠ 0#2 := by cases o <;> decide

theorem find?_un (o : UnOp) : allUn.find? (fun p => p.codes == o.codes) = some o := by cases o <;> rfl

theorem find?_rr (o : RROp) : allRR.find? (fun p => p.codes == o.codes) = some o := by cases o <;> rfl

theorem find?_imm (o : ImmOp) : allImm.find? (fun p => p.codes == o.codes) = some o := by cases o <;> rfl

theorem find?_fma (o : FmaOp) : [FmaOp.madd, .msub, .nmsub, .nmadd].find? (fun p => p.code == o.code) = some o := by
  cases o <;> rfl

theorem find?_arith (o : FArith) : [FArith.add, .sub, .mul, .div].find? (fun p => p.code == o.code) = some o := by
  cases o <;> rfl

theorem find?_sgn (o : FSgn) : [FSgn.sgnj, .sgnjn, .sgnjx].find? (fun p => p.code == o.code) = some o := by cases o <;> rfl

theorem find?_cmp (o : FCmp) : [FCmp.le, .lt, .eq].find? (fun p => p.code == o.code) = some o := by cases o <;> rfl

/-- A register-register operation is no unary one, whatever its second operand. -/
theorem find?_un_rr (o : RROp) (rs2 : Reg) : allUn.find? (fun p => p.codes == (o.codes.1 ++ rs2, o.codes.2)) = none := by
  have apart : ∀ p ∈ allUn, ∀ o ∈ allRR, (p.codes.1.extractLsb' 5 7, p.codes.2) ≠ o.codes := by decide
  rw [List.find?_eq_none]
  intro p hp hcode
  have hcode : p.codes = (o.codes.1 ++ rs2, o.codes.2) := by simpa using hcode
  exact apart p hp o (by cases o <;> decide) (by simp [hcode])

/-- An operation with an immediate is neither unary nor register-register. -/
theorem find?_un_imm (o : ImmOp) (imm : BitVec 12) : allUn.find? (fun p => p.codes == (imm, o.codes)) = none := by
  have apart : ∀ p ∈ allUn, ∀ o ∈ allImm, p.codes.2 ≠ o.codes := by decide
  rw [List.find?_eq_none]
  intro p hp hcode
  exact apart p hp o (by cases o <;> decide) (by simpa using congrArg Prod.snd (eq_of_beq hcode))

theorem find?_rr_imm (o : ImmOp) (f7 : BitVec 7) : allRR.find? (fun p => p.codes == (f7, o.codes)) = none := by
  have apart : ∀ p ∈ allRR, ∀ o ∈ allImm, p.codes.2 ≠ o.codes := by decide
  rw [List.find?_eq_none]
  intro p hp hcode
  exact apart p hp o (by cases o <;> decide) (by simpa using congrArg Prod.snd (eq_of_beq hcode))

/-- A shift is none of the three others, whatever its amount. -/
theorem find?_un_sh (o : ShOp) (sh : BitVec 6) : allUn.find? (fun p => p.codes == (o.codes.1 ++ sh, o.codes.2)) = none := by
  have apart : ∀ p ∈ allUn, ∀ o ∈ allSh, (p.codes.1.extractLsb' 6 6, p.codes.2) ≠ o.codes := by decide
  rw [List.find?_eq_none]
  intro p hp hcode
  have hcode : p.codes = (o.codes.1 ++ sh, o.codes.2) := by simpa using hcode
  exact apart p hp o (by cases o <;> decide) (by simp [hcode])

theorem find?_rr_sh (o : ShOp) (f7 : BitVec 7) : allRR.find? (fun p => p.codes == (f7, o.codes.2)) = none := by
  have apart : ∀ p ∈ allRR, ∀ o ∈ allSh, p.codes.2 ≠ o.codes.2 := by decide
  rw [List.find?_eq_none]
  intro p hp hcode
  exact apart p hp o (by cases o <;> decide) (by simpa using congrArg Prod.snd (eq_of_beq hcode))

theorem find?_imm_sh (o : ShOp) : allImm.find? (fun p => p.codes == o.codes.2) = none := by cases o <;> rfl

/-- A shift is found by its code when bit [25] is zero or its amount has 6 bits. -/
theorem find?_sh (o : ShOp) {b : Bool} (h : o.short = true → b = true) :
    allSh.find? (fun p => p.codes == o.codes && (!p.short || b)) = some o := by
  cases b with
  | true => cases o <;> rfl
  | false =>
    have hlong : o.short = false := by simpa using h
    revert hlong
    cases o <;> decide

/-! ### Classes of parcels -/

theorem decode_load (o : LoadOp) (rd rs1 : Reg) (imm : BitVec 12) :
    decodeParcel (iType imm rs1 o.codes.1 rd o.codes.2) = .ok (.load o rd rs1 imm) := by
  have hop : fld (iType imm rs1 o.codes.1 rd o.codes.2) 0 7 = o.codes.2 := by simp [iType, fld]
  rw [decodeParcel_load (by rw [hop]; cases o <;> decide), hop, dLoad]
  simp [iType, fld, find?_load]

theorem decode_store (o : StoreOp) (rs1 rs2 : Reg) (imm : BitVec 12) :
    decodeParcel (sType imm rs2 rs1 o.codes.1 o.codes.2) = .ok (.store o rs1 rs2 imm) := by
  have hop : fld (sType imm rs2 rs1 o.codes.1 o.codes.2) 0 7 = o.codes.2 := by simp [sType, rType, fld]
  rw [decodeParcel_store (by rw [hop]; cases o <;> decide), hop, dStore, sImm_sType]
  simp [sType, rType, fld, find?_store]

theorem decode_rr (o : RROp) (rd rs1 rs2 : Reg) : decodeParcel (encodeInt (.rr o rd rs1 rs2)) = .ok (.integerOp (.rr o rd rs1 rs2)) := by
  unfold encodeInt
  have hop : fld (rType o.codes.1 rs2 rs1 o.codes.2.1 rd o.codes.2.2) 0 7 = o.codes.2.2 := by simp [rType, fld]
  have h12 : fld (rType o.codes.1 rs2 rs1 o.codes.2.1 rd o.codes.2.2) 20 12 = o.codes.1 ++ rs2 := by
    rw [show ∀ w : Parcel, fld w 20 12 = fld w 25 7 ++ fld w 20 5 from fun w => (extractLsb'_join (a := 20) (l := 5) w rfl).symm]
    simp [rType, fld]
  rw [decodeParcel_int (by rw [hop]; cases o <;> decide), hop, dInt, h12]
  simp [rType, fld, find?_un_rr, find?_rr]

theorem decode_shift (o : ShOp) (rd rs1 : Reg) (sh : BitVec 6) (h : o.short = true → sh.ult 32#6 = true) :
    decodeParcel (encodeInt (.shift o rd rs1 sh)) = .ok (.integerOp (.shift o rd rs1 sh)) := by
  unfold encodeInt
  have hop : fld (iType (o.codes.1 ++ sh) rs1 o.codes.2.1 rd o.codes.2.2) 0 7 = o.codes.2.2 := by simp [iType, fld]
  rw [decodeParcel_int (by rw [hop]; cases o <;> decide), hop, dInt]
  simp only [iType, fld]
  have top : ∀ sh : BitVec 6, sh.ult 32#6 = true → (sh.extractLsb' 5 1 == 0#1) = true := by decide
  simp [find?_un_sh, find?_rr_sh, find?_imm_sh, find?_sh o fun hs => top sh (h hs)]

theorem decode_imm (o : ImmOp) (rd rs1 : Reg) (imm : BitVec 12) :
    decodeParcel (encodeInt (.imm o rd rs1 imm)) = .ok (.integerOp (.imm o rd rs1 imm)) := by
  unfold encodeInt
  have hop : fld (iType imm rs1 o.codes.1 rd o.codes.2) 0 7 = o.codes.2 := by simp [iType, fld]
  rw [decodeParcel_int (by rw [hop]; cases o <;> decide), hop, dInt]
  simp [iType, fld, find?_un_imm, find?_rr_imm, find?_imm]

theorem decode_un (o : UnOp) (rd rs1 : Reg) :
    decodeParcel (encodeInt (.un o rd rs1)) = .ok (.integerOp (.un o rd rs1)) := by
  unfold encodeInt
  have hop : fld (iType o.codes.1 rs1 o.codes.2.1 rd o.codes.2.2) 0 7 = o.codes.2.2 := by simp [iType, fld]
  rw [decodeParcel_int (by rw [hop]; cases o <;> decide), hop, dInt]
  simp [iType, fld, find?_un]

theorem decode_float (o : FloatOp) (h : wellFormed (.floatOp o) = true) : decodeParcel (encodeFloat o) = .ok (.floatOp o) := by
  cases o with
  | fma op fmt rd rs1 rs2 rs3 rm =>
    rw [encodeFloat, decodeParcel_fma op (by simp [rType, fld]), dFma]
    simp [rType, fld, find?_fma]
  | arith op fmt rd rs1 rs2 rm =>
    rw [encodeFloat, decodeParcel_fp (by simp [rType, fld]), dFp]
    simp [rType, fld, find?_arith]
  | sqrt fmt rd rs1 rm =>
    rw [encodeFloat, decodeParcel_fp (by simp [rType, fld]), dFp]
    simp [rType, fld, FArith.code]
  | sgnj op fmt rd rs1 rs2 =>
    rw [encodeFloat, decodeParcel_fp (by simp [rType, fld]), dFp]
    simp [rType, fld, FArith.code, find?_sgn]
  | minmax mx fmt rd rs1 rs2 =>
    rw [encodeFloat, decodeParcel_fp (by simp [rType, fld]), dFp]
    cases mx <;> simp [rType, fld, FArith.code, bool1]
  | cmp op fmt rd rs1 rs2 =>
    rw [encodeFloat, decodeParcel_fp (by simp [rType, fld]), dFp]
    simp [rType, fld, FArith.code, find?_cmp]
  | cvt dst src rd rs1 rm =>
    have hne : src ≠ dst := fun e => by simp [wellFormed, e] at h
    rw [encodeFloat, decodeParcel_fp (by simp [rType, fld]), dFp]
    simp [rType, fld, FArith.code, hne]
  | toInt ity fmt rd rs1 rm =>
    rw [encodeFloat, decodeParcel_fp (by simp [rType, fld]), dFp]
    simp [rType, fld, FArith.code]
  | ofInt ity fmt rd rs1 rm =>
    rw [encodeFloat, decodeParcel_fp (by simp [rType, fld]), dFp]
    simp [rType, fld, FArith.code]
  | mvX fmt rd rs1 =>
    rw [encodeFloat, decodeParcel_fp (by simp [rType, fld]), dFp]
    simp [rType, fld, FArith.code]
  | mvF fmt rd rs1 =>
    rw [encodeFloat, decodeParcel_fp (by simp [rType, fld]), dFp]
    simp [rType, fld, FArith.code]
  | cls fmt rd rs1 =>
    rw [encodeFloat, decodeParcel_fp (by simp [rType, fld]), dFp]
    simp [rType, fld, FArith.code]

theorem decode_lui (rd : Reg) (imm : BitVec 20) : decodeParcel (encodeInt (.lui rd imm)) = .ok (.integerOp (.lui rd imm)) := by
  rw [encodeInt, decodeParcel_lui (by simp [fld])]
  simp [fld]

theorem decode_auipc (rd : Reg) (imm : BitVec 20) : decodeParcel (encodeInt (.auipc rd imm)) = .ok (.integerOp (.auipc rd imm)) := by
  rw [encodeInt, decodeParcel_auipc (by simp [fld])]
  simp [fld]

theorem decode_int (o : IntegerOp) (h : wellFormed (.integerOp o) = true) : decodeParcel (encodeInt o) = .ok (.integerOp o) := by
  cases o with
  | rr op rd rs1 rs2 => exact decode_rr op rd rs1 rs2
  | un op rd rs1 => exact decode_un op rd rs1
  | imm op rd rs1 imm => exact decode_imm op rd rs1 imm
  | shift op rd rs1 sh =>
    refine decode_shift op rd rs1 sh fun hshort => ?_
    cases op
    case slliw | srliw | sraiw | roriw => exact h
    all_goals cases hshort
  | lui rd imm => exact decode_lui rd imm
  | auipc rd imm => exact decode_auipc rd imm

theorem decode_branchJump (o : BranchJump) (w : Parcel) (h : encodeParcel (.branchJump o) = some w) :
    decodeParcel w = .ok (.branchJump o) := by
  cases o with
  | br op rs1 rs2 imm =>
    cases h
    rw [decodeParcel_br op (by simp [bType, fld]) (by simp [bType, fld]), bImm_bType]
    simp [bType, fld]
  | jal rd imm =>
    cases h
    rw [decodeParcel_jal (by simp [jType, fld]), jImm_jType]
    simp [jType, fld]
  | jalr rd rs1 imm =>
    cases h
    rw [decodeParcel_jalr (by simp [iType, fld]) (by simp [iType, fld])]
    simp [iType, fld]

theorem decode_csr (o : CsrOp) (ui : Bool) (csr : BitVec 12) (rd src : Reg) :
    decodeParcel (iType csr src (bool1 ui ++ o.code) rd 0x73) = .ok (.csrAccess o ui csr rd src) := by
  have hf3 : fld (iType csr src (bool1 ui ++ o.code) rd 0x73) 12 2 = o.code := by simp [iType, fld]
  have hne : ∀ w : Parcel, fld w 12 2 = 0#2 → iType csr src (bool1 ui ++ o.code) rd 0x73 ≠ w :=
    fun w hw e => o.code_ne_zero (by rw [← hf3, e, hw])
  rw [decodeParcel_system (by simp [iType, fld]), dSystem, if_neg (hne _ (by decide)), if_neg (hne _ (by decide)), hf3, find?_csr]
  simp [iType, fld]

/-! ### Parcels and command words -/

/-- A scalar instruction that is well-formed is read back from its parcel. -/
theorem decodeParcel_encodeParcel {i : Instr} {w : Parcel} (hwf : wellFormed i = true) (h : encodeParcel i = some w) :
    decodeParcel w = .ok i := by
  cases i
  case load op rd rs1 imm => cases h; exact decode_load op rd rs1 imm
  case store op rs1 rs2 imm => cases h; exact decode_store op rs1 rs2 imm
  case csrAccess op ui csr rd src => cases h; exact decode_csr op ui csr rd src
  case integerOp op => cases h; exact decode_int op hwf
  case floatOp op => cases h; exact decode_float op hwf
  case branchJump op => exact decode_branchJump op w h
  case ecall => cases h; rfl
  case ebreak => cases h; rfl
  case amo op dbl aq rl rd rs1 rs2 =>
    cases h
    rw [decodeParcel_amo (by simp [rType, fld]), dAmo]
    cases dbl <;> simp [rType, fld, op.code_ne, find?_amo] <;> simp [bool1]
  case lr dbl aq rl rd rs1 =>
    cases h
    rw [decodeParcel_amo (by simp [rType, fld]), dAmo]
    cases dbl <;> simp [rType, fld] <;> simp [bool1]
  case sc dbl aq rl rd rs1 rs2 =>
    cases h
    rw [decodeParcel_amo (by simp [rType, fld]), dAmo]
    cases dbl <;> simp [rType, fld] <;> simp [bool1]
  case fence fm pred succ =>
    cases h
    have hfm : fm = 0#4 ∨ fm = 8#4 := by simpa [wellFormed] using hwf
    rw [decodeParcel_misc (by simp [iType, fld]), dMisc]
    simp [iType, fld, hfm]
  case fenceI => cases h; rfl
  case samo op sc off dbl rd rs1 rs2 =>
    cases h
    rw [decodeParcel_custom0 (by simp [rType, fld]), dCustom0]
    cases off <;> cases dbl <;> simp [rType, fld, find?_samo, bool1]
  case xfence dir => cases dir <;> cases h <;> rfl
  case lda | stl | imx | ofence | scx | redaddW | redaddD | redaddF =>
    cases h
    rw [decodeParcel_custom0 (by simp [rType, fld]), dCustom0]
    simp [rType, fld, zeroIf, extractLsb'_join]
  case gset g | gclr g =>
    cases h
    have hg : g ≠ 0#4 := by simpa [wellFormed] using hwf
    rw [decodeParcel_custom1 (by simp [rType, fld]), dCustom1]
    simp [rType, fld, zeroIf, hg]
  case bcb cb imm | bcbn cb imm =>
    cases h
    rw [decodeParcel_custom1 (by simp [bType, fld]), dCustom1, bImm_bType]
    simp [bType, fld, zeroIf]
  case spawn | arm | sig | tdone | tyield | tcall | tret | join | leave | bar | bara | barw | vote | sstep | gfuse | gsplit | qpush
      | qpop | qpeek | msend | mpop | epush | epushb | epop | epopnb | wfc | wfcy | wopen | wcommit | wrewind | wstat =>
    cases h
    rw [decodeParcel_custom1 (by simp [rType, fld]), dCustom1]
    simp [rType, fld, zeroIf]
  case vst vw rs1 imm | tst vw col rs1 imm =>
    cases h
    rw [decodeParcel_custom2 (by simp [sType, rType, fld]), dCustom2, sImm_sType]
    simp [sType, rType, fld, zeroIf]
  case vld | tld =>
    cases h
    rw [decodeParcel_custom2 (by simp [iType, fld]), dCustom2]
    simp [iType, fld, zeroIf]
  case vwset | vwget | ringset | ringadv | ringrel | xmv | shape =>
    cases h
    rw [decodeParcel_custom2 (by simp [rType, fld]), dCustom2]
    simp [rType, fld, zeroIf]
  case nfcvtN rm fmt rd rs1 rs2 | nfcvtF rm fmt rd rs1 rs2 =>
    cases h
    have hsr : rm = .sr ∨ rs2 = 0#5 := by simpa [wellFormed] using hwf
    rw [decodeParcel_custom3 (by simp [rType, fld]), dCustom3]
    simp [rType, fld, zeroIf, hsr]
  case nfpack | nfunpk | rngrd =>
    cases h
    rw [decodeParcel_custom3 (by simp [rType, fld]), dCustom3]
    simp [rType, fld, zeroIf]
  all_goals cases h

/-! ### Command words (R43, R45, R47, R48) -/

@[simp] theorem op_headerBits (h : Header) (cls : BitVec 4) (op : BitVec 8) : (headerBits h cls op).extractLsb' 0 8 = op := by
  simp [headerBits]

@[simp] theorem cls_headerBits (h : Header) (cls : BitVec 4) (op : BitVec 8) : (headerBits h cls op).extractLsb' 8 4 = cls := by
  simp [headerBits]

@[simp] theorem headerOf_word (body : BitVec 192) (h : Header) (cls : BitVec 4) (op : BitVec 8) :
    headerOf (body ++ headerBits h cls op) = h := by
  simp [headerOf, wfld, headerBits]

@[simp] theorem mvOf_word (b : MvBody) (h : BitVec 64) : mvOf (mvBits b ++ h) = b := by simp [mvOf, wfld, mvBits]

@[simp] theorem reserved_mvBits (b : MvBody) : (mvBits b).extractLsb' 140 52 = 0#52 := by simp [mvBits]

@[simp] theorem copyOf_word (b : CopyBody) (h : BitVec 64) : copyOf (copyBits b ++ h) = b := by simp [copyOf, wfld, copyBits]

@[simp] theorem reserved_copyBits (b : CopyBody) : (copyBits b).extractLsb' 120 8 = 0#8 := by simp [copyBits]

@[simp] theorem lo_copyBits (b : CopyBody) : (copyBits b).extractLsb' 60 4 = b.lo.extractLsb' 60 4 := by simp [copyBits]

@[simp] theorem popOf_word (b : PopBody) (h : BitVec 64) : popOf (popBits b ++ h) = b := by simp [popOf, wfld, popBits]

@[simp] theorem reserved_popBits (b : PopBody) : (popBits b).extractLsb' 184 8 = 0#8 := by simp [popBits]

/-- A command word that is well-formed is read back from its 256 bits. -/
theorem decodeWord_encodeWord {i : Instr} {w : CmdWord} (hwf : wellFormed i = true) (h : encodeWord i = some w) :
    decodeWord w = .ok i := by
  cases i
  case mmf88 | mmf84 | mmf44 | mmh16 | mmh8 | mmi88 | mmi84 | mmi44 | mspf88 | mspf44 | mspi88 | msph16 | mzero | manch | mresI | mresF
      | mcmp | vadd | vsub | vmul | vfma | vmax | vmin | vabs | vneg | vshl | vshr | vsra | vand | vor | vxor | vcmp | vsel | vcvt
      | vrcp | vexp2 | vreds | vredm | vperm | vbcast | vscl | vclamp | vrq | vnfin =>
    cases h
    simp [decodeWord]
  case cpy hd b | cps hd b | gth hd b | sct hd b | rdx hd b | bcs hd b | xch hd b =>
    cases h
    have hlo : b.lo.extractLsb' 60 4 = 0#4 := by simpa [wellFormed] using hwf
    simp [decodeWord, hlo]
  case fil =>
    cases h
    simp [decodeWord]
  case prank | pcull | pmig | plog =>
    cases h
    simp [decodeWord]
  all_goals cases h

/-- Settles O56: a case per class of parcel and of command word. -/
theorem encodeDecode : Obligations.EncodeDecode :=
  fun _ hwf => ⟨fun _ => decodeParcel_encodeParcel hwf, fun _ => decodeWord_encodeWord hwf⟩

/-- Settles O55: the decoder computes each of the words. -/
theorem decodeWorkedWords : Obligations.DecodeWorkedWords :=
  ⟨rfl, rfl, rfl, rfl, rfl, rfl, rfl, rfl, rfl, rfl, rfl, rfl, rfl, rfl, rfl, rfl, rfl, rfl, rfl, rfl, rfl, rfl⟩

end Sys2Proof
end

section
/-! Branches and jumps, prefixes, misaligned and refused scalar accesses, and the CSR instructions (spec/02 R29, R35 to R37, spec/09 R238,
R239). -/

namespace Sys2Proof.Machine

/-! ### Traps -/

/-- A scalar meaning that traps with a cause and a value, and nothing in `tdet0`, leaves that trap. -/
theorem runScalar_traps {i : Instr} {m : M Unit} {s : State} {code : Nat} {val : Word} (hc : s.hasCore s.cur = true)
    (h : m s = .error (.trap ⟨code, val, 0, 0⟩)) : runScalar (parcelOf i) m s = s.traps i code val :=
  runScalar_trap hc h

theorem runScalar_refuses {i : Instr} {m : M Unit} {s : State} {code : Nat} {va : Word} (hc : s.hasCore s.cur = true)
    (h : m s = .error (.trap (refusalTrap code va false))) : runScalar (parcelOf i) m s = s.refuses i code va :=
  (runScalar_trap hc h).trans (by simp [State.refuses, refusalTrap])

theorem runPrefix_traps {i : Instr} {m : M Unit} {s : State} {code : Nat} {val : Word} (hc : s.hasCore s.cur = true)
    (h : m s = .error (.trap ⟨code, val, 0, 0⟩)) : runPrefix (parcelOf i) m s = s.traps i code val := by
  simp only [runPrefix, hc, if_true, h, State.traps]

/-! ### Branches and jumps -/

@[simp] theorem M.bind_deciderM {β : Type} (k : CoreSt → M β) (s : State) :
    (deciderM >>= k) s = k (s.core (s.leader s.cur)) s := rfl

/-- A jump to an aligned target sets the pc. -/
theorem jumpM_aligned {t : Word} (h : t.toNat % 4 = 0) (s : State) :
    jumpM t s = .ok ((), s.modCore s.cur (fun c => { c with pc := t })) := by
  rw [jumpM, M.bind_ok (aligned_ok h s)]; rfl

theorem jumpM_misaligned {t : Word} (h : t.toNat % 4 ≠ 0) (s : State) : jumpM t s = .error (.trap ⟨0x05, t, 0, 0⟩) := by
  rw [jumpM, M.bind_error (aligned_error h s)]

/-- The core after a jump retired. -/
theorem retire_jump (s : State) (t : Word) :
    (s.modCore s.cur (fun c => { c with pc := t })).retire = s.retiring (fun c => c.jumped t) :=
  retire_one s _ fun _ => rfl

/-- The core after a jump that writes a link retired. -/
theorem retire_link (s : State) (t link : Word) (rd : Reg) :
    ((s.modCore s.cur (fun c => { c with pc := t })).modCore s.cur (fun c => c.wx rd link)).retire =
      s.retiring (fun c => (c.wx rd link).jumped t) := by
  rw [modCore_two _ _ _ _ (by intro c; rfl), retire_one _ _ (by intro c; simp)]
  congr 1
  funext c
  unfold CoreSt.wx
  split <;> rfl

section
variable {s : State} (hc : s.hasCore s.cur = true)
include hc

theorem exec_br (o : BrOp) (rs1 rs2 : Reg) (imm : BitVec 12) :
    let d := s.core (s.leader s.cur)
    let t := (s.core s.cur).pc + brOff imm
    (brEval o (d.rx rs1) (d.rx rs2) = false → exec (.branchJump (.br o rs1 rs2 imm)) s = .next (s.retiring CoreSt.after)) ∧
    (brEval o (d.rx rs1) (d.rx rs2) = true → t.toNat % 4 = 0 →
      exec (.branchJump (.br o rs1 rs2 imm)) s = .next (s.retiring (fun c => c.jumped t))) ∧
    (brEval o (d.rx rs1) (d.rx rs2) = true → t.toNat % 4 ≠ 0 →
      exec (.branchJump (.br o rs1 rs2 imm)) s = s.traps (.branchJump (.br o rs1 rs2 imm)) 0x05 t) := by
  refine ⟨fun hb => ?_, fun hb ht => ?_, fun hb ht => ?_⟩
  · exact (runScalar_ok hc (by simp [hb])).trans (congrArg _ (retire_advance_only s))
  · exact (runScalar_ok hc (by simp [hb, jumpM_aligned ht])).trans (congrArg _ (retire_jump s _))
  · exact runScalar_traps hc (by simp [hb, jumpM_misaligned ht])

theorem exec_jal (rd : Reg) (off : BitVec 20) :
    let t := (s.core s.cur).pc + sextNat 21 (off.toNat * 2)
    (t.toNat % 4 = 0 → exec (.branchJump (.jal rd off)) s =
      .next (s.retiring (fun c => (c.wx rd ((s.core s.cur).pc + 4)).jumped t))) ∧
    (t.toNat % 4 ≠ 0 → exec (.branchJump (.jal rd off)) s = s.traps (.branchJump (.jal rd off)) 0x05 t) := by
  refine ⟨fun ht => ?_, fun ht => ?_⟩
  · exact (runScalar_ok hc (by simp only [M.bind_me]; exact M.bind_ok (jumpM_aligned ht s))).trans (congrArg _ (retire_link s _ _ rd))
  · exact runScalar_traps hc (by simp only [M.bind_me]; exact M.bind_error (jumpM_misaligned ht s))

theorem exec_jalr (rd rs1 : Reg) (imm : BitVec 12) :
    let t := ((s.core (s.leader s.cur)).rx rs1 + (s.core s.cur).imm12 imm) &&& ~~~1#64
    (t.toNat % 4 = 0 → exec (.branchJump (.jalr rd rs1 imm)) s =
      .next (s.retiring (fun c => (c.wx rd ((s.core s.cur).pc + 4)).jumped t))) ∧
    (t.toNat % 4 ≠ 0 → exec (.branchJump (.jalr rd rs1 imm)) s = s.traps (.branchJump (.jalr rd rs1 imm)) 0x05 t) := by
  refine ⟨fun ht => ?_, fun ht => ?_⟩
  · exact (runScalar_ok hc (by simp only [M.bind_me, M.bind_deciderM]; exact M.bind_ok (jumpM_aligned ht s))).trans (congrArg _ (retire_link s _ _ rd))
  · exact runScalar_traps hc (by simp only [M.bind_me, M.bind_deciderM]; exact M.bind_error (jumpM_misaligned ht s))

end

/-- Settles O3: a branch, `jal` and `jalr` each end by whether their target is aligned. -/
theorem branchJumpResult : Obligations.BranchJumpResult := by
  constructor
  · intro s o rd rs1 rs2 imm off hc
    obtain ⟨hnot, htaken, -⟩ := exec_br hc o rs1 rs2 imm
    exact ⟨hnot, htaken, (exec_jal hc rd off).1, (exec_jalr hc rd rs1 imm).1⟩
  · intro s o rd rs1 rs2 imm off hc
    obtain ⟨-, -, hbad⟩ := exec_br hc o rs1 rs2 imm
    exact ⟨hbad, (exec_jal hc rd off).2, (exec_jalr hc rd rs1 imm).2⟩

/-! ### Prefixes -/

/-- A first `imx` or `scx` opens or extends the unit; nothing else of the core changes. -/
theorem exec_imx_first {s : State} (hc : s.hasCore s.cur = true) (p : BitVec 20) (h : (s.core s.cur).ix = none) :
    exec (.imx p) s = .next { s.modCore s.cur (fun x => x.addPfx (some p) none) with note := .none } :=
  runPrefix_ok hc (by simp [h])

theorem exec_scx_first {s : State} (hc : s.hasCore s.cur = true) (sc : Scope) (h : (s.core s.cur).pfx.bind Pfx.scx = none) :
    exec (.scx sc) s = .next { s.modCore s.cur (fun x => x.addPfx none (some sc)) with note := .none } :=
  runPrefix_ok hc (by simp [h])

theorem exec_imx_second {s : State} (hc : s.hasCore s.cur = true) (p : BitVec 20) (h : (s.core s.cur).ix ≠ none) :
    exec (.imx p) s = s.traps (.imx p) 0x02 0 :=
  runPrefix_traps hc (by simp [Option.isSome_iff_ne_none.mpr h, trap0])

theorem exec_scx_second {s : State} (hc : s.hasCore s.cur = true) (sc : Scope) (h : (s.core s.cur).pfx.bind Pfx.scx ≠ none) :
    exec (.scx sc) s = s.traps (.scx sc) 0x02 0 :=
  runPrefix_traps hc (by simp [Option.isSome_iff_ne_none.mpr h, trap0])

/-- The two's-complement reading of the low `n` bits of a number. -/
theorem signed_eq_toInt (n v : Nat) : signed n v = (BitVec.ofNat n v).toInt := by
  rw [BitVec.toInt_eq_toNat_cond, BitVec.toNat_ofNat, signed]
  cases n with
  | zero => simp
  | succ n =>
    have hpow : (2 : Nat) ^ (n + 1) = 2 * 2 ^ n := Nat.pow_succ'
    rw [Nat.add_sub_cancel, hpow]
    by_cases hlow : v % (2 * 2 ^ n) < 2 ^ n
    · rw [if_pos hlow, if_pos (by omega)]
    · rw [if_neg hlow, if_neg (by omega)]
      push_cast [pow_succ']; rfl

theorem sextNat_eq (n v : Nat) : sextNat n v = (BitVec.ofNat n v).signExtend 64 := by
  rw [sextNat, signed_eq_toInt]; rfl

theorem CoreSt.addPfx_imx (c : CoreSt) (p : BitVec 20) : c.addPfx (some p) none =
    { c with pfx := some { (c.pfx).getD ⟨c.pc, none, none⟩ with imx := some p }, pc := c.pc + 4 } := by
  cases h : c.pfx <;> simp [CoreSt.addPfx, h]

theorem CoreSt.addPfx_scx (c : CoreSt) (sc : Scope) : c.addPfx none (some sc) =
    { c with pfx := some { (c.pfx).getD ⟨c.pc, none, none⟩ with scx := some sc }, pc := c.pc + 4 } := by
  cases h : c.pfx <;> simp [CoreSt.addPfx, h]

theorem ofNat_append {v w : Nat} (hi : BitVec v) (lo : BitVec w) :
    BitVec.ofNat (v + w) (hi.toNat * 2 ^ w + lo.toNat) = hi ++ lo := by
  apply BitVec.eq_of_toNat_eq
  rw [BitVec.toNat_append, BitVec.toNat_ofNat, ← Nat.shiftLeft_eq, Nat.shiftLeft_add_eq_or_of_lt lo.isLt]
  exact Nat.mod_eq_of_lt (by simpa using (hi ++ lo).isLt)

/-- Settles O9: the first and the second `imx` and `scx`, and the immediate with and without `imx`. -/
theorem prefixResult : Obligations.PrefixResult := by
  refine ⟨fun s p sc hc => ⟨fun h => ?_, fun h => ?_, exec_imx_second hc p, exec_scx_second hc sc⟩, fun c imm h => ?_, fun c p imm h => ?_⟩
  · simp only [exec_imx_first hc p h, CoreSt.addPfx_imx]
  · simp only [exec_scx_first hc sc h, CoreSt.addPfx_scx]
  · simp [CoreSt.imm12, h]
  · have hjoin : BitVec.ofNat 32 (p.toNat * 4096 + imm.toNat) = p ++ imm := ofNat_append p imm
    simp [CoreSt.imm12, h, sextNat_eq, hjoin]

/-! ### Misaligned and refused scalar accesses -/

/-- A meaning that checks its address first traps on a misaligned one. -/
theorem runScalar_misaligned {i : Instr} {s : State} (hc : s.hasCore s.cur = true) {va : CoreSt → Word} {n : Nat} {k : CoreSt → M Unit}
    (h : (va (s.core s.cur)).toNat % n ≠ 0) :
    runScalar (parcelOf i) (do let c ← me; aligned (va c) n; k c) s = s.traps i 0x05 (va (s.core s.cur)) :=
  runScalar_traps hc (by rw [M.bind_me]; exact M.bind_error (aligned_error h s))

/-- The same of a `redadd`, whose check stands within its access. -/
theorem runScalar_redadd_misaligned {i : Instr} {s : State} (hc : s.hasCore s.cur = true) {rs1 : Reg} {n : Nat} {v : CoreSt → Nat}
    {kind : WriteKind} (h : ((s.core s.cur).rx rs1).toNat % n ≠ 0) :
    runScalar (parcelOf i) (do let c ← me; redaddM (c.rx rs1) n (v c) kind; advance) s = s.traps i 0x05 ((s.core s.cur).rx rs1) :=
  runScalar_traps hc (by rw [M.bind_me]; exact M.bind_error (M.bind_error (aligned_error h s)))

/-- A load from an address that does not resolve. -/
theorem exec_load_refused {s : State} (hq : s.Quiet) {op : LoadOp} {rd rs1 : Reg} {imm : BitVec 12} {code : Nat}
    (ha : ((s.core s.cur).ea rs1 imm).toNat % loadBytes op = 0)
    (hr : s.resolve s.cur (s.core s.cur).runtime ((s.core s.cur).ea rs1 imm) (loadBytes op) .load = .error code) :
    exec (.load op rd rs1 imm) s = s.refuses (.load op rd rs1 imm) code ((s.core s.cur).ea rs1 imm) := by
  refine runScalar_refuses hq.core ?_
  rw [M.bind_me, M.bind_ok (aligned_ok ha s)]
  refine M.bind_error ?_
  rw [loadM, M.bind_ok (watch_quiet hq.toStill ..), M.bind_error (resolveM_error hq.damage hr)]

/-- Settles O6: each access checks its address before anything else; a load that does not resolve is refused. -/
theorem accessTraps : Obligations.AccessTraps := by
  refine ⟨fun s rd rs1 rs2 imm hc => ⟨?load, ?store, ?amo, ?lrsc, ?samo, ?redadd4, ?redadd8, ?ldastl⟩, ?refused⟩
  case load => exact fun op h => runScalar_misaligned (va := fun c => c.ea rs1 imm) hc h
  case store => exact fun op h => runScalar_misaligned (va := fun c => c.ea rs1 imm) hc h
  case amo => exact fun op d aq rl h => runScalar_misaligned (va := fun c => c.rx rs1) hc h
  case lrsc =>
    exact fun d aq rl h => ⟨runScalar_misaligned (va := fun c => c.rx rs1) hc h, runScalar_misaligned (va := fun c => c.rx rs1) hc h⟩
  case samo =>
    exact fun q sc off d h => runScalar_misaligned (va := fun c => c.rx rs1 + (if off then word (dblBytes d) else 0)) hc h
  case redadd4 => exact fun h => ⟨runScalar_redadd_misaligned hc h, runScalar_redadd_misaligned hc h⟩
  case redadd8 => exact fun h => runScalar_redadd_misaligned hc h
  case ldastl =>
    exact fun sz sc off h => ⟨runScalar_misaligned (va := fun c => c.rx rs1 + off.signExtend 64) hc h,
      runScalar_misaligned (va := fun c => c.rx rs1 + off.signExtend 64) hc h⟩
  case refused => exact fun s op rd rs1 imm code hq ha hr => exec_load_refused hq ha hr

/-! ### CSR instructions -/

theorem csrReadM_quiet {s : State} (h : s.Still) (n : Nat) : csrReadM n s = .ok (s.csrGet s.cur n, s) := by
  unfold csrReadM
  rw [M.bind_get]
  split
  · exact inputM_quiet h _ _
  · split
    · exact inputM_quiet h _ _
    · rfl

theorem csrWrites_iff (op : CsrOp) (src : Reg) : csrWrites op src = true ↔ op = .rw ∨ src ≠ 0 := by simp [csrWrites]

/-- The check that a CSR instruction makes first. -/
theorem csrAllowed_iff (c : CoreSt) (op : CsrOp) (n : Nat) (src : Reg) :
    csrAllowed c op n src = true ↔
      ¬((!csrExists n) = true ∨ (csrRuntime n = true ∧ (!c.runtime) = true) ∨ (csrReadOnly n = true ∧ (op = .rw ∨ src ≠ 0))) := by
  rw [← csrWrites_iff, csrAllowed]
  simp only [Bool.and_eq_true, Bool.or_eq_true, Bool.not_eq_true', not_or, not_and, Bool.not_eq_false, Bool.and_eq_false_imp,
    Bool.not_eq_true, and_assoc]
  cases csrRuntime n <;> simp

section
variable {s : State} (hq : s.Quiet) {op : CsrOp} {ui : Bool} {csr : BitVec 12} {rd src : Reg}

theorem exec_csr_disallowed (hc : s.hasCore s.cur = true) (h : csrAllowed (s.core s.cur) op csr.toNat src = false) :
    exec (.csrAccess op ui csr rd src) s = s.traps (.csrAccess op ui csr rd src) 0x01 0 := by
  have hbad := (csrAllowed_iff (s.core s.cur) op csr.toNat src).not.mp (by simp [h])
  refine runScalar_traps hc ?_
  rw [M.bind_me, if_pos (not_not.mp hbad)]
  rfl

include hq

theorem exec_csr_read (h : csrAllowed (s.core s.cur) op csr.toNat src = true) (hw : csrWrites op src = false) :
    exec (.csrAccess op ui csr rd src) s = .next (s.retiring (fun x => (x.wx rd (s.csrGet s.cur csr.toNat)).after)) := by
  have hok := (csrAllowed_iff (s.core s.cur) op csr.toNat src).mp h
  have hw := (csrWrites_iff op src).not.mp (by simp [hw])
  refine (runScalar_ok hq.core (s' := (s.modCore s.cur _).modCore s.cur _) ?_).trans (congrArg _ (retire_advance s _ ?_))
  · simp only [M.bind_me, if_neg hok, M.bind_ok (csrReadM_quiet hq.toStill _), if_neg hw]
    rfl
  · intro c; simp

/-- What a CSR instruction that writes does once it has read the old value. -/
theorem exec_csr_write (h : csrAllowed (s.core s.cur) op csr.toNat src = true) (hw : csrWrites op src = true) :
    let i : Instr := .csrAccess op ui csr rd src
    let n := csr.toNat
    let old := s.csrGet s.cur n
    let new := csrNew op old (if ui then src.setWidth 64 else (s.core s.cur).rx src)
    let bad := if 0x800 ≤ n ∧ n ≤ 0x807 then Fmt.invalidReason (new &&& 0xFFFFF#64) else 0
    (bad = 0 → exec i s = .next (s.retiring (fun x => ((x.putCsr n new).wx rd old).after))) ∧
    (bad ≠ 0 → exec i s = s.traps i 0x13 (word (bad * 256))) := by
  have hok := (csrAllowed_iff (s.core s.cur) op csr.toNat src).mp h
  have hw := (csrWrites_iff op src).mp hw
  intro i n old new bad
  constructor
  · intro hbad
    refine (runScalar_ok hq.core (s' := ((s.modCore s.cur fun x => x.putCsr n new).modCore s.cur fun x => x.wx rd old).modCore s.cur
      fun c => { c with pc := c.pc + 4 }) ?_).trans (congrArg _ ?_)
    · simp only [M.bind_me, if_neg hok, M.bind_ok (csrReadM_quiet hq.toStill _), if_pos hw]
      exact congrFun (if_neg (not_not.mpr hbad)) s
    · rw [modCore_two s _ _ _ (by intro c; rfl)]
      exact retire_advance s _ (by intro c; simp [CoreSt.putCsr])
  · intro hbad
    refine runScalar_traps hq.core ?_
    simp only [M.bind_me, if_neg hok, M.bind_ok (csrReadM_quiet hq.toStill _), if_pos hw]
    exact congrFun (if_pos hbad) s

end

/-- Settles O10: allowed instructions read, or read and write, and the others trap. -/
theorem csrResult : Obligations.CsrResult := by
  refine ⟨fun s op ui csr rd src hq hal => ?_, fun s op ui csr rd src hc => exec_csr_disallowed hc⟩
  exact ⟨exec_csr_read hq hal, fun hw => (exec_csr_write hq hal hw).1, fun hw => (exec_csr_write hq hal hw).2⟩

end Sys2Proof.Machine
end

section
/-! The float instructions (spec/02 R29): each either changes its core by what `floatDo` names, or has a reserved rounding mode. -/

namespace Sys2Proof.Machine

theorem rmM_some {s : State} {rm : BitVec 3} {m : RM} (h : fpMode rm (s.core s.cur).csr.fcsr = some m) : rmM rm s = .ok (m, s) := by
  simp [rmM, h]

theorem rmM_none {s : State} {rm : BitVec 3} (h : fpMode rm (s.core s.cur).csr.fcsr = none) : rmM rm s = .error (.trap ⟨0x01, 0, 0, 0⟩) := by
  simp [rmM, h]; rfl

@[simp] theorem M.bind_rfF {β : Type} (fmt : FFmt) (r : Reg) (k : Nat → M β) (s : State) :
    (rfF fmt r >>= k) s = k (unbox fmt ((s.core s.cur).rf r)) s := rfl

@[simp] theorem M.wxM_apply (i : Reg) (v : Word) (s : State) : wxM i v s = .ok ((), s.modCore s.cur (fun c => c.wx i v)) := rfl

@[simp] theorem M.wfM_apply (i : Reg) (v : Word) (s : State) : wfM i v s = .ok ((), s.modCore s.cur (fun c => c.wf i v)) := rfl

/-- Accruing flags after a change of the core. -/
theorem flagsM_after (s : State) {f : CoreSt → CoreSt} (hf : ∀ c, (f c).id = c.id) (fl : Nat) :
    flagsM fl (s.modCore s.cur f) = .ok ((), s.modCore s.cur (fun c => (f c).accruing fl)) := by
  simp only [flagsM, M.modMe_apply, State.modCore_cur]
  rw [modCore_two _ _ _ _ hf]; rfl

theorem putF_apply (fmt : FFmt) (rd : Reg) (r : Nat × Nat) (s : State) :
    putF fmt rd r s = .ok ((), s.modCore s.cur (fun c => (c.wf rd (nanBox fmt r.1)).accruing r.2)) := by
  rw [putF, M.bind_wfM, flagsM_after s fun c => by simp]

theorem CoreSt.accruing_id (c : CoreSt) (fl : Nat) : (c.accruing fl).id = c.id := rfl

/-- A float instruction whose rounding mode is not reserved changes its core as `floatDo` says. -/
theorem floatRun_some {s : State} {op : FloatOp} {f : CoreSt → CoreSt} (h : floatDo op (s.core s.cur) = some f) :
    floatRun op s = .ok ((), s.modCore s.cur f) ∧ ∀ c, (f c).id = c.id := by
  cases op
  case fma | arith | sqrt | ofInt | cvt =>
    obtain ⟨m, hm, rfl⟩ := Option.map_eq_some_iff.mp h
    simp [floatRun, M.bind_ok (rmM_some hm), putF_apply, CoreSt.accruing_id]
  case toInt =>
    obtain ⟨m, hm, rfl⟩ := Option.map_eq_some_iff.mp h
    simp [floatRun, M.bind_ok (rmM_some hm), CoreSt.accruing_id, flagsM_after]
  case sgnj | minmax | cmp | mvX | mvF | cls =>
    cases h
    simp [floatRun, putF_apply, CoreSt.accruing_id, flagsM_after]

/-- A float instruction that `floatDo` gives no effect has a reserved rounding mode and is illegal. -/
theorem floatRun_none {s : State} {op : FloatOp} (h : floatDo op (s.core s.cur) = none) :
    floatRun op s = .error (.trap ⟨0x01, 0, 0, 0⟩) := by
  cases op
  case fma | arith | sqrt | toInt | ofInt | cvt => exact M.bind_error (rmM_none (Option.map_eq_none_iff.mp h))
  case sgnj | minmax | cmp | mvX | mvF | cls => cases h

/-- Settles O2: the effect of the operation, or the trap of a reserved rounding mode. -/
theorem floatOpResult : Obligations.FloatOpResult := by
  refine fun s op hc => ⟨fun f hf => ?_, fun hf => runScalar_traps hc (M.bind_error (floatRun_none hf))⟩
  obtain ⟨hrun, hid⟩ := floatRun_some hf
  exact runScalar_advance hc hrun hid

end Sys2Proof.Machine
end

section
/-! The integer instructions (spec/02 R29): what the results of RV64IM, Zba and Zbb are, operation by operation. -/

namespace Sys2Proof.Machine

/-! ### Comparisons and words -/

theorem bool64_eq_ite {p : Prop} [Decidable p] {b : Bool} (h : b = true ↔ p) : bool64 b = if p then 1 else 0 := by
  unfold bool64
  by_cases hp : p <;> simp [hp, h]

theorem toNat_word {v : Nat} (h : v < 2 ^ 64) : (word v).toNat = v :=
  (BitVec.toNat_ofNat v 64).trans (Nat.mod_eq_of_lt h)

theorem slt_iff {n : Nat} (a b : BitVec n) : a.slt b = true ↔ a.toInt < b.toInt := BitVec.slt_iff_toInt_lt

theorem ult_iff {n : Nat} (a b : BitVec n) : a.ult b = true ↔ a.toNat < b.toNat := BitVec.ult_iff_lt

theorem sh5_eq (b : Word) : sh5 b = (b.setWidth 32).toNat % 32 := by
  simp only [sh5, BitVec.toNat_setWidth]
  omega

/-- The low 32 bits, zero-extended. -/
theorem zx32_eq (a : Word) : zx32 a = word (a.toNat % 2 ^ 32) := by
  apply BitVec.eq_of_toNat_eq
  rw [toNat_word (by omega)]
  simp [zx32, lo32]
  omega

/-! ### Shifts -/

theorem rrEval_sll (a b : Word) : (rrEval .sll a b).toNat = a.toNat * 2 ^ (b.toNat % 64) % 2 ^ 64 := by
  simp [rrEval, BitVec.toNat_shiftLeft, Nat.shiftLeft_eq]

theorem rrEval_srl (a b : Word) : (rrEval .srl a b).toNat = a.toNat / 2 ^ (b.toNat % 64) := by
  simp [rrEval, BitVec.toNat_ushiftRight, Nat.shiftRight_eq_div_pow]

theorem rrEval_sra (a b : Word) : (rrEval .sra a b).toInt = a.toInt / 2 ^ (b.toNat % 64) := by
  simp [rrEval, BitVec.toInt_sshiftRight, Int.shiftRight_eq_div_pow]

theorem shiftLeft_eq_mul (a : Word) (n : Nat) : a <<< n = BitVec.ofNat 64 (2 ^ n) * a := by
  rw [BitVec.shiftLeft_eq_mul_twoPow, BitVec.mul_comm]
  congr 1
  exact BitVec.eq_of_toNat_eq (by simp)

/-! ### Bits -/

theorem rrEval_rol {i : Nat} (hi : i < 64) (a b : Word) :
    (rrEval .rol a b).getLsbD i = a.getLsbD ((i + 64 - b.toNat % 64) % 64) := by
  simp only [rrEval, BitVec.getLsbD_rotateLeft, sh6, Nat.mod_mod, cond_eq_ite, decide_eq_true_eq, hi, decide_true, Bool.true_and]
  split <;> congr 1 <;> omega

theorem rrEval_ror {i : Nat} (hi : i < 64) (a b : Word) :
    (rrEval .ror a b).getLsbD i = a.getLsbD ((i + b.toNat % 64) % 64) := by
  simp only [rrEval, BitVec.getLsbD_rotateRight, sh6, Nat.mod_mod, cond_eq_ite, decide_eq_true_eq, hi, decide_true, Bool.true_and]
  split <;> congr 1 <;> omega

theorem rrEval_bits {i : Nat} (hi : i < 64) (a b : Word) :
    (rrEval .xor a b).getLsbD i = (a.getLsbD i != b.getLsbD i) ∧ (rrEval .or a b).getLsbD i = (a.getLsbD i || b.getLsbD i) ∧
    (rrEval .and a b).getLsbD i = (a.getLsbD i && b.getLsbD i) ∧ (rrEval .andn a b).getLsbD i = (a.getLsbD i && !b.getLsbD i) ∧
    (rrEval .orn a b).getLsbD i = (a.getLsbD i || !b.getLsbD i) ∧ (rrEval .xnor a b).getLsbD i = (a.getLsbD i == b.getLsbD i) := by
  simp [rrEval, hi]
  cases a.getLsbD i <;> cases b.getLsbD i <;> rfl

/-! ### Products -/

/-- The high doubleword of a product that the signed or unsigned reading of 128 bits holds, above its low one. -/
theorem mulHigh_low {x y : Int} {m : Word} (hm : (m.toNat : Int) = x * y % 2 ^ 64) (hlo : -2 ^ 127 ≤ x * y) (hhi : x * y < 2 ^ 127) :
    (mulHigh x y).toInt * 2 ^ 64 + m.toNat = x * y := by
  have hq : (mulHigh x y).toInt = x * y / 2 ^ 64 := by
    rw [mulHigh, BitVec.toInt_ofInt, Int.fdiv_eq_ediv_of_nonneg _ (by norm_num), Int.bmod_eq_of_le (by omega) (by omega)]
  rw [hq, hm]
  omega

/-- The bounds that the signed reading of a word keeps. -/
theorem toInt_range (a : Word) : -2 ^ 63 ≤ a.toInt ∧ a.toInt < 2 ^ 63 := ⟨a.le_toInt, a.toInt_lt⟩

theorem rrEval_mul_toNat (a b : Word) : (rrEval .mul a b).toNat = a.toNat * b.toNat % 2 ^ 64 := BitVec.toNat_mul a b

/-- The signed and the unsigned reading of a word agree modulo 2^64. -/
theorem toInt_modEq (a : Word) : a.toInt ≡ a.toNat [ZMOD 2 ^ 64] := by
  rw [BitVec.toInt_eq_toNat_bmod]
  exact Int.bmod_emod

theorem rrEval_mul_modEq {a b : Word} {x y : Int} (hx : x ≡ a.toNat [ZMOD 2 ^ 64]) (hy : y ≡ b.toNat [ZMOD 2 ^ 64]) :
    ((rrEval .mul a b).toNat : Int) = x * y % 2 ^ 64 := by
  rw [rrEval_mul_toNat]
  push_cast
  exact (hx.mul hy).symm

theorem rrEval_mulh (a b : Word) : (rrEval .mulh a b).toInt * 2 ^ 64 + (rrEval .mul a b).toNat = a.toInt * b.toInt := by
  obtain ⟨ha, ha'⟩ := toInt_range a
  obtain ⟨hb, hb'⟩ := toInt_range b
  exact mulHigh_low (rrEval_mul_modEq (toInt_modEq a) (toInt_modEq b)) (by nlinarith) (by nlinarith)

theorem rrEval_mulhsu (a b : Word) : (rrEval .mulhsu a b).toInt * 2 ^ 64 + (rrEval .mul a b).toNat = a.toInt * b.toNat := by
  obtain ⟨ha, ha'⟩ := toInt_range a
  have hb := b.isLt
  exact mulHigh_low (rrEval_mul_modEq (toInt_modEq a) rfl) (by nlinarith) (by nlinarith)

theorem rrEval_mulhu (a b : Word) : (rrEval .mulhu a b).toNat * 2 ^ 64 + (rrEval .mul a b).toNat = a.toNat * b.toNat := by
  have hprod : a.toNat * b.toNat < 2 ^ 128 := by nlinarith [a.isLt, b.isLt]
  have hq : (rrEval .mulhu a b).toNat = a.toNat * b.toNat / 2 ^ 64 := by
    simp only [rrEval, mulHigh, BitVec.toNat_ofInt]
    rw [Int.fdiv_eq_ediv_of_nonneg _ (by norm_num)]
    omega
  rw [hq, rrEval_mul_toNat]
  omega

/-! ### Quotients and remainders -/

theorem divS_eq_sdiv {n : Nat} {a b : BitVec n} (h : b ≠ 0) : divS a b = a.sdiv b := by
  rw [divS, if_neg h]
  apply BitVec.eq_of_toInt_eq
  rw [BitVec.toInt_ofInt, BitVec.toInt_sdiv]

theorem remS_eq_srem {n : Nat} {a b : BitVec n} (h : b ≠ 0) : remS a b = a.srem b := by
  rw [remS, if_neg h, ← BitVec.toInt_srem, BitVec.ofInt_toInt]

theorem divU_eq_udiv {n : Nat} {a b : BitVec n} (h : b ≠ 0) : divU a b = a / b := by
  rw [divU, if_neg h]
  exact BitVec.eq_of_toNat_eq (by simp [Nat.mod_eq_of_lt (lt_of_le_of_lt (Nat.div_le_self _ _) a.isLt)])

theorem remU_eq_umod {n : Nat} {a b : BitVec n} (h : b ≠ 0) : remU a b = a % b := by
  rw [remU, if_neg h]
  exact BitVec.eq_of_toNat_eq (by simp [Nat.mod_eq_of_lt (lt_of_le_of_lt (Nat.mod_le _ _) a.isLt)])

theorem rrEval_div_zero (a : Word) : rrEval .div a 0 = BitVec.allOnes 64 ∧ rrEval .divu a 0 = BitVec.allOnes 64 ∧ rrEval .rem a 0 = a ∧
    rrEval .remu a 0 = a := ⟨rfl, rfl, rfl, rfl⟩

theorem rrEval_div_ne_zero (a : Word) {b : Word} (h : b ≠ 0) :
    (rrEval .divu a b).toNat = a.toNat / b.toNat ∧ (rrEval .remu a b).toNat = a.toNat % b.toNat ∧
    (rrEval .rem a b).toInt = a.toInt.tmod b.toInt ∧ (b ≠ -1#64 → (rrEval .div a b).toInt = a.toInt.tdiv b.toInt) := by
  simp only [rrEval, divS_eq_sdiv h, remS_eq_srem h, divU_eq_udiv h, remU_eq_umod h]
  exact ⟨BitVec.toNat_udiv, BitVec.toNat_umod, BitVec.toInt_srem a b, fun hm => BitVec.toInt_sdiv_of_ne_or_ne a b (.inr hm)⟩

theorem rrEval_div_neg_one (a : Word) : rrEval .div a (-1#64) = 0#64 - a ∧ rrEval .rem a (-1#64) = 0 := by
  have hneg : (-1#64).toInt = -1 := by decide
  constructor
  · rw [rrEval, divS, if_neg (by decide), hneg, Int.tdiv_neg, Int.tdiv_one, BitVec.ofInt_neg, BitVec.ofInt_toInt, BitVec.zero_sub]
  · rw [rrEval, remS, if_neg (by decide), hneg, Int.tmod_neg, Int.tmod_one]; rfl

/-! ### Counts of zeros and ones -/

theorem clzNat_zero (n : Nat) : clzNat n 0 = n := by
  induction n with
  | zero => rfl
  | succ n ih => simp [clzNat, ih, Nat.add_comm]

/-- The highest one of a number of `n` bits stands `clzNat n v` places below the top. -/
theorem clzNat_bounds {n v : Nat} (h0 : v ≠ 0) (hv : v < 2 ^ n) :
    clzNat n v < n ∧ 2 ^ (n - 1 - clzNat n v) ≤ v ∧ v < 2 ^ (n - clzNat n v) := by
  induction n with
  | zero => omega
  | succ n ih =>
    unfold clzNat
    split
    · next htop =>
      have hle : 2 ^ n ≤ v := by
        by_contra hlt
        simp [Nat.div_eq_of_lt (not_le.mp hlt)] at htop
      simpa using ⟨hle, hv⟩
    · next htop =>
      have hlt : v < 2 ^ n := by
        by_contra hge
        have hq : v / 2 ^ n = 1 := Nat.div_eq_of_lt_le (by omega) (by rw [Nat.pow_succ] at hv; omega)
        simp [hq] at htop
      obtain ⟨h1, h2, h3⟩ := ih hlt
      refine ⟨by omega, ?_, ?_⟩
      · rwa [show n + 1 - 1 - (1 + clzNat n v) = n - 1 - clzNat n v by omega]
      · rwa [show n + 1 - (1 + clzNat n v) = n - clzNat n v by omega]

theorem ctzNat_zero (n : Nat) : ctzNat n 0 = n := by
  induction n with
  | zero => rfl
  | succ n ih => simp [ctzNat, ih, Nat.add_comm]

/-- The lowest one of a number of `n` bits has weight `2 ^ ctzNat n v`. -/
theorem ctzNat_dvd {n v : Nat} (h0 : v ≠ 0) (hv : v < 2 ^ n) :
    ctzNat n v < n ∧ 2 ^ ctzNat n v ∣ v ∧ ¬ 2 ^ (ctzNat n v + 1) ∣ v := by
  induction n generalizing v with
  | zero => omega
  | succ n ih =>
    unfold ctzNat
    split
    · next hodd => exact ⟨by omega, by simp, by rw [Nat.zero_add, Nat.pow_one]; omega⟩
    · next heven =>
      obtain ⟨u, rfl⟩ : 2 ∣ v := by omega
      obtain ⟨h1, h2, h3⟩ := ih (v := u) (by omega) (by rw [Nat.pow_succ] at hv; omega)
      rw [Nat.mul_div_cancel_left u (by omega)]
      refine ⟨by omega, ?_, ?_⟩
      · rw [Nat.add_comm, Nat.pow_succ']
        exact Nat.mul_dvd_mul_left 2 h2
      · rw [Nat.add_assoc, Nat.add_comm, Nat.pow_succ', Nat.mul_dvd_mul_iff_left (by omega)]
        exact h3

/-- The ones among the low `n` bits of a number, counted. -/
theorem popcount_eq (n v : Nat) : popcount n v = ((List.range n).filter (fun i => v.testBit i)).length := by
  induction n generalizing v with
  | zero => rfl
  | succ n ih =>
    rw [popcount, ih, List.range_succ_eq_map, List.filter_cons, List.filter_map, Nat.testBit_zero]
    have hshift : ((fun i => v.testBit i) ∘ Nat.succ) = fun i => (v / 2).testBit i := by
      funext i
      exact Nat.testBit_succ ..
    rw [hshift]
    rcases Nat.mod_two_eq_zero_or_one v with h | h <;> simp [h, Nat.add_comm]

theorem popcount_le (n v : Nat) : popcount n v ≤ n := by
  rw [popcount_eq]
  exact (List.length_filter_le _ _).trans (by simp)

/-! ### Bytes -/

theorem leBytes_getElem (n v i : Nat) (h : i < (leBytes n v).length) : ((leBytes n v)[i]).toNat = v / 256 ^ i % 256 := by
  induction n generalizing v i with
  | zero => simp at h
  | succ n ih =>
    cases i with
    | zero => simp [leBytes]
    | succ i =>
      have hi : i < (leBytes n (v / 256)).length := by simpa using h
      simp only [leBytes, List.getElem_cons_succ, ih (v / 256) i hi, Nat.div_div_eq_div_mul, Nat.pow_succ']

/-- Byte `i` of a number built from bytes. -/
theorem leNat_byte (bs : List Byte) {i : Nat} (h : i < bs.length) : leNat bs / 256 ^ i % 256 = (bs[i]).toNat := by
  induction bs generalizing i with
  | nil => simp at h
  | cons b bs ih =>
    have hb := b.isLt
    cases i with
    | zero => simp only [leNat, Nat.pow_zero, Nat.div_one, List.getElem_cons_zero]; omega
    | succ i =>
      have hhead : leNat (b :: bs) / 256 = leNat bs := by simp only [leNat]; omega
      rw [Nat.pow_succ', ← Nat.div_div_eq_div_mul, hhead, List.getElem_cons_succ]
      exact ih (by simpa using h)

theorem toNat_word_leNat {bs : List Byte} (h : bs.length = 8) : (word (leNat bs)).toNat = leNat bs :=
  toNat_word (by have := leNat_lt bs; rw [h] at this; exact this)

theorem unEval_rev8 (a : Word) {i : Nat} (hi : i < 8) :
    (unEval .rev8 a).toNat / 256 ^ i % 256 = a.toNat / 256 ^ (7 - i) % 256 := by
  rw [unEval, toNat_word_leNat (by simp), leNat_byte _ (by simpa using hi), List.getElem_reverse, leBytes_getElem]
  simp

theorem unEval_orcb (a : Word) {i : Nat} (hi : i < 8) :
    (unEval .orcb a).toNat / 256 ^ i % 256 = if a.toNat / 256 ^ i % 256 = 0 then 0 else 255 := by
  have hlen : i < (leBytes 8 a.toNat).length := by simpa using hi
  rw [unEval, toNat_word_leNat (by simp), leNat_byte _ (by simpa using hi), List.getElem_map, ← leBytes_getElem 8 a.toNat i hlen]
  unfold orcByte
  split
  · next h => simp [h]
  · next h =>
    have hne : ((leBytes 8 a.toNat)[i]).toNat ≠ 0 := fun e => h (BitVec.eq_of_toNat_eq e)
    rw [if_neg hne]; rfl

/-! ### The instructions -/

/-- An integer instruction retires with its result. -/
theorem exec_integerOp {s : State} (hc : s.hasCore s.cur = true) (op : IntegerOp) :
    exec (.integerOp op) s =
      .next (s.retiring (fun c => (c.wx (intResult op (s.core s.cur)).1 (intResult op (s.core s.cur)).2).after)) := by
  let f (c : CoreSt) : CoreSt := c.wx (intResult op (s.core s.cur)).1 (intResult op (s.core s.cur)).2
  have hrun := runScalar_ok (p := parcelOf (.integerOp op)) (m := do let c ← me; wxM (intResult op c).1 (intResult op c).2; advance) hc rfl
  exact hrun.trans (congrArg _ (retire_advance s f (by intro c; simp [f])))

/-- Results of 64 bits. -/
theorem rrEval_results (a b : Word) :
    (rrEval .add a b).toNat = (a.toNat + b.toNat) % 2 ^ 64 ∧ rrEval .sub a b + b = a ∧
    rrEval .slt a b = (if a.toInt < b.toInt then 1 else 0) ∧ rrEval .sltu a b = (if a.toNat < b.toNat then 1 else 0) ∧
    rrEval .sh1add a b = 2#64 * a + b ∧ rrEval .sh2add a b = 4#64 * a + b ∧ rrEval .sh3add a b = 8#64 * a + b ∧
    (rrEval .min a b).toInt = min a.toInt b.toInt ∧ (rrEval .max a b).toInt = max a.toInt b.toInt ∧
    (rrEval .minu a b).toNat = min a.toNat b.toNat ∧ (rrEval .maxu a b).toNat = max a.toNat b.toNat := by
  refine ⟨BitVec.toNat_add a b, BitVec.sub_add_cancel a b, bool64_eq_ite (slt_iff a b), bool64_eq_ite (ult_iff a b),
    congrArg (· + b) (shiftLeft_eq_mul a 1), congrArg (· + b) (shiftLeft_eq_mul a 2), congrArg (· + b) (shiftLeft_eq_mul a 3),
    ?_, ?_, ?_, ?_⟩
  all_goals
    simp only [rrEval, slt_iff, ult_iff]
    split <;> omega

/-- The forms of Zba that take the low 32 bits as unsigned. -/
theorem rrEval_uw (a b : Word) :
    let z := word (a.toNat % 2 ^ 32)
    rrEval .adduw a b = z + b ∧ rrEval .sh1adduw a b = 2#64 * z + b ∧ rrEval .sh2adduw a b = 4#64 * z + b ∧
      rrEval .sh3adduw a b = 8#64 * z + b := by
  intro z
  have hz : zx32 a = z := zx32_eq a
  refine ⟨?_, ?_, ?_, ?_⟩
  all_goals simp only [rrEval, hz, shiftLeft_eq_mul, z]
  all_goals rfl

/-- Results of the `W` forms: those of the low 32 bits, sign-extended. -/
theorem rrEval_w (x y : Word) :
    let a : BitVec 32 := x.setWidth 32
    let b : BitVec 32 := y.setWidth 32
    let k := b.toNat % 32
    let low (op : RROp) (v : BitVec 32) : Prop := rrEval op x y = v.signExtend 64
    low .addw (a + b) ∧ low .subw (a - b) ∧ low .mulw (a * b) ∧ low .sllw (a <<< k) ∧ low .srlw (a >>> k) ∧
    low .sraw (a.sshiftRight k) ∧ low .rolw (a.rotateLeft k) ∧ low .rorw (a.rotateRight k) ∧
    (b = 0 → low .divw (BitVec.allOnes 32) ∧ low .divuw (BitVec.allOnes 32) ∧ low .remw a ∧ low .remuw a) ∧
    (b ≠ 0 → low .divuw (BitVec.ofNat 32 (a.toNat / b.toNat)) ∧ low .remuw (BitVec.ofNat 32 (a.toNat % b.toNat)) ∧
      low .divw (BitVec.ofInt 32 (a.toInt.tdiv b.toInt)) ∧ low .remw (BitVec.ofInt 32 (a.toInt.tmod b.toInt))) := by
  intro a b k low
  have hk : sh5 y = k := sh5_eq y
  refine ⟨rfl, rfl, rfl, ?_, ?_, ?_, ?_, ?_, fun hb => ?_, fun hb => ?_⟩
  case refine_6 =>
    simp only [low, rrEval, divS, divU, remS, remU, lo32]
    exact ⟨congrArg sx32 (if_pos hb), congrArg sx32 (if_pos hb), congrArg sx32 (if_pos hb), congrArg sx32 (if_pos hb)⟩
  case refine_7 =>
    simp only [low, rrEval, divS, divU, remS, remU, lo32]
    exact ⟨congrArg sx32 (if_neg hb), congrArg sx32 (if_neg hb), congrArg sx32 (if_neg hb), congrArg sx32 (if_neg hb)⟩
  all_goals
    simp only [low, rrEval, hk]
    rfl

theorem unEval_clz_ctz {a : Word} (h : a ≠ 0) :
    (unEval .clz a).toNat < 64 ∧ 2 ^ (63 - (unEval .clz a).toNat) ≤ a.toNat ∧ a.toNat < 2 ^ (64 - (unEval .clz a).toNat) ∧
      (unEval .ctz a).toNat < 64 ∧ 2 ^ (unEval .ctz a).toNat ∣ a.toNat ∧ ¬ 2 ^ ((unEval .ctz a).toNat + 1) ∣ a.toNat := by
  have h0 : a.toNat ≠ 0 := fun e => h (BitVec.eq_of_toNat_eq e)
  obtain ⟨hclz, hlo, hhi⟩ := clzNat_bounds h0 a.isLt
  obtain ⟨hctz, hdvd, hndvd⟩ := ctzNat_dvd h0 a.isLt
  rw [unEval, unEval, toNat_word (by omega), toNat_word (by omega)]
  exact ⟨hclz, hlo, hhi, hctz, hdvd, hndvd⟩

theorem unEval_clzw_ctzw {x : Word} (h : x.setWidth 32 ≠ 0#32) :
    let a : BitVec 32 := x.setWidth 32
    (unEval .clzw x).toNat < 32 ∧ 2 ^ (31 - (unEval .clzw x).toNat) ≤ a.toNat ∧ a.toNat < 2 ^ (32 - (unEval .clzw x).toNat) ∧
      (unEval .ctzw x).toNat < 32 ∧ 2 ^ (unEval .ctzw x).toNat ∣ a.toNat ∧ ¬ 2 ^ ((unEval .ctzw x).toNat + 1) ∣ a.toNat := by
  intro a
  have ha : x.toNat % 2 ^ 32 = a.toNat := (BitVec.toNat_setWidth 32 x).symm
  have h0 : a.toNat ≠ 0 := fun e => h (BitVec.eq_of_toNat_eq e)
  obtain ⟨hclz, hlo, hhi⟩ := clzNat_bounds h0 a.isLt
  obtain ⟨hctz, hdvd, hndvd⟩ := ctzNat_dvd h0 a.isLt
  rw [unEval, unEval, ha, toNat_word (by omega), toNat_word (by omega)]
  exact ⟨hclz, hlo, hhi, hctz, hdvd, hndvd⟩

/-- A word of which the low 32 bits are zero. -/
theorem unEval_zerow {x : Word} (h : x.setWidth 32 = 0#32) : unEval .clzw x = 32 ∧ unEval .ctzw x = 32 := by
  have h0 : x.toNat % 2 ^ 32 = 0 := (BitVec.toNat_setWidth 32 x).symm.trans (congrArg BitVec.toNat h)
  rw [unEval, unEval, h0, clzNat_zero, ctzNat_zero]
  exact ⟨rfl, rfl⟩

theorem zexth_eq (a : Word) : unEval .zexth a = (a.setWidth 16).setWidth 64 := by
  apply BitVec.eq_of_toNat_eq
  rw [unEval, toNat_word (by omega), BitVec.toNat_setWidth, BitVec.toNat_setWidth]
  omega

theorem unEval_cpop (a : Word) : (unEval .cpop a).toNat = ((List.range 64).filter (fun i => a.getLsbD i)).length := by
  rw [unEval, toNat_word (by have := popcount_le 64 a.toNat; omega), popcount_eq]
  rfl

theorem unEval_cpopw (x : Word) :
    (unEval .cpopw x).toNat = ((List.range 32).filter (fun i => (x.setWidth 32).getLsbD i)).length := by
  rw [unEval, toNat_word (by have := popcount_le 32 x.toNat; omega), popcount_eq]
  congr 1
  apply List.filter_congr
  intro i hi
  simp [List.mem_range.mp hi]
  rfl

/-- An upper immediate is a number of 32 bits whose low 12 are zero. -/
theorem upper_eq (up : BitVec 20) : sextNat 32 (up.toNat * 4096) = (up ++ 0#12).signExtend 64 := by
  have hjoin : BitVec.ofNat 32 (up.toNat * 4096 + (0#12).toNat) = up ++ 0#12 := ofNat_append up 0#12
  simp [sextNat_eq, ← hjoin]

theorem immEval_results (a i : Word) :
    immEval .slti a i = (if a.toInt < i.toInt then 1 else 0) ∧ immEval .sltiu a i = (if a.toNat < i.toNat then 1 else 0) ∧
    immEval .addiw a i = ((a + i).setWidth 32).signExtend 64 :=
  ⟨bool64_eq_ite (slt_iff a i), bool64_eq_ite (ult_iff a i), congrArg sx32 (BitVec.setWidth_add a i (by decide)).symm⟩

/-- Settles O1: the instruction retires, and the results follow operation by operation. -/
theorem integerOpResult : Obligations.IntegerOpResult := by
  refine ⟨fun s op hc => exec_integerOp hc op, fun _ _ _ _ _ _ _ _ _ _ _ => ⟨rfl, rfl, rfl, rfl, rfl, rfl⟩, ?words, ?lows, ?imms⟩
  case words =>
    intro c rd r1 r2 a b k res one
    obtain ⟨hadd, hsub, hslt, hsltu, h1, h2, h3, hmin, hmax, hminu, hmaxu⟩ := rrEval_results a b
    refine ⟨hadd, hsub, rrEval_sll a b, rrEval_srl a b, rrEval_sra a b, hslt, hsltu, fun i hi => ?_, rrEval_mul_toNat a b,
      rrEval_mulh a b, rrEval_mulhsu a b, rrEval_mulhu a b, fun hb => ?_, rrEval_div_ne_zero a, fun hb => ?_, h1, h2, h3, rrEval_uw a b,
      hmin, hmax, hminu, hmaxu, fun ha => ?_, unEval_clz_ctz, unEval_cpop a, sextNat_eq 8 a.toNat, sextNat_eq 16 a.toNat, ?_,
      fun i hi => ⟨unEval_rev8 a hi, unEval_orcb a hi⟩⟩
    · obtain ⟨hxor, hor, hand, handn, horn, hxnor⟩ := rrEval_bits hi a b
      exact ⟨hxor, hor, hand, handn, horn, hxnor, rrEval_rol hi a b, rrEval_ror hi a b⟩
    · show rrEval .div a b = _ ∧ rrEval .divu a b = _ ∧ rrEval .rem a b = _ ∧ rrEval .remu a b = _
      rw [hb]; exact rrEval_div_zero a
    · show rrEval .div a b = _ ∧ rrEval .rem a b = _
      rw [hb]; exact rrEval_div_neg_one a
    · show unEval .clz a = _ ∧ unEval .ctz a = _
      rw [ha]; exact ⟨rfl, rfl⟩
    · exact zexth_eq a
  case lows =>
    intro c rd r1 r2 a b k low one
    obtain ⟨hadd, hsub, hmul, hsll, hsrl, hsra, hrol, hror, hzero, hne⟩ := rrEval_w (c.rx r1) (c.rx r2)
    refine ⟨hadd, hsub, hmul, hsll, hsrl, hsra, hrol, hror, hzero, hne, fun ha => ?_, unEval_clzw_ctzw, unEval_cpopw (c.rx r1)⟩
    exact unEval_zerow ha
  case imms =>
    intro c rd r1 imm sh up a i al k5 res shf
    obtain ⟨hslti, hsltiu, haddiw⟩ := immEval_results a i
    exact ⟨rfl, hslti, hsltiu, rfl, rfl, rfl, haddiw, rfl, rfl, rfl, rfl, rfl, rfl, rfl, rfl, rfl, upper_eq up,
      congrArg (c.pc + ·) (upper_eq up)⟩

end Sys2Proof.Machine
end

section
/-! Atomics, LR and SC (spec/02 R29, spec/03 R73, R74, spec/09 R216, R217, spec/10 R249) of a core with nothing on its way. -/

namespace Sys2Proof.Machine

/-! ### Places and the memory behind them -/

theorem Place.takesAtomic_of_plain {p : Place} (h : p.plain = true) (b : Bool) : p.takesAtomic b = true ∧ p.isHost = false := by
  cases p <;> simp_all [Place.plain, Place.takesAtomic, Place.isHost]

theorem Place.takesLrSc_eq_plain (p : Place) : p.takesLrSc = p.plain := by cases p <;> rfl

theorem Place.takesAtomic_eq_false (p : Place) (b : Bool) :
    p.takesAtomic b = false ↔ (∃ a, p = .reg a) ∨ (∃ a, p = .dev a) ∨ (b = false ∧ ∃ a, p = .hostBulk a) := by
  cases p <;> simp [Place.takesAtomic]

/-- Reaching a place that answers leaves what may turn on visibility as it was, and the same core. -/
theorem reach_frame {s : State} {asid : Nat} {p : Place} {n : Nat} (hl : ∀ d, s.servedBy asid p = some d → s.answers d = true) :
    (s.reach asid p n).watched = s.watched ∧ (s.reach asid p n).cur = s.cur ∧ (s.reach asid p n).cores = s.cores := by
  obtain ⟨cs, q, hc⟩ := reach_ctxs n false hl
  rw [hc]
  exact ⟨rfl, rfl, rfl⟩

theorem State.core_of_cores {s t : State} (h : t.cores = s.cores) (id : CoreId) : t.core id = s.core id := by
  simp [State.core, State.core?, h]

/-- A place outside the package's dies has no banks and no die that serves it. -/
theorem reach_host {s : State} {p : Place} (h : p.isHost = true) (asid n : Nat) : s.reach asid p n = s ∧ s.Open p n := by
  cases p with
  | hostBulk a => exact ⟨rfl, rfl, fun _ hd => nomatch hd⟩
  | hostCoh a => exact ⟨rfl, rfl, fun _ hd => nomatch hd⟩
  | scratch | hbm | reg | dev => cases h

theorem watched_map {s : State} {f : CoreSt → CoreSt} (h : s.watched = false) (hf : ∀ c, (f c).early = c.early ∧ (f c).fits = c.fits) :
    ({ s with cores := s.cores.map f } : State).watched = false := by
  simpa [State.watched, hf] using h

theorem CoreSt.breakHbm_seen (c : CoreSt) (pa n : Nat) : (c.breakHbm pa n).early = c.early ∧ (c.breakHbm pa n).fits = c.fits := by
  unfold CoreSt.breakHbm
  split
  · split <;> exact ⟨rfl, rfl⟩
  · exact ⟨rfl, rfl⟩

theorem CoreSt.breakScratch_seen (c : CoreSt) (asid l a n : Nat) :
    (c.breakScratch asid l a n).early = c.early ∧ (c.breakScratch asid l a n).fits = c.fits := by
  unfold CoreSt.breakScratch
  split
  · split <;> exact ⟨rfl, rfl⟩
  · exact ⟨rfl, rfl⟩

/-- A write of device memory or of a scratchpad, where nothing turns on visibility, leaves it so. -/
theorem storing_frame {s : State} {p : Place} (hp : p.plain = true) (hw : s.watched = false) (bs : List Byte) :
    (s.storing p bs).watched = false ∧ (s.storing p bs).cur = s.cur := by
  cases p with
  | scratch l a =>
    simp only [State.storing, State.put, State.writeScratch, changed_unwatched hw]
    have hmod := watched_modCore hw ⟨s.cur.asid, l⟩ (f := fun c => { c with
      scratch := c.scratch.write a bs, stale := dropStale c.stale false a bs.length }) fun _ => ⟨rfl, rfl⟩
    exact ⟨watched_map hmod fun c => c.breakScratch_seen ..,  rfl⟩
  | hbm sl a =>
    simp only [State.storing, State.put, State.hbmWrite, changed_unwatched hw]
    exact ⟨watched_map (s := { s with hbm := s.hbm.write a bs, ktag := tagWrite s.ktag a bs.length (s.keySt sl).tag }) hw
      fun c => c.breakHbm_seen .., rfl⟩
  | reg | hostBulk | hostCoh | dev => cases hp

/-- Outside every window a write is performed and not logged. -/
theorem perform_plain {s : State} {p : Place} (hp : p.plain = true) (seq : Nat) (bs : List Byte) (atom : Bool) (form : LogForm)
    (first : Bool) (va : Word) : s.perform s.cur none seq p bs atom form first va = .done (s.storing p bs) := by
  cases p with
  | scratch | hbm => rfl
  | reg | hostBulk | hostCoh | dev => cases hp

theorem hostAccept_unwatched {s : State} (h : s.watched = false) (pa : Nat) (bs : List Byte) (by_ : Option CoreId) :
    s.hostAccept pa bs by_ = { s with host := s.host.write pa bs, hostOut := s.hostOut ++ [(pa, bs)] } := by
  simp [State.hostAccept, changed_unwatched h]

/-! ### The word of an atomic -/

theorem seenM_quiet {s : State} (h : (s.core s.cur).stale = []) (keep : Stale → Bool) : seenM keep s = .ok ((), s) := by
  simp [seenM, h]

/-- An atomic that has seen every engine write reads its word as it stands in memory. -/
theorem atomRead_reach {s : State} (hq : s.Quiet) {p : Place} {n : Nat} (hp : p.plain = true) (ho : s.Open p n) (weak : Bool) :
    atomRead p n weak (s.reach s.cur.asid p n) = .ok ((s.peek p n, []), s.reach s.cur.asid p n) := by
  obtain ⟨cs, q, hc⟩ := reach_ctxs n false ho.die
  rw [hc]
  cases p with
  | scratch l a =>
    have hstale : (({ s with ctxs := cs, bankq := q } : State).core s.cur).stale = [] := hq.stale
    have hsee : ({ s with ctxs := cs, bankq := q } : State).seeStale s.cur false a n = ({ s with ctxs := cs, bankq := q }, []) := by
      simp [State.seeStale, hstale]
    unfold atomRead
    simp only [M.bind_myId]
    by_cases hl : l = s.cur.l
    · subst hl
      rw [if_pos rfl, M.bind_ok (seenM_quiet hstale _)]
      cases weak <;> simp only [hsee, if_true, Bool.false_eq_true, if_false] <;> rfl
    · rw [if_neg hl]; rfl
  | hbm sl a =>
    have hbytes := State.hbmBytes_congr (s := s) (t := { s with ctxs := cs, bankq := q }) rfl rfl rfl sl a n
    exact congrArg (fun b => Except.ok ((b, []), ({ s with ctxs := cs, bankq := q } : State))) hbytes
  | reg | hostBulk | hostCoh | dev => cases hp

/-- A machine after an atomic on the word at a plain place: a value that it writes stands there. -/
def State.afterRmw (s : State) (p : Place) (n : Nat) : Option Nat → State
  | none => s
  | some v => s.storing p (leBytes n v)

/-- The store number that an atomic or a held SC takes. -/
def CoreSt.numbered (c : CoreSt) : CoreSt := { c with storeSeq := c.storeSeq + 1 }

theorem afterRmw_frame {s : State} {p : Place} (hp : p.plain = true) (hw : s.watched = false) (n : Nat) (r : Option Nat) :
    (s.afterRmw p n r).watched = false ∧ (s.afterRmw p n r).cur = s.cur := by
  cases r with
  | none => exact ⟨hw, rfl⟩
  | some v => exact storing_frame hp hw _

section
variable {s : State} (hq : s.Quiet) {p : Place}
include hq

theorem reach_unwatched {n : Nat} (ho : s.Open p n) : (s.reach s.cur.asid p n).watched = false :=
  (reach_frame ho.die).1.trans hq.watched

/-- An atomic on device memory or a scratchpad, outside every window. -/
theorem rmwM_plain {va : Word} {op : Rmw} (bulk : Bool) (hp : p.plain = true) (ho : s.Open p op.size)
    (hr : s.resolve s.cur (s.core s.cur).runtime va op.size .amo = .ok p) :
    let old := leNat (s.peek p op.size)
    let t := (s.reach s.cur.asid p op.size).afterRmw p op.size (op.eval old)
    rmwM va bulk op s = .ok (old, t.modCore t.cur CoreSt.numbered) := by
  obtain ⟨htakes, hhost⟩ := Place.takesAtomic_of_plain hp bulk
  obtain ⟨-, hcur, hcores⟩ := reach_frame (n := op.size) ho.die
  have hunw := reach_unwatched hq ho
  have hwin : ((s.reach s.cur.asid p op.size).core s.cur).win.openWin = none := by
    rw [State.core_of_cores hcores]; exact openWin_quiet hq.toStill
  unfold rmwM
  rw [M.bind_ok (watch_quiet hq.toStill ..), M.bind_ok (watch_quiet hq.toStill ..), M.bind_ok (resolveM_ok hq.damage hr)]
  simp only [htakes, Bool.not_true, Bool.false_eq_true, if_false, M.bind_ok (drainM_quiet hq.toStill),
    M.bind_ok (edgeM_quiet hq.toStill _), hhost, M.bind_ok (openPlace_open hq.toClear va false ho),
    M.bind_ok (atomRead_reach hq hp ho _), M.bind_ok (heedM_reach hq.toStill _ _ ho), M.bind_me, M.bind_get, overlayStale,
    leaveNewer, List.isEmpty_nil, if_true, hcur, hwin]
  cases op.eval (leNat (s.peek p op.size)) with
  | none => rfl
  | some v =>
    have hstore := storing_frame hp hunw (leBytes op.size v)
    have htry : ∀ seq, tryM (fun t => t.perform t.cur none seq p (leBytes op.size v) true (logFormAt va) true va)
        (s.reach s.cur.asid p op.size) = .ok ((), (s.reach s.cur.asid p op.size).storing p (leBytes op.size v)) := fun seq => by
      simp only [tryM, perform_plain hp]
    simp only [M.bind_ok (htry _), M.bind_updM, markStore_unwatched hstore.1]
    rfl

/-- A machine after an atomic on host memory: the link has accepted a value that it writes. -/
def State.afterHostRmw (s : State) (pa n : Nat) : Option Nat → State
  | none => s
  | some v => s.hostAccept pa (leBytes n v) (some s.cur)

/-- The core after its host atomic, which takes a store number and leaves no answer to wait for. -/
def CoreSt.hostNumbered (c : CoreSt) : CoreSt := { c with storeSeq := c.storeSeq + 1, hostAmo := none }

omit hq in
theorem afterHostRmw_frame (hw : s.watched = false) (pa n : Nat) (r : Option Nat) :
    (s.afterHostRmw pa n r).watched = false ∧ (s.afterHostRmw pa n r).cur = s.cur := by
  cases r with
  | none => exact ⟨hw, rfl⟩
  | some v => simp only [State.afterHostRmw, hostAccept_unwatched hw]; exact ⟨hw, trivial⟩

/-- An atomic at host memory outside every window, where the link holds nothing back. -/
theorem hostAtom_quiet (pa : Nat) (op : Rmw) :
    let old := s.host.readNat pa op.size
    let t := s.afterHostRmw pa op.size (op.eval old)
    s.hostAtom s.cur pa op = t.modCore t.cur (fun c => { c with hostAmo := some (some old) }) := by
  simp only [State.hostAtom]
  cases heval : op.eval (s.host.readNat pa op.size) with
  | none => rfl
  | some v =>
    have hframe := afterHostRmw_frame hq.watched pa op.size (some v)
    simp only [State.afterHostRmw] at hframe ⊢
    rw [markStore_unwatched hframe.1, hframe.2]

theorem hostRmw_quiet {op : Rmw} (va : Word) (hp : p.isHost = true) (hout : (s.die (s.dieOf s.cur)).egress = []) :
    let old := s.host.readNat p.addr op.size
    let t := s.afterHostRmw p.addr op.size (op.eval old)
    hostRmw p va op s = .ok (old, t.modCore t.cur CoreSt.hostNumbered) := by
  obtain ⟨hreach, ho⟩ := reach_host (s := s) hp s.cur.asid op.size
  have hopen : openPlace p op.size va false s = .ok ((), s) := (openPlace_open hq.toClear va false ho).trans (by rw [hreach])
  unfold hostRmw
  simp only [M.bind_myId, M.bind_ok (edgeM_quiet hq.toStill _), M.bind_ok hopen, M.bind_me, hq.amo, openWin_quiet hq.toStill, M.bind_get,
    hout, List.any_nil, Bool.false_eq_true, if_false, M.bind_ok (heedM_unwatched hq.watched _ _ _), M.bind_updM, M.bind_takeSeq,
    M.pure_apply, hostAtom_quiet hq]
  have hcur := (afterHostRmw_frame hq.watched p.addr op.size (op.eval (s.host.readNat p.addr op.size))).2
  rw [← hcur]
  simp only [State.modCore_cur]
  rw [modCore_two _ _ _ _ (by intro c; rfl), modCore_two _ _ _ _ (by intro c; rfl)]
  rfl

theorem rmwM_host {va : Word} {op : Rmw} {bulk : Bool} (hp : p.isHost = true) (hout : (s.die (s.dieOf s.cur)).egress = [])
    (hr : s.resolve s.cur (s.core s.cur).runtime va op.size .amo = .ok p) (htakes : p.takesAtomic bulk = true) :
    let old := s.host.readNat p.addr op.size
    let t := s.afterHostRmw p.addr op.size (op.eval old)
    rmwM va bulk op s = .ok (old, t.modCore t.cur CoreSt.hostNumbered) := by
  unfold rmwM
  rw [M.bind_ok (watch_quiet hq.toStill ..), M.bind_ok (watch_quiet hq.toStill ..), M.bind_ok (resolveM_ok hq.damage hr)]
  simp only [htakes, Bool.not_true, Bool.false_eq_true, if_false, M.bind_ok (drainM_quiet hq.toStill),
    M.bind_ok (edgeM_quiet hq.toStill _), hp, if_true]
  exact hostRmw_quiet hq va hp hout

theorem rmwM_refused {va : Word} {op : Rmw} {bulk : Bool}
    (hr : s.resolve s.cur (s.core s.cur).runtime va op.size .amo = .ok p) (htakes : p.takesAtomic bulk = false) :
    rmwM va bulk op s = .error (.trap (refusalTrap 0x07 va false)) := by
  unfold rmwM
  rw [M.bind_ok (watch_quiet hq.toStill ..), M.bind_ok (watch_quiet hq.toStill ..), M.bind_ok (resolveM_ok hq.damage hr)]
  simp only [htakes, Bool.not_false, if_true]
  rfl

/-! ### AMO and `samo` -/

omit hq in
/-- How an atomic ends: it acquires, writes its destination and moves past its parcel. -/
theorem retire_after {t : State} (f : CoreSt → CoreSt) (hf : ∀ c, (f c).id = c.id) (rd : Reg) (v : Word) :
    (((t.modCore t.cur f).modCore t.cur (fun c => c.wx rd v)).modCore t.cur (fun c => { c with pc := c.pc + 4 })).retire =
      t.retiring (fun c => ((f c).wx rd v).after) := by
  rw [modCore_two _ _ _ _ hf, retire_advance _ _ (by intro c; simp [hf])]

omit hq in
theorem acquire_write_advance {t : State} (ht : t.watched = false) {f : CoreSt → CoreSt}
    (hf : ∀ c, (f c).early = c.early ∧ (f c).fits = c.fits) (sc : Scope) (rd : Reg) (v : Word) :
    (do acquireNow sc; wxM rd v; advance) (t.modCore t.cur f) =
      .ok ((), ((t.modCore t.cur f).modCore t.cur (fun c => c.wx rd v)).modCore t.cur (fun c => { c with pc := c.pc + 4 })) := by
  rw [M.bind_ok (acquireNow_unwatched (watched_modCore ht _ hf) sc)]
  rfl

/-- A release that the instruction asks for or does not, of a core with nothing on its way. -/
theorem release_if_quiet {β : Type} (rl : Bool) (sc : Scope) (k : M β) :
    (if rl = true then (do release sc; k) else k) s = k s := by
  cases rl with
  | false => rfl
  | true => exact M.bind_ok (release_quiet hq.toStill sc)

section
variable {o : AmoOp} {dbl aq rl : Bool} {rd rs1 rs2 : Reg}

/-- An `amo` whose read-modify-write answers. -/
theorem exec_amo {t : State} {f : CoreSt → CoreSt} {old : Nat} (ha : ((s.core s.cur).rx rs1).toNat % dblBytes dbl = 0)
    (hrmw : rmwM ((s.core s.cur).rx rs1) (amoBulk o && Config.hostAtomicOps (dblBytes dbl))
      (.amo o (dblBytes dbl) (((s.core s.cur).rx rs2).toNat % 2 ^ (8 * dblBytes dbl))) s = .ok (old, t.modCore t.cur f))
    (ht : t.watched = false) (hf : ∀ c, (f c).id = c.id ∧ (f c).early = c.early ∧ (f c).fits = c.fits) :
    exec (.amo o dbl aq rl rd rs1 rs2) s = .next (t.retiring (fun c => ((f c).wx rd (sextNat (8 * dblBytes dbl) old)).after)) := by
  refine (runScalar_ok hq.core ?_).trans (congrArg _ (retire_after f (fun c => (hf c).1) rd _))
  simp only [M.bind_me, M.bind_ok (aligned_ok ha s), release_if_quiet hq, M.bind_ok hrmw]
  exact acquire_write_advance ht (fun c => (hf c).2) _ rd _

/-- A `samo` whose read-modify-write answers. -/
theorem exec_samo {q : SamoOp} {sc : Scope} {off : Bool} {t : State} {f : CoreSt → CoreSt} {old : Nat} {va : Word}
    (hva : va = (s.core s.cur).rx rs1 + (if off then word (dblBytes dbl) else 0)) (ha : va.toNat % dblBytes dbl = 0)
    (hrmw : rmwM va (samoBulk q && Config.hostAtomicOps (dblBytes dbl)) (.samo q (dblBytes dbl)
      (((s.core s.cur).rx rd).toNat % 2 ^ (8 * dblBytes dbl)) (((s.core s.cur).rx rs2).toNat % 2 ^ (8 * dblBytes dbl))) s =
        .ok (old, t.modCore t.cur f))
    (ht : t.watched = false) (hf : ∀ c, (f c).id = c.id ∧ (f c).early = c.early ∧ (f c).fits = c.fits) :
    exec (.samo q sc off dbl rd rs1 rs2) s = .next (t.retiring (fun c => ((f c).wx rd (sextNat (8 * dblBytes dbl) old)).after)) := by
  subst hva
  refine (runScalar_ok hq.core ?_).trans (congrArg _ (retire_after f (fun c => (hf c).1) rd _))
  simp only [M.bind_me, M.bind_ok (aligned_ok ha s), M.bind_ok (release_quiet hq.toStill _), M.bind_ok hrmw]
  exact acquire_write_advance ht (fun c => (hf c).2) (Scope.far sc) rd _

/-- A `samo` on a plain place whose compare and sum give `r`. -/
theorem exec_samo_plain {q : SamoOp} {sc : Scope} {off : Bool} {va : Word} {r : Option Nat}
    (hva : va = (s.core s.cur).rx rs1 + (if off then word (dblBytes dbl) else 0)) (ha : va.toNat % dblBytes dbl = 0)
    (hp : p.plain = true) (ho : s.Open p (dblBytes dbl))
    (hr : s.resolve s.cur (s.core s.cur).runtime va (dblBytes dbl) .amo = .ok p)
    (hv : samoEval q (dblBytes dbl) (((s.core s.cur).rx rd).toNat % 2 ^ (8 * dblBytes dbl))
      (((s.core s.cur).rx rs2).toNat % 2 ^ (8 * dblBytes dbl)) (leNat (s.peek p (dblBytes dbl))) = r) :
    exec (.samo q sc off dbl rd rs1 rs2) s = .next (((s.reach s.cur.asid p (dblBytes dbl)).afterRmw p (dblBytes dbl) r).retiring
      (fun c => (c.numbered.wx rd (sextNat (8 * dblBytes dbl) (leNat (s.peek p (dblBytes dbl))))).after)) := by
  subst hv
  exact exec_samo hq hva ha (rmwM_plain hq _ hp ho hr) (afterRmw_frame hp (reach_unwatched hq ho) _ _).1 fun _ => ⟨rfl, rfl, rfl⟩

/-- The same at host memory. -/
theorem exec_samo_host {q : SamoOp} {sc : Scope} {off : Bool} {va : Word} {r : Option Nat}
    (hva : va = (s.core s.cur).rx rs1 + (if off then word (dblBytes dbl) else 0)) (ha : va.toNat % dblBytes dbl = 0)
    (hp : p.isHost = true) (hout : (s.die (s.dieOf s.cur)).egress = [])
    (hr : s.resolve s.cur (s.core s.cur).runtime va (dblBytes dbl) .amo = .ok p)
    (htakes : p.takesAtomic (samoBulk q && Config.hostAtomicOps (dblBytes dbl)) = true)
    (hv : samoEval q (dblBytes dbl) (((s.core s.cur).rx rd).toNat % 2 ^ (8 * dblBytes dbl))
      (((s.core s.cur).rx rs2).toNat % 2 ^ (8 * dblBytes dbl)) (s.host.readNat p.addr (dblBytes dbl)) = r) :
    exec (.samo q sc off dbl rd rs1 rs2) s = .next ((s.afterHostRmw p.addr (dblBytes dbl) r).retiring
      (fun c => (c.hostNumbered.wx rd (sextNat (8 * dblBytes dbl) (s.host.readNat p.addr (dblBytes dbl)))).after)) := by
  subst hv
  exact exec_samo hq hva ha (rmwM_host hq hp hout hr htakes) (afterHostRmw_frame hq.watched _ _ _).1 fun _ => ⟨rfl, rfl, rfl⟩

/-- An atomic on a place that takes none of its kind. -/
theorem exec_amo_refused (ha : ((s.core s.cur).rx rs1).toNat % dblBytes dbl = 0)
    (hr : s.resolve s.cur (s.core s.cur).runtime ((s.core s.cur).rx rs1) (dblBytes dbl) .amo = .ok p)
    (htakes : p.takesAtomic (amoBulk o && Config.hostAtomicOps (dblBytes dbl)) = false) :
    exec (.amo o dbl aq rl rd rs1 rs2) s = s.refuses (.amo o dbl aq rl rd rs1 rs2) 0x07 ((s.core s.cur).rx rs1) := by
  refine runScalar_refuses hq.core ?_
  simp only [M.bind_me, M.bind_ok (aligned_ok ha s), release_if_quiet hq]
  exact M.bind_error (rmwM_refused hq hr htakes)

theorem exec_samo_refused {q : SamoOp} {sc : Scope} {off : Bool} {va : Word}
    (hva : va = (s.core s.cur).rx rs1 + (if off then word (dblBytes dbl) else 0)) (ha : va.toNat % dblBytes dbl = 0)
    (hr : s.resolve s.cur (s.core s.cur).runtime va (dblBytes dbl) .amo = .ok p)
    (htakes : p.takesAtomic (samoBulk q && Config.hostAtomicOps (dblBytes dbl)) = false) :
    exec (.samo q sc off dbl rd rs1 rs2) s = s.refuses (.samo q sc off dbl rd rs1 rs2) 0x07 va := by
  subst hva
  refine runScalar_refuses hq.core ?_
  simp only [M.bind_me, M.bind_ok (aligned_ok ha s), M.bind_ok (release_quiet hq.toStill _)]
  exact M.bind_error (rmwM_refused hq hr htakes)

/-! ### LR and SC -/

omit hq in
/-- How a SC ends: it acquires and moves past its parcel. -/
theorem acquire_advance {t : State} {id : CoreId} (hid : t.cur = id) (ht : t.watched = false) {f : CoreSt → CoreSt}
    (hf : ∀ c, (f c).early = c.early ∧ (f c).fits = c.fits) (sc : Scope) :
    (do acquireNow sc; advance) (t.modCore id f) = .ok ((), (t.modCore id f).modCore id (fun c => { c with pc := c.pc + 4 })) := by
  subst hid
  rw [M.bind_ok (acquireNow_unwatched (watched_modCore ht _ hf) sc)]
  rfl

/-- LR at an open place. -/
theorem exec_lr (hp : p.plain = true) (ha : ((s.core s.cur).rx rs1).toNat % dblBytes dbl = 0) (ho : s.Open p (dblBytes dbl))
    (hr : s.resolve s.cur (s.core s.cur).runtime ((s.core s.cur).rx rs1) (dblBytes dbl) .load = .ok p) :
    exec (.lr dbl aq rl rd rs1) s = .next ((s.reach s.cur.asid p (dblBytes dbl)).retiring (fun x =>
      (({ x with resv := some p.unit }).wx rd (sextNat (8 * dblBytes dbl) (leNat (s.peek p (dblBytes dbl))))).after)) := by
  refine (runScalar_ok hq.core ?_).trans (congrArg _ (retire_after (fun x => { x with resv := some p.unit }) (fun _ => rfl) rd _))
  have htakes : p.takesLrSc = true := (Place.takesLrSc_eq_plain p).trans hp
  simp only [M.bind_me, M.bind_ok (aligned_ok ha s), release_if_quiet hq, M.bind_ok (watch_quiet hq.toStill _ _ _),
    M.bind_ok (resolveM_ok hq.damage hr), htakes, Bool.not_true, Bool.false_eq_true, if_false, M.bind_ok (drainM_quiet hq.toStill),
    M.bind_ok (edgeM_quiet hq.toStill _), M.bind_ok (openPlace_open hq.toClear _ false ho), M.bind_ok (atomRead_reach hq hp ho _),
    M.bind_ok (heedM_reach hq.toStill _ _ ho), M.bind_modMe]
  exact acquire_write_advance (reach_unwatched hq ho) (f := fun x => { x with resv := some p.unit }) (fun _ => ⟨rfl, rfl⟩) _ rd _

/-- SC at an open place: what it does once its place is open turns on the reservation. -/
theorem exec_sc (hp : p.plain = true) (ha : ((s.core s.cur).rx rs1).toNat % dblBytes dbl = 0) (ho : s.Open p (dblBytes dbl))
    (hr : s.resolve s.cur (s.core s.cur).runtime ((s.core s.cur).rx rs1) (dblBytes dbl) .store = .ok p) :
    ((s.core s.cur).resv = some p.unit →
      exec (.sc dbl aq rl rd rs1 rs2) s =
        .next (((s.reach s.cur.asid p (dblBytes dbl)).storing p (leBytes (dblBytes dbl) ((s.core s.cur).rx rs2).toNat)).retiring
          (fun x => ({ (x.numbered.wx rd 0) with resv := none }).after))) ∧
    ((s.core s.cur).resv ≠ some p.unit →
      exec (.sc dbl aq rl rd rs1 rs2) s = .next ((s.reach s.cur.asid p (dblBytes dbl)).retiring
        (fun x => ({ x.wx rd 1 with resv := none }).after))) := by
  have htakes : p.takesLrSc = true := (Place.takesLrSc_eq_plain p).trans hp
  obtain ⟨-, hcur, hcores⟩ := reach_frame (n := dblBytes dbl) ho.die
  have hcore := State.core_of_cores hcores s.cur
  have hunw := reach_unwatched hq ho
  have hopen := openPlace_open hq.toClear ((s.core s.cur).rx rs1) false ho
  constructor <;> intro hresv
  · have hstore := storing_frame hp hunw (leBytes (dblBytes dbl) ((s.core s.cur).rx rs2).toNat)
    refine (runScalar_ok hq.core ?_).trans (congrArg _ (retire_advance _ (fun x => { (x.numbered.wx rd 0) with resv := none })
      (by intro c; simp [CoreSt.numbered])))
    have htry : ∀ seq, tryM (fun t => t.perform t.cur none seq p (leBytes (dblBytes dbl) ((s.core s.cur).rx rs2).toNat) true
        (logFormAt ((s.core s.cur).rx rs1)) true) (s.reach s.cur.asid p (dblBytes dbl)) =
        .ok ((), (s.reach s.cur.asid p (dblBytes dbl)).storing p (leBytes (dblBytes dbl) ((s.core s.cur).rx rs2).toNat)) := fun seq => by
      simp only [tryM, perform_plain hp]
    simp only [M.bind_me, M.bind_ok (aligned_ok ha s), release_if_quiet hq, M.bind_ok (watch_quiet hq.toStill _ _ _),
      M.bind_ok (resolveM_ok hq.damage hr), htakes, Bool.not_true, Bool.false_eq_true, if_false, M.bind_ok (drainM_quiet hq.toStill),
      M.bind_ok (edgeM_quiet hq.toStill _), M.bind_ok hopen, hcur, hcore, hresv, if_true, M.bind_get, openWin_quiet hq.toStill,
      M.bind_ok (htry _), M.bind_updM, markStore_unwatched hstore.1, M.bind_takeSeq, M.bind_wxM, M.bind_modMe, State.modCore_cur]
    rw [modCore_two _ _ _ _ (by intro c; simp), modCore_two _ _ _ _ (by intro c; simp)]
    exact acquire_advance rfl hstore.1 (f := fun x => { (x.numbered.wx rd 0) with resv := none }) (fun c => by simp [CoreSt.numbered]) _
  · refine (runScalar_ok hq.core ?_).trans (congrArg _ (retire_advance_at hcur (fun x => { x.wx rd 1 with resv := none }) (by intro c; simp)))
    simp only [M.bind_me, M.bind_ok (aligned_ok ha s), release_if_quiet hq, M.bind_ok (watch_quiet hq.toStill _ _ _),
      M.bind_ok (resolveM_ok hq.damage hr), htakes, Bool.not_true, Bool.false_eq_true, if_false, M.bind_ok (drainM_quiet hq.toStill),
      M.bind_ok (edgeM_quiet hq.toStill _), M.bind_ok hopen, hcur, hcore, hresv, M.bind_wxM, M.bind_modMe, State.modCore_cur]
    rw [modCore_two _ _ _ _ (by intro c; simp)]
    exact acquire_advance hcur hunw (f := fun x => { x.wx rd 1 with resv := none }) (fun c => by simp) _

/-- LR and SC outside device memory and scratchpads are refused. -/
theorem exec_lr_refused (hp : p.plain = false) (ha : ((s.core s.cur).rx rs1).toNat % dblBytes dbl = 0)
    (hr : s.resolve s.cur (s.core s.cur).runtime ((s.core s.cur).rx rs1) (dblBytes dbl) .load = .ok p) :
    exec (.lr dbl aq rl rd rs1) s = s.refuses (.lr dbl aq rl rd rs1) 0x07 ((s.core s.cur).rx rs1) := by
  have htakes : p.takesLrSc = false := (Place.takesLrSc_eq_plain p).trans hp
  refine runScalar_refuses hq.core ?_
  simp only [M.bind_me, M.bind_ok (aligned_ok ha s), release_if_quiet hq, M.bind_ok (watch_quiet hq.toStill _ _ _),
    M.bind_ok (resolveM_ok hq.damage hr), htakes, Bool.not_false, if_true]
  rfl

theorem exec_sc_refused (hp : p.plain = false) (ha : ((s.core s.cur).rx rs1).toNat % dblBytes dbl = 0)
    (hr : s.resolve s.cur (s.core s.cur).runtime ((s.core s.cur).rx rs1) (dblBytes dbl) .store = .ok p) :
    exec (.sc dbl aq rl rd rs1 rs2) s = s.refuses (.sc dbl aq rl rd rs1 rs2) 0x07 ((s.core s.cur).rx rs1) := by
  have htakes : p.takesLrSc = false := (Place.takesLrSc_eq_plain p).trans hp
  refine runScalar_refuses hq.core ?_
  simp only [M.bind_me, M.bind_ok (aligned_ok ha s), release_if_quiet hq, M.bind_ok (watch_quiet hq.toStill _ _ _),
    M.bind_ok (resolveM_ok hq.damage hr), htakes, Bool.not_false, if_true]
  rfl

end

end

/-- What the link accepts of a machine where nothing turns on visibility: those bytes of host memory, and nothing of device memory. -/
theorem hostAccept_writes {s : State} (hw : s.watched = false) (pa n v : Nat) (by_ : Option CoreId) :
    (s.hostAccept pa (leBytes n v) by_).host.readNat pa n = v % 2 ^ (8 * n) ∧ (s.hostAccept pa (leBytes n v) by_).hbm = s.hbm ∧
      ∀ b, b < pa ∨ pa + n ≤ b → (s.hostAccept pa (leBytes n v) by_).host.read b = s.host.read b := by
  rw [hostAccept_unwatched hw]
  refine ⟨?_, rfl, fun b hb => Mem.read_write_outside (by rwa [length_leBytes])⟩
  rw [Nat.pow_mul]
  exact Mem.readNat_writeNat s.host pa n v

/-- Settles O7: the read-modify-write of each kind of place, then the way its instruction ends. -/
theorem atomicReserveResult : Obligations.AtomicReserveResult := by
  refine ⟨?plain, ?reserve, ?host⟩
  case plain =>
    intro s o q sc off dbl aq rl rd rs1 rs2 p hq hp c n m va vb old put done ho
    refine ⟨fun ha hr => ?_, fun ha hr => ⟨fun v hv => exec_samo_plain hq rfl ha hp ho hr hv, exec_samo_plain hq rfl ha hp ho hr⟩⟩
    exact exec_amo hq ha (rmwM_plain hq (op := .amo o n ((c.rx rs2).toNat % m)) _ hp ho hr)
      (storing_frame hp (reach_unwatched hq ho) _).1 fun _ => ⟨rfl, rfl, rfl⟩
  case reserve =>
    intro s dbl aq rl rd rs1 rs2 p hq hp c n va ha ho
    exact ⟨fun hr => exec_lr hq hp ha ho hr, fun hr => exec_sc hq hp ha ho hr⟩
  case host =>
    intro s o q sc off dbl aq rl rd rs1 rs2 p hq c n m va vb old put done
    refine ⟨fun v => hostAccept_writes hq.watched _ _ v _, fun hp hout => ⟨fun ha hr ht => ?_, fun ha hr ht =>
        ⟨fun v hv => exec_samo_host hq rfl ha hp hout hr ht hv, exec_samo_host hq rfl ha hp hout hr ht⟩⟩,
      fun ha hr ht => exec_amo_refused hq ha hr ht, fun ha hr ht => exec_samo_refused hq rfl ha hr ht,
      fun hp ha => ⟨fun hr => exec_lr_refused hq hp ha hr, fun hr => exec_sc_refused hq hp ha hr⟩, Place.takesAtomic_eq_false⟩
    exact exec_amo hq ha (rmwM_host hq (op := .amo o n ((c.rx rs2).toNat % m)) hp hout hr ht)
      (afterHostRmw_frame hq.watched p.addr n (some _)).1 fun _ => ⟨rfl, rfl, rfl⟩

end Sys2Proof.Machine
end

section
/-! `epush` and `epushb` of a core with nothing on its way (spec/02 R51, spec/04 R84, spec/09 R226, R227). -/

namespace Sys2Proof.Machine

/-! ### Capturing the words of a push -/

/-- A copy word with the shape record and the exchange block that it captures. -/
def captureCopy (i : Nat) (w : CmdWord) : M PWord := do
  let x ← myCtx
  let (bs, sr) ← checkShape w
  if sr ≠ 0 then trapM ⟨0x0B, word (i + sr * 2 ^ 8), 0, 0⟩
  if wordOp w = 0x08 then
    let b := x.par.xb.getD (wbits w 121 120) 0
    let cnt := bits b 28 20
    let bytes ← ownRead (bits b 19 0) (32 * cnt)
    let blk ← captureBlock cnt i ((List.range cnt).zip (blockWords bytes cnt))
    return { plainWord w with block := blk }
  else return { plainWord w with shape := bs }

/-- Validate and capture one word of a push, in the slot `i`. -/
def captureFrom (q : Queue) (n i : Nat) (w : CmdWord) : M PWord := do
  let c ← me
  let x ← myCtx
  let r := c.wordReason q x.par.fp n false (c.capture q w)
  if r ≠ 0 then trapM ⟨0x0A, word (i + r * 2 ^ 8), 0, 0⟩
  if q = .eqc then captureCopy i w else return c.capture q w

/-- A push captures its words one after the other. -/
theorem captureWords_cons (q : Queue) (n i : Nat) (w : CmdWord) (ws : List (Nat × CmdWord)) :
    captureWords q n ((i, w) :: ws) = (do
      let p ← captureFrom q n i w
      let rest ← captureWords q n ws
      return p :: rest) := by
  funext s
  rw [captureWords]
  unfold captureFrom captureCopy
  simp only [M.bind_me, M.bind_myCtx, bind_assoc]
  cases q with
  | eqc =>
    simp only [CoreSt.capture]
    split
    · rfl
    · simp only [if_true, bind_assoc, M.bind_myCtx]
  | eqm | eqv | eqp =>
    simp only [CoreSt.capture, reduceCtorEq, if_false]
    split_ifs <;> rfl

/-- A word that fails a check of the push. -/
theorem captureFrom_traps {q : Queue} {n : Nat} {w : CmdWord} {s : State} (i : Nat) {r : Nat}
    (hr : (s.core s.cur).wordReason q (s.ctx s.cur.asid).par.fp n false ((s.core s.cur).capture q w) = r) (hbad : r ≠ 0) :
    captureFrom q n i w s = .error (.trap ⟨0x0A, word (i + r * 2 ^ 8), 0, 0⟩) := by
  subst hr
  simp only [captureFrom, M.bind_me, M.bind_myCtx, if_pos hbad]
  rfl

/-- A word of the matrix, vector or population queue that passes them. -/
theorem captureFrom_valid {q : Queue} (hq : q ≠ .eqc) {n : Nat} {w : CmdWord} {s : State} (i : Nat)
    (hr : (s.core s.cur).wordReason q (s.ctx s.cur.asid).par.fp n false ((s.core s.cur).capture q w) = 0) :
    captureFrom q n i w s = .ok ((s.core s.cur).capture q w, s) := by
  simp only [captureFrom, M.bind_me, M.bind_myCtx, hr, ne_eq, not_true_eq_false, if_false, hq]
  rfl

theorem captureWords_valid {q : Queue} (hq : q ≠ .eqc) {n : Nat} {s : State} (l : List (Nat × CmdWord))
    (hr : ∀ p ∈ l, (s.core s.cur).wordReason q (s.ctx s.cur.asid).par.fp n false ((s.core s.cur).capture q p.2) = 0) :
    captureWords q n l s = .ok (l.map (fun p => (s.core s.cur).capture q p.2), s) := by
  induction l with
  | nil => rfl
  | cons p l ih =>
    obtain ⟨i, w⟩ := p
    rw [captureWords_cons, M.bind_ok (captureFrom_valid hq i (hr (i, w) (List.mem_cons_self ..))),
      M.bind_ok (ih fun p hp => hr p (List.mem_cons_of_mem _ hp))]
    rfl

theorem captureWords_head_traps {q : Queue} {n i : Nat} {w : CmdWord} {l : List (Nat × CmdWord)} {s : State} {r : Nat}
    (hr : (s.core s.cur).wordReason q (s.ctx s.cur.asid).par.fp n false ((s.core s.cur).capture q w) = r) (hbad : r ≠ 0) :
    captureWords q n ((i, w) :: l) s = .error (.trap ⟨0x0A, word (i + r * 2 ^ 8), 0, 0⟩) := by
  rw [captureWords_cons, M.bind_error (captureFrom_traps i hr hbad)]

/-- Where the words of a push after those that are captured stop, the push stops. -/
theorem captureWords_append_error {q : Queue} {n : Nat} {l₁ l₂ : List (Nat × CmdWord)} {s t : State} {ps : List PWord} {e : Stop}
    (hpre : captureWords q n l₁ s = .ok (ps, t)) (hstop : captureWords q n l₂ t = .error e) :
    captureWords q n (l₁ ++ l₂) s = .error e := by
  induction l₁ generalizing s ps with
  | nil =>
    obtain ⟨-, rfl⟩ := Prod.mk.inj (Except.ok.inj hpre)
    exact hstop
  | cons p l ih =>
    obtain ⟨i, w⟩ := p
    rw [List.cons_append, captureWords_cons]
    rw [captureWords_cons] at hpre
    cases hone : captureFrom q n i w s with
    | error e' => rw [M.bind_error hone] at hpre; exact nomatch hpre
    | ok r =>
      rw [M.bind_ok hone] at hpre ⊢
      cases hrest : captureWords q n l r.2 with
      | error e' => rw [M.bind_error hrest] at hpre; exact nomatch hpre
      | ok r' =>
        rw [M.bind_ok hrest] at hpre
        obtain ⟨-, hstate⟩ := Prod.mk.inj (Except.ok.inj hpre)
        exact M.bind_error (ih (hrest.trans (by rw [← hstate])))

/-! ### The block in the own scratchpad -/

/-- Reaching a place leaves the parameters of every context. -/
theorem reach_par {s : State} {asid : Nat} {p : Place} (n : Nat) (hl : ∀ d, s.servedBy asid p = some d → s.answers d = true) (a : Nat) :
    ((s.reach asid p n).ctx a).par = (s.ctx a).par := by
  unfold State.reach
  obtain ⟨q, hq⟩ := askPlace_bankq s asid (scalarAsker s.cur.l p) s.cur.l 0 p n
  simp only [Bool.false_eq_true, if_false]
  rw [hq]
  cases hv : s.servedBy asid p with
  | none => rfl
  | some d =>
    simp only [State.touch]
    split
    · rfl
    · split
      · rename_i hbad
        exact absurd (show (!s.answers d) = true from hbad) (by simp [hl d hv])
      · unfold State.ctx
        rw [State.ctx?_modCtx]
        rw [show ({ s with bankq := q } : State).ctx? a = s.ctx? a from rfl]
        cases s.ctx? a with
        | none => rfl
        | some x => simp only [Option.map_some, Option.getD_some]; split <;> rfl

/-- An own-scratchpad read of a core with nothing on its way. -/
theorem ownRead_quiet {s : State} (hq : s.Quiet) {a n : Nat} (ho : s.OwnOk a n) :
    ownRead a n s = .ok (s.peek (.scratch s.cur.l a) n, s.reach s.cur.asid (.scratch s.cur.l a) n) := by
  unfold ownRead
  simp only [M.bind_me, hq.sb, List.any_nil, Bool.false_eq_true, if_false, State.core_id,
    M.bind_ok (openPlace_open hq.toClear _ false ho.open_)]
  exact readAt_reach hq n ho.open_ (fun _ => nofun)

/-! ### The push -/

theorem capWords_le (q : Queue) : capWords q ≤ 256 := by cases q <;> decide

/-- A machine that takes a fresh free choice has nothing more on its way. -/
theorem still_bump {s : State} (h : s.Still) : s.bump.Still :=
  ⟨⟨h.core, h.win, h.wp, h.damage, h.poison, h.spill, h.replay⟩, h.sb, h.edge, h.shadow, h.watched, h.posted, h.amo, h.busq, h.rqout⟩

/-- The core after it took a request number and a store number. -/
def CoreSt.requested (c : CoreSt) : CoreSt := { c with reqSeq := c.reqSeq + 1, storeSeq := c.storeSeq + 1 }

theorem CoreSt.requested_queue (c : CoreSt) (q : Queue) : c.requested.queue q = c.queue q := by cases q <;> rfl

theorem take_numbers {β : Type} {s : State} (hc : s.hasCore s.cur = true) (k : Nat → Nat → CoreSt → M β) :
    (do
      let rq ← takeRq
      let seq ← takeSeq
      let c ← me
      k rq seq c) s =
      k (s.core s.cur).reqSeq.toNat (s.core s.cur).storeSeq.toNat (s.core s.cur).requested (s.modCore s.cur CoreSt.requested) := by
  have hid : (s.core s.cur).id = s.cur := State.core_id s s.cur
  simp only [M.bind_takeRq, M.bind_takeSeq, M.bind_me, State.modCore_cur]
  rw [modCore_two _ _ _ _ (by intro c; rfl), State.core_modCore_eq hc hid, State.core_modCore_eq hc hid]
  rfl

@[simp] theorem M.bind_freeWordM {β : Type} (k : Word → M β) (s : State) : (freeWordM >>= k) s = k (Config.freeWord s.fresh) s.bump := rfl

section
variable {s : State} {q : Queue} {n : Nat} {a : Word}

theorem pushM_misplaced {m : Word} (h : m = 0 ∨ m.toNat > capWords q ∨ a.toNat % 32 ≠ 0) :
    pushM q a m s = .error (.trap ⟨0x0A, word 0xB00, 0, 0⟩) := by
  unfold pushM
  rw [M.bind_myCtx, if_pos h]
  rfl

theorem word_count (hn : 1 ≤ n) (hcap : n ≤ capWords q) : (word n).toNat = n ∧ word n ≠ 0 := by
  have hnat : (word n).toNat = n := toNat_word (by have := capWords_le q; omega)
  refine ⟨hnat, fun h => ?_⟩
  rw [h] at hnat
  have : (0 : Word).toNat = 0 := rfl
  omega

section
variable (hn : 1 ≤ n) (hcap : n ≤ capWords q) (ha : a.toNat % 32 = 0)
include hn hcap ha

theorem block_placed : ¬(word n = 0 ∨ (word n).toNat > capWords q ∨ a.toNat % 32 ≠ 0) := by
  obtain ⟨hnat, hpos⟩ := word_count hn hcap
  rw [hnat]
  rintro (h | h | h)
  · exact hpos h
  · omega
  · exact h ha

theorem pushM_beyond (h : a.toNat ≥ 2 ^ 20 ∨ a.toNat + 32 * n > (s.ctx s.cur.asid).par.fp) :
    pushM q a (word n) s = .error (.trap (refusalTrap 0x0A a false)) := by
  unfold pushM
  rw [M.bind_myCtx, if_neg (block_placed hn hcap ha), (word_count hn hcap).1, if_pos h]
  rfl

variable (hq : s.Quiet) (ho : s.OwnOk a.toNat (32 * n))
include ho

omit hcap in
theorem block_fits : ¬(a.toNat ≥ 2 ^ 20 ∨ a.toNat + 32 * n > (s.ctx s.cur.asid).par.fp) := by
  have := ho.low
  have := ho.fits
  omega

include hq

/-- A push whose words do not all pass ends as they do. -/
theorem pushM_stops {e : Stop} (hstop : captureWords q n ((List.range n).zip (blockWords (s.peek (.scratch s.cur.l a.toNat) (32 * n)) n))
      (s.reach s.cur.asid (.scratch s.cur.l a.toNat) (32 * n)) = .error e) :
    pushM q a (word n) s = .error e := by
  unfold pushM
  rw [M.bind_myCtx, if_neg (block_placed hn hcap ha), (word_count hn hcap).1, if_neg (block_fits hn ha ho)]
  simp only [M.bind_ok (ownRead_quiet hq ho), M.bind_error hstop]

/-- A push whose words all pass enters its queue when that has room. -/
theorem pushM_enters {s2 : State} {ps : List PWord} {ws : List CmdWord} (hq2 : s2.Quiet)
    (hws : ws = blockWords (s.peek (.scratch s.cur.l a.toNat) (32 * n)) n)
    (hcap2 : captureWords q n ((List.range n).zip ws) (s.reach s.cur.asid (.scratch s.cur.l a.toNat) (32 * n)) = .ok (ps, s2))
    (hroom : ((s2.core s2.cur).queue q).hasRoom q n = true) :
    ∃ t, pushM q a (word n) s = .ok ((), t) ∧
      (t.modCore t.cur (fun c => { c with pc := c.pc + 4 })).retire = s2.pushing q ws ps := by
  subst hws
  unfold pushM
  rw [M.bind_myCtx, if_neg (block_placed hn hcap ha), (word_count hn hcap).1, if_neg (block_fits hn ha ho)]
  simp only [M.bind_ok (ownRead_quiet hq ho), M.bind_ok hcap2, M.bind_me, hroom, Bool.not_true, Bool.false_eq_true, if_false,
    M.bind_ok (rqRoom_quiet hq2.toStill), M.bind_ok (release_quiet hq2.toStill _), M.bind_get, M.bind_myId]
  by_cases hcopy : q = .eqc
  · have hstill := still_bump hq2.toStill
    have hwin : (s2.bump.core s2.bump.cur).requested.win.openWin = none := openWin_quiet hstill
    have hedge : (s2.die (s2.dieOf s2.cur)).edge = [] := hq2.edge
    simp only [hcopy, if_true, M.bind_freeWordM, M.bind_ok (inputM_quiet hstill _ _), take_numbers (s := s2.bump) hstill.core,
      CoreSt.requested_queue, hwin, M.modMe_apply]
    refine ⟨_, rfl, ?_⟩
    simp only [State.modCore_cur]
    rw [modCore_two s2.bump _ CoreSt.requested _ (by intro c; rfl), retire_advance _ _ (by intro c; simp [CoreSt.requested])]
    simp only [State.pushing, if_true, hedge]
    rfl
  · have hwin : (s2.core s2.cur).requested.win.openWin = none := openWin_quiet hq2.toStill
    simp only [hcopy, if_false, M.bind_pure, take_numbers hq2.core, CoreSt.requested_queue, hwin, hq2.edge, M.modMe_apply]
    refine ⟨_, rfl, ?_⟩
    simp only [State.modCore_cur]
    rw [modCore_two s2 _ CoreSt.requested _ (by intro c; rfl), retire_advance _ _ (by intro c; simp [CoreSt.requested])]
    simp only [State.pushing, hcopy, if_false]
    rfl

end

end

/-! ### The two instructions -/

section
variable {s : State} {q : Queue} {rs1 rs2 : Reg}

/-- What `epush` and `epushb` do is the push of one word, or of as many as the count register says. -/
theorem exec_push_next (hc : s.hasCore s.cur = true) {m : Word} {t : State} {r : State}
    (hpush : pushM q ((s.core s.cur).rx rs1) m s = .ok ((), t)) (hret : (t.modCore t.cur (fun c => { c with pc := c.pc + 4 })).retire = r) :
    (m = 1 → exec (.epush q rs1) s = .next r) ∧ ((s.core s.cur).rx rs2 = m → exec (.epushb q rs1 rs2) s = .next r) := by
  refine ⟨fun hm => ?_, fun hm => ?_⟩ <;> subst hm
  · exact (runScalar_ok hc (by rw [M.bind_rxM, M.bind_ok hpush]; rfl)).trans (congrArg _ hret)
  · exact (runScalar_ok hc (by rw [M.bind_rxM, M.bind_rxM, M.bind_ok hpush]; rfl)).trans (congrArg _ hret)

theorem exec_push_traps (hc : s.hasCore s.cur = true) {m val : Word} {code : Nat}
    (hpush : pushM q ((s.core s.cur).rx rs1) m s = .error (.trap ⟨code, val, 0, 0⟩)) :
    (m = 1 → exec (.epush q rs1) s = s.traps (.epush q rs1) code val) ∧
    ((s.core s.cur).rx rs2 = m → exec (.epushb q rs1 rs2) s = s.traps (.epushb q rs1 rs2) code val) := by
  refine ⟨fun hm => ?_, fun hm => ?_⟩ <;> subst hm
  · exact runScalar_traps hc (by rw [M.bind_rxM, M.bind_error hpush])
  · exact runScalar_traps hc (by rw [M.bind_rxM, M.bind_rxM, M.bind_error hpush])

theorem exec_push_refused (hc : s.hasCore s.cur = true) {m va : Word} {code : Nat}
    (hpush : pushM q ((s.core s.cur).rx rs1) m s = .error (.trap (refusalTrap code va false))) :
    (m = 1 → exec (.epush q rs1) s = s.refuses (.epush q rs1) code va) ∧
    ((s.core s.cur).rx rs2 = m → exec (.epushb q rs1 rs2) s = s.refuses (.epushb q rs1 rs2) code va) := by
  refine ⟨fun hm => ?_, fun hm => ?_⟩ <;> subst hm
  · exact runScalar_refuses hc (by rw [M.bind_rxM, M.bind_error hpush])
  · exact runScalar_refuses hc (by rw [M.bind_rxM, M.bind_rxM, M.bind_error hpush])

end

theorem length_blockWords (bs : List Byte) (n : Nat) : (blockWords bs n).length = n := by simp [blockWords]

theorem map_snd_range_zip {α β : Type} (l : List α) (f : α → β) {n : Nat} (h : l.length = n) :
    ((List.range n).zip l).map (fun p => f p.2) = l.map f := by
  rw [← Function.comp_def f Prod.snd, ← List.map_map, List.map_snd_zip (by simp [h])]

/-- The slots of a list of words, cut before the slot `k`. -/
theorem range_zip_split {α : Type} {l : List α} {n k : Nat} {w : α} (h : l.length = n) (hk : l[k]? = some w) :
    (List.range n).zip l = (List.range k).zip (l.take k) ++ (k, w) :: ((List.range n).zip l).drop (k + 1) := by
  obtain ⟨hlt, hget⟩ := List.getElem?_eq_some_iff.mp hk
  have hlen : k < ((List.range n).zip l).length := by simp [h]; omega
  have hmid : ((List.range n).zip l)[k] = (k, w) := by simp [hget]
  have htake : ((List.range n).zip l).take k = (List.range k).zip (l.take k) := by
    rw [List.zip_eq_zipWith, List.zip_eq_zipWith, List.take_zipWith, List.take_range, Nat.min_eq_left (by omega)]
  rw [← htake, ← hmid, ← List.drop_eq_getElem_cons hlen, List.take_append_drop]

/-- Settles O31: a push reads its block, captures its words in order and enters its queue, or stops at the first check that fails. -/
theorem pushResult : Obligations.PushResult := by
  intro s s2 q rs1 rs2 n ws ps hq hq2 hcur c a s1 fp
  refine ⟨fun hn hcap ha ho hws => ?block, fun ha => ?misaligned, fun hn hcap ha hbeyond => ?beyond, fun hcount => ?count⟩
  case block =>
    obtain ⟨-, hcur1, hcores⟩ := reach_frame (n := 32 * n) ho.open_.die
    have hcore : s1.core s1.cur = c := (congrArg s1.core hcur1).trans (State.core_of_cores hcores s.cur)
    have hfp : (s1.ctx s1.cur.asid).par.fp = fp := by
      rw [show s1.cur = s.cur from hcur1]; rw [reach_par _ ho.open_.die]
    have hlen : ws.length = n := hws ▸ length_blockWords _ n
    refine ⟨fun hcap2 hroom => ?_, fun hne hvalid => ?_, fun hone w hw hbad => ?_, fun k w hk hpre hfp2 => ?_⟩
    · obtain ⟨t, hpush, hret⟩ := pushM_enters hn hcap ha hq ho hq2 hws hcap2 (by rwa [hcur])
      have hexec := exec_push_next (rs2 := rs2) hq.core hpush hret
      exact ⟨fun h => hexec.1 (h ▸ rfl), hexec.2⟩
    · rw [← map_snd_range_zip ws (c.capture q) hlen, ← hcore]
      exact captureWords_valid hne _ fun p hp => by rw [hcore, hfp]; exact hvalid p.2 (List.of_mem_zip hp).2
    · have hstop : captureWords q n ((List.range n).zip ws) s1 =
          .error (.trap ⟨0x0A, word (0 + c.wordReason q fp 1 false (c.capture q w) * 2 ^ 8), 0, 0⟩) := by
        subst hone
        rw [hw]
        exact captureWords_head_traps (by rw [hcore, hfp]) hbad
      rw [hws] at hstop
      refine (exec_push_traps (rs2 := rs2) hq.core (pushM_stops hn hcap ha hq ho hstop)).1 (hone ▸ rfl) |>.trans ?_
      rw [Nat.zero_add, show (2 : Nat) ^ 8 = 256 from rfl]
    · intro c2 r hbad hcount
      have hstop : captureWords q n ((List.range n).zip ws) s1 = .error (.trap ⟨0x0A, word (k + r * 2 ^ 8), 0, 0⟩) := by
        rw [range_zip_split hlen hk]
        exact captureWords_append_error hpre (captureWords_head_traps (by rw [hcur, hfp2]) hbad)
      rw [hws] at hstop
      exact (exec_push_traps hq.core (pushM_stops hn hcap ha hq ho hstop)).2 hcount
  case misaligned =>
    have hexec := fun m => exec_push_traps (rs2 := rs2) hq.core (pushM_misplaced (q := q) (a := a) (m := m) (.inr (.inr ha)))
    exact ⟨(hexec 1).1 rfl, (hexec _).2 rfl⟩
  case beyond =>
    have hexec := exec_push_refused (rs2 := rs2) hq.core (pushM_beyond (s := s) hn hcap ha hbeyond)
    exact ⟨fun h => hexec.1 (h ▸ rfl), hexec.2⟩
  case count =>
    exact (exec_push_traps hq.core (pushM_misplaced (hcount.imp_right .inl))).2 rfl

end Sys2Proof.Machine
end

section
/-! A step of a core (spec/02 R37, spec/11 R282, spec/21 R411): what runs at its pc, alone, behind `imx` or `scx`, and in a gang. -/

namespace Sys2Proof.Machine

/-! ### One action of a core -/

theorem thenNext_thenNext (f g : State → State) (r : Host.Outcome State Fault Refusal) :
    thenNext f (thenNext g r) = thenNext (fun s => f (g s)) r := by cases r <;> rfl

/-- A replaying core that waits for a recorded input diverges when nothing can bring it. -/
def State.waitsOn (t : State) : State :=
  if t.note == .waited && (t.core t.cur).awaited 2 then t.replayWait t.cur 2 else t

/-- The core that acts is its gang's leader; it acts with no note of an earlier step. -/
def State.leading (s : State) : State := { s with cur := s.leader s.cur, note := .none }

section
variable {s : State} (ha : s.leading.Acts)
include ha

/-- No breakpoint stops the core before its instruction. -/
theorem coreRun_go (run : Instr → State → Host.Outcome State Fault Refusal) :
    State.coreRun.go run s.leading (s.leading.gangOf s.leading.cur) = thenNext State.waitsOn (s.leading.execute run) := by
  unfold State.coreRun.go
  rw [List.findSome?_eq_none_iff.mpr ha.breaks]
  rfl

/-- A core with nothing before its instruction executes it. -/
theorem coreRun_acts (run : Instr → State → Host.Outcome State Fault Refusal) :
    s.coreRun run =
      thenNext (fun t => t.waitsOn.afterRun (s.leading.gangOf s.leading.cur)) (s.leading.execute run) := by
  have hpend : (s.leading.gangOf s.leading.cur).find? (fun m => (s.leading.core m).pendReady) = none :=
    List.find?_eq_none.mpr fun m hm => by rw [ha.pend m hm]; exact Bool.false_ne_true
  have hinput : (s.leading.gangOf s.leading.cur).any (fun m => (s.leading.core m).awaited 3) = false :=
    List.any_eq_false.mpr fun m hm => by rw [ha.input m hm]; exact Bool.false_ne_true
  have hact : s.coreRun run =
      thenNext (fun t => t.afterRun (s.leading.gangOf s.leading.cur)) (State.coreRun.go run s.leading (s.leading.gangOf s.leading.cur)) := by
    have hlead : ({ s with cur := s.leader s.cur, note := .none } : State) = s.leading := rfl
    unfold State.coreRun
    rw [hlead]
    simp only [ha.runs, ha.rewind, ha.due, hpend, hinput, Bool.not_true, Bool.false_eq_true, if_false, Option.isSome_none]
    cases hreplay : (s.leading.core s.leading.cur).replay with
    | none => rfl
    | some r =>
      simp only
      rw [if_neg]
      simp only [Bool.and_eq_true, Option.isNone_iff_eq_none, decide_eq_true_eq, not_and, not_le]
      exact ha.replay r hreplay
  rw [hact, coreRun_go ha, thenNext_thenNext]

end

section
variable {s s1 : State} {w : Parcel} (run : Instr → State → Host.Outcome State Fault Refusal)
  (hfetch : s.fetch s.cur (s.core s.cur).pc = (s1, .ok w))
include hfetch

/-- A parcel that decodes to an instruction which its unit accepts and no recorded input contradicts is run, by every member of a
gang. -/
theorem execute_runs {i : Instr} (hdec : decodeParcel w = .ok i) (hacc : (s.core s.cur).accepts i = true)
    (hmatch : ∀ m ∈ s1.gangOf s.cur, (s1.core m).mismatched i = none) :
    s.execute run = if (s.core s.cur).gang.isSome then s1.gangRun (run i) else run i s1 := by
  have hnone : (s1.gangOf s.cur).findSome? (fun m => ((s1.core m).mismatched i).map (fun e => (m, e))) = none :=
    List.findSome?_eq_none_iff.mpr fun m hm => by rw [hmatch m hm]; rfl
  simp only [State.execute, hfetch, hdec, hacc, Bool.not_true, Bool.false_eq_true, if_false, hnone]

theorem execute_unaccepted {i : Instr} (hdec : decodeParcel w = .ok i) (hacc : (s.core s.cur).accepts i = false) :
    s.execute run = .next (s1.trapAll ⟨0x02, 0, 0, w.setWidth 64⟩) := by
  simp only [State.execute, hfetch, hdec, hacc, Bool.not_false, if_true]

theorem execute_undecoded (hdec : (decodeParcel w).toOption = none) :
    s.execute run = .next (s1.trapAll ⟨(s.core s.cur).badParcel w, 0, 0, w.setWidth 64⟩) := by
  cases h : decodeParcel w with
  | ok i => rw [h] at hdec; exact nomatch hdec
  | error e => simp only [State.execute, hfetch, h]

end

/-! ### A step -/

/-- What a step adds to the action of the current core and its gang: the end of a STEP or REPLAY, the end of the cycle, and what a halt
line freezes. -/
def State.endsStep (ids : List CoreId) (t : State) : State := (State.passCycle exec (t.waitsOn.afterRun ids)).freezeNew

theorem step_core {s : State} (hbus : s.busNext = none) (hagenda : s.agenda = []) (hc : s.hasCore s.cur = true) (ha : s.leading.Acts) :
    step s = thenNext (State.endsStep (s.leading.gangOf s.leading.cur)) (s.leading.execute exec) := by
  unfold step State.stepWith
  simp only [hbus, hagenda, hc, if_true]
  rw [coreRun_acts ha, thenNext_thenNext, thenNext_thenNext]
  rfl

theorem step_event {s : State} {i : Instr} {rest : List Act} (hbus : s.busNext = none) (hagenda : s.agenda = .ev i :: rest) :
    step s = thenNext State.freezeNew
      (if isScalar i || (hostRow i && !s.trust.up) then .next { s with agenda := rest } else exec i { s with agenda := rest }) := by
  unfold step State.stepWith
  simp only [hbus, hagenda]
  rfl

/-! ### Which instructions a unit accepts behind `imx` or `scx` -/

theorem accepts_eq_false (c : CoreSt) (i : Instr) :
    c.accepts i = false ↔ ∃ p, c.pfx = some p ∧ (∀ v, i ≠ .imx v) ∧ (∀ v, i ≠ .scx v) ∧
      ((p.imx.isSome = true ∧ acceptsImx i = false) ∨ (p.scx.isSome = true ∧ acceptsScx i = false)) := by
  unfold CoreSt.accepts
  cases c.pfx with
  | none => simp
  | some p =>
    simp only [Option.some.injEq, exists_eq_left']
    split
    · simp
    · simp
    · rename_i himx hscx
      have hnot : (∀ v, i ≠ .imx v) ∧ (∀ v, i ≠ .scx v) := ⟨himx, hscx⟩
      cases p.imx <;> cases p.scx <;> simp [hnot, imp_iff_not_or]

/-! ### The instruction of a gang -/

/-- The trap that a member's own attempt ended in. -/
def trapOf (p : CoreId × State) : Option (CoreId × TrapInfo × Word) :=
  match p.2.note with
  | .trapped t epc => some (p.1, t, epc)
  | _ => none

theorem trapOf_eq_some (p : CoreId × State) (m : CoreId) (t : TrapInfo) (e : Word) :
    trapOf p = some (m, t, e) ↔ p.1 = m ∧ p.2.note = .trapped t e := by
  unfold trapOf
  cases p.2.note <;> simp

/-- The traps of the members that trap, in core order. -/
def gangTraps (run : State → Host.Outcome State Fault Refusal) (s : State) : List (CoreId × TrapInfo × Word) :=
  ((s.gangOf s.cur).map (fun m => (m, gangOne run s m))).filterMap trapOf

theorem mem_gangTraps (run : State → Host.Outcome State Fault Refusal) (s : State) (m : CoreId) (t : TrapInfo) (e : Word) :
    (m, t, e) ∈ gangTraps run s ↔ m ∈ s.gangOf s.cur ∧ (gangOne run s m).note = .trapped t e := by
  simp [gangTraps, trapOf_eq_some, List.mem_filterMap]

/-- One member's trap is enough for nothing of the instruction to stand. -/
theorem gangRun_traps {run : State → Host.Outcome State Fault Refusal} {s : State} (h : gangTraps run s ≠ []) :
    s.gangRun run = .next { s.gangTrap (s.gangOf s.cur) (gangTraps run s) with cur := s.leader s.cur } :=
  if_pos (show (!(gangTraps run s).isEmpty) = true by simpa using h)

/-- Where every member retires, the instruction is run in one after another and the gang goes on at its leader's pc. -/
theorem gangRun_retires {run : State → Host.Outcome State Fault Refusal} {s t : State}
    (hall : ∀ m ∈ s.gangOf s.cur, (∀ i e, (gangOne run s m).note ≠ .trapped i e) ∧ (gangOne run s m).note ≠ .waited ∧
      (gangOne run s m).note ≠ .rewound)
    (hchain : gangChain run s (s.gangOf s.cur).reverse = .ok t) :
    s.gangRun run = .next { (if (t.core (s.leader s.cur)).gang.isSome = true then
      (s.gangOf s.cur).foldl (fun u m => u.modCore m (fun c => { c with pc := (t.core (s.leader s.cur)).pc })) t else t) with
        cur := s.leader s.cur } := by
  have htraps : gangTraps run s = [] := List.eq_nil_iff_forall_not_mem.mpr fun ⟨m, i, e⟩ hm => by
    obtain ⟨hmem, hnote⟩ := (mem_gangTraps ..).mp hm
    exact (hall m hmem).1 i e hnote
  have hnotes : ∀ n, (∀ m ∈ s.gangOf s.cur, (gangOne run s m).note ≠ n) →
      ((s.gangOf s.cur).map (fun m => (m, gangOne run s m))).filter (fun p => p.2.note == n) = [] := fun n hn => by
    simpa [List.filter_eq_nil_iff] using hn
  unfold State.gangRun
  refine (if_neg (show ¬(!(gangTraps run s).isEmpty) = true by simp [htraps])).trans ((if_neg ?_).trans ((if_neg ?_).trans ?_))
  · rw [hnotes .waited fun m hm => (hall m hm).2.1]; exact Bool.false_ne_true
  · rw [hnotes .rewound fun m hm => (hall m hm).2.2]; simp
  · rw [hchain]

/-- Settles O57: a step through its core's action, a gang through its members' attempts. -/
theorem stepRunsDecoded : Obligations.StepRunsDecoded := by
  refine ⟨?step, ?prefixes, ?gang⟩
  case step =>
    intro s s1 w i hbus s0 c ends all
    refine ⟨fun hagenda hc ha hfetch => ⟨fun hdec hacc hmatch => ?_, fun hdec hacc => ?_, fun hdec => ?_⟩,
      fun rest hagenda hscalar hup => ?_, fun rest hagenda hrow hdown => ?_⟩
    · have hstep := step_core hbus hagenda hc ha
      rw [show s.leading.execute exec = _ from execute_runs exec hfetch hdec hacc hmatch] at hstep
      refine ⟨fun hg => hstep.trans ?_, fun hg => hstep.trans ?_⟩
      · exact congrArg _ (if_neg (by rw [show (s0.core s0.cur).gang = none from hg]; exact Bool.false_ne_true))
      · exact congrArg _ (if_pos (Option.isSome_iff_ne_none.mpr hg))
    · exact (step_core hbus hagenda hc ha).trans (congrArg _ (execute_unaccepted exec hfetch hdec hacc))
    · exact (step_core hbus hagenda hc ha).trans (congrArg _ (execute_undecoded exec hfetch hdec))
    · refine (step_event hbus hagenda).trans (congrArg _ (if_neg ?_))
      cases hrow : hostRow i with
      | false => simp [hscalar]
      | true => simp [hscalar, hup hrow]
    · refine (step_event hbus hagenda).trans (congrArg (thenNext State.freezeNew) (if_pos ?_))
      simp [hrow, hdown]
  case prefixes =>
    intro c i w
    refine ⟨accepts_eq_false c i, fun h => ?_, fun h hw => ?_, fun _ _ _ _ => ⟨rfl, rfl⟩, fun _ _ _ _ => ⟨rfl, rfl⟩,
      fun _ _ _ _ => ⟨rfl, rfl⟩, rfl⟩
    · simp only [CoreSt.badParcel, h]
    · obtain ⟨p, hp⟩ := Option.ne_none_iff_exists'.mp h
      simp [CoreSt.badParcel, hp, hw]
  case gang =>
    intro s t run ms lead note
    refine ⟨fun ⟨m, hm, i, e, htrap⟩ => ?_, gangRun_retires⟩
    have hne : gangTraps run s ≠ [] := List.ne_nil_of_mem ((mem_gangTraps run s m i e).mpr ⟨hm, htrap⟩)
    exact ⟨gangTraps run s, hne, gangRun_traps hne, mem_gangTraps run s⟩

end Sys2Proof.Machine
end

section
/-! Every memory stays in its canonical form (spec/00 R3): what that says of a state, of an attempt, of an outcome and of the
effect of a scalar instruction, and how it passes through each way of putting operations together. -/

namespace Sys2Proof.Machine

/-! ### What stands in canonical form -/

/-- The register space, scratchpad and counters of a core stand in their canonical forms. -/
def CoreSt.MemOk (c : CoreSt) : Prop := Mem.wf c.reg ∧ Mem.wf c.scratch ∧ tabOk c.ctrs

/-- An attempt leaves every memory in canonical form, done or not. -/
inductive Try.MemOk : Try → Prop
  | done {s : State} (h : s.MemOk) : Try.MemOk (.done s)
  | blocked {s : State} (h : s.MemOk) : Try.MemOk (.blocked s)

/-- An access of an engine leaves every memory in canonical form. -/
inductive Acc.MemOk : Acc → Prop
  | ok {s : State} {bs : List Byte} (h : s.MemOk) : Acc.MemOk (.ok s bs)
  | wait {s : State} (h : s.MemOk) : Acc.MemOk (.wait s)
  | refused {s : State} {code : Nat} {addr : Word} (h : s.MemOk) : Acc.MemOk (.refused s code addr)

/-- What a population word comes to has every memory in canonical form. -/
inductive PopRes.MemOk : PopRes → Prop
  | done {s : State} {result : Word} {lineage : List (List Byte)} {evs : Evs} {bytes : Nat} {send : Option (Nat × Packet)}
      (h : s.MemOk) : PopRes.MemOk (.done s result lineage evs bytes send)
  | wait {s : State} (h : s.MemOk) : PopRes.MemOk (.wait s)
  | fault {s : State} {reason refusal : Nat} (h : s.MemOk) : PopRes.MemOk (.fault s reason refusal)
  | refused {s : State} {code a : Nat} (h : s.MemOk) : PopRes.MemOk (.refused s code a)

/-- The state in which the replacements of a word are ready, or not, has every memory in canonical form. -/
inductive Replaced.MemOk : Replaced → Prop
  | ok {s : State} {rs : List Replacement} (h : s.MemOk) : Replaced.MemOk (.ok s rs)
  | wait {s : State} (h : s.MemOk) : Replaced.MemOk (.wait s)
  | refused {s : State} {code a : Nat} (h : s.MemOk) : Replaced.MemOk (.refused s code a)

/-- A flush of lineage records leaves every memory in canonical form. -/
inductive Flushed.MemOk : Flushed → Prop
  | ok {s : State} {n code : Nat} (h : s.MemOk) : Flushed.MemOk (.ok s n code)
  | wait : Flushed.MemOk .wait

/-- The next state, if there is one, has every memory in canonical form. -/
inductive NextOk : Host.Outcome State Fault Refusal → Prop
  | next {s : State} (h : s.MemOk) : NextOk (.next s)
  | fault {r : Fault} : NextOk (.fault r)
  | refused {r : Refusal} : NextOk (.refused r)

/-- What a scalar instruction leaves, retired or not, has every memory in canonical form. -/
inductive RunOk {α : Type} : Except Stop (α × State) → Prop
  | ok {a : α} {s : State} (h : s.MemOk) : RunOk (.ok (a, s))
  | trap {t : TrapInfo} : RunOk (.error (.trap t))
  | refused {die : Option Nat} {t : TrapInfo} : RunOk (.error (.refused die t))
  | wait {s : State} (h : s.MemOk) : RunOk (.error (.wait s))
  | absent {p : Place} {n : Nat} : RunOk (.error (.absent p n))
  | halt {s : State} (h : s.MemOk) : RunOk (.error (.halt s))

/-- The effect of a scalar instruction keeps every memory in canonical form. -/
def KeepsMem {α : Type} (m : M α) : Prop := ∀ s, s.MemOk → RunOk (m s)

section
variable {s t : State}

/-- A change of every core that keeps what a core holds. -/
theorem State.MemOk.mapCores (h : s.MemOk) {f : CoreSt → CoreSt} (hf : ∀ c, c.MemOk → (f c).MemOk) :
    State.MemOk { s with cores := s.cores.map f } := by
  obtain ⟨hd, hh, hc⟩ := h
  exact ⟨hd, hh, List.forall_mem_map.mpr fun c hm => hf c (hc c hm)⟩

theorem State.MemOk.modCore (h : s.MemOk) {id : CoreId} {f : CoreSt → CoreSt} (hf : ∀ c, c.MemOk → (f c).MemOk) :
    (s.modCore id f).MemOk :=
  h.mapCores fun c hc => by
    split
    · exact hf c hc
    · exact hc

theorem State.MemOk.modCtx (h : s.MemOk) {asid : Nat} {f : Ctx → Ctx} : (s.modCtx asid f).MemOk := h
theorem State.MemOk.modDie (h : s.MemOk) {d : Nat} {f : Die → Die} : (s.modDie d f).MemOk := h
theorem State.MemOk.bump (h : s.MemOk) : s.bump.MemOk := h

/-- A state is all right by its memories and cores: every other field may change. -/
theorem State.MemOk.same (h : s.MemOk)
    {ctxs dies ktag hostOut hostReads poison msgs incrs transit graves keys launch asidbase invq invHeld invErr pmode slice
    bmasks lmask pkgErr ports sent dbg mgmt trust cycle bankq bankHeld busq cur curq agenda seen marks fresh note} :
    State.MemOk
    ⟨s.cores, ctxs, dies, s.hbm, ktag, s.host, hostOut, hostReads, poison, msgs, incrs, transit, graves, keys, launch,
    asidbase, invq, invHeld, invErr, pmode, slice, bmasks, lmask, pkgErr, ports, sent, dbg, mgmt, trust, cycle, bankq,
    bankHeld, busq, cur, curq, agenda, seen, marks, fresh, note⟩ := h

theorem State.MemOk.ite {c : Prop} [Decidable c] (hs : s.MemOk) (ht : t.MemOk) : (if c then s else t).MemOk := by
  split <;> assumption

theorem State.MemOk.fst_ite {α : Type} {c : Prop} [Decidable c] {p q : State × α} (hp : p.1.MemOk) (hq : q.1.MemOk) :
    (if c then p else q).1.MemOk := by
  split <;> assumption

/-- Operations for every item of a list, one after the other. -/
theorem State.MemOk.foldl {α : Type} {f : State → α → State} {l : List α} (h : s.MemOk)
    (hf : ∀ t a, t.MemOk → (f t a).MemOk) :
    (l.foldl f s).MemOk := by
  induction l generalizing s with
  | nil => exact h
  | cons a l ih => exact ih (hf s a h)

end

section
variable {c : CoreSt}

/-- A core is all right by its register space, scratchpad and counters: every other field may change. -/
theorem CoreSt.MemOk.same (h : c.MemOk)
    {id x f pc runtime pfx resv csr gslSeen instret task cont stage vw rg rgp wLines wRegs sLines sRegs waiting inbox outq
    eqm eqv eqc eqp flights sb late pend due win ckpts inputs storeSeq reqSeq rqout issueNo sentNo dicnt gang fuse arrivals
    sstepAt sstepBy sstepDone genNum bp wp ibuf stale stopped fcause memRw stepping replay committed logWait draining early
    fits fitNo rels heard ctrRels sstepRels hostAmo rewinding} :
    CoreSt.MemOk
    ⟨id, x, f, pc, runtime, pfx, resv, csr, gslSeen, instret, task, cont, stage, vw, rg, rgp, c.reg, c.scratch, wLines,
    wRegs, sLines, sRegs, c.ctrs, waiting, inbox, outq, eqm, eqv, eqc, eqp, flights, sb, late, pend, due, win, ckpts, inputs,
    storeSeq, reqSeq, rqout, issueNo, sentNo, dicnt, gang, fuse, arrivals, sstepAt, sstepBy, sstepDone, genNum, bp, wp, ibuf,
    stale, stopped, fcause, memRw, stepping, replay, committed, logWait, draining, early, fits, fitNo, rels, heard, ctrRels,
    sstepRels, hostAmo, rewinding⟩ := h

end

section
variable {s : State}

/-- A change of a core's other fields. -/
theorem State.MemOk.coreFields (h : s.MemOk) {i : CoreId}
    {id x f pc runtime pfx resv csr gslSeen instret task cont stage vw rg rgp wLines wRegs sLines sRegs waiting inbox outq eqm
    eqv eqc eqp flights sb late pend due win ckpts inputs storeSeq reqSeq rqout issueNo sentNo dicnt gang fuse arrivals
    sstepAt sstepBy sstepDone genNum bp wp ibuf stale stopped fcause memRw stepping replay committed logWait draining early
    fits fitNo rels heard ctrRels sstepRels hostAmo rewinding : CoreSt → _} :
    State.MemOk (s.modCore i fun c =>
      ⟨id c, x c, f c, pc c, runtime c, pfx c, resv c, csr c, gslSeen c, instret c, task c, cont c, stage c, vw c, rg c,
      rgp c, c.reg, c.scratch, wLines c, wRegs c, sLines c, sRegs c, c.ctrs, waiting c, inbox c, outq c, eqm c, eqv c, eqc c,
      eqp c, flights c, sb c, late c, pend c, due c, win c, ckpts c, inputs c, storeSeq c, reqSeq c, rqout c, issueNo c,
      sentNo c, dicnt c, gang c, fuse c, arrivals c, sstepAt c, sstepBy c, sstepDone c, genNum c, bp c, wp c, ibuf c, stale c,
      stopped c, fcause c, memRw c, stepping c, replay c, committed c, logWait c, draining c, early c, fits c, fitNo c,
      rels c, heard c, ctrRels c, sstepRels c, hostAmo c, rewinding c⟩) :=
  h.modCore fun _ hc => hc

end

theorem CoreSt.MemOk.ite {p : Prop} [Decidable p] {c d : CoreSt} (hc : c.MemOk) (hd : d.MemOk) : (if p then c else d).MemOk := by
  split <;> assumption

theorem CoreSt.MemOk.foldl {α : Type} {f : CoreSt → α → CoreSt} {l : List α} {c : CoreSt} (h : c.MemOk)
    (hf : ∀ c a, c.MemOk → (f c a).MemOk) : (l.foldl f c).MemOk := by
  induction l generalizing c with
  | nil => exact h
  | cons a l ih => exact ih (hf c a h)

theorem CoreSt.memOk_init {id : CoreId} : (CoreSt.init id).MemOk := ⟨Mem.wf_nil, Mem.wf_nil, List.Pairwise.nil⟩

/-! ### Branches, attempts and outcomes -/

theorem Try.MemOk.ite {c : Prop} [Decidable c] {r q : Try} (hr : r.MemOk) (hq : q.MemOk) : (if c then r else q).MemOk := by
  split <;> assumption

theorem Acc.MemOk.ite {c : Prop} [Decidable c] {r q : Acc} (hr : r.MemOk) (hq : q.MemOk) : (if c then r else q).MemOk := by
  split <;> assumption

theorem NextOk.ite {c : Prop} [Decidable c] {r q : Host.Outcome State Fault Refusal} (hr : NextOk r) (hq : NextOk q) :
    NextOk (if c then r else q) := by
  split <;> assumption

section
variable {s t : State}

/-- The state of a pair. -/
theorem State.MemOk.of_pair {α : Type} {p : State × α} {a : α} (h : p.1.MemOk) (e : p = (s, a)) : s.MemOk := by
  subst e; exact h

theorem Try.MemOk.of_done {r : Try} (h : r.MemOk) (e : r = .done s) : s.MemOk := by
  subst e; cases h; assumption

theorem Try.MemOk.of_blocked {r : Try} (h : r.MemOk) (e : r = .blocked s) : s.MemOk := by
  subst e; cases h; assumption

theorem Try.MemOk.state {r : Try} (h : r.MemOk) : r.state.MemOk := by
  cases h <;> assumption

theorem Acc.MemOk.of_ok {r : Acc} {bs : List Byte} (h : r.MemOk) (e : r = .ok s bs) : s.MemOk := by
  subst e; cases h; assumption

theorem Acc.MemOk.of_wait {r : Acc} (h : r.MemOk) (e : r = .wait s) : s.MemOk := by
  subst e; cases h; assumption

theorem Acc.MemOk.of_refused {r : Acc} {code : Nat} {addr : Word} (h : r.MemOk) (e : r = .refused s code addr) : s.MemOk := by
  subst e; cases h; assumption

theorem Replaced.MemOk.of_ok {r : Replaced} {rs : List Replacement} (h : r.MemOk) (e : r = .ok s rs) : s.MemOk := by
  subst e; cases h; assumption

theorem Replaced.MemOk.of_wait {r : Replaced} (h : r.MemOk) (e : r = .wait s) : s.MemOk := by
  subst e; cases h; assumption

theorem Replaced.MemOk.of_refused {r : Replaced} {code a : Nat} (h : r.MemOk) (e : r = .refused s code a) : s.MemOk := by
  subst e; cases h; assumption

theorem Flushed.MemOk.of_ok {r : Flushed} {n code : Nat} (h : r.MemOk) (e : r = .ok s n code) : s.MemOk := by
  subst e; cases h; assumption

theorem NextOk.of_next {r : Host.Outcome State Fault Refusal} (h : NextOk r) (e : r = .next s) : s.MemOk := by
  subst e; cases h; assumption

/-- One attempt after another. -/
theorem Try.MemOk.seq {r : Try} {k : State → Try} (hr : r.MemOk) (hk : ∀ t, t.MemOk → (k t).MemOk) :
    Try.MemOk (match r with
      | .blocked t => .blocked t
      | .done t => k t) := by
  cases hr with
  | done h => exact hk _ h
  | blocked h => exact .blocked h

end

/-- An attempt for every item of a list, until one has to wait. -/
theorem tryEach_memOk {α : Type} {f : State → α → Try} (hf : ∀ s a, s.MemOk → (f s a).MemOk) {s : State} (h : s.MemOk)
    {l : List α} :
    (tryEach f s l).MemOk := by
  induction l generalizing s with
  | nil => exact .done h
  | cons a l ih => exact .seq (hf s a h) fun t ht => ih ht

theorem thenNext_memOk {f : State → State} {r : Host.Outcome State Fault Refusal} (hf : ∀ s, s.MemOk → (f s).MemOk)
    (hr : NextOk r) :
    NextOk (thenNext f r) := by
  cases hr with
  | next h => exact .next (hf _ h)
  | fault => exact .fault
  | refused => exact .refused

/-! ### Effects of scalar instructions -/

theorem KeepsMem.bind {α β : Type} {m : M α} {k : α → M β} (hm : KeepsMem m) (hk : ∀ a, KeepsMem (k a)) :
    KeepsMem (m >>= k) := by
  intro s h
  have hr := hm s h
  cases hms : m s with
  | ok r =>
    obtain ⟨a, t⟩ := r
    rw [M.bind_ok hms]
    rw [hms] at hr
    cases hr with
    | ok ht => exact hk a t ht
  | error e =>
    rw [M.bind_error hms]
    rw [hms] at hr
    cases hr with
    | trap => exact .trap
    | refused => exact .refused
    | wait ht => exact .wait ht
    | absent => exact .absent
    | halt ht => exact .halt ht

theorem KeepsMem.pure {α : Type} {a : α} : KeepsMem (pure a : M α) := fun _ h => .ok h

theorem KeepsMem.ite {α : Type} {c : Prop} [Decidable c] {m k : M α} (hm : KeepsMem m) (hk : KeepsMem k) :
    KeepsMem (if c then m else k) := by
  split <;> assumption

theorem RunOk.ite {α : Type} {c : Prop} [Decidable c] {r q : Except Stop (α × State)} (hr : RunOk r) (hq : RunOk q) :
    RunOk (if c then r else q) := by
  split <;> assumption

theorem KeepsMem.get : KeepsMem (get : M State) := fun _ h => .ok h

/-- An effect that a condition calls for, before the rest. -/
theorem KeepsMem.guard {α : Type} {c : Prop} [Decidable c] {m : M Unit} {k : Unit → M α} (hm : KeepsMem m)
    (hk : ∀ u, KeepsMem (k u)) : KeepsMem (if c then m >>= k else k ()) :=
  .ite (.bind hm hk) (hk ())

/-- One of two effects that a condition calls for, before the rest. -/
theorem KeepsMem.guard_ite {α : Type} {c d : Prop} [Decidable c] [Decidable d] {m n : M Unit} {k : Unit → M α}
    (hm : KeepsMem m) (hn : KeepsMem n) (hk : ∀ u, KeepsMem (k u)) :
    KeepsMem (if c then if d then m >>= k else n >>= k else k ()) :=
  .ite (.ite (.bind hm hk) (.bind hn hk)) (hk ())

/-- The state that an effect reads is its own. -/
theorem KeepsMem.get_bind {α : Type} {k : State → M α} (hk : ∀ s, s.MemOk → KeepsMem (k s)) :
    KeepsMem ((MonadState.get : M State) >>= k) :=
  fun s h => hk s h s h

/-- An attempt in a scalar instruction, which waits where the attempt is blocked. -/
theorem tryM_keeps {f : State → Try} (hf : ∀ s, s.MemOk → (f s).MemOk) : KeepsMem (tryM f) := by
  intro s h
  unfold tryM
  have hr := hf s h
  cases hfs : f s with
  | done t => exact .ok (hr.of_done hfs)
  | blocked t => exact .wait (hr.of_blocked hfs)

end Sys2Proof.Machine
end

section
/-! The operations on the state keep every memory in canonical form (spec/00 R3): accesses, their damage and their log. -/

namespace Sys2Proof.Machine

variable {s : State} {id : CoreId} {asid n i a pa l slot die seq code d kind who own arr lo cause acc need shown detail : Nat}
    {v va : Word} {p : Place} {bs : List Byte} {q : Queue} {win word : Option Nat} {rt atom first : Bool} {c : CoreSt}
    {form : LogForm} {by_ : Option CoreId} {ks : List Nat} {key : LogKey}

/-! ### The fields of a core -/

theorem CoreSt.MemOk.dirtyReg (h : c.MemOk) : (c.dirtyReg i).MemOk := h

theorem CoreSt.MemOk.wx (h : c.MemOk) {i : Reg} : (c.wx i v).MemOk := .ite h h.same.dirtyReg

theorem CoreSt.MemOk.dirtyLines (h : c.MemOk) : (c.dirtyLines a n).MemOk := .ite h h

theorem CoreSt.MemOk.writeReg (h : c.MemOk) : (c.writeReg a bs).MemOk := by
  obtain ⟨hr, hs, hn⟩ := h
  have hw : CoreSt.MemOk { c with reg := c.reg.write a bs } := ⟨Mem.write_wf _ _ hr, hs, hn⟩
  exact hw.dirtyLines

theorem CoreSt.MemOk.countEv (h : c.MemOk) : (c.countEv i).MemOk := h

theorem CoreSt.MemOk.countEvs (h : c.MemOk) {is : List Nat} : (c.countEvs is).MemOk := by
  induction is generalizing c with
  | nil => exact h
  | cons i is ih => exact ih h.countEv

/-- A table set at a key keeps its keys rising, and takes no key but that one. -/
theorem tabSet_tabOk {t : List (Nat × Nat)} (h : tabOk t) (i v : Nat) :
    tabOk (tabSet t i v) ∧ ∀ p ∈ tabSet t i v, p.1 = i ∨ p ∈ t := by
  induction t with
  | nil =>
    unfold tabSet tabOk
    split <;> simp
  | cons p t ih =>
    obtain ⟨k, w⟩ := p
    obtain ⟨hk, ht⟩ := List.pairwise_cons.mp h
    obtain ⟨ih, hm⟩ := ih ht
    unfold tabSet
    split
    · split
      · exact ⟨h, fun p hp => .inr hp⟩
      · refine ⟨List.pairwise_cons.mpr ⟨fun q hq => ?_, h⟩, fun q hq => (List.mem_cons.mp hq).imp_left (congrArg Prod.fst)⟩
        rcases List.mem_cons.mp hq with rfl | hq
        · assumption
        · exact Nat.lt_trans ‹_› (hk q hq)
    · split
      · subst i
        split
        · exact ⟨ht, fun p hp => .inr (List.mem_cons_of_mem _ hp)⟩
        · exact ⟨List.pairwise_cons.mpr ⟨hk, ht⟩, fun q hq =>
            (List.mem_cons.mp hq).imp (congrArg Prod.fst) (List.mem_cons_of_mem _)⟩
      · refine ⟨List.pairwise_cons.mpr ⟨fun q hq => ?_, ih⟩, fun q hq => ?_⟩
        · rcases hm q hq with hi | hq
          · dsimp only; omega
          · exact hk q hq
        · rcases List.mem_cons.mp hq with rfl | hq
          · exact .inr List.mem_cons_self
          · exact (hm q hq).imp_right (List.mem_cons_of_mem _)

theorem CoreSt.MemOk.setCtr (h : c.MemOk) {v : Nat} : (c.setCtr i v).MemOk := by
  obtain ⟨hr, hs, hn⟩ := h
  exact ⟨hr, hs, (tabSet_tabOk hn i v).1⟩

theorem CoreSt.MemOk.setQueue (h : c.MemOk) {e : EQueue} : (c.setQueue q e).MemOk := by
  unfold CoreSt.setQueue
  split <;> exact h

theorem State.MemOk.unstep (h : s.MemOk) : (s.unstep asid).MemOk := h.mapCores fun _ hc => .ite hc hc

theorem State.MemOk.dbgStop (h : s.MemOk) {why : Nat} : (s.dbgStop asid why l).MemOk := by
  unfold State.dbgStop
  split
  · exact h.same.modCtx
  · exact .ite h.unstep.same (.ite h.same.modCtx h)

theorem State.MemOk.diverge (h : s.MemOk) : (s.diverge id cause kind).MemOk := h.same.dbgStop

theorem State.MemOk.raiseHalt (h : s.MemOk) : (s.raiseHalt asid cause l).MemOk := by
  unfold State.raiseHalt
  dsimp only
  split
  · exact h.diverge
  · split
    · exact .modCtx (.ite h.coreFields.same h.coreFields)
    · split
      · exact h.coreFields.same.unstep.modCtx
      · exact .ite h.coreFields.modCtx (.ite (.modCtx (.ite h.coreFields.same h.coreFields)) h.coreFields)

theorem State.MemOk.pendTrap (h : s.MemOk) {t : TrapInfo} : (s.pendTrap id t).MemOk := .ite h.raiseHalt h.coreFields

theorem State.MemOk.touch (h : s.MemOk) : (s.touch asid d).MemOk :=
  .ite h (.ite (h.modCtx.foldl fun _ _ ht => ht.pendTrap) h.modCtx)

/-- The die that serves a place, if one does, is touched. -/
theorem State.MemOk.served (h : s.MemOk) {o : Option Nat} :
    State.MemOk (match o with | some d => s.touch asid d | none => s) := by
  split
  · exact h.touch
  · exact h

theorem State.MemOk.logEvent (h : s.MemOk) : (s.logEvent code die detail).MemOk := h

theorem State.MemOk.logErrorEvent (h : s.MemOk) : (s.logErrorEvent code die arr).MemOk := h.logEvent.same

theorem CoreSt.MemOk.unitWordSet (h : c.MemOk) : (c.unitWordSet i v).MemOk :=
  .ite h (.ite h (.ite h (.ite h (.ite h (.ite h (.ite h (.ite h (.ite h h))))))))

theorem CoreSt.MemOk.setRing (h : c.MemOk) {d : Desc} : (c.setRing i d).MemOk := h

theorem CoreSt.MemOk.unitSet (h : c.MemOk) {u v : Nat} : (c.unitSet u v).MemOk := by
  have wreg {d : CoreSt} {i : Nat} {w : Word} (hd : d.MemOk) :
      CoreSt.MemOk (if i = 0 then d else if i < 32 then { d with x := vset d.x i w } else { d with f := vset d.f (i - 32) w }) :=
    .ite hd (.ite hd hd)
  exact .ite (wreg (wreg h)) (.ite h (.ite h.setRing (.ite h.unitWordSet.unitWordSet (.ite h h))))

/-! ### The heads of the queues and the banks -/

theorem State.MemOk.modHead (h : s.MemOk) {f : Push → Push} : (s.modHead id q f).MemOk := h.modCore fun _ hc => hc.setQueue

theorem CoreSt.MemOk.decideHead (h : c.MemOk) {cycle : Nat} : (c.decideHead cycle q).MemOk := by
  unfold CoreSt.decideHead
  split
  · exact h
  · exact .ite h.setQueue h

theorem State.MemOk.decideHeads (h : s.MemOk) : (s.decideHeads id).MemOk :=
  .ite (h.modCore fun _ hc => hc.foldl fun _ _ hc2 => hc2.decideHead) h

theorem State.MemOk.askBank (h : s.MemOk) {by_ : Nat} : (s.askBank asid l who acc by_ a n).MemOk := h

theorem State.MemOk.askPlace (h : s.MemOk) {by_ : Nat} : (s.askPlace asid who acc by_ p n).MemOk := by
  unfold State.askPlace
  split
  · exact h.askBank
  · exact h

theorem State.MemOk.settleBanks (h : s.MemOk) : s.settleBanks.MemOk := .ite h (h.mapCores fun _ hc => hc.countEvs)

theorem State.MemOk.holdBank (h : s.MemOk) : (s.holdBank who acc).MemOk := .ite h h

/-! ### Places and damage -/

theorem State.MemOk.overtake (h : s.MemOk) {sees : CoreId → Bool} : (s.overtake by_ sees p n).MemOk :=
  .ite h (h.mapCores fun _ hc => .ite hc hc)

theorem State.MemOk.changed (h : s.MemOk) : (s.changed by_ id p n).MemOk := .ite h.overtake.same h

theorem State.MemOk.mark (h : s.MemOk) {m : Mark} : (s.mark m).MemOk := .ite h h

theorem State.MemOk.clearPoison (h : s.MemOk) : (s.clearPoison arr own a n).MemOk := h

theorem State.MemOk.injectAt (h : s.MemOk) : (s.injectAt arr own shown lo n).MemOk := h

theorem State.MemOk.applyInjection (h : s.MemOk) : (s.applyInjection arr own shown lo n).MemOk := h.same.injectAt

theorem CoreSt.MemOk.breakHbm (h : c.MemOk) : (c.breakHbm pa n).MemOk := by
  unfold CoreSt.breakHbm
  split
  · exact .ite h h
  · exact h

theorem State.MemOk.hbmWrite (h : s.MemOk) : (s.hbmWrite slot pa bs by_).MemOk := by
  obtain ⟨hd, hh, hc⟩ := h.changed (by_ := by_) (id := ⟨0, 0⟩) (p := .hbm slot pa) (n := bs.length)
  unfold State.hbmWrite
  refine .applyInjection (.clearPoison (.mapCores ?_ fun _ hc => hc.breakHbm))
  exact ⟨Mem.write_wf _ _ hd, hh, hc⟩

theorem State.MemOk.logError (h : s.MemOk) {addr : Word} {unc : Bool} {asid : Option Nat} :
    (s.logError arr addr unc asid).MemOk := h.bump.same.logErrorEvent

theorem State.MemOk.foundDamage (h : s.MemOk) {asid : Option Nat} {p : Damage} : (s.foundDamage asid p).MemOk :=
  .ite h (.ite h.same.logError h.same.logError.same)

theorem State.MemOk.consume (h : s.MemOk) {ps : List Damage} : (s.consume id ps).1.MemOk := by
  induction ps generalizing s with
  | nil => exact h
  | cons p ps ih =>
    unfold State.consume
    dsimp only
    split
    · exact ih h.foundDamage
    · exact h.foundDamage.raiseHalt

theorem State.MemOk.dropDamage (h : s.MemOk) : (s.dropDamage asid).MemOk := h

theorem State.MemOk.foundIn (h : s.MemOk) {asid : Option Nat} {ps : List Damage} : (s.foundIn asid ps).1.MemOk := by
  induction ps generalizing s with
  | nil => exact h
  | cons p ps ih =>
    unfold State.foundIn
    split
    · exact ih h.foundDamage
    · exact h.foundDamage

theorem State.MemOk.dmaMet (h : s.MemOk) {asid : Option Nat} : (s.dmaMet asid pa n).MemOk :=
  h.foldl fun _ _ ht => ht.foundDamage

theorem State.MemOk.walkMet (h : s.MemOk) : (s.walkMet id rt va).1.MemOk := .fst_ite h h.consume

/-! ### Writes and the log -/

theorem State.MemOk.takeSlots (h : s.MemOk) {used : List Nat} : (s.takeSlots asid used n).2.MemOk := by
  induction n generalizing s used with
  | zero => exact h
  | succ n ih => exact ih h.bump

theorem State.MemOk.freeSlots (h : s.MemOk) : (s.freeSlots asid ks).MemOk := h.modCtx

theorem State.MemOk.hostAccept (h : s.MemOk) {data : List Byte} : (s.hostAccept pa data by_).MemOk := by
  obtain ⟨hd, hh, hc⟩ := h.changed (by_ := by_) (id := ⟨0, 0⟩) (p := .hostCoh pa) (n := data.length)
  exact ⟨hd, Mem.write_wf _ _ hh, hc⟩

theorem State.MemOk.markStore (h : s.MemOk) {seq : List Rel} : (s.markStore id p n seq).MemOk := h.mark

theorem State.MemOk.hostAtom (h : s.MemOk) {op : Rmw} : (s.hostAtom id pa op).MemOk := by
  refine .coreFields ?_
  split
  · exact h.hostAccept.markStore
  · exact h

theorem State.MemOk.releaseItem (h : s.MemOk) {hd : HeldItem} : (s.releaseItem hd).MemOk := by
  unfold State.releaseItem
  split
  · exact h.foldl fun _ _ ht => ht.hostAccept.same
  · exact h.hostAtom
  · exact h.same
  · exact .ite h h

theorem State.MemOk.releaseHeld (h : s.MemOk) {p : Nat → Bool} : (s.releaseHeld asid l p).MemOk :=
  h.modDie.foldl fun _ _ ht => ht.releaseItem

theorem State.MemOk.retireCkpts (h : s.MemOk) : (s.retireCkpts id).MemOk := h.coreFields.freeSlots

theorem State.MemOk.commitTo (h : s.MemOk) {c : BitVec 32} : (s.commitTo id c).MemOk := by
  unfold State.commitTo
  dsimp only
  split
  · exact h
  · exact h.releaseHeld.modCtx.coreFields.freeSlots.retireCkpts

theorem State.MemOk.autoCommit (h : s.MemOk) : (s.autoCommit id need n).MemOk := by
  induction n generalizing s with
  | zero => exact h
  | succ n ih =>
    unfold State.autoCommit
    split
    · exact h
    · split
      · exact .ite h (ih h.commitTo)
      · exact h

theorem State.MemOk.roomIf (h : s.MemOk) {takes : Bool} : (s.roomIf id takes need key first).MemOk :=
  .ite (.blocked h) (.ite (.done h.coreFields) (.ite (.ite (.done h.autoCommit.coreFields) (.blocked h.autoCommit)) (.ite
      (.blocked h.pendTrap.coreFields) (.blocked h))))

theorem State.MemOk.room (h : s.MemOk) {die : Option Nat} : (s.room id die need key first).MemOk := h.roomIf

theorem State.MemOk.logEntry (h : s.MemOk) {w : Nat} : (s.logEntry id w seq p n atom form word).MemOk := h.takeSlots.modCtx

theorem State.MemOk.logMade (h : s.MemOk) : (s.logMade id win seq p n atom form word).MemOk := by
  unfold State.logMade
  split
  · exact .ite h.logEntry h
  · exact h

theorem State.MemOk.logWrite (h : s.MemOk) : (s.logWrite id win seq p n atom form first).MemOk :=
  .ite (.seq h.room fun _ ht => .done ht.logMade) (.done h)

theorem CoreSt.MemOk.breakScratch (h : c.MemOk) : (c.breakScratch asid l a n).MemOk := by
  unfold CoreSt.breakScratch
  split
  · exact .ite h h
  · exact h

theorem State.MemOk.writeScratch (h : s.MemOk) : (s.writeScratch asid l a bs).MemOk := by
  unfold State.writeScratch
  refine .applyInjection (.clearPoison (.mapCores (.modCore h.changed fun c hc => ?_) fun _ hc => hc.breakScratch))
  obtain ⟨hr, hs, hn⟩ := hc
  exact ⟨hr, Mem.write_wf _ _ hs, hn⟩

theorem State.MemOk.writeRegSpace (h : s.MemOk) : (s.writeRegSpace id a bs).MemOk :=
  (h.changed.modCore fun _ hc => hc.same.writeReg).clearPoison.applyInjection

theorem State.MemOk.hold (h : s.MemOk) {it : HeldItem} : (s.hold d it).MemOk := .ite (.blocked h) (.done h.modDie)

theorem State.MemOk.hostWrite (h : s.MemOk) {tr : Transfer} {p : HostPart} {whole : Nat} :
    (s.hostWrite id win tr p whole).MemOk :=
  .ite (.done h.hostAccept) (.ite (.done (.ite h h.modDie)) (.seq h.hold fun _ ht => .done (.ite ht ht.modDie)))

theorem State.MemOk.devWrite (h : s.MemOk) {off : Nat} : (s.devWrite id win va off n v).MemOk :=
  .ite h.hold (.done h.releaseItem)

theorem State.MemOk.put (h : s.MemOk) : (s.put id win p bs va).MemOk := by
  unfold State.put
  split
  · exact .done h.writeScratch
  · exact .done h.writeRegSpace
  · exact .done h.hbmWrite
  · exact h.hostWrite
  · exact h.hostWrite
  · exact h.devWrite

theorem State.MemOk.perform (h : s.MemOk) : (s.perform id win seq p bs atom form first va).MemOk :=
  .seq h.logWrite fun _ ht => ht.put

theorem State.MemOk.addAt (h : s.MemOk) {kind : WriteKind} {v : Nat} : (s.addAt id win seq p n kind v form first).MemOk := by
  unfold State.addAt
  split
  · exact .done (h.consume.of_pair ‹_›)
  · exact (h.consume.of_pair ‹_›).perform

theorem State.MemOk.performBuf (h : s.MemOk) {w : BufWrite} : (s.performBuf w first).MemOk := by
  unfold State.performBuf
  split
  · exact h.perform
  · exact h.addAt

theorem State.MemOk.ack (h : s.MemOk) : (s.ack id).MemOk := h.coreFields

theorem State.MemOk.mergeEntry (h : s.MemOk) {e : Shadow} {charged : CoreId} : (s.mergeEntry d e charged first).MemOk :=
  .ite (.done h.touch.modDie) (.seq (.ite h.touch.room (.done h.touch)) fun _ ht => .seq ht.addAt fun _ ht2 =>
      .done ht2.coreFields.modDie)

theorem State.MemOk.mergeAll (h : s.MemOk) {charged : CoreId} {es : List Shadow} : (s.mergeAll d charged es).MemOk := by
  induction es generalizing s with
  | nil => exact .done h
  | cons e es ih => exact .seq h.mergeEntry fun _ ht => ih ht

theorem State.MemOk.mergeOf (h : s.MemOk) : (s.mergeOf id).MemOk := h.mergeAll

theorem State.MemOk.contribute (h : s.MemOk) {w : BufWrite} : (s.contribute w slot pa).MemOk := by
  unfold State.contribute
  dsimp only
  split
  · exact .done h.modDie
  · split
    · exact .ite (.seq h.mergeEntry fun _ ht => .done ht.modDie) (.done h.modDie)
    · exact .done h.modDie

theorem State.MemOk.lateRefusal (h : s.MemOk) {w : BufWrite} : (s.lateRefusal w code).MemOk := h.coreFields

theorem State.MemOk.outstanding (h : s.MemOk) : (s.outstanding id).MemOk := h.coreFields

theorem State.MemOk.shownTo (h : s.MemOk) {w : BufWrite} : (s.shownTo d w).MemOk := .ite h.overtake h

theorem State.MemOk.markBuf (h : s.MemOk) {w : BufWrite} : (s.markBuf w).MemOk := .ite h.mark h

theorem State.MemOk.drainOne (h : s.MemOk) : (s.drainOne id).MemOk := by
  unfold State.drainOne
  dsimp only
  split
  · exact .done h
  · split
    · exact .blocked h
    · split
      · split
        · exact .done h.coreFields.outstanding.lateRefusal
        · exact .seq h.performBuf fun _ ht => .done ht.markBuf.coreFields.askPlace
      · split
        · exact .done h.shownTo.coreFields.modDie.outstanding
        · split
          · exact .done h.shownTo.coreFields.modDie.outstanding
          · split
            · exact .done h.touch.coreFields.outstanding.lateRefusal
            · exact .seq h.contribute fun _ ht => .done ht.coreFields
        · exact .done h.coreFields

theorem State.MemOk.drainReg (h : s.MemOk) : (s.drainReg id).MemOk :=
  .ite h (h.coreFields.foldl fun _ _ ht => .ite ht.outstanding.lateRefusal ht.performBuf.state)

theorem State.MemOk.drainAll (h : s.MemOk) : (s.drainAll id n).MemOk := by
  induction n generalizing s with
  | zero => exact .done h
  | succ n ih => exact .ite (.done h) (.seq h.drainOne fun _ ht => ih ht)

theorem State.MemOk.edgeOne (h : s.MemOk) : (s.edgeOne d i).MemOk := by
  unfold State.edgeOne
  dsimp only
  split
  · exact .done h
  · split
    · exact .seq h.served.performBuf fun _ ht => .done ht.markBuf.modDie.ack
    · exact .done h.served.modDie.lateRefusal

theorem State.MemOk.edgeWhere (h : s.MemOk) {p : BufWrite → Bool} : (s.edgeWhere d p n).MemOk := by
  induction n generalizing s with
  | zero => exact .done h
  | succ n ih =>
    unfold State.edgeWhere
    split
    · exact .done h
    · exact .seq h.edgeOne fun _ ht => ih ht

theorem State.MemOk.busRead (h : s.MemOk) {off : Nat} : (s.busRead off).2.MemOk :=
  busRead_cases (P := fun r => r.2.MemOk) s off (fun _ => h) fun _ => h

end Sys2Proof.Machine
end

section
/-! The scalar instructions keep every memory in canonical form (spec/00 R3). -/

namespace Sys2Proof.Machine

variable {s : State} {id : CoreId} {asid n i a l code d kind who amount reason ctr need name : Nat} {v va : Word} {p : Place}
    {bs : List Byte} {q : Queue} {w : CmdWord} {rs1 rs2 rd : Reg} {sc : Scope} {imm : BitVec 12} {vw rg : BitVec 4}
    {rels : List Rel} {ids : List CoreId} {reg dbl aq rl col vec : Bool} {c : CoreSt} {x : Ctx} {r : TaskRec}

/-! ### What their effects are made of -/

theorem trapM_keeps {α : Type} {t : TrapInfo} : KeepsMem (trapM t : M α) := fun _ _ => .trap

theorem trapR_keeps {α : Type} : KeepsMem (trapR code reason : M α) := trapM_keeps

theorem trap0_keeps {α : Type} : KeepsMem (trap0 code : M α) := trapM_keeps

theorem illegal_keeps {α : Type} : KeepsMem (illegal : M α) := trap0_keeps

theorem misaligned_keeps {α : Type} : KeepsMem (misaligned va : M α) := trapM_keeps

theorem waitM_keeps {α : Type} : KeepsMem (waitM : M α) := fun _ h => .wait h

theorem updM_keeps {f : State → State} (hf : ∀ s, s.MemOk → (f s).MemOk) : KeepsMem (updM f) := fun _ h => .ok (hf _ h)

theorem me_keeps : KeepsMem me := fun _ h => .ok h

theorem myId_keeps : KeepsMem myId := fun _ h => .ok h

theorem myCtx_keeps : KeepsMem myCtx := fun _ h => .ok h

theorem modMe_keeps {f : CoreSt → CoreSt} (hf : ∀ c, c.MemOk → (f c).MemOk) : KeepsMem (modMe f) :=
  fun _ h => .ok (h.modCore hf)

/-- A change of the core's own other fields. -/
theorem meFields_keeps
    {id x f pc runtime pfx resv csr gslSeen instret task cont stage vw rg rgp wLines wRegs sLines sRegs waiting inbox outq eqm
    eqv eqc eqp flights sb late pend due win ckpts inputs storeSeq reqSeq rqout issueNo sentNo dicnt gang fuse arrivals
    sstepAt sstepBy sstepDone genNum bp wp ibuf stale stopped fcause memRw stepping replay committed logWait draining early
    fits fitNo rels heard ctrRels sstepRels hostAmo rewinding : CoreSt → _} :
    KeepsMem (modMe fun c =>
      ⟨id c, x c, f c, pc c, runtime c, pfx c, resv c, csr c, gslSeen c, instret c, task c, cont c, stage c, vw c, rg c,
      rgp c, c.reg, c.scratch, wLines c, wRegs c, sLines c, sRegs c, c.ctrs, waiting c, inbox c, outq c, eqm c, eqv c, eqc c,
      eqp c, flights c, sb c, late c, pend c, due c, win c, ckpts c, inputs c, storeSeq c, reqSeq c, rqout c, issueNo c,
      sentNo c, dicnt c, gang c, fuse c, arrivals c, sstepAt c, sstepBy c, sstepDone c, genNum c, bp c, wp c, ibuf c, stale c,
      stopped c, fcause c, memRw c, stepping c, replay c, committed c, logWait c, draining c, early c, fits c, fitNo c,
      rels c, heard c, ctrRels c, sstepRels c, hostAmo c, rewinding c⟩) :=
  modMe_keeps fun _ hc => hc

theorem rxM_keeps {i : Reg} : KeepsMem (rxM i) := fun _ h => .ok h

theorem rfM_keeps {i : Reg} : KeepsMem (rfM i) := fun _ h => .ok h

theorem wxM_keeps {i : Reg} : KeepsMem (wxM i v) := modMe_keeps fun _ hc => hc.wx

theorem wfM_keeps {i : Reg} : KeepsMem (wfM i v) := meFields_keeps

theorem advance_keeps : KeepsMem advance := meFields_keeps

theorem freeWordM_keeps : KeepsMem freeWordM := fun _ h => .ok h.bump

theorem refuse_keeps {α : Type} : KeepsMem (refuse code va : M α) := trapM_keeps

theorem State.MemOk.traceAt (h : s.MemOk) {ss : BitVec 32} {tick : Nat} {p1 p2 : Word} :
    (s.traceAt kind id ss tick p1 p2).MemOk := by
  unfold State.traceAt
  dsimp only
  split
  · exact h
  · split
    · exact h
    · split
      · exact h.foundIn.same
      · split
        · exact .ite h.foundIn.touch.hbmWrite.same h.foundIn.same
        · exact h.foundIn.hostAccept.same
        · exact h.foundIn.hostAccept.same
        · exact h.foundIn.same

theorem State.MemOk.trace (h : s.MemOk) {p1 p2 : Word} : (s.trace kind id p1 p2).MemOk := h.traceAt

theorem watch_keeps {write : Bool} : KeepsMem (watch va n write) := fun _ h => .ite (.halt h.dbgStop) (.ok h)

theorem State.MemOk.want (h : s.MemOk) : (s.want asid p n).MemOk := .ite h h.modCtx

theorem State.MemOk.spillUnits (h : s.MemOk) {b : Nat} : (s.spillUnits asid l b).MemOk := .ite h h.modCtx.askBank

theorem State.MemOk.bringIn (h : s.MemOk) {b : Nat × Nat} : (s.bringIn asid b).MemOk := by
  refine (h.foldl fun _ _ ht => ?_).modCtx.injectAt
  split
  · exact .ite ht.modCtx ht
  · exact ht

theorem State.MemOk.reach (h : s.MemOk) {unit : Bool} : (s.reach asid p n unit).MemOk := h.askPlace.served

theorem demandM_keeps : KeepsMem (demandM p n) := fun _ h => .ite (.ok h) .absent

theorem openPlace_keeps {unit : Bool} : KeepsMem (openPlace p n va unit) := by
  unfold openPlace
  intro _ h
  dsimp only
  split
  · exact .absent
  · split
    · split
      · exact .halt (h.reach.consume.of_pair ‹_›)
      · exact .ite (refuse_keeps _ (h.reach.consume.of_pair ‹_›)) (.ok (h.reach.consume.of_pair ‹_›))
    · exact .refused

theorem coverM_keeps : KeepsMem (coverM p n va) := fun _ h => .ite (refuse_keeps _ h) (.ok h)

theorem State.MemOk.seeStale (h : s.MemOk) : (s.seeStale id reg a n).1.MemOk := .fst_ite h h.coreFields.same

theorem readAt_keeps : KeepsMem (readAt p n) := by
  unfold readAt
  intro _ h
  dsimp only
  split
  · exact .ite (.ok h.seeStale) (.ok h)
  · exact .ok h.seeStale
  · exact .ok h.busRead
  · exact .ok h

theorem State.MemOk.learn (h : s.MemOk) {r : Rel} : (s.learn id r).MemOk :=
  .ite (.ite h h.coreFields) (.coreFields (.ite h h.coreFields))

theorem State.MemOk.acquires (h : s.MemOk) {rs : List Rel} : (s.acquires id sc rs).MemOk :=
  .ite (h.foldl fun _ _ ht => ht.learn) h

theorem State.MemOk.hear (h : s.MemOk) {rs : List Rel} : (s.hear id sc rs).MemOk := .ite h h.coreFields.acquires

theorem hearM_keeps {rs : List Rel} : KeepsMem (hearM sc rs) := updM_keeps fun _ ht => ht.hear

theorem heedM_keeps : KeepsMem (heedM p n sc) := updM_keeps fun _ ht => ht.hear

theorem drainM_keeps : KeepsMem drainM := fun _ h => (tryM_keeps fun _ ht => ht.drainAll) _ h

theorem drainTo_keeps {p : BufWrite → Bool} : KeepsMem (drainTo p) := fun _ h => (tryM_keeps fun _ ht => ht.drainAll) _ h

theorem edgeM_keeps {p : BufWrite → Bool} : KeepsMem (edgeM p) := fun _ h => (tryM_keeps fun _ ht => ht.edgeWhere) _ h

theorem aheadM_keeps : KeepsMem (aheadM p n sc) := by
  unfold aheadM
  intro _ h
  dsimp only
  split
  · exact .ok h
  · exact .ite (.ok h.bump.hear) (.ok h.bump)

theorem dropAheadM_keeps : KeepsMem (dropAheadM p n) := .bind me_keeps fun _ => .ite meFields_keeps .pure

theorem loadPlace_keeps : KeepsMem (loadPlace p n sc va) := by
  have direct : KeepsMem (do
      openPlace p n va
      let bs ← readAt p n
      dropAheadM p n
      heedM p n sc
      pure (leNat bs)) :=
    .bind openPlace_keeps fun _ => .bind readAt_keeps fun _ => .bind dropAheadM_keeps fun _ => .bind heedM_keeps fun _ => .pure
  unfold loadPlace
  dsimp only
  refine .bind me_keeps fun _ => ?_
  split
  · exact .bind drainTo_keeps fun _ => .bind edgeM_keeps fun _ => .bind .get fun _ =>
      .ite waitM_keeps (.bind readAt_keeps fun _ => .pure)
  · split
    refine .ite .pure (.bind drainM_keeps fun _ => ?_)
    all_goals
      refine .ite (.bind openPlace_keeps fun _ => .bind readAt_keeps fun _ => .bind heedM_keeps fun _ => .pure)
        (.bind .get fun _ => ?_)
      split
      · refine .ite direct (.bind aheadM_keeps fun _ => ?_)
        split
        · exact .pure
        · exact direct
      · exact .ite (.bind edgeM_keeps fun _ => direct) (.bind dropAheadM_keeps fun _ => .bind hearM_keeps fun _ => .pure)

theorem walkM_keeps : KeepsMem (walkM va) := by
  unfold walkM
  intro _ h
  dsimp only
  split
  · exact .halt (h.walkMet.of_pair ‹_›)
  · exact .ok (h.walkMet.of_pair ‹_›)

theorem resolveM_keeps {acc : Access} : KeepsMem (resolveM va n acc) := by
  refine .bind walkM_keeps fun _ => .bind .get fun _ => ?_
  split
  · exact .pure
  · exact refuse_keeps

theorem loadM_keeps : KeepsMem (loadM va n sc) := .bind watch_keeps fun _ => .bind resolveM_keeps fun _ => loadPlace_keeps

theorem takeRq_keeps : KeepsMem takeRq := fun _ h => .ok h.coreFields

theorem takeSeq_keeps : KeepsMem takeSeq := fun _ h => .ok h.coreFields

theorem reserveM_keeps : KeepsMem (reserveM need p) := by
  refine .bind me_keeps fun _ => ?_
  split
  · exact tryM_keeps fun _ ht => ht.room
  · exact .pure

theorem rqRoom_keeps : KeepsMem rqRoom := .bind me_keeps fun _ => .ite waitM_keeps .pure

theorem bufferM_keeps {v : Nat} {kind : WriteKind} {r : Except Nat Place} : KeepsMem (bufferM va n v kind r sc) := by
  unfold bufferM
  refine .bind myId_keeps fun _ => .bind me_keeps fun _ => ?_
  split
  · exact .bind demandM_keeps fun _ => .ite (.bind .pure fun _ => .bind takeSeq_keeps fun _ =>
        meFields_keeps) (.bind rqRoom_keeps fun _ => .bind takeRq_keeps fun _ => .bind takeSeq_keeps fun _ => meFields_keeps)
  · exact .ite refuse_keeps (.bind rqRoom_keeps fun _ => .bind takeRq_keeps fun _ => .bind takeSeq_keeps fun _ =>
        meFields_keeps)

theorem storeM_keeps {v : Nat} : KeepsMem (storeM va n v sc) :=
  .bind watch_keeps fun _ => .bind walkM_keeps fun _ => .bind .get fun _ => bufferM_keeps

theorem State.MemOk.released (h : s.MemOk) : (s.released id sc).MemOk := .ite h.coreFields h

theorem release_keeps : KeepsMem (release sc) := by
  unfold release
  exact .bind drainM_keeps fun _ => .ite (.bind (tryM_keeps fun _ ht => ht.mergeOf) fun _ => .bind edgeM_keeps fun _ =>
      updM_keeps fun _ ht => ht.released) (updM_keeps fun _ ht => ht.released)

theorem acquire_keeps : KeepsMem (acquire sc) := updM_keeps fun _ ht => ht.acquires

theorem acquireOf_keeps {rs : List Rel} : KeepsMem (acquireOf sc rs) := updM_keeps fun _ ht => ht.acquires

theorem State.MemOk.begins (h : s.MemOk) : (s.begins id sc).MemOk := .ite h h.coreFields

theorem acquireNow_keeps : KeepsMem (acquireNow sc) := .bind acquire_keeps fun _ => updM_keeps fun _ ht => ht.begins

theorem seenM_keeps {keep : Stale → Bool} : KeepsMem (seenM keep) := .bind me_keeps fun _ => .ite meFields_keeps .pure

theorem atomRead_keeps {weak : Bool} : KeepsMem (atomRead p n weak) := by
  refine .bind myId_keeps fun _ => ?_
  split
  · refine .ite (.bind seenM_keeps fun _ _ h => ?_) fun _ h => .ok h
    exact .ok (.fst_ite h.seeStale h)
  · exact fun _ h => .ok h

theorem hostRmw_keeps {op : Rmw} : KeepsMem (hostRmw p va op) := by
  unfold hostRmw
  refine .bind myId_keeps fun _ => .bind edgeM_keeps fun _ => .bind openPlace_keeps fun _ => .bind me_keeps fun _ => ?_
  split
  · exact .bind meFields_keeps fun _ => .bind takeSeq_keeps fun _ => .pure
  · exact waitM_keeps
  · exact .bind (tryM_keeps fun _ ht => ht.hold) fun _ => .bind meFields_keeps fun _ => waitM_keeps
  · exact .bind .get fun _ => .ite waitM_keeps (.bind heedM_keeps fun _ => .bind (updM_keeps fun _ ht =>
        ht.hostAtom.coreFields) fun _ => .bind takeSeq_keeps fun _ => .pure)

theorem rmwM_keeps {bulkOk : Bool} {op : Rmw} : KeepsMem (rmwM va bulkOk op) := by
  unfold rmwM
  refine .bind watch_keeps fun _ => .bind watch_keeps fun _ => .bind resolveM_keeps fun _ => .guard refuse_keeps fun _ =>
      .bind drainM_keeps fun _ => .bind edgeM_keeps fun _ => .ite hostRmw_keeps (.bind openPlace_keeps fun _ =>
      .bind atomRead_keeps fun _ => .bind heedM_keeps fun _ => .bind me_keeps fun _ => .bind .get fun _ => ?_)
  split
  · exact .bind takeSeq_keeps fun _ => .pure
  · exact .bind (tryM_keeps fun _ ht => ht.perform) fun _ => .bind (updM_keeps fun _ ht => ht.markStore) fun _ =>
        .bind takeSeq_keeps fun _ => .pure

theorem State.MemOk.modLease (h : s.MemOk) {f : Lease → Lease} : (s.modLease id f).MemOk := h.modDie

theorem State.MemOk.splitGang (h : s.MemOk) : (s.splitGang id).MemOk := by
  unfold State.splitGang
  split
  · exact h
  · exact h.modLease.foldl fun _ _ ht => ht.coreFields

theorem State.MemOk.flush (h : s.MemOk) : (s.flush id).MemOk := h.drainAll.state

theorem State.MemOk.enterHandler (h : s.MemOk) {epc : Word} {t : TrapInfo} {async : Bool} :
    (s.enterHandler id epc t async).MemOk := .ite h.coreFields.raiseHalt h.flush.coreFields.trace

theorem State.MemOk.syncTrap (h : s.MemOk) {epc : Word} {t : TrapInfo} : (s.syncTrap id epc t).MemOk :=
  .ite h.coreFields.raiseHalt (.ite h.coreFields h.enterHandler)

theorem State.MemOk.takeTrap (h : s.MemOk) {t : TrapInfo} : (s.takeTrap t).MemOk :=
  .ite h.same.coreFields.diverge (h.splitGang.same.syncTrap.foldl fun _ _ ht => ht.syncTrap)

theorem State.MemOk.reached (h : s.MemOk) {d : Option Nat} : (s.reached d).MemOk := h.served

theorem State.MemOk.retire (h : s.MemOk) : s.retire.MemOk := h.coreFields.same

/-- A scalar instruction whose effect keeps the memories: a trap, a wait and a halt keep them too. -/
theorem runScalar_memOk {parcel : Parcel} {m : M Unit} (hm : KeepsMem m) (h : s.MemOk) : NextOk (runScalar parcel m s) := by
  unfold runScalar
  split
  · have hr := hm s h
    split
    all_goals rename_i e; rw [e] at hr; cases hr
    · exact .next (State.MemOk.retire ‹_›)
    · exact .next h.takeTrap
    · exact .next h.reached.takeTrap
    · exact .next (State.MemOk.same ‹_›)
    · exact .next (State.MemOk.same ‹_›)
    · exact .next h.want.same
  · exact .fault

theorem zeroCount_memOk {r : Host.Outcome State Fault Refusal} (h : NextOk r) : NextOk (zeroCount r) := by
  unfold zeroCount
  split
  · have ht := h.of_next rfl
    exact .ite (.next ht.coreFields) (.next ht)
  · exact h

theorem runPrefix_memOk {parcel : Parcel} {m : M Unit} (hm : KeepsMem m) (h : s.MemOk) : NextOk (runPrefix parcel m s) := by
  unfold runPrefix
  split
  · have hr := hm s h
    split
    all_goals rename_i e; rw [e] at hr; cases hr
    · exact .next (State.MemOk.same ‹_›)
    · exact .next h.takeTrap
    · exact .next h.reached.takeTrap
    · exact .next (State.MemOk.same ‹_›)
    · exact .next (State.MemOk.same ‹_›)
    · exact .next h.want.same
  · exact .fault

theorem State.MemOk.recordInput (h : s.MemOk) : (s.recordInput id kind v who).MemOk := by
  unfold State.recordInput
  dsimp only
  split
  · exact .ite (.seq h.room fun _ ht => .done ht.bump.coreFields) (.done h)
  · exact .done h

theorem recordM_keeps : KeepsMem (recordM kind v) := tryM_keeps fun _ ht => ht.recordInput

theorem inputM_keeps : KeepsMem (inputM kind v) := by
  unfold inputM
  refine .bind .get fun _ => .ite ?_ (.bind recordM_keeps fun _ => .pure)
  split
  · exact .ite (.bind meFields_keeps fun _ => .pure) fun _ h => .halt h.diverge
  · exact .pure

theorem aligned_keeps : KeepsMem (aligned va n) := .ite .pure misaligned_keeps

theorem flagsM_keeps {fl : Nat} : KeepsMem (flagsM fl) := meFields_keeps

theorem eventsM_keeps {evs : Evs} : KeepsMem (eventsM evs) := modMe_keeps fun _ hc => hc.countEvs

theorem rmM_keeps {rm : BitVec 3} : KeepsMem (rmM rm) := by
  refine .bind me_keeps fun _ => ?_
  split
  · exact .pure
  · exact illegal_keeps

/-! ### Standard and custom-0 instructions -/

@[simp] theorem execIntegerOp_memOk (h : s.MemOk) {op : IntegerOp} : NextOk (execIntegerOp op s) :=
  runScalar_memOk (.bind me_keeps fun _ => .bind wxM_keeps fun _ => advance_keeps) h

theorem loadPut_keeps {op : LoadOp} {v : Nat} : KeepsMem (loadPut op rd v) := by
  cases op with
  | flh | flw | fld => exact wfM_keeps
  | _ => exact wxM_keeps

@[simp] theorem execLoad_memOk (h : s.MemOk) {op : LoadOp} : NextOk (execLoad op rd rs1 imm s) :=
  runScalar_memOk (.bind me_keeps fun _ => .bind aligned_keeps fun _ => .bind loadM_keeps fun _ => .bind loadPut_keeps fun _ =>
      advance_keeps) h

@[simp] theorem execStore_memOk (h : s.MemOk) {op : StoreOp} : NextOk (execStore op rs1 rs2 imm s) :=
  runScalar_memOk (.bind me_keeps fun _ => .bind aligned_keeps fun _ => .guard release_keeps fun _ =>
      .bind storeM_keeps fun _ => advance_keeps) h

@[simp] theorem execAmo_memOk (h : s.MemOk) {op : AmoOp} : NextOk (execAmo op dbl aq rl rd rs1 rs2 s) := by
  unfold execAmo
  exact runScalar_memOk (.bind me_keeps fun _ => .bind aligned_keeps fun _ => .guard release_keeps fun _ =>
      .bind rmwM_keeps fun _ => .bind acquireNow_keeps fun _ => .bind wxM_keeps fun _ => advance_keeps) h

@[simp] theorem execLr_memOk (h : s.MemOk) : NextOk (execLr dbl aq rl rd rs1 s) := by
  unfold execLr
  exact runScalar_memOk (.bind me_keeps fun _ => .bind aligned_keeps fun _ => .guard release_keeps fun _ =>
      .bind watch_keeps fun _ => .bind resolveM_keeps fun _ => .guard refuse_keeps fun _ => .bind drainM_keeps fun _ =>
      .bind edgeM_keeps fun _ => .bind openPlace_keeps fun _ => .bind atomRead_keeps fun _ => .bind heedM_keeps fun _ =>
      .bind meFields_keeps fun _ => .bind acquireNow_keeps fun _ => .bind wxM_keeps fun _ => advance_keeps) h

@[simp] theorem execSc_memOk (h : s.MemOk) : NextOk (execSc dbl aq rl rd rs1 rs2 s) := by
  unfold execSc
  exact runScalar_memOk (.bind me_keeps fun _ => .bind aligned_keeps fun _ => .guard release_keeps fun _ =>
      .bind watch_keeps fun _ => .bind resolveM_keeps fun _ => .guard refuse_keeps fun _ => .bind drainM_keeps fun _ =>
      .bind edgeM_keeps fun _ => .bind openPlace_keeps fun _ => .bind me_keeps fun _ => .ite (.bind .get fun _ =>
      .bind (tryM_keeps fun _ ht => ht.perform) fun _ => .bind (updM_keeps fun _ ht => ht.markStore) fun _ =>
      .bind takeSeq_keeps fun _ => .bind wxM_keeps fun _ => .bind meFields_keeps fun _ => .bind acquireNow_keeps fun _ =>
      advance_keeps) (.bind wxM_keeps fun _ => .bind meFields_keeps fun _ => .bind acquireNow_keeps fun _ => advance_keeps)) h

@[simp] theorem execFence_memOk (h : s.MemOk) {fm pred succ : BitVec 4} : NextOk (execFence fm pred succ s) :=
  runScalar_memOk (.bind me_keeps fun _ => .ite (.bind release_keeps fun _ => .bind acquireNow_keeps fun _ =>
      advance_keeps) advance_keeps) h

@[simp] theorem execFenceI_memOk (h : s.MemOk) : NextOk (execFenceI s) :=
  runScalar_memOk (.bind drainM_keeps fun _ => .bind edgeM_keeps fun _ => .bind meFields_keeps fun _ => advance_keeps) h

@[simp] theorem execEcall_memOk (h : s.MemOk) : NextOk (execEcall s) := runScalar_memOk trap0_keeps h

@[simp] theorem execEbreak_memOk (h : s.MemOk) : NextOk (execEbreak s) := runScalar_memOk trap0_keeps h

theorem csrReadM_keeps : KeepsMem (csrReadM n) := .bind .get fun _ => .ite inputM_keeps (.ite inputM_keeps .pure)

@[simp] theorem execCsrAccess_memOk (h : s.MemOk) {op : CsrOp} {useImm : Bool} {csr : BitVec 12} {src : Reg} :
    NextOk (execCsrAccess op useImm csr rd src s) := by
  unfold execCsrAccess
  exact runScalar_memOk (.bind me_keeps fun _ => .guard illegal_keeps fun _ => .bind csrReadM_keeps fun _ =>
      .ite (.guard trapR_keeps fun _ => .bind meFields_keeps fun _ => .bind wxM_keeps fun _ =>
      advance_keeps) (.bind wxM_keeps fun _ => advance_keeps)) h

theorem putF_keeps {fmt : FFmt} {r : Nat × Nat} : KeepsMem (putF fmt rd r) := .bind wfM_keeps fun _ => flagsM_keeps

theorem rfF_keeps {fmt : FFmt} {r : Reg} : KeepsMem (rfF fmt r) := .bind rfM_keeps fun _ => .pure

theorem floatRun_keeps {op : FloatOp} : KeepsMem (floatRun op) := by
  cases op with
  | fma => exact .bind rmM_keeps fun _ => .bind rfF_keeps fun _ => .bind rfF_keeps fun _ => .bind rfF_keeps fun _ => putF_keeps
  | arith => exact .bind rmM_keeps fun _ => .bind rfF_keeps fun _ => .bind rfF_keeps fun _ => putF_keeps
  | sqrt => exact .bind rmM_keeps fun _ => .bind rfF_keeps fun _ => putF_keeps
  | sgnj => exact .bind rfF_keeps fun _ => .bind rfF_keeps fun _ => wfM_keeps
  | minmax => exact .bind rfF_keeps fun _ => .bind rfF_keeps fun _ => putF_keeps
  | cmp => exact .bind rfF_keeps fun _ => .bind rfF_keeps fun _ => .bind wxM_keeps fun _ => flagsM_keeps
  | toInt => exact .bind rmM_keeps fun _ => .bind rfF_keeps fun _ => .bind wxM_keeps fun _ => flagsM_keeps
  | ofInt => exact .bind rmM_keeps fun _ => .bind rxM_keeps fun _ => putF_keeps
  | cvt => exact .bind rmM_keeps fun _ => .bind rfF_keeps fun _ => putF_keeps
  | mvX => exact .bind rfM_keeps fun _ => wxM_keeps
  | mvF => exact .bind rxM_keeps fun _ => wfM_keeps
  | cls => exact .bind rfF_keeps fun _ => wxM_keeps

@[simp] theorem execFloatOp_memOk (h : s.MemOk) {op : FloatOp} : NextOk (execFloatOp op s) :=
  runScalar_memOk (.bind floatRun_keeps fun _ => advance_keeps) h

theorem deciderM_keeps : KeepsMem deciderM := fun _ h => .ok h

theorem jumpM_keeps {t : Word} : KeepsMem (jumpM t) := .bind aligned_keeps fun _ => meFields_keeps

@[simp] theorem execBranchJump_memOk (h : s.MemOk) {op : BranchJump} : NextOk (execBranchJump op s) := by
  unfold execBranchJump
  refine runScalar_memOk (.bind me_keeps fun _ => ?_) h
  split
  · exact .bind deciderM_keeps fun _ => .ite jumpM_keeps advance_keeps
  · exact .bind jumpM_keeps fun _ => wxM_keeps
  · exact .bind deciderM_keeps fun _ => .bind jumpM_keeps fun _ => wxM_keeps

@[simp] theorem execLda_memOk (h : s.MemOk) {sz : Size} {imm : BitVec 7} : NextOk (execLda sz sc rd rs1 imm s) := by
  unfold execLda
  exact runScalar_memOk (.bind me_keeps fun _ => .bind aligned_keeps fun _ => .bind loadM_keeps fun _ =>
      .bind acquire_keeps fun _ => .bind wxM_keeps fun _ => advance_keeps) h

@[simp] theorem execStl_memOk (h : s.MemOk) {sz : Size} {imm : BitVec 7} : NextOk (execStl sz sc rs1 rs2 imm s) :=
  runScalar_memOk (.bind me_keeps fun _ => .bind aligned_keeps fun _ => .bind release_keeps fun _ =>
      .bind storeM_keeps fun _ => advance_keeps) h

@[simp] theorem execOfence_memOk (h : s.MemOk) : NextOk (execOfence sc s) :=
  runScalar_memOk (.bind release_keeps fun _ => .bind acquireNow_keeps fun _ => advance_keeps) h

theorem fenceSe_keeps : KeepsMem fenceSe := .bind drainM_keeps fun _ => .bind myId_keeps fun _ => edgeM_keeps

theorem fenceEl_keeps : KeepsMem fenceEl := meFields_keeps

@[simp] theorem execXfence_memOk (h : s.MemOk) {dir : XDir} : NextOk (execXfence dir s) := by
  unfold execXfence
  refine runScalar_memOk ?_ h
  split
  · exact .bind fenceSe_keeps fun _ => advance_keeps
  · exact .bind fenceEl_keeps fun _ => advance_keeps
  · exact .bind fenceSe_keeps fun _ => .bind fenceEl_keeps fun _ => advance_keeps

@[simp] theorem execScx_memOk (h : s.MemOk) : NextOk (execScx sc s) :=
  runPrefix_memOk (.bind me_keeps fun _ => .guard trap0_keeps fun _ => meFields_keeps) h

@[simp] theorem execImx_memOk (h : s.MemOk) {p : BitVec 20} : NextOk (execImx p s) :=
  runPrefix_memOk (.bind me_keeps fun _ => .guard trap0_keeps fun _ => meFields_keeps) h

theorem redaddM_keeps {v : Nat} {kind : WriteKind} : KeepsMem (redaddM va n v kind) := by
  unfold redaddM
  dsimp only
  refine .bind aligned_keeps fun _ => .bind watch_keeps fun _ => .bind walkM_keeps fun _ => .bind .get fun _ => ?_
  split
  · exact refuse_keeps
  · exact bufferM_keeps

@[simp] theorem execRedaddW_memOk (h : s.MemOk) : NextOk (execRedaddW rs1 rs2 s) :=
  runScalar_memOk (.bind me_keeps fun _ => .bind redaddM_keeps fun _ => advance_keeps) h

@[simp] theorem execRedaddD_memOk (h : s.MemOk) : NextOk (execRedaddD rs1 rs2 s) :=
  runScalar_memOk (.bind me_keeps fun _ => .bind redaddM_keeps fun _ => advance_keeps) h

@[simp] theorem execRedaddF_memOk (h : s.MemOk) : NextOk (execRedaddF rs1 rs2 s) :=
  runScalar_memOk (.bind me_keeps fun _ => .bind redaddM_keeps fun _ => advance_keeps) h

@[simp] theorem execSamo_memOk (h : s.MemOk) {op : SamoOp} {off : Bool} : NextOk (execSamo op sc off dbl rd rs1 rs2 s) := by
  unfold execSamo
  exact runScalar_memOk (.bind me_keeps fun _ => .bind aligned_keeps fun _ => .bind release_keeps fun _ =>
      .bind rmwM_keeps fun _ => .bind acquireNow_keeps fun _ => .bind wxM_keeps fun _ => advance_keeps) h

/-! ### Tasks -/

theorem ownRead_keeps : KeepsMem (ownRead a n) :=
  .bind me_keeps fun _ => .guard drainM_keeps fun _ => .bind openPlace_keeps fun _ => readAt_keeps

theorem recAddr_keeps {a : Word} : KeepsMem (recAddr a) :=
  .bind myCtx_keeps fun _ => .bind aligned_keeps fun _ => .ite refuse_keeps .pure

theorem State.MemOk.makeRunnable (h : s.MemOk) {src : Nat} {home : Option Nat} :
    (s.makeRunnable asid src r home rels).MemOk := .ite h.modDie h

theorem State.MemOk.increment (h : s.MemOk) : (s.increment id ctr amount rels).MemOk :=
  (h.modCore fun _ hc => hc.setCtr.same).foldl fun _ _ ht => ht.makeRunnable

theorem State.MemOk.incrementRec (h : s.MemOk) : (s.incrementRec id ctr amount rels who).MemOk := by
  unfold State.incrementRec
  dsimp only
  split
  · exact .blocked h
  · split
    · split
      · exact .ite (.done h.coreFields.increment) (.blocked h)
      · exact .blocked h
    · exact .seq h.recordInput fun _ ht => .done ht.increment

theorem State.MemOk.postIncr (h : s.MemOk) {dst : Nat} {remote : Bool} : (s.postIncr id dst ctr amount remote rels).MemOk :=
  h.coreFields.same

theorem validateRec_keeps : KeepsMem (validateRec r) := .bind myCtx_keeps fun _ => .ite trapR_keeps .pure

theorem dieRoom_keeps : KeepsMem (dieRoom d) := .bind .get fun _ => .ite waitM_keeps .pure

theorem poolRoom_keeps : KeepsMem (poolRoom r) := .bind myCtx_keeps fun _ => dieRoom_keeps

theorem publish_keeps {home : Option Nat} : KeepsMem (publish r home rels) := updM_keeps fun _ ht => ht.makeRunnable

theorem loadRec_keeps {a : Word} : KeepsMem (loadRec a) :=
  .bind recAddr_keeps fun _ => .bind ownRead_keeps fun _ => .bind myId_keeps fun _ => .pure

theorem releaseFor_keeps : KeepsMem (releaseFor sc) := .bind release_keeps fun _ => .bind .get fun _ => .pure

theorem releaseCtx_keeps : KeepsMem releaseCtx := .bind myCtx_keeps fun _ => releaseFor_keeps

@[simp] theorem execSpawn_memOk (h : s.MemOk) : NextOk (execSpawn rs1 s) := by
  unfold execSpawn
  exact runScalar_memOk (.bind rxM_keeps fun _ => .bind loadRec_keeps fun _ => .bind validateRec_keeps fun _ =>
      .bind poolRoom_keeps fun _ => .bind releaseCtx_keeps fun _ => .bind publish_keeps fun _ => advance_keeps) h

@[simp] theorem execArm_memOk (h : s.MemOk) : NextOk (execArm rs1 rs2 s) := by
  unfold execArm
  exact runScalar_memOk (.bind rxM_keeps fun _ => .bind rxM_keeps fun _ => .bind loadRec_keeps fun _ =>
      .guard trapR_keeps fun _ => .bind validateRec_keeps fun _ => .bind me_keeps fun _ => .guard trap0_keeps fun _ =>
      .guard poolRoom_keeps fun _ => .bind releaseCtx_keeps fun _ => .ite (.bind (modMe_keeps fun _ hc => hc.setCtr) fun _ =>
      .bind publish_keeps fun _ => .guard meFields_keeps fun _ => advance_keeps) (.bind meFields_keeps fun _ =>
      .guard meFields_keeps fun _ => advance_keeps)) h

@[simp] theorem execSig_memOk (h : s.MemOk) : NextOk (execSig rs1 rs2 s) := by
  unfold execSig
  exact runScalar_memOk (.bind rxM_keeps fun _ => .bind rxM_keeps fun _ => .bind myCtx_keeps fun _ => .bind myId_keeps fun _ =>
      .guard trapR_keeps fun _ => .guard trapR_keeps fun _ => .bind rqRoom_keeps fun _ => .bind releaseFor_keeps fun _ =>
      .bind takeRq_keeps fun _ => .bind (updM_keeps fun _ ht => ht.postIncr) fun _ => advance_keeps) h

theorem goIdle_keeps {yield : Bool} {d0 : Word} : KeepsMem (goIdle yield d0) :=
  .bind (updM_keeps fun _ ht => ht.trace) fun _ => .bind (updM_keeps fun _ ht => ht.splitGang) fun _ => meFields_keeps

@[simp] theorem execTdone_memOk (h : s.MemOk) : NextOk (execTdone s) := by
  unfold execTdone
  refine runScalar_memOk (.bind me_keeps fun _ => ?_) h
  split
  · exact .ite (.bind releaseCtx_keeps fun _ => .bind myId_keeps fun _ => .bind (updM_keeps fun _ ht => ht.postIncr) fun _ =>
        .bind advance_keeps fun _ => goIdle_keeps) (.bind advance_keeps fun _ => goIdle_keeps)
  · exact .bind advance_keeps fun _ => goIdle_keeps

@[simp] theorem execTyield_memOk (h : s.MemOk) : NextOk (execTyield s) := by
  unfold execTyield
  refine runScalar_memOk (.bind me_keeps fun _ => .bind myId_keeps fun _ => .bind .get fun _ => ?_) h
  split
  · exact .ite (.bind advance_keeps fun _ => goIdle_keeps) (.bind dieRoom_keeps fun _ => .bind publish_keeps fun _ =>
        .bind advance_keeps fun _ => goIdle_keeps)
  · exact .bind advance_keeps fun _ => goIdle_keeps

@[simp] theorem execTcall_memOk (h : s.MemOk) : NextOk (execTcall rd rs1 s) :=
  runScalar_memOk (.bind me_keeps fun _ => .guard illegal_keeps fun _ => .guard trap0_keeps fun _ => .bind wxM_keeps fun _ =>
      meFields_keeps) h

@[simp] theorem execTret_memOk (h : s.MemOk) : NextOk (execTret s) :=
  runScalar_memOk (.bind me_keeps fun _ => .guard illegal_keeps fun _ => meFields_keeps) h

/-! ### Groups, barriers and counters -/

theorem groupArg_keeps : KeepsMem (groupArg v) := .guard trap0_keeps fun _ => .pure

theorem modMyCtx_keeps {f : Ctx → Ctx} : KeepsMem (modMyCtx f) := updM_keeps fun _ ht => ht.modCtx

@[simp] theorem execJoin_memOk (h : s.MemOk) : NextOk (execJoin rs1 s) :=
  runScalar_memOk (.bind rxM_keeps fun _ => .bind groupArg_keeps fun _ => .bind me_keeps fun _ => .bind modMyCtx_keeps fun _ =>
      advance_keeps) h

@[simp] theorem execLeave_memOk (h : s.MemOk) : NextOk (execLeave rs1 s) :=
  runScalar_memOk (.bind rxM_keeps fun _ => .bind groupArg_keeps fun _ => .bind me_keeps fun _ => .bind modMyCtx_keeps fun _ =>
      advance_keeps) h

theorem State.MemOk.dropArrival (h : s.MemOk) : (s.dropArrival asid l name).MemOk := h.coreFields

theorem arriveM_keeps {d : Word} {gth : Bool} {addr cen ballot : Option Nat} {waits : Bool} :
    KeepsMem (arriveM d gth addr cen ballot waits) := by
  unfold arriveM
  dsimp only
  refine .bind .get fun _ => .bind me_keeps fun _ => .bind myCtx_keeps fun _ => .guard trapR_keeps fun _ =>
      .guard trapR_keeps fun _ => .guard trapR_keeps fun _ => ?_
  split
  · exact .guard trapR_keeps fun _ => .guard trapR_keeps fun _ => .bind releaseFor_keeps fun _ => .bind myId_keeps fun _ =>
        .bind me_keeps fun _ => .bind modMyCtx_keeps fun _ => updM_keeps fun _ ht => ht.coreFields
  · exact .guard trapR_keeps fun _ => .bind releaseFor_keeps fun _ => .bind myId_keeps fun _ => .bind me_keeps fun _ =>
        .bind modMyCtx_keeps fun _ => updM_keeps fun _ ht => ht.coreFields

theorem waitingHere_keeps {d : Word} : KeepsMem (waitingHere d) := by
  refine .bind .get fun _ => .bind me_keeps fun _ => ?_
  split <;> exact .pure

theorem storeRecord_keeps {addr : Nat} : KeepsMem (storeRecord addr bs) := by
  unfold storeRecord
  exact .bind watch_keeps fun _ => .bind storeM_keeps fun _ => .bind storeM_keeps fun _ => .bind storeM_keeps fun _ =>
      .bind storeM_keeps fun _ => storeM_keeps

theorem awaitArrival_keeps : KeepsMem (awaitArrival name) := by
  refine .bind .get fun _ => .bind me_keeps fun _ => ?_
  split
  · exact .ite .pure waitM_keeps
  · exact waitM_keeps

theorem takeArrival_keeps : KeepsMem (takeArrival name) := .bind me_keeps fun _ => updM_keeps fun _ ht => ht.dropArrival

theorem finishBar_keeps {gth : Bool} {addr : Nat} {a : Arrival} : KeepsMem (finishBar gth addr a) :=
  .guard storeRecord_keeps fun _ => takeArrival_keeps

@[simp] theorem execBar_memOk (h : s.MemOk) : NextOk (execBar rs1 rs2 s) := by
  unfold execBar
  exact runScalar_memOk (.bind rxM_keeps fun _ => .bind rxM_keeps fun _ => .guard trapR_keeps fun _ =>
      .bind waitingHere_keeps fun _ => .guard arriveM_keeps fun _ => .bind awaitArrival_keeps fun _ =>
      .bind acquire_keeps fun _ => .bind acquireOf_keeps fun _ => .bind finishBar_keeps fun _ => advance_keeps) h

@[simp] theorem execBara_memOk (h : s.MemOk) : NextOk (execBara rs1 rs2 s) :=
  runScalar_memOk (.bind rxM_keeps fun _ => .bind rxM_keeps fun _ => .guard trapR_keeps fun _ => .bind arriveM_keeps fun _ =>
      advance_keeps) h

@[simp] theorem execBarw_memOk (h : s.MemOk) : NextOk (execBarw rs1 rs2 s) := by
  unfold execBarw
  exact runScalar_memOk (.bind rxM_keeps fun _ => .bind rxM_keeps fun _ => .guard trapR_keeps fun _ =>
      .bind myCtx_keeps fun _ => .bind me_keeps fun _ => .bind .get fun _ => .guard trapR_keeps fun _ =>
      .guard trapR_keeps fun _ => .bind awaitArrival_keeps fun _ => .bind acquire_keeps fun _ => .bind acquireOf_keeps fun _ =>
      .bind finishBar_keeps fun _ => advance_keeps) h

@[simp] theorem execVote_memOk (h : s.MemOk) : NextOk (execVote rd rs1 rs2 s) := by
  unfold execVote
  exact runScalar_memOk (.bind rxM_keeps fun _ => .bind rxM_keeps fun _ => .guard trapR_keeps fun _ =>
      .guard trapR_keeps fun _ => .bind waitingHere_keeps fun _ => .guard arriveM_keeps fun _ =>
      .bind awaitArrival_keeps fun _ => .bind acquire_keeps fun _ => .bind acquireOf_keeps fun _ =>
      .bind takeArrival_keeps fun _ => .bind wxM_keeps fun _ => advance_keeps) h

theorem State.MemOk.completeBarrier (h : s.MemOk) {b : Barrier} : (s.completeBarrier asid b).MemOk := by
  refine (h.modCtx.foldl fun _ _ ht => ht.coreFields).foldl fun _ _ ht => ?_
  split
  · exact ht.incrementRec.of_done ‹_›
  · exact (ht.incrementRec.of_blocked ‹_›).postIncr

@[simp] theorem execBarrierComplete_memOk (h : s.MemOk) {grp : Nat} : NextOk (execBarrierComplete asid grp name s) := by
  unfold execBarrierComplete
  split
  · exact .ite (.next h.completeBarrier) (.next h)
  · exact .next h

@[simp] theorem execSstep_memOk (h : s.MemOk) : NextOk (execSstep rd s) := by
  refine .ite (zeroCount_memOk ?run) ?run
  refine runScalar_memOk (.bind .get fun _ => .bind me_keeps fun _ => .bind myId_keeps fun _ =>
    .guard_ite waitM_keeps trapR_keeps fun _ =>
    .ite (.bind releaseCtx_keeps fun _ => .bind .get fun _ => .bind (updM_keeps fun _ ht => ht.coreFields) fun _ => ?_) ?_) h
  all_goals
    exact .bind .get fun _ => .guard waitM_keeps fun _ => .bind (updM_keeps fun _ ht => ht.coreFields) fun _ =>
      .bind myCtx_keeps fun _ => .bind acquire_keeps fun _ => .bind acquireOf_keeps fun _ => .bind wxM_keeps fun _ =>
      advance_keeps

@[simp] theorem execGfuse_memOk (h : s.MemOk) : NextOk (execGfuse rs1 s) := by
  unfold execGfuse
  exact runScalar_memOk (.bind rxM_keeps fun _ => .bind me_keeps fun _ => .bind myId_keeps fun _ => .bind .get fun _ =>
      .guard trap0_keeps fun _ => .ite (.bind (updM_keeps fun _ ht => ht.foldl fun _ _ ht2 => ht2.coreFields) fun _ =>
      meFields_keeps) fun _ h => .wait h.coreFields) h

@[simp] theorem execGsplit_memOk (h : s.MemOk) : NextOk (execGsplit s) :=
  runScalar_memOk (.bind (updM_keeps fun _ ht => ht.splitGang) fun _ => advance_keeps) h

theorem gangOne_memOk {run : State → Host.Outcome State Fault Refusal} (hr : ∀ t, t.MemOk → NextOk (run t))
    (h : s.MemOk) : (gangOne run s id).MemOk := by
  unfold gangOne
  split
  · exact (hr _ h.same).of_next ‹_›
  · exact h

theorem gangChain_memOk {run : State → Host.Outcome State Fault Refusal} (hr : ∀ t, t.MemOk → NextOk (run t))
    (h : s.MemOk) {t : State} (e : gangChain run s ids = .ok t) : t.MemOk := by
  induction ids generalizing s with
  | nil => cases e; exact h
  | cons id ids ih =>
    unfold gangChain at e
    dsimp only at e
    split at e
    · cases e
    · cases e
    · exact ih (gangOne_memOk hr h) e

theorem State.MemOk.gangTrap (h : s.MemOk) {ms : List CoreId} {traps : List (CoreId × TrapInfo × Word)} :
    (s.gangTrap ms traps).MemOk := by
  unfold State.gangTrap
  split
  · exact h
  · refine (h.splitGang.foldl fun _ _ ht => ?_).same
    split <;> exact ht.syncTrap

/-- The gang's outcome is one of what its members did, from the state that its instruction met. -/
theorem State.MemOk.gangRun (h : s.MemOk) {run : State → Host.Outcome State Fault Refusal}
    (hr : ∀ t, t.MemOk → NextOk (run t)) : NextOk (s.gangRun run) := by
  unfold State.gangRun
  dsimp only
  split
  · exact .next h.gangTrap.same
  · split
    · exact .next (State.MemOk.same (.foldl h fun _ _ ht => .ite (gangOne_memOk hr ht) ht))
    · split
      · refine .next (State.MemOk.same ?_)
        refine List.foldlRecOn (motive := fun b : Option State => (b.getD s).MemOk) _ _ h fun b hb p hp => ?_
        obtain ⟨m, -, rfl⟩ := List.mem_map.mp (List.mem_of_mem_filter hp)
        cases b with
        | none => exact gangOne_memOk hr h
        | some t => dsimp only; split; exacts [gangOne_memOk hr h, hb]
      · split
        · exact .next h.gangTrap.same
        · exact .next h.same
        · have hs := gangChain_memOk hr h ‹_›
          exact .next (State.MemOk.same (.ite (.foldl hs fun _ _ ht => ht.coreFields) hs))

/-! ### Queues and messages -/

@[simp] theorem execQpush_memOk (h : s.MemOk) {q : BitVec 4} : NextOk (execQpush q rs1 s) := by
  unfold execQpush
  exact runScalar_memOk (.bind rxM_keeps fun _ => .bind .get fun _ => .bind myCtx_keeps fun _ => .guard trapR_keeps fun _ =>
      .guard trapR_keeps fun _ => .guard trap0_keeps fun _ => .bind releaseCtx_keeps fun _ => .bind modMyCtx_keeps fun _ =>
      advance_keeps) h

theorem takeLeast_keeps {q : BitVec 4} {pop : Bool} : KeepsMem (takeLeast q pop) := by
  unfold takeLeast
  refine .bind .get fun _ => .bind myCtx_keeps fun _ => .bind me_keeps fun _ => .guard trapR_keeps fun _ =>
      .ite (.bind inputM_keeps fun _ => .pure) ?_
  split
  · exact .bind inputM_keeps fun _ => .pure
  · exact .bind inputM_keeps fun _ => .guard modMyCtx_keeps fun _ => .pure

@[simp] theorem execQpop_memOk (h : s.MemOk) {q : BitVec 4} : NextOk (execQpop rd q s) :=
  runScalar_memOk (.bind takeLeast_keeps fun _ => .bind myCtx_keeps fun _ => .bind acquireOf_keeps fun _ =>
      .bind wxM_keeps fun _ => advance_keeps) h

@[simp] theorem execQpeek_memOk (h : s.MemOk) {q : BitVec 4} : NextOk (execQpeek rd q s) :=
  runScalar_memOk (.bind takeLeast_keeps fun _ => .bind wxM_keeps fun _ => advance_keeps) h

@[simp] theorem execMsend_memOk (h : s.MemOk) {len : BitVec 3} : NextOk (execMsend rs1 rs2 len s) := by
  unfold execMsend
  dsimp only
  refine runScalar_memOk (.bind rxM_keeps fun _ => .bind rxM_keeps fun _ => .bind myCtx_keeps fun _ =>
      .bind myId_keeps fun _ => .guard trapR_keeps fun _ => .guard trapR_keeps fun _ => .guard trapR_keeps fun _ =>
      .bind aligned_keeps fun _ => .guard refuse_keeps fun _ => .bind watch_keeps fun _ => .bind .get fun _ =>
      .bind me_keeps fun _ => .guard waitM_keeps fun _ => ?_) h
  split
  · exact .guard waitM_keeps fun _ => .bind rqRoom_keeps fun _ => .bind ownRead_keeps fun _ => .bind releaseFor_keeps fun _ =>
        .bind takeRq_keeps fun _ => .bind takeSeq_keeps fun _ => .bind meFields_keeps fun _ => advance_keeps
  · exact .bind rqRoom_keeps fun _ => .bind ownRead_keeps fun _ => .bind releaseFor_keeps fun _ => .bind takeRq_keeps fun _ =>
        .bind takeSeq_keeps fun _ => .bind meFields_keeps fun _ => advance_keeps

theorem pickMsg_keeps {ib : Nat} : KeepsMem (pickMsg ib) := by
  refine .bind me_keeps fun _ => .ite ?_ ?_
  · split <;> exact .pure
  · split
    · exact .pure
    · split
      · exact .pure
      · exact waitM_keeps

@[simp] theorem execMpop_memOk (h : s.MemOk) {ib : BitVec 3} : NextOk (execMpop rd ib rs1 s) := by
  unfold execMpop
  refine runScalar_memOk (.bind rxM_keeps fun _ => .bind myCtx_keeps fun _ => .bind myId_keeps fun _ =>
      .bind aligned_keeps fun _ => .guard refuse_keeps fun _ => .bind pickMsg_keeps fun _ => ?_) h
  split
  · exact .bind takeSeq_keeps fun _ => .bind wxM_keeps fun _ => advance_keeps
  · exact .bind watch_keeps fun _ => .bind drainM_keeps fun _ => .bind coverM_keeps fun _ => .bind .get fun _ =>
        .bind me_keeps fun _ => .bind reserveM_keeps fun _ => .bind inputM_keeps fun _ => .bind demandM_keeps fun _ =>
        .bind (tryM_keeps fun _ ht => ht.perform) fun _ => .bind (updM_keeps fun _ ht => ht.askPlace.markStore) fun _ =>
        .bind takeSeq_keeps fun _ => .bind meFields_keeps fun _ => .bind acquireOf_keeps fun _ => .bind wxM_keeps fun _ =>
        advance_keeps

theorem CoreSt.MemOk.popFifo (h : c.MemOk) : (c.popFifo q).MemOk := h.setQueue

@[simp] theorem execEpop_memOk (h : s.MemOk) : NextOk (execEpop rd q s) := by
  unfold execEpop
  refine runScalar_memOk (.bind me_keeps fun _ => ?_) h
  split
  · exact waitM_keeps
  · exact .bind (modMe_keeps fun _ hc => hc.popFifo) fun _ => .bind acquireOf_keeps fun _ => .bind wxM_keeps fun _ =>
        advance_keeps

@[simp] theorem execEpopnb_memOk (h : s.MemOk) : NextOk (execEpopnb rd q s) := by
  unfold execEpopnb
  exact runScalar_memOk (.bind me_keeps fun _ => .guard waitM_keeps fun _ => .bind inputM_keeps fun _ =>
      .ite (.bind (modMe_keeps fun _ hc => hc.popFifo) fun _ => .bind acquireOf_keeps fun _ => .bind wxM_keeps fun _ =>
      advance_keeps) (.bind wxM_keeps fun _ => advance_keeps)) h

theorem resolveSlot_keeps {g : BitVec 4} {v : Bool} : KeepsMem (resolveSlot g v) := by
  unfold resolveSlot
  exact .guard illegal_keeps fun _ => .bind meFields_keeps fun _ => advance_keeps

@[simp] theorem execGset_memOk (h : s.MemOk) {g : BitVec 4} : NextOk (execGset g s) := runScalar_memOk resolveSlot_keeps h

@[simp] theorem execGclr_memOk (h : s.MemOk) {g : BitVec 4} : NextOk (execGclr g s) := runScalar_memOk resolveSlot_keeps h

theorem cbitsM_keeps : KeepsMem cbitsM := .bind .get fun _ => inputM_keeps

theorem branchBit_keeps {cb : BitVec 6} {want : Bool} : KeepsMem (branchBit cb imm want) :=
  .bind me_keeps fun _ => .bind aligned_keeps fun _ => .bind cbitsM_keeps fun _ => .ite meFields_keeps advance_keeps

@[simp] theorem execBcb_memOk (h : s.MemOk) {cb : BitVec 6} : NextOk (execBcb cb imm s) := runScalar_memOk branchBit_keeps h

@[simp] theorem execBcbn_memOk (h : s.MemOk) {cb : BitVec 6} : NextOk (execBcbn cb imm s) := runScalar_memOk branchBit_keeps h

@[simp] theorem execWfc_memOk (h : s.MemOk) : NextOk (execWfc rs1 s) := by
  unfold execWfc
  exact runScalar_memOk (.bind rxM_keeps fun _ => .ite (.bind .get fun _ => .bind me_keeps fun _ => .guard waitM_keeps fun _ =>
      .bind inputM_keeps fun _ => .guard waitM_keeps fun _ => advance_keeps) advance_keeps) h

@[simp] theorem execWfcy_memOk (h : s.MemOk) : NextOk (execWfcy rs1 s) :=
  runScalar_memOk (.bind rxM_keeps fun _ => .bind .get fun _ => .guard waitM_keeps fun _ => advance_keeps) h

/-! ### Windows -/

theorem State.MemOk.checkpoint (h : s.MemOk) {w : Nat} {pc : Word} : (s.checkpoint id w pc rd).MemOk := h.takeSlots.coreFields

theorem State.MemOk.openWindow (h : s.MemOk) {w : BitVec 32} {pc : Word} : (s.openWindow id w pc rd).MemOk :=
  .ite h.coreFields.checkpoint.retireCkpts h.coreFields.checkpoint

theorem State.MemOk.makeWindow (h : s.MemOk) : (s.makeWindow id).MemOk := by
  unfold State.makeWindow
  dsimp only
  split
  · exact .ite h.commitTo h
  · exact h

@[simp] theorem execWopen_memOk (h : s.MemOk) : NextOk (execWopen rd s) := by
  unfold execWopen
  exact zeroCount_memOk (runScalar_memOk (.bind myCtx_keeps fun _ => .bind me_keeps fun _ => .bind myId_keeps fun _ =>
      .guard trapR_keeps fun _ => .guard trapR_keeps fun _ => .bind (updM_keeps fun _ ht => ht.makeWindow.drainReg) fun _ =>
      .bind me_keeps fun _ => .bind .get fun _ => .guard trapR_keeps fun _ => .bind (tryM_keeps fun _ ht => ht.room) fun _ =>
      .bind (updM_keeps fun _ ht => ht.openWindow) fun _ => .bind wxM_keeps fun _ => advance_keeps) h)

theorem windowArg_keeps : KeepsMem (windowArg rs1) :=
  .bind myCtx_keeps fun _ => .bind rxM_keeps fun _ => .guard trapR_keeps fun _ => .guard trapR_keeps fun _ => .pure

@[simp] theorem execWcommit_memOk (h : s.MemOk) : NextOk (execWcommit rs1 s) := by
  unfold execWcommit
  refine runScalar_memOk (.bind windowArg_keeps fun _ => .bind me_keeps fun _ => .bind myId_keeps fun _ => ?_) h
  split
  · exact advance_keeps
  · exact .ite (.guard trapR_keeps fun _ => .bind (updM_keeps fun _ ht => ht.commitTo) fun _ => advance_keeps) advance_keeps

theorem State.MemOk.applyEntry (h : s.MemOk) {e : LogEntry} : (s.applyEntry asid e).MemOk := by
  unfold State.applyEntry
  split
  · exact h
  · split
    · exact h.writeScratch
    · exact h.hbmWrite
    · exact h

theorem CoreSt.MemOk.putUnit (h : c.MemOk) {u : CkUnit} : (c.putUnit u).MemOk := by
  unfold CoreSt.putUnit
  split
  · obtain ⟨hr, hs, hn⟩ := h
    exact ⟨Mem.write_wf _ _ hr, hs, hn⟩
  · exact h.unitSet

theorem CoreSt.MemOk.restoreUnits (h : c.MemOk) {w : Nat} : (c.restoreUnits w).MemOk := (h.foldl fun _ _ hc => hc.putUnit).same

theorem CoreSt.MemOk.resumeAt (h : c.MemOk) {k : Ckpt} : (c.resumeAt k).MemOk := by
  unfold CoreSt.resumeAt
  split
  · exact h.same.same.wx
  · exact h.same.same

theorem State.MemOk.unitsWritten (h : s.MemOk) {us : List CkUnit} : (s.unitsWritten id us).MemOk :=
  h.foldl fun _ _ ht => ht.clearPoison.applyInjection

theorem State.MemOk.rewindBody (h : s.MemOk) {w : Nat} : (s.rewindBody id w).MemOk := by
  unfold State.rewindBody
  dsimp only
  refine ((h.coreFields.modDie.modCtx.foldl fun _ _ ht => ht.applyEntry).modCtx.freeSlots.splitGang.unitsWritten.modCore
      fun _ hc => ?_).freeSlots.trace
  split
  · exact hc.restoreUnits.same.resumeAt
  · exact hc.restoreUnits.same.same

theorem State.MemOk.rewindCore (h : s.MemOk) {w : Nat} : (s.rewindCore id w).MemOk := by
  unfold State.rewindCore
  exact .seq h.rewindBody.mergeOf fun _ ht => .seq ht.coreFields.edgeWhere fun _ ht2 => .done ht2.released

theorem State.MemOk.keepWaits (h : s.MemOk) {t : State} : (s.keepWaits ids t).MemOk := h.foldl fun _ _ ht => ht.coreFields

theorem State.MemOk.drainCore (h : s.MemOk) : (s.drainCore id).MemOk := .seq h.drainAll fun _ ht => ht.edgeWhere

theorem noteRewound_memOk {r : Host.Outcome State Fault Refusal} (h : NextOk r) : NextOk (noteRewound r) := by
  unfold noteRewound
  split
  · have ht := h.of_next rfl
    exact .next (.ite ht ht)
  · exact h

@[simp] theorem execWrewind_memOk (h : s.MemOk) : NextOk (execWrewind rs1 s) := by
  refine noteRewound_memOk (zeroCount_memOk (runScalar_memOk ?_ h))
  refine .bind windowArg_keeps fun _ => .bind myCtx_keeps fun _ => .bind me_keeps fun _ => .bind myId_keeps fun _ =>
    .bind .get fun _ => .guard trapR_keeps fun _ => .guard trapR_keeps fun _ =>
    .bind (updM_keeps fun _ ht => ht.foldl fun _ _ hu => hu.coreFields) fun _ =>
    .bind (tryM_keeps fun _ ht => tryEach_memOk (fun _ _ hu => hu.drainCore) ht) fun _ =>
    .get_bind fun t ht => .guard waitM_keeps fun _ => ?_
  split
  · exact fun _ hu => .wait hu.keepWaits
  · refine .bind (fun _ _ => .ok (Try.MemOk.of_done (tryEach_memOk (fun _ _ hu => hu.rewindCore) ht) ‹_›)) fun _ => ?_
    exact .ite (.bind modMyCtx_keeps fun _ => updM_keeps fun _ hu => hu.foldl fun _ _ hv => hv.coreFields) .pure

@[simp] theorem execWstat_memOk (h : s.MemOk) : NextOk (execWstat rd rs1 s) := by
  unfold execWstat
  exact runScalar_memOk (.bind rxM_keeps fun _ => .bind me_keeps fun _ => .bind myId_keeps fun _ => .bind .get fun _ =>
      .guard trapR_keeps fun _ => .bind wxM_keeps fun _ => advance_keeps) h

theorem State.MemOk.beforeAuto (h : s.MemOk) : (s.beforeAuto id).MemOk := h.drainReg.makeWindow

theorem State.MemOk.autoRoom (h : s.MemOk) : (s.autoRoom ids).MemOk :=
  .ite (.done (h.foldl fun _ _ ht => ht.roomIf.state)) (.blocked (h.foldl fun _ _ ht => ht.roomIf.state))

theorem State.MemOk.openAuto (h : s.MemOk) {w : BitVec 32} : (s.openAuto ids w).MemOk :=
  .seq (h.foldl fun _ _ ht => ht.beforeAuto).autoRoom fun _ ht => .done (ht.foldl fun _ _ ht2 => ht2.openWindow)

theorem State.MemOk.traceImbalance (h : s.MemOk) : (s.traceImbalance x).MemOk := by
  unfold State.traceImbalance
  split
  · exact h
  · exact h.traceAt

theorem State.MemOk.completeSuper (h : s.MemOk) : (s.completeSuper asid).MemOk :=
  .seq (.ite h.openAuto (.done h)) fun _ ht => .done (ht.traceImbalance.modCtx.foldl fun _ _ ht2 => ht2.coreFields)

/-! ### Views and narrow formats -/

theorem State.MemOk.viewWrite (h : s.MemOk) {d : Desc} {c : Nat} {es : List Nat} : (s.viewWrite id d c es).MemOk :=
  h.foldl fun _ _ ht => ht.writeRegSpace

@[simp] theorem execVwset_memOk (h : s.MemOk) : NextOk (execVwset vw rs1 rs2 s) :=
  runScalar_memOk (.bind me_keeps fun _ => .guard trapR_keeps fun _ => .bind meFields_keeps fun _ => advance_keeps) h

@[simp] theorem execVwget_memOk (h : s.MemOk) {half : Bool} : NextOk (execVwget rd vw half s) :=
  runScalar_memOk (.bind me_keeps fun _ => .bind wxM_keeps fun _ => advance_keeps) h

theorem viewReadM_rows_keeps {d : Desc} {c : Nat} : KeepsMem (viewReadM.rows d c i n) := by
  induction n generalizing i with
  | zero => exact .pure
  | succ n ih => exact .bind openPlace_keeps fun _ => .bind readAt_keeps fun _ => .bind ih fun _ => .pure

theorem viewReadM_keeps {d : Desc} {c : Nat} : KeepsMem (viewReadM d c) := viewReadM_rows_keeps

theorem transferChecks_keeps {a : Word} : KeepsMem (transferChecks vw a vec col) := by
  unfold transferChecks
  exact .bind me_keeps fun _ => .bind myCtx_keeps fun _ => .guard trapR_keeps fun _ => .guard trapR_keeps fun _ =>
      .guard trapR_keeps fun _ => .guard trapR_keeps fun _ => .guard refuse_keeps fun _ => .bind aligned_keeps fun _ => .pure

theorem watchView_rows_keeps {d : Desc} {c : Nat} {write : Bool} : KeepsMem (watchView.rows d c write i n) := by
  induction n generalizing i with
  | zero => exact .pure
  | succ n ih => exact .bind watch_keeps fun _ => ih

theorem watchView_keeps {d : Desc} {c : Nat} {write : Bool} : KeepsMem (watchView d c write) := watchView_rows_keeps

theorem moveInto_keeps {d : Desc} {c : Nat} {es : List Nat} : KeepsMem (moveInto d c es) := updM_keeps fun _ ht => ht.viewWrite

theorem loadView_keeps {a : Word} : KeepsMem (loadView vw a vec col) := by
  unfold loadView
  exact .bind transferChecks_keeps fun _ => .bind watch_keeps fun _ => .bind watchView_keeps fun _ =>
      .bind drainM_keeps fun _ => .bind myId_keeps fun _ => .bind openPlace_keeps fun _ => .bind readAt_keeps fun _ =>
      moveInto_keeps

theorem storeView_keeps {a : Word} : KeepsMem (storeView vw a vec col) := by
  unfold storeView
  exact .bind transferChecks_keeps fun _ => .bind watchView_keeps fun _ => .bind watch_keeps fun _ =>
      .bind drainM_keeps fun _ => .bind myId_keeps fun _ => .bind me_keeps fun _ => .bind coverM_keeps fun _ =>
      .bind reserveM_keeps fun _ => .bind viewReadM_keeps fun _ => .bind demandM_keeps fun _ => .bind (tryM_keeps fun _ ht =>
      ht.perform) fun _ => .bind (updM_keeps fun _ ht => ht.askPlace.markStore) fun _ => .bind takeSeq_keeps fun _ => .pure

@[simp] theorem execVld_memOk (h : s.MemOk) : NextOk (execVld vw rs1 imm s) :=
  runScalar_memOk (.bind me_keeps fun _ => .bind loadView_keeps fun _ => advance_keeps) h

@[simp] theorem execVst_memOk (h : s.MemOk) : NextOk (execVst vw rs1 imm s) :=
  runScalar_memOk (.bind me_keeps fun _ => .bind storeView_keeps fun _ => advance_keeps) h

@[simp] theorem execTld_memOk (h : s.MemOk) : NextOk (execTld vw col rs1 imm s) :=
  runScalar_memOk (.bind me_keeps fun _ => .bind loadView_keeps fun _ => advance_keeps) h

@[simp] theorem execTst_memOk (h : s.MemOk) : NextOk (execTst vw col rs1 imm s) :=
  runScalar_memOk (.bind me_keeps fun _ => .bind storeView_keeps fun _ => advance_keeps) h

@[simp] theorem execXmv_memOk (h : s.MemOk) {dst src : BitVec 4} : NextOk (execXmv dst src s) := by
  unfold execXmv
  exact runScalar_memOk (.bind me_keeps fun _ => .guard trapR_keeps fun _ => .guard trapR_keeps fun _ =>
      .guard trapR_keeps fun _ => .guard trapR_keeps fun _ => .guard trapR_keeps fun _ => .guard trapR_keeps fun _ =>
      .guard trapR_keeps fun _ => .bind watchView_keeps fun _ => .bind watchView_keeps fun _ => .bind drainM_keeps fun _ =>
      .bind viewReadM_keeps fun _ => .ite (.guard trapR_keeps fun _ => .guard trap0_keeps fun _ => .bind eventsM_keeps fun _ =>
      .bind moveInto_keeps fun _ => advance_keeps) (.bind moveInto_keeps fun _ => advance_keeps)) h

@[simp] theorem execRingset_memOk (h : s.MemOk) : NextOk (execRingset rg rs1 rs2 s) := by
  unfold execRingset
  exact runScalar_memOk (.bind me_keeps fun _ => .bind myCtx_keeps fun _ => .guard waitM_keeps fun _ =>
      .ite (.guard trapR_keeps fun _ => .bind meFields_keeps fun _ => advance_keeps) (.guard trapR_keeps fun _ =>
      .bind meFields_keeps fun _ => advance_keeps)) h

@[simp] theorem execRingadv_memOk (h : s.MemOk) : NextOk (execRingadv rg rs1 s) := by
  unfold execRingadv
  exact runScalar_memOk (.bind rxM_keeps fun _ => .bind me_keeps fun _ => .guard trapR_keeps fun _ =>
      .guard trap0_keeps fun _ => .bind release_keeps fun _ => .bind meFields_keeps fun _ => advance_keeps) h

@[simp] theorem execRingrel_memOk (h : s.MemOk) : NextOk (execRingrel rg rs1 s) := by
  unfold execRingrel
  exact runScalar_memOk (.bind rxM_keeps fun _ => .bind me_keeps fun _ => .bind myId_keeps fun _ => .guard trapR_keeps fun _ =>
      .guard waitM_keeps fun _ => .guard trap0_keeps fun _ => .ite (.bind .get fun _ => .guard waitM_keeps fun _ =>
      .bind releaseFor_keeps fun _ => .bind meFields_keeps fun _ => .guard (updM_keeps fun _ ht => ht.increment) fun _ =>
      advance_keeps) (.bind releaseFor_keeps fun _ => .bind meFields_keeps fun _ => .guard (updM_keeps fun _ ht =>
      ht.increment) fun _ => advance_keeps)) h

@[simp] theorem execShape_memOk (h : s.MemOk) : NextOk (execShape rs1 s) := by
  unfold execShape
  exact runScalar_memOk (.bind rxM_keeps fun _ => .bind myCtx_keeps fun _ => .guard trapR_keeps fun _ =>
      .guard refuse_keeps fun _ => .bind ownRead_keeps fun _ => .guard trapR_keeps fun _ => .guard trapR_keeps fun _ =>
      .guard trapR_keeps fun _ => advance_keeps) h

theorem nfDraw_keeps {rm : Rnd} : KeepsMem (nfDraw rm rs2) := by
  refine .bind me_keeps fun _ => .bind myCtx_keeps fun _ => ?_
  split <;> exact .pure

@[simp] theorem execNfcvtN_memOk (h : s.MemOk) {rm : Rnd} {fmt : BitVec 3} : NextOk (execNfcvtN rm fmt rd rs1 rs2 s) :=
  runScalar_memOk (.bind me_keeps fun _ => .bind nfDraw_keeps fun _ => .bind eventsM_keeps fun _ => .bind wxM_keeps fun _ =>
      advance_keeps) h

@[simp] theorem execNfcvtF_memOk (h : s.MemOk) {rm : Rnd} {fmt : BitVec 3} : NextOk (execNfcvtF rm fmt rd rs1 rs2 s) :=
  runScalar_memOk (.bind me_keeps fun _ => .bind nfDraw_keeps fun _ => .bind eventsM_keeps fun _ => .bind wfM_keeps fun _ =>
      advance_keeps) h

@[simp] theorem execNfpack_memOk (h : s.MemOk) {fmt : BitVec 3} : NextOk (execNfpack fmt rd rs1 rs2 s) :=
  runScalar_memOk (.bind me_keeps fun _ => .bind wxM_keeps fun _ => advance_keeps) h

@[simp] theorem execNfunpk_memOk (h : s.MemOk) {fmt : BitVec 3} : NextOk (execNfunpk fmt rd rs1 rs2 s) :=
  runScalar_memOk (.bind me_keeps fun _ => .bind wxM_keeps fun _ => advance_keeps) h

@[simp] theorem execRngrd_memOk (h : s.MemOk) {sid : BitVec 7} : NextOk (execRngrd sid rd rs1 s) :=
  runScalar_memOk (.bind me_keeps fun _ => .bind myCtx_keeps fun _ => .bind wxM_keeps fun _ => advance_keeps) h

/-! ### Pushes -/

theorem readShape_keeps : KeepsMem (readShape w) :=
  .bind myCtx_keeps fun _ => .ite .pure (.guard refuse_keeps fun _ => ownRead_keeps)

theorem checkShape_keeps : KeepsMem (checkShape w) := .ite .pure (.bind readShape_keeps fun _ => .ite .pure .pure)

theorem captureBlock_keeps {outer : Nat} {ws : List (Nat × CmdWord)} : KeepsMem (captureBlock n outer ws) := by
  induction ws with
  | nil => exact .pure
  | cons w ws ih =>
    exact .bind me_keeps fun _ => .bind myCtx_keeps fun _ => .guard trapM_keeps fun _ => .bind checkShape_keeps fun _ =>
      .guard trapM_keeps fun _ => .bind ih fun _ => .pure

theorem captureWords_keeps {ws : List (Nat × CmdWord)} : KeepsMem (captureWords q n ws) := by
  induction ws with
  | nil => exact .pure
  | cons w ws ih =>
    refine .bind me_keeps fun _ => .bind myCtx_keeps fun _ => .guard trapM_keeps fun _ => .bind ?captured fun _ =>
      .bind ih fun _ => .pure
    case captured =>
      split
      · exact .bind checkShape_keeps fun _ => .guard trapM_keeps fun _ =>
          .ite (.bind ownRead_keeps fun _ => .bind captureBlock_keeps fun _ => .pure) .pure
      · exact .pure

theorem pushM_keeps {a n : Word} : KeepsMem (pushM q a n) := by
  unfold pushM
  exact .bind myCtx_keeps fun _ => .guard trapR_keeps fun _ => .guard refuse_keeps fun _ => .bind ownRead_keeps fun _ =>
      .bind captureWords_keeps fun _ => .bind me_keeps fun _ => .guard waitM_keeps fun _ => .bind rqRoom_keeps fun _ =>
      .bind release_keeps fun _ => .bind .get fun _ => .bind myId_keeps fun _ => .bind (.ite freeWordM_keeps .pure) fun _ =>
      .bind (.ite inputM_keeps .pure) fun _ => .bind takeRq_keeps fun _ => .bind takeSeq_keeps fun _ => .bind me_keeps fun _ =>
      modMe_keeps fun _ hc => hc.setQueue

@[simp] theorem execEpush_memOk (h : s.MemOk) : NextOk (execEpush q rs1 s) :=
  runScalar_memOk (.bind rxM_keeps fun _ => .bind pushM_keeps fun _ => advance_keeps) h

@[simp] theorem execEpushb_memOk (h : s.MemOk) : NextOk (execEpushb q rs1 rs2 s) :=
  runScalar_memOk (.bind rxM_keeps fun _ => .bind rxM_keeps fun _ => .bind pushM_keeps fun _ => advance_keeps) h

end Sys2Proof.Machine
end

section
/-! The engine words keep every memory in canonical form (spec/00 R3). -/

namespace Sys2Proof.Machine

variable {s : State} {id : CoreId} {asid n k i a pa l slot seq code o who uid cause bench port detail : Nat} {p : Place}
    {bs : List Byte} {va : Word} {f : Flight} {q : Queue} {w : CmdWord} {win word : Option Nat} {hd : Head} {op : MvOp}
    {rels : List Rel} {rt atom : Bool} {c : CoreSt} {was : List KeyWas} {run : Instr → State → Host.Outcome State Fault Refusal}
    {ks : List Nat} {reader : Option (Nat × Nat)}

/-! ### Arrivals and words in the queues -/

theorem State.MemOk.settleRec (h : s.MemOk) : (s.settleRec id f).MemOk := by
  unfold State.settleRec
  split
  · exact h
  · exact h.modCtx

theorem State.MemOk.arrive (h : s.MemOk) {t : Transit} : (s.arrive t).MemOk := by
  unfold State.arrive
  split
  · exact h.modDie
  · exact h.modCtx

theorem State.MemOk.arriveAll (h : s.MemOk) : (s.arriveAll asid).MemOk := h.foldl fun _ _ ht => .ite ht.same.arrive ht

theorem CoreSt.MemOk.prune (h : c.MemOk) : (c.prune q).MemOk := h.setQueue

theorem State.MemOk.popRing (h : s.MemOk) {r : Nat} : (s.popRing id r k rels).MemOk :=
  .ite (.done h) (.ite h.coreFields.incrementRec (.done h.coreFields))

theorem State.MemOk.pubRing (h : s.MemOk) {r : Nat} : (s.pubRing id r).MemOk := h.modCore fun _ hc => .ite hc hc

theorem State.MemOk.popRings (h : s.MemOk) {ps : List (Nat × Nat)} : (s.popRings id ps rels).MemOk := by
  induction ps generalizing s with
  | nil => exact .done h
  | cons p ps ih => exact .seq h.popRing fun _ ht => ih ht

theorem State.MemOk.inputRoom (h : s.MemOk) : (s.inputRoom id n who).MemOk := .ite h.room (.done h)

theorem State.MemOk.settleRings (h : s.MemOk) : (s.settleRings id w).MemOk := (h.foldl fun _ _ ht => ht.pubRing).popRings

theorem State.MemOk.takeLease (h : s.MemOk) {t : State} (e : s.takeLease id = some t) : t.MemOk := by
  unfold State.takeLease at e
  dsimp only at e
  split at e
  · cases e; exact h.modLease
  · split at e
    · cases e; exact h
    · cases e

theorem State.MemOk.occupy (h : s.MemOk) {t : Nat} : (s.occupy id q t).MemOk := by
  unfold State.occupy
  split
  · exact h.modLease
  · exact h.modLease
  · exact h

theorem State.MemOk.takeUnit (h : s.MemOk) {t : State} (e : s.takeUnit id q = some t) : t.MemOk := by
  unfold State.takeUnit at e
  split at e
  · split at e
    · exact h.takeLease e
    · cases e
  · split at e
    · cases e; exact h
    · cases e
  · cases e; exact h

theorem State.MemOk.noteStale (h : s.MemOk) {before : List Stale} {olds : List (Bool × Nat × List Byte)} :
    (s.noteStale id before olds atom).MemOk := .ite (.ite h.bump.coreFields h.bump.coreFields) h.coreFields

theorem State.MemOk.engineWatch (h : s.MemOk) {ts : Touches} : (s.engineWatch id ts).MemOk := .ite h.dbgStop h

theorem State.MemOk.scratchOn (h : s.MemOk) {ws : List (Nat × List Byte)} : (s.scratchOn id win seq ws).1.MemOk := by
  induction ws generalizing s with
  | nil => exact h
  | cons w ws ih =>
    unfold State.scratchOn
    split
    · exact h.perform.of_blocked ‹_›
    · exact ih (h.perform.of_done ‹_›)

theorem State.MemOk.endWord (h : s.MemOk) {t : TrapInfo} : (s.endWord id q hd t).MemOk := by
  unfold State.endWord
  refine .seq h.inputRoom fun t ht => ?_
  split
  · exact .blocked ht
  · split
    · exact .blocked ht
    · refine .done (.pendTrap (.modCore (.modHead (Try.MemOk.of_done ?_ ‹_›)) fun _ hc => hc.setQueue.prune))
      exact ht.coreFields.settleRings

theorem State.MemOk.faultWord (h : s.MemOk) : (s.faultWord id q hd cause detail).MemOk := h.endWord

theorem State.MemOk.refuseWord (h : s.MemOk) {r : Region} : (s.refuseWord id q hd r).MemOk := h.endWord

theorem State.MemOk.setRes (h : s.MemOk) : (s.setRes id a).MemOk := h.writeRegSpace

theorem State.MemOk.askWord (h : s.MemOk) {rd wr : List Region} {occEnd retireAt : Nat} :
    (s.askWord id who uid rd wr occEnd retireAt).MemOk :=
  (h.foldl fun _ _ ht => .ite ht ht.askBank).foldl fun _ _ ht => .ite ht ht.askBank

theorem State.MemOk.launchMv (h : s.MemOk) {ents : List (Nat × Nat)} {out : MvOut} :
    (s.launchMv id q hd ents op out).MemOk := by
  unfold State.launchMv
  refine (((h.scratchOn.foldl fun _ _ ht => ht.writeRegSpace).foldl fun _ _ ht =>
      ht.setRes).noteStale.modHead.engineWatch.askWord.modCore fun _ hc => CoreSt.MemOk.same (.setQueue ?_)).occupy
  split <;> exact hc

theorem State.MemOk.startMv (h : s.MemOk) {ents : List (Nat × Nat)} : (s.startMv id q hd ents op).MemOk := by
  unfold State.startMv
  dsimp only
  split
  · exact h.faultWord.state
  · split
    · exact h.consume.of_pair ‹_›
    · split
      · exact (h.consume.of_pair ‹_›).refuseWord.state
      · split
        · exact (h.consume.of_pair ‹_›).same.faultWord.state
        · exact (h.consume.of_pair ‹_›).same.launchMv

theorem State.MemOk.issueMv (h : s.MemOk) : (s.issueMv q w op).MemOk := by
  unfold State.issueMv
  dsimp only
  split
  · exact h.decideHeads
  · split
    · exact h.decideHeads
    · split
      · exact .ite (h.decideHeads.takeUnit ‹_›).startMv (h.decideHeads.foldl fun _ _ ht => ht.want)
      · exact h.decideHeads

theorem runMv_memOk (h : s.MemOk) {i : Instr} : NextOk (runMv q i op s) := by
  unfold runMv
  split
  · exact .next h.issueMv
  · exact .next h

theorem State.MemOk.releaseEdges (h : s.MemOk) : (s.releaseEdges id f).MemOk := .ite h.edgeWhere (.done h)

theorem State.MemOk.markFlight (h : s.MemOk) : (s.markFlight id f).MemOk := h.same.foldl fun _ _ ht => ht.mark

theorem State.MemOk.signalFlight (h : s.MemOk) : (s.signalFlight id f).MemOk := by
  unfold State.signalFlight
  dsimp only
  refine .seq (h.foldl fun _ _ ht => ht.pubRing).popRings fun _ ht => ?_
  split
  · refine .ite (.done (.modCtx ?pushed)) (State.MemOk.incrementRec (.modCtx ?pushed))
    split
    · exact ht.modCore fun _ hc => hc.setQueue
    · exact ht
  · refine .done (.modCtx ?_)
    split
    · exact ht.modCore fun _ hc => hc.setQueue
    · exact ht

theorem State.MemOk.completeFlight (h : s.MemOk) : (s.completeFlight id f).MemOk := by
  unfold State.completeFlight
  refine .seq h.releaseEdges fun _ ht => .seq ht.inputRoom fun _ ht2 => ?_
  split
  · exact .blocked ht2
  · exact .done (.ite (ht2.signalFlight.of_done ‹_›).markFlight (ht2.signalFlight.of_done ‹_›))

theorem CoreSt.MemOk.countFlight (h : c.MemOk) : (c.countFlight f).MemOk := .ite h.countEvs.same h.countEvs

theorem CoreSt.MemOk.leave (h : c.MemOk) : (c.leave f).MemOk := h.same.prune

theorem State.MemOk.settleFlight (h : s.MemOk) : (s.settleFlight id f).MemOk := by
  unfold State.settleFlight
  dsimp only
  split
  · split
    · exact .blocked h
    · exact .seq h.completeFlight fun _ ht => .done (ht.modCore fun _ hc => hc.leave).modCtx
  · split
    · exact .done ((h.modCtx.modCore fun _ hc => hc.countFlight).modCore fun _ hc => hc.leave).modCtx.settleRec
    · exact .seq h.modCtx.completeFlight fun _ ht => .done ((ht.modCore fun _ hc => hc.countFlight).modCore fun _ hc =>
          hc.leave)

theorem State.MemOk.retireFlight (h : s.MemOk) : (s.retireFlight id f).MemOk :=
  .ite h.settleFlight (.ite h.scratchOn.coreFields.settleFlight (.blocked h.scratchOn.coreFields))

@[simp] theorem execEngineWordRetire_memOk (h : s.MemOk) : NextOk (execEngineWordRetire id q s) := by
  unfold execEngineWordRetire
  split
  · exact .next h
  · exact .ite (.next h.retireFlight.state) (.next h)

theorem State.MemOk.discard (h : s.MemOk) : (s.discard id q hd).MemOk := by
  unfold State.discard
  refine .seq h.inputRoom fun t ht => ?_
  split
  · exact .blocked ht
  · split
    · exact .blocked ht
    · dsimp only
      have leased {t : State} (ht : t.MemOk) {f : Lease → Lease} : (if q = .eqm then t.modLease id f else t).MemOk :=
        .ite ht.modLease ht
      split
      · exact .blocked ht
      · refine .done (leased (.modCore (.modHead (Try.MemOk.of_done ?_ ‹_›)) fun _ hc => hc.setQueue.prune))
        refine .ite (State.MemOk.incrementRec ?settled) (.done ?settled)
        refine Try.MemOk.of_done ?_ ‹_›
        exact ht.coreFields.settleRings

theorem State.MemOk.discardHead (h : s.MemOk) {t : State} (e : s.discardHead id q = some (hd, t)) : t.MemOk := by
  unfold State.discardHead at e
  dsimp only at e
  split at e
  · cases e
  · split at e
    · split at e
      · obtain ⟨u, hu, he⟩ := Option.map_eq_some_iff.mp e
        cases he
        exact h.takeLease hu
      · cases e; exact h
    · cases e

@[simp] theorem execDiscardWord_memOk (h : s.MemOk) : NextOk (execDiscardWord id q s) := by
  unfold execDiscardWord
  dsimp only
  split
  · exact .next h.decideHeads
  · exact .next (h.decideHeads.discardHead ‹_›).discard.state

theorem State.MemOk.setLease (h : s.MemOk) {l : Lease} : (s.setLease bench l).MemOk := h.modDie

@[simp] theorem execJmuRunEnd_memOk (h : s.MemOk) : NextOk (execJmuRunEnd bench s) := by
  unfold execJmuRunEnd
  split
  · exact .next h.setLease
  · exact .next h

theorem State.MemOk.grantLease (h : s.MemOk) : (s.grantLease bench).MemOk := by
  unfold State.grantLease
  dsimp only
  split
  · exact h
  · split
    · exact h
    · exact h.setLease
    · exact h.bump.setLease

theorem State.MemOk.nextCycle (h : s.MemOk) : s.nextCycle.MemOk := h.settleBanks.mapCores fun _ hc => hc

theorem State.MemOk.passCycle (h : s.MemOk) : (State.passCycle run s).MemOk :=
  .ite (.foldl (h.foldl fun _ _ ht => ht.decideHeads) fun _ _ ht => ht.grantLease) (.nextCycle (.foldl (h.foldl fun _ _ ht =>
      ht.decideHeads) fun _ _ ht => ht.grantLease))

theorem State.MemOk.passCycles (h : s.MemOk) : (s.passCycles run n).MemOk := by
  induction n generalizing s with
  | zero => exact h
  | succ n ih => exact ih h.passCycle

/-! ### Copy words -/

theorem State.MemOk.engWalk (h : s.MemOk) {c : CopyAddr} : (s.engWalk id rt c).1.MemOk := .fst_ite h.walkMet h

theorem State.MemOk.askCopy (h : s.MemOk) {eng : Nat} {c : CopyAddr} : (s.askCopy id eng c n).MemOk := by
  unfold State.askCopy
  split
  · exact h
  · split
    · exact h.askPlace
    · exact h

theorem State.MemOk.engTouch (h : s.MemOk) : (s.engTouch id p n).MemOk :=
  .ite (.blocked h.want) (.ite (.done h.served) h.served.edgeWhere)

theorem State.MemOk.keysAt (h : s.MemOk) : (s.keysAt was slot pa).MemOk := by
  unfold State.keysAt
  split <;> exact h

theorem State.MemOk.busBytes (h : s.MemOk) {off : Nat} : (s.busBytes off n).1.MemOk := by
  induction n generalizing s off with
  | zero => exact h
  | succ n ih => exact ih h.busRead

theorem State.MemOk.engReadAt (h : s.MemOk) {shown : Word} : (s.engReadAt id p n shown was).MemOk := by
  unfold State.engReadAt
  split
  · exact .wait (h.engTouch.of_blocked ‹_›)
  · refine .ite (.refused (h.engTouch.of_done ‹_›)) (.ite (.refused (h.engTouch.of_done ‹_›).consume) ?_)
    split
    · exact .ok (h.engTouch.of_done ‹_›).consume.busBytes
    · exact .ok (h.engTouch.of_done ‹_›).consume

theorem State.MemOk.devParts (h : s.MemOk) {off : Nat} : (s.devParts id win va off bs ks).MemOk := by
  induction ks generalizing s va off bs with
  | nil => exact .done h
  | cons k ks ih => exact .seq h.devWrite fun _ ht => ih ht

theorem State.MemOk.logUnit (h : s.MemOk) : (s.logUnit id win seq atom word slot pa).MemOk := .ite h h.logMade

theorem State.MemOk.hbmParts (h : s.MemOk) : (s.hbmParts id win seq atom word slot pa bs ks).MemOk := by
  induction ks generalizing s pa bs with
  | nil => exact h
  | cons k ks ih => exact ih h.logUnit.hbmWrite

theorem State.MemOk.markRun (h : s.MemOk) {o : WriteOf} : (s.markRun id o p n).MemOk := by
  unfold State.markRun
  split
  · exact h.mark
  · exact h

theorem State.MemOk.engWriteAt (h : s.MemOk) {o : WriteOf} {shown : Word} : (s.engWriteAt id o p bs shown).MemOk := by
  unfold State.engWriteAt
  dsimp only
  split
  · exact .wait (h.engTouch.of_blocked ‹_›)
  · have ht := h.engTouch.of_done ‹_›
    split
    · exact .ite (.refused ht) (.ite (.refused ht) (.ok ht.writeScratch.noteStale.markRun))
    · refine .ite (.refused ht) ?_
      split
      · exact .wait (Try.MemOk.of_blocked (.ite ht.room (.done ht)) ‹_›)
      · exact .ok (.markRun (State.MemOk.same (.hbmParts (.keysAt (Try.MemOk.of_done (.ite ht.room (.done ht)) ‹_›)))))
    · refine .ite (.refused ht) ?_
      split
      · exact .wait (ht.hostWrite.of_blocked ‹_›)
      · exact .ok (ht.hostWrite.of_done ‹_›).markRun
    · refine .ite (.refused ht) ?_
      split
      · exact .wait (ht.hostWrite.of_blocked ‹_›)
      · exact .ok (ht.hostWrite.of_done ‹_›).markRun
    · refine .ite (.refused ht) (.ite (.wait ht) ?_)
      split
      · exact .wait (ht.devParts.of_blocked ‹_›)
      · exact .ok (ht.devParts.of_done ‹_›).markRun
    · exact .refused ht

theorem State.MemOk.engRead_one (h : s.MemOk) {c : CopyAddr} : (State.engRead.one id rt was s c n).MemOk := by
  unfold State.engRead.one
  split
  · exact .refused (h.engWalk.of_pair ‹_›)
  · split
    · exact .refused (h.engWalk.of_pair ‹_›)
    · exact (h.engWalk.of_pair ‹_›).engReadAt

theorem State.MemOk.engRead_go (h : s.MemOk) {c : CopyAddr} : (State.engRead.go id rt was s c ks bs).MemOk := by
  induction ks generalizing s c bs with
  | nil => exact .ok h
  | cons k ks ih =>
    unfold State.engRead.go
    split
    · exact ih (h.engRead_one.of_ok ‹_›)
    · exact h.engRead_one

theorem State.MemOk.engRead (h : s.MemOk) {c : CopyAddr} : (s.engRead id rt c n was).MemOk := .ite h.engRead_go h.engRead_one

theorem State.MemOk.engWrite_one (h : s.MemOk) {o : WriteOf} {c : CopyAddr} : (State.engWrite.one id rt s o c bs).MemOk := by
  unfold State.engWrite.one
  split
  · exact .refused (h.engWalk.of_pair ‹_›)
  · split
    · exact .refused (h.engWalk.of_pair ‹_›)
    · exact (h.engWalk.of_pair ‹_›).engWriteAt

theorem State.MemOk.engWrite_go (h : s.MemOk) {o : WriteOf} {c : CopyAddr} : (State.engWrite.go id rt s o c bs ks).MemOk := by
  induction ks generalizing s o c bs with
  | nil => exact .ok h
  | cons k ks ih =>
    unfold State.engWrite.go
    split
    · exact ih (h.engWrite_one.of_ok ‹_›)
    · exact h.engWrite_one

theorem State.MemOk.engWrite (h : s.MemOk) {o : WriteOf} {c : CopyAddr} : (s.engWrite id rt o c bs).MemOk :=
  .ite h.engWrite_go h.engWrite_one

theorem State.MemOk.modFlight (h : s.MemOk) {f : Flight → Flight} : (s.modFlight id uid f).MemOk := h.coreFields

theorem State.MemOk.refuseCopy (h : s.MemOk) {addr : Word} : (s.refuseCopy id f code addr).MemOk := by
  have ended {t : State} (ht : t.MemOk) {u : Option Nat} {g : Flight → Flight} :
      State.MemOk (match u with | some u => t.modFlight id u g | none => t) := by
    split
    · exact ht.modFlight
    · exact ht
  unfold State.refuseCopy
  exact .pendTrap (.modCore (ended (ended h.modFlight)) fun _ hc => hc.setQueue)

theorem State.MemOk.fetchPiece (h : s.MemOk) : (s.fetchPiece id f k o n).1.MemOk := by
  unfold State.fetchPiece
  dsimp only
  split
  · exact .ok h
  · split
    · exact .refused h
    · split
      · exact .refused h
      · split
        · exact .ok h.modFlight
        · have read {p : Prop} [Decidable p] {bs : List Byte} {rt : Bool} {a : CopyAddr} {n : Nat} {was : List KeyWas} :
              Acc.MemOk (if p then .ok s bs else s.engRead id rt a n was) := .ite (.ok h) h.engRead
          split
          · exact .ok (.modFlight (.engineWatch (.askCopy (read.of_ok ‹_›))))
          · exact read

theorem State.MemOk.writePiece (h : s.MemOk) : (s.writePiece id f k).MemOk := by
  unfold State.writePiece
  dsimp only
  split
  · exact .ok h
  · generalize hr : (if f.op = 0x05 then _ else _ : Acc) = r
    have summed : r.MemOk := by
      subst hr
      refine .ite ?_ (.ok h)
      split
      · exact .ok (h.engRead.of_ok ‹_›).askCopy
      · exact h.engRead
    cases summed with
    | wait hs => exact .wait hs
    | refused hs => exact .refused hs
    | ok hs =>
      dsimp only
      split
      · exact .ok (.modFlight (.engineWatch (.askCopy (hs.engWrite.of_ok ‹_›))))
      · exact hs.engWrite

theorem State.MemOk.logFlight (h : s.MemOk) {es : List (Nat × Nat × Nat)} : (s.logFlight id f es).MemOk := by
  induction es generalizing s with
  | nil => exact .done h
  | cons e es ih => exact .seq h.logWrite fun _ ht => ih ht.modFlight

theorem Acc.MemOk.copyAcc {r : Acc} (h : r.MemOk) : (State.copyAcc id f r).MemOk := by
  cases h with
  | ok h => exact .done h
  | wait h => exact .blocked h
  | refused h => exact .done h.refuseCopy

theorem State.MemOk.copyReadStep (h : s.MemOk) : (s.copyReadStep id f k o n).MemOk := h.fetchPiece.copyAcc

theorem State.MemOk.copyStep (h : s.MemOk) : (s.copyStep id f k o n).MemOk := by
  unfold State.copyStep
  refine .seq h.logFlight fun t ht => ?_
  have hf := ht.fetchPiece (id := id) (f := f) (k := k) (o := o) (n := n)
  split
  · rename_i e
    rw [e] at hf
    split
    · exact (hf.of_ok rfl).writePiece.copyAcc
    · exact .done (hf.of_ok rfl)
  · rename_i e
    rw [e] at hf
    exact hf.copyAcc

theorem State.MemOk.freezeReads (h : s.MemOk) : (s.freezeReads asid).MemOk := h.mapCores fun _ hc => .ite hc hc

theorem State.MemOk.freezeNew (h : s.MemOk) : s.freezeNew.MemOk := by
  refine h.foldl fun _ _ ht => ?_
  split
  · exact .ite ht ht.freezeReads.modCtx
  · exact ht

theorem State.MemOk.keepKeys (h : s.MemOk) : (s.keepKeys slot).MemOk := h.mapCores fun _ hc => hc

theorem State.MemOk.copyAll (h : s.MemOk) : (s.copyAll id uid n).MemOk := by
  induction n generalizing s with
  | zero => exact h
  | succ n ih =>
    unfold State.copyAll
    split
    · exact h
    · split
      · exact h
      · split
        · exact h.copyStep.of_blocked ‹_›
        · exact ih (h.copyStep.of_done ‹_›)

theorem State.MemOk.indexWant (h : s.MemOk) {pw : PWord} : (s.indexWant id pw).MemOk := by
  unfold State.indexWant
  split
  · exact h.want
  · exact h

theorem State.MemOk.indexList (h : s.MemOk) {f : CpF} {r : ShapeRec} : (s.indexList id f r).1.MemOk := by
  unfold State.indexList
  dsimp only
  split
  · exact h
  · refine .fst_ite h ?_
    split
    · exact h.askPlace.consume.of_pair ‹_›
    · exact .fst_ite (h.askPlace.consume.of_pair ‹_›) (h.askPlace.consume.of_pair ‹_›)

theorem State.MemOk.launchCopy (h : s.MemOk) {eng : Nat} : (s.launchCopy id hd eng).MemOk := by
  unfold State.launchCopy
  dsimp only
  split
  · exact .engineWatch (.modDie (.modLease (.coreFields (.modHead h.indexList))))
  · exact .refuseCopy (.modDie (.modLease (.coreFields (.modHead h.indexList))))

theorem State.MemOk.issueCopy (h : s.MemOk) {want : CmdWord → Bool} : (s.issueCopy id want).1.MemOk := by
  unfold State.issueCopy
  dsimp only
  split
  · exact h.decideHeads
  · split
    · exact h.decideHeads
    · exact .fst_ite h.decideHeads.indexWant (.fst_ite h.decideHeads h.decideHeads.launchCopy)

theorem runCopy_memOk (h : s.MemOk) {i : Instr} : NextOk (runCopy i s) := by
  unfold runCopy
  split
  · exact .next h
  · split
    · exact .next (h.issueCopy.of_pair ‹_›)
    · exact .next (h.issueCopy.of_pair ‹_›).copyAll

@[simp] theorem execCopyWordRetire_memOk (h : s.MemOk) : NextOk (execCopyWordRetire id i s) := by
  unfold execCopyWordRetire
  dsimp only
  split
  · exact .next h
  · exact .ite (.next h.retireFlight.state) (.next h)

@[simp] theorem execPromiseMissed_memOk (h : s.MemOk) {rseq : BitVec 16} {revised : Word} :
    NextOk (execPromiseMissed id rseq revised s) := by
  unfold execPromiseMissed
  dsimp only
  split
  · exact .next h
  · exact .ite (.next h) (.next h.coreFields.pendTrap)

/-! ### Population words -/

theorem State.MemOk.readFit (h : s.MemOk) : (s.readFit reader id).1.MemOk := by
  unfold State.readFit
  split
  · exact h
  · exact h.bump

theorem State.MemOk.readMembers (h : s.MemOk) {ls : List Nat} : (s.readMembers asid reader ls).1.MemOk := by
  induction ls generalizing s with
  | nil => exact h
  | cons l ls ih => exact ih h.readFit

theorem State.MemOk.popReach (h : s.MemOk) : (s.popReach id l a n).MemOk :=
  .ite (.wait h.want) (.ite (.refused h.touch) (.ite (.refused h.touch) (.ok h.touch)))

theorem State.MemOk.popPut (h : s.MemOk) {p : Push} : (s.popPut id p l a bs).MemOk :=
  h.logMade.writeScratch.noteStale.engineWatch

theorem State.MemOk.popWrite (h : s.MemOk) {p : Push} : (s.popWrite id p l a bs).MemOk := by
  unfold State.popWrite
  split
  · exact .ok (h.popReach.of_ok ‹_›).popPut
  · exact h.popReach

theorem State.MemOk.popRoom (h : s.MemOk) {p : Push} {near far : Nat} : (s.popRoom id p near far).MemOk :=
  .ite h.roomIf (.done h)

theorem State.MemOk.popRead (h : s.MemOk) : (s.popRead id l a n).MemOk := by
  unfold State.popRead
  dsimp only
  split
  · exact .wait h.want
  · split
    · exact .refused h.touch
    · split
      · exact .refused (h.touch.consume.of_pair ‹_›)
      · exact .ite (.refused (h.touch.consume.of_pair ‹_›)) (.ok (h.touch.consume.of_pair ‹_›).engineWatch)

theorem runPrank_memOk (h : s.MemOk) : (runPrank s id hd).MemOk := by
  unfold runPrank
  dsimp only
  split
  · exact .fault h.readMembers
  · split
    · exact .fault h.readMembers
    · split
      · exact .wait (h.readMembers.popRoom.of_blocked ‹_›)
      · split
        · exact .wait ((h.readMembers.popRoom.of_done ‹_›).popWrite.of_wait ‹_›)
        · exact .refused ((h.readMembers.popRoom.of_done ‹_›).popWrite.of_refused ‹_›)
        · exact .done ((h.readMembers.popRoom.of_done ‹_›).popWrite.of_ok ‹_›)

theorem State.MemOk.replacement (h : s.MemOk) {par ch : Ranked} : (s.replacement id hd par ch).MemOk := by
  unfold State.replacement
  dsimp only
  split
  · exact .wait (h.popRead.of_wait ‹_›)
  · exact .refused (h.popRead.of_refused ‹_›)
  · have hs := h.popRead.of_ok ‹_›
    split
    · exact .wait (hs.popReach.of_wait ‹_›)
    · exact .refused (hs.popReach.of_refused ‹_›)
    · exact .ok (hs.popReach.of_ok ‹_›)

theorem State.MemOk.replacements (h : s.MemOk) {ps : List (Ranked × Ranked)} : (s.replacements id hd ps).MemOk := by
  induction ps generalizing s with
  | nil => exact .ok h
  | cons p ps ih =>
    unfold State.replacements
    split
    · have hs := ih (h.replacement.of_ok ‹_›)
      split
      · exact .ok (hs.of_ok ‹_›)
      · exact hs
    · exact h.replacement

theorem State.MemOk.replace (h : s.MemOk) {r : Replacement} : (s.replace id hd r).MemOk := h.popPut.coreFields

theorem runPcull_memOk (h : s.MemOk) : (runPcull s id hd).MemOk := by
  unfold runPcull
  dsimp only
  split
  · exact .fault h.readMembers
  · split
    · exact .fault h.readMembers
    · split
      · exact .fault h.readMembers
      · split
        · exact .wait (h.readMembers.popRoom.of_blocked ‹_›)
        · split
          · exact .done (((h.readMembers.popRoom.of_done ‹_›).replacements.of_ok ‹_›).foldl fun _ _ ht => ht.replace)
          · exact .wait ((h.readMembers.popRoom.of_done ‹_›).replacements.of_wait ‹_›)
          · exact .refused ((h.readMembers.popRoom.of_done ‹_›).replacements.of_refused ‹_›)

theorem State.MemOk.sendOn (h : s.MemOk) : (s.sendOn id uid n).MemOk := by
  induction n generalizing s with
  | zero => exact h
  | succ n ih =>
    unfold State.sendOn
    split
    · exact h
    · split
      · dsimp only
        split
        · split
          · exact h.hold.of_blocked ‹_›
          · exact ih (h.hold.of_done ‹_›).modFlight
        · exact ih h.releaseItem.modFlight
      · exact h

theorem runPmig_memOk (h : s.MemOk) : (runPmig s id hd).MemOk := by
  unfold runPmig
  dsimp only
  split
  · exact .fault h
  · split
    · exact .fault h.bump
    · split
      · exact .fault h.bump
      · split
        · exact .wait (h.bump.popRead.of_wait ‹_›)
        · exact .refused (h.bump.popRead.of_refused ‹_›)
        · exact .done (h.bump.popRead.of_ok ‹_›)

theorem State.MemOk.flushRecs (h : s.MemOk) {lbase lsize : Nat} {rs : List (List Byte)} :
    (s.flushRecs id hd lbase lsize slot rs).MemOk := by
  induction rs generalizing s slot with
  | nil => exact .ok h
  | cons r rs ih =>
    unfold State.flushRecs
    dsimp only
    split
    · split
      · exact .ok ((ih (h.engWrite.of_ok ‹_›).engineWatch).of_ok ‹_›)
      · exact .wait
    · exact .wait
    · exact .ok (h.engWrite.of_refused ‹_›)

theorem runPlog_memOk (h : s.MemOk) : (runPlog s id hd).MemOk := by
  unfold runPlog
  dsimp only
  split
  · exact .wait (h.popRead.of_wait ‹_›)
  · exact .refused (h.popRead.of_refused ‹_›)
  · have hread := h.popRead.of_ok ‹_›
    split
    · exact .fault hread
    · split
      · exact .wait (hread.popRoom.of_blocked ‹_›)
      · have hroom := hread.popRoom.of_done ‹_›
        split
        · exact .wait hroom
        · split
          · exact .wait hroom
          · exact .refused ((hroom.flushRecs.of_ok ‹_›).modCtx.popWrite.of_refused ‹_›)
          · split
            · exact .fault ((hroom.flushRecs.of_ok ‹_›).modCtx.popWrite.of_ok ‹_›)
            · exact .done ((hroom.flushRecs.of_ok ‹_›).modCtx.popWrite.of_ok ‹_›)

theorem State.MemOk.popPassed (h : s.MemOk) : (s.popPassed id).MemOk := h.modDie

theorem State.MemOk.launchPop (h : s.MemOk) {result : Word} {lineage : List (List Byte)} {evs : Evs} {bytes : Nat}
    {send : Option (Nat × Packet)} : (s.launchPop id hd result lineage evs bytes send).MemOk :=
  h.modHead.coreFields.popPassed.sendOn

theorem PopRes.MemOk.settlePop {r : PopRes} (h : r.MemOk) : (State.settlePop id hd r).MemOk := by
  cases h with
  | done h => exact h.launchPop
  | wait h => exact h.popPassed
  | fault h => exact h.faultWord.state.popPassed
  | refused h => exact h.endWord.state.popPassed

theorem State.MemOk.issuePop (h : s.MemOk) {run : State → CoreId → Head → PopRes}
    (hr : ∀ t id hd, t.MemOk → (run t id hd).MemOk) : (s.issuePop w run).MemOk := by
  unfold State.issuePop
  dsimp only
  split
  · exact h.decideHeads
  · exact .ite h.decideHeads (hr _ _ _ h.decideHeads).settlePop

theorem runPop_memOk (h : s.MemOk) {i : Instr} {run : State → CoreId → Head → PopRes}
    (hr : ∀ t id hd, t.MemOk → (run t id hd).MemOk) : NextOk (runPop i run s) := by
  unfold runPop
  split
  · exact .next (h.issuePop hr)
  · exact .next h

@[simp] theorem execPrank_memOk (h : s.MemOk) {hd : Header} {w : PopBody} : NextOk (execPrank hd w s) :=
  runPop_memOk h fun _ _ _ ht => runPrank_memOk ht

@[simp] theorem execPcull_memOk (h : s.MemOk) {hd : Header} {w : PopBody} : NextOk (execPcull hd w s) :=
  runPop_memOk h fun _ _ _ ht => runPcull_memOk ht

@[simp] theorem execPmig_memOk (h : s.MemOk) {hd : Header} {w : PopBody} : NextOk (execPmig hd w s) :=
  runPop_memOk h fun _ _ _ ht => runPmig_memOk ht

@[simp] theorem execPlog_memOk (h : s.MemOk) {hd : Header} {w : PopBody} : NextOk (execPlog hd w s) :=
  runPop_memOk h fun _ _ _ ht => runPlog_memOk ht

@[simp] theorem execPopulationWordRetire_memOk (h : s.MemOk) : NextOk (execPopulationWordRetire id s) := by
  unfold execPopulationWordRetire
  dsimp only
  split
  · exact .next h
  · split
    · exact .next h
    · split
      · exact .next h.sendOn
      · split
        · exact .next (h.sendOn.retireFlight.of_blocked ‹_›)
        · exact .next (h.sendOn.retireFlight.of_done ‹_›).coreFields

theorem State.MemOk.modPort (h : s.MemOk) {p : Nat} {f : Port → Port} : (s.modPort p f).MemOk := h

@[simp] theorem execPmigArrival_memOk (h : s.MemOk) {p : Packet} : NextOk (execPmigArrival port p s) := by
  unfold execPmigArrival
  dsimp only
  split
  · exact .next h
  · split
    · exact .next h.modPort
    · split
      · exact .next h.readMembers.modPort
      · split
        · exact .next h.readMembers.modPort
        · split
          · exact .next h.readMembers
          · split
            · exact .next h.readMembers.modPort
            · split
              · exact .next h.readMembers.want
              · split
                · exact .next (h.readMembers.logWrite.of_blocked ‹_›)
                · exact .next (h.readMembers.logWrite.of_done ‹_›).writeScratch.noteStale.coreFields.modCtx.modPort

end Sys2Proof.Machine
end

section
/-! The events of the machine and its host keep every memory in canonical form (spec/00 R3). -/

namespace Sys2Proof.Machine

variable {s : State} {id : CoreId} {asid n k i a pa slot die code d kind bench port temp mA : Nat} {v va : Word}
    {bs : List Byte} {q : Queue} {rels : List Rel} {ids : List CoreId} {c : CoreSt} {x : Ctx} {r : TaskRec}
    {run : Instr → State → Host.Outcome State Fault Refusal}

/-! ### Fetches and the boundary of an instruction -/

theorem State.MemOk.fetch (h : s.MemOk) : (s.fetch id va).1.MemOk := by
  unfold State.fetch
  dsimp only
  split
  · exact h
  · refine .fst_ite h.walkMet ?_
    split
    · exact h.walkMet
    · exact .fst_ite h.walkMet.served (.fst_ite h.walkMet.served.consume h.walkMet.served.consume)

theorem State.MemOk.prefetch (h : s.MemOk) : (s.prefetch id va).MemOk := by
  unfold State.prefetch
  split
  · exact h
  · split
    · exact (h.fetch.of_pair ‹_›).coreFields
    · exact h

theorem State.MemOk.drainCores (h : s.MemOk) : (s.drainCores ids).MemOk := by
  induction ids generalizing s with
  | nil => exact h
  | cons id ids ih => exact ih h.drainAll.state

theorem State.MemOk.stopAll (h : s.MemOk) : (s.stopAll asid).MemOk := by
  unfold State.stopAll
  dsimp only
  split
  · exact h
  · split
    · exact (h.drainCores.arriveAll.foldl fun _ _ ht => ht.coreFields).modCtx.same.foldl fun _ _ ht => ht.trace
    · exact (h.drainCores.arriveAll.foldl fun _ _ ht => ht.coreFields).modCtx

theorem State.MemOk.breakStop (h : s.MemOk) {t : State} (e : s.breakStop id = some t) : t.MemOk := by
  unfold State.breakStop at e
  dsimp only at e
  split at e
  · cases e; exact h.coreFields.dbgStop
  · cases e

theorem State.MemOk.makeDue (h : s.MemOk) : (s.makeDue id).MemOk := by
  unfold State.makeDue
  split
  · exact .ite h.flush.same h.enterHandler
  · exact h

theorem State.MemOk.dropHostAmo (h : s.MemOk) : (s.dropHostAmo id).MemOk := .ite h.modDie.coreFields h

theorem State.MemOk.takePending (h : s.MemOk) : (s.takePending id).MemOk := by
  unfold State.takePending
  dsimp only
  split
  · exact h
  · exact .ite h.flush.same (.ite h.dropHostAmo.coreFields.diverge h.dropHostAmo.coreFields.splitGang.enterHandler)

theorem State.MemOk.replayWait (h : s.MemOk) : (s.replayWait id kind).MemOk := .ite h.diverge h

theorem State.MemOk.stepDone (h : s.MemOk) : (s.stepDone id).MemOk := by
  unfold State.stepDone
  dsimp only
  split
  · exact h
  · split
    · exact h.diverge
    · split <;> exact .ite h.coreFields.same h

theorem State.MemOk.settleStep (h : s.MemOk) : (s.settleStep asid).MemOk := .ite h.stopAll h

theorem State.MemOk.afterRun (h : s.MemOk) : (s.afterRun ids).MemOk := (h.foldl fun _ _ ht => ht.stepDone).settleStep

theorem State.MemOk.trapAll (h : s.MemOk) {t : TrapInfo} : (s.trapAll t).MemOk := .ite h.gangTrap.same h.takeTrap

theorem State.MemOk.execute (h : s.MemOk) (hr : ∀ i t, t.MemOk → NextOk (run i t)) : NextOk (s.execute run) := by
  unfold State.execute
  dsimp only
  split
  · exact .next (h.fetch.of_pair ‹_›).takeTrap
  · split
    · exact .next (h.fetch.of_pair ‹_›).trapAll
    · split
      · exact .next (h.fetch.of_pair ‹_›).trapAll
      · split
        · exact .next (h.fetch.of_pair ‹_›).diverge
        · exact .ite ((h.fetch.of_pair ‹_›).gangRun fun _ ht => hr _ _ ht) (hr _ _ (h.fetch.of_pair ‹_›))

theorem State.MemOk.coreRun_go (h : s.MemOk) (hr : ∀ i t, t.MemOk → NextOk (run i t)) :
    NextOk (State.coreRun.go run s ids) := by
  unfold State.coreRun.go
  split
  · obtain ⟨m, -, hm⟩ := List.exists_of_findSome?_eq_some ‹_›
    exact .next (h.breakStop hm)
  · exact thenNext_memOk (fun _ ht => .ite ht.replayWait ht) (h.execute hr)

theorem State.MemOk.coreRun (h : s.MemOk) (hr : ∀ i t, t.MemOk → NextOk (run i t)) : NextOk (s.coreRun run) := by
  unfold State.coreRun
  refine thenNext_memOk (fun _ ht => ht.afterRun) (.ite (.next h) (.ite (h.same.coreRun_go fun _ _ ht =>
      hr _ _ ht) (.ite (.next h.same.makeDue) ?_)))
  split
  · exact .next h.same.takePending
  · refine .ite (.next h.same.replayWait) ?_
    split
    · exact .ite (.next h) (h.same.coreRun_go fun _ _ ht => hr _ _ ht)
    · exact h.same.coreRun_go fun _ _ ht => hr _ _ ht

/-! ### Drains, deliveries and periods -/

theorem State.MemOk.asEvent (h : s.MemOk) (hr : ∀ i t, t.MemOk → NextOk (run i t)) : NextOk (s.asEvent id run) :=
  thenNext_memOk (fun _ ht => ht) (h.same.coreRun fun _ _ ht => hr _ _ ht)

@[simp] theorem execWfcyExpiry_memOk (h : s.MemOk) : NextOk (execWfcyExpiry id s) := by
  unfold execWfcyExpiry
  split
  · refine .ite (.next h) (h.asEvent fun _ _ ht => ?_)
    split
    · exact execWfcy_memOk ht
    · exact .next ht
  · exact .next h

@[simp] theorem execWfcWake_memOk (h : s.MemOk) : NextOk (execWfcWake id s) := by
  unfold execWfcWake
  split
  · refine .ite (.next h) (h.asEvent fun _ _ ht => ?_)
    split
    · exact execWfc_memOk ht
    · exact .next ht
  · exact .next h

@[simp] theorem execLateRefusal_memOk (h : s.MemOk) : NextOk (execLateRefusal id s) := by
  unfold execLateRefusal
  split
  · exact .next h
  · exact .next h.coreFields.ack.pendTrap

@[simp] theorem execStoreBufferDrain_memOk (h : s.MemOk) : NextOk (execStoreBufferDrain id s) := .next h.drainOne.state

@[simp] theorem execEdgeQueueDrain_memOk (h : s.MemOk) : NextOk (execEdgeQueueDrain die i s) :=
  .ite (.next h.edgeOne.state) (.next h)

@[simp] theorem execShadowMerge_memOk (h : s.MemOk) : NextOk (execShadowMerge die i s) := by
  unfold execShadowMerge
  split
  · exact .next h.mergeEntry.state
  · exact .next h

@[simp] theorem execTranslationWalk_memOk (h : s.MemOk) : NextOk (execTranslationWalk die asid va s) := by
  unfold execTranslationWalk
  dsimp only
  split
  · exact .next h
  · split
    · exact .next h
    · exact .next h.bump.modDie

theorem State.MemOk.sendOne (h : s.MemOk) : (s.sendOne id).MemOk := by
  unfold State.sendOne
  split
  · exact h
  · exact .ite h.coreFields.same h

theorem State.MemOk.landMsg (h : s.MemOk) {m : Msg} : (s.landMsg m).MemOk :=
  .ite h.logMade.writeScratch.askPlace.mark h.coreFields

theorem State.MemOk.deliver (h : s.MemOk) {m : Msg} : (s.deliver m).MemOk := by
  unfold State.deliver
  dsimp only
  split
  · exact .blocked (.ite h.want h)
  · split
    · exact .done h.coreFields
    · refine .seq (.ite (.done h) h.room) fun _ ht => .ite (.seq ht.inputRoom fun _ ht2 => ?_) (.done ht.landMsg.ack)
      split
      · exact .blocked ht2
      · exact .done (ht2.landMsg.incrementRec.of_done ‹_›).ack

@[simp] theorem execMessageDelivery_memOk (h : s.MemOk) : NextOk (execMessageDelivery i s) := by
  unfold execMessageDelivery
  split
  · exact .next h
  · split
    · exact .next h
    · split
      · exact .next (h.deliver.of_blocked ‹_›)
      · exact .next (h.deliver.of_done ‹_›).same

@[simp] theorem execCounterIncrement_memOk (h : s.MemOk) : NextOk (execCounterIncrement i s) := by
  unfold execCounterIncrement
  split
  · exact .next h
  · split
    · exact .next h
    · split
      · exact .next (h.incrementRec.of_blocked ‹_›)
      · exact .next (.ite (h.incrementRec.of_done ‹_›).same.ack (h.incrementRec.of_done ‹_›).same)

theorem State.MemOk.startOn (h : s.MemOk) {gang : Option Gang} : (s.startOn id r k gang rels).MemOk :=
  h.coreFields.acquires.trace

theorem State.MemOk.startRec (h : s.MemOk) : (s.startRec id r rels).MemOk := .ite (h.foldl fun _ _ ht => ht.startOn) h.startOn

theorem State.MemOk.feed (h : s.MemOk) : (s.feed asid n).MemOk := by
  induction n generalizing s with
  | zero => exact h
  | succ n ih => exact .ite h (.ite h (ih h.makeRunnable.modCtx))

theorem State.MemOk.feedAll (h : s.MemOk) : s.feedAll.MemOk := h.foldl fun _ _ ht => ht.feed

@[simp] theorem execTaskStart_memOk (h : s.MemOk) : NextOk (execTaskStart id s) := by
  unfold execTaskStart
  dsimp only
  split
  · exact .next h
  · split
    · exact .next h
    · exact .next h.modDie.startRec.feedAll

@[simp] theorem execSuperstepComplete_memOk (h : s.MemOk) : NextOk (execSuperstepComplete asid s) := by
  unfold execSuperstepComplete
  dsimp only
  split
  · exact .next h
  · split
    · exact .next (h.completeSuper.of_blocked ‹_›)
    · split
      · exact .next (h.completeSuper.of_done ‹_›).modCtx.dbgStop.stopAll
      · exact .next (h.completeSuper.of_done ‹_›)

@[simp] theorem execGovernorPeriod_memOk (h : s.MemOk) : NextOk (execGovernorPeriod asid die s) := by
  unfold execGovernorPeriod
  dsimp only
  split
  · exact .next h
  · split
    · exact .next h
    · split
      · exact .next h.modCtx.coreFields
      · exact .next h.modCtx

theorem State.MemOk.moveEntries (h : s.MemOk) {q b : Nat} : (s.moveEntries asid q a b n).MemOk := h.modCtx.same

theorem State.MemOk.moveRecs (h : s.MemOk) {b : Nat} : (s.moveRecs asid a b n).MemOk := h.modDie.same

theorem State.MemOk.readLoads (h : s.MemOk) : (s.readLoads asid d).MemOk := by
  unfold State.readLoads
  split
  · exact h
  · exact .ite h h.modCtx

@[simp] theorem execBalancerPeriod_memOk (h : s.MemOk) : NextOk (execBalancerPeriod asid s) := by
  unfold execBalancerPeriod
  dsimp only
  split
  · exact .next h
  · refine .ite (.next h) (.next ?_)
    generalize hm : (List.foldl _ _ _ : State) = t
    have moved : t.MemOk := by
      subst hm
      refine h.modCtx.foldl fun _ _ ht => ?_
      split
      · exact ht
      · exact .ite ht.moveEntries ht
    refine .ite ?_ moved
    split
    · exact moved
    · exact .ite moved.moveRecs moved

@[simp] theorem execMigrationArrival_memOk (h : s.MemOk) : NextOk (execMigrationArrival i s) := by
  unfold execMigrationArrival
  split
  · exact .next h
  · exact .ite (.next h.same.arrive) (.next h)

theorem State.MemOk.ringWrite (h : s.MemOk) : (s.ringWrite id k bs).MemOk := by
  unfold State.ringWrite
  dsimp only
  split
  · exact h.foundIn.raiseHalt
  · split
    · exact .ite h.foundIn.touch.hbmWrite h.foundIn.touch.raiseHalt
    · exact h.foundIn.raiseHalt

theorem State.MemOk.markFreed (h : s.MemOk) : (s.markFreed id).MemOk := h.modCtx.foldl fun _ _ ht => ht.ringWrite

@[simp] theorem execLogDrain_memOk (h : s.MemOk) : NextOk (execLogDrain id s) :=
  .ite (.next h) (.next (h.markFreed.modCtx.coreFields.foldl fun _ _ ht => ht.ringWrite))

/-! ### Contexts -/

theorem CoreSt.MemOk.restartRings (h : c.MemOk) : c.restartRings.MemOk := h

theorem State.MemOk.enter (h : s.MemOk) : (s.enter asid).MemOk := by
  unfold State.enter
  dsimp only
  split
  · split
    · exact (h.modCtx.foldl fun _ _ ht => ht.modCore fun _ hc => .ite hc.restartRings hc).foldl fun _ _ ht => ht.modDie
    · exact ((h.modCtx.foldl fun _ _ ht => ht.modCore fun _ hc => .ite hc.restartRings hc).foldl fun _ _ ht =>
          ht.modDie).stopAll
  · exact (h.modCtx.foldl fun _ _ ht => ht.modCore fun _ hc => .ite hc.restartRings hc).foldl fun _ _ ht => ht.modDie

theorem State.MemOk.switchIn (h : s.MemOk) : (s.switchIn n).MemOk := by
  induction n generalizing s with
  | zero => exact h
  | succ n ih =>
    unfold State.switchIn
    split
    · exact h
    · exact ih h.enter

theorem State.MemOk.mergeCtx (h : s.MemOk) : (s.mergeCtx ids).MemOk := tryEach_memOk (fun _ _ ht => ht.mergeOf) h

theorem State.MemOk.leave (h : s.MemOk) : (s.leave asid).MemOk := (h.foldl fun _ _ ht => ht.dropHostAmo.coreFields).same.modCtx

@[simp] theorem execPreemption_memOk (h : s.MemOk) {favour : Option Nat} : NextOk (execPreemption asid favour s) := by
  unfold execPreemption
  split
  · exact .next h
  · split
    · exact .next h
    · split
      · exact .next h.modCtx
      · split
        · exact .next h
        · split
          · exact .next (h.foldl fun _ _ ht => ht.flush)
          · split
            · exact .next ((h.foldl fun _ _ ht => ht.flush).mergeCtx.of_blocked ‹_›)
            · split
              · exact .next ((h.foldl fun _ _ ht => ht.flush).mergeCtx.of_done ‹_›).leave.enter
              · exact .next ((h.foldl fun _ _ ht => ht.flush).mergeCtx.of_done ‹_›).leave

@[simp] theorem execSliceExpiry_memOk (h : s.MemOk) : NextOk (execSliceExpiry asid s) := by
  unfold execSliceExpiry
  split
  · exact .next h
  · exact .ite (.next h) (.next h.bump.modCtx)

@[simp] theorem execScratchpadSwap_memOk (h : s.MemOk) {out into core block : Nat} :
    NextOk (execScratchpadSwap out into core block s) := by
  unfold execScratchpadSwap
  split
  · split
    · exact .next h
    · split
      · exact .ite (.next h.bringIn) (.next h)
      · exact .next h
  · exact .ite (.next h) (.next h.bringIn)
  · exact .next h

@[simp] theorem execContextSpill_memOk (h : s.MemOk) : NextOk (execContextSpill asid s) := by
  unfold execContextSpill
  split
  · exact .next h
  · split
    · exact .next h.mergeCtx.state
    · exact .ite (.next h) (.next (h.arriveAll.foldl fun _ _ ht => ht.coreFields).modCtx)

theorem State.MemOk.rehome (h : s.MemOk) {old new : Ctx} : (s.rehome old new).MemOk :=
  ((h.same.foldl fun _ _ ht => ht.modDie).foldl fun _ _ ht => ht.modDie).modCtx

theorem State.MemOk.takeBanks (h : s.MemOk) {benches : List Nat} : (s.takeBanks benches).1.MemOk := h

@[simp] theorem execContextRestore_memOk (h : s.MemOk) {benches : List Nat} : NextOk (execContextRestore asid benches s) := by
  unfold execContextRestore
  dsimp only
  split
  · exact .next h
  · split
    · exact .next h
    · exact .next ((h.rehome.same.modCtx.foldl fun _ _ ht => ht.touch).foldl fun _ _ ht => ht.injectAt).switchIn

theorem State.MemOk.putStatus (h : s.MemOk) {v : Nat} : (s.putStatus i v).MemOk := .ite h.hbmWrite h

theorem State.MemOk.putDone (h : s.MemOk) {par : LaunchPar} : (s.putDone par).MemOk := by
  unfold State.putDone
  have hs {bad : Prop} [Decidable bad] {ds : List Damage} : (if bad then (s, true) else s.foundIn (some par.asid) ds).1.MemOk :=
    .fst_ite h h.foundIn
  dsimp only
  refine .ite hs ?_
  split
  · exact .ite hs.dmaMet.hbmWrite hs.dmaMet
  · exact .ite hs.hostAccept hs
  · exact hs.hostAccept
  · exact hs

theorem State.MemOk.finish (h : s.MemOk) : (s.finish i).MemOk := h

theorem State.MemOk.flushCtx (h : s.MemOk) : (s.flushCtx asid).MemOk :=
  (h.drainCores.foldl fun _ _ ht => ht.edgeWhere.state).mergeCtx.state

theorem State.MemOk.freeCtx (h : s.MemOk) {status : Nat} : (s.freeCtx asid status).MemOk := by
  have hs := h.flushCtx.putStatus.putDone.dropDamage (asid := asid)
    (s := ((s.flushCtx asid).putStatus (s.ctx asid).qpos status).putDone (s.ctx asid).par)
  obtain ⟨hd, hh, hc⟩ := hs
  unfold State.freeCtx
  refine .feedAll (.switchIn (.finish (.ite (State.MemOk.same ?_) ?_)))
  all_goals exact ⟨hd, hh, fun c hm => hc c (List.mem_of_mem_filter hm)⟩

/-! ### Traps and halts -/

@[simp] theorem execTrapEntry_memOk (h : s.MemOk) : NextOk (execTrapEntry id s) :=
  .ite (.next h.same.makeDue.afterRun) (.next h)

@[simp] theorem execTakePendingTrap_memOk (h : s.MemOk) : NextOk (execTakePendingTrap id s) :=
  .ite (.next h.takePending.afterRun) (.next h)

@[simp] theorem execHalt_memOk (h : s.MemOk) : NextOk (execHalt asid s) := by
  unfold execHalt
  split
  · exact .next h
  · split
    · exact .next h
    · exact .ite (.next h) (.next h.stopAll)

@[simp] theorem execWordSuspend_memOk (h : s.MemOk) : NextOk (execWordSuspend id q i s) := by
  unfold execWordSuspend
  dsimp only
  split
  · split
    · exact .next h
    · split
      · exact .next h.modFlight.settleRec
      · exact .next h.modFlight
  · exact .next h

@[simp] theorem execContextAbort_memOk (h : s.MemOk) : NextOk (execContextAbort asid s) := by
  unfold execContextAbort
  split
  · exact .next h
  · split
    · exact .next h
    · exact .ite (.next h.freeCtx) (.next h)

theorem State.MemOk.completeHeld (h : s.MemOk) {hs : List Held} : (s.completeHeld hs).MemOk := by
  induction hs generalizing s with
  | nil => exact h
  | cons x xs ih =>
    unfold State.completeHeld
    dsimp only
    split
    · exact h
    · split
      · exact h.retireFlight.of_blocked ‹_›
      · exact ih (h.retireFlight.of_done ‹_›)

theorem State.MemOk.resumeCtx (h : s.MemOk) : (s.resumeCtx asid).MemOk :=
  (h.modCtx.foldl fun _ _ ht => ht.coreFields).completeHeld

theorem State.MemOk.finishWords (h : s.MemOk) : (s.finishWords id).MemOk := h.foldl fun _ _ ht => ht.copyAll

theorem State.MemOk.endWords (h : s.MemOk) {w : Nat} : (s.endWords id w).MemOk :=
  h.coreFields.foldl fun _ _ ht => .ite ht ht.retireFlight.state

theorem State.MemOk.takeLate (h : s.MemOk) : (s.takeLate id).MemOk := h.foldl fun _ _ ht => ht.coreFields.ack.pendTrap

theorem State.MemOk.settleMsgs (h : s.MemOk) : (s.settleMsgs id n).MemOk := by
  induction n generalizing s with
  | zero => exact h
  | succ n ih =>
    have arrived {f : Nat → State → Host.Outcome State Fault Refusal} (hf : ∀ i t, t.MemOk → NextOk (f i t)) {t : State}
        (ht : t.MemOk) {o : Option Nat} :
        State.MemOk (match o with | some i => (match f i t with | .next u => u | _ => t) | none => t) := by
      split
      · split
        · exact (hf _ _ ht).of_next ‹_›
        · exact ht
      · exact ht
    exact ih (arrived (fun _ _ ht => execCounterIncrement_memOk ht) (arrived (fun _ _ ht =>
        execMessageDelivery_memOk ht) h.sendOne))

theorem State.MemOk.settleRequests (h : s.MemOk) : (s.settleRequests id).MemOk := h.drainCore.state.takeLate.settleMsgs

theorem State.MemOk.settleCore (h : s.MemOk) : (s.settleCore id).MemOk :=
  (h.finishWords.foldl fun _ _ ht => .ite ht ht.retireFlight.state).settleRequests

theorem State.MemOk.haltRewind (h : s.MemOk) {w : Nat} : (s.haltRewind id w).MemOk := by
  unfold State.haltRewind
  exact h.coreFields.finishWords.endWords.settleRequests.modCtx.rewindCore.state

theorem State.MemOk.rewindSuper (h : s.MemOk) {w : Nat} : (s.rewindSuper asid w).MemOk :=
  h.modCtx.foldl fun _ _ ht => ht.coreFields

theorem State.MemOk.pendToken (h : s.MemOk) {t : TrapInfo} : (s.pendToken id t).MemOk := .ite h.raiseHalt h.coreFields

theorem State.MemOk.settleAbort (h : s.MemOk) : (s.settleAbort asid).MemOk := by
  unfold State.settleAbort
  dsimp only
  split
  · exact h
  · split
    · exact h.freeCtx
    · exact .foldl (.resumeCtx (.ite (h.foldl fun _ _ ht => ht.haltRewind).rewindSuper (h.foldl fun _ _ ht =>
          ht.haltRewind))) fun _ _ ht => ht.pendToken

@[simp] theorem execAbortAgreement_memOk (h : s.MemOk) : NextOk (execAbortAgreement asid s) := by
  unfold execAbortAgreement
  split
  · exact .next h
  · split
    · exact .next h
    · exact .ite (.next h.settleAbort) (.next h)

theorem State.MemOk.dieGone (h : s.MemOk) : (s.dieGone d).MemOk := by
  refine h.same.same.foldl fun _ _ ht => ?_
  split
  · exact ht.raiseHalt
  · exact .ite (ht.foldl fun _ _ ht2 => ht2.pendTrap) ht

theorem State.MemOk.loseDie (h : s.MemOk) : (s.loseDie d).MemOk := h.modDie.logEvent.dieGone

@[simp] theorem execDieLost_memOk (h : s.MemOk) : NextOk (execDieLost die s) := .ite (.next h) (.next h.loseDie)

/-! ### Launches, invalidations and host accesses -/

theorem State.MemOk.descriptorMet (h : s.MemOk) : (s.descriptorMet asid).MemOk := by
  unfold State.descriptorMet
  dsimp only
  split
  · exact h.foundIn
  · split
    · exact h.foundIn.dmaMet
    · exact h.foundIn

theorem Ctx.freshCore_memOk {desc : Word × Word × Word} {img : Mem} (h : Mem.wf img) : (x.freshCore desc img id).MemOk :=
  ⟨Mem.wf_nil, h, List.Pairwise.nil⟩

theorem imageMem_wf (fp : Nat) (img : List (Nat × Byte)) : Mem.wf (imageMem fp img) :=
  List.foldlRecOn _ _ Mem.wf_nil fun _ h _ _ => Mem.write_wf _ _ h

theorem State.MemOk.clearRing (h : s.MemOk) : (s.clearRing id).MemOk := h.foldl fun _ _ ht => .ite ht ht.ringWrite

/-- Cores join those of the machine. -/
theorem State.MemOk.addCores (h : s.MemOk) {cs : List CoreSt} (hcs : ∀ c ∈ cs, c.MemOk) {ctxs : List Ctx} :
    State.MemOk { s with ctxs, cores := s.cores ++ cs } := by
  obtain ⟨hd, hh, hc⟩ := h
  exact ⟨hd, hh, fun c hm => (List.mem_append.mp hm).elim (hc c) (hcs c)⟩

theorem State.MemOk.bind (h : s.MemOk) {p : LaunchPar} {desc : Word × Word × Word} {benches : List Nat}
    {img : List (Nat × Byte)} : (s.bind p desc benches img).MemOk := by
  unfold State.bind
  refine .ite (.modCtx (.foldl ?started fun _ _ ht => ht.startRec)) (.feed ?started)
  refine .ite (.foldl (.enter ?injected) fun _ _ ht => ht.injectAt) ?injected
  refine .foldl (.ite (.foldl ?ring fun _ _ ht => ht.openWindow) ?ring) fun _ _ ht => ht.injectAt
  refine .ite ?status (.clearRing ?status)
  refine .putStatus (.foldl (.addCores h.dropDamage.takeBanks ?_) fun _ _ ht => ht.touch)
  intro c hc
  obtain ⟨id, -, rfl⟩ := List.mem_map.mp hc
  exact Ctx.freshCore_memOk (imageMem_wf ..)

theorem State.MemOk.endLaunch (h : s.MemOk) {p : LaunchPar} {status : Nat} {done : Bool} :
    (s.endLaunch p status done).MemOk := .finish (State.MemOk.same (.ite h.putStatus.putDone h.putStatus))

@[simp] theorem execLaunchDispatch_memOk (h : s.MemOk) {img : List (Nat × Byte)} : NextOk (execLaunchDispatch img s) := by
  unfold execLaunchDispatch
  dsimp only
  split
  · exact .next h
  · split
    · exact .next h.endLaunch
    · split
      · exact .next h.dmaMet
      · split
        · exact .next h.dmaMet.dmaMet.endLaunch
        · split
          · exact .next h.dmaMet.dmaMet.descriptorMet.endLaunch
          · split
            · exact .next h.dmaMet.dmaMet.descriptorMet.endLaunch
            · split
              · exact .next h.dmaMet.dmaMet.descriptorMet
              · exact .ite (.next h.dmaMet.dmaMet.descriptorMet) (.next h.dmaMet.dmaMet.descriptorMet.bind.same)

@[simp] theorem execLaunchComplete_memOk (h : s.MemOk) : NextOk (execLaunchComplete asid s) := by
  unfold execLaunchComplete
  split
  · exact .next h
  · split
    · exact .next h
    · refine .next (h.flushCtx.foldl fun _ _ ht => ?_).freeCtx
      split
      · exact ht.commitTo
      · exact ht

theorem State.MemOk.launchErr (h : s.MemOk) : s.launchErr.MemOk := h

@[simp] theorem execLaunch_memOk (h : s.MemOk) : NextOk (execLaunch v s) := .ite (.next h.launchErr) (.next h)

@[simp] theorem execLaunchQueueConfigWrite_memOk (h : s.MemOk) {size : Bool} :
    NextOk (execLaunchQueueConfigWrite size v s) := .ite (.next h.launchErr) (.ite (.next h) (.next h))

theorem State.MemOk.queueInval (h : s.MemOk) {i : Inval} : (s.queueInval i).MemOk := .ite h h

@[simp] theorem execInvalidatePage_memOk (h : s.MemOk) {asid : BitVec 10} {vpn : BitVec 40} :
    NextOk (execInvalidatePage asid vpn s) := .next h.queueInval

@[simp] theorem execInvalidateAsid_memOk (h : s.MemOk) {asid : BitVec 10} : NextOk (execInvalidateAsid asid s) :=
  .next h.queueInval

@[simp] theorem execInvalidateAll_memOk (h : s.MemOk) : NextOk (execInvalidateAll s) := .next h.queueInval

@[simp] theorem execInvalidateRejected_memOk (h : s.MemOk) : NextOk (execInvalidateRejected v s) := .ite (.next h) (.next h)

@[simp] theorem execInvalidationComplete_memOk (h : s.MemOk) : NextOk (execInvalidationComplete s) := by
  unfold execInvalidationComplete
  split
  · exact .next h
  · exact .ite (.next h) (.next h)

@[simp] theorem execHostMemRead_memOk (h : s.MemOk) : NextOk (execHostMemRead pa n s) :=
  .ite (.next h) (.ite (.next h.dmaMet) (.next h.dmaMet.same))

@[simp] theorem execHostMemWrite_memOk (h : s.MemOk) {data : List Byte} : NextOk (execHostMemWrite pa data s) :=
  .ite (.next h) (.next h.hbmWrite)

/-! ### Debug -/

theorem State.MemOk.dbgErr (h : s.MemOk) : s.dbgErr.MemOk := h

theorem State.MemOk.noWin (h : s.MemOk) : s.noWin.MemOk := h

theorem State.MemOk.dbgResume (h : s.MemOk) : (s.dbgResume asid).MemOk := by
  unfold State.dbgResume
  dsimp only
  split
  · exact h.same
  · split
    · exact .ite h.resumeCtx h.resumeCtx.same
    · split
      · exact h
      · split
        · split
          · exact (h.foldl fun _ _ ht => ht.settleCore).settleAbort
          · exact (h.foldl fun _ _ ht => ht.settleCore).settleAbort.same
        · exact (h.foldl fun _ _ ht => ht.settleCore).same

@[simp] theorem execResume_memOk (h : s.MemOk) : NextOk (execResume s) := .ite (.next h.noWin.dbgResume) (.next h.dbgErr)

theorem State.MemOk.recStop (h : s.MemOk) : (s.recStop asid).MemOk := h.modCtx.mapCores fun _ hc => .ite hc hc

theorem State.MemOk.detach (h : s.MemOk) : s.detach.MemOk :=
  .ite h (.mapCores (.recStop (.ite h.unstep.modCtx.dbgResume h.unstep.modCtx)) fun _ hc => .ite hc hc)

theorem State.MemOk.attach (h : s.MemOk) : (s.attach a).MemOk := .ite h h.detach.same

@[simp] theorem execDebugAttach_memOk (h : s.MemOk) {asid : BitVec 10} : NextOk (execDebugAttach asid s) := .next h.attach

@[simp] theorem execDebugDetach_memOk (h : s.MemOk) : NextOk (execDebugDetach s) := .next h.detach

@[simp] theorem execRegisterWrite_memOk (h : s.MemOk) {off : BitVec 24} : NextOk (execRegisterWrite off v s) := by
  unfold execRegisterWrite
  refine .next ?_
  split
  · exact .ite h h
  · exact .ite h (.ite h h)
  · split
    · exact .ite h.attach h.detach.same
    all_goals exact h
  · exact .ite h h
  · exact .ite h (.ite h h)
  · exact .ite h (.ite h h)
  · exact .ite h h
  · split <;> exact h
  · exact h

@[simp] theorem execStop_memOk (h : s.MemOk) : NextOk (execStop s) := by
  unfold execStop
  dsimp only
  split
  · exact .next h.dbgErr
  · split
    · exact .ite (.next h.noWin.same.modCtx) (.next h.dbgErr)
    · exact .ite (.next h.noWin.modCtx.dbgStop.same) (.ite (.next h.dbgStop.settleStep) (.next h.dbgErr))

@[simp] theorem execStep_memOk (h : s.MemOk) : NextOk (execStep s) :=
  .ite (.next h.dbgErr) (.next (h.noWin.foldl fun _ _ ht => ht.coreFields).same)

theorem State.MemOk.dbgRewind (h : s.MemOk) {w : Nat} : (s.dbgRewind id w).MemOk := h.haltRewind.coreFields

theorem State.MemOk.rewindWin (h : s.MemOk) {w : Nat} : (s.rewindWin x w ids).MemOk := by
  unfold State.rewindWin
  dsimp only
  split
  · exact (h.foldl fun _ _ ht => ht.settleRequests).same
  · exact State.MemOk.same (.ite ((h.foldl fun _ _ ht => ht.settleRequests).foldl fun _ _ ht =>
        ht.dbgRewind).rewindSuper ((h.foldl fun _ _ ht => ht.settleRequests).foldl fun _ _ ht => ht.dbgRewind))

theorem State.MemOk.goOn (h : s.MemOk) : s.goOn.MemOk := by
  unfold State.goOn
  split
  · exact h.rewindWin
  · exact h.dbgResume
  · exact h

@[simp] theorem execRewindWin_memOk (h : s.MemOk) : NextOk (execRewindWin s) := by
  unfold execRewindWin
  split
  · exact .next h.dbgErr
  · exact .ite (.next h.dbgErr) (.next h.rewindWin)

@[simp] theorem execRewindSeq_memOk (h : s.MemOk) : NextOk (execRewindSeq s) :=
  .ite (.next h.dbgErr) (.next (h.foldl fun _ _ ht => ht.applyEntry).modCtx.coreFields.noWin.same)

@[simp] theorem execReplay_memOk (h : s.MemOk) : NextOk (execReplay s) :=
  .ite (.next h.dbgErr) (.next (h.noWin.foldl fun _ _ ht => ht.coreFields).same.afterRun)

@[simp] theorem execRecordOn_memOk (h : s.MemOk) : NextOk (execRecordOn s) := by
  unfold execRecordOn
  split
  · exact .next h.dbgErr
  · exact .ite (.next h.dbgErr) (.next h.modCtx.same)

@[simp] theorem execRecordOff_memOk (h : s.MemOk) : NextOk (execRecordOff s) := .ite (.next h.dbgErr) (.next h.recStop)

@[simp] theorem execSlotSet_memOk (h : s.MemOk) : NextOk (execSlotSet s) :=
  .ite (.next h.dbgErr) (.next (h.foldl fun _ _ ht => ht.modCore fun _ hc => .ite hc hc))

@[simp] theorem execSlotGet_memOk (h : s.MemOk) : NextOk (execSlotGet s) := .ite (.next h.dbgErr) (.next h)

@[simp] theorem execDebugCommandRefused_memOk (h : s.MemOk) : NextOk (execDebugCommandRefused v s) :=
  .ite (.next h.dbgErr) (.next h)

@[simp] theorem execDdataRead_memOk (h : s.MemOk) : NextOk (execDdataRead s) := .next h.busRead

theorem CoreSt.MemOk.unitPut (h : c.MemOk) {off : Nat} : (c.unitPut off v).MemOk :=
  .ite (.ite h h) (.ite h.unitSet.dirtyReg h.unitSet)

theorem State.MemOk.ddataPut (h : s.MemOk) : (s.ddataPut v).MemOk := by
  unfold State.ddataPut
  split
  · exact h.modCore fun _ hc => hc.wx
  · exact h.coreFields
  · exact h.coreFields
  · exact h.writeRegSpace
  · exact h.writeScratch
  · exact h.modCore fun _ hc => hc.unitPut

@[simp] theorem execDdataWrite_memOk (h : s.MemOk) : NextOk (execDdataWrite v s) := .ite (.next h.dbgErr) (.next h.ddataPut)

@[simp] theorem execBreakpointHit_memOk (h : s.MemOk) : NextOk (execBreakpointHit id s) := by
  unfold execBreakpointHit
  refine .ite (.next h) ?_
  split
  · obtain ⟨m, -, hm⟩ := List.exists_of_findSome?_eq_some ‹_›
    exact .next (h.breakStop hm).afterRun
  · exact .next h

theorem accessRun_memOk (h : s.MemOk) {i : Instr} : NextOk (accessRun i s) := by
  unfold accessRun
  split
  · exact execLoad_memOk h
  · exact execStore_memOk h
  · exact execAmo_memOk h
  · exact execLr_memOk h
  · exact execSc_memOk h
  · exact execFloatOp_memOk h
  · exact execLda_memOk h
  · exact execStl_memOk h
  · exact execRedaddW_memOk h
  · exact execRedaddD_memOk h
  · exact execRedaddF_memOk h
  · exact execSamo_memOk h
  · exact execMsend_memOk h
  · exact execMpop_memOk h
  · exact execVld_memOk h
  · exact execVst_memOk h
  · exact execTld_memOk h
  · exact execTst_memOk h
  · exact execXmv_memOk h
  · exact .next h

@[simp] theorem execWatchpointHit_memOk (h : s.MemOk) : NextOk (execWatchpointHit id s) := by
  unfold execWatchpointHit
  split
  · exact .ite (.next ((h.asEvent fun _ _ ht => accessRun_memOk ht).of_next ‹_›)) (.next h)
  · exact .next h

@[simp] theorem execTraceConfigWrite_memOk (h : s.MemOk) {off : BitVec 24} : NextOk (execTraceConfigWrite off v s) := by
  unfold execTraceConfigWrite
  split
  · exact .ite (.next h.dbgErr) (.next h)
  · exact .ite (.next h.dbgErr) (.next h)
  · exact .ite (.next h.dbgErr) (.next h)
  · exact .next h

@[simp] theorem execTraceSample_memOk (h : s.MemOk) : NextOk (execTraceSample id s) := .ite (.next h) (.next h.trace)

/-! ### Package and trust -/

@[simp] theorem execDieResetRequest_memOk (h : s.MemOk) : NextOk (execDieResetRequest v s) :=
  .ite (.next h) (.ite (.next h) (.next h.modDie.dieGone))

@[simp] theorem execReroute_memOk (h : s.MemOk) : NextOk (execReroute die s) :=
  .ite (.next h.modDie) (.ite (.next h.modDie) (.next h))

@[simp] theorem execDrain_memOk (h : s.MemOk) : NextOk (execDrain die s) := .ite (.next h.modDie) (.next h)

theorem State.MemOk.resetCores (h : s.MemOk) : (s.resetCores die).MemOk := h.mapCores fun _ hc => .ite CoreSt.memOk_init hc

@[simp] theorem execDieReset_memOk (h : s.MemOk) : NextOk (execDieReset die s) := .ite (.next h.resetCores.modDie) (.next h)

@[simp] theorem execRejoin_memOk (h : s.MemOk) {strayed : Option SignedImage} {selfTest : Bool} :
    NextOk (execRejoin die strayed selfTest s) := .ite (.next h.modDie) (.ite (.next (.ite h.modDie.same h.modDie)) (.next h))

theorem State.MemOk.keyOp (h : s.MemOk) {st : KeySt} : (s.keyOp slot st).MemOk := .ite h h.keepKeys.same

@[simp] theorem execKeySlotEmpty_memOk (h : s.MemOk) {slot : BitVec 11} : NextOk (execKeySlotEmpty slot s) := .next h.keyOp

@[simp] theorem execKeySlotPlain_memOk (h : s.MemOk) {slot : BitVec 11} : NextOk (execKeySlotPlain slot s) := .next h.keyOp

@[simp] theorem execKeySlotKeyed_memOk (h : s.MemOk) {slot : BitVec 11} : NextOk (execKeySlotKeyed slot s) :=
  .ite (.next h) (.next h.keyOp.same)

@[simp] theorem execKeyUpdateDone_memOk (h : s.MemOk) : NextOk (execKeyUpdateDone s) := .next h

theorem State.MemOk.answer (h : s.MemOk) : (s.answer bs).MemOk := h

theorem State.MemOk.spdmError (h : s.MemOk) {data : Nat} : (s.spdmError code data).MemOk := h.answer

theorem State.MemOk.spdm (h : s.MemOk) {ready : Bool} {f : State → State} (hf : ∀ t, t.MemOk → (f t).MemOk) :
    NextOk (s.spdm ready f) := .ite (.next h) (.ite (.next (hf _ h)) (.next h.spdmError))

@[simp] theorem execGetVersion_memOk (h : s.MemOk) : NextOk (execGetVersion s) := h.spdm fun _ ht => ht.same.answer

@[simp] theorem execGetCapabilities_memOk (h : s.MemOk) : NextOk (execGetCapabilities s) := h.spdm fun _ ht => ht.same.answer

@[simp] theorem execNegotiateAlgorithms_memOk (h : s.MemOk) {asym hash meas : Nat} :
    NextOk (execNegotiateAlgorithms asym hash meas s) := h.spdm fun _ ht => .ite ht.same.answer ht.spdmError

@[simp] theorem execGetDigests_memOk (h : s.MemOk) : NextOk (execGetDigests s) := h.spdm fun _ ht => ht.answer

@[simp] theorem execGetCertificate_memOk (h : s.MemOk) {offset len : Nat} : NextOk (execGetCertificate slot offset len s) :=
  h.spdm fun _ ht => .ite ht.spdmError ht.answer

@[simp] theorem execChallenge_memOk (h : s.MemOk) {req : ChallengeReq} : NextOk (execChallenge slot req s) :=
  h.spdm fun _ ht => .ite ht.spdmError ht.same.answer

@[simp] theorem execGetMeasurements_memOk (h : s.MemOk) {index : Nat} {req : MeasureReq} :
    NextOk (execGetMeasurements index req s) := h.spdm fun _ ht => .ite ht.spdmError ht.same.answer

@[simp] theorem execSpdmUnsupported_memOk (h : s.MemOk) : NextOk (execSpdmUnsupported code s) := h.spdm fun _ ht => ht.spdmError

@[simp] theorem execPortDown_memOk (h : s.MemOk) : NextOk (execPortDown port s) := .next h

@[simp] theorem execPortUp_memOk (h : s.MemOk) {peer : BitVec 32} : NextOk (execPortUp port peer s) := .next h

/-! ### Management and boot -/

@[simp] theorem execUpdateStage_memOk (h : s.MemOk) : NextOk (execUpdateStage s) := .ite (.next h) (.next h)

@[simp] theorem execUpdateCancel_memOk (h : s.MemOk) : NextOk (execUpdateCancel s) := .ite (.next h) (.next h)

theorem State.MemOk.stagedImages (h : s.MemOk) {ioLen : Nat} : (s.stagedImages ioLen).1.MemOk := by
  unfold State.stagedImages
  split
  · exact h
  · exact h.dmaMet

@[simp] theorem execUpdateVerifyDone_memOk (h : s.MemOk) {ioLen : Nat} : NextOk (execUpdateVerifyDone ioLen s) := by
  unfold execUpdateVerifyDone
  refine .ite (.next h) ?_
  dsimp only
  split <;> exact .next (.logEvent h.stagedImages.same)

@[simp] theorem execPackageReset_memOk (h : s.MemOk) : NextOk (execPackageReset s) := by
  obtain ⟨hd, hh, -⟩ := h
  exact .next ⟨hd, hh, fun _ hc => nomatch hc⟩

@[simp] theorem execBoot_memOk (h : s.MemOk) {b : BootInput} : NextOk (execBoot b s) := by
  unfold execBoot
  dsimp only
  split
  · exact .next h
  · split
    · exact .next h
    · split
      · exact .next h.same.logEvent.same
      · exact .next (.logEvent (State.MemOk.same (.ite h.logEvent h)))

@[simp] theorem execSensorSample_memOk (h : s.MemOk) {readings : List (Nat × BitVec 32)} :
    NextOk (execSensorSample readings s) := .next h

@[simp] theorem execThermalHalving_memOk (h : s.MemOk) : NextOk (execThermalHalving bench temp s) :=
  .ite (.next h) (.next h.modDie.logEvent)

@[simp] theorem execThermalRecovery_memOk (h : s.MemOk) : NextOk (execThermalRecovery bench temp s) :=
  .ite (.next h) (.next h.modDie)

@[simp] theorem execCurrentTrip_memOk (h : s.MemOk) : NextOk (execCurrentTrip die mA s) :=
  .ite (.next h) (.next h.modDie.logEvent)

@[simp] theorem execTripClear_memOk (h : s.MemOk) : NextOk (execTripClear die mA s) := by
  unfold execTripClear
  split
  · exact .next h
  · exact .ite (.next h) (.next h.modDie.logEvent)

@[simp] theorem execDiePowerDown_memOk (h : s.MemOk) : NextOk (execDiePowerDown die mA s) := by
  unfold execDiePowerDown
  split
  · exact .next h
  · exact .ite (.next h) (.next h.modDie.loseDie)

@[simp] theorem execInjectArm_memOk (h : s.MemOk) {off : BitVec 24} : NextOk (execInjectArm off v s) := by
  unfold execInjectArm
  split
  · exact .ite (.next h) (.next h)
  · exact .next h
  · exact .next h

@[simp] theorem execScrub_memOk (h : s.MemOk) {array : BitVec 8} {unit : Word} : NextOk (execScrub array unit s) :=
  .ite (.next h) (.next (h.foldl fun _ _ ht => ht.foundDamage))

end Sys2Proof.Machine
end

section
/-! Every step keeps every memory in canonical form (spec/00 R3). -/

namespace Sys2Proof.Machine

variable {s : State} {id : CoreId} {n k i a pa o arr : Nat} {v va : Word} {bs : List Byte} {reg : Bool} {c : CoreSt}
    {run : Instr → State → Host.Outcome State Fault Refusal}

/-! ### Instructions, acts and steps -/

theorem State.MemOk.busBefore (h : s.MemOk) {off : Nat} : (s.busBefore off v).MemOk := .ite h h

theorem State.MemOk.busRun (h : s.MemOk) {off : Nat} {i : Instr} (hr : ∀ i t, t.MemOk → NextOk (run i t)) :
    NextOk (s.busRun off v i run) := hr _ _ h.same.busBefore

theorem State.MemOk.loadAhead (h : s.MemOk) : (s.loadAhead id va n).MemOk := by
  have hm : State.MemOk (if s.watched then s else { s with marks := [] }) := .ite h h
  unfold State.loadAhead
  refine .ite h ?_
  dsimp only
  split
  · exact h
  · exact .ite h hm.reach.coreFields

theorem State.MemOk.seeUnit (h : s.MemOk) : (s.seeUnit id reg a).MemOk := h.coreFields

theorem State.MemOk.pieceStep (h : s.MemOk) {only : Bool} : (s.pieceStep id i k o n only).MemOk := by
  unfold State.pieceStep
  split
  · exact h
  · exact .ite h (.ite h.copyReadStep.state h.copyStep.state)

theorem State.MemOk.upset (h : s.MemOk) {a : Word} {flips : Nat} : (s.upset id arr a flips).MemOk := by
  unfold State.upset
  split
  · exact h
  · split
    · exact .ite h h
    · exact .ite h h
    · exact h.same
    · exact .ite h h

theorem State.MemOk.unitWritten (h : s.MemOk) {a : Word} : (s.unitWritten arr a).MemOk := .ite h h

theorem State.MemOk.unitUsed (h : s.MemOk) {d : Damage} : (s.unitUsed id d).MemOk :=
  .ite h (.ite h.same.takeTrap (.ite h (.ite h.bump.same.modDie.logError h.consume)))

/-- Outside the model the host may store to its memory at any moment. -/
theorem State.MemOk.hostStore (h : s.MemOk) :
    State.MemOk { s.changed none ⟨0, 0⟩ (.hostCoh pa) bs.length with host := s.host.write pa bs } := by
  obtain ⟨hd, -, hc⟩ := h.changed (by_ := none) (id := ⟨0, 0⟩) (p := .hostCoh pa) (n := bs.length)
  exact ⟨hd, Mem.write_wf _ _ h.2.1, hc⟩

theorem State.MemOk.act (h : s.MemOk) {a : Act} (hr : ∀ i t, t.MemOk → NextOk (run i t)) : NextOk (s.act a run) := by
  cases a with
  | core => exact .ite (State.MemOk.coreRun h.same hr) (.next h)
  | ev => exact .ite (.next h) (hr _ _ h)
  | send => exact .next h.sendOne
  | select => exact .next h.same
  | tick => exact .next h.passCycles
  | prefetch => exact .next h.prefetch
  | copyPiece => exact .next h.pieceStep
  | copyRead => exact .next h.pieceStep
  | copyStart => exact .next h.issueCopy
  | holdBank => exact .next h.holdBank
  | spillUnits => exact .next h.spillUnits
  | loadAhead => exact .next h.loadAhead
  | hostStore => exact .next h.hostStore
  | readLoads => exact .next h.readLoads
  | useUnit => exact .next h.seeUnit
  | upset => exact .next h.upset
  | command => exact .next h.goOn
  | unitWritten => exact .next h.unitWritten
  | unitUsed => exact .next h.unitUsed

theorem State.MemOk.stepWith (h : s.MemOk) (hr : ∀ i t, t.MemOk → NextOk (run i t)) : NextOk (s.stepWith run) := by
  unfold State.stepWith
  refine thenNext_memOk (fun _ ht => ht.freezeNew) ?_
  split
  · exact h.busRun fun _ _ ht => hr _ _ ht
  · split
    · exact h.same.act fun _ _ ht => hr _ _ ht
    · exact thenNext_memOk (fun _ ht => ht.passCycle) (.ite (h.coreRun fun _ _ ht => hr _ _ ht) (.next h))

/-- Every instruction keeps every memory in canonical form. -/
theorem exec_memOk (h : s.MemOk) {i : Instr} : NextOk (exec i s) := by
  cases i with
  | mmf88 | mmf84 | mmf44 | mmh16 | mmh8 | mmi88 | mmi84 | mmi44 | mspf88 | mspf44 | mspi88 | msph16
  | mzero | manch | mresI | mresF | mcmp | vadd | vsub | vmul | vfma | vmax | vmin | vabs | vneg
  | vshl | vshr | vsra | vand | vor | vxor | vcmp | vsel | vcvt | vrcp | vexp2 | vreds | vredm | vperm
  | vbcast | vscl | vclamp | vrq | vnfin => simp only [exec]; exact runMv_memOk h
  | cpy | cps | gth | sct | rdx | bcs | fil | xch => simp only [exec]; exact runCopy_memOk h
  | _ => simp [exec, h]

/-- Settles O59: every operation of a step keeps what `State.MemOk` says (`State.MemOk.stepWith`), over instructions that do
(`exec_memOk`). -/
theorem memoryFormKept : Obligations.MemoryFormKept :=
  fun _ _ e h => (h.stepWith fun _ _ ht => exec_memOk ht).of_next e

end Sys2Proof.Machine
end

section
/-! Writes do not leave every core as it was: a store that memory beyond the cores accepts is noted with each load that a core
has read ahead there (`State.overtake`, `Early.newer`). -/

namespace Sys2Proof.Machine

/-- A machine of one live stack, with the shared slot in plain form, and two cores, of which core 1 has read byte 0 of host memory
and byte 0 of device memory ahead of its loads. -/
def readAheadState : State :=
  { State.reset with
    lmask := 1
    dies := [{ Die.reset with st := .live }]
    keys := { State.reset.keys with slots := [(1024, .plain)] }
    cores := [CoreSt.init ⟨0, 0⟩,
      { CoreSt.init ⟨0, 1⟩ with early := [⟨.hostCoh 0, [0], [], []⟩, ⟨.hbm 1024 0, [0], [], []⟩] }] }

/-! ### A store to host memory -/

/-- A store of core 0, with no window open, to byte 0 of host memory is accepted at once. -/
theorem put_readAheadState :
    readAheadState.put ⟨0, 0⟩ none (.hostCoh 0) [1] = .done (readAheadState.hostAccept 0 [1] (some ⟨0, 0⟩)) := rfl

theorem early_hostAccept_readAheadState :
    ((readAheadState.hostAccept 0 [1] (some ⟨0, 0⟩)).core ⟨0, 1⟩).early ≠ (readAheadState.core ⟨0, 1⟩).early := by decide

/-- Refutes O60: the statement has every core stand as before a store to host memory, but core 1, which has read the byte
ahead, notes the store of core 0 (`readAheadState`). -/
theorem not_storeFrame : ¬ Obligations.StoreFrame := by
  unfold Obligations.StoreFrame
  intro h
  obtain ⟨-, -, -, -, hhost, -⟩ := h _ _ _ _ _ _ put_readAheadState
  obtain ⟨-, hcores, -⟩ := hhost 0 (.inr rfl)
  exact early_hostAccept_readAheadState (congrArg CoreSt.early (hcores ⟨0, 1⟩))

/-! ### A host write to device memory -/

/-- A host write to byte 0 of device memory is not refused. -/
theorem hbmWriteRefusal_readAheadState : readAheadState.hbmWriteRefusal 1024 0 [(1 : Byte)].length = 0 := by decide

theorem hostMemWrite_readAheadState :
    exec (.hostMemWrite 0 [1]) readAheadState = .next (readAheadState.hbmWrite 1024 0 [1]) := rfl

theorem early_hbmWrite_readAheadState :
    (readAheadState.hbmWrite 1024 0 [1]).cores.map CoreSt.early ≠
      (readAheadState.cores.map fun c => c.breakHbm 0 [(1 : Byte)].length).map CoreSt.early := by decide

/-- Refutes O45: the statement has a host write to device memory change no more of a core than its reservation, but core 1,
which has read the byte ahead, notes the write (`readAheadState`). -/
theorem not_translationHostResult : ¬ Obligations.TranslationHostResult := by
  unfold Obligations.TranslationHostResult
  intro h
  obtain ⟨-, -, -, -, -, hmem⟩ := h
  obtain ⟨-, -, hwrite, -⟩ := hmem readAheadState 0 0 [1] rfl
  obtain ⟨t, ht, -, -, hcores⟩ := hwrite (by decide) hbmWriteRefusal_readAheadState
  obtain rfl := Host.Outcome.next.inj (hostMemWrite_readAheadState.symm.trans ht)
  exact early_hbmWrite_readAheadState (congrArg (List.map CoreSt.early) hcores)

end Sys2Proof.Machine
end

section
/-! Retirement of words in flight (spec/04 R87, spec/08 R173, R175, spec/09 R239, spec/13 R308): what rings, counters and signals leave
of a core, and the completion of a word whose writes are made. -/

namespace Sys2Proof.Machine

/-! ### What a change of one record leaves of it -/

/-- What a change of cores leaves of each core stands as before. -/
theorem State.core_modCore_proj {α : Type} (g : CoreSt → α) {f : CoreSt → CoreSt} (hf : ∀ c, g { f c with id := c.id } = g c) (s : State)
    (id i : CoreId) : g ((s.modCore id f).core i) = g (s.core i) := by
  unfold State.core
  rw [State.core?_modCore]
  cases s.core? i with
  | none => rfl
  | some c =>
    simp only [Option.map_some, Option.getD_some]
    split
    · exact hf c
    · rfl

/-- What a change of contexts leaves of each context stands as before. -/
theorem State.ctx_modCtx_proj {α : Type} (g : Ctx → α) {f : Ctx → Ctx} (hf : ∀ x, g { f x with asid := x.asid } = g x) (s : State)
    (a i : Nat) : g ((s.modCtx a f).ctx i) = g (s.ctx i) := by
  unfold State.ctx
  rw [State.ctx?_modCtx]
  cases s.ctx? i with
  | none => rfl
  | some x =>
    simp only [Option.map_some, Option.getD_some]
    split
    · exact hf x
    · rfl

/-! ### The data that rings, counters and queues leave -/

/-- A core whose data, words in flight and unseen accesses are those of another. -/
structure CoreSt.SameData (c d : CoreSt) : Prop where
  reg     : d.reg = c.reg
  scratch : d.scratch = c.scratch
  flights : d.flights = c.flights
  early   : d.early = c.early
  fits    : d.fits = c.fits

theorem CoreSt.SameData.trans {c d e : CoreSt} (h : c.SameData d) (k : d.SameData e) : c.SameData e :=
  ⟨k.reg.trans h.reg, k.scratch.trans h.scratch, k.flights.trans h.flights, k.early.trans h.early, k.fits.trans h.fits⟩

theorem CoreSt.SameData.setQueue (c : CoreSt) (q : Queue) (e : EQueue) : c.SameData (c.setQueue q e) :=
  ⟨c.setQueue_reg q e, c.setQueue_scratch q e, c.setQueue_flights q e, c.setQueue_early q e, c.setQueue_fits q e⟩

/-- A machine whose memory beyond the cores, and whose core `id` with its data, are those of another, and on which nothing more turns on
what is visible. -/
structure State.SameData (s t : State) (id : CoreId) : Prop where
  hbm     : t.hbm = s.hbm
  host    : t.host = s.host
  core    : (s.core id).SameData (t.core id)
  watched : s.watched = false → t.watched = false

section
variable {s t u : State} {id : CoreId}

theorem State.SameData.refl : s.SameData s id := ⟨rfl, rfl, ⟨rfl, rfl, rfl, rfl, rfl⟩, fun h => h⟩

theorem State.SameData.trans (h : s.SameData t id) (k : t.SameData u id) : s.SameData u id :=
  ⟨k.hbm.trans h.hbm, k.host.trans h.host, h.core.trans k.core, fun hs => k.watched (h.watched hs)⟩

/-- A change of neither cores nor memories. -/
theorem State.sameData_of_cores (hc : t.cores = s.cores) (hm : t.hbm = s.hbm) (hh : t.host = s.host) : s.SameData t id :=
  ⟨hm, hh, by rw [State.core_of_cores hc]; exact ⟨rfl, rfl, rfl, rfl, rfl⟩, fun h => (watched_cores hc).trans h⟩

/-- A further change that is made only under a condition. -/
theorem State.SameData.thenIf {c : Prop} [Decidable c] (h : s.SameData t id) (k : t.SameData u id) :
    s.SameData (if c then u else t) id := by
  split
  · exact h.trans k
  · exact h

theorem State.SameData.foldl {α : Type} {f : State → α → State} (hf : ∀ v a, State.SameData v (f v a) id) (l : List α) (s : State) :
    s.SameData (l.foldl f s) id := by
  induction l generalizing s with
  | nil => exact .refl
  | cons a l ih => exact (hf s a).trans (ih _)

/-- A change of a core that keeps its data. -/
theorem State.sameData_modCore {f : CoreSt → CoreSt} (hf : ∀ c : CoreSt, c.SameData (f c)) : s.SameData (s.modCore id f) id :=
  ⟨rfl, rfl,
    ⟨State.core_modCore_proj CoreSt.reg (fun c => (hf c).reg) s id id,
      State.core_modCore_proj CoreSt.scratch (fun c => (hf c).scratch) s id id,
      State.core_modCore_proj CoreSt.flights (fun c => (hf c).flights) s id id,
      State.core_modCore_proj CoreSt.early (fun c => (hf c).early) s id id,
      State.core_modCore_proj CoreSt.fits (fun c => (hf c).fits) s id id⟩,
    fun h => watched_modCore h id fun c => ⟨(hf c).early, (hf c).fits⟩⟩

theorem State.sameData_modCtx (a : Nat) (f : Ctx → Ctx) : s.SameData (s.modCtx a f) id :=
  State.sameData_of_cores rfl rfl rfl

theorem State.sameData_modDie (d : Nat) (f : Die → Die) : s.SameData (s.modDie d f) id :=
  State.sameData_of_cores rfl rfl rfl

theorem State.sameData_makeRunnable (asid src : Nat) (r : TaskRec) (home : Option Nat) (rels : List Rel) :
    s.SameData (s.makeRunnable asid src r home rels) id := by
  unfold State.makeRunnable
  dsimp only
  split
  · exact State.sameData_modDie ..
  · exact State.sameData_of_cores rfl rfl rfl

/-- An increment changes counters, and the records that wait for them. -/
theorem State.sameData_increment (k n : Nat) (rels : List Rel) : s.SameData (s.increment id k n rels) id := by
  unfold State.increment
  refine (State.sameData_modCore ?_).trans (.foldl (fun _ _ => State.sameData_makeRunnable ..) _ _)
  exact fun c => ⟨rfl, rfl, rfl, rfl, rfl⟩

theorem State.sameData_pubRing (r : Nat) : s.SameData (s.pubRing id r) id :=
  State.sameData_modCore fun c => by dsimp only; split <;> exact ⟨rfl, rfl, rfl, rfl, rfl⟩

theorem State.sameData_popped (ps : List (Nat × Nat)) : s.SameData (s.popped id ps) id := by
  refine .foldl (fun t r => ?_) ps s
  have hmoved (v : Desc) : t.SameData (t.modCore id (fun c => { c with rg := vset c.rg r.1 v })) id :=
    State.sameData_modCore fun c => ⟨rfl, rfl, rfl, rfl, rfl⟩
  dsimp only
  split
  · exact .refl
  · exact (hmoved _).thenIf (State.sameData_increment ..)

theorem State.sameData_pubRings {α : Type} (g : α → Nat) (l : List α) : s.SameData (l.foldl (fun s r => s.pubRing id (g r)) s) id :=
  .foldl (fun _ _ => State.sameData_pubRing _) l s

/-- The completion of a word moves rings, its result and its signal. -/
theorem State.sameData_completed (f : Flight) : s.SameData (s.completed id f) id := by
  unfold State.completed
  have hrings := (State.sameData_pubRings (s := s) (id := id) Prod.fst f.pubs).trans (State.sameData_popped f.pops)
  have hresult : s.SameData (match f.result with
      | some v => ((f.pubs.foldl (fun s r => s.pubRing id r.1) s).popped id f.pops).modCore id
          (fun c => c.setQueue f.q { c.queue f.q with fifo := (c.queue f.q).fifo ++ [(v, f.win, [])] })
      | none => (f.pubs.foldl (fun s r => s.pubRing id r.1) s).popped id f.pops) id := by
    split
    · exact hrings.trans (State.sameData_modCore fun c => .setQueue ..)
    · exact hrings
  have hlineage := hresult.trans (State.sameData_modCtx id.asid fun x => { x with
    lineage := x.lineage ++ f.lineage.map (fun r => (id.l, f.win, r)) })
  dsimp only
  split
  · split
    · exact hlineage
    · exact hlineage.trans (State.sameData_increment ..)
  · exact hlineage

end

/-! ### Completion and retirement -/

section
open Laws

variable {s : State} {id : CoreId}

/-- With no window open nothing is recorded, and an increment needs no room for input entries. -/
theorem inputRoom_noWindow (h : NoWindow s id) (n who : Nat) : s.inputRoom id n who = .done s := by
  have hrec : s.records id = false := by simp [State.records, WinSt.openWin, h.win]
  simp [State.inputRoom, hrec]

theorem noWindow_modCtx (h : NoWindow s id) (a : Nat) (f : Ctx → Ctx) : NoWindow (s.modCtx a f) id := ⟨h.core, h.win, h.replay⟩

/-- Popping rings after publishing others completes, when nothing that the pops launch is armed. -/
theorem popRings_pubRings (h : NoWindow s id) {pubs pops : List (Nat × Nat)} {signals : Bool} (hfree : (s.core id).LaunchFree pops signals) :
    let t := pubs.foldl (fun s r => s.pubRing id r.1) s
    t.popRings id pops = .done (t.popped id pops) ∧ NoWindow (t.popped id pops) id ∧
      (signals = true → ((t.popped id pops).core id).waiting = []) := by
  obtain ⟨ht, hwaiting, hd0⟩ := NoWindow.pubRings id pubs s h
  have hpops : PopsFree (pubs.foldl (fun s r => s.pubRing id r.1) s) id pops :=
    hfree.imp hwaiting.trans fun hf r hr => by rw [hd0]; exact hf.2 r hr
  obtain ⟨hpop, hwin, hkept⟩ := NoWindow.popRings id pops _ ht hpops
  refine ⟨hpop, hwin, fun hs => hkept (hwaiting.trans ?_)⟩
  exact hfree.resolve_right fun hf => by rw [hs] at hf; exact nomatch hf.1

/-- A signal on a core where nothing is armed is made at once. -/
theorem incrementRec_unarmed (h : NoWindow s id) (hw : (s.core id).waiting = []) {k n : Nat} :
    s.incrementRec id k n = .done (s.increment id k n) :=
  incrementRec_done h (launchRoom_unarmed hw k n)

/-- A completion with no window open, where nothing turns on what is visible and nothing that it launches is armed. -/
theorem signalFlight_done (h : NoWindow s id) (hw : s.watched = false) {f : Flight} (hfree : (s.core id).LaunchFree f.pops f.sig.isSome) :
    s.signalFlight id f = .done (s.completed id f) := by
  obtain ⟨hpop, hwin, harmed⟩ := popRings_pubRings h (pubs := f.pubs) hfree
  have hrels : s.retireRels id f = [] := by simp [State.retireRels, hw]
  simp only [State.signalFlight, State.completed, hrels, hpop]
  cases hsig : f.sig with
  | none => rfl
  | some n =>
    have hwaiting := harmed (by rw [hsig]; rfl)
    dsimp only
    split
    · rfl
    · refine incrementRec_unarmed (noWindow_modCtx ?_ ..) ?_
      · cases f.result with
        | none => exact hwin
        | some v => exact hwin.modCore _ (fun c => c.setQueue_win ..) fun c => c.setQueue_replay ..
      · cases f.result with
        | none => exact hwaiting
        | some v => exact (hwin.waiting_modCore _ fun c => c.setQueue_waiting ..).trans hwaiting

/-- With the edge queue of its die empty a word completes. -/
theorem completeFlight_done (h : NoWindow s id) (hw : s.watched = false) (hedge : (s.die (s.dieOf id)).edge = []) {f : Flight}
    (hfree : (s.core id).LaunchFree f.pops f.sig.isSome) : s.completeFlight id f = .done (s.completed id f) := by
  have hrelease : s.releaseEdges id f = .done s := by simp [State.releaseEdges, hedge, State.edgeWhere]
  have hunwatched := (State.sameData_completed (s := s) (id := id) f).watched hw
  simp only [State.completeFlight, hrelease, inputRoom_noWindow h, signalFlight_done h hw hfree, hunwatched, Bool.false_eq_true, if_false]

theorem CoreSt.countEvs_flights (c : CoreSt) (es : List Nat) : (c.countEvs es).flights = c.flights ∧ (c.countEvs es).id = c.id := by
  induction es generalizing c with
  | nil => exact ⟨rfl, rfl⟩
  | cons e es ih => exact ih _

theorem CoreSt.countFlight_flights (c : CoreSt) (f : Flight) : (c.countFlight f).flights = c.flights ∧ (c.countFlight f).id = c.id := by
  unfold CoreSt.countFlight
  dsimp only
  split <;> exact c.countEvs_flights f.evAdd

/-- A word that has been counted and leaves its engine has flown. -/
theorem leave_countFlight (f : Flight) :
    (s.modCore id (fun c => c.countFlight f)).modCore id (fun c => c.leave f) = s.flown id f := by
  rw [modCore_two _ _ _ _ fun c => (c.countFlight_flights f).2]
  simp only [CoreSt.leave, State.flown, (CoreSt.countFlight_flights _ f).1]

/-- A word that can retire does. -/
theorem retireFlight_done {f : Flight} (h : s.Retires id f) :
    s.retireFlight id f = .done (((s.modCtx id.asid (fun x => x.noteUnit id.l f)).completed id f).flown id f) := by
  have hwin : NoWindow s id := ⟨h.core, h.win, h.replay⟩
  have hholds : (s.modCtx id.asid (fun x => x.noteUnit id.l f)).holds id f = false := by
    have hctx := State.ctx_modCtx_proj (fun x => (x.halt, x.held)) (f := fun x => x.noteUnit id.l f) (fun _ => rfl) s id.asid id.asid
    rw [← h.holds]
    simp only [Prod.mk.injEq] at hctx
    simp only [State.holds, hctx, State.core_modCtx]
  have hedge : ((s.modCtx id.asid (fun x => x.noteUnit id.l f)).die ((s.modCtx id.asid (fun x => x.noteUnit id.l f)).dieOf id)).edge = [] := by
    rw [State.dieOf_modCtx s id.asid (f := fun x => x.noteUnit id.l f) fun _ => rfl]; exact h.edge
  simp only [State.retireFlight, h.made, List.isEmpty_nil, if_true, State.settleFlight, h.owes, Bool.false_eq_true, if_false, hholds,
    completeFlight_done (noWindow_modCtx hwin ..) h.watched hedge h.arms, leave_countFlight]

/-- A population word whose pieces are sent has none to send. -/
theorem sendOn_sent {f : Flight} (hsent : ∀ g ∈ (s.core id).flights, g.uid = f.uid → g.pieces = []) (n : Nat) :
    s.sendOn id f.uid n = s := by
  cases n with
  | zero => rfl
  | succ n =>
    unfold State.sendOn
    cases hfind : (s.core id).flights.find? (fun g => g.uid == f.uid) with
    | none => rfl
    | some g =>
      have hpieces := hsent g (List.mem_of_find?_eq_some hfind) (by simpa using List.find?_some hfind)
      simp only [hpieces]
      cases g.send <;> rfl

end

/-- Settles O34: each of the three steps retires the word that it finds, which completes and leaves its engine. -/
theorem wordRetireResult : Obligations.WordRetireResult := by
  intro s id f h
  have hretire := retireFlight_done h
  refine ⟨fun q hq hfirst htime => ?engine, fun k hk hdone => ?copy, fun hfirst hsusp hsent hroom => ?population⟩
  case engine =>
    show execEngineWordRetire id q s = _
    simp only [execEngineWordRetire, hfirst]
    rw [if_pos ⟨hq, h.core, htime⟩, hretire]
    rfl
  case copy =>
    show execCopyWordRetire id k s = _
    have hk' : ((s.core id).flights.filter (fun g => g.q == .eqc))[k]? = some f := hk
    simp only [execCopyWordRetire, hk', h.core, hdone, Bool.and_self, if_true, hretire]
    rfl
  case population =>
    show execPopulationWordRetire id s = _
    have hpieces : (s.core id).flights.any (fun g => g.uid == f.uid && !g.pieces.isEmpty) = false :=
      List.any_eq_false.mpr fun g hg => by
        simp only [Bool.and_eq_true, beq_iff_eq, Bool.not_eq_true', List.isEmpty_eq_false_iff, not_and, not_not]
        exact hsent g hg
    have hwaits : (f.result.isSome && decide ((s.core id).eqp.fifo.length ≥ 16)) = false := by
      cases hr : f.result.isSome with
      | false => rfl
      | true => simpa using hroom hr
    simp only [execPopulationWordRetire, hfirst, h.core, hsusp, sendOn_sent hsent, hpieces, h.holds, hwaits, Bool.not_true, Bool.not_false,
      Bool.true_and, Bool.or_self, Bool.false_eq_true, if_false, hretire]

end Sys2Proof.Machine
end

section
/-! Discarded words, the lease of a JMU, missed promises (spec/04 R85, spec/08 R176 to R178, spec/09 R224). -/

namespace Sys2Proof.Machine

section
open Laws

variable {s t : State} {id : CoreId} {q : Queue} {h : Head}

/-! ### Discarded words -/

/-- Deciding guards touches no memory. -/
theorem decideHeads_memory : (s.decideHeads id).hbm = s.hbm ∧ (s.decideHeads id).host = s.host := by
  unfold State.decideHeads
  split <;> exact ⟨rfl, rfl⟩

/-- Taking the lease of a JMU changes no core and no memory. -/
theorem takeLease_frame (h : s.takeLease id = some t) : t.cores = s.cores ∧ t.hbm = s.hbm ∧ t.host = s.host := by
  unfold State.takeLease at h
  dsimp only at h
  split at h
  · obtain rfl := Option.some.inj h; exact ⟨rfl, rfl, rfl⟩
  · split at h
    · obtain rfl := Option.some.inj h; exact ⟨rfl, rfl, rfl⟩
    · exact nomatch h

/-- The lease that a discard on `eqm` needs, and no other discard does, changes no core and no memory. -/
theorem leased_frame (h : (if q = .eqm then s.takeLease id else some s) = some t) :
    t.cores = s.cores ∧ t.hbm = s.hbm ∧ t.host = s.host := by
  split at h
  · exact takeLease_frame h
  · obtain rfl := Option.some.inj h; exact ⟨rfl, rfl, rfl⟩

theorem State.sameData_modHead (f : Push → Push) : s.SameData (s.modHead id q f) id := State.sameData_modCore fun _ => .setQueue ..

/-- A discard changes rings, counters and queues, and of its data nothing. -/
theorem State.sameData_discarded (claimed : CoreSt) : s.SameData (s.discarded id q h claimed) id := by
  unfold State.discarded
  dsimp only
  have hclaimed : s.SameData (s.modCore id (fun c => { c with rgp := claimed.rgp })) id :=
    State.sameData_modCore fun c => ⟨rfl, rfl, rfl, rfl, rfl⟩
  have hrings := (hclaimed.trans (State.sameData_pubRings (fun r => r.2.1) ((fieldRings h.pw.word).filter fun r => r.2.2))).trans
    (State.sameData_popped (wordPops h.pw.word))
  have hsignal := hrings.thenIf (c := wbits h.pw.word 17 17 = 1) (State.sameData_increment (wbits h.pw.word 29 18) 1 [])
  refine .thenIf ((hsignal.trans (State.sameData_modHead _)).trans (State.sameData_modCore ?_)) (State.sameData_modDie ..)
  exact fun c => (CoreSt.SameData.setQueue ..).trans (.setQueue ..)

/-- The rings of a word are published and popped when nothing that its pops launch is armed. -/
theorem settleRings_done (hwin : NoWindow s id) {w : CmdWord} {signals : Bool} (hfree : (s.core id).LaunchFree (wordPops w) signals) :
    let t := (((fieldRings w).filter (fun r => r.2.2)).foldl (fun s r => s.pubRing id r.2.1) s).popped id (wordPops w)
    s.settleRings id w = .done t ∧ NoWindow t id ∧ (signals = true → (t.core id).waiting = []) := by
  have hpops := popRings_pubRings hwin (pubs := ((fieldRings w).filter (fun r => r.2.2)).map (fun r => (r.2.1, 0))) hfree
  simp only [List.foldl_map] at hpops
  exact hpops

/-- A word is discarded when its claims can be met and nothing that it launches is armed. -/
theorem discard_done (hwin : NoWindow s id) {c' : CoreSt} {es : List (Nat × Nat)}
    (hclaims : (s.core id).claims (fieldRings h.pw.word) = some (c', es))
    (hfree : (s.core id).LaunchFree (wordPops h.pw.word) (wbits h.pw.word 17 17 == 1)) :
    s.discard id q h = .done (s.discarded id q h c') := by
  have hclaimed : NoWindow (s.modCore id (fun c => { c with rgp := c'.rgp })) id := hwin.modCore _ (fun _ => rfl) fun _ => rfl
  have hfree' : ((s.modCore id (fun c => { c with rgp := c'.rgp })).core id).LaunchFree (wordPops h.pw.word) (wbits h.pw.word 17 17 == 1) := by
    rw [State.core_modCore_self _ hwin.core]; exact hfree
  obtain ⟨hrings, hsettled, hwaiting⟩ := settleRings_done hclaimed hfree'
  simp only [State.discard, State.discarded, inputRoom_noWindow hwin, hclaims, hrings]
  by_cases hsig : wbits h.pw.word 17 17 = 1
  · simp only [hsig, if_true, incrementRec_unarmed hsettled (hwaiting (by simp [hsig]))]
  · simp only [hsig, if_false]

/-- The word that a discard finds. -/
theorem discardHead_some (hhead : (s.core id).headOf q = some h) (hon : s.engineOn id = true) (hstall : s.stallMet id q h.pw.word = true)
    (hguard : (s.core id).decision h = some false) (hclaims : ((s.core id).claims (fieldRings h.pw.word)).isSome = true)
    (hlease : (if q = .eqm then s.takeLease id else some s) = some t) : s.discardHead id q = some (h, t) := by
  simp only [State.discardHead, hhead, hon, hstall, hguard, hclaims, beq_self_eq_true, Bool.and_self, if_true]
  split at hlease
  · simp only [*, if_true, Option.map_some]
  · obtain rfl := Option.some.inj hlease
    simp only [*, if_false]

theorem execDiscardWord_done {u : State} (hfound : (s.decideHeads id).discardHead id q = some (h, t)) (hdone : t.discard id q h = .done u) :
    exec (.discardWord id q) s = .next u := by
  show execDiscardWord id q s = _
  simp only [execDiscardWord, hfound, hdone, Try.state_done]

/-! ### The lease of a JMU -/

/-- A run that is over, or whose slot is stuck while another waits, ends: the lease passes to the next slot that waits, and the slot goes
on when none does. -/
theorem runOver_ends {bench k : Nat} {others : List Nat} (hholder : (s.benchLease bench).holder = some k)
    (hbusy : (s.benchLease bench).busy ≤ s.cycle) (hothers : (s.slotsFrom bench (k + 1)).filter (fun j => j != k) = others)
    (hover : (s.benchLease bench).spent s.cycle = true ∨ s.slotWaits (s.benchCores bench) k = false ∨
      others ≠ [] ∧ ((s.benchCores bench).filter (fun id => s.slotOf id == k)).all s.headStuck = true) :
    (∀ j js, others = j :: js → s.runOver bench = some ((s.benchLease bench).begin_ j s.cycle)) ∧
    (others = [] → s.runOver bench = some { (s.benchLease bench).begin_ k s.cycle with
      holder := if s.slotWaits (s.benchCores bench) k then some k else none }) := by
  have hends : (decide (s.cycle ≥ (s.benchLease bench).busy) && ((s.benchLease bench).spent s.cycle ||
      !s.slotWaits (s.benchCores bench) k ||
      (((s.benchCores bench).filter (fun id => s.slotOf id == k)).all s.headStuck && !others.isEmpty))) = true := by
    rw [Bool.and_eq_true, decide_eq_true_eq]
    refine ⟨hbusy, ?_⟩
    rcases hover with hspent | hidle | ⟨hne, hstuck⟩
    · simp only [hspent, Bool.true_or]
    · simp only [hidle, Bool.not_false, Bool.or_true, Bool.true_or]
    · simp only [hstuck, List.isEmpty_eq_false_iff.mpr hne, Bool.not_false, Bool.and_self, Bool.or_true]
  unfold State.runOver
  simp only [hholder, hothers, hends, if_true]
  refine ⟨fun j js h => by rw [h], fun h => ?_⟩
  rw [h]
  cases s.slotWaits (s.benchCores bench) k <;> rfl

theorem execJmuRunEnd_some {bench : Nat} {l : Lease} (h : s.runOver bench = some l) :
    exec (.jmuRunEnd bench) s = .next (s.setLease bench l) := by
  show execJmuRunEnd bench s = _
  simp only [execJmuRunEnd, h]

end

/-- Settles O35: a discard by its rings, its signal and its frame; the end of a run by whether another slot waits; a promise directly. -/
theorem discardLeasePromise : Obligations.DiscardLeasePromise := by
  refine ⟨?discarded, ?lease, ?promise⟩
  case discarded =>
    intro s s1 id q h c' es s0 c hcore hhead hon hstall hguard hclaims hlease hunc hreplay hfree
    obtain ⟨hcores, hhbm, hhost⟩ := leased_frame hlease
    have hsame : s1.core id = c := State.core_of_cores hcores id
    have hwin : Laws.NoWindow s1 id := by
      refine ⟨?_, hsame ▸ hunc, hsame ▸ hreplay⟩
      rw [← hcore]; simp only [State.hasCore, State.core?, hcores]
    have hdata : s0.SameData (s1.discarded id q h c') id :=
      (State.sameData_of_cores hcores hhbm hhost).trans (State.sameData_discarded c')
    obtain ⟨hdecideHbm, hdecideHost⟩ := decideHeads_memory (s := s) (id := id)
    have hfound := discardHead_some hhead hon hstall hguard (by rw [hclaims]; rfl) hlease
    exact ⟨execDiscardWord_done hfound (discard_done hwin (hsame ▸ hclaims) (hsame ▸ hfree)), hdata.hbm.trans hdecideHbm,
      hdata.host.trans hdecideHost, hdata.core.reg, hdata.core.scratch, hdata.core.flights⟩
  case lease =>
    intro s bench k ids l others hholder hbusy hover
    obtain ⟨hanother, hnone⟩ := runOver_ends hholder hbusy rfl hover
    exact ⟨fun j js hothers => execJmuRunEnd_some (hanother j js hothers), fun hothers => execJmuRunEnd_some (hnone hothers)⟩
  case promise =>
    intro s id rseq revised p hcore hpush hrevised
    show execPromiseMissed id rseq revised s = _
    have hlate : ¬ revised.toNat < s.pcc (s.dieOf id) + 1 := Nat.not_lt.mpr hrevised
    simp only [execPromiseMissed, hpush, hcore, hlate, Bool.not_true, decide_false, Bool.or_self, Bool.false_eq_true, if_false]

end Sys2Proof.Machine
end

section
/-! Waits that end, handler entries and pending traps at a boundary, the halt line (spec/04 R86, spec/09 R231, spec/15 R352, R353, R357). -/

namespace Sys2Proof.Machine

section
variable {s t u : State} {id : CoreId} {va : Word} {w : Parcel}

/-! ### Dies touched -/

/-- A context without its touched-dies bits. -/
def Ctx.untouched (x : Ctx) : Ctx := { x with tdm := 0 }

/-- A machine that has set touched-dies bits, as its cores, its dies and its clock see it. -/
structure State.Touched (s t : State) : Prop where
  cores : t.cores = s.cores
  dies  : t.dies = s.dies
  msgs  : t.msgs = s.msgs
  dbg   : t.dbg = s.dbg
  cycle : t.cycle = s.cycle
  cur   : t.cur = s.cur
  ctx   : ∀ a, (t.ctx a).untouched = (s.ctx a).untouched

theorem State.Touched.refl : s.Touched s := ⟨rfl, rfl, rfl, rfl, rfl, rfl, fun _ => rfl⟩

/-- A die that answers is touched, and nothing more. -/
theorem touch_answers {d : Nat} (h : s.answers d = true) (asid : Nat) : s.Touched (s.touch asid d) := by
  unfold State.touch
  dsimp only
  split
  · exact .refl
  · rw [if_neg (by rw [Bool.not_eq_true, Bool.not_eq_false']; exact h)]
    refine ⟨rfl, rfl, rfl, rfl, rfl, rfl, fun a => State.ctx_modCtx_proj Ctx.untouched ?_ s asid a⟩
    exact fun _ => rfl

theorem State.Touched.core (h : s.Touched t) (i : CoreId) : t.core i = s.core i := State.core_of_cores h.cores i
theorem State.Touched.hasCore (h : s.Touched t) (i : CoreId) : t.hasCore i = s.hasCore i := by simp [State.hasCore, State.core?, h.cores]

theorem State.Touched.dieOf (h : s.Touched t) (i : CoreId) : t.dieOf i = s.dieOf i :=
  (congrArg (fun x : Ctx => x.dieOf i.l) (h.ctx i.asid) :)

theorem State.Touched.pcc (h : s.Touched t) (d : Nat) : t.pcc d = s.pcc d := by simp only [State.pcc, State.die, h.cycle, h.dies]

/-- Touched dies turn no condition bit. -/
theorem State.Touched.cbits (h : s.Touched t) (i : CoreId) : t.cbits i = s.cbits i := by
  have hbench : (t.ctx i.asid).benchOf i.l = (s.ctx i.asid).benchOf i.l := (congrArg (fun x : Ctx => x.benchOf i.l) (h.ctx i.asid) :)
  have hqueue (d q : Nat) : (t.ctx i.asid).sq d q = (s.ctx i.asid).sq d q := (congrArg (fun x : Ctx => x.sq d q) (h.ctx i.asid) :)
  have hbit : t.cbit i = s.cbit i := by
    funext n
    simp only [State.cbit, State.portFlight, h.core, h.dieOf, hbench, hqueue, h.msgs]
    rfl
  simp only [State.cbits, hbit]

/-! ### Fetches -/

/-- A machine that differs from another in its cores, its contexts and its debug block alone. -/
def State.SameUnits (s t : State) : Prop := t = { s with cores := t.cores, ctxs := t.ctxs, dbg := t.dbg }

theorem State.SameUnits.trans (h : s.SameUnits t) (k : t.SameUnits u) : s.SameUnits u := by
  unfold State.SameUnits at *
  rw [k, h]

theorem State.SameUnits.foldl {α : Type} {f : State → α → State} (hf : ∀ v a, State.SameUnits v (f v a)) (l : List α) (s : State) :
    s.SameUnits (l.foldl f s) := by
  induction l generalizing s with
  | nil => rfl
  | cons a l ih => exact (hf s a).trans (ih _)

theorem dbgStop_sameUnits (asid why l : Nat) : s.SameUnits (s.dbgStop asid why l) := by
  unfold State.dbgStop
  dsimp only
  split
  · rfl
  · split
    · rfl
    · split <;> rfl

theorem raiseHalt_sameUnits (asid cause l : Nat) : s.SameUnits (s.raiseHalt asid cause l) := by
  unfold State.raiseHalt
  dsimp only
  split
  · exact dbgStop_sameUnits ..
  · split
    · split <;> rfl
    · split
      · rfl
      · split
        · rfl
        · split
          · split <;> rfl
          · rfl

theorem pendTrap_sameUnits (i : TrapInfo) : s.SameUnits (s.pendTrap id i) := by
  unfold State.pendTrap
  split
  · exact raiseHalt_sameUnits ..
  · rfl

theorem touch_sameUnits (asid d : Nat) : s.SameUnits (s.touch asid d) := by
  unfold State.touch
  dsimp only
  split
  · rfl
  · split
    · exact State.SameUnits.trans (t := s.modCtx asid _) rfl (.foldl (fun _ _ => pendTrap_sameUnits _) _ _)
    · rfl

/-- A fetch goes to memory, never into a scratchpad (spec/02 R57). -/
theorem resolve_fetch {rt : Bool} {n : Nat} {p : Place} (h : s.resolve id rt va n .fetch = .ok p) (l a : Nat) : p ≠ .scratch l a := by
  rintro rfl
  unfold State.resolve at h
  dsimp only at h
  split at h
  · exact nomatch h
  · split at h
    · exact nomatch h
    · unfold State.translate at h
      dsimp only at h
      repeat' split at h
      all_goals exact nomatch h

/-- Core `id` finds the parcel `w` at `va`: it has fetched it before, or it reads it from memory that answers. -/
def State.FindsParcel (s : State) (id : CoreId) (va : Word) (w : Parcel) : Prop :=
  let c := s.core id
  (∃ e, c.ibuf.find? (fun p => p.1 == va && (c.runtime || !p.2.1)) = some e ∧ e.2.2 = w) ∨
  c.ibuf.find? (fun p => p.1 == va && (c.runtime || !p.2.1)) = none ∧
    ∃ p, s.resolve id c.runtime va 4 .fetch = .ok p ∧ s.placeRefusal id.asid p 4 = 0 ∧
      BitVec.ofNat 32 (leNat (s.placeBytes id p 4)) = w

/-- What a fetch reads in device memory is no other after a die was touched. -/
theorem hbm_touch (asid d : Nat) :
    (s.touch asid d).mgmt = s.mgmt ∧
    (∀ a sl pa, (s.touch asid d).placeRefusal a (.hbm sl pa) 4 = s.placeRefusal a (.hbm sl pa) 4) ∧
    (∀ sl pa, (s.touch asid d).placeBytes id (.hbm sl pa) 4 = s.placeBytes id (.hbm sl pa) 4) := by
  rw [show s.touch asid d = _ from touch_sameUnits asid d]
  exact ⟨rfl, fun _ _ _ => rfl, fun _ _ => rfl⟩

/-- The stack of a place in device memory that nothing refuses answers. -/
theorem answers_of_placeRefusal {asid sl pa n : Nat} (h : s.placeRefusal asid (.hbm sl pa) n = 0) : s.answers (s.stackOf pa) = true := by
  simp only [State.placeRefusal, State.hbmRefusal] at h
  split at h
  · exact nomatch h
  · split at h
    · exact nomatch h
    · rename_i hanswers
      simp only [Bool.or_eq_true, Bool.not_eq_true', not_or, Bool.not_eq_false] at hanswers
      exact hanswers.1

/-- A core that finds a parcel fetches it, and touches the die that it comes from. -/
theorem fetch_of_finds (hd : s.mgmt.injected = []) (h : s.FindsParcel id va w) : ∃ t, s.Touched t ∧ s.fetch id va = (t, .ok w) := by
  unfold State.fetch
  dsimp only
  rcases h with ⟨e, hfind, rfl⟩ | ⟨hfind, p, hresolve, hserved, rfl⟩
  · simp only [hfind]
    exact ⟨s, .refl, rfl⟩
  · simp only [hfind, walkMet_none hd, Bool.false_eq_true, if_false, hresolve]
    cases p with
    | scratch l a => exact absurd rfl (resolve_fetch hresolve l a)
    | hbm sl pa =>
      obtain ⟨hmgmt, hrefusal, hbytes⟩ := hbm_touch (s := s) (id := id) id.asid (s.stackOf pa)
      have hd' : (s.touch id.asid (s.stackOf pa)).mgmt.injected = [] := by rw [hmgmt]; exact hd
      simp only [State.servedBy, hrefusal, hbytes, hserved, ne_eq, not_true_eq_false, if_false, damageAt_none hd', State.consume, Bool.false_eq_true]
      exact ⟨_, touch_answers (answers_of_placeRefusal hserved) _, rfl⟩
    | reg | hostBulk | hostCoh | dev =>
      simp only [State.servedBy, hserved, ne_eq, not_true_eq_false, if_false, damageAt_none hd, State.consume, Bool.false_eq_true]
      exact ⟨s, .refl, rfl⟩

/-- A parcel that is fetched is found. -/
theorem finds_of_fetch (hd : s.mgmt.injected = []) (h : (s.fetch id va).2 = .ok w) : s.FindsParcel id va w := by
  unfold State.fetch at h
  dsimp only at h
  cases hfind : (s.core id).ibuf.find? (fun p => p.1 == va && ((s.core id).runtime || !p.2.1)) with
  | some e =>
    simp only [hfind] at h
    exact .inl ⟨e, hfind, Except.ok.inj h⟩
  | none =>
    simp only [hfind, walkMet_none hd, Bool.false_eq_true, if_false] at h
    cases hresolve : s.resolve id (s.core id).runtime va 4 .fetch with
    | error code => simp only [hresolve] at h; exact nomatch h
    | ok p =>
      simp only [hresolve] at h
      refine .inr ⟨hfind, p, hresolve, ?_⟩
      cases p with
      | scratch l a => exact absurd rfl (resolve_fetch hresolve l a)
      | hbm sl pa =>
        obtain ⟨hmgmt, hrefusal, hbytes⟩ := hbm_touch (s := s) (id := id) id.asid (s.stackOf pa)
        have hd' : (s.touch id.asid (s.stackOf pa)).mgmt.injected = [] := by rw [hmgmt]; exact hd
        simp only [State.servedBy, hrefusal, hbytes, damageAt_none hd', State.consume, Bool.false_eq_true, if_false] at h
        split at h
        · exact nomatch h
        · exact ⟨of_not_not ‹_›, Except.ok.inj h⟩
      | reg | hostBulk | hostCoh | dev =>
        simp only [State.servedBy, damageAt_none hd, State.consume, Bool.false_eq_true, if_false] at h
        split at h
        · exact nomatch h
        · exact ⟨of_not_not ‹_›, Except.ok.inj h⟩

/-! ### The instruction that a core stands at -/

/-- The machine in which core `id` takes its action. -/
def State.asCore (s : State) (id : CoreId) : State := { s with cur := id, note := .none }

theorem gangOf_alone (h : (s.core id).gang = none) : s.gangOf id = [id] := by simp only [State.gangOf, h]

theorem leading_alone (h : (s.core id).gang = none) : ({ s with cur := id } : State).leading = s.asCore id := by
  have hleader : ({ s with cur := id } : State).leader id = id := by
    rw [State.leader, gangOf_alone (s := { s with cur := id }) h]; rfl
  rw [State.leading, hleader]
  rfl

/-- A core in no gang stands at the instruction `i`: nothing comes before it at the core's boundary, and its parcel is fetched. -/
structure State.Stands (s : State) (id : CoreId) (i : Instr) : Prop where
  runs  : s.mayRun id = true
  due   : (s.core id).due = none
  pfx   : (s.core id).pfx = none
  pend  : (s.core id).pendReady = false
  input : (s.core id).awaited 3 = false
  break_ : s.breakStop id = none
  parcel : ∃ w, (s.fetch id (s.core id).pc).2 = .ok w ∧ decodeParcel w = .ok i

theorem stands_of_standsAt {i : Instr} (hgang : (s.core id).gang = none) (h : s.standsAt id = some i) : s.Stands id i := by
  unfold State.standsAt at h
  simp only [State.leader, gangOf_alone hgang, List.all_cons, List.all_nil, List.any_cons, List.any_nil, Bool.and_true, Bool.or_false] at h
  split at h
  · exact nomatch h
  · rename_i hfree
    simp only [Bool.or_eq_true, not_or, Bool.not_eq_true, Bool.not_eq_false', Option.isSome_eq_false_iff, Option.isNone_iff_eq_none] at hfree
    obtain ⟨⟨⟨⟨-, hruns⟩, hdue⟩, hpfx⟩, ⟨hpend, hinput⟩, hbreak⟩ := hfree
    refine ⟨hruns, hdue, hpfx, hpend, hinput, hbreak, ?_⟩
    split at h
    · rename_i w hfetch
      cases hdecode : decodeParcel w with
      | ok j => rw [hdecode] at h; exact ⟨w, hfetch, hdecode.trans (congrArg Except.ok (Option.some.inj h))⟩
      | error e => rw [hdecode] at h; exact nomatch h
    · exact nomatch h

/-- A core that stands at another instruction than `wrewind` is not rewinding: it may run. -/
theorem rewinding_of_stands {i : Instr} (h : s.Stands id i) (hi : ∀ r, i ≠ .wrewind r) : (s.core id).rewinding = none := by
  obtain ⟨w, hfetch, hdecode⟩ := h.parcel
  have hrewinds : s.rewinds id = false := by
    simp only [State.rewinds, hfetch, hdecode]
    split
    · rename_i hr; exact absurd (Except.ok.inj hr) (hi _)
    · rfl
  have hruns := h.runs
  unfold State.mayRun at hruns
  unfold State.core
  cases hc : s.core? id with
  | none => rfl
  | some c =>
    cases hx : s.ctx? id.asid with
    | none => rw [hc, hx] at hruns; exact nomatch hruns
    | some x =>
      simp only [hc, hx, hrewinds, Bool.and_eq_true, Bool.or_false] at hruns
      exact Option.isNone_iff_eq_none.mp hruns.1.1.2

theorem mayRun_asCore (hrewind : (s.core id).rewinding = none) (h : s.mayRun id = true) : (s.asCore id).mayRun id = true := by
  unfold State.mayRun at h ⊢
  have hcore : (s.asCore id).core? id = s.core? id := rfl
  have hctx : (s.asCore id).ctx? id.asid = s.ctx? id.asid := rfl
  rw [hcore, hctx]
  unfold State.core at hrewind
  cases hc : s.core? id with
  | none => rw [hc] at h; exact nomatch h
  | some c =>
    cases hx : s.ctx? id.asid with
    | none => rw [hc, hx] at h; exact nomatch h
    | some x =>
      simp only [hc, Option.getD_some] at hrewind
      simp only [hc, hx, hrewind, Option.isNone_none, Bool.true_or] at h ⊢
      exact h

section
variable {i : Instr} (hquiet : ({ s with cur := id } : State).Quiet) (hgang : (s.core id).gang = none) (hstands : s.Stands id i)
  (hi : ∀ r, i ≠ .wrewind r)
include hquiet hgang hstands hi

/-- Nothing stands before the instruction of a core that stands at it. -/
theorem acts_of_stands : (s.asCore id).Acts := by
  have halone : (s.asCore id).gangOf id = [id] := gangOf_alone (s := s.asCore id) hgang
  have hrewind := rewinding_of_stands hstands hi
  have hbreak : (s.asCore id).breakStop id = none := by
    have := hstands.break_
    unfold State.breakStop at this ⊢
    dsimp only at this ⊢
    split at this
    · exact nomatch this
    · exact if_neg ‹_›
  have only {p : CoreId → Prop} (h : p id) : ∀ m ∈ (s.asCore id).gangOf id, p m := by
    rw [halone]; exact List.forall_mem_singleton.mpr h
  exact {
    core := hquiet.core
    runs := by
      rw [show (s.asCore id).cur = id from rfl, halone, List.all_cons, List.all_nil, Bool.and_true]
      exact mayRun_asCore hrewind hstands.runs
    rewind := hrewind
    due := hstands.due
    pend := only hstands.pend
    input := only hstands.input
    replay := fun r hr => absurd (hquiet.replay.symm.trans hr) nofun
    breaks := only hbreak }

/-- The event of a core is its instruction in the state after its fetch, followed by what a step adds to it. -/
theorem asEvent_stands (run : Instr → State → Host.Outcome State Fault Refusal) :
    ∃ t, (s.asCore id).Touched t ∧
      s.asEvent id run = thenNext (fun u => { u.waitsOn.afterRun [id] with cur := s.cur }) (run i t) := by
  obtain ⟨w, hfetch, hdecode⟩ := hstands.parcel
  have hfinds : (s.asCore id).FindsParcel id (s.core id).pc w := finds_of_fetch (s := s) hquiet.damage hfetch
  obtain ⟨t, ht, hfetched⟩ := fetch_of_finds (s := s.asCore id) hquiet.damage hfinds
  have hlead := leading_alone hgang
  have hacts : ({ s with cur := id } : State).leading.Acts := hlead ▸ acts_of_stands hquiet hgang hstands hi
  have hcore : t.core id = s.core id := ht.core id
  have halone : (s.asCore id).gangOf id = [id] := gangOf_alone (s := s.asCore id) hgang
  have hexec : (s.asCore id).execute run = run i t := by
    have hmatch : ∀ m ∈ t.gangOf id, (t.core m).mismatched i = none := by
      rw [gangOf_alone (hcore ▸ hgang)]
      refine List.forall_mem_singleton.mpr ?_
      have hreplay : (t.core id).replay = none := hcore ▸ hquiet.replay
      unfold CoreSt.mismatched
      split
      · rfl
      · rfl
      · rw [hreplay]; rfl
    have hacc : (s.core id).accepts i = true := by simp only [CoreSt.accepts, hstands.pfx]
    rw [execute_runs (s := s.asCore id) run hfetched hdecode hacc hmatch, if_neg]
    show ¬(s.core id).gang.isSome = true
    rw [hgang]
    exact Bool.false_ne_true
  refine ⟨t, ht, ?_⟩
  unfold State.asEvent
  rw [coreRun_acts hacts, hlead, thenNext_thenNext, hexec, show (s.asCore id).cur = id from rfl, halone]

end

/-! ### The end of an event -/

/-- An event whose instruction retires and moves past its parcel: its core has done so, and the machine's current core stays. -/
theorem retired_event (ht : (s.asCore id).Touched t) (hc : s.hasCore id = true) (hatt : s.attached id.asid = false)
    (hstep : (s.core id).stepping = false) :
    let u : State := { (t.retiring CoreSt.after).waitsOn.afterRun [id] with cur := s.cur }
    u.cur = s.cur ∧ (u.core id).x = (s.core id).x ∧ (u.core id).pc = (s.core id).pc + 4 := by
  have hcur : t.cur = id := ht.cur
  have hcore : (t.retiring CoreSt.after).core id = (s.core id).after := by
    have hself := State.core_modCore_eq (s := t) (id := id) (f := CoreSt.after) ((ht.hasCore id).trans hc) (State.core_id t id)
    rw [ht.core id] at hself
    exact (congrArg (fun i => (t.modCore i CoreSt.after).core id) hcur).trans hself
  have hwaits : (t.retiring CoreSt.after).waitsOn = t.retiring CoreSt.after := rfl
  have hdone : (t.retiring CoreSt.after).stepDone id = t.retiring CoreSt.after := by
    have hstep' : ((t.retiring CoreSt.after).core id).stepping = false := by rw [hcore]; exact hstep
    unfold State.stepDone
    simp only [hstep', Bool.not_false, if_true]
  have hatt' : (t.retiring CoreSt.after).attached id.asid = false := by
    rw [← hatt]; exact congrArg (fun g : DbgBlk => g.en && g.asid == id.asid) ht.dbg
  have hafter : (t.retiring CoreSt.after).afterRun [id] = t.retiring CoreSt.after := by
    simp only [State.afterRun, List.foldl_cons, List.foldl_nil, List.headD_cons, hdone, State.settleStep, hatt', Bool.false_and,
      Bool.false_eq_true, if_false]
  simp only [hwaits, hafter]
  have hx : ({ t.retiring CoreSt.after with cur := s.cur } : State).core id = (s.core id).after := hcore
  rw [hx]
  exact ⟨trivial, rfl, rfl⟩

/-- An instruction that only waits, once what it waits for is there. -/
theorem runScalar_passes {m : M Unit} {parcel : Parcel} (hc : t.hasCore t.cur = true)
    (h : m t = .ok ((), t.modCore t.cur (fun c => { c with pc := c.pc + 4 }))) :
    runScalar parcel m t = .next (t.retiring CoreSt.after) := by
  rw [runScalar_ok hc h, retire_advance_only]

/-- A `wfcy` whose tick has come retires (spec/04 R86). -/
theorem execWfcy_passes {rs1 : Reg} (hc : t.hasCore t.cur = true) (htick : ((t.core t.cur).rx rs1).toNat ≤ t.pcc (t.dieOf t.cur)) :
    execWfcy rs1 t = .next (t.retiring CoreSt.after) := by
  refine runScalar_passes hc ?_
  rw [M.bind_rxM, M.bind_get, if_neg (Nat.not_lt.mpr htick)]
  exact M.advance_apply t

/-- A `wfc` one of whose bits is 1 retires (spec/09 R231). -/
theorem execWfc_passes {rs1 : Reg} (hc : t.hasCore t.cur = true) (hunc : (t.core t.cur).win.unc = none)
    (hreplay : (t.core t.cur).replay = none) (hbits : t.cbits t.cur &&& (t.core t.cur).rx rs1 ≠ 0) :
    execWfc rs1 t = .next (t.retiring CoreSt.after) := by
  refine runScalar_passes hc ?_
  have hmask : (t.core t.cur).rx rs1 ≠ 0 := fun h => hbits (by rw [h]; exact BitVec.and_zero)
  have hinput : inputM 0x04 (t.cbits t.cur) t = .ok (t.cbits t.cur, t) := by
    have hrecord : recordM 0x04 (t.cbits t.cur) t = .ok ((), t) := by
      simp [recordM, tryM, State.recordInput, WinSt.openWin, hunc]
    unfold inputM
    rw [M.bind_get]
    simp only [hreplay, Option.isSome_none, Bool.false_eq_true, if_false]
    rw [M.bind_ok hrecord]
    rfl
  rw [M.bind_rxM, if_pos hmask]
  simp only [M.bind_get, M.bind_me, hreplay, Option.isNone_none, true_and, hbits, if_false, M.bind_ok hinput]
  exact M.advance_apply t

/-- A core that stands at an instruction which retires where the fetch leaves the machine completes it as an event. -/
theorem asEvent_retires {i : Instr} (hquiet : ({ s with cur := id } : State).Quiet) (hatt : s.attached id.asid = false)
    (hstep : (s.core id).stepping = false) (hgang : (s.core id).gang = none) (hat : s.standsAt id = some i) (hi : ∀ r, i ≠ .wrewind r)
    {run : Instr → State → Host.Outcome State Fault Refusal}
    (hrun : ∀ t, (s.asCore id).Touched t → t.cur = id → t.hasCore t.cur = true → run i t = .next (t.retiring CoreSt.after)) :
    ∃ u, s.asEvent id run = .next u ∧ u.cur = s.cur ∧ (u.core id).x = (s.core id).x ∧ (u.core id).pc = (s.core id).pc + 4 := by
  have hcore : s.hasCore id = true := hquiet.core
  obtain ⟨t, ht, hevent⟩ := asEvent_stands hquiet hgang (stands_of_standsAt hgang hat) hi run
  have hcur : t.cur = id := ht.cur
  rw [hrun t ht hcur (hcur.symm ▸ (ht.hasCore id).trans hcore)] at hevent
  exact ⟨_, hevent, retired_event ht hcore hatt hstep⟩

end

/-- Settles O36: the two waits through the event of their core, the others by their conditions. -/
theorem boundarySteps : Obligations.BoundarySteps := by
  refine ⟨?waits, ?due, ?pending, ?halt⟩
  case waits =>
    intro s id rs1 hquiet hatt hstep hgang
    refine ⟨fun hat htick => ?wfcy, fun hat hbits => ?wfc⟩
    case wfcy =>
      show ∃ t, execWfcyExpiry id s = .next t ∧ _
      simp only [execWfcyExpiry, hat, Nat.not_lt.mpr htick, if_false]
      refine asEvent_retires hquiet hatt hstep hgang hat nofun fun t ht hcur hc => execWfcy_passes hc ?_
      rw [hcur, ht.core id, ht.dieOf id, ht.pcc]
      exact htick
    case wfc =>
      show ∃ t, execWfcWake id s = .next t ∧ _
      simp only [execWfcWake, hat, hbits, if_false]
      refine asEvent_retires hquiet hatt hstep hgang hat nofun fun t ht hcur hc => execWfc_passes hc ?_ ?_ ?_
      all_goals rw [hcur, ht.core id]
      · exact hquiet.win
      · exact hquiet.replay
      · rw [ht.cbits id]; exact hbits
  case due =>
    intro s id d hruns hdue s0
    have hmade : exec (.trapEntry id) s = .next ((s0.makeDue id).afterRun [id]) := by
      show execTrapEntry id s = _
      simp only [execTrapEntry, hruns, hdue, Option.isSome_some, Bool.and_self, if_true]
      rfl
    have hdue' : (s0.core id).due = some d := hdue
    rw [hmade]
    refine ⟨fun hwaits => ?_, fun hwaits => ?_⟩
    all_goals simp only [State.makeDue, hdue', hwaits, Bool.false_eq_true, if_false, if_true]
  case pending =>
    intro s id t ts hruns hready hrewind hreplay hpend
    have htaken : exec (.takePendingTrap id) s = .next ((s.takePending id).afterRun [id]) := by
      show execTakePendingTrap id s = _
      simp only [execTakePendingTrap, hruns, hready, hrewind, Option.isNone_none, Bool.and_self, if_true]
    rw [htaken]
    refine ⟨fun hwaits => ?_, fun hwaits => ?_⟩
    all_goals
      simp only [State.takePending, hpend, hreplay, hwaits, Option.isNone_none, Option.isSome_none, Bool.and_false, Bool.and_self,
        Bool.false_eq_true, if_false, if_true]
  case halt =>
    intro s asid x h hx hhalt hreached hruns hrewind
    show execHalt asid s = _
    have hstop : (h.cause == 0 && x.run != .running) = false := by
      rcases hruns with hcause | hrun
      · rw [beq_false_of_ne hcause, Bool.false_and]
      · rw [hrun]; exact Bool.and_false _
    have hrewinds : x.ids.any (fun id => (s.core id).rewinding.isSome) = false :=
      List.any_eq_false.mpr fun id hid => by rw [hrewind id hid]; exact Bool.false_ne_true
    simp only [execHalt, hx, hhalt, hreached, hstop, hrewinds, Bool.or_self, Bool.false_eq_true, if_false]

end Sys2Proof.Machine
end

section
/-! Ring instructions and `shape` (spec/04 R96, R99, spec/05 R113 to R115, spec/11 R262). -/

namespace Sys2Proof.Machine

section
variable {s : State}

/-! ### Waiting and releasing -/

/-- A scalar meaning that waits before it has changed anything. -/
theorem runScalar_waits {i : Instr} {m : M Unit} (hc : s.hasCore s.cur = true) (h : m s = .error (.wait s)) :
    runScalar (parcelOf i) m s = s.waits := by
  simp [runScalar, hc, h, State.waits]

/-- A release of a core with nothing on its way carries nothing. -/
theorem releaseFor_quiet (h : s.Still) (sc : Scope) : releaseFor sc s = .ok ([], s) := by
  rw [releaseFor, M.bind_ok (release_quiet h sc), M.bind_get, releaseOf_unwatched h.watched]
  rfl

/-! ### Rings (R113 to R115) -/

section
variable {rg : BitVec 4} {rs1 rs2 : Reg}

/-- A valid or all-zero descriptor for a ring that no queued word names. -/
theorem exec_ringset (hc : s.hasCore s.cur = true) (hfree : (s.core s.cur).namesRing rg.toNat = false)
    (hvalid : (⟨(s.core s.cur).rx rs1, (s.core s.cur).rx rs2⟩ : Desc) = ⟨0, 0⟩ ∨ ((s.core s.cur).rx rs1 ≠ 0 ∧
      (⟨(s.core s.cur).rx rs1, (s.core s.cur).rx rs2⟩ : Desc).ringReason (s.ctx s.cur.asid).par.fp = 0)) :
    exec (.ringset rg rs1 rs2) s =
      .next (s.retiring (fun x => (x.setRing rg.toNat ⟨(s.core s.cur).rx rs1, (s.core s.cur).rx rs2⟩).after)) := by
  refine (runScalar_ok hc ?_).trans (congrArg _ (retire_advance s (fun x => x.setRing rg.toNat _) fun _ => rfl))
  simp only [M.bind_me, M.bind_myCtx, hfree, Bool.false_eq_true, if_false]
  rcases hvalid with hzero | ⟨hd0, hreason⟩
  · obtain ⟨hd0, hd1⟩ := Desc.mk.inj hzero
    simp only [hd0, hd1, ne_eq, not_true, if_false, if_true]
    rfl
  · simp only [hd0, hreason, ne_eq, not_true, if_false]
    rfl

section
variable (hset : (vget (s.core s.cur).rg rg.toNat Desc.zero).unset = false)
include hset

theorem exec_ringadv (hq : s.Still) :
    let d := vget (s.core s.cur).rg rg.toNat Desc.zero
    let n := (s.core s.cur).rx rs1
    (n.toNat ≤ d.count - d.occ → exec (.ringadv rg rs1) s = .next (s.retiring (fun x =>
      ({ x with rg := vset x.rg rg.toNat (d.setPtrs d.head (d.tail + n.toNat) d.hslot) }).after))) ∧
    (d.count - d.occ < n.toNat → exec (.ringadv rg rs1) s = s.traps (.ringadv rg rs1) 0x10 0) := by
  refine ⟨fun hfits => ?_, fun hover => ?_⟩
  · refine (runScalar_ok hq.core ?_).trans (congrArg _ (retire_advance s (fun x => { x with
      rg := vset x.rg rg.toNat (Desc.setPtrs _ _ _ _) }) fun _ => rfl))
    simp only [M.bind_rxM, M.bind_me, hset, Bool.false_eq_true, if_false, gt_iff_lt, Nat.not_lt.mpr hfits,
      M.bind_ok (release_quiet hq _)]
    rfl
  · refine runScalar_traps hq.core ?_
    simp only [M.bind_rxM, M.bind_me, hset, Bool.false_eq_true, if_false, gt_iff_lt, hover, if_true]
    rfl

variable (hread : (vget (s.core s.cur).rgp rg.toNat ⟨0, 0⟩).rd.toNat = (vget (s.core s.cur).rg rg.toNat Desc.zero).head)
include hread

theorem exec_ringrel_underflow (hc : s.hasCore s.cur = true)
    (hover : (vget (s.core s.cur).rg rg.toNat Desc.zero).occ < ((s.core s.cur).rx rs1).toNat) :
    exec (.ringrel rg rs1) s = s.traps (.ringrel rg rs1) 0x11 0 := by
  refine runScalar_traps hc ?_
  simp only [M.bind_rxM, M.bind_me, M.bind_myId, hset, Bool.false_eq_true, if_false, hread, ne_eq, not_true, gt_iff_lt, hover, if_true]
  rfl

variable (hfits : ((s.core s.cur).rx rs1).toNat ≤ (vget (s.core s.cur).rg rg.toNat Desc.zero).occ)
include hfits

theorem exec_ringrel_waits (hc : s.hasCore s.cur = true) (hcount : bit (vget (s.core s.cur).rg rg.toNat Desc.zero).d0 52 = true)
    (hn : (s.core s.cur).rx rs1 ≠ 0)
    (hroom : s.launchRoom s.cur (bits (vget (s.core s.cur).rg rg.toNat Desc.zero).d0 51 40) ((s.core s.cur).rx rs1).toNat = false) :
    exec (.ringrel rg rs1) s = s.waits := by
  refine runScalar_waits hc ?_
  simp only [M.bind_rxM, M.bind_me, M.bind_myId, hset, Bool.false_eq_true, if_false, hread, ne_eq, not_true, gt_iff_lt,
    Nat.not_lt.mpr hfits, hcount, hn, not_false_eq_true, and_self, if_true, M.bind_get, hroom, Bool.not_false]
  rfl

/-- Consumed entries are released, and counted when the ring says so and there is room for what the count launches. -/
theorem exec_ringrel (hq : s.Still) :
    let d := vget (s.core s.cur).rg rg.toNat Desc.zero
    let p := vget (s.core s.cur).rgp rg.toNat ⟨0, 0⟩
    let n := (s.core s.cur).rx rs1
    let s1 := s.modCore s.cur (fun x => { x with
      rg := vset x.rg rg.toNat (d.setPtrs (d.head + n.toNat) d.tail ((d.hslot + n.toNat) % d.count))
      rgp := vset x.rgp rg.toNat { p with rd := BitVec.ofNat 16 (d.head + n.toNat) } })
    (bit d.d0 52 = true → n ≠ 0 → s.launchRoom s.cur (bits d.d0 51 40) n.toNat = true) →
    exec (.ringrel rg rs1) s = .next ((if bit d.d0 52 = true ∧ n ≠ 0 then s1.increment s.cur (bits d.d0 51 40) n.toNat else s1).retiring
      CoreSt.after) := by
  intro d p n s1 hroom
  refine (runScalar_ok hq.core ?_).trans (congrArg _ (retire_advance_only _))
  simp only [M.bind_rxM, M.bind_me, M.bind_myId, hset, Bool.false_eq_true, if_false, hread, ne_eq, not_true, gt_iff_lt,
    Nat.not_lt.mpr hfits]
  by_cases hcount : bit d.d0 52 = true ∧ n ≠ 0
  · obtain ⟨hbit, hn⟩ := hcount
    simp only [d, n] at hbit hn hroom
    simp only [hbit, hn, not_false_eq_true, and_self, if_true, M.bind_get, hroom hbit hn, Bool.not_true, Bool.false_eq_true, if_false,
      M.bind_ok (releaseFor_quiet hq _), M.bind_modMe, M.bind_updM, d, n]
    rfl
  · simp only [d, n] at hcount
    simp only [hcount, if_false, M.bind_ok (releaseFor_quiet hq _), M.bind_modMe, d, n]
    rfl

end

end

/-! ### Shape records (R99) -/

section
variable {rs1 : Reg} {a : Nat} (hq : s.Quiet) (ha : ((s.core s.cur).rx rs1).toNat % 2 ^ 20 = a) (hplace : a + 64 ≤ 0xC0000)
  (hown : s.OwnOk a 64)
include hq ha hplace hown

/-- A record passes its checks, or the first that fails traps. -/
theorem exec_shape : let r := ShapeRec.ofBytes (s.peek (.scratch s.cur.l a) 64)
    (r.early = 0 → r.tooBig = false → a % 64 = 0 →
      exec (.shape rs1) s = .next ((s.reach s.cur.asid (.scratch s.cur.l a) 64).retiring CoreSt.after)) ∧
    (r.early ≠ 0 → exec (.shape rs1) s = s.traps (.shape rs1) 0x0B (word (r.early * 256))) ∧
    (r.early = 0 → r.tooBig = true → exec (.shape rs1) s = s.traps (.shape rs1) 0x0B (word 0x800)) ∧
    (r.early = 0 → r.tooBig = false → a % 64 ≠ 0 → exec (.shape rs1) s = s.traps (.shape rs1) 0x0B (word 0x900)) := by
  intro r
  refine ⟨fun hearly hbig halign => (runScalar_ok hq.core ?passes).trans (congrArg _ (retire_advance_only _)),
    fun hearly => runScalar_traps hq.core ?early, fun hearly hbig => runScalar_traps hq.core ?big,
    fun hearly hbig halign => runScalar_traps hq.core ?misaligned⟩
  all_goals
    simp only [r] at *
    simp only [M.bind_rxM, ha, M.bind_myCtx, gt_iff_lt, Nat.not_lt.mpr hplace, Nat.not_lt.mpr hown.fits, if_false,
      M.bind_ok (ownRead_quiet hq hown)]
  case passes =>
    simp only [hearly, hbig, halign, ne_eq, not_true, Bool.false_eq_true, if_false]
    rfl
  case early =>
    simp only [hearly, ne_eq, not_false_eq_true, if_true]
    rfl
  case big =>
    simp only [hearly, hbig, ne_eq, not_true, if_false, if_true]
    rfl
  case misaligned =>
    simp only [hearly, hbig, halign, ne_eq, not_true, not_false_eq_true, Bool.false_eq_true, if_false, if_true]
    rfl

end

end

/-- Settles O28: each ring instruction by its checks, `shape` by the first check of its record that fails. -/
theorem ringShapeResult : Obligations.RingShapeResult := by
  refine ⟨fun s rg rs1 rs2 hq => ?rings, fun s rs1 hq => ?shape⟩
  case shape =>
    intro a r hplace hown
    exact exec_shape hq rfl hplace hown
  case rings =>
    intro c n nd d p
    refine ⟨fun hfree hvalid => exec_ringset hq.core hfree hvalid, fun hset hfits => (exec_ringadv hset hq.toStill).1 hfits,
      fun hset hread hfits => exec_ringrel hset hread hfits hq.toStill,
      fun hset hread hfits hcount hn => exec_ringrel_waits hset hread hfits hq.core hcount hn,
      fun hset hover => (exec_ringadv hset hq.toStill).2 hover, fun hset hread hover => exec_ringrel_underflow hset hread hq.core hover⟩

end Sys2Proof.Machine
end

section
/-! Messages and result FIFOs (spec/05 R117 to R123, spec/09 R228). -/

namespace Sys2Proof.Machine

section
variable {s : State}

/-! ### A place that is reached -/

theorem State.Touched.trans {t u : State} (h : s.Touched t) (k : t.Touched u) : s.Touched u :=
  ⟨k.cores.trans h.cores, k.dies.trans h.dies, k.msgs.trans h.msgs, k.dbg.trans h.dbg, k.cycle.trans h.cycle, k.cur.trans h.cur,
    fun a => (k.ctx a).trans (h.ctx a)⟩

/-- Reaching a place whose die answers sets touched-dies bits and asks the banks. -/
theorem reach_touched {asid n : Nat} {p : Place} (hl : ∀ d, s.servedBy asid p = some d → s.answers d = true) :
    s.Touched (s.reach asid p n) := by
  unfold State.reach
  simp only [Bool.false_eq_true, if_false]
  obtain ⟨q, hq⟩ := askPlace_bankq s asid (scalarAsker s.cur.l p) s.cur.l 0 p n
  rw [hq]
  have hasked : s.Touched { s with bankq := q } := ⟨rfl, rfl, rfl, rfl, rfl, rfl, fun _ => rfl⟩
  split
  · next d hd => exact hasked.trans (touch_answers (s := { s with bankq := q }) (hl d hd) asid)
  · exact hasked

theorem still_reach {n : Nat} {p : Place} (h : s.Still) (ho : s.Open p n) : (s.reach s.cur.asid p n).Still := by
  have hdie := reach_die n false ho.die s.cur
  have hspill : ((s.reach s.cur.asid p n).ctx s.cur.asid).spillIn = [] :=
    (congrArg Ctx.spillIn ((reach_touched ho.die).ctx s.cur.asid) :).trans h.spill
  obtain ⟨cs, q, hreach⟩ := reach_ctxs n false ho.die
  rw [hreach] at hdie hspill ⊢
  exact ⟨⟨h.core, h.win, h.wp, h.damage, h.poison, hspill, h.replay⟩, h.sb, by rw [hdie]; exact h.edge, by rw [hdie]; exact h.shadow, h.watched,
    by rw [hdie]; exact h.posted, h.amo, h.busq, h.rqout⟩

/-! ### Sending (R117 to R119) -/

/-- A message target that passes the checks of R118. -/
structure MsgTargetOk (t : Word) (n cores fp : Nat) : Prop where
  reserved : bits t 63 61 = 0
  counter  : bit t 60 = false → bits t 59 48 = 0
  inbox    : bit t 24 = false → bits t 47 28 = 0
  place    : bit t 24 = true → bits t 27 25 = 0 ∧ bits t 30 28 = 0 ∧ bits t 47 28 + n ≤ fp
  dst      : bits t 23 0 < cores

/-- What `msend` makes of its core: a request that carries a store number and is outstanding, and its message at the end of the
outbound queue. -/
def CoreSt.sending (y : CoreSt) (m : Msg) : CoreSt :=
  { y with
    reqSeq := y.reqSeq + 1, storeSeq := y.storeSeq + 1, rqout := y.rqout + 1, sentNo := y.sentNo + 1
    outq := y.outq ++ [m] }

/-- A message takes its core's next request and store numbers. -/
theorem send_numbers (hc : s.hasCore s.cur = true) (m : Nat → Nat → Msg) :
    (do
      let rq ← takeRq
      let seq ← takeSeq
      modMe (fun y => { y with rqout := y.rqout + 1, sentNo := y.sentNo + 1, outq := y.outq ++ [m rq seq] })
      advance : M Unit) s =
    .ok ((), (s.modCore s.cur (fun y => y.sending (m (s.core s.cur).reqSeq.toNat (s.core s.cur).storeSeq.toNat))).modCore s.cur
      (fun c => { c with pc := c.pc + 4 })) := by
  simp only [M.bind_takeRq, M.bind_takeSeq, M.bind_modMe, M.advance_apply, State.modCore_cur]
  have hid : (s.core s.cur).id = s.cur := State.core_id s s.cur
  rw [modCore_two s _ _ _ (by intro c; rfl), modCore_two s _ _ _ (by intro c; rfl), State.core_modCore_eq hc hid]
  rfl

/-- `msend` of a valid target, from an own-scratchpad payload, with room in the outbound queue and at its port. -/
theorem exec_msend {rs1 rs2 : Reg} {len : BitVec 3} (hq : s.Quiet) {t : Word} {a n dst : Nat} (ht : (s.core s.cur).rx rs1 = t)
    (ha : ((s.core s.cur).rx rs2).toNat = a) (hn : (len.toNat + 1) * 8 = n) (hdst : bits t 23 0 = dst)
    (hok : MsgTargetOk t n (s.ctx s.cur.asid).n (s.ctx s.cur.asid).par.fp) (halign : a % 8 = 0) (hown : s.OwnOk a n)
    (hroom : (s.core s.cur).outq.length < 8)
    (hport : ∀ p, (s.ctx s.cur.asid).portTo s.cur.l dst = some p → s.portFlight s.cur p < 2) :
    exec (.msend rs1 rs2 len) s = .next ((s.reach s.cur.asid (.scratch s.cur.l a) n).retiring (fun y => (y.sending
      ⟨s.cur.asid, s.cur.l, s.cur.l, t, s.peek (.scratch s.cur.l a) n, none, (s.core s.cur).storeSeq.toNat,
        (s.ctx s.cur.asid).portTo s.cur.l dst, (s.core s.cur).sentNo, (s.core s.cur).reqSeq.toNat, []⟩).after)) := by
  obtain ⟨hreserved, hcounter, hinbox, hplace, hlt⟩ := hok
  refine (runScalar_ok hq.core ?_).trans (congrArg _ (retire_advance _ (CoreSt.sending · _) fun _ => rfl))
  have hform : ¬(bits t 63 61 ≠ 0 ∨ (!bit t 60 ∧ bits t 59 48 ≠ 0) ∨ (!bit t 24 ∧ bits t 47 28 ≠ 0) ∨ (bit t 24 ∧ bits t 27 25 ≠ 0)) := by
    simp only [not_or, not_and, not_not, Bool.not_eq_true']
    exact ⟨hreserved, hcounter, hinbox, fun h => (hplace h).1⟩
  have hfits : ¬(bit t 24 ∧ (bits t 30 28 ≠ 0 ∨ bits t 47 28 + n > (s.ctx s.cur.asid).par.fp)) := by
    simp only [not_or, not_and, not_not, gt_iff_lt, Nat.not_lt]
    exact fun h => (hplace h).2
  simp only [M.bind_rxM, M.bind_myCtx, M.bind_myId, ht, ha, hn, hdst, if_neg hform, if_neg hfits, ge_iff_le, hdst ▸ Nat.not_le.mpr hlt, if_false,
    M.bind_ok (aligned_ok (ha ▸ halign) s), gt_iff_lt, Nat.not_lt.mpr hown.fits, M.bind_ok (watch_quiet hq.toStill _ _ _), M.bind_get,
    M.bind_me, Nat.not_le.mpr hroom]
  have hstill := still_reach hq.toStill hown.open_
  obtain ⟨-, hcur, hcores⟩ := reach_frame (n := n) hown.open_.die
  cases hp : (s.ctx s.cur.asid).portTo s.cur.l dst
  case' some p => simp only [Nat.not_le.mpr (hport p hp), if_false]
  all_goals
    simp only [M.bind_ok (rqRoom_quiet hq.toStill), M.bind_ok (ownRead_quiet hq hown), M.bind_ok (releaseFor_quiet hstill _),
      openWin_quiet hq.toStill]
    refine (send_numbers hstill.core _).trans ?_
    simp only [hcur, State.core_of_cores hcores]

/-! ### Taking from an inbox (R123) -/

theorem pickMsg_empty (hreplay : (s.core s.cur).replay = none) {ib : Nat} (h : (s.core s.cur).inbox.getD ib [] = []) :
    pickMsg ib s = .ok (none, s) := by
  simp only [pickMsg, M.bind_me, hreplay, Option.isNone_none, if_true, h]
  rfl

theorem pickMsg_oldest (hreplay : (s.core s.cur).replay = none) {ib : Nat} {m : Msg} {ms : List Msg}
    (h : (s.core s.cur).inbox.getD ib [] = m :: ms) : pickMsg ib s = .ok (some (m, ms), s) := by
  simp only [pickMsg, M.bind_me, hreplay, Option.isNone_none, if_true, h]
  rfl

/-- Without poison anywhere no write leaves a part of a poisoned unit. -/
theorem coverM_unpoisoned (h : s.poison = []) (p : Place) (n : Nat) (va : Word) : coverM p n va s = .ok ((), s) := by
  have hleft : s.poisonLeft s.cur p n = false := by
    unfold State.poisonLeft
    split
    · simp [h]
    · rfl
  simp only [coverM, hleft, Bool.false_eq_true, if_false]

section
variable {rd rs1 : Reg} {ib : BitVec 3} {a : Nat} (hq : s.Quiet) (ha : ((s.core s.cur).rx rs1).toNat = a) (halign : a % 8 = 0)
  (hfits : a + 64 ≤ (s.ctx s.cur.asid).par.fp)
include hq ha halign hfits

theorem exec_mpop_empty (h : (s.core s.cur).inbox.getD ib.toNat [] = []) :
    exec (.mpop rd ib rs1) s = .next (s.retiring (fun y => (({ y with storeSeq := y.storeSeq + 1 } : CoreSt).wx rd 0).after)) := by
  refine (runScalar_ok hq.core ?_).trans (congrArg _ (retire_after (fun y => { y with storeSeq := y.storeSeq + 1 }) (fun _ => rfl) rd 0))
  simp only [M.bind_rxM, M.bind_myCtx, M.bind_myId, ha, M.bind_ok (aligned_ok (ha ▸ halign) s), gt_iff_lt, Nat.not_lt.mpr hfits, if_false,
    M.bind_ok (pickMsg_empty hq.replay h)]
  rfl

/-- The oldest message leaves its inbox, and its payload is stored. -/
theorem exec_mpop_oldest {m : Msg} {ms : List Msg} (h : (s.core s.cur).inbox.getD ib.toNat [] = m :: ms) :
    exec (.mpop rd ib rs1) s =
      .next (((s.storing (.scratch s.cur.l a) m.payload).askPlace s.cur.asid 4 s.cur.l 0 (.scratch s.cur.l a) m.payload.length).retiring
        (fun y => (({ y with storeSeq := y.storeSeq + 1, inbox := y.inbox.set ib.toNat ms } : CoreSt).wx rd
          (word (m.srcLcn * 256 + m.payload.length))).after)) := by
  refine (runScalar_ok hq.core ?_).trans (congrArg _ (retire_after
    (fun y => { y with storeSeq := y.storeSeq + 1, inbox := y.inbox.set ib.toNat ms }) (fun _ => rfl) rd _))
  obtain ⟨hunwatched, hcur⟩ := storing_frame (p := .scratch s.cur.l a) rfl hq.watched m.payload
  have hstore : tryM (fun t => t.perform s.cur none (s.core s.cur).storeSeq.toNat (.scratch s.cur.l a) m.payload false .block true) s =
      .ok ((), s.storing (.scratch s.cur.l a) m.payload) := by
    simp only [tryM, perform_plain (p := .scratch s.cur.l a) rfl]
  have hasked : ((s.storing (.scratch s.cur.l a) m.payload).askPlace s.cur.asid 4 s.cur.l 0 (.scratch s.cur.l a)
      m.payload.length).watched = false ∧ ((s.storing (.scratch s.cur.l a) m.payload).askPlace s.cur.asid 4 s.cur.l 0
      (.scratch s.cur.l a) m.payload.length).cur = s.cur := ⟨hunwatched, hcur⟩
  simp only [M.bind_rxM, M.bind_myCtx, M.bind_myId, ha, M.bind_ok (aligned_ok (ha ▸ halign) s), gt_iff_lt, Nat.not_lt.mpr hfits, if_false,
    M.bind_ok (pickMsg_oldest hq.replay h), M.bind_ok (watch_quiet hq.toStill _ _ _), M.bind_ok (drainM_quiet hq.toStill),
    M.bind_ok (coverM_unpoisoned hq.poison _ _ _), M.bind_get, M.bind_me, M.bind_ok (reserveM_quiet hq.toStill _ _),
    M.bind_ok (inputM_quiet hq.toStill _ _), M.bind_ok (demandM_quiet hq.toStill _ _), openWin_quiet hq.toStill, M.bind_ok hstore,
    M.bind_updM]
  generalize State.askPlace _ _ _ _ _ _ _ = u at hasked ⊢
  obtain ⟨hunwatched, hcur⟩ := hasked
  have hnumbered : (u.modCore u.cur (fun y => { y with storeSeq := y.storeSeq + 1, inbox := y.inbox.set ib.toNat ms })).watched = false :=
    watched_modCore hunwatched _ fun _ => ⟨rfl, rfl⟩
  simp only [markStore_unwatched hunwatched, M.bind_takeSeq, M.bind_modMe, State.modCore_cur]
  rw [modCore_two u _ _ _ (by intro c; rfl), M.bind_ok (acquireOf_unwatched hnumbered _ _)]
  rfl

end

/-! ### Result FIFOs (R228) -/

section
variable {rd : Reg} {q : Queue}

/-- An element is removed, and what it carries acquired, before it is written. -/
theorem popFifo_writes (hq : s.Still) (e : Word) :
    (do
      modMe (fun c => c.popFifo q)
      acquireOf .sys ((s.core s.cur).fifoRels q)
      wxM rd e
      advance : M Unit) s =
    .ok ((), ((s.modCore s.cur (fun c => c.popFifo q)).modCore s.cur (fun c => c.wx rd e)).modCore s.cur (fun c => { c with pc := c.pc + 4 })) := by
  have hpopped : (s.modCore s.cur (fun c => c.popFifo q)).watched = false :=
    watched_modCore hq.watched _ fun c => ⟨c.setQueue_early q _, c.setQueue_fits q _⟩
  rw [M.bind_modMe, M.bind_ok (acquireOf_unwatched hpopped _ _)]
  rfl

theorem exec_epop (hq : s.Still) : (∀ e, (s.core s.cur).fifoHead q = some e →
      exec (.epop rd q) s = .next (s.retiring (fun y => ((y.popFifo q).wx rd e).after))) ∧
    ((s.core s.cur).fifoHead q = none → exec (.epop rd q) s = s.waits) := by
  refine ⟨fun e hhead => ?_, fun hhead => ?_⟩
  · refine (runScalar_ok hq.core ?_).trans (congrArg _ (retire_after (fun y => y.popFifo q) (fun c => c.setQueue_id q _) rd e))
    simp only [M.bind_me, hhead]
    exact popFifo_writes hq e
  · refine runScalar_waits hq.core ?_
    simp only [M.bind_me, hhead]
    rfl

theorem exec_epopnb (hq : s.Still) : (∀ e, (s.core s.cur).fifoHead q = some e →
      exec (.epopnb rd q) s = .next (s.retiring (fun y => ((y.popFifo q).wx rd e).after))) ∧
    ((s.core s.cur).fifoHead q = none → exec (.epopnb rd q) s = .next (s.retiring (fun y => (y.wx rd 0).after))) := by
  refine ⟨fun e hhead => ?_, fun hhead => ?_⟩
  · refine (runScalar_ok hq.core ?_).trans (congrArg _ (retire_after (fun y => y.popFifo q) (fun c => c.setQueue_id q _) rd e))
    simp only [M.bind_me, hq.replay, Option.isNone_none, if_true, hhead, Option.isSome_some, Option.isNone_some, Bool.and_false,
      Bool.false_eq_true, if_false, Option.getD_some, M.bind_ok (inputM_quiet hq _ _)]
    exact popFifo_writes hq e
  · refine (runScalar_ok hq.core ?_).trans (congrArg _ (retire_advance s (fun y => y.wx rd 0) fun c => c.wx_id rd 0))
    simp only [M.bind_me, hq.replay, Option.isNone_none, if_true, hhead, Option.isSome_none, Bool.false_and,
      Bool.false_eq_true, if_false, Option.getD_none, M.bind_ok (inputM_quiet hq _ _)]
    rfl

end

end

/-- Settles O19: `msend` by its checks, `mpop` by whether its inbox holds a message, `epop` and `epopnb` by whether their FIFO holds an
element. -/
theorem messageFifoResult : Obligations.MessageFifoResult := by
  refine ⟨fun s rs1 rs2 len hq => ?msend, fun s rd rs1 ib hq => ?mpop, fun s rd q hq => ?fifo⟩
  case msend =>
    intro c x t a n dst hreserved hcounter hinbox hplace hdst halign hown hroom hport
    exact exec_msend hq rfl rfl rfl rfl ⟨hreserved, hcounter, hinbox, hplace, hdst⟩ halign hown hroom hport
  case mpop =>
    intro c a halign hfits
    exact ⟨fun hempty => exec_mpop_empty hq rfl halign hfits hempty, fun m ms hbox => exec_mpop_oldest hq rfl halign hfits hbox⟩
  case fifo =>
    obtain ⟨hpop, hwait⟩ := exec_epop (rd := rd) (q := q) hq.toStill
    obtain ⟨hpopnb, hzero⟩ := exec_epopnb (rd := rd) (q := q) hq.toStill
    exact ⟨fun e he => ⟨hpop e he, hpopnb e he⟩, fun he => ⟨hwait he, hzero he⟩⟩

end Sys2Proof.Machine
end

section
/-! Delivery of a message to an inbox (spec/05 R121). `State.modCore` changes every entry of the core list that has a number, each by
what it holds itself. A launch binds a number once (`State.launchReason`, `State.bind`), but a `State` may hold one twice. -/

namespace Sys2Proof.Machine

/-- A message to an inbox that has room, and to no counter, lands there after what its sender sent before it, and is acknowledged. -/
theorem exec_messageDelivery_inbox {s : State} {i : Nat} {m : Msg} (hm : s.msgs[i]? = some m)
    (hord : s.inOrder m.asid m.src m.dst m.ord = true) (hmode : m.toScratch = false) (hctr : bit m.target 60 = false)
    (hroom : ((s.core ⟨m.asid, m.dst⟩).inbox.getD (bits m.target 27 25) []).length < 4) :
    exec (.messageDelivery i) s = .next { (s.landMsg m).ack ⟨m.asid, m.src⟩ with msgs := s.msgs.eraseIdx i } := by
  have hlands : s.msgLands m = true := by simp only [State.msgLands, hmode, Bool.false_eq_true, if_false, hroom, decide_true]
  have hdone : s.deliver m = .done ((s.landMsg m).ack ⟨m.asid, m.src⟩) := by
    simp only [State.deliver, hlands, hmode, hctr, Bool.not_true, Bool.false_and, Bool.false_eq_true, if_false, if_true]
  show execMessageDelivery i s = _
  simp only [execMessageDelivery, hm, hord, hdone, Bool.not_true, Bool.false_eq_true, if_false]

/-- A message of core 1 to inbox 0 of core 0, the sender's message number `ord`. -/
def inboxMsg (ord : Nat) : Msg := ⟨0, 1, 1, 0, [], none, 0, none, ord, 0, []⟩

/-- A machine whose core list holds core 0 twice: the inboxes of the first entry are empty, inbox 0 of the second holds message 0.
Message 1 is in flight. -/
def twinState : State :=
  { State.reset with
    cores := [CoreSt.init ⟨0, 0⟩, { CoreSt.init ⟨0, 0⟩ with inbox := [inboxMsg 0] :: List.replicate 7 [] }]
    msgs := [inboxMsg 1] }

/-- The inboxes of each entry of the core list. -/
def State.inboxes (s : State) : List (List (List Msg)) := s.cores.map CoreSt.inbox

theorem inOrder_twinState : twinState.inOrder 0 1 (inboxMsg 1).dst 1 = true := by decide

/-- Refutes O39: the statement gives every entry of the receiver's number the first entry's inbox with the message at its end, where
the delivery appends to the inbox of each. They differ in a list that holds one number twice (`twinState`), which no hypothesis
excludes. -/
theorem not_deliverySteps : ¬ Obligations.DeliverySteps := by
  unfold Obligations.DeliverySteps
  rintro ⟨hmsg, -⟩
  obtain ⟨-, hinbox⟩ := hmsg twinState twinState 0 (inboxMsg 1) rfl inOrder_twinState
  have hdelivered := exec_messageDelivery_inbox (s := twinState) (i := 0) (m := inboxMsg 1) rfl inOrder_twinState (by decide) (by decide)
    (by decide)
  have hstated := hinbox (by decide) (by decide) (by decide)
  exact absurd (congrArg State.inboxes (Host.Outcome.next.inj (hdelivered.symm.trans hstated))) (by decide)

end Sys2Proof.Machine
end

section
/-! The scratchpad swap, and the spill and restore of a context (spec/05 R105, spec/09 R219, spec/15 R372, R373). -/

namespace Sys2Proof.Machine

section
variable {s : State} {asid : Nat}

/-! ### The units of a block (R105, R372) -/

theorem blockMoved_iff {l b : Nat} : s.blockMoved asid (l, b) = true ↔
    0 < s.moveLen asid (l, b) ∧ s.moveLen asid (l, b) ≤ (s.ctx asid).moved (l, b) ∧
      ∀ a ∈ s.bankq, ¬ (a.asid = asid ∧ a.l = l ∧ a.who = 0 ∧ a.unit / 256 = b) := by
  simp [State.blockMoved, and_assoc]

theorem moveNext_iff {l b : Nat} : s.moveNext asid (l, b) = true ↔
    ((l, b) ∈ (s.ctx asid).wanted ∨ (∀ p ∈ (s.ctx asid).spillIn, p.1 = l → b ≤ p.2) ∧ ∀ p ∈ (s.ctx asid).wanted, p.1 ≠ l) ∧
      ∀ y ∈ s.ctxs, y.run = .banked → y.asid ≠ asid → (s.ctx asid).benchOf l ∈ y.benches → ∀ id ∈ y.ids, (s.core id).flights = [] := by
  simp [State.moveNext, Ctx.nextIn, State.outgoing, imp_iff_not_or, or_assoc]

theorem spillUnits_moves {l b : Nat} (hrun : (s.ctx asid).run = .running) (hmore : (s.ctx asid).moved (l, b) < s.moveLen asid (l, b))
    (hnext : 0 < (s.ctx asid).moved (l, b) ∨ s.moveNext asid (l, b) = true) :
    s.spillUnits asid l b = (s.modCtx asid (fun x => { x with
      spillAt := (l, b, (s.ctx asid).moved (l, b) + 1) :: x.spillAt.filter (fun p => (p.1, p.2.1) != (l, b)) })).askBank asid l 0 0 0
        (b * 4096 + (s.ctx asid).moved (l, b) % 32 * 128) 128 := by
  refine if_neg ?_
  simp only [hrun, bne_self_eq_false, Nat.not_le.mpr hmore, decide_false, Bool.false_or, Bool.and_eq_true, beq_iff_eq, Bool.not_eq_true', not_and,
    Bool.not_eq_false]
  exact fun hzero => hnext.resolve_left (by omega)

theorem spillUnits_rests {l b : Nat} (h : (s.ctx asid).run ≠ .running ∨ s.moveLen asid (l, b) ≤ (s.ctx asid).moved (l, b) ∨
    (s.ctx asid).moved (l, b) = 0 ∧ s.moveNext asid (l, b) = false) : s.spillUnits asid l b = s := by
  refine if_pos ?_
  simpa only [Bool.or_eq_true, bne_iff_ne, decide_eq_true_eq, Bool.and_eq_true, beq_iff_eq, Bool.not_eq_true', or_assoc] using h

/-! ### A block comes in (R372) -/

/-- What one operation leaves, operations for every item of a list leave. -/
theorem State.foldl_proj {α β : Type} (g : State → β) {f : State → α → State} (hf : ∀ t a, g (f t a) = g t) (l : List α) (s : State) :
    g (l.foldl f s) = g s := by
  induction l generalizing s with
  | nil => rfl
  | cons a l ih => exact (ih (f s a)).trans (hf s a)

/-- A block that comes in changes contexts, and the damage of its scratchpad alone. -/
theorem bringIn_frame (b : Nat × Nat) : (s.bringIn asid b).cores = s.cores ∧ (s.bringIn asid b).hbm = s.hbm := by
  unfold State.bringIn
  refine Prod.mk.inj (State.foldl_proj (fun t => (t.cores, t.hbm)) (fun t y => ?_) _ s)
  split
  · split <;> rfl
  · rfl

theorem notMem_spillIn_bringIn (b : Nat × Nat) : b ∉ ((s.bringIn asid b).ctx asid).spillIn := by
  unfold State.bringIn
  generalize List.foldl _ _ _ = t
  show b ∉ ((t.modCtx asid _).ctx asid).spillIn
  unfold State.ctx
  rw [State.ctx?_modCtx]
  cases hx : t.ctx? asid with
  | none => exact List.not_mem_nil
  | some x => simp [State.ctx?_asid hx]

section
variable {out into core block : Nat} {x y : Ctx} (hx : s.ctx? out = some x) (hy : s.ctx? into = some y) (hout : x.run = .banked)
  (hin : y.run = .running) (hcore : core < x.n)
include hx hy hout hin hcore

/-- A swap of a block at a seat of both contexts brings the block in, once its move is complete. -/
theorem exec_scratchpadSwap : exec (.scratchpadSwap out into core block) s =
    (y.lAt (x.seat core).1 (x.seat core).2).elim (.next s) fun k =>
      if s.blockMoved into (k, block) then .next (s.bringIn into (k, block)) else .next s := by
  show execScratchpadSwap out into core block s = _
  simp only [execScratchpadSwap, hx, hy, hout, hin, bne_self_eq_false, ge_iff_le, Nat.not_le.mpr hcore, decide_false, Bool.or_self,
    Bool.false_eq_true, if_false]
  cases y.lAt (x.seat core).1 (x.seat core).2 <;> rfl

end

/-! ### Spill (R373) -/

theorem exec_contextSpill_merges {x : Ctx} (hx : s.ctx? asid = some x) (hrun : x.run = .banked) (hshadow : s.hasShadow x = true) :
    exec (.contextSpill asid) s = .next (State.mergeCtx s x.ids).state := by
  show execContextSpill asid s = _
  simp only [execContextSpill, hx, hrun, hshadow, beq_self_eq_true, Bool.and_self, if_true]

/-- A banked context at rest, with nothing of it in the shadow tables and no halt line. -/
structure State.Spillable (s : State) (asid : Nat) (x : Ctx) : Prop where
  ctx    : s.ctx? asid = some x
  run    : x.run = .banked
  halt   : x.halt = none
  shadow : s.hasShadow x = false
  still  : ∀ id ∈ x.ids, (s.core id).rqout = 0 ∧ (s.core id).flights = [] ∧ (s.core id).sb = [] ∧ (s.core id).late = []

theorem State.Spillable.allStill {x : Ctx} (h : s.Spillable asid x) :
    x.ids.all (fun id => (s.core id).rqout == 0 && (s.core id).flights.isEmpty && (s.core id).sb.isEmpty && (s.core id).late.isEmpty) = true :=
  List.all_eq_true.mpr fun id hid => by
    obtain ⟨hrq, hflights, hsb, hlate⟩ := h.still id hid
    simp [hrq, hflights, hsb, hlate]

/-- A context of the concurrent class stays. -/
theorem exec_contextSpill_stays {x : Ctx} (h : s.Spillable asid x) (hclass : x.par.pclass = 2) : exec (.contextSpill asid) s = .next s := by
  show execContextSpill asid s = _
  simp only [execContextSpill, h.ctx, h.shadow, h.run, hclass, Bool.false_and, Bool.false_eq_true, if_false, decide_true, Bool.or_true,
    Bool.true_or, if_true]

theorem exec_contextSpill {x : Ctx} (h : s.Spillable asid x) (hclass : x.par.pclass ≠ 2)
    (harrived : ∀ t ∈ (s.arriveAll asid).transit, t.asid ≠ asid) :
    exec (.contextSpill asid) s = .next ((x.ids.foldl (fun t id => t.modCore id (fun c => { c with sLines := 0, sRegs := 0 }))
      (s.arriveAll asid)).modCtx asid (fun y => { y with run := .spilled, swapped := y.blocks, spillIn := [] })) := by
  have htransit : (s.arriveAll asid).transit.any (fun t => t.asid == asid) = false :=
    List.any_eq_false.mpr fun t ht => by simpa using harrived t ht
  show execContextSpill asid s = _
  simp only [execContextSpill, h.ctx, h.shadow, h.run, h.halt, h.allStill, hclass, htransit, Bool.false_and, Bool.false_eq_true, if_false,
    decide_false, bne_self_eq_false, Option.isSome_none, Bool.not_true, Bool.or_self]

/-! ### Restore (R373) -/

theorem takeBanks_benches (bs : List Nat) : (s.takeBanks bs).2.map Prod.fst = bs := by
  refine List.ext_getElem (by simp [State.takeBanks]) fun i _ _ => ?_
  simp only [State.takeBanks, List.getElem_map, List.getElem_mapIdx]
  split <;> rfl

theorem graves_takeBanks (bs : List Nat) : ∀ g ∈ (s.takeBanks bs).1.graves, (g.bench, g.bank) ∉ (s.takeBanks bs).2 := by
  intro g hg
  have hkept : (!(s.takeBanks bs).2.contains (g.bench, g.bank)) = true := (List.mem_filter.mp hg).2
  simpa only [Bool.not_eq_true', ← Bool.not_eq_true, List.contains_iff_mem] using hkept

/-- A spilled context goes to the banks of a partition that has room for it. -/
theorem exec_contextRestore {bs : List Nat} {x : Ctx} (hx : s.ctx? asid = some x) (hrun : x.run = .spilled)
    (hpart : s.partitionOk x.benches.length bs = true) (hroom : s.restoreRoom x { x with benches := bs } = true) :
    let y : Ctx := { x with benches := bs }
    let r := (s.rehome x y).takeBanks bs
    let s3 := y.dies.foldl (fun t d => t.touch asid d)
      (r.1.modCtx asid (fun c => { c with benches := bs, banks := r.2, run := .banked }))
    exec (.contextRestore asid bs) s =
      .next ((y.ids.foldl (fun u id => u.injectAt 1 (ownKey id) (y.pcn id.l) 0 0x20000) s3).switchIn s3.ctxs.length) := by
  intro y r s3
  have hctxs : (y.ids.foldl (fun u id => u.injectAt 1 (ownKey id) (y.pcn id.l) 0 0x20000) s3).ctxs = s3.ctxs :=
    State.foldl_proj (f := fun u id => u.injectAt 1 (ownKey id) (y.pcn id.l) 0 0x20000) State.ctxs (fun _ _ => rfl) _ s3
  rw [← hctxs]
  have hgo : ¬(x.run != .spilled || !s.partitionOk x.benches.length bs || !s.restoreRoom x y) = true := by
    rw [hpart, hroom, hrun]
    exact Bool.false_ne_true
  show execContextRestore asid bs s = _
  unfold execContextRestore
  rw [hx]
  exact if_neg hgo

end

/-- Settles O43: the swap by whether the block's move is complete, the spill by what is in its way, the restore by its steps. -/
theorem contextMoves : Obligations.ContextMoves := by
  refine ⟨?swap, ?units, ?merges, ?spill, ?restore⟩
  case swap =>
    intro s out into core block x y hx hy hout hin hcore at_
    have hexec := exec_scratchpadSwap (block := block) hx hy hout hin hcore
    refine ⟨fun k hk hmoved => ?_, fun k hk hmoved => ?_, fun hk => hexec.trans (congrArg (Option.elim · _ _) hk)⟩
    · obtain ⟨hcores, hhbm⟩ := bringIn_frame (s := s) (asid := into) (k, block)
      exact ⟨_, hexec.trans ((congrArg (Option.elim · _ _) hk).trans (if_pos hmoved)), rfl, notMem_spillIn_bringIn _, hcores, hhbm⟩
    · exact hexec.trans ((congrArg (Option.elim · _ _) hk).trans (if_neg (Bool.not_eq_true _ ▸ hmoved)))
  case units =>
    intro s asid l b x k asks
    exact ⟨fun hrun hmore hnext => spillUnits_moves hrun hmore hnext, fun h => spillUnits_rests h, moveNext_iff, blockMoved_iff⟩
  case merges => exact fun s asid x hx hrun hshadow => exec_contextSpill_merges hx hrun hshadow
  case spill =>
    intro s asid x hx hrun hhalt hshadow hstill
    exact ⟨exec_contextSpill_stays ⟨hx, hrun, hhalt, hshadow, hstill⟩, exec_contextSpill ⟨hx, hrun, hhalt, hshadow, hstill⟩⟩
  case restore =>
    intro s asid bs x hx hrun y hpart hroom r s2 s3
    exact ⟨takeBanks_benches bs, graves_takeBanks bs, exec_contextRestore hx hrun hpart hroom⟩

end Sys2Proof.Machine
end

section
/-! Views, their transfers and `xmv` (spec/06 R134 to R143), of a core with nothing on its way. -/

namespace Sys2Proof.Machine

section
variable {s : State}

/-! ### `vwget`, `vwset` (R134 to R136) -/

theorem Desc.isNone_iff (d : Desc) : d.isNone = true ↔ d.d0 = 0 ∧ d.d1 = 0 := by
  simp only [Desc.isNone, Bool.and_eq_true, beq_iff_eq]

theorem exec_vwget (hc : s.hasCore s.cur = true) (rd : Reg) (vw : BitVec 4) (half : Bool) :
    let d := vget (s.core s.cur).vw vw.toNat Desc.zero
    exec (.vwget rd vw half) s = .next (s.retiring (fun c => (c.wx rd (if half then d.d1 else d.d0)).after)) := by
  intro d
  show execVwget rd vw half s = _
  rw [execVwget, runScalar_ok hc rfl]
  exact congrArg _ (retire_advance s (fun c => c.wx rd (if half then d.d1 else d.d0)) fun c => CoreSt.wx_id c rd _)

/-- `vwset` by the descriptor in its two registers. -/
theorem exec_vwset (hc : s.hasCore s.cur = true) (vw : BitVec 4) (rs1 rs2 : Reg) :
    let d : Desc := ⟨(s.core s.cur).rx rs1, (s.core s.cur).rx rs2⟩
    (d.isNone = true ∨ (s.core s.cur).viewReason d = 0 →
      exec (.vwset vw rs1 rs2) s = .next (s.retiring (fun x => ({ x with vw := vset x.vw vw.toNat d }).after))) ∧
    (d.isNone = false → (s.core s.cur).viewReason d ≠ 0 →
      exec (.vwset vw rs1 rs2) s = s.traps (.vwset vw rs1 rs2) 0x0C (word ((s.core s.cur).viewReason d * 256))) := by
  intro d
  refine ⟨fun hvalid => ?sets, fun hset hbad => runScalar_traps hc ?invalid⟩
  case sets =>
    have hpass : ¬((!d.isNone) = true ∧ (s.core s.cur).viewReason d ≠ 0) := by
      rintro ⟨hset, hbad⟩
      rcases hvalid with hnone | hgood
      · rw [hnone] at hset; exact nomatch hset
      · exact hbad hgood
    refine (runScalar_ok hc ?_).trans (congrArg _ (retire_advance s (fun x => { x with vw := vset x.vw vw.toNat d }) fun _ => rfl))
    rw [M.bind_me, if_neg hpass]
    rfl
  case invalid =>
    rw [M.bind_me, if_pos ⟨by rw [hset]; rfl, hbad⟩]
    rfl

/-! ### Rows of a view -/

section
variable (hq : s.Quiet)
include hq

/-- Register space opens and stays as it was: no die serves it and no bank is asked for it. -/
theorem openPlace_reg (a n : Nat) (va : Word) : openPlace (.reg a) n va false s = .ok ((), s) :=
  openPlace_open hq.toClear va false ⟨rfl, fun _ => nofun⟩

theorem readAt_reg (a n : Nat) : readAt (.reg a) n s = .ok ((s.core s.cur).reg.readBytes a n, s) :=
  readAt_reach (p := .reg a) (m := n) hq n ⟨rfl, fun _ => nofun⟩ fun _ => nofun

theorem viewReadM_rows (d : Desc) (c i n : Nat) : viewReadM.rows d c i n s =
    .ok ((List.range' i n).flatMap (fun j => unpack c ((s.core s.cur).reg.readBytes (d.rowAddr j) (d.rowBytes c))), s) := by
  induction n generalizing i with
  | zero => rfl
  | succ n ih =>
    simp only [viewReadM.rows, M.bind_ok (openPlace_reg hq _ _ _), M.bind_ok (readAt_reg hq _ _), M.bind_ok (ih (i + 1)),
      List.range'_succ, List.flatMap_cons]
    rfl

theorem viewReadM_quiet (d : Desc) (c : Nat) : viewReadM d c s = .ok (d.readFrom c (s.core s.cur).reg, s) := by
  rw [viewReadM, viewReadM_rows hq, Desc.readFrom, List.range_eq_range']

omit hq in
theorem watchView_rows (h : s.Still) (d : Desc) (c : Nat) (w : Bool) (i n : Nat) : watchView.rows d c w i n s = .ok ((), s) := by
  induction n generalizing i with
  | zero => rfl
  | succ n ih => rw [watchView.rows, M.bind_ok (watch_quiet h _ _ _), ih]

omit hq in
theorem watchView_quiet (h : s.Still) (d : Desc) (c : Nat) (w : Bool) : watchView d c w s = .ok ((), s) := by
  rw [watchView, watchView_rows h]

omit hq in
@[simp] theorem M.bind_moveInto {β : Type} (d : Desc) (c : Nat) (es : List Nat) (k : Unit → M β) (t : State) :
    (moveInto d c es >>= k) t = k () (t.moved d c es) := rfl

/-! ### Transfers (R138 to R141) -/

/-- What a core with nothing on its way reads at a place that it has reached, itself or by the bench vector unit. -/
theorem readAt_reached {p : Place} {m : Nat} (n : Nat) (u : Bool) (ho : s.Open p m) (hd : ∀ off, p ≠ .dev off) :
    readAt p n (s.reach s.cur.asid p m u) = .ok (s.peek p n, s.reach s.cur.asid p m u) := by
  obtain ⟨cs, q, hreach⟩ := reach_ctxs m u ho.die
  have hdie := reach_die m u ho.die s.cur
  rw [hreach] at hdie ⊢
  exact readAt_ctxs hq cs q n hd hdie

omit hq in
/-- A scalar meaning of one operation on what its core holds, which then goes on. -/
theorem runScalar_transfer {parcel : Parcel} {op : CoreSt → M Unit} {t u : State} (hc : s.hasCore s.cur = true)
    (hop : op (s.core s.cur) s = .ok ((), t)) (hu : (t.modCore t.cur (fun c => { c with pc := c.pc + 4 })).retire = u) :
    runScalar parcel (do let c ← me; op c; advance) s = .next u :=
  (runScalar_ok hc (by rw [M.bind_me, M.bind_ok hop]; exact M.advance_apply t)).trans (congrArg _ hu)

section
variable {vw : BitVec 4} {a : Word} {vec col : Bool} (h : s.TransferOk vw a vec col)
include h

omit hq in
/-- A transfer that passes its checks goes on with its view, its container, and the rows and row length of its image. -/
theorem transferChecks_ok : transferChecks vw a vec col s = .ok (s.viewImage vw col, s) := by
  obtain ⟨hset, rfl, hsize, heven, halign, hown, hlow⟩ := h
  have hwhole : ¬((s.viewImage vw col).2.1 = 4 ∧ ((s.viewImage vw col).2.2.2 % 2 = 1 ∨
      (!(s.viewImage vw col).1.isVec) = true ∧ (s.viewImage vw col).1.cols % 2 = 1)) := by
    rintro ⟨h4, hodd | ⟨htile, hodd⟩⟩
    · exact absurd ((heven h4).1.symm.trans hodd) (by decide)
    · exact absurd (((heven h4).2 ((Bool.not_eq_true' _).mp htile)).symm.trans hodd) (by decide)
  have hspace : ¬(a.toNat ≥ 2 ^ 20 ∨ a.toNat + (s.viewImage vw col).2.2.1 * ((s.viewImage vw col).2.2.2 * (s.viewImage vw col).2.1 / 8) >
      (s.ctx s.cur.asid).par.fp) := not_or.mpr ⟨Nat.not_le.mpr hlow, Nat.not_lt.mpr hown.fits⟩
  have himage : (if col = true then ((s.viewImage vw col).1.shape.2, (s.viewImage vw col).1.shape.1) else (s.viewImage vw col).1.shape) =
      (s.viewImage vw col).2.2 := by cases col <;> rfl
  simp only [State.viewImage] at hset hsize hwhole hspace himage ⊢
  unfold transferChecks
  simp only [M.bind_me, M.bind_myCtx, hset, bne_self_eq_false, Bool.false_eq_true, hsize, ne_eq, not_true, himage, if_neg hwhole,
    if_neg hspace, if_false, M.bind_ok (aligned_ok halign s)]
  rfl

/-- The elements of the image enter the view. -/
theorem loadView_quiet : loadView vw a vec col s = .ok ((), s.viewLoaded vw a.toNat col) := by
  unfold loadView
  simp only [M.bind_ok (transferChecks_ok h), M.bind_ok (watch_quiet hq.toStill _ _ _), M.bind_ok (watchView_quiet hq.toStill _ _ _),
    M.bind_ok (drainM_quiet hq.toStill), M.bind_myId, M.bind_ok (openPlace_open hq.toClear a true h.own.open_),
    M.bind_ok (readAt_reached hq _ true h.own.open_ fun _ => nofun)]
  rfl

/-- The elements of the view are stored at the image, under the core's next store number. -/
theorem storeView_quiet : storeView vw a vec col s =
    .ok ((), (s.viewStored vw a.toNat col).modCore (s.viewStored vw a.toNat col).cur CoreSt.numbered) := by
  have hperform : ∀ seq bs, tryM (fun t => t.perform s.cur none seq (.scratch s.cur.l a.toNat) bs false .block true) s =
      .ok ((), s.storing (.scratch s.cur.l a.toNat) bs) := fun seq bs => by
    simp only [tryM, perform_plain (p := .scratch s.cur.l a.toNat) rfl]
  have hmark : ∀ (who : Nat) (p : Place) (n : Nat) (bs : List Byte),
      ((s.storing (.scratch s.cur.l a.toNat) bs).askPlace s.cur.asid who s.cur.l 0 p n).markStore s.cur p n [] =
        (s.storing (.scratch s.cur.l a.toNat) bs).askPlace s.cur.asid who s.cur.l 0 p n := fun who p n bs => by
    obtain ⟨q, hask⟩ := askPlace_bankq (s.storing (.scratch s.cur.l a.toNat) bs) s.cur.asid who s.cur.l 0 p n
    refine markStore_unwatched ?_ _ _ _ _
    rw [hask]
    exact (storing_frame (p := .scratch s.cur.l a.toNat) rfl hq.watched bs).1
  unfold storeView
  simp only [M.bind_ok (transferChecks_ok h), M.bind_ok (watch_quiet hq.toStill _ _ _), M.bind_ok (watchView_quiet hq.toStill _ _ _),
    M.bind_ok (drainM_quiet hq.toStill), M.bind_myId, M.bind_me, M.bind_ok (coverM_unpoisoned hq.poison _ _ _),
    M.bind_ok (reserveM_quiet hq.toStill _ _), M.bind_ok (viewReadM_quiet hq _ _), M.bind_ok (demandM_quiet hq.toStill _ _),
    openWin_quiet hq.toStill, M.bind_ok (hperform _ _), M.bind_updM, hmark, M.bind_takeSeq]
  rfl

end

/-! ### `xmv` (R142, R143) -/

omit hq in
theorem any_bne_eq_false {α : Type} {l : List α} {f : α → Bool} {b : Bool} (h : l.all (fun e => f e == b) = true) :
    l.any (fun e => f e != b) = false := by
  simpa only [bne, List.all_eq_not_any_not, Bool.not_eq_true'] using h

omit hq in
theorem not_and_any_not {α : Type} {l : List α} {f : α → Bool} {p : Prop} (h : p → l.all f = true) :
    ¬(p ∧ l.any (fun e => !f e) = true) := by
  rintro ⟨hp, hany⟩
  exact absurd hany (Bool.not_eq_true _ ▸ by simpa only [List.all_eq_not_any_not, Bool.not_eq_true'] using h hp)

/-- `xmv` copies between views of one kind and container, and resolves an accumulator view into an `i32` or `f32` one. -/
theorem exec_xmv {dst src : BitVec 4} (h : s.MoveOk dst src) :
    let c := s.core s.cur
    let S := vget c.vw src.toNat Desc.zero
    let D := vget c.vw dst.toNat Desc.zero
    let cs := S.container (c.viewFmt S)
    let cd := D.container (c.viewFmt D)
    let es := S.readFrom cs c.reg
    (S.isAcc = D.isAcc → cs = cd → exec (.xmv dst src) s = .next ((s.moved D cd es).retiring CoreSt.after)) ∧
    (S.isAcc = true → D.isAcc = false → D.fsel = false → D.etype = 0x3 ∨ D.etype = 0xA →
      es.all (fun e => (AE.ofNat e).float == (D.etype == 0xA)) = true →
      (S.strict = true → es.all (fun e => (AE.ofNat e).res) = true) →
      exec (.xmv dst src) s =
        .next (((s.modCore s.cur (fun x => x.countEvs ((es.map resolveRead).flatMap (fun r => r.2)))).moved D cd
          ((es.map resolveRead).map (fun r => r.1))).retiring CoreSt.after)) := by
  intro c S D cs cd es
  obtain ⟨⟨hsrc, hdst⟩, hS, hD, hevenS, hevenD, helems⟩ := h
  have heven : ¬(cs = 4 ∧ S.shape.2 % 2 = 1 ∨ cd = 4 ∧ D.shape.2 % 2 = 1) := by
    rintro (⟨h4, hodd⟩ | ⟨h4, hodd⟩)
    · exact absurd ((hevenS h4).symm.trans hodd) (by decide)
    · exact absurd ((hevenD h4).symm.trans hodd) (by decide)
  refine ⟨fun hkind hcont => (runScalar_ok hq.core ?copies).trans (congrArg _ (retire_advance_only _)),
    fun hacc hplain hfsel htype hfloat hres => (runScalar_ok hq.core ?resolves).trans (congrArg _ (retire_advance_only _))⟩
  all_goals
    simp only [S, D, cs, cd, es, c] at *
    simp only [M.bind_me, hsrc, hdst, hS, hD, helems, Bool.false_eq_true, or_self, ne_eq, not_true, if_false, if_neg heven]
  case copies =>
    have hmixed : ¬((vget (s.core s.cur).vw dst.toNat Desc.zero).isAcc = true ∧
        (!(vget (s.core s.cur).vw dst.toNat Desc.zero).isAcc) = true) := by simp
    simp only [hkind, hcont, if_neg hmixed, Bool.and_not_self, Bool.false_eq_true, not_true, false_and, and_false, if_false,
      M.bind_ok (watchView_quiet hq.toStill _ _ _), M.bind_ok (drainM_quiet hq.toStill), M.bind_ok (viewReadM_quiet hq _ _),
      M.bind_moveInto]
    rfl
  case resolves =>
    have hdest := not_and_or.mpr (htype.imp not_not.mpr not_not.mpr)
    simp only [hacc, hplain, hfsel, if_neg hdest, Bool.not_false, Bool.and_self, Bool.not_true, Bool.false_eq_true, true_and, false_and,
      false_or, if_false, if_true, M.bind_ok (watchView_quiet hq.toStill _ _ _), M.bind_ok (drainM_quiet hq.toStill),
      M.bind_ok (viewReadM_quiet hq _ _), any_bne_eq_false hfloat, if_neg (not_and_any_not hres), eventsM, M.bind_modMe,
      M.bind_moveInto]
    rfl

end

end

/-- Settles O25: the read of a view, and both doublewords of an unset one. -/
theorem viewGet : Obligations.ViewGet :=
  fun _ rd vw half hc => ⟨exec_vwget hc rd vw half, (Desc.isNone_iff _).mp⟩

/-- Settles O26: `vwset` by its descriptor. -/
theorem viewSet : Obligations.ViewSet := fun _ vw rs1 rs2 hc => exec_vwset hc vw rs1 rs2

/-- Settles O27: loads and stores of a view by their one operation in each direction, moves by `exec_xmv`. -/
theorem transferMoveResult : Obligations.TransferMoveResult := by
  refine ⟨?transfers, fun s dst src hq => ?moves⟩
  case transfers =>
    intro s vw col rs1 imm hq a stored
    have hloads {vec col : Bool} (h : s.TransferOk vw a vec col) {parcel : Parcel} :=
      runScalar_transfer (parcel := parcel) (op := fun c => loadView vw (c.ea rs1 imm) vec col) hq.core (loadView_quiet hq h)
        (retire_advance_only _)
    have hstores {vec col : Bool} (h : s.TransferOk vw a vec col) {parcel : Parcel} :=
      runScalar_transfer (parcel := parcel) (op := fun c => storeView vw (c.ea rs1 imm) vec col) hq.core (storeView_quiet hq h)
        (retire_advance _ CoreSt.numbered fun _ => rfl)
    exact ⟨fun h => ⟨hloads h, hstores h⟩, fun h => ⟨hloads h, hstores h⟩⟩
  case moves =>
    intro c S D cs cd es h
    exact exec_xmv hq h

end Sys2Proof.Machine
end

section
/-! Number formats: the values of accumulator elements and of `e8s` codes (spec/07 R152, R158), the conversions between FP32 and the
narrow formats, and the random word (spec/07 R165, spec/09 R232, R234). -/

namespace Sys2Proof.Machine

/-! ### Two's complement and exact values -/

theorem signed_range (n v : Nat) : -2 ^ (n - 1) ≤ signed n v ∧ signed n v < 2 ^ (n - 1) := by
  rw [signed_eq_toInt]
  exact ⟨BitVec.le_toInt _, BitVec.toInt_lt⟩

theorem pow_dvd_signed_sub (n v : Nat) : (2 ^ n : Int) ∣ signed n v - v := by
  rw [signed_eq_toInt, BitVec.toInt_ofNat']
  exact_mod_cast Int.dvd_bmod_sub_self

theorem XR.top_natAbs (v : Int) : XR.top (decide (v < 0)) v.natAbs = v := by
  by_cases h : v < 0
  · rw [decide_eq_true h]
    exact (congrArg Neg.neg (Int.ofNat_natAbs_of_nonpos h.le)).trans (neg_neg v)
  · rw [decide_eq_false h]
    exact Int.natAbs_of_nonneg (not_lt.mp h)

theorem XR.top_mul (g : Bool) (n m : Nat) : XR.top g (n * m) = XR.top g n * m := by
  cases g <;> simp [XR.top]

/-- `XR.dyadic` is the fraction ±m × 2^(j − k), over a positive denominator. -/
theorem XR.dyadic_eq_num (g : Bool) (m j k : Nat) :
    ∃ n d, XR.dyadic g m ((j : Int) - k) = .num g n d ∧ 0 < d ∧ n * 2 ^ k = m * 2 ^ j * d := by
  by_cases h : k ≤ j
  · obtain ⟨e, rfl⟩ := Nat.exists_eq_add_of_le h
    refine ⟨m * 2 ^ e, 1, ?_, Nat.one_pos, by ring⟩
    simp [XR.dyadic]
  · obtain ⟨e, rfl⟩ := Nat.exists_eq_add_of_le (not_le.mp h).le
    refine ⟨m, 2 ^ e, ?_, by positivity, by ring⟩
    have he : 0 < e := by omega
    simp [XR.dyadic, he.ne']

/-! ### Accumulator elements (R158) -/

theorem AE.V_spec (a : AE) : -(2 ^ 55 : Int) ≤ a.V ∧ a.V < 2 ^ 55 ∧ (2 ^ 56 : Int) ∣ a.V - ((a.S : Int) + a.C) := by
  obtain ⟨hlo, hhi⟩ := signed_range 56 (a.S + a.C)
  exact ⟨hlo, hhi, by exact_mod_cast pow_dvd_signed_sub 56 (a.S + a.C)⟩

/-- The value of a float element without flags: (2V + slo) × 2^(E − 168). -/
theorem AE.value_float {a : AE} (hnan : a.nan = false) (hpinf : a.pinf = false) (hninf : a.ninf = false) (hfloat : a.float = true) :
    ∃ g n d, a.value = .num g n d ∧ 0 < d ∧ XR.top g n * 2 ^ 168 = (2 * a.V + (if a.slo then 1 else 0)) * 2 ^ a.E * d := by
  let v : Int := 2 * a.V + (if a.slo then 1 else 0)
  obtain ⟨n, d, hval, hpos, hscale⟩ := XR.dyadic_eq_num (decide (v < 0)) v.natAbs a.E 168
  refine ⟨decide (v < 0), n, d, ?_, hpos, ?_⟩
  · simpa [AE.value, hnan, hpinf, hninf, hfloat] using hval
  · calc XR.top (decide (v < 0)) n * 2 ^ 168
        = XR.top (decide (v < 0)) (n * 2 ^ 168) := by rw [XR.top_mul]; norm_cast
      _ = XR.top (decide (v < 0)) (v.natAbs * (2 ^ a.E * d)) := by rw [hscale, mul_assoc]
      _ = v * 2 ^ a.E * d := by rw [XR.top_mul, XR.top_natAbs]; push_cast; ring

/-- The value of an integer element without flags is V. -/
theorem AE.value_integer {a : AE} (hnan : a.nan = false) (hpinf : a.pinf = false) (hninf : a.ninf = false) (hfloat : a.float = false) :
    a.value = XR.ofInt a.V := by
  simp [AE.value, hnan, hpinf, hninf, hfloat]

theorem AE.value_nan {a : AE} (h : a.nan = true ∨ (a.pinf = true ∧ a.ninf = true)) : a.value = .nan := by
  obtain h | ⟨hpinf, hninf⟩ := h
  · simp [AE.value, h]
  · simp [AE.value, hpinf, hninf]

/-! ### `e8s` codes (R152) -/

theorem decodeFloat_e8s {F : Fmt} (hF : F.e8s = true) {c : Nat} (hc : c < 255) :
    decodeFloat F c = XR.dyadic false 1 ((c : Int) - (127 : Nat)) := by
  have hmod : c % 256 = c := Nat.mod_eq_of_lt (by omega)
  simp [decodeFloat, hF, hmod, hc.ne]

theorem decodeFloat_e8s_nan {F : Fmt} (hF : F.e8s = true) : decodeFloat F 255 = .nan := by
  simp [decodeFloat, hF]

/-- Settles O54: the flags of an element by cases, the float value and the `e8s` code by the fraction of `XR.dyadic`. -/
theorem accumulatorValue : Obligations.AccumulatorValue := by
  refine ⟨fun a => ⟨a.V_spec, AE.value_nan, fun hnan hpinf hninf => ?posInf, fun hnan hpinf hninf => ?negInf,
    fun hnan hpinf hninf => ⟨fun hfloat => ?integer, AE.value_float hnan hpinf hninf⟩⟩,
    fun F c hF => ⟨fun hc => ?code, decodeFloat_e8s_nan hF⟩⟩
  case posInf | negInf => simp [AE.value, hnan, hpinf, hninf]
  case integer => exact ⟨_, _, AE.value_integer hnan hpinf hninf hfloat, XR.top_natAbs a.V⟩
  case code =>
    obtain ⟨n, d, hval, hpos, hscale⟩ := XR.dyadic_eq_num false 1 c 127
    exact ⟨n, d, (decodeFloat_e8s hF hc).trans hval, hpos, by rwa [one_mul] at hscale⟩

/-! ### Narrow conversions and random words (R165, R232, R234) -/

/-- The draw of an `nfcvt`: taken in stochastic rounding only. -/
theorem nfDraw_apply (rm : Rnd) (rs2 : Reg) (s : State) :
    let c := s.core s.cur
    let v := c.rx rs2
    nfDraw rm rs2 s = .ok (if rm = .sr then srDraw (s.ctx s.cur.asid).par.seed c.lcn (bits v 63 56) (bits v 55 0) else 0, s) := by
  simp only [nfDraw, M.bind_me, M.bind_myCtx]
  cases rm <;> simp

@[simp] theorem M.bind_eventsM {β : Type} (evs : Evs) (k : Unit → M β) (s : State) :
    (eventsM evs >>= k) s = k () (s.modCore s.cur (fun c => c.countEvs evs)) := rfl

/-- How a conversion ends: it counts its events, writes its register and moves past its parcel. -/
theorem runScalar_counts {s : State} {parcel : Parcel} {m : M Unit} {evs : Evs} {put : CoreSt → CoreSt} (hc : s.hasCore s.cur = true)
    (hput : ∀ c, (put c).id = c.id) (h : m s = (do eventsM evs; modMe put; advance : M Unit) s) :
    runScalar parcel m s = .next (s.retiring (fun c => (put (c.countEvs evs)).after)) := by
  have hid (c : CoreSt) : (c.countEvs evs).id = c.id := (c.countEvs_flights evs).2
  rw [runScalar_ok hc (h.trans rfl)]
  simp only [State.modCore_cur, modCore_two _ _ _ _ hid]
  exact congrArg _ (retire_advance s _ fun c => (hput _).trans (hid c))

theorem exec_nfcvtN {s : State} (hc : s.hasCore s.cur = true) {rm : Rnd} {rs2 : Reg} {draw : Nat} (hdraw : nfDraw rm rs2 s = .ok (draw, s))
    (fmt : BitVec 3) (rd rs1 : Reg) :
    let c := s.core s.cur
    let n := roundTo (Fmt.ofReg (c.fmtReg fmt)) (decodeFloat Fmt.f32 (unbox .s (c.rf rs1))) (rndRM rm) draw
    exec (.nfcvtN rm fmt rd rs1 rs2) s = .next (s.retiring (fun x => ((x.countEvs n.2).wx rd (word n.1)).after)) := by
  intro c n
  exact runScalar_counts (evs := n.2) (put := fun x => x.wx rd (word n.1)) hc (fun c => c.wx_id rd _) (by rw [M.bind_me, M.bind_ok hdraw]; rfl)

theorem exec_nfcvtF {s : State} (hc : s.hasCore s.cur = true) {rm : Rnd} {rs2 : Reg} {draw : Nat} (hdraw : nfDraw rm rs2 s = .ok (draw, s))
    (fmt : BitVec 3) (rd rs1 : Reg) :
    let c := s.core s.cur
    let F := Fmt.ofReg (c.fmtReg fmt)
    let w := roundTo Fmt.f32 (decodeFloat F ((c.rx rs1).toNat % 2 ^ F.width)) (rndRM rm) draw
    exec (.nfcvtF rm fmt rd rs1 rs2) s = .next (s.retiring (fun x => ((x.countEvs w.2).wf rd (nanBox .s w.1)).after)) := by
  intro c F w
  exact runScalar_counts (evs := w.2) (put := fun x => x.wf rd (nanBox .s w.1)) hc (fun c => c.wf_id rd _) (by rw [M.bind_me, M.bind_ok hdraw]; rfl)

theorem exec_rngrd {s : State} (hc : s.hasCore s.cur = true) (sid : BitVec 7) (rd rs1 : Reg) :
    let c := s.core s.cur
    exec (.rngrd sid rd rs1) s = .next (s.retiring (fun x =>
      (x.wx rd (rand64 (s.ctx s.cur.asid).par.seed c.lcn sid.toNat (c.rx rs1).toNat)).after)) :=
  show execRngrd sid rd rs1 s = _ from
    (runScalar_ok hc rfl).trans (congrArg _ (retire_advance s _ fun c => c.wx_id rd _))

/-- Settles O29: both conversions with their draw, and the random word. -/
theorem narrowConvert : Obligations.NarrowConvert := by
  intro s rm fmt sid rd rs1 rs2 hc c seed F draw n w
  have hdraw : nfDraw rm rs2 s = .ok (draw, s) := nfDraw_apply rm rs2 s
  exact ⟨exec_nfcvtN hc hdraw fmt rd rs1, exec_nfcvtF hc hdraw fmt rd rs1, exec_rngrd hc sid rd rs1⟩

end Sys2Proof.Machine
end

section
/-! Matrix and vector words that are ready (spec/08 R173, R175, R180, R182, R183, spec/09 R239): the word at the head of its queue takes
its unit and runs its command; its writes and its flight, or the fault of its data, are all that it leaves. -/

namespace Sys2Proof.Machine

/-! ### Machines that agree on a part of their cores -/

/-- A machine whose memory beyond the cores, whose clock and whose cores, as far as `g` tells, are those of another. -/
structure State.Like {α : Type} (g : CoreSt → α) (s t : State) : Prop where
  hbm   : t.hbm = s.hbm
  host  : t.host = s.host
  cycle : t.cycle = s.cycle
  core? : ∀ i, (t.core? i).map g = (s.core? i).map g

section
variable {α β : Type} {g : CoreSt → α} {s t u : State} {id : CoreId}

theorem State.Like.refl : s.Like g s := ⟨rfl, rfl, rfl, fun _ => rfl⟩

theorem State.Like.symm (h : s.Like g t) : t.Like g s := ⟨h.hbm.symm, h.host.symm, h.cycle.symm, fun i => (h.core? i).symm⟩

theorem State.Like.trans (h : s.Like g t) (k : t.Like g u) : s.Like g u :=
  ⟨k.hbm.trans h.hbm, k.host.trans h.host, k.cycle.trans h.cycle, fun i => (k.core? i).trans (h.core? i)⟩

/-- A core stands in both machines, alike, or in neither. -/
theorem State.Like.found (h : s.Like g t) (i : CoreId) :
    (s.core? i = none ∧ t.core? i = none) ∨ ∃ c d, s.core? i = some c ∧ t.core? i = some d ∧ g d = g c := by
  have hi := h.core? i
  cases hs : s.core? i with
  | none => rw [hs] at hi; exact .inl ⟨rfl, Option.map_eq_none_iff.mp hi⟩
  | some c =>
    rw [hs] at hi
    obtain ⟨d, hd, hg⟩ := Option.map_eq_some_iff.mp hi
    exact .inr ⟨c, d, rfl, hd, hg⟩

/-- What `g` tells of a core settles what `k` tells of it. -/
theorem State.Like.weaken (h : s.Like g t) {k : CoreSt → β} (hk : ∀ c d, g c = g d → k c = k d) : s.Like k t := by
  refine ⟨h.hbm, h.host, h.cycle, fun i => ?_⟩
  obtain ⟨hs, ht⟩ | ⟨c, d, hs, ht, hg⟩ := h.found i
  · rw [hs, ht, Option.map_none]
  · rw [hs, ht]; exact congrArg some (hk d c hg)

theorem State.Like.core (h : s.Like g t) (i : CoreId) : g (t.core i) = g (s.core i) := by
  unfold State.core
  obtain ⟨hs, ht⟩ | ⟨c, d, hs, ht, hg⟩ := h.found i
  · rw [hs, ht]
  · rw [hs, ht]; exact hg

/-- A change of neither cores nor memories nor clock. -/
theorem State.like_of_cores (hc : t.cores = s.cores) (hm : t.hbm = s.hbm) (hh : t.host = s.host) (hy : t.cycle = s.cycle) : s.Like g t :=
  ⟨hm, hh, hy, fun i => by simp only [State.core?, hc]⟩

theorem State.Like.foldl {γ : Type} {f : State → γ → State} (hf : ∀ v a, State.Like g v (f v a)) (l : List γ) (s : State) :
    s.Like g (l.foldl f s) := by
  induction l generalizing s with
  | nil => exact .refl
  | cons a l ih => exact (hf s a).trans (ih _)

/-- A change of every core of which `g` tells nothing. -/
theorem State.like_map {f : CoreSt → CoreSt} (hid : ∀ c, (f c).id = c.id) (hf : ∀ c, g (f c) = g c) :
    s.Like g { s with cores := s.cores.map f } := by
  refine ⟨rfl, rfl, rfl, fun i => ?_⟩
  have hfun : (fun c : CoreSt => c.id == i) ∘ f = fun c => c.id == i := funext fun c => by rw [Function.comp_apply, hid c]
  simp only [State.core?, List.find?_map, hfun, Option.map_map]
  congr 1
  exact funext hf

/-- Like changes of one core of like machines. -/
theorem State.Like.modCores (h : s.Like g t) {f k : CoreSt → CoreSt}
    (hfk : g { k (t.core id) with id := id } = g { f (s.core id) with id := id }) : (s.modCore id f).Like g (t.modCore id k) := by
  refine ⟨h.hbm, h.host, h.cycle, fun i => ?_⟩
  rw [State.core?_modCore, State.core?_modCore]
  obtain ⟨hs, ht⟩ | ⟨c, d, hs, ht, hg⟩ := h.found i
  · rw [hs, ht]; rfl
  · have hc := State.core?_id hs
    have hd := State.core?_id ht
    by_cases he : i = id
    · subst he
      simp only [State.core, hs, ht, Option.getD_some] at hfk
      simp only [hs, ht, Option.map_some, hc, hd, if_true, hfk]
    · simp only [hs, ht, Option.map_some, hc, hd, he, if_false, hg]

/-- A change of one core in place of an earlier one. -/
theorem State.Like.modCoreAgain {e f k : CoreSt → CoreSt} (h : (s.modCore id e).Like g t) (he : ∀ c, (e c).id = c.id)
    (hfk : g { k (t.core id) with id := id } = g { f (s.core id) with id := id }) : (s.modCore id f).Like g (t.modCore id k) := by
  have hboth := h.modCores (id := id) (f := fun _ => f (s.core id)) hfk
  rw [modCore_two s id e _ he] at hboth
  have hconst : (s.modCore id f).Like g (s.modCore id (fun _ => f (s.core id))) := State.Like.refl.modCores rfl
  exact hconst.trans hboth

/-- A change of one core of which `g` tells nothing. -/
theorem State.like_modCore {f : CoreSt → CoreSt} (hf : ∀ c, g { f c with id := c.id } = g c) : s.Like g (s.modCore id f) := by
  refine ⟨rfl, rfl, rfl, fun i => ?_⟩
  rw [State.core?_modCore]
  cases s.core? i with
  | none => rfl
  | some c =>
    simp only [Option.map_some]
    split
    · exact congrArg some (hf c)
    · rfl

theorem State.like_modDie (d : Nat) (f : Die → Die) : s.Like g (s.modDie d f) := State.like_of_cores rfl rfl rfl rfl

end

/-! ### The writes of a word -/

/-- A core without its number, without what its queues hold and without what follows from its writes: unseen bytes, dirty lines, a
reservation lost. -/
def CoreSt.bare (c : CoreSt) : CoreSt :=
  { c with id := ⟨0, 0⟩, eqm := .empty, eqv := .empty, eqc := .empty, eqp := .empty, issueNo := 0, stale := [], resv := none
           wLines := 0, sLines := 0 }

/-- A core with one of its memories changed as a whole. -/
def CoreSt.mapReg (c : CoreSt) (w : Mem → Mem) : CoreSt := { c with reg := w c.reg }
def CoreSt.mapScratch (c : CoreSt) (w : Mem → Mem) : CoreSt := { c with scratch := w c.scratch }

section
variable {s t : State} {id : CoreId}

theorem CoreSt.setQueue_bare (c : CoreSt) (q : Queue) (e : EQueue) : (c.setQueue q e).bare = c.bare := by cases q <;> rfl

theorem CoreSt.writeReg_bare (c : CoreSt) (a : Nat) (bs : List Byte) :
    (c.writeReg a bs).bare = (c.mapReg (fun m => m.write a bs)).bare := by
  unfold CoreSt.writeReg CoreSt.dirtyLines
  split <;> rfl

theorem CoreSt.breakScratch_bare (c : CoreSt) (asid l a n : Nat) :
    (c.breakScratch asid l a n).id = c.id ∧ (c.breakScratch asid l a n).bare = c.bare := by
  unfold CoreSt.breakScratch
  split
  · split <;> exact ⟨rfl, rfl⟩
  · exact ⟨rfl, rfl⟩

/-- A further change of a memory of a core, of machines that are alike. -/
theorem State.Like.mapReg {v : Mem → Mem} (h : (s.modCore id (fun c => c.mapReg v)).Like CoreSt.bare t) (w : Mem → Mem) :
    (s.modCore id (fun c => c.mapReg (fun m => w (v m)))).Like CoreSt.bare (t.modCore id (fun c => c.mapReg w)) := by
  have hboth := h.modCores (id := id) (f := fun c => c.mapReg w) (k := fun c => c.mapReg w)
    (congrArg (fun c : CoreSt => c.mapReg w) (h.core id))
  rwa [modCore_two s id (fun c => c.mapReg v) _ fun _ => rfl] at hboth

theorem State.Like.mapScratch {v : Mem → Mem} (h : (s.modCore id (fun c => c.mapScratch v)).Like CoreSt.bare t) (w : Mem → Mem) :
    (s.modCore id (fun c => c.mapScratch (fun m => w (v m)))).Like CoreSt.bare (t.modCore id (fun c => c.mapScratch w)) := by
  have hboth := h.modCores (id := id) (f := fun c => c.mapScratch w) (k := fun c => c.mapScratch w)
    (congrArg (fun c : CoreSt => c.mapScratch w) (h.core id))
  rwa [modCore_two s id (fun c => c.mapScratch v) _ fun _ => rfl] at hboth

/-- A write to a core's own memories shows to no load taken ahead. -/
theorem changed_local {p : Place} (hp : p.isLocal = true) (i : CoreId) (n : Nat) : s.Like CoreSt.bare (s.changed none i p n) := by
  unfold State.changed State.overtake
  rw [if_pos hp]
  split
  · exact State.like_of_cores rfl rfl rfl rfl
  · exact .refl

/-- Register space takes bytes that may turn on what it holds. -/
theorem writeRegSpace_like (a : Nat) (bs : Mem → List Byte) :
    (s.modCore id (fun c => c.mapReg (fun m => m.write a (bs m)))).Like CoreSt.bare (s.writeRegSpace id a (bs (s.core id).reg)) := by
  unfold State.writeRegSpace
  have hchanged := changed_local (s := s) (p := .reg a) rfl id (bs (s.core id).reg).length
  refine .trans (hchanged.modCores ?_) (State.like_of_cores rfl rfl rfl rfl)
  exact (CoreSt.writeReg_bare ..).trans (congrArg (fun c : CoreSt => c.mapReg (fun m => m.write a (bs (s.core id).reg))) (hchanged.core id))

theorem writeScratch_like (a : Nat) (bs : List Byte) :
    (s.modCore id (fun c => c.mapScratch (fun m => m.write a bs))).Like CoreSt.bare (s.writeScratch id.asid id.l a bs) := by
  unfold State.writeScratch
  have hchanged := changed_local (s := s) (p := .scratch id.l a) rfl id bs.length
  have hwritten := hchanged.modCores (id := id) (f := fun c => c.mapScratch (fun m => m.write a bs))
    (k := fun c => { c with scratch := c.scratch.write a bs, stale := dropStale c.stale false a bs.length })
    (congrArg (fun c : CoreSt => c.mapScratch (fun m => m.write a bs)) (hchanged.core id))
  exact hwritten.trans (.trans (State.like_map (fun c => (c.breakScratch_bare ..).1) fun c => (c.breakScratch_bare ..).2)
    (State.like_of_cores rfl rfl rfl rfl))

/-- The `res` flag of an element is set in the element as it stands (spec/07 R157). -/
theorem setRes_like (a : Nat) :
    (s.modCore id (fun c => c.mapReg (fun m => m.write a (leBytes 16 ((m.readNat a 16 ||| 2 ^ 125) % 2 ^ 127))))).Like CoreSt.bare
      (s.setRes id a) :=
  writeRegSpace_like a fun m => leBytes 16 ((m.readNat a 16 ||| 2 ^ 125) % 2 ^ 127)

/-- Changes of register space, one after the other, each as `w` tells. -/
theorem foldl_reg_like {γ : Type} {f : State → γ → State} {w : Mem → γ → Mem}
    (hf : ∀ v a, State.Like CoreSt.bare (v.modCore id (fun c => c.mapReg (fun m => w m a))) (f v a)) (l : List γ) (s : State) :
    (s.modCore id (fun c => c.mapReg (fun m => l.foldl w m))).Like CoreSt.bare (l.foldl f s) := by
  induction l generalizing s with
  | nil => exact (State.like_modCore fun _ => rfl).symm
  | cons a l ih =>
    exact ((hf s a).mapReg fun m => l.foldl w m).trans (ih _)

/-- Outside every window no scratchpad result waits for a log slot. -/
theorem scratchOn_like (seq : Nat) (ws : List (Nat × List Byte)) (s : State) :
    (s.scratchOn id none seq ws).2 = [] ∧
    (s.modCore id (fun c => c.mapScratch (fun m => ws.foldl (fun m w => m.write w.1 w.2) m))).Like CoreSt.bare
      (s.scratchOn id none seq ws).1 := by
  induction ws generalizing s with
  | nil => exact ⟨rfl, (State.like_modCore fun _ => rfl).symm⟩
  | cons w ws ih =>
    have hstep : s.scratchOn id none seq (w :: ws) = (s.writeScratch id.asid id.l w.1 w.2).scratchOn id none seq ws := rfl
    obtain ⟨hnone, hrest⟩ := ih (s.writeScratch id.asid id.l w.1 w.2)
    have hfirst := (writeScratch_like (s := s) (id := id) w.1 w.2).mapScratch fun m => ws.foldl (fun m w => m.write w.1 w.2) m
    rw [hstep]
    exact ⟨hnone, hfirst.trans hrest⟩

end

/-! ### A word that issues -/

/-- A core with the writes of a word made. -/
def CoreSt.written (c : CoreSt) (out : MvOut) : CoreSt :=
  { c with reg := out.onReg c.reg, scratch := out.scrW.foldl (fun m w => m.write w.1 w.2) c.scratch }

/-- A core on which a word has run: its writes made, its entries claimed, the word in flight. -/
def CoreSt.ran (c : CoreSt) (out : MvOut) (rgp : Vector RingPtr 16) (f : Flight) : CoreSt :=
  { c.written out with rgp, flights := c.flights ++ [f] }

/-- The flight of a matrix or vector word that starts. -/
def State.mvFlight (s : State) (id : CoreId) (q : Queue) (h : Head) (ents : List (Nat × Nat)) (op : MvOp) (out : MvOut) : Flight :=
  let c := s.core id
  let t := s.cycle + (if c.checks q then 1 else 0) + op.time h.pw
  { Flight.of c q h with
    occEnd := t, retireAt := t + op.lat, acc := op.acc
    reads := h.pw.reads ++ h.pw.accReads ++ h.pw.entryRegions id.l ents false, writes := h.pw.writes ++ h.pw.entryRegions id.l ents true
    pops := wordPops h.pw.word, pubs := ((fieldRings h.pw.word).filter (fun r => r.2.2)).map (fun r => (r.2.1, 1))
    result := out.result, scope := (⟨h.pw.word⟩ : MvF).scope, scrW := []
    olds := out.regW.map (fun w => (true, w.1, c.reg.readBytes w.1 w.2.length))
      ++ out.resAt.map (fun a => (true, a, c.reg.readBytes a 16))
      ++ out.scrW.map (fun w => (false, w.1, c.scratch.readBytes w.1 w.2.length))
    evAdd := out.evs, nfAdd := out.nfs }

/-- Claims turn on the rings and their hidden pointers, and move the pointers alone. -/
theorem claims_with_rings (c d : CoreSt) (rs : List (Nat × Nat × Bool)) :
    ({ d with rg := c.rg, rgp := c.rgp } : CoreSt).claims rs =
      (c.claims rs).map (fun e => ({ d with rg := c.rg, rgp := e.1.rgp }, e.2)) := by
  induction rs generalizing c with
  | nil => rfl
  | cons r rs ih =>
    obtain ⟨i, r, dst⟩ := r
    have hrest (p : RingPtr) := ih { c with rgp := vset c.rgp r p }
    dsimp only at hrest
    cases dst
    all_goals
      simp only [CoreSt.claims, if_true, Bool.false_eq_true, if_false, hrest]
      split
      · rfl
      · cases CoreSt.claims { c with rgp := vset c.rgp r _ } rs <;> rfl

section
variable {s t : State} {id : CoreId} {q : Queue} {h : Head} {ents : List (Nat × Nat)} {op : MvOp} {out : MvOut} {c c' d : CoreSt} {α : Type}
  {g : CoreSt → α}

theorem modHead_like (f : Push → Push) : s.Like CoreSt.bare (s.modHead id q f) := State.like_modCore fun _ => CoreSt.setQueue_bare ..

theorem occupy_like (n : Nat) : s.Like g (s.occupy id q n) := by
  cases q <;> exact State.like_of_cores rfl rfl rfl rfl

theorem askWord_like (who uid : Nat) (rd wr : List Region) (m n : Nat) : s.Like g (s.askWord id who uid rd wr m n) := by
  have hask (v : State) (k : Nat) (r : Region) : v.Like g (if r.reg then v else v.askBank id.asid r.l who uid k r.start r.len) := by
    split
    · exact .refl
    · exact State.like_of_cores rfl rfl rfl rfl
  exact (State.Like.foldl (fun v r => hask v m r) rd s).trans (.foldl (fun v r => hask v n r) wr _)

theorem noteStale_like (before : List Stale) (olds : List (Bool × Nat × List Byte)) (atom : Bool) :
    s.Like CoreSt.bare (s.noteStale id before olds atom) := by
  have hbump : s.Like CoreSt.bare s.bump := State.like_of_cores rfl rfl rfl rfl
  unfold State.noteStale
  dsimp only
  split
  · split
    · exact hbump.trans (State.like_modCore fun _ => rfl)
    · exact hbump.trans (State.like_modCore fun _ => rfl)
  · exact State.like_modCore fun _ => rfl

/-- With no watchpoint slot armed no word meets one. -/
theorem engineWatch_like (hwp : ∀ w ∈ (s.core id).wp.toList, w.ctl.getLsbD 0 = false) (ts : Touches) : s.Like g (s.engineWatch id ts) := by
  have hquiet : s.engineWatch id ts = s := by
    simp only [State.engineWatch, CoreSt.watchHit_quiet hwp, List.any_eq_false.mpr fun _ _ => Bool.false_ne_true, Bool.false_and,
      Bool.false_eq_true, if_false]
  rw [hquiet]
  exact .refl

/-- The writes of a word, made one after the other. -/
theorem writes_like (hscratch : (s.modCore id (fun c => c.mapScratch (fun m => out.scrW.foldl (fun m w => m.write w.1 w.2) m))).Like
      CoreSt.bare t) :
    (s.modCore id (fun c => c.written out)).Like CoreSt.bare
      (out.resAt.foldl (fun s a => s.setRes id a) (out.regW.foldl (fun s w => s.writeRegSpace id w.1 w.2) t)) := by
  have hregs := foldl_reg_like (id := id) (f := fun s w => s.writeRegSpace id w.1 w.2) (w := fun m w => m.write w.1 w.2)
    (fun v w => writeRegSpace_like w.1 fun _ => w.2) out.regW t
  have hflags := foldl_reg_like (id := id) (f := fun s a => s.setRes id a)
    (w := fun m a => m.write a (leBytes 16 ((m.readNat a 16 ||| 2 ^ 125) % 2 ^ 127)))
    (fun v a => setRes_like a) out.resAt (out.regW.foldl (fun s w => s.writeRegSpace id w.1 w.2) t)
  have hboth := (hregs.mapReg fun m => out.resAt.foldl _ m).trans hflags
  have hall := hscratch.modCores (id := id) (f := fun c => c.mapReg out.onReg) (k := fun c => c.mapReg out.onReg)
    (congrArg (fun c : CoreSt => c.mapReg out.onReg) (hscratch.core id))
  rw [modCore_two s id (fun c => c.mapScratch _) _ fun _ => rfl] at hall
  exact hall.trans hboth

/-- A word enters those in flight, and its queue moves on. -/
theorem CoreSt.inFlight_bare (hd : d.bare = c.bare) (e : EQueue) (n : Nat) (f : Flight) :
    ({ d.setQueue q e with issueNo := n, flights := d.flights ++ [f] } : CoreSt).bare =
      ({ c with flights := c.flights ++ [f] } : CoreSt).bare := by
  rw [show d.flights = c.flights from (congrArg CoreSt.flights hd :)]
  exact congrArg (fun k : CoreSt => { k with flights := c.flights ++ [f] }) ((d.setQueue_bare q e).trans hd)

/-- A core whose word has run, from one with its writes made. -/
theorem launched_bare (hd : d.bare = (c.written out).bare)
    (hclaims : c.claims (fieldRings h.pw.word) = some (c', ents)) (e : EQueue) (n : Nat) (f : Flight) :
    let b : CoreSt := match d.claims (fieldRings h.pw.word) with
      | some (b, _) => { d with rgp := b.rgp }
      | none => d
    ({ b.setQueue q e with issueNo := n, flights := b.flights ++ [f] } : CoreSt).bare = (c.ran out c'.rgp f).bare := by
  have hrg : d.rg = c.rg := (congrArg CoreSt.rg hd :)
  have hrgp : d.rgp = c.rgp := (congrArg CoreSt.rgp hd :)
  have hclaimed := claims_with_rings c d (fieldRings h.pw.word)
  rw [← hrg, ← hrgp, hclaims] at hclaimed
  rw [show d.claims (fieldRings h.pw.word) = _ from hclaimed]
  have hclaim : ({ d with rgp := c'.rgp } : CoreSt).bare = ({ c.written out with rgp := c'.rgp } : CoreSt).bare :=
    congrArg (fun k : CoreSt => { k with rgp := c'.rgp }) hd
  exact CoreSt.inFlight_bare hclaim e n f

/-- All that a launch changes of its core is that the word has run (spec/08 R173, R175). -/
theorem launchMv_like (hcore : s.hasCore id = true) (hwp : ∀ w ∈ (s.core id).wp.toList, w.ctl.getLsbD 0 = false)
    (hwin : h.push.win = none) (hclaims : (s.core id).claims (fieldRings h.pw.word) = some (c', ents)) :
    (s.modCore id (fun c => c.ran out c'.rgp (s.mvFlight id q h ents op out))).Like CoreSt.bare (s.launchMv id q h ents op out) := by
  obtain ⟨hleft, hscratch⟩ := scratchOn_like (id := id) h.push.seq out.scrW s
  unfold State.launchMv
  rw [hwin]
  generalize s.scratchOn id none h.push.seq out.scrW = r at hleft hscratch
  obtain ⟨t, left⟩ := r
  obtain rfl : left = [] := hleft
  dsimp only at hscratch ⊢
  generalize hW : State.noteStale _ id _ _ false = W
  have hwritten : (s.modCore id (fun c => c.written out)).Like CoreSt.bare W := by
    rw [← hW]; exact (writes_like hscratch).trans (noteStale_like ..)
  have hmoved := hwritten.trans (modHead_like (id := id) (q := q) fun p => p.step h.pw.word)
  have hwp' : ∀ w ∈ ((W.modHead id q (fun p => p.step h.pw.word)).core id).wp.toList, w.ctl.getLsbD 0 = false := by
    rw [show ((W.modHead id q (fun p => p.step h.pw.word)).core id).wp = _ from (congrArg CoreSt.wp (hmoved.core id) :),
      State.core_modCore_self _ hcore]
    exact hwp
  have hready ts who rd wr m n :=
    hmoved.trans ((engineWatch_like hwp' ts).trans (askWord_like (id := id) who (s.core id).issueNo rd wr m n))
  rw [show W.cycle = s.cycle from hwritten.cycle]
  refine .trans (State.Like.modCoreAgain (hready ..) (fun _ => rfl) ?_) (occupy_like _)
  refine launched_bare ?_ hclaims _ 0 (s.mvFlight id q h ents op out)
  exact ((hready ..).core id).trans (congrArg CoreSt.bare (State.core_modCore_eq hcore (s.core_id id)))

/-- The core of a word that has been launched. -/
theorem launchMv_core (hcore : s.hasCore id = true)
    (hlike : (s.modCore id (fun c => c.ran out c'.rgp (s.mvFlight id q h ents op out))).Like CoreSt.bare (s.launchMv id q h ents op out)) :
    ((s.launchMv id q h ents op out).core id).bare = ((s.core id).ran out c'.rgp (s.mvFlight id q h ents op out)).bare :=
  (hlike.core id).trans (congrArg CoreSt.bare (State.core_modCore_eq hcore (s.core_id id)))

end

section
open Laws

/-! ### A word whose data are at fault -/

/-- A core without its number, its rings, its counters and the records that wait for them. -/
def CoreSt.unringed (c : CoreSt) : CoreSt :=
  { c with id := ⟨0, 0⟩, rg := Vector.replicate 16 Desc.zero, rgp := Vector.replicate 16 ⟨0, 0⟩, ctrs := [], waiting := [], ctrRels := [] }

/-- What no engine word changes of its core. -/
def CoreSt.scalars (c : CoreSt) : Vector Word 32 × Vector Word 32 × Word × Vector Desc 16 × Csrs := (c.x, c.f, c.pc, c.vw, c.csr)

/-- The memories of a core. -/
def CoreSt.data (c : CoreSt) : Mem × Mem := (c.reg, c.scratch)

/-- A core whose head word has ended its push. -/
def CoreSt.pushEnded (c : CoreSt) (q : Queue) (h : Head) (cycle : Nat) : CoreSt :=
  let d := c.setQueue q { c.queue q with pushes := modHeadPush (fun p => { p with pos := none, decided := none }) (c.queue q).pushes }
  (d.setQueue q ((d.queue q).ended h.pw.word h.push.came cycle)).prune q

/-- The same core with a trap pending. -/
def CoreSt.wordEnded (c : CoreSt) (q : Queue) (h : Head) (cycle : Nat) (i : TrapInfo) : CoreSt :=
  let d := c.pushEnded q h cycle
  { d with pend := d.pend ++ [i] }

/-- The trap of a word whose data are at fault. -/
def Head.faultInfo (h : Head) (q : Queue) (cause detail : Nat) : TrapInfo :=
  ⟨cause, 0, word (h.where_ + (Queue.code q).toNat * 2 ^ 24), word detail⟩

section
variable {s t : State} {id : CoreId} {q : Queue} {h : Head}

theorem CoreSt.pushEnded_kept (c : CoreSt) (n : Nat) : (c.pushEnded q h n).id = c.id ∧ (c.pushEnded q h n).pend = c.pend := by
  cases q <;> exact ⟨rfl, rfl⟩

theorem CoreSt.setQueue_kept (c : CoreSt) (q : Queue) (e : EQueue) :
    (c.setQueue q e).scalars = c.scalars ∧ (c.setQueue q e).data = c.data := by cases q <;> exact ⟨rfl, rfl⟩

/-- A word that ends changes neither scalars nor data of its core. -/
theorem CoreSt.wordEnded_kept (c : CoreSt) (n : Nat) (i : TrapInfo) : (c.wordEnded q h n i).scalars = c.scalars ∧
    (c.wordEnded q h n i).data = c.data ∧ (c.wordEnded q h n i).pend = c.pend ++ [i] := by
  have hpushes : (c.pushEnded q h n).scalars = c.scalars ∧ (c.pushEnded q h n).data = c.data := by
    simp only [CoreSt.pushEnded, CoreSt.prune, CoreSt.setQueue_kept, and_self]
  exact ⟨hpushes.1, hpushes.2, congrArg (· ++ [i]) (c.pushEnded_kept n).2⟩

theorem CoreSt.unringed_queue (c : CoreSt) : c.unringed.queue q = c.queue q := by cases q <;> rfl

theorem CoreSt.wordEnded_unringed (c : CoreSt) (n : Nat) (i : TrapInfo) :
    (c.wordEnded q h n i).unringed = (c.unringed.wordEnded q h n i).unringed := by cases q <;> rfl

theorem CoreSt.wordEnded_pushes (c : CoreSt) (n : Nat) (i : TrapInfo) : ((c.wordEnded q h n i).queue q).pushes = c.headEnded q := by
  cases q <;> rfl

theorem makeRunnable_like (asid src : Nat) (r : TaskRec) (home : Option Nat) (rels : List Rel) :
    s.Like CoreSt.unringed (s.makeRunnable asid src r home rels) := by
  unfold State.makeRunnable
  dsimp only
  split
  · exact State.like_modDie ..
  · exact State.like_of_cores rfl rfl rfl rfl

theorem increment_like (k n : Nat) (rels : List Rel) : s.Like CoreSt.unringed (s.increment id k n rels) := by
  unfold State.increment
  refine .trans (State.like_modCore ?_) (.foldl (fun _ _ => makeRunnable_like ..) _ _)
  exact fun _ => rfl

theorem pubRing_like (r : Nat) : s.Like CoreSt.unringed (s.pubRing id r) :=
  State.like_modCore fun c => by dsimp only; split <;> rfl

theorem popped_like (ps : List (Nat × Nat)) : s.Like CoreSt.unringed (s.popped id ps) := by
  refine .foldl (fun v r => ?_) ps s
  have hmoved (d : Desc) : v.Like CoreSt.unringed (v.modCore id (fun c => { c with rg := vset c.rg r.1 d })) :=
    State.like_modCore fun _ => rfl
  dsimp only
  split
  · exact .refl
  · split
    · exact (hmoved _).trans (increment_like ..)
    · exact hmoved _

/-- A trap enters a pending queue that has room. -/
theorem pendTrap_room (hpend : (s.core id).pend.length < 64) (i : TrapInfo) :
    s.pendTrap id i = s.modCore id (fun c => { c with pend := c.pend ++ [i] }) := if_neg (Nat.not_le.mpr hpend)

/-- The push of the head word ends, and its trap is pending. -/
theorem pendTrap_ended (hpend : (s.core id).pend.length < 64) (i : TrapInfo) :
    let t := s.modHead id q (fun p => { p with pos := none, decided := none })
    (t.modCore id (fun c => ((c.setQueue q ((c.queue q).ended h.pw.word h.push.came t.cycle)).prune q))).pendTrap id i =
      s.modCore id (fun c => c.wordEnded q h s.cycle i) := by
  intro t
  have hended : t.modCore id (fun c => ((c.setQueue q ((c.queue q).ended h.pw.word h.push.came t.cycle)).prune q)) =
      s.modCore id (fun c => c.pushEnded q h s.cycle) := modCore_two s id _ _ fun c => c.setQueue_id ..
  have hkept (c : CoreSt) : (c.pushEnded q h s.cycle).pend = c.pend := (c.pushEnded_kept ..).2
  rw [hended, pendTrap_room, modCore_two s id _ _ fun c => (c.pushEnded_kept ..).1]
  · rfl
  · rw [State.core_modCore_proj CoreSt.pend hkept]; exact hpend

/-- A word that may not do what it was issued for ends, when its claims can be met and nothing that its pops launch is armed: its rings
move, its push ends and its trap is pending. -/
theorem endWord_like {c' : CoreSt} {ents : List (Nat × Nat)} (hwin : NoWindow s id)
    (hclaims : (s.core id).claims (fieldRings h.pw.word) = some (c', ents))
    (hfree : (s.core id).LaunchFree (wordPops h.pw.word) false) (hpend : (s.core id).pend.length < 64) (i : TrapInfo) :
    ∃ u, s.endWord id q h i = .done u ∧ (s.modCore id (fun c => c.wordEnded q h s.cycle i)).Like CoreSt.unringed u := by
  have hclaimed : NoWindow (s.modCore id (fun c => { c with rgp := c'.rgp })) id := hwin.modCore _ (fun _ => rfl) fun _ => rfl
  have hfree' : ((s.modCore id (fun c => { c with rgp := c'.rgp })).core id).LaunchFree (wordPops h.pw.word) false := by
    rw [State.core_modCore_self _ hwin.core]; exact hfree
  obtain ⟨hsettle, -, -⟩ := settleRings_done hclaimed hfree'
  have hrings : s.Like CoreSt.unringed _ := .trans (State.like_modCore (id := id) (f := fun c => { c with rgp := c'.rgp }) fun _ => rfl)
    (.trans (.foldl (fun v (r : Nat × Nat × Bool) => pubRing_like (id := id) r.2.1) ((fieldRings h.pw.word).filter (fun r => r.2.2)) _)
      (popped_like (id := id) (wordPops h.pw.word)))
  simp only [State.endWord, inputRoom_noWindow hwin, hclaims, hsettle]
  generalize State.popped _ id (wordPops h.pw.word) = t at hrings ⊢
  refine ⟨_, rfl, ?_⟩
  have hpend' : (t.core id).pend.length < 64 := by rw [show (t.core id).pend = _ from (congrArg CoreSt.pend (hrings.core id) :)]; exact hpend
  rw [pendTrap_ended hpend', hrings.cycle]
  refine hrings.modCores ?_
  have hcore : (t.core id).unringed = (s.core id).unringed := hrings.core id
  exact (CoreSt.wordEnded_unringed ..).trans ((congrArg (fun k : CoreSt => (k.wordEnded q h s.cycle i).unringed) hcore).trans
    (CoreSt.wordEnded_unringed ..).symm)

/-- The fault of a word's data ends its push and is held pending with the word (spec/08 R183). -/
theorem faultWord_like {c' : CoreSt} {ents : List (Nat × Nat)} (hwin : NoWindow s id)
    (hclaims : (s.core id).claims (fieldRings h.pw.word) = some (c', ents))
    (hfree : (s.core id).LaunchFree (wordPops h.pw.word) false) (hpend : (s.core id).pend.length < 64) (cause detail : Nat) :
    (s.modCore id (fun c => c.wordEnded q h s.cycle (h.faultInfo q cause detail))).Like CoreSt.unringed
      (s.faultWord id q h cause detail).state := by
  obtain ⟨u, hended, hlike⟩ := endWord_like (q := q) hwin hclaims hfree hpend (h.faultInfo q cause detail)
  rw [show s.faultWord id q h cause detail = .done u from hended]
  exact hlike

/-- The core of a word whose data were at fault: its data stand, its push has ended, its trap is pending. -/
theorem faultWord_core {cause detail : Nat} (hcore : s.hasCore id = true)
    (hlike : (s.modCore id (fun c => c.wordEnded q h s.cycle (h.faultInfo q cause detail))).Like CoreSt.unringed t) :
    (t.core id).reg = (s.core id).reg ∧ (t.core id).scratch = (s.core id).scratch ∧
      ((t.core id).queue q).pushes = (s.core id).headEnded q ∧ (t.core id).pend = (s.core id).pend ++ [h.faultInfo q cause detail] := by
  have hended : (t.core id).unringed = ((s.core id).wordEnded q h s.cycle (h.faultInfo q cause detail)).unringed :=
    (hlike.core id).trans (congrArg CoreSt.unringed
      (State.core_modCore_eq hcore (((s.core id).pushEnded_kept ..).1.trans (s.core_id id))))
  obtain ⟨-, hdata, hpend⟩ := (s.core id).wordEnded_kept (q := q) (h := h) s.cycle (h.faultInfo q cause detail)
  refine ⟨?_, ?_, ?_, ?_⟩
  · exact (congrArg CoreSt.reg hended :).trans (congrArg Prod.fst hdata :)
  · exact (congrArg CoreSt.scratch hended :).trans (congrArg Prod.snd hdata :)
  · rw [← CoreSt.unringed_queue, hended, CoreSt.unringed_queue, CoreSt.wordEnded_pushes]
  · exact (congrArg CoreSt.pend hended :).trans hpend

end

/-! ### The word at the head starts -/

section
variable {s t u : State} {id : CoreId} {q : Queue} {h : Head} {w : CmdWord} {ents : List (Nat × Nat)} {op : MvOp} {α : Type}
  {g : CoreSt → α}

theorem CoreSt.decideHead_bare (c : CoreSt) (n : Nat) : (c.decideHead n q).bare = c.bare := by
  unfold CoreSt.decideHead
  split
  · rfl
  · split
    · exact CoreSt.setQueue_bare ..
    · rfl

/-- Deciding guards changes queues alone. -/
theorem decideHeads_like : s.Like CoreSt.bare (s.decideHeads id) ∧ (s.decideHeads id).cur = s.cur := by
  unfold State.decideHeads
  split
  · refine ⟨State.like_modCore fun c => ?_, rfl⟩
    show (CoreSt.decideHead (CoreSt.decideHead (CoreSt.decideHead (c.decideHead _ _) _ _) _ _) _ _).bare = c.bare
    simp only [CoreSt.decideHead_bare]
  · exact ⟨.refl, rfl⟩

/-- A unit is taken by its lease alone. -/
theorem takeUnit_dies (h : s.takeUnit id q = some t) : ∃ ds, t = { s with dies := ds } := by
  unfold State.takeUnit State.takeLease at h
  dsimp only at h
  split at h
  · split at h
    · split at h
      · exact ⟨_, (Option.some.inj h).symm⟩
      · split at h
        · exact ⟨_, (Option.some.inj h).symm⟩
        · exact nomatch h
    · exact nomatch h
  · split at h
    · exact ⟨_, (Option.some.inj h).symm⟩
    · exact nomatch h
  · exact ⟨_, (Option.some.inj h).symm⟩

/-- A matrix or vector word is issued from the head of its queue. -/
theorem exec_mvWord {i : Instr} (hop : mvOpOf i = some (q, op)) (hw : encodeWord i = some w) : exec i s = .next (s.issueMv q w op) := by
  have hrun : exec i s = runMv q i op s := by
    unfold mvOpOf at hop
    split at hop <;> cases hop <;> rfl
  rw [hrun, runMv, hw]

/-- Where every word before it is done, a word sees memory as it stands. -/
theorem seenMem_done {reg : Bool} {m : Mem} {late : Flight → Bool} {fs : List Flight} (hdone : ∀ f ∈ fs, late f = false) (rd : List Region)
    (k : Nat) : seenMem reg m late fs rd k = (m, k) := by
  have hfs : fs.filter late = [] := List.filter_eq_nil_iff.mpr fun f hf => by rw [hdone f hf]; exact Bool.false_ne_true
  simp only [seenMem, hfs, List.flatMap_nil, List.dedup_nil, List.filter_nil, List.foldl_nil]

theorem depLat_le (acc : Bool) (n : Nat) (fwd : Bool) : depLat acc n fwd ≤ n := by
  unfold depLat
  split
  · exact Nat.zero_le n
  · exact Nat.le_refl n

/-- With nothing poisoned no word meets poison. -/
theorem poisonMet_none (hp : s.poison = []) (rd wr : List Region) : s.poisonMet id rd wr = none := by
  simp [State.poisonMet, poisonAt_none hp, hp]

/-- The word that `State.MvStarts` names starts on its unit. -/
theorem issueMv_starts (hs : (s.decideHeads s.cur).MvStarts q w h ents) :
    ∃ ds, s.issueMv q w op = ({ s.decideHeads s.cur with dies := ds } : State).startMv s.cur q h ents op := by
  have hcur : (s.decideHeads s.cur).cur = s.cur := decideHeads_like.2
  obtain ⟨hclear, hhead, hword, hready, hunit, hrings, -, -, -⟩ := hs
  rw [hcur] at hclear hhead hready hunit hrings
  obtain ⟨t, ht⟩ := Option.isSome_iff_exists.mp hunit
  obtain ⟨⟨c', es⟩, hclaims, rfl⟩ := Option.map_eq_some_iff.mp hrings
  obtain ⟨ds, rfl⟩ := takeUnit_dies ht
  refine ⟨ds, ?_⟩
  unfold State.issueMv
  dsimp only
  simp only [hhead, hword, hready, hclaims, ht, blocksIn_clear hclear.spill, bne_self_eq_false, Bool.not_true, Bool.or_self,
    Bool.false_eq_true, if_false, List.all_eq_true.mpr fun _ _ => rfl, if_true]

/-- A word that starts runs its command, on memory as it stands. -/
theorem startMv_runs (hid : s.cur = id) (hinjected : s.mgmt.injected = []) (hpoison : s.poison = [])
    (hdone : ∀ f ∈ (s.core id).flights, f.q = q → f.occEnd ≤ f.retireAt ∧ f.retireAt ≤ s.cycle)
    (hearly : (s.core id).checks q = true → ((s.core id).queue q).shortfall h.pw.word
      (h.pw.reads ++ h.pw.entryRegions id.l ents false) h.pw.accReads h.push.came = 0) :
    let v : State := { s with fresh := s.fresh + splitRoom }
    ((s.mvOut op h ents).fault = none → s.startMv id q h ents op = v.launchMv id q h ents op (s.mvOut op h ents)) ∧
    (∀ cause detail, (s.mvOut op h ents).fault = some (cause, detail) →
      s.startMv id q h ents op = (v.faultWord id q h cause detail).state) := by
  subst hid
  have hshort : ((s.core s.cur).checks q && ((s.core s.cur).queue q).shortfall h.pw.word
      (h.pw.reads ++ h.pw.entryRegions s.cur.l ents false) h.pw.accReads h.push.came != 0) = false := by
    cases hchecks : (s.core s.cur).checks q with
    | false => rfl
    | true => rw [hearly hchecks]; rfl
  have hlate (fwd : Bool) (f : Flight) (hf : f ∈ ((s.core s.cur).flights.filter (fun f => f.q == q)).reverse) :
      decide (s.cycle < f.occEnd + depLat f.acc (f.retireAt - f.occEnd) fwd) = false := by
    obtain ⟨hmem, hq⟩ := List.mem_filter.mp (List.mem_reverse.mp hf)
    obtain ⟨hocc, hretired⟩ := hdone f hmem (beq_iff_eq.mp hq)
    have hlat := depLat_le f.acc (f.retireAt - f.occEnd) fwd
    exact decide_eq_false (by omega)
  have hdamage (rd : List Region) : rd.flatMap (fun r => s.damageAt s.cur r.place r.len) = [] :=
    List.flatMap_eq_nil_iff.mpr fun r _ => damageAt_none hinjected ..
  refine ⟨fun hfault => ?_, fun cause detail hfault => ?_⟩
  all_goals
    unfold State.mvOut at hfault
    simp only [State.startMv, State.mvOut, hshort, Bool.false_eq_true, if_false, hdamage, List.dedup_nil, State.consume, poisonMet_none hpoison,
      seenMem_done (hlate _), hfault]

/-- What a word that changes its core by `f` leaves alone, after the guards were decided. -/
theorem leaves_alone {f : CoreSt → CoreSt} (hdecided : s.Like CoreSt.data t) (hu : (t.modCore id f).Like g u)
    (hg : ∀ c d, g c = g d → c.scalars = d.scalars ∧ c.data = d.data) (hf : ∀ c, (f c).scalars = c.scalars) :
    u.hbm = s.hbm ∧ u.host = s.host ∧ u.cycle = s.cycle ∧ (u.core id).x = (t.core id).x ∧ (u.core id).f = (t.core id).f ∧
      (u.core id).pc = (t.core id).pc ∧ (u.core id).vw = (t.core id).vw ∧ (u.core id).csr = (t.core id).csr ∧
      ∀ j, j ≠ id → (u.core j).reg = (s.core j).reg ∧ (u.core j).scratch = (s.core j).scratch := by
  have hown : (u.core id).scalars = (t.core id).scalars :=
    ((State.like_modCore (g := CoreSt.scalars) hf).trans (hu.weaken fun c d h => (hg c d h).1)).core id
  have hother (j : CoreId) (hj : j ≠ id) : (u.core j).data = (s.core j).data := by
    rw [(hg _ _ (hu.core j)).2, State.core_modCore_ne _ hj]; exact hdecided.core j
  simp only [CoreSt.scalars, Prod.mk.injEq] at hown
  obtain ⟨hx, hf, hpc, hvw, hcsr⟩ := hown
  exact ⟨hu.hbm.trans hdecided.hbm, hu.host.trans hdecided.host, hu.cycle.trans hdecided.cycle, hx, hf, hpc, hvw, hcsr,
    fun j hj => Prod.mk.inj (hother j hj)⟩

end
end

/-- Settles O32: the word issues with its flight, or its push ends with the fault. -/
theorem matrixVectorResult : Obligations.MatrixVectorResult := by
  intro s i q op w h ents hop hw hs s0 c out same
  have hcur : s0.cur = s.cur := decideHeads_like.2
  have hdecided : s.Like CoreSt.data s0 := decideHeads_like.1.weaken fun _ _ hbare => (congrArg CoreSt.data hbare :)
  obtain ⟨ds, hissue⟩ := issueMv_starts (op := op) hs
  obtain ⟨hclear, -, hword, -, -, hrings, hdone, hearly, hwin⟩ := hs
  rw [hcur] at hclear hrings hdone hearly
  obtain ⟨⟨c', es⟩, hclaims, rfl⟩ := Option.map_eq_some_iff.mp hrings
  subst hword
  obtain ⟨hruns, hfaults⟩ := startMv_runs (s := { s0 with dies := ds }) (op := op) (ents := es) hcur hclear.damage hclear.poison hdone hearly
  let v : State := { s0 with dies := ds, fresh := s0.fresh + splitRoom }
  have hv : s.Like CoreSt.data v := hdecided.trans (State.like_of_cores rfl rfl rfl rfl)
  refine ⟨fun hnone => ?runs, fun cause detail hfault hpend hfree => ?faults⟩
  case runs =>
    have hlike := launchMv_like (s := v) (q := q) (op := op) (out := out) hclear.core hclear.wp hwin hclaims
    have hran := launchMv_core (s := v) hclear.core hlike
    have halone := leaves_alone (t := v) hv hlike (fun _ _ hb => ⟨(congrArg CoreSt.scalars hb :), (congrArg CoreSt.data hb :)⟩) fun _ => rfl
    refine ⟨_, v.mvFlight s.cur q h es op out, (exec_mvWord hop hw).trans (congrArg _ (hissue.trans (hruns hnone))), halone,
      (congrArg CoreSt.reg hran :), (congrArg CoreSt.scratch hran :), fun k es' hk => ?_, (congrArg CoreSt.flights hran :),
      rfl, rfl, rfl, rfl, rfl, ?_, rfl⟩
    · obtain ⟨rfl, -⟩ := Prod.mk.inj (Option.some.inj (hclaims.symm.trans hk))
      exact (congrArg CoreSt.rgp hran :)
    · exact congrArg (· + (if c.checks q then 1 else 0) + op.time h.pw) hv.cycle
  case faults =>
    have hlike := faultWord_like (s := v) (q := q) ⟨hclear.core, hclear.win, hclear.replay⟩ hclaims hfree hpend cause detail
    have halone := leaves_alone (t := v) hv hlike (fun _ _ hb => ⟨(congrArg CoreSt.scalars hb :), (congrArg CoreSt.data hb :)⟩)
      fun k => (k.wordEnded_kept ..).1
    exact ⟨_, (exec_mvWord hop hw).trans (congrArg _ (hissue.trans (hfaults cause detail hfault))), halone,
      faultWord_core (s := v) hclear.core hlike⟩

end Sys2Proof.Machine
end

section
/-! Loads, acquire loads, stores, release stores and `redadd` of a core with nothing on its way (spec/09 R211, R212, R218, spec/10 R245,
spec/14 R328). -/

namespace Sys2Proof.Machine

variable {s : State} {p : Place}

/-! ### Loads -/

theorem CoreSt.loaded_id (c : CoreSt) (op : LoadOp) (rd : Reg) (v : Nat) : (c.loaded op rd v).id = c.id := by
  cases op <;> simp [CoreSt.loaded]

/-- The destination of a load is written by the size and the kind of the load. -/
theorem loadPut_apply (op : LoadOp) (rd : Reg) (v : Nat) (s : State) :
    loadPut op rd v s = .ok ((), s.modCore s.cur (fun c => c.loaded op rd v)) := by
  cases op <;> rfl

theorem exec_load_open (hq : s.Quiet) {op : LoadOp} {rd rs1 : Reg} {imm : BitVec 12}
    (ha : ((s.core s.cur).ea rs1 imm).toNat % loadBytes op = 0)
    (hr : s.resolve s.cur (s.core s.cur).runtime ((s.core s.cur).ea rs1 imm) (loadBytes op) .load = .ok p)
    (ho : s.Open p (loadBytes op)) :
    exec (.load op rd rs1 imm) s =
      .next ((s.reading p (loadBytes op)).retiring (fun x => (x.loaded op rd (leNat (s.peek p (loadBytes op)))).after)) := by
  refine (runScalar_ok hq.core ?_).trans (congrArg _ (retire_advance _ _ fun c => c.loaded_id ..))
  rw [M.bind_me, M.bind_ok (aligned_ok ha s), M.bind_ok (loadM_quiet hq _ hr ho), M.bind_ok (loadPut_apply ..)]
  rfl

theorem exec_lda_open (hq : s.Quiet) {sz : Size} {sc : Scope} {rd rs1 : Reg} {off : BitVec 7} {va : Word}
    (hva : va = (s.core s.cur).rx rs1 + off.signExtend 64) (ha : va.toNat % Size.bytes sz = 0)
    (hr : s.resolve s.cur (s.core s.cur).runtime va (Size.bytes sz) .load = .ok p) (ho : s.Open p (Size.bytes sz)) :
    exec (.lda sz sc rd rs1 off) s = .next ((s.reading p (Size.bytes sz)).retiring
      (fun x => (x.wx rd (sextNat (8 * Size.bytes sz) (leNat (s.peek p (Size.bytes sz))))).after)) := by
  subst hva
  refine (runScalar_ok hq.core ?_).trans (congrArg _ (retire_advance _ _ fun c => c.wx_id ..))
  rw [M.bind_me, M.bind_ok (aligned_ok ha s), M.bind_ok (loadM_quiet hq sc hr ho),
    M.bind_ok (acquire_same hq.toStill (reading_cores ho).1 sc)]
  rfl

/-- Settles O4: both loads read at their place by `loadM_quiet`; what an acquire load acquires was acquired already. -/
theorem loadResult : Obligations.LoadResult := by
  intro s op sz sc rd rs1 imm off p hq c va vb
  exact ⟨fun ha hr ho => exec_load_open hq ha hr ho, fun ha hr ho => exec_lda_open hq rfl ha hr ho⟩

/-! ### Stores -/

/-- A store of a core with nothing on its way takes its place in the store buffer. -/
theorem storeM_quiet (h : s.Still) {va : Word} {n : Nat} (v : Nat) (sc : Scope)
    (hr : s.resolve s.cur (s.core s.cur).runtime va n .store = .ok p) :
    storeM va n v sc s = .ok ((), s.modCore s.cur (fun x => x.buffering ((s.core s.cur).entry p n v .store va sc))) := by
  unfold storeM
  rw [M.bind_ok (watch_quiet h ..), M.bind_ok (walkM_none h.damage va), M.bind_get, hr]
  exact bufferM_quiet h va n v .store p sc

/-- A place that takes a `redadd` is not refused. -/
theorem redTarget_plain (hp : p.plain = true) : redTarget (.ok p) = .ok p := by
  cases p with
  | scratch | hbm => rfl
  | reg | hostBulk | hostCoh | dev => cases hp

theorem redaddM_quiet (h : s.Still) {va : Word} {n : Nat} (v : Nat) (k : WriteKind) (hp : p.plain = true) (ha : va.toNat % n = 0)
    (hr : s.resolve s.cur (s.core s.cur).runtime va n .store = .ok p) :
    redaddM va n v k s = .ok ((), s.modCore s.cur (fun x => x.buffering ((s.core s.cur).entry p n v k va))) := by
  unfold redaddM
  rw [M.bind_ok (aligned_ok ha s), M.bind_ok (watch_quiet h ..), M.bind_ok (walkM_none h.damage va), M.bind_get, hr,
    redTarget_plain hp, ← bufferM_quiet h va n v k p]
  cases p with
  | scratch | hbm => rfl
  | reg | hostBulk | hostCoh | dev => cases hp

/-- How an instruction ends whose only effect is a write in the store buffer. -/
theorem retire_buffering (s : State) (e : BufWrite) :
    ((s.modCore s.cur (fun x => x.buffering e)).modCore s.cur (fun c => { c with pc := c.pc + 4 })).retire =
      s.retiring (fun x => (x.buffering e).after) :=
  retire_advance s _ fun _ => rfl

theorem exec_store_resolved (h : s.Still) {op : StoreOp} {rs1 rs2 : Reg} {imm : BitVec 12} {va : Word}
    (hva : va = (s.core s.cur).ea rs1 imm) (ha : va.toNat % storeBytes op = 0)
    (hr : s.resolve s.cur (s.core s.cur).runtime va (storeBytes op) .store = .ok p) :
    exec (.store op rs1 rs2 imm) s = .next (s.retiring (fun x => (x.buffering ((s.core s.cur).entry p (storeBytes op)
      (storeData op (s.core s.cur) rs2).toNat .store va (s.core s.cur).scope)).after)) := by
  subst hva
  refine (runScalar_ok h.core ?_).trans (congrArg _ (retire_buffering s _))
  rw [M.bind_me, M.bind_ok (aligned_ok ha s)]
  have hbuffered := M.bind_ok (k := fun _ => advance)
    (storeM_quiet h (storeData op (s.core s.cur) rs2).toNat (s.core s.cur).scope hr)
  split
  · rw [M.bind_ok (release_quiet h _)]; exact hbuffered
  · exact hbuffered

theorem exec_stl_resolved (h : s.Still) {sz : Size} {sc : Scope} {rs1 rs2 : Reg} {off : BitVec 7} {va : Word}
    (hva : va = (s.core s.cur).rx rs1 + off.signExtend 64) (ha : va.toNat % Size.bytes sz = 0)
    (hr : s.resolve s.cur (s.core s.cur).runtime va (Size.bytes sz) .store = .ok p) :
    exec (.stl sz sc rs1 rs2 off) s = .next (s.retiring (fun x => (x.buffering ((s.core s.cur).entry p (Size.bytes sz)
      ((s.core s.cur).rx rs2).toNat .store va sc)).after)) := by
  subst hva
  refine (runScalar_ok h.core ?_).trans (congrArg _ (retire_buffering s _))
  rw [M.bind_me, M.bind_ok (aligned_ok ha s), M.bind_ok (release_quiet h sc), M.bind_ok (storeM_quiet h _ sc hr)]
  rfl

/-- A `redadd` by the size, the value and the kind of its form. -/
theorem runScalar_redadd (h : s.Still) {i : Instr} {rs1 : Reg} {n : Nat} {v : CoreSt → Nat} {k : WriteKind} (hp : p.plain = true)
    (ha : ((s.core s.cur).rx rs1).toNat % n = 0)
    (hr : s.resolve s.cur (s.core s.cur).runtime ((s.core s.cur).rx rs1) n .store = .ok p) :
    runScalar (parcelOf i) (do let c ← me; redaddM (c.rx rs1) n (v c) k; advance) s = .next (s.retiring (fun x =>
      (x.buffering ((s.core s.cur).entry p n (v (s.core s.cur)) k ((s.core s.cur).rx rs1))).after)) := by
  refine (runScalar_ok h.core ?_).trans (congrArg _ (retire_buffering s _))
  rw [M.bind_me, M.bind_ok (redaddM_quiet h _ k hp ha hr)]
  rfl

/-- An entry keeps of its value the bytes that it writes. -/
theorem CoreSt.entry_mod (c : CoreSt) (p : Place) (n v : Nat) (k : WriteKind) (va : Word) :
    c.entry p n (v % 256 ^ n) k va = c.entry p n v k va := by simp [CoreSt.entry]

/-- Settles O5: each form enters its write by `bufferM_quiet`; its release finds the buffer empty. -/
theorem storeBuffered : Obligations.StoreBuffered := by
  intro s op sz sc rs1 rs2 imm off p hq c va vb vr into
  have h := hq.toStill
  refine ⟨fun ha hr => exec_store_resolved h rfl ha hr, fun ha hr => exec_stl_resolved h rfl ha hr, fun hp ha hr => ⟨?_, ?_⟩,
    fun hp ha hr => runScalar_redadd h (v := fun c => (c.rx rs2).toNat) hp ha hr⟩
  · have hsum := runScalar_redadd h (i := .redaddW rs1 rs2) (v := fun c => (c.rx rs2).toNat % 256 ^ 4) (k := .addW) hp ha hr
    simp only [CoreSt.entry_mod] at hsum
    exact hsum
  · exact runScalar_redadd h (v := fun c => unbox .s (c.rf rs2)) hp ha hr

end Sys2Proof.Machine
end

section
/-! `sig` and the increments of counters (spec/09 R227, spec/11 R265, R270). -/

namespace Sys2Proof.Machine

variable {s : State}

/-! ### Counters -/

/-- A table with rising keys reads 0 below its first key. -/
theorem tabGet_eq_zero {t : List (Nat × Nat)} {i : Nat} (h : ∀ p ∈ t, i < p.1) : tabGet t i = 0 := by
  induction t with
  | nil => rfl
  | cons p t ih =>
    obtain ⟨hp, ht⟩ := List.forall_mem_cons.mp h
    rw [tabGet, if_neg (Nat.ne_of_gt hp), ih ht]

/-- A key of a table reads what it was set to, the others what they read before. -/
theorem tabGet_tabSet {t : List (Nat × Nat)} (h : tabOk t) (i j v : Nat) :
    tabGet (tabSet t i v) j = if j = i then v else tabGet t j := by
  induction t with
  | nil =>
    unfold tabSet
    split <;> simp_all [tabGet, eq_comm]
  | cons p t ih =>
    obtain ⟨k, w⟩ := p
    obtain ⟨hk, ht⟩ := List.pairwise_cons.mp h
    unfold tabSet
    split
    · next hlt =>
      have habsent : tabGet ((k, w) :: t) i = 0 :=
        tabGet_eq_zero (List.forall_mem_cons.mpr ⟨hlt, fun q hq => Nat.lt_trans hlt (hk q hq)⟩)
      split
      · split <;> simp_all
      · simp only [tabGet, eq_comm]
    · split
      · subst i
        have habsent : tabGet t k = 0 := tabGet_eq_zero hk
        split
        · by_cases hj : j = k <;> simp_all [tabGet, eq_comm]
        · by_cases hj : j = k <;> simp_all [tabGet, eq_comm]
      · next hne =>
        simp only [tabGet, ih ht]
        by_cases hj : j = i
        · rw [if_pos hj, if_pos hj, if_neg fun h : k = j => hne (hj.symm.trans h.symm)]
        · rw [if_neg hj, if_neg hj]

theorem CoreSt.ctr_setCtr {c : CoreSt} (h : tabOk c.ctrs) (i j v : Nat) : (c.setCtr i v).ctr j = if j = i then v else c.ctr j :=
  tabGet_tabSet h i j v

/-! ### Increments (R265) -/

/-- Launching one record after the other, with what was launched and kept before. -/
theorem foldl_launchStep (k : Nat) (ws : List Armed) (v : Nat) (ls ks : List Armed) :
    ws.foldl (launchStep k) (v, ls, ks) =
      ((launchArmed v k ws).1, ls ++ (launchArmed v k ws).2.1, ks ++ (launchArmed v k ws).2.2) := by
  induction ws generalizing v ls ks with
  | nil => simp [launchArmed]
  | cons w ws ih =>
    rw [List.foldl_cons]
    by_cases hw : w.ctr = k ∧ w.th ≤ v
    · rw [show launchStep k (v, ls, ks) w = (v - w.th, ls ++ [w], ks) from if_pos hw, ih]
      simp [launchArmed, hw]
    · rw [show launchStep k (v, ls, ks) w = (v, ls, ks ++ [w]) from if_neg hw, ih]
      simp [launchArmed, hw]

theorem makeRunnable_cores (s : State) (asid src : Nat) (r : TaskRec) (home : Option Nat) (rels : List Rel) :
    (s.makeRunnable asid src r home rels).cores = s.cores ∧ (s.makeRunnable asid src r home rels).ctxs = s.ctxs := by
  unfold State.makeRunnable
  dsimp only
  split <;> exact ⟨rfl, rfl⟩

/-- The records that an increment launches, each from the die that the core stands on. -/
theorem foldl_makeRunnable (id : CoreId) (carried : List Rel) (ls : List Armed) {d : Nat} (hd : s.dieOf id = d) :
    ls.foldl (fun u w => u.makeRunnable id.asid (u.dieOf id) w.rec_ none (w.rels ++ carried)) s =
      ls.foldl (fun u w => u.makeRunnable id.asid d w.rec_ none (w.rels ++ carried)) s := by
  induction ls generalizing s with
  | nil => rfl
  | cons w ls ih =>
    simp only [List.foldl_cons, hd]
    refine ih ?_
    simpa [State.dieOf, State.ctx, State.ctx?, (makeRunnable_cores ..).2] using hd

theorem foldl_makeRunnable_cores (asid d : Nat) (carried : List Rel) (ls : List Armed) (s : State) :
    (ls.foldl (fun u w => u.makeRunnable asid d w.rec_ none (w.rels ++ carried)) s).cores = s.cores := by
  induction ls generalizing s with
  | nil => rfl
  | cons w ls ih => exact (ih _).trans (makeRunnable_cores ..).1

/-- An increment that carries no release: the counter and the waiting table first, then the records launched. -/
theorem increment_eq (id : CoreId) (k n : Nat) :
    let r := (s.core id).waiting.foldl (launchStep k) (min ((s.core id).ctr k + n) 0xFFFFFFFF, [], [])
    s.increment id k n =
      r.2.1.foldl (fun u w => u.makeRunnable id.asid (s.dieOf id) w.rec_ none (w.rels ++ (s.core id).ctrCarried k))
        (s.modCore id (fun x => { (x.setCtr k r.1) with waiting := r.2.2 })) := by
  rw [foldl_launchStep]
  exact foldl_makeRunnable id _ _ rfl

/-! ### `sig` (R270) -/

/-- The machine in which the current core has taken a request number. -/
def State.requested (s : State) : State := s.modCore s.cur (fun x => { x with reqSeq := x.reqSeq + 1 })

/-- How an instruction ends that posts an increment. -/
theorem retire_posted (s : State) (dst ctr amount : Nat) (remote : Bool) :
    ((s.postIncr s.cur dst ctr amount remote).modCore s.cur (fun c => { c with pc := c.pc + 4 })).retire =
      (s.postIncr s.cur dst ctr amount remote).retiring CoreSt.after :=
  retire_advance_only (s.postIncr s.cur dst ctr amount remote)

theorem exec_sig_posts (h : s.Still) {rs1 rs2 : Reg} (ht : bits ((s.core s.cur).rx rs1) 63 36 = 0)
    (hv : bits ((s.core s.cur).rx rs2) 63 32 = 0) (hdst : bits ((s.core s.cur).rx rs1) 23 0 < (s.ctx s.cur.asid).n) :
    exec (.sig rs1 rs2) s = .next ((s.requested.postIncr s.cur (bits ((s.core s.cur).rx rs1) 23 0)
      (bits ((s.core s.cur).rx rs1) 35 24) ((s.core s.cur).rx rs2).toNat true).retiring CoreSt.after) := by
  refine (runScalar_ok h.core ?_).trans (congrArg _ (retire_posted s.requested _ _ _ _))
  simp only [M.bind_rxM, M.bind_myCtx, M.bind_myId, ht, hv, ne_eq, not_true_eq_false, or_self, if_false, ge_iff_le,
    Nat.not_le.mpr hdst, M.bind_ok (rqRoom_quiet h), M.bind_ok (releaseFor_quiet h _)]
  rfl

/-- Settles O12: `sig` by what its checks let it post; an increment by `increment_eq`, which leaves the other counters. -/
theorem sigIncrement : Obligations.SigIncrement := by
  constructor
  · intro s rs1 rs2 hq c t v ht hv hdst
    exact exec_sig_posts hq.toStill ht hv hdst
  · intro s id k n hc htab c r t
    have heq : t = _ := increment_eq id k n
    have hcore : t.core id = { (c.setCtr k r.1) with waiting := r.2.2 } := by
      rw [heq, State.core_of_cores (foldl_makeRunnable_cores ..)]
      exact State.core_modCore_eq hc (State.core_id s id)
    have hctr (j : Nat) : (t.core id).ctr j = if j = k then r.1 else c.ctr j := by
      rw [hcore]; exact CoreSt.ctr_setCtr htab k j r.1
    exact ⟨(hctr k).trans (if_pos rfl), congrArg CoreSt.waiting hcore, fun j hj => (hctr j).trans (if_neg hj), heq⟩

end Sys2Proof.Machine
end

section
/-! Fences (spec/03 R73, spec/09 R213, R215, spec/10 R245, R249, R251, R255): what leaves the store buffer, what the edge queue of the die
performs, and how each fence ends once that is done. -/

namespace Sys2Proof.Machine

variable {s t u v : State}

/-! ### A die with nothing on its way -/

/-- Nothing in the current core's die waits for its memory, no unit is poisoned, and nothing turns on what is visible to whom. -/
structure State.DieIdle (s : State) : Prop where
  core    : s.hasCore s.cur = true
  edge    : (s.die (s.dieOf s.cur)).edge = []
  shadow  : (s.die (s.dieOf s.cur)).shadow = []
  poison  : s.poison = []
  watched : s.watched = false

theorem State.Still.dieIdle (h : s.Still) : s.DieIdle := ⟨h.core, h.edge, h.shadow, h.poison, h.watched⟩

theorem watched_of_modCore {id : CoreId} {f : CoreSt → CoreSt} (hf : ∀ c, (f c).early = c.early ∧ (f c).fits = c.fits)
    (h : (s.modCore id f).watched = false) : s.watched = false := by
  unfold State.watched at h ⊢
  rw [List.any_eq_false] at h ⊢
  intro c hc
  have hchanged := h _ (List.mem_map_of_mem hc)
  by_cases he : c.id = id
  · simpa [he, hf c] using hchanged
  · simpa [he] using hchanged

/-- The store buffer of the core has no part in what its die has to do. -/
theorem dieIdle_of_emptied (h : (s.modCore s.cur (fun c => { c with sb := [] })).Still) : s.DieIdle :=
  ⟨by simpa using h.core, h.edge, h.shadow, h.poison, watched_of_modCore (f := fun c => { c with sb := [] }) (fun _ => ⟨rfl, rfl⟩) h.watched⟩

theorem State.DieIdle.mergeOf (h : s.DieIdle) : s.mergeOf s.cur = .done s := by simp [State.mergeOf, h.shadow, State.mergeAll]

theorem State.DieIdle.edgeM (h : s.DieIdle) (p : BufWrite → Bool) : edgeM p s = .ok ((), s) := by
  simp [Machine.edgeM, tryM, h.edge, State.edgeWhere]

/-! ### How a fence ends -/

/-- The store buffer of the current core empties into `t`, and what then waits in the edge queue of its die is performed at memory,
which leaves `u`. -/
structure State.Performs (s t u : State) : Prop where
  core    : s.hasCore s.cur = true
  drained : drainM s = .ok ((), t)
  merged  : t.mergeOf t.cur = .done t
  all     : edgeM (fun _ => true) t = .ok ((), u)
  own     : edgeM (fun w => w.asid == t.cur.asid && w.l == t.cur.l) t = .ok ((), u)
  watched : u.watched = false

theorem performs_idle (hc : s.hasCore s.cur = true) (hd : drainM s = .ok ((), t)) (h : t.DieIdle) : s.Performs t t :=
  ⟨hc, hd, h.mergeOf, h.edgeM _, h.edgeM _, h.watched⟩

theorem wide_iff (sc : Scope) : wide sc = true ↔ sc = .pkg ∨ sc = .sys := by simp [wide]

/-- Within the die a release waits for no more than its store buffer. -/
theorem release_near (hd : drainM s = .ok ((), t)) (hw : t.watched = false) {sc : Scope} (hsc : wide sc = false) :
    release sc s = .ok ((), t) := by
  rw [release, M.bind_ok hd, if_neg (by rw [← wide_iff, hsc]; exact Bool.false_ne_true)]
  exact congrArg (fun v => Except.ok ((), v)) (released_unwatched hw _ _)

/-- Beyond the die a release waits for the memories. -/
theorem release_far (h : s.Performs t u) {sc : Scope} (hsc : wide sc = true) : release sc s = .ok ((), u) := by
  have hmerge : tryM (fun s => s.mergeOf s.cur) t = .ok ((), t) := by simp only [tryM, h.merged]
  rw [release, M.bind_ok h.drained, if_pos ((wide_iff sc).mp hsc), M.bind_ok hmerge, M.bind_ok h.all]
  exact congrArg (fun v => Except.ok ((), v)) (released_unwatched h.watched _ _)

theorem release_idle (hc : s.hasCore s.cur = true) (hd : drainM s = .ok ((), t)) (h : t.DieIdle) (sc : Scope) :
    release sc s = .ok ((), t) := by
  cases hsc : wide sc with
  | false => exact release_near hd h.watched hsc
  | true => exact release_far (performs_idle hc hd h) hsc

theorem exec_ofence (hc : s.hasCore s.cur = true) {sc : Scope} (hr : release sc s = .ok ((), t)) (hw : t.watched = false) :
    exec (.ofence sc) s = .next (t.retiring CoreSt.after) := by
  refine (runScalar_ok hc ?_).trans (congrArg _ (retire_advance_only t))
  rw [M.bind_ok hr, M.bind_ok (acquireNow_unwatched hw sc)]
  rfl

theorem exec_fence_orders (hc : s.hasCore s.cur = true) {fm pred succ : BitVec 4} (hpred : pred ≠ 0) (hsucc : succ ≠ 0)
    (hr : release (s.core s.cur).scope s = .ok ((), t)) (hw : t.watched = false) :
    exec (.fence fm pred succ) s = .next (t.retiring CoreSt.after) := by
  refine (runScalar_ok hc ?_).trans (congrArg _ (retire_advance_only t))
  rw [M.bind_me, if_pos ⟨hpred, hsucc⟩, M.bind_ok hr, M.bind_ok (acquireNow_unwatched hw _)]
  rfl

theorem exec_fence_empty (hc : s.hasCore s.cur = true) {fm pred succ : BitVec 4} (h : pred = 0 ∨ succ = 0) :
    exec (.fence fm pred succ) s = .next (s.retiring CoreSt.after) := by
  refine runScalar_passes hc ?_
  rw [M.bind_me, if_neg fun hne => h.elim hne.1 hne.2]
  rfl

theorem exec_fenceI_performs (h : s.Performs t u) : exec .fenceI s = .next (u.retiring (fun c => ({ c with ibuf := [] }).after)) := by
  refine (runScalar_ok h.core ?_).trans (congrArg _ (retire_advance u (fun c => { c with ibuf := [] }) fun _ => rfl))
  rw [M.bind_ok h.drained, M.bind_ok h.all]
  rfl

theorem fenceSe_performs (h : s.Performs t u) : fenceSe s = .ok ((), u) := by
  rw [fenceSe, M.bind_ok h.drained, M.bind_myId]
  exact h.own

/-- What the second half of an `xfence` changes in its core. -/
def CoreSt.xseen (dir : XDir) (c : CoreSt) : CoreSt := if dir = .both then { c with stale := [] } else c

theorem exec_xfence_performs (h : s.Performs t u) {dir : XDir} (hdir : dir = .se ∨ dir = .both) :
    exec (.xfence dir) s = .next (u.retiring (fun c => (c.xseen dir).after)) := by
  rcases hdir with rfl | rfl
  · refine (runScalar_ok h.core ?_).trans (congrArg _ (retire_advance_only u))
    show (fenceSe >>= fun _ => advance) s = _
    rw [M.bind_ok (fenceSe_performs h)]
    rfl
  · refine (runScalar_ok h.core ?_).trans (congrArg _ (retire_advance u (fun c => { c with stale := [] }) fun _ => rfl))
    show (fenceSe >>= fun _ => fenceEl >>= fun _ => advance) s = _
    rw [M.bind_ok (fenceSe_performs h)]
    rfl

/-- The second form of `xfence` waits for nothing. -/
theorem exec_xfence_el (hc : s.hasCore s.cur = true) :
    exec (.xfence .el) s = .next (s.retiring (fun c => ({ c with stale := [] }).after)) := by
  exact runScalar_advance (p := parcelOf (.xfence .el)) (m := fenceEl) hc rfl fun _ => rfl

/-- The core of an instruction that retired. -/
theorem core_retiring (hc : t.hasCore t.cur = true) {f : CoreSt → CoreSt} (hf : ∀ c, (f c).id = c.id) :
    (t.retiring f).core t.cur = f (t.core t.cur) :=
  State.core_modCore_eq hc ((hf _).trans (State.core_id t t.cur))

/-- A core that has seen every engine write reads its own memories as they stand. -/
theorem readAt_own (h : (s.core s.cur).stale = []) (a n : Nat) :
    readAt (.scratch s.cur.l a) n s = .ok ((s.core s.cur).scratch.readBytes a n, s) ∧
      readAt (.reg a) n s = .ok ((s.core s.cur).reg.readBytes a n, s) := by
  have hsee (reg : Bool) : s.seeStale s.cur reg a n = (s, []) := by simp [State.seeStale, h]
  constructor
  · simp only [readAt, if_true, hsee]; rfl
  · simp only [readAt, hsee]; rfl

/-! ### Changes of every core -/

/-- A change of every core that keeps its number, as one core that is there shows it. -/
theorem State.core_map {f : CoreSt → CoreSt} (hf : ∀ c, (f c).id = c.id) {id : CoreId} (hc : s.hasCore id = true) :
    ({ s with cores := s.cores.map f } : State).core id = f (s.core id) ∧
      ({ s with cores := s.cores.map f } : State).hasCore id = true := by
  obtain ⟨c, hfound⟩ := Option.isSome_iff_exists.mp hc
  have hkey : (fun c : CoreSt => c.id == id) ∘ f = fun c => c.id == id := funext fun c => by rw [Function.comp_apply, hf c]
  have hmapped : ({ s with cores := s.cores.map f } : State).core? id = some (f c) := by
    simp only [State.core?, List.find?_map, hkey]
    exact congrArg (Option.map f) hfound
  rw [State.core, State.hasCore, hmapped, State.core, hfound]
  exact ⟨rfl, rfl⟩

theorem State.hasCore_of_cores (h : t.cores = s.cores) (id : CoreId) : t.hasCore id = s.hasCore id := by
  simp [State.hasCore, State.core?, h]

/-- A write to its granule may end a reservation, and changes no more of a core. -/
theorem CoreSt.breakScratch_resv (c : CoreSt) (asid l a n : Nat) : ∃ r, c.breakScratch asid l a n = { c with resv := r } := by
  unfold CoreSt.breakScratch
  split
  · split
    · exact ⟨none, rfl⟩
    · exact ⟨c.resv, rfl⟩
  · exact ⟨c.resv, rfl⟩

theorem CoreSt.breakHbm_resv (c : CoreSt) (pa n : Nat) : ∃ r, c.breakHbm pa n = { c with resv := r } := by
  unfold CoreSt.breakHbm
  split
  · split
    · exact ⟨none, rfl⟩
    · exact ⟨c.resv, rfl⟩
  · exact ⟨c.resv, rfl⟩

/-! ### Stores that leave the buffer -/

/-- A store outside every window is performed as it is. -/
theorem performBuf_store {w : BufWrite} (hk : w.kind = .store) (hwin : w.win = none) (first : Bool) :
    s.performBuf w first = s.put ⟨w.asid, w.l⟩ none w.place (leBytes w.n w.val) w.va := by
  simp [State.performBuf, hk, State.perform, State.logWrite, hwin, CoreSt.holds]

/-- A store of the current core, as the edge queue holds it. -/
theorem performBuf_mine {w : BufWrite} (hk : w.kind = .store) (hwin : w.win = none) (hid : (⟨w.asid, w.l⟩ : CoreId) = s.cur) {shown : Nat}
    (first : Bool) : s.performBuf { w with shown := shown } first = s.put s.cur none w.place (leBytes w.n w.val) w.va := by
  rw [performBuf_store (w := { w with shown := shown }) hk hwin, ← hid]

theorem holdFull_idle (h : s.DieIdle) {w : BufWrite} (hwin : w.win = none) : s.holdFull s.cur w = false := by
  simp [State.holdFull, h.edge, State.holdNeed, hwin, CoreSt.holds]

/-- A store of a core to its own scratchpad, outside every window. -/
structure OwnStore (id : CoreId) (w : BufWrite) : Prop where
  kind  : w.kind = .store
  asid  : w.asid = id.asid
  l     : w.l = id.l
  win   : w.win = none
  place : ∃ a, w.place = .scratch id.l a

theorem ownStores_iff (ws : List BufWrite) : s.ownStores ws = true ↔ ∀ w ∈ ws, OwnStore s.cur w := by
  rw [State.ownStores, List.all_eq_true]
  refine forall₂_congr fun w _ => ⟨fun h => ?_, fun h => ?_⟩
  · simp only [Bool.and_eq_true, beq_iff_eq, Option.isNone_iff_eq_none] at h
    obtain ⟨⟨⟨⟨hk, hasid⟩, hl⟩, hwin⟩, hplace⟩ := h
    refine ⟨hk, hasid, hl, hwin, ?_⟩
    split at hplace
    · next l a hp => exact ⟨a, hp.trans (by rw [eq_of_beq hplace])⟩
    · cases hplace
  · obtain ⟨hk, hasid, hl, hwin, a, hplace⟩ := h
    simp [hk, hasid, hl, hwin, hplace]

/-- Memory after stores, in order. -/
def landing (m : Mem) (ws : List BufWrite) : Mem := ws.foldl (fun m w => m.write w.place.addr (leBytes w.n w.val)) m

/-- The machine `t` in which the oldest stores `ws` in the current core's buffer have landed in its scratchpad: nothing beyond the cores has
changed but what injections leave and what the banks are asked for. -/
structure State.Lands (s t : State) (ws : List BufWrite) : Prop where
  same    : t = { s with cores := t.cores, mgmt := t.mgmt, bankq := t.bankq }
  there   : t.hasCore s.cur = true
  watched : t.watched = false
  core    : ∃ st r, t.core s.cur = { s.core s.cur with
    sb := (s.core s.cur).sb.drop ws.length, scratch := landing (s.core s.cur).scratch ws, stale := st, resv := r } ∧
    ((s.core s.cur).stale = [] → st = [])

theorem State.Lands.cur {ws : List BufWrite} (h : s.Lands t ws) : t.cur = s.cur := by rw [h.same]

theorem State.Lands.dieIdle {ws : List BufWrite} (h : s.Lands t ws) (hs : s.DieIdle) : t.DieIdle := by
  have hsame := h.same
  refine ⟨by rw [h.cur]; exact h.there, ?_, ?_, ?_, h.watched⟩
  · rw [hsame]; exact hs.edge
  · rw [hsame]; exact hs.shadow
  · rw [hsame]; exact hs.poison

theorem State.Lands.refl (h : s.DieIdle) : s.Lands s [] := ⟨rfl, h.core, h.watched, (s.core s.cur).stale, (s.core s.cur).resv, rfl, id⟩

theorem State.Lands.trans {vs ws : List BufWrite} (h : s.Lands t vs) (k : t.Lands u ws) : s.Lands u (vs ++ ws) := by
  have hcur := h.cur
  obtain ⟨st, r, hcore, hst⟩ := h.core
  obtain ⟨st', r', hcore', hst'⟩ := k.core
  have hsame := h.same
  have ksame := k.same
  rw [hcur, hcore] at hcore' hst'
  refine ⟨?_, by rw [← hcur]; exact k.there, k.watched, st', r', ?_, fun hs => hst' (hst hs)⟩
  · rw [ksame, hsame]
  · rw [hcore']
    simp [landing, List.foldl_append, List.drop_drop]

/-- The core of a write to its scratchpad, before reservations are looked at. -/
def CoreSt.wroteScratch (c : CoreSt) (a : Nat) (bs : List Byte) : CoreSt :=
  { c with scratch := c.scratch.write a bs, stale := dropStale c.stale false a bs.length }

theorem writeScratch_unwatched (hw : s.watched = false) (id : CoreId) (a : Nat) (bs : List Byte) :
    let v := s.modCore id (fun c => c.wroteScratch a bs)
    s.writeScratch id.asid id.l a bs =
      (State.clearPoison { v with cores := v.cores.map (fun c => c.breakScratch id.asid id.l a bs.length) } 3 (ownKey id) a
        bs.length).applyInjection 3 (ownKey id) ((s.ctx id.asid).pcn id.l) a bs.length := by
  unfold State.writeScratch
  rw [changed_unwatched hw]
  rfl

/-- A write to the current core's scratchpad. -/
theorem writeScratch_own (h : s.DieIdle) (a : Nat) (bs : List Byte) :
    let t := s.writeScratch s.cur.asid s.cur.l a bs
    t = { s with cores := t.cores, mgmt := t.mgmt } ∧ t.hasCore s.cur = true ∧ t.watched = false ∧
      ∃ r, t.core s.cur = { s.core s.cur with
        scratch := (s.core s.cur).scratch.write a bs, stale := dropStale (s.core s.cur).stale false a bs.length, resv := r } := by
  intro t
  have ht : t = _ := writeScratch_unwatched h.watched s.cur a bs
  have hpoison : t.poison = s.poison := by
    rw [ht]
    show s.poison.filter _ = s.poison
    rw [h.poison]
    rfl
  have hsame : t = { s with cores := t.cores, mgmt := t.mgmt, poison := t.poison } := by
    rw [ht]
    rfl
  have hv := (State.hasCore_modCore s s.cur s.cur (fun c => c.wroteScratch a bs)).trans h.core
  have hvcore := State.core_modCore_eq (s := s) (f := fun c => c.wroteScratch a bs) h.core (State.core_id s s.cur)
  have hvwatched := watched_modCore h.watched s.cur (f := fun c => c.wroteScratch a bs) fun _ => ⟨rfl, rfl⟩
  generalize s.modCore s.cur (fun c => c.wroteScratch a bs) = v at ht hv hvcore hvwatched
  let f (c : CoreSt) : CoreSt := c.breakScratch s.cur.asid s.cur.l a bs.length
  have hcores : t.cores = ({ v with cores := v.cores.map f } : State).cores := by
    rw [ht]
    rfl
  obtain ⟨hcore, hthere⟩ := State.core_map (f := f) (fun c => (c.breakScratch_bare ..).1) hv
  obtain ⟨r, hr⟩ := (v.core s.cur).breakScratch_resv s.cur.asid s.cur.l a bs.length
  refine ⟨by rw [← hpoison]; exact hsame, (State.hasCore_of_cores hcores s.cur).trans hthere,
    (watched_cores hcores).trans (watched_map hvwatched fun c => c.breakScratch_seen ..), r, ?_⟩
  rw [State.core_of_cores hcores, hcore]
  show (v.core s.cur).breakScratch .. = _
  rw [hr, hvcore]
  rfl

/-- The oldest store, of the core to its own scratchpad, leaves the buffer and lands. -/
theorem drainOne_own (h : s.DieIdle) {w : BufWrite} {rest : List BufWrite} (hsb : (s.core s.cur).sb = w :: rest) (hw : OwnStore s.cur w) :
    ∃ t, s.drainOne s.cur = .done t ∧ s.Lands t [w] := by
  obtain ⟨hkind, hasid, hl, hwin, a, hplace⟩ := hw
  obtain ⟨hsame, hthere, hwatched, r, hcore⟩ := writeScratch_own h a (leBytes w.n w.val)
  have hput : s.performBuf w true = .done (s.writeScratch s.cur.asid s.cur.l a (leBytes w.n w.val)) := by
    rw [performBuf_store hkind hwin, hasid, hl, hplace]
    rfl
  have hlocal : w.place.isLocal = true := by rw [hplace]; rfl
  have hlanding : landing (s.core s.cur).scratch [w] = (s.core s.cur).scratch.write a (leBytes w.n w.val) := by
    rw [landing, List.foldl_cons, hplace]
    rfl
  generalize s.writeScratch s.cur.asid s.cur.l a (leBytes w.n w.val) = v at *
  let popped := v.modCore s.cur (fun c => { c with sb := c.sb.drop 1 })
  obtain ⟨q, hq⟩ := askPlace_bankq popped s.cur.asid (scalarAsker s.cur.l w.place) s.cur.l 0 w.place w.n
  have hone : s.drainOne s.cur = .done { popped with bankq := q } := by
    rw [← hq]
    simp only [State.drainOne, hsb, holdFull_idle h hwin, hlocal, poisonAt_none h.poison, hput, markBuf_unwatched hwatched, if_true,
      Bool.false_eq_true, if_false]
    rfl
  refine ⟨_, hone, ?_, ?_, ?_, dropStale (s.core s.cur).stale false a (leBytes w.n w.val).length, r, ?_, ?_⟩
  · exact congrArg (fun x : State => { x with cores := popped.cores, bankq := q }) hsame
  · exact (State.hasCore_modCore v s.cur s.cur _).trans hthere
  · exact watched_modCore hwatched s.cur fun _ => ⟨rfl, rfl⟩
  · refine (State.core_modCore_eq hthere ?_).trans ?_
    · exact State.core_id v s.cur
    · rw [hcore, hlanding]
      rfl
  · intro hs
    rw [hs]
    rfl

/-- A buffer of stores of the core to its own scratchpad empties in order. -/
theorem drainAll_own (ws : List BufWrite) (h : s.DieIdle) (hsb : (s.core s.cur).sb = ws) (hws : ∀ w ∈ ws, OwnStore s.cur w) :
    ∃ t, s.drainAll s.cur ws.length = .done t ∧ s.Lands t ws := by
  induction ws generalizing s with
  | nil => exact ⟨s, rfl, .refl h⟩
  | cons w ws ih =>
    obtain ⟨v, hone, hv⟩ := drainOne_own h hsb (hws w List.mem_cons_self)
    have hcur := hv.cur
    obtain ⟨st, r, hcore, -⟩ := hv.core
    have hrest : (v.core v.cur).sb = ws := by rw [hcur, hcore, hsb]; rfl
    obtain ⟨t, hall, ht⟩ := ih (hv.dieIdle h) hrest (by rw [hcur]; exact fun x hx => hws x (List.mem_cons_of_mem w hx))
    rw [hcur] at hall
    refine ⟨t, ?_, hv.trans ht⟩
    simp only [List.length_cons, State.drainAll, hsb, List.isEmpty_cons, Bool.false_eq_true, if_false, hone, hall]

theorem drainM_own {ws : List BufWrite} (h : s.DieIdle) (hsb : (s.core s.cur).sb = ws) (hws : s.ownStores ws = true) :
    ∃ t, drainM s = .ok ((), t) ∧ s.Lands t ws := by
  obtain ⟨t, hall, ht⟩ := drainAll_own ws h hsb ((ownStores_iff ws).mp hws)
  exact ⟨t, by simp only [drainM, hsb, tryM, hall], ht⟩

/-! ### What a fence leaves once its stores have landed -/

/-- A change of what a core has fetched and of what it has still to see, and of nothing else. -/
structure Refreshes (f : CoreSt → CoreSt) : Prop where
  same  : ∀ c, f c = { c with ibuf := (f c).ibuf, stale := (f c).stale }
  ibuf  : ∀ c d, d.ibuf = c.ibuf → (f d).ibuf = (f c).ibuf
  stale : ∀ c d, (c.stale = [] → d.stale = []) → (f c).stale = [] → (f d).stale = []

theorem refreshes_id : Refreshes id := ⟨fun _ => rfl, fun _ _ h => h, fun _ _ h => h⟩

theorem refreshes_fetched : Refreshes (fun c => { c with ibuf := [] }) := ⟨fun _ => rfl, fun _ _ _ => rfl, fun _ _ h => h⟩

theorem refreshes_xseen (dir : XDir) : Refreshes (CoreSt.xseen dir) := by
  by_cases h : dir = .both
  · rw [show CoreSt.xseen dir = fun c => { c with stale := [] } from funext fun c => if_pos h]
    exact ⟨fun _ => rfl, fun _ _ h => h, fun _ _ _ _ => rfl⟩
  · rw [show CoreSt.xseen dir = id from funext fun c => if_neg h]
    exact refreshes_id

theorem core_refreshed (hc : t.hasCore t.cur = true) {f : CoreSt → CoreSt} (hf : Refreshes f) :
    (t.retiring (fun c => (f c).after)).core t.cur =
      ({ t.core t.cur with ibuf := (f (t.core t.cur)).ibuf, stale := (f (t.core t.cur)).stale } : CoreSt).after := by
  have hid (c : CoreSt) : (f c).after.id = c.id := by rw [hf.same c]; rfl
  exact (core_retiring hc hid).trans (congrArg CoreSt.after (hf.same _))

/-- A fence that retires after the stores `ws` of its core have landed. -/
theorem landed_retiring {ws : List BufWrite} (h : s.Lands t ws) (hsb : (s.core s.cur).sb = ws) {f : CoreSt → CoreSt} (hf : Refreshes f) :
    let u := t.retiring (fun c => (f c).after)
    u.note = .retired ∧ (u.core s.cur).sb = [] ∧ (u.core s.cur).ibuf = (f (s.core s.cur)).ibuf ∧
      (u.core s.cur).pc = (s.core s.cur).pc + 4 ∧ (u.core s.cur).x = (s.core s.cur).x ∧ u.hbm = s.hbm ∧ u.host = s.host ∧
      (u.core s.cur).scratch = landing (s.core s.cur).scratch ws ∧ ((f (s.core s.cur)).stale = [] → (u.core s.cur).stale = []) := by
  intro u
  obtain ⟨st, r, hcore, hst⟩ := h.core
  rw [hsb, List.drop_length] at hcore
  have hu : u.core s.cur = _ := h.cur ▸ core_refreshed (t := t) (by rw [h.cur]; exact h.there) hf
  have hibuf := hf.ibuf (s.core s.cur) (t.core s.cur) (by rw [hcore])
  have hstale := hf.stale (s.core s.cur) (t.core s.cur) (by rw [hcore]; exact hst)
  have hmem : t.hbm = s.hbm ∧ t.host = s.host := by rw [h.same]; exact ⟨rfl, rfl⟩
  rw [hu]
  refine ⟨rfl, ?_, hibuf, ?_, ?_, hmem.1, hmem.2, ?_, hstale⟩ <;> rw [hcore] <;> rfl

/-! ### A store that waits alone for device or host memory -/

/-- A change of one die, as what it keeps shows it. -/
theorem State.die_modDie_proj {α : Type} (p : Die → α) {f : Die → Die} (hf : ∀ x, p (f x) = p x) (s : State) (d k : Nat) :
    p ((s.modDie d f).die k) = p (s.die k) := by
  simp only [State.die, State.modDie, List.getD_eq_getElem?_getD, List.getElem?_modify]
  cases s.dies[k]? with
  | none => rfl
  | some x => by_cases h : d = k <;> simp [h, hf]

theorem State.die_modDie_self (s : State) {d : Nat} (hd : d < s.dies.length) (f : Die → Die) : (s.modDie d f).die d = f (s.die d) := by
  simp [State.die, State.modDie, List.getD_eq_getElem?_getD, hd]

/-- The machine in which the oldest store `w` of the current core has moved on into the edge queue of its die. -/
def State.queued (s : State) (w : BufWrite) : State :=
  ((s.modCore s.cur (fun c => { c with sb := c.sb.drop 1 })).modDie (s.dieOf s.cur)
    (fun x => { x with edge := x.edge ++ [{ w with shown := s.seen }] })).outstanding s.cur

/-- A store of the current core waits for a place beyond its core, alone in its store buffer and in its die. -/
structure State.Lone (s : State) (w : BufWrite) : Prop where
  idle   : s.DieIdle
  sb     : (s.core s.cur).sb = [w]
  kind   : w.kind = .store
  win    : w.win = none
  asid   : w.asid = s.cur.asid
  l      : w.l = s.cur.l
  die    : s.dieOf s.cur < s.dies.length
  beyond : w.place.isLocal = false

theorem drainM_lone {w : BufWrite} (h : s.Lone w) : drainM s = .ok ((), s.queued w) := by
  have hone : s.drainOne s.cur = .done (s.queued w) := by
    simp only [State.drainOne, h.sb, holdFull_idle h.idle h.win, h.beyond, h.kind, shownTo_unwatched h.idle.watched, Bool.false_eq_true,
      if_false, State.queued]
  simp only [drainM, tryM, h.sb, List.length_singleton, State.drainAll, List.isEmpty_cons, Bool.false_eq_true, if_false, hone]

/-- The machine `u` in which the current core's store buffer and its die's edge queue are as given, and memory too; a reservation of the
core may have ended. -/
structure State.Ran (s u : State) (edge : List BufWrite) (out : Nat) (hbm host : Mem) : Prop where
  cur     : u.cur = s.cur
  there   : u.hasCore s.cur = true
  watched : u.watched = false
  core    : ∃ r, u.core s.cur = { s.core s.cur with sb := [], rqout := (s.core s.cur).rqout + out, resv := r }
  edge    : (u.die (s.dieOf s.cur)).edge = edge
  hbm     : u.hbm = hbm
  host    : u.host = host

theorem queued_ran {w : BufWrite} (h : s.Lone w) : s.Ran (s.queued w) [{ w with shown := s.seen }] 1 s.hbm s.host := by
  have hcore : (s.queued w).core s.cur = { s.core s.cur with sb := (s.core s.cur).sb.drop 1, rqout := (s.core s.cur).rqout + 1 } := by
    have hid := State.core_id s s.cur
    refine (State.core_modCore_eq ?_ ?_).trans ?_
    · exact (State.hasCore_modCore s s.cur s.cur _).trans h.idle.core
    · exact State.core_id _ _
    · exact congrArg (fun c : CoreSt => { c with rqout := c.rqout + 1 }) 
        (State.core_modCore_eq (f := fun c => { c with sb := c.sb.drop 1 }) h.idle.core hid)
  rw [h.sb] at hcore
  refine ⟨rfl, ?_, ?_, ⟨_, hcore⟩, ?_, rfl, rfl⟩
  · simp [State.queued, State.outstanding, h.idle.core]
  · let popped := s.modCore s.cur (fun c => { c with sb := c.sb.drop 1 })
    have hpopped : popped.watched = false := watched_modCore h.idle.watched s.cur fun _ => ⟨rfl, rfl⟩
    exact watched_modCore (s := popped.modDie (s.dieOf s.cur) _) hpopped s.cur fun _ => ⟨rfl, rfl⟩
  · refine (congrArg Die.edge (State.die_modDie_self (s.modCore s.cur _) h.die _)).trans ?_
    show (s.die (s.dieOf s.cur)).edge ++ _ = _
    rw [h.idle.edge]
    rfl

/-- Device and host memory lie beyond the core. -/
theorem beyond_of_place {p : Place} (h : p.isHost = true ∨ ∃ sl a, p = .hbm sl a) : p.isLocal = false := by
  obtain hhost | ⟨sl, a, rfl⟩ := h
  · cases p with
    | hostBulk | hostCoh => rfl
    | scratch | reg | hbm | dev => cases hhost
  · rfl

/-- What a fence leaves that retires then. -/
theorem ran_retiring {edge : List BufWrite} {out : Nat} {hbm host : Mem} (h : s.Ran u edge out hbm host) {f : CoreSt → CoreSt}
    (hf : Refreshes f) :
    let t := u.retiring (fun c => (f c).after)
    t.note = .retired ∧ (t.core s.cur).sb = [] ∧ (t.die (s.dieOf s.cur)).edge = edge ∧
      (t.core s.cur).rqout = (s.core s.cur).rqout + out ∧ t.hbm = hbm ∧ t.host = host ∧ (t.core s.cur).x = (s.core s.cur).x ∧
      (t.core s.cur).pc = (s.core s.cur).pc + 4 := by
  intro t
  obtain ⟨r, hcore⟩ := h.core
  have ht : t.core s.cur = _ := h.cur ▸ core_refreshed (t := u) (by rw [h.cur]; exact h.there) hf
  rw [ht]
  refine ⟨rfl, ?_, h.edge, ?_, h.hbm, h.host, ?_, ?_⟩ <;> rw [hcore] <;> rfl

/-! ### The edge queue performs it -/

/-- An edge queue of one entry that a fence waits for. -/
theorem edgeM_single {w : BufWrite} {p : BufWrite → Bool} (hedge : (t.die (t.dieOf t.cur)).edge = [w]) (hp : p w = true)
    (hone : t.edgeOne (t.dieOf t.cur) 0 = .done u) : edgeM p t = .ok ((), u) := by
  simp [edgeM, tryM, hedge, State.edgeWhere, List.findIdx?_cons, hp, edgeFirst, hone]

/-- The oldest entry of an edge queue is performed at the die that serves it, which leaves `v`. -/
theorem edgeOne_served {w : BufWrite} {d : Nat} {rest : List BufWrite} (hedge : (t.die d).edge = w :: rest)
    (hserved : t.servedBy w.asid w.place = none ∧ u = t ∨ ∃ k, t.servedBy w.asid w.place = some k ∧ u = t.touch w.asid k)
    (hopen : u.placeRefusal w.asid w.place w.n = 0) (hdone : u.performBuf w true = .done v) (hv : v.watched = false) :
    t.edgeOne d 0 = .done ((v.modDie d (fun x => { x with edge := x.edge.eraseIdx 0 })).ack ⟨w.asid, w.l⟩) := by
  obtain ⟨hnone, rfl⟩ | ⟨k, hsome, rfl⟩ := hserved
  · simp only [State.edgeOne, hedge, List.getElem?_cons_zero, hnone, hopen, hdone, markBuf_unwatched hv]
  · simp only [State.edgeOne, hedge, List.getElem?_cons_zero, hsome, hopen, hdone, markBuf_unwatched hv]

/-- The machine `v` in which a write of the current core has been performed at its memory. -/
structure State.Wrote (t v : State) (hbm host : Mem) : Prop where
  cur     : v.cur = t.cur
  dies    : v.dies = t.dies
  there   : v.hasCore t.cur = true
  watched : v.watched = false
  core    : ∃ r, v.core t.cur = { t.core t.cur with resv := r }
  hbm     : v.hbm = hbm
  host    : v.host = host

theorem hostAccept_wrote (hc : t.hasCore t.cur = true) (hw : t.watched = false) (a : Nat) (bs : List Byte) :
    t.Wrote (t.hostAccept a bs (some t.cur)) t.hbm (t.host.write a bs) := by
  rw [hostAccept_unwatched hw]
  exact ⟨rfl, rfl, hc, hw, ⟨(t.core t.cur).resv, rfl⟩, rfl, rfl⟩

theorem hbmWrite_wrote (hc : t.hasCore t.cur = true) (hw : t.watched = false) (sl a : Nat) (bs : List Byte) :
    t.Wrote (t.hbmWrite sl a bs (some t.cur)) (t.hbm.write a bs) t.host := by
  let f (c : CoreSt) : CoreSt := c.breakHbm a bs.length
  have hv : (t.hbmWrite sl a bs (some t.cur)).cores = ({ t with cores := t.cores.map f } : State).cores := by
    rw [State.hbmWrite, changed_unwatched hw]
    rfl
  have hfields : (t.hbmWrite sl a bs (some t.cur)).cur = t.cur ∧ (t.hbmWrite sl a bs (some t.cur)).dies = t.dies ∧
      (t.hbmWrite sl a bs (some t.cur)).hbm = t.hbm.write a bs ∧ (t.hbmWrite sl a bs (some t.cur)).host = t.host := by
    rw [State.hbmWrite, changed_unwatched hw]
    exact ⟨rfl, rfl, rfl, rfl⟩
  generalize t.hbmWrite sl a bs (some t.cur) = v at *
  obtain ⟨hcur, hdies, hhbm, hhost⟩ := hfields
  obtain ⟨r, hr⟩ := (t.core t.cur).breakHbm_resv a bs.length
  have hid (c : CoreSt) : (f c).id = c.id := by
    obtain ⟨r, hr⟩ := c.breakHbm_resv a bs.length
    exact (congrArg CoreSt.id hr :)
  obtain ⟨hcore, hthere⟩ := State.core_map hid hc
  exact ⟨hcur, hdies, (State.hasCore_of_cores hv t.cur).trans hthere, (watched_cores hv).trans (watched_map hw fun c => c.breakHbm_seen ..),
    ⟨r, (State.core_of_cores hv t.cur).trans (hcore.trans hr)⟩, hhbm, hhost⟩

/-- Touched-dies bits make no difference to a write. -/
theorem State.Touched.wrote {hbm host : Mem} (h : t.Touched u) (k : u.Wrote v hbm host) : t.Wrote v hbm host := by
  have hcur := h.cur
  obtain ⟨r, hcore⟩ := k.core
  exact ⟨k.cur.trans hcur, k.dies.trans h.dies, hcur ▸ k.there, k.watched, ⟨r, by rw [← hcur, hcore, h.core]⟩, k.hbm, k.host⟩

theorem touch_hbm (asid d sl pa n : Nat) :
    (s.touch asid d).hbm = s.hbm ∧ (s.touch asid d).host = s.host ∧
      (s.touch asid d).placeRefusal asid (.hbm sl pa) n = s.placeRefusal asid (.hbm sl pa) n := by
  rw [show s.touch asid d = _ from touch_sameUnits asid d]
  exact ⟨rfl, rfl, rfl⟩

/-- A store on its way makes no die answer otherwise. -/
theorem queued_answers (w : BufWrite) (d : Nat) : (s.queued w).answers d = s.answers d :=
  State.die_modDie_proj (f := fun x => { x with edge := x.edge ++ [{ w with shown := s.seen }] }) (fun x => x.st == .live && !x.lost)
    (fun _ => rfl) (s.modCore s.cur _) _ d

theorem queued_placeRefusal (w : BufWrite) (asid sl pa n : Nat) :
    (s.queued w).placeRefusal asid (.hbm sl pa) n = s.placeRefusal asid (.hbm sl pa) n := by
  simp only [State.placeRefusal, State.hbmRefusal, queued_answers]
  rfl

/-- Where a store beyond the core goes, and what it makes of device and host memory. -/
def State.StoresTo (s : State) (w : BufWrite) (hbm host : Mem) : Prop :=
  (∃ sl a, w.place = .hbm sl a ∧ s.placeRefusal s.cur.asid w.place w.n = 0 ∧ s.answers (s.stackOf a) = true ∧
      hbm = s.hbm.write a (leBytes w.n w.val) ∧ host = s.host) ∨
    (w.place.isHost = true ∧ hbm = s.hbm ∧ host = s.host.write w.place.addr (leBytes w.n w.val))

/-- A store to host memory outside every window is taken by the link. -/
theorem put_host {w : BufWrite} (hp : w.place.isHost = true) (bs : List Byte) :
    s.put s.cur none w.place bs w.va = .done (s.hostAccept w.place.addr bs (some s.cur)) := by
  cases hplace : w.place with
  | hostBulk | hostCoh => rfl
  | scratch | reg | hbm | dev => rw [hplace] at hp; cases hp

theorem servedBy_host {w : BufWrite} (hp : w.place.isHost = true) (asid : Nat) :
    s.servedBy asid w.place = none ∧ s.placeRefusal asid w.place w.n = 0 := by
  cases hplace : w.place with
  | hostBulk | hostCoh => exact ⟨rfl, rfl⟩
  | scratch | reg | hbm | dev => rw [hplace] at hp; cases hp

/-- The entry that was performed has left its queue and is acknowledged. -/
theorem ran_performed {w : BufWrite} {m n hbm host : Mem} (h : s.Ran t [w] 1 m n) (hd : s.dieOf s.cur < t.dies.length)
    (hv : t.Wrote v hbm host) :
    s.Ran ((v.modDie (s.dieOf s.cur) (fun x => { x with edge := x.edge.eraseIdx 0 })).ack s.cur) [] 0 hbm host := by
  have hcur := h.cur
  obtain ⟨r, hcore⟩ := h.core
  obtain ⟨r', hcore'⟩ := hv.core
  have hthere : v.hasCore s.cur = true := hcur ▸ hv.there
  rw [hcur, hcore] at hcore'
  refine ⟨hv.cur.trans hcur, ?_, ?_, ⟨r', ?_⟩, ?_, hv.hbm, hv.host⟩
  · exact (State.hasCore_modCore _ s.cur s.cur _).trans hthere
  · exact watched_modCore (s := v.modDie (s.dieOf s.cur) _) hv.watched s.cur fun _ => ⟨rfl, rfl⟩
  · refine (State.core_modCore_eq (s := v.modDie (s.dieOf s.cur) _) hthere (State.core_id v s.cur)).trans ?_
    rw [State.core_modDie, hcore']
    rfl
  · refine (congrArg Die.edge (State.die_modDie_self v (hv.dies ▸ hd) _)).trans ?_
    show (v.die (s.dieOf s.cur)).edge.eraseIdx 0 = []
    rw [State.die, hv.dies]
    exact congrArg (fun l => List.eraseIdx l 0) h.edge

/-- The die's edge queue performs the store that waits there. -/
theorem edgeOne_lone {w : BufWrite} {hbm host : Mem} (h : s.Lone w) (hto : s.StoresTo w hbm host) :
    ∃ u, (s.queued w).edgeOne (s.dieOf s.cur) 0 = .done u ∧ s.Ran u [] 0 hbm host := by
  have hran := queued_ran h
  have hd : s.dieOf s.cur < (s.queued w).dies.length := by
    show _ < (s.dies.modify _ _).length
    rw [List.length_modify]
    exact h.die
  have hasid := h.asid
  have hid : (⟨w.asid, w.l⟩ : CoreId) = s.cur := by rw [hasid, h.l]
  obtain ⟨sl, a, hplace, hopen, hans, rfl, rfl⟩ | ⟨hhost, rfl, rfl⟩ := hto
  · let t := (s.queued w).touch w.asid (s.stackOf a)
    have htouched : (s.queued w).Touched t := touch_answers ((queued_answers w _).trans hans) _
    obtain ⟨hhbm, hhost, hrefusal⟩ := touch_hbm (s := s.queued w) w.asid (s.stackOf a) sl a w.n
    have hwrote := hbmWrite_wrote (t := t) (by rw [htouched.cur, htouched.hasCore]; exact hran.there)
      ((watched_cores htouched.cores).trans hran.watched) sl a (leBytes w.n w.val)
    refine ⟨_, ?_, ran_performed hran hd (hhbm ▸ hhost ▸ htouched.wrote hwrote)⟩
    refine (edgeOne_served hran.edge (u := t) (.inr ⟨_, ?_, rfl⟩) ?_ ?_ hwrote.watched).trans ?_
    · rw [hplace]
      rfl
    · show t.placeRefusal w.asid w.place w.n = 0
      rw [hplace, hrefusal, queued_placeRefusal, hasid, ← hplace]
      exact hopen
    · rw [performBuf_mine h.kind h.win (hid.trans htouched.cur.symm), hplace]
      rfl
    · show Try.done (State.ack _ ⟨w.asid, w.l⟩) = _
      rw [hid]
  · have hwrote := hostAccept_wrote (t := s.queued w) hran.there hran.watched w.place.addr (leBytes w.n w.val)
    obtain ⟨hserved, hopen⟩ := servedBy_host (s := s.queued w) hhost w.asid
    refine ⟨_, ?_, ran_performed hran hd hwrote⟩
    refine (edgeOne_served hran.edge (.inl ⟨hserved, rfl⟩) hopen ?_ hwrote.watched).trans ?_
    · rw [performBuf_mine (s := s.queued w) h.kind h.win hid]
      exact put_host (s := s.queued w) hhost _
    · show Try.done (State.ack _ ⟨w.asid, w.l⟩) = _
      rw [hid]

/-- A fence that waits for the memories performs the store there. -/
theorem performs_lone {w : BufWrite} {hbm host : Mem} (h : s.Lone w) (hto : s.StoresTo w hbm host) :
    ∃ u, s.Performs (s.queued w) u ∧ s.Ran u [] 0 hbm host := by
  obtain ⟨u, hone, hran⟩ := edgeOne_lone h hto
  have hedge := (queued_ran h).edge
  have hmerged : (s.queued w).mergeOf s.cur = .done (s.queued w) := by
    have hshadow : ((s.queued w).die (s.dieOf s.cur)).shadow = [] :=
      (State.die_modDie_proj (f := fun x => { x with edge := x.edge ++ [{ w with shown := s.seen }] }) Die.shadow (fun _ => rfl)
        (s.modCore s.cur _) _ _).trans h.idle.shadow
    have hd : (s.queued w).dieOf s.cur = s.dieOf s.cur := rfl
    simp [State.mergeOf, hd, hshadow, State.mergeAll]
  have hown : (w.asid == s.cur.asid && w.l == s.cur.l) = true := by simp [h.asid, h.l]
  exact ⟨u, ⟨h.idle.core, drainM_lone h, hmerged, edgeM_single hedge rfl hone, edgeM_single hedge hown hone, hran.watched⟩, hran⟩

/-! ### The fences -/

theorem still_fences (h : s.Still) (fm pred succ : BitVec 4) (sc : Scope) :
    exec (.fence fm pred succ) s = .next (s.retiring CoreSt.after) ∧ exec (.ofence sc) s = .next (s.retiring CoreSt.after) ∧
      exec (.xfence .se) s = .next (s.retiring CoreSt.after) ∧
      exec .fenceI s = .next (s.retiring (fun c => ({ c with ibuf := [] }).after)) := by
  have hrelease := release_idle h.core (drainM_quiet h) h.dieIdle
  have hperforms := performs_idle h.core (drainM_quiet h) h.dieIdle
  refine ⟨?_, exec_ofence h.core (hrelease sc) h.watched, exec_xfence_performs hperforms (.inl rfl), exec_fenceI_performs hperforms⟩
  by_cases hset : pred = 0 ∨ succ = 0
  · exact exec_fence_empty h.core hset
  · obtain ⟨hpred, hsucc⟩ := not_or.mp hset
    exact exec_fence_orders h.core hpred hsucc (hrelease _) h.watched

theorem xfence_shows {dir : XDir} (hdir : dir ≠ .se) (h : s.hasCore s.cur = true ∧ dir = .el ∨ s.Still) :
    let t := s.retiring (fun c => ({ c with stale := [] }).after)
    exec (.xfence dir) s = .next t ∧
      ∀ a n, readAt (.scratch s.cur.l a) n t = .ok ((s.core s.cur).scratch.readBytes a n, t) ∧
        readAt (.reg a) n t = .ok ((s.core s.cur).reg.readBytes a n, t) := by
  intro t
  have hc : s.hasCore s.cur = true := h.elim (fun h => h.1) (fun h => h.core)
  have hcore : t.core s.cur = ({ s.core s.cur with stale := [] } : CoreSt).after := core_retiring hc fun _ => rfl
  constructor
  · cases dir with
    | se => exact absurd rfl hdir
    | el => exact exec_xfence_el hc
    | both =>
      have hs : s.Still := h.resolve_left fun h => nomatch h.2
      exact exec_xfence_performs (performs_idle hs.core (drainM_quiet hs) hs.dieIdle) (.inr rfl)
  · intro a n
    have hread := readAt_own (s := t) (show (t.core s.cur).stale = [] by rw [hcore]; rfl) a n
    have hsame : (t.core t.cur).scratch = (s.core s.cur).scratch ∧ (t.core t.cur).reg = (s.core s.cur).reg := by
      rw [show t.cur = s.cur from rfl, hcore]
      exact ⟨rfl, rfl⟩
    rwa [hsame.1, hsame.2] at hread

/-- Settles O8: a fence drains the store buffer into `t`, the die's edge queue then leaves `u`, and the core retires there. -/
theorem fenceResult : Obligations.FenceResult := by
  unfold Obligations.FenceResult
  refine ⟨fun s fm pred succ sc h => still_fences h fm pred succ sc, fun s dir hdir h => xfence_shows hdir h, ?_, ?_⟩
  · intro s fm pred succ sc dir ws hsb hs hown landed
    have hidle := dieIdle_of_emptied hs
    obtain ⟨t, hdrain, ht⟩ := drainM_own hidle hsb hown
    have htidle := ht.dieIdle hidle
    have hrelease := release_idle hidle.core hdrain htidle
    have hperforms := performs_idle hidle.core hdrain htidle
    refine ⟨fun hpred hsucc => ?_, exec_fence_empty hidle.core, ?_, ?_, fun hdir => ?_⟩
    · exact ⟨_, exec_fence_orders hidle.core hpred hsucc (hrelease _) htidle.watched, landed_retiring ht hsb refreshes_id⟩
    · exact ⟨_, exec_ofence hidle.core (hrelease sc) htidle.watched, landed_retiring ht hsb refreshes_id⟩
    · exact ⟨_, exec_fenceI_performs hperforms, landed_retiring ht hsb refreshes_fetched⟩
    · exact ⟨_, exec_xfence_performs hperforms hdir, landed_retiring ht hsb (refreshes_xseen dir)⟩
  · intro s fm pred succ sc dir w hsb hs hkind hwin hasid hl hc hdie bs ran
    have hlone (hbeyond : w.place.isLocal = false) : s.Lone w :=
      ⟨dieIdle_of_emptied hs, hsb, hkind, hwin, hasid, hl, hdie, hbeyond⟩
    constructor
    · intro hplace
      have h := hlone (beyond_of_place hplace)
      have hran := queued_ran h
      have hnear : release .die s = .ok ((), s.queued w) := release_near (drainM_lone h) hran.watched rfl
      refine ⟨fun hsc => ?_, fun hpred hsucc hsc => ?_⟩
      · exact ⟨_, exec_ofence hc (hsc ▸ hnear) hran.watched, ran_retiring hran refreshes_id⟩
      · exact ⟨_, exec_fence_orders hc hpred hsucc (hsc ▸ hnear) hran.watched, ran_retiring hran refreshes_id⟩
    · intro hbm host hto
      have h := hlone (beyond_of_place (hto.elim (fun ⟨sl, a, hp, _⟩ => .inr ⟨sl, a, hp⟩) fun hp => .inl hp.1))
      obtain ⟨u, hperforms, hran⟩ := performs_lone h hto
      have hrelease {sc : Scope} (hsc : wide sc = true) := release_far hperforms hsc
      refine ⟨fun hsc => ?_, fun hpred hsucc hsc => ?_, ?_, fun hdir => ?_⟩
      · exact ⟨_, exec_ofence hc (hrelease hsc) hran.watched, ran_retiring hran refreshes_id⟩
      · exact ⟨_, exec_fence_orders hc hpred hsucc (hrelease hsc) hran.watched, ran_retiring hran refreshes_id⟩
      · exact ⟨_, exec_fenceI_performs hperforms, ran_retiring hran refreshes_fetched⟩
      · exact ⟨_, exec_xfence_performs hperforms hdir, ran_retiring hran (refreshes_xseen dir)⟩

end Sys2Proof.Machine
end

section
/-! Service calls and returns, guard slots, condition bits, and codes packed into a doubleword (spec/04 R86, spec/09 R222, R223, R230,
R231, R233, R236, R237). -/

namespace Sys2Proof.Machine

variable {s : State}

/-! ### `tcall` (R236)

`tcall` saves the return address of each entry of the core list that has its core's number from the pc which that entry holds. A launch
binds a number once, but a `State` may hold one twice. -/

/-- A core that enters service `k` at the runtime level, its link register at `link`. -/
def CoreSt.calling (rd : Reg) (link : Word) (k : Nat) (c : CoreSt) : CoreSt :=
  { c.wx rd link with
    csr := { c.csr with tepc := epcOf (c.pc + 4), tstat := 2 }
    runtime := true
    pc := sext54 (bits c.csr.rtsvc 53 6 * 64 + 64 * k) }

theorem CoreSt.calling_frame (c : CoreSt) (rd : Reg) (link : Word) (k : Nat) :
    (c.calling rd link k).id = c.id ∧ (c.calling rd link k).instret = c.instret ∧ (c.calling rd link k).dicnt = c.dicnt :=
  ⟨c.wx_id rd link, c.wx_instret rd link, c.wx_dicnt rd link⟩

theorem exec_tcall_enters (hc : s.hasCore s.cur = true) {rd rs1 : Reg} (hl : (s.core s.cur).runtime = false)
    (hn : ((s.core s.cur).rx rs1).toNat < bits (s.core s.cur).csr.rtsvc 63 56) :
    exec (.tcall rd rs1) s = .next (s.retiring (fun x => { x.calling rd ((s.core s.cur).pc + 4) ((s.core s.cur).rx rs1).toNat with
      pfx := none, instret := x.instret + 1, dicnt := x.dicnt + 1 })) := by
  refine (runScalar_ok hc (s' := s.modCore s.cur (CoreSt.calling rd ((s.core s.cur).pc + 4) ((s.core s.cur).rx rs1).toNat)) ?_).trans
    (congrArg _ ?_)
  · simp only [M.bind_me, hl, Bool.false_eq_true, if_false, ge_iff_le, Nat.not_le.mpr hn, M.bind_wxM, M.modMe_apply, State.modCore_cur]
    rw [modCore_two _ _ _ _ (by intro c; simp)]
    simp only [CoreSt.wx_csr, CoreSt.wx_pc]
    rfl
  · rw [retire_one s _ fun c => (c.calling_frame ..).1]
    simp only [CoreSt.calling_frame]

/-- A machine with one service, whose core list holds core 0 twice, the entries at different pcs. -/
def twinPcState : State :=
  let c : CoreSt := { CoreSt.init ⟨0, 0⟩ with csr := { (CoreSt.init ⟨0, 0⟩).csr with rtsvc := 1#64 <<< 56 } }
  { State.reset with cores := [c, { c with pc := 8 }] }

/-- The return address that each entry of the core list has saved. -/
def State.returns (s : State) : List Word := s.cores.map fun c => c.csr.tepc

/-- Refutes O14: the statement saves in every entry of the core's number the return address of the first, where `tcall` saves in each
entry its own. They differ in a list that holds one number twice (`twinPcState`), which no hypothesis excludes. -/
theorem not_serviceCallReturn : ¬ Obligations.ServiceCallReturn := by
  unfold Obligations.ServiceCallReturn
  rintro ⟨hcall, -⟩
  obtain ⟨henters, -⟩ := hcall twinPcState 0 0 (by decide)
  have hrun := exec_tcall_enters (s := twinPcState) (rd := 0) (rs1 := 0) (by decide) (by decide) (by decide)
  have hstated := henters (by decide) (by decide)
  exact absurd (congrArg State.returns (Host.Outcome.next.inj (hrun.symm.trans hstated))) (by decide)

/-! ### Guard slots (R222, R223) -/

/-- The bits of a doubleword with one bit set. -/
theorem getLsbD_one_shiftLeft {i k : Nat} (hi : i < 64) : (1#64 <<< k).getLsbD i = decide (i = k) := by
  simp only [BitVec.getLsbD_shiftLeft, hi, decide_true, Bool.true_and, BitVec.getLsbD_one]
  grind

/-- The guard slots with slot `g` resolved to `v`. -/
def resolvedSlots (g : BitVec 4) (v : Bool) (w : Word) : Word :=
  if v then w ||| 1#64 <<< g.toNat ||| 1#64 <<< (16 + g.toNat) else (w ||| 1#64 <<< g.toNat) &&& ~~~(1#64 <<< (16 + g.toNat))

/-- A resolved slot has its first bit set, and its value in its second; no other slot changes. -/
theorem getLsbD_resolvedSlots (g : BitVec 4) (w : Word) {i : Nat} (hi : i < 64) :
    (resolvedSlots g true w).getLsbD i = (decide (i = g.toNat) || decide (i = 16 + g.toNat) || w.getLsbD i) ∧
    (resolvedSlots g false w).getLsbD i = (decide (i = g.toNat) || (!decide (i = 16 + g.toNat) && w.getLsbD i)) := by
  have hg := g.isLt
  have hslot : (1#64 <<< g.toNat).getLsbD i = decide (i = g.toNat) := getLsbD_one_shiftLeft hi
  have hvalue : (1#64 <<< (16 + g.toNat)).getLsbD i = decide (i = 16 + g.toNat) := getLsbD_one_shiftLeft hi
  simp only [resolvedSlots, if_true, Bool.false_eq_true, if_false, BitVec.getLsbD_or, BitVec.getLsbD_and, BitVec.getLsbD_not, hslot,
    hvalue, hi, decide_true, Bool.true_and]
  constructor
  · cases w.getLsbD i <;> simp
  · by_cases h1 : i = g.toNat
    · have h2 : ¬ i = 16 + g.toNat := by omega
      simp [h1]
    · simp [h1, Bool.and_comm]

/-- A core whose guard slot `g` is resolved to `v`. -/
def CoreSt.resolved (g : BitVec 4) (v : Bool) (c : CoreSt) : CoreSt :=
  { c with csr := { c.csr with gsl := resolvedSlots g v c.csr.gsl } }

theorem resolveSlot_slot {g : BitVec 4} (hg : g ≠ 0) (v : Bool) (s : State) :
    resolveSlot g v s = .ok ((), (s.modCore s.cur (CoreSt.resolved g v)).modCore s.cur (fun c => { c with pc := c.pc + 4 })) := by
  rw [resolveSlot, if_neg hg]
  cases v <;> rfl

theorem resolveSlot_zero (v : Bool) (s : State) : resolveSlot 0 v s = .error (.trap ⟨0x01, 0, 0, 0⟩) := rfl

theorem runScalar_resolveSlot (hc : s.hasCore s.cur = true) (par : Parcel) {g : BitVec 4} (hg : g ≠ 0) (v : Bool) :
    runScalar par (resolveSlot g v) s = .next (s.retiring (fun c => (c.resolved g v).after)) :=
  (runScalar_ok hc (resolveSlot_slot hg v s)).trans (congrArg _ (retire_advance s (CoreSt.resolved g v) fun _ => rfl))

theorem CoreSt.countEvs_frame (c : CoreSt) (is : List Nat) : (c.countEvs is).id = c.id ∧ (c.countEvs is).csr.gsl = c.csr.gsl := by
  induction is generalizing c with
  | nil => exact ⟨rfl, rfl⟩
  | cons i is ih => exact ih (c.countEv i)

/-- The banks serve a cycle: events are counted, and no guard slot changes. -/
theorem settleBanks_gsl (s : State) : s.Like (fun c => c.csr.gsl) s.settleBanks := by
  unfold State.settleBanks
  split
  · exact State.like_of_cores rfl rfl rfl rfl
  · exact (State.like_map (fun c => (c.countEvs_frame _).1) fun c => (c.countEvs_frame _).2).trans
      (State.like_of_cores rfl rfl rfl rfl)

theorem State.Like.hasCore {α : Type} {g : CoreSt → α} {t : State} (h : s.Like g t) (id : CoreId) : t.hasCore id = s.hasCore id := by
  simpa [State.hasCore] using congrArg Option.isSome (h.core? id)

theorem CoreSt.guard_eq_none (c : CoreSt) (w : CmdWord) : c.guard w = none ↔ bit c.gslSeen (wbits w 15 12) = false := by
  simp [CoreSt.guard]

/-- Settles O20: a slot by its two bits; what the heads see by the end of a cycle. -/
theorem guardResolve : Obligations.GuardResolve := by
  refine ⟨fun s id hc => ?_, CoreSt.guard_eq_none, fun s g hc => ⟨fun hg => ?_, fun hg => ?_, rfl, rfl⟩⟩
  · have hserved := settleBanks_gsl s
    have hcore : s.nextCycle.core id = _ :=
      State.core_map (f := fun c => { c with gslSeen := c.csr.gsl }) (fun _ => rfl) ((hserved.hasCore id).trans hc) |>.1
    exact ⟨(congrArg CoreSt.gslSeen hcore).trans (hserved.core id), congrArg (· + 1) hserved.cycle⟩
  · exact ⟨resolvedSlots g true, resolvedSlots g false, runScalar_resolveSlot hc _ hg true, runScalar_resolveSlot hc _ hg false,
      fun w i hi => getLsbD_resolvedSlots g w hi⟩
  · subst hg
    exact ⟨runScalar_traps hc (resolveSlot_zero true s), runScalar_traps hc (resolveSlot_zero false s)⟩

/-! ### Condition bits (R230, R231) -/

theorem cbitsM_quiet (h : s.Still) : cbitsM s = .ok (s.cbits (s.leader s.cur), s) := by
  rw [cbitsM, M.bind_get]
  exact inputM_quiet h _ _

/-- A branch on a condition bit to an aligned target. -/
theorem runScalar_branchBit (h : s.Still) (par : Parcel) (cb : BitVec 6) {imm : BitVec 12} (want : Bool) {t : Word}
    (ht : (s.core s.cur).pc + brOff imm = t) (ha : t.toNat % 4 = 0) :
    (bit (s.cbits (s.leader s.cur)) cb.toNat = want → runScalar par (branchBit cb imm want) s = .next (s.retiring (fun c => c.jumped t))) ∧
    (bit (s.cbits (s.leader s.cur)) cb.toNat ≠ want → runScalar par (branchBit cb imm want) s = .next (s.retiring CoreSt.after)) := by
  subst ht
  have hrun : branchBit cb imm want s = (if bit (s.cbits (s.leader s.cur)) cb.toNat = want then
      modMe (fun c => { c with pc := (s.core s.cur).pc + brOff imm }) else advance) s := by
    rw [branchBit, M.bind_me, M.bind_ok (aligned_ok ha s), M.bind_ok (cbitsM_quiet h)]
  refine ⟨fun hb => ?_, fun hb => ?_⟩
  · rw [if_pos hb] at hrun
    exact (runScalar_ok h.core hrun).trans (congrArg _ (retire_jump s _))
  · rw [if_neg hb] at hrun
    exact runScalar_passes h.core hrun

theorem branchBit_misaligned (cb : BitVec 6) (imm : BitVec 12) (want : Bool) (ht : ((s.core s.cur).pc + brOff imm).toNat % 4 ≠ 0) :
    branchBit cb imm want s = .error (.trap ⟨0x05, (s.core s.cur).pc + brOff imm, 0, 0⟩) := by
  rw [branchBit, M.bind_me, M.bind_error (aligned_error ht s)]

theorem exec_wfc_retires (h : s.Still) {rs1 : Reg} (hv : (s.core s.cur).rx rs1 = 0 ∨ s.cbits s.cur &&& (s.core s.cur).rx rs1 ≠ 0) :
    exec (.wfc rs1) s = .next (s.retiring CoreSt.after) := by
  rcases hv with hv | hv
  · refine runScalar_passes h.core ?_
    rw [M.bind_rxM, if_neg (not_not.mpr hv)]
    rfl
  · exact execWfc_passes h.core h.win h.replay hv

theorem exec_wfc_waits (h : s.Still) {rs1 : Reg} (hv : (s.core s.cur).rx rs1 ≠ 0) (hz : s.cbits s.cur &&& (s.core s.cur).rx rs1 = 0) :
    exec (.wfc rs1) s = s.waits := by
  refine runScalar_waits h.core ?_
  simp only [M.bind_rxM, ne_eq, hv, not_false_eq_true, if_true, M.bind_get, M.bind_me, h.replay, Option.isNone_none, hz, and_self]
  rfl

/-- Settles O21: the branches by their bit, the waits by what they wait for. -/
theorem conditionWaitResult : Obligations.ConditionWaitResult := by
  constructor
  · intro s cb imm hq t b
    refine ⟨fun ht => ?_, fun ht => ⟨?_, ?_⟩⟩
    · obtain ⟨htaken, hnot⟩ := runScalar_branchBit hq.toStill (parcelOf (.bcb cb imm)) cb true rfl ht
      obtain ⟨htakenN, hnotN⟩ := runScalar_branchBit hq.toStill (parcelOf (.bcbn cb imm)) cb false rfl ht
      cases hb : b with
      | true => exact ⟨htaken hb, hnotN (ne_of_eq_of_ne hb (by decide))⟩
      | false => exact ⟨hnot (ne_of_eq_of_ne hb (by decide)), htakenN hb⟩
    · exact runScalar_traps hq.core (branchBit_misaligned cb imm true ht)
    · exact runScalar_traps hq.core (branchBit_misaligned cb imm false ht)
  · intro s rs1 hq v
    refine ⟨exec_wfc_retires hq.toStill, exec_wfc_waits hq.toStill, execWfcy_passes hq.core, fun hlt => ?_⟩
    refine runScalar_waits hq.core ?_
    rw [M.bind_rxM, M.bind_get, if_pos hlt]
    rfl

/-! ### Codes in a doubleword (R233) -/

/-- An instruction that writes one register and nothing else. -/
theorem runScalar_wxM (hc : s.hasCore s.cur = true) (par : Parcel) (rd : Reg) (v : CoreSt → Word) :
    runScalar par (do let c ← me; wxM rd (v c); advance) s = .next (s.retiring (fun x => (x.wx rd (v (s.core s.cur))).after)) :=
  (runScalar_ok hc rfl).trans (congrArg _ (retire_advance s (fun x => x.wx rd (v (s.core s.cur))) fun c => c.wx_id ..))

/-- Settles O30: both forms write their register; the decoder computes their worked parcels. -/
theorem narrowPack : Obligations.NarrowPack := by
  intro s fmt rd rs1 rs2 hc c F i
  exact ⟨runScalar_wxM hc (parcelOf (.nfpack fmt rd rs1 rs2)) rd fun c => ((c.rx rs1) >>> (Fmt.ofReg (c.fmtReg fmt)).cont) |||
      word ((c.rx rs2).toNat % 2 ^ (Fmt.ofReg (c.fmtReg fmt)).width * 2 ^ (64 - (Fmt.ofReg (c.fmtReg fmt)).cont)),
    runScalar_wxM hc (parcelOf (.nfunpk fmt rd rs1 rs2)) rd fun c => word ((c.rx rs1).toNat / 2 ^ ((c.rx rs2).toNat % (64 / (Fmt.ofReg (c.fmtReg fmt)).cont) *
      (Fmt.ofReg (c.fmtReg fmt)).cont) % 2 ^ (Fmt.ofReg (c.fmtReg fmt)).width), rfl, rfl⟩

end Sys2Proof.Machine
end

section
/-! Task records that `spawn` and `arm` publish (spec/11 R261, R265, R268, R269). -/

namespace Sys2Proof.Machine

variable {s t : State} {a : Word}

/-! ### Reading a record -/

theorem loadRec_misaligned (h : a.toNat % 64 ≠ 0) : loadRec a s = .error (.trap ⟨0x05, a, 0, 0⟩) := by
  rw [loadRec, M.bind_error]
  rw [recAddr, M.bind_myCtx, M.bind_error (aligned_error h s)]

theorem loadRec_beyond (ha : a.toNat % 64 = 0) (h : a.toNat ≥ 2 ^ 20 ∨ a.toNat + 64 > (s.ctx s.cur.asid).par.fp) :
    loadRec a s = .error (.trap (refusalTrap 0x0A a false)) := by
  rw [loadRec, M.bind_error]
  rw [recAddr, M.bind_myCtx, M.bind_ok (aligned_ok ha s), if_pos h]
  rfl

/-- A record that a core with nothing on its way reads; its die is touched. -/
theorem loadRec_quiet (hq : s.Quiet) (ha : a.toNat % 64 = 0) (ho : s.OwnOk a.toNat 64) :
    loadRec a s = .ok (s.recordAt a.toNat, s.reach s.cur.asid (.scratch s.cur.l a.toNat) 64) := by
  have hfits : ¬(a.toNat ≥ 2 ^ 20 ∨ a.toNat + 64 > (s.ctx s.cur.asid).par.fp) := by
    have := ho.low
    have := ho.fits
    omega
  have haddr : recAddr a s = .ok ((), s) := by
    rw [recAddr, M.bind_myCtx, M.bind_ok (aligned_ok ha s), if_neg hfits]
    rfl
  rw [loadRec, M.bind_ok haddr, M.bind_ok (ownRead_quiet hq ho), M.bind_myId, (reach_touched ho.open_.die).cur]
  rfl

/-! ### What is refused -/

section
variable {rs1 rs2 : Reg} (hc : s.hasCore s.cur = true)
include hc

/-- Where no record is read, `spawn` and `arm` trap alike. -/
theorem exec_publish_traps {code : Nat} {val : Word} (h : loadRec ((s.core s.cur).rx rs1) s = .error (.trap ⟨code, val, 0, 0⟩)) :
    exec (.spawn rs1) s = s.traps (.spawn rs1) code val ∧ exec (.arm rs1 rs2) s = s.traps (.arm rs1 rs2) code val :=
  ⟨runScalar_traps hc (by rw [M.bind_rxM, M.bind_error h]), runScalar_traps hc (by rw [M.bind_rxM, M.bind_rxM, M.bind_error h])⟩

theorem exec_publish_refuses {code : Nat} {va : Word} (h : loadRec ((s.core s.cur).rx rs1) s = .error (.trap (refusalTrap code va false))) :
    exec (.spawn rs1) s = s.refuses (.spawn rs1) code va ∧ exec (.arm rs1 rs2) s = s.refuses (.arm rs1 rs2) code va :=
  ⟨runScalar_refuses hc (by rw [M.bind_rxM, M.bind_error h]), runScalar_refuses hc (by rw [M.bind_rxM, M.bind_rxM, M.bind_error h])⟩

end

theorem State.Touched.recReason (h : s.Touched t) (asid : Nat) (r : TaskRec) :
    (t.ctx asid).recReason r = (s.ctx asid).recReason r :=
  (congrArg (fun x : Ctx => x.recReason r) (h.ctx asid) :)

theorem validateRec_invalid (h : s.Touched t) {r : TaskRec} (hbad : (s.ctx s.cur.asid).recReason r ≠ 0) :
    validateRec r t = .error (.trap ⟨0x15, word ((s.ctx s.cur.asid).recReason r * 256), 0, 0⟩) := by
  rw [validateRec, M.bind_myCtx, h.cur, h.recReason, if_pos hbad]
  rfl

theorem validateRec_valid (h : s.Touched t) {r : TaskRec} (hr : (s.ctx s.cur.asid).recReason r = 0) : validateRec r t = .ok ((), t) := by
  rw [validateRec, M.bind_myCtx, h.cur, h.recReason, if_neg (not_not.mpr hr)]
  rfl

section
variable {rs1 rs2 : Reg} (hq : s.Quiet) (ha : ((s.core s.cur).rx rs1).toNat % 64 = 0) (ho : s.OwnOk ((s.core s.cur).rx rs1).toNat 64)
include hq ha ho

theorem exec_spawn_invalid {reason : Nat} (hr : (s.ctx s.cur.asid).recReason (s.recordAt ((s.core s.cur).rx rs1).toNat) = reason)
    (hbad : reason ≠ 0) : exec (.spawn rs1) s = s.traps (.spawn rs1) 0x15 (word (reason * 256)) := by
  subst hr
  refine runScalar_traps hq.core ?_
  rw [M.bind_rxM, M.bind_ok (loadRec_quiet hq ha ho), M.bind_error]
  exact validateRec_invalid (reach_touched ho.open_.die) hbad

theorem exec_arm_malformed (ht : bits ((s.core s.cur).rx rs2) 62 44 ≠ 0) :
    exec (.arm rs1 rs2) s = s.traps (.arm rs1 rs2) 0x15 (word 0x100) := by
  refine runScalar_traps hq.core ?_
  rw [M.bind_rxM, M.bind_rxM, M.bind_ok (loadRec_quiet hq ha ho), if_pos ht]
  rfl

theorem exec_arm_invalid (ht : bits ((s.core s.cur).rx rs2) 62 44 = 0) {reason : Nat}
    (hr : (s.ctx s.cur.asid).recReason (s.recordAt ((s.core s.cur).rx rs1).toNat) = reason) (hbad : reason ≠ 0) :
    exec (.arm rs1 rs2) s = s.traps (.arm rs1 rs2) 0x15 (word (reason * 256)) := by
  subst hr
  refine runScalar_traps hq.core ?_
  rw [M.bind_rxM, M.bind_rxM, M.bind_ok (loadRec_quiet hq ha ho), if_neg (not_not.mpr ht)]
  exact M.bind_error (validateRec_invalid (reach_touched ho.open_.die) hbad)

theorem exec_arm_tableFull (hr : (s.ctx s.cur.asid).recReason (s.recordAt ((s.core s.cur).rx rs1).toNat) = 0)
    (ht : bits ((s.core s.cur).rx rs2) 62 44 = 0)
    (hlow : (s.core s.cur).ctr (bits ((s.core s.cur).rx rs2) 11 0) < bits ((s.core s.cur).rx rs2) 43 12)
    (hfull : 256 ≤ (s.core s.cur).waiting.length) : exec (.arm rs1 rs2) s = s.traps (.arm rs1 rs2) 0x16 0 := by
  have htouched := reach_touched (n := 64) ho.open_.die
  refine runScalar_traps hq.core ?_
  simp only [M.bind_rxM, M.bind_ok (loadRec_quiet hq ha ho), if_neg (not_not.mpr ht), M.bind_ok (validateRec_valid htouched hr), M.bind_me,
    htouched.cur, htouched.core, if_pos (And.intro hlow hfull)]
  rfl

end

/-! ### Publishing -/

section
variable {p : Place} {n : Nat} (hs : s.Still) (ho : s.Open p n)
include ho

theorem poolRoom_reach {r : TaskRec} (hroom : s.roomFor r) : poolRoom r (s.reach s.cur.asid p n) = .ok ((), s.reach s.cur.asid p n) := by
  have hpool : (s.reach s.cur.asid p n).poolFull (((s.reach s.cur.asid p n).ctx (s.reach s.cur.asid p n).cur.asid).dieOf r.lcn) = false := by
    rw [(reach_touched ho.die).cur, reach_ctx_dieOf n false ho.die]
    obtain ⟨cs, q, h⟩ := reach_ctxs n false ho.die
    rw [h]
    exact hroom
  rw [poolRoom, M.bind_myCtx, dieRoom, M.bind_get, if_neg (ne_true_of_eq_false hpool)]
  rfl

include hs

theorem releaseCtx_reach : releaseCtx (s.reach s.cur.asid p n) = .ok ([], s.reach s.cur.asid p n) := by
  rw [releaseCtx, M.bind_myCtx]
  exact releaseFor_quiet (still_reach hs ho) _

end

/-- A change of the current core before its instruction retires. -/
theorem retiring_modCore {id : CoreId} (hid : s.cur = id) {f : CoreSt → CoreSt} (hf : ∀ c, (f c).id = c.id) (g : CoreSt → CoreSt) :
    (s.modCore id f).retiring g = s.retiring (fun c => g (f c)) := by
  subst hid
  unfold State.retiring
  rw [State.modCore_cur, modCore_two _ _ _ _ hf]

/-- The core whose `arm` retires: it marks the run where its operand says so (R269). -/
def CoreSt.armed (b : Bool) (c : CoreSt) : CoreSt := (if b then { c with cont := true } else c).after

/-- A record enters the waiting table of its core (R265). -/
def CoreSt.enlisted (w : Armed) (c : CoreSt) : CoreSt := { c with waiting := c.waiting ++ [w] }

/-- How an `arm` ends that has published its record or put it in the waiting table. -/
theorem runScalar_armed {par : Parcel} {m : M Unit} {b : Bool} (hc : s.hasCore s.cur = true)
    (h : m s = (do
      if b then modMe (fun c => { c with cont := true })
      advance : M Unit) t) :
    runScalar par m s = .next (t.retiring (CoreSt.armed b)) := by
  cases b with
  | false => exact (runScalar_ok hc h).trans (congrArg _ (retire_advance_only t))
  | true => exact (runScalar_ok hc h).trans (congrArg _ (retire_advance t (fun c => { c with cont := true }) fun _ => rfl))

section
variable {rs1 rs2 : Reg} (hq : s.Quiet) (hp : s.Publishable ((s.core s.cur).rx rs1))
include hq hp

theorem exec_spawn_publishes (hroom : s.roomFor (s.recordAt ((s.core s.cur).rx rs1).toNat)) :
    exec (.spawn rs1) s = .next (((s.reach s.cur.asid (.scratch s.cur.l ((s.core s.cur).rx rs1).toNat) 64).makeRunnable s.cur.asid
      (s.dieOf s.cur) (s.recordAt ((s.core s.cur).rx rs1).toNat) none).retiring CoreSt.after) := by
  obtain ⟨ha, ho, hr⟩ := hp
  have htouched := reach_touched (n := 64) ho.open_.die
  refine (runScalar_ok hq.core ?_).trans (congrArg _ (retire_advance_only _))
  rw [M.bind_rxM, M.bind_ok (loadRec_quiet hq ha ho), M.bind_ok (validateRec_valid htouched hr),
    M.bind_ok (poolRoom_reach ho.open_ hroom), M.bind_ok (releaseCtx_reach hq.toStill ho.open_), publish, M.bind_updM, htouched.cur,
    htouched.dieOf]
  rfl

variable (ht : bits ((s.core s.cur).rx rs2) 62 44 = 0)
include ht

theorem exec_arm_publishes (hth : bits ((s.core s.cur).rx rs2) 43 12 ≤ (s.core s.cur).ctr (bits ((s.core s.cur).rx rs2) 11 0))
    (hroom : s.roomFor (s.recordAt ((s.core s.cur).rx rs1).toNat)) :
    let k := bits ((s.core s.cur).rx rs2) 11 0
    exec (.arm rs1 rs2) s = .next ((((s.reach s.cur.asid (.scratch s.cur.l ((s.core s.cur).rx rs1).toNat) 64).modCore s.cur
      (fun x => x.setCtr k (x.ctr k - bits ((s.core s.cur).rx rs2) 43 12))).makeRunnable s.cur.asid (s.dieOf s.cur)
        (s.recordAt ((s.core s.cur).rx rs1).toNat) none ((s.core s.cur).ctrCarried k)).retiring
          (CoreSt.armed (bit ((s.core s.cur).rx rs2) 63))) := by
  obtain ⟨ha, ho, hr⟩ := hp
  have htouched := reach_touched (n := 64) ho.open_.die
  have htable : ¬((s.core s.cur).ctr (bits ((s.core s.cur).rx rs2) 11 0) < bits ((s.core s.cur).rx rs2) 43 12 ∧
      (s.core s.cur).waiting.length ≥ 256) := fun ⟨hlow, _⟩ => Nat.not_lt.mpr hth hlow
  refine runScalar_armed hq.core ?_
  simp only [M.bind_rxM, M.bind_ok (loadRec_quiet hq ha ho), if_neg (not_not.mpr ht), M.bind_ok (validateRec_valid htouched hr),
    M.bind_me, htouched.cur, htouched.core, if_neg htable, if_pos hth,
    M.bind_ok (poolRoom_reach ho.open_ hroom), M.bind_ok (releaseCtx_reach hq.toStill ho.open_), M.bind_modMe, publish,
    M.bind_updM, State.modCore_cur, State.dieOf_modCore, htouched.dieOf]
  rfl

theorem exec_arm_waits (hlow : (s.core s.cur).ctr (bits ((s.core s.cur).rx rs2) 11 0) < bits ((s.core s.cur).rx rs2) 43 12)
    (hfree : (s.core s.cur).waiting.length < 256) :
    let w : Armed := ⟨s.recordAt ((s.core s.cur).rx rs1).toNat, bits ((s.core s.cur).rx rs2) 11 0, bits ((s.core s.cur).rx rs2) 43 12, []⟩
    exec (.arm rs1 rs2) s = .next ((s.reach s.cur.asid (.scratch s.cur.l ((s.core s.cur).rx rs1).toNat) 64).retiring (fun x =>
      CoreSt.armed (bit ((s.core s.cur).rx rs2) 63) (x.enlisted w))) := by
  obtain ⟨ha, ho, hr⟩ := hp
  have htouched := reach_touched (n := 64) ho.open_.die
  have htable : ¬((s.core s.cur).ctr (bits ((s.core s.cur).rx rs2) 11 0) < bits ((s.core s.cur).rx rs2) 43 12 ∧
      (s.core s.cur).waiting.length ≥ 256) := fun ⟨_, hfull⟩ => Nat.not_le.mpr hfree hfull
  refine (runScalar_armed hq.core ?_).trans (congrArg _ (retiring_modCore htouched.cur (f := CoreSt.enlisted _) (fun _ => rfl) _))
  simp only [M.bind_rxM, M.bind_ok (loadRec_quiet hq ha ho), if_neg (not_not.mpr ht), M.bind_ok (validateRec_valid htouched hr),
    M.bind_me, htouched.core, if_neg htable, if_neg (Nat.not_le.mpr hlow),
    M.bind_ok (releaseCtx_reach hq.toStill ho.open_), M.bind_modMe, htouched.cur]
  rfl

end

/-- Settles O11: what passes by what its record does once it is read, what is refused by the check that it fails. -/
theorem publishResult : Obligations.PublishResult := by
  constructor
  · intro s rs1 rs2 hq c a t r s1 k th fin hp
    exact ⟨exec_spawn_publishes hq hp, exec_arm_publishes hq hp, exec_arm_waits hq hp⟩
  · intro s rs1 rs2 hq c a t reason
    refine ⟨fun ha => exec_publish_traps hq.core (loadRec_misaligned ha), fun ha hout => exec_publish_refuses hq.core (loadRec_beyond ha hout),
      fun ha ho => ⟨exec_spawn_invalid hq ha ho rfl, exec_arm_malformed hq ha ho, fun ht => exec_arm_invalid hq ha ho ht rfl, ?_⟩⟩
    exact fun ht hr => exec_arm_tableFull hq ha ho hr ht

end Sys2Proof.Machine
end

section
/-! Groups, named barriers and votes (spec/11 R273 to R277). -/

namespace Sys2Proof.Machine

variable {s t : State}

/-! ### Groups (R273) -/

section
variable {v : Word}

theorem groupArg_valid (hup : bits v 63 12 = 0) (hg : bits v 11 0 ≠ 0) (s : State) : groupArg v s = .ok (bits v 11 0, s) := by
  rw [groupArg, if_neg fun h => h.elim (absurd hup) hg]
  rfl

theorem groupArg_invalid (h : bits v 63 12 ≠ 0 ∨ bits v 11 0 = 0) (s : State) : groupArg v s = .error (.trap ⟨0x17, 0, 0, 0⟩) := by
  rw [groupArg, if_pos h]
  rfl

end

section
variable (hc : s.hasCore s.cur = true) (rs1 : Reg)
include hc

theorem exec_group_changes (hup : bits ((s.core s.cur).rx rs1) 63 12 = 0) (hg : bits ((s.core s.cur).rx rs1) 11 0 ≠ 0) :
    let g := bits ((s.core s.cur).rx rs1) 11 0
    exec (.join rs1) s = .next ((s.modCtx s.cur.asid (fun x => x.join g (s.core s.cur).lcn)).retiring CoreSt.after) ∧
    exec (.leave rs1) s = .next ((s.modCtx s.cur.asid (fun x => x.leave g (s.core s.cur).lcn)).retiring CoreSt.after) := by
  constructor
  · exact (runScalar_ok hc (by rw [M.bind_rxM, M.bind_ok (groupArg_valid hup hg s)]; rfl)).trans (congrArg _ (retire_advance_only _))
  · exact (runScalar_ok hc (by rw [M.bind_rxM, M.bind_ok (groupArg_valid hup hg s)]; rfl)).trans (congrArg _ (retire_advance_only _))

theorem exec_group_traps (h : bits ((s.core s.cur).rx rs1) 63 12 ≠ 0 ∨ bits ((s.core s.cur).rx rs1) 11 0 = 0) :
    exec (.join rs1) s = s.traps (.join rs1) 0x17 0 ∧ exec (.leave rs1) s = s.traps (.leave rs1) 0x17 0 := by
  constructor
  · exact runScalar_traps hc (by rw [M.bind_rxM, M.bind_error (groupArg_invalid h s)])
  · exact runScalar_traps hc (by rw [M.bind_rxM, M.bind_error (groupArg_invalid h s)])

end

section
variable (x : Ctx) (g l h m : Nat)

theorem Ctx.mem_groups_join : (h, m) ∈ (x.join g l).groups ↔ (h, m) = (g, l) ∨ (h, m) ∈ x.groups := by
  unfold Ctx.join
  split
  · next hin =>
    have hmem : (g, l) ∈ x.groups := List.contains_iff_mem.mp hin
    exact ⟨.inr, fun hor => hor.elim (fun heq => heq ▸ hmem) id⟩
  · rw [List.mem_append, List.mem_singleton]
    exact or_comm

theorem Ctx.mem_groups_leave : (h, m) ∈ (x.leave g l).groups ↔ (h, m) ≠ (g, l) ∧ (h, m) ∈ x.groups := by
  simp [Ctx.leave, and_comm]

/-- Membership is that of the table; group 0 holds every core. -/
theorem Ctx.inGroup_congr {y : Ctx} (hn : y.n = x.n) (hg : (h, m) ∈ y.groups ↔ (h, m) ∈ x.groups) : y.inGroup h m = x.inGroup h m := by
  unfold Ctx.inGroup
  split
  · rw [hn]
  · rw [Bool.eq_iff_iff, List.contains_iff_mem, List.contains_iff_mem, hg]

theorem Ctx.n_join : (x.join g l).n = x.n := by
  unfold Ctx.join
  split <;> rfl

end

/-- Settles O15: the instructions by their operand's check; memberships by what the table of groups then holds. -/
theorem groupResult : Obligations.GroupResult := by
  constructor
  · intro s rs1 hc c v g
    exact ⟨exec_group_changes hc rs1, exec_group_traps hc rs1⟩
  · intro x g h l m hg
    refine ⟨?_, ?_, fun hne => ⟨?_, ?_⟩⟩
    · rw [Ctx.inGroup, if_neg hg, List.contains_iff_mem, Ctx.mem_groups_join]
      exact .inl rfl
    · rw [Ctx.inGroup, if_neg hg, Bool.eq_false_iff, ne_eq, List.contains_iff_mem, Ctx.mem_groups_leave]
      exact fun h => h.1 rfl
    · refine x.inGroup_congr h m (x.n_join g l) ?_
      rw [Ctx.mem_groups_join]
      exact or_iff_right hne
    · refine x.inGroup_congr h m rfl ?_
      rw [Ctx.mem_groups_leave]
      exact and_iff_right hne

/-! ### Arrivals (R275) -/

section
variable {d : Word} {gth : Bool} {a : Arrival} {l name : Nat}

/-- An arrival that passes its checks is made; a core with nothing on its way releases nothing with it. -/
theorem arriveM_quiet (h : s.Still) (hm : s.MayArrive d gth) (cen ballot : Option Nat) (waits : Bool) :
    arriveM d gth none cen ballot waits s = .ok ((), s.arriving d gth cen ballot waits) := by
  obtain ⟨hmember, hfirst, hone, hsame⟩ := hm
  have hspread := not_and_any_not hone
  simp only [bne] at hsame
  simp only [arriveM, M.bind_get, M.bind_me, M.bind_myCtx, hmember, Bool.not_true, Bool.false_eq_true, if_false, State.ctx_asid, hfirst,
    Option.isSome_none, bne, if_neg hspread, hsame, M.bind_ok (releaseFor_quiet h _), M.bind_myId]
  rfl

theorem waitingHere_first (h : s.arrivalOf s.cur.asid (s.core s.cur).lcn (Barrier.nameOf d) = none) :
    waitingHere d s = .ok (false, s) := by
  simp only [waitingHere, M.bind_get, M.bind_me, h]
  rfl

theorem waitingHere_mine (h : s.arrivalOf s.cur.asid (s.core s.cur).lcn (Barrier.nameOf d) = some a)
    (hby : a.by_ = some (s.cur.l, (s.core s.cur).pc)) : waitingHere d s = .ok (true, s) := by
  simp only [waitingHere, M.bind_get, M.bind_me, h, hby]
  simp

theorem awaitArrival_done (h : s.arrivalOf s.cur.asid (s.core s.cur).lcn name = some a) (hdone : a.done = true) :
    awaitArrival name s = .ok (a, s) := by
  simp only [awaitArrival, M.bind_get, M.bind_me, h, hdone, if_true]
  rfl

theorem awaitArrival_open (h : ∀ a, s.arrivalOf s.cur.asid (s.core s.cur).lcn name = some a → a.done = false) :
    awaitArrival name s = .error (.wait s) := by
  simp only [awaitArrival, M.bind_get, M.bind_me]
  cases ha : s.arrivalOf s.cur.asid (s.core s.cur).lcn name with
  | none => rfl
  | some a => simp only [h a ha, Bool.false_eq_true, if_false]; rfl

/-- A change of a core that is not there changes nothing. -/
theorem State.core_modCore_absent {id : CoreId} (h : s.hasCore id = false) (f : CoreSt → CoreSt) : (s.modCore id f).core id = s.core id := by
  have hnone : s.core? id = none := Option.isNone_iff_eq_none.mp (by simpa [State.hasCore] using h)
  unfold State.core
  rw [State.core?_modCore, hnone]
  rfl

/-- An arrival is held for the core's logical number where a core has it, and has not completed. -/
theorem arrivalOf_arriving (hfirst : s.arrivalOf s.cur.asid (s.core s.cur).lcn (Barrier.nameOf d) = none) {cen ballot : Option Nat} {waits : Bool}
    (ha : (s.arriving d gth cen ballot waits).arrivalOf s.cur.asid (s.core s.cur).lcn (Barrier.nameOf d) = some a) : a.done = false := by
  unfold State.arrivalOf State.arriving at ha
  cases hhold : s.hasCore ⟨s.cur.asid, (s.core s.cur).lcn⟩ with
  | true =>
    rw [State.core_modCore_self _ (by exact hhold)] at ha
    simp only [State.core_modCtx, List.find?_append] at ha
    rw [show List.find? _ _ = none from hfirst] at ha
    simp only [Option.none_or, List.find?_cons, beq_self_eq_true, Option.some.injEq] at ha
    exact ha ▸ rfl
  | false =>
    rw [State.core_modCore_absent (by exact hhold)] at ha
    exact nomatch hfirst.symm.trans ha

theorem lcn_arriving (cen ballot : Option Nat) (waits : Bool) :
    ((s.arriving d gth cen ballot waits).core s.cur).lcn = (s.core s.cur).lcn := by
  unfold State.arriving
  exact State.core_modCore_proj CoreSt.lcn (by exact fun _ => rfl) (s.modCtx _ _) _ _

/-- An arrival that has just been made is waited for. -/
theorem awaitArrival_arriving (hfirst : s.arrivalOf s.cur.asid (s.core s.cur).lcn (Barrier.nameOf d) = none) (cen ballot : Option Nat)
    (waits : Bool) : awaitArrival (Barrier.nameOf d) (s.arriving d gth cen ballot waits) =
      .error (.wait (s.arriving d gth cen ballot waits)) := by
  refine awaitArrival_open fun a ha => arrivalOf_arriving hfirst (cen := cen) (ballot := ballot) (waits := waits) (gth := gth) ?_
  rwa [show (s.arriving d gth cen ballot waits).cur = s.cur from rfl, lcn_arriving] at ha

/-- A completed arrival that gathers nothing is taken. -/
theorem finishBar_taken (h : s.arrivalOf s.cur.asid (s.core s.cur).lcn name = some a) (gth : Bool) (hgth : (gth && a.gth) = false)
    (addr : Nat) : finishBar gth addr a s = .ok ((), s.dropArrival s.cur.asid (s.core s.cur).lcn name) := by
  have hname : a.name = name := by simpa using List.find?_some h
  rw [finishBar, hgth, hname]
  rfl

end

/-! ### `bar`, `bara`, `barw` and `vote` (R275 to R277) -/

/-- A scalar meaning that waits after what it has done. -/
theorem runScalar_waitsIn {par : Parcel} {m : M Unit} (hc : s.hasCore s.cur = true) (h : m s = .error (.wait t)) :
    runScalar par m s = t.waits := by
  simp [runScalar, hc, h, State.waits]

section
variable (hs : s.Still) {rd rs1 rs2 : Reg} {d v : Word} (hrs1 : (s.core s.cur).rx rs1 = d) (hrs2 : (s.core s.cur).rx rs2 = v)
  (hd : bits d 63 21 = 0)
include hs hrs1 hrs2 hd

theorem exec_bara_arrives (hv : bits v 63 33 = 0) (haddr : bits v 19 0 = 0) (hm : s.MayArrive d (Barrier.gthOf d)) :
    exec (.bara rs1 rs2) s = .next ((s.arriving d (Barrier.gthOf d) (if bit v 32 then some (bits v 31 20) else none) none false).retiring
      CoreSt.after) := by
  refine (runScalar_ok hs.core ?_).trans (congrArg _ (retire_advance_only _))
  simp only [M.bind_rxM, hrs1, hrs2, hd, hv, haddr, ne_eq, not_true_eq_false, or_self, if_false, M.bind_ok (arriveM_quiet hs hm _ _ _)]
  rfl

theorem exec_bar_arrives (hv : bits v 63 33 = 0) (hgth : Barrier.gthOf d = false) (hm : s.MayArrive d false) :
    exec (.bar rs1 rs2) s = (s.arriving d false (if bit v 32 then some (bits v 31 20) else none) none true).waits := by
  refine runScalar_waitsIn hs.core ?_
  simp only [M.bind_rxM, hrs1, hrs2, hd, hv, ne_eq, not_true_eq_false, or_self, if_false, M.bind_ok (waitingHere_first hm.first),
    Bool.not_false, if_true, hgth, Bool.false_eq_true, M.bind_ok (arriveM_quiet hs hm _ _ _), M.bind_error (awaitArrival_arriving hm.first _ _ _)]

theorem exec_vote_arrives (hv : bits v 63 2 = 0) (hgth : Barrier.gthOf d = false) (hm : s.MayArrive d false) :
    exec (.vote rd rs1 rs2) s = (s.arriving d false none (some (bits v 1 0)) true).waits := by
  refine runScalar_waitsIn hs.core ?_
  simp only [M.bind_rxM, hrs1, hrs2, hd, hv, ne_eq, not_true_eq_false, or_self, if_false, M.bind_ok (waitingHere_first hm.first),
    Bool.not_false, if_true, hgth, Bool.false_eq_true, M.bind_ok (arriveM_quiet hs hm _ _ _), M.bind_error (awaitArrival_arriving hm.first _ _ _)]

variable {a : Arrival} (ha : s.arrivalOf s.cur.asid (s.core s.cur).lcn (Barrier.nameOf d) = some a) (hdone : a.done = true)
include ha hdone

theorem exec_bar_completes (hplain : a.gth = false) (hv : bits v 63 33 = 0) (hby : a.by_ = some (s.cur.l, (s.core s.cur).pc)) :
    exec (.bar rs1 rs2) s = .next ((s.dropArrival s.cur.asid (s.core s.cur).lcn (Barrier.nameOf d)).retiring CoreSt.after) := by
  refine (runScalar_ok hs.core ?_).trans (congrArg _ (retire_advance_only _))
  simp only [M.bind_rxM, hrs1, hrs2, hd, hv, ne_eq, not_true_eq_false, or_self, if_false, M.bind_ok (waitingHere_mine ha hby),
    Bool.not_true, Bool.false_eq_true, M.bind_ok (awaitArrival_done ha hdone), M.bind_ok (acquire_quiet hs _),
    M.bind_ok (acquireOf_unwatched hs.watched _ _), M.bind_ok (finishBar_taken ha (Barrier.gthOf d) (by simp [hplain]) _)]
  rfl

theorem exec_barw_completes (hv : bits v 63 33 = 0) (hcen : bit v 32 = false) (hgth : Barrier.gthOf d = false) :
    exec (.barw rs1 rs2) s = .next ((s.dropArrival s.cur.asid (s.core s.cur).lcn (Barrier.nameOf d)).retiring CoreSt.after) := by
  refine (runScalar_ok hs.core ?_).trans (congrArg _ (retire_advance_only _))
  simp only [M.bind_rxM, hrs1, hrs2, hd, hv, hcen, ne_eq, not_true_eq_false, or_self, if_false, Bool.false_eq_true, M.bind_myCtx, M.bind_me,
    M.bind_get, ha, Option.isNone_some, hgth, false_and, M.bind_ok (awaitArrival_done ha hdone), M.bind_ok (acquire_quiet hs _),
    M.bind_ok (acquireOf_unwatched hs.watched _ _), M.bind_ok (finishBar_taken ha false rfl _)]
  rfl

theorem exec_vote_completes (hv : bits v 63 2 = 0) (hgth : Barrier.gthOf d = false) (hby : a.by_ = some (s.cur.l, (s.core s.cur).pc)) :
    exec (.vote rd rs1 rs2) s = .next ((s.dropArrival s.cur.asid (s.core s.cur).lcn (Barrier.nameOf d)).retiring
      (fun x => (x.wx rd a.res).after)) := by
  refine (runScalar_ok hs.core ?_).trans (congrArg _ (retire_advance _ (fun x => x.wx rd a.res) fun c => c.wx_id ..))
  have hname : a.name = Barrier.nameOf d := by simpa using List.find?_some ha
  simp only [M.bind_rxM, hrs1, hrs2, hd, hv, ne_eq, not_true_eq_false, or_self, if_false, hgth, M.bind_ok (waitingHere_mine ha hby),
    Bool.not_true, Bool.false_eq_true, M.bind_ok (awaitArrival_done ha hdone), M.bind_ok (acquire_quiet hs _),
    M.bind_ok (acquireOf_unwatched hs.watched _ _), takeArrival, hname]
  rfl

end

/-! ### The record of a gathering barrier (R276) -/

/-- An address within the own scratchpad, as the core's own window shows it. -/
def ownVa (a : Nat) : Word := word (0xFFFFFFFFFFF00000 + a)

theorem ownVa_add {a : Nat} (k : Nat) : ownVa a + word k = ownVa (a + k) := by
  simp [ownVa, word, ← BitVec.ofNat_add, Nat.add_assoc]

/-- The own window resolves to the own scratchpad (spec/03 R58). -/
theorem resolve_ownVa {a n : Nat} (rt : Bool) (hlow : a < 0xC0000) (hfits : a + n ≤ (s.ctx s.cur.asid).par.fp) :
    s.resolve s.cur rt (ownVa a) n .store = .ok (.scratch s.cur.l a) := by
  have hnat : (ownVa a).toNat = 0xFFFFFFFFFFF00000 + a := by
    simp only [ownVa, word, BitVec.toNat_ofNat]
    omega
  have hcanonical : canonical (ownVa a) = true := by
    simp only [canonical, bits, hnat, Bool.or_eq_true, beq_iff_eq]
    omega
  have hoff : (0xFFFFFFFFFFF00000 + a) % 2 ^ 20 = a := by omega
  have hlocal : localBase ≤ 0xFFFFFFFFFFF00000 + a := by
    unfold localBase
    omega
  have hwindow : (decide (0xFFFFFFFFFFF00000 ≤ 0xFFFFFFFFFFF00000 + a) && decide (0xFFFFFFFFFFF00000 + a ≤ 0xFFFFFFFFFFFBFFFF)) = true := by
    simp only [Bool.and_eq_true, decide_eq_true_eq]
    omega
  have hreg : (decide (0xFFFFFFFFFFE00000 ≤ 0xFFFFFFFFFFF00000 + a) && decide (0xFFFFFFFFFFF00000 + a ≤ 0xFFFFFFFFFFE1FFFF)) = false := by
    simp only [Bool.and_eq_false_iff, decide_eq_false_iff_not]
    omega
  simp only [State.resolve, hnat, hcanonical, Bool.not_true, Bool.false_eq_true, if_false, ge_iff_le, hlocal, if_true, hoff]
  rw [if_neg nofun, if_neg (by omega), hreg, if_neg Bool.false_ne_true, if_pos hwindow, if_neg (Nat.not_lt.mpr hfits)]

/-- The bytes that the write of a store-buffer entry holds, and where. -/
def BufWrite.what (w : BufWrite) : Place × Nat × Nat := (w.place, w.n, w.val)

/-- The current core has put own stores `ws` into its store buffer. -/
structure State.Stored (s t : State) (ws : List (Place × Nat × Nat)) : Prop where
  clear : t.Clear t.cur
  cur   : t.cur = s.cur
  ctxs  : t.ctxs = s.ctxs
  sb    : (t.core t.cur).sb.map BufWrite.what = (s.core s.cur).sb.map BufWrite.what ++ ws

theorem State.Stored.trans {u : State} {vs ws : List (Place × Nat × Nat)} (h : s.Stored t vs) (k : t.Stored u ws) :
    s.Stored u (vs ++ ws) :=
  ⟨k.clear, k.cur.trans h.cur, k.ctxs.trans h.ctxs, by rw [k.sb, h.sb, List.append_assoc]⟩

theorem State.Stored.ctx {ws : List (Place × Nat × Nat)} (h : s.Stored t ws) (asid : Nat) : t.ctx asid = s.ctx asid := by
  simp [State.ctx, State.ctx?, h.ctxs]

/-- A core keeps nothing beside it when one of its stores enters its buffer. -/
theorem clear_buffering (h : s.Clear s.cur) (e : BufWrite) : (s.modCore s.cur (fun x => x.buffering e)).Clear s.cur := by
  have hcore := State.core_modCore_eq (f := fun x => x.buffering e) h.core (State.core_id s s.cur)
  obtain ⟨hc, hwin, hwp, hdamage, hpoison, hspill, hreplay⟩ := h
  exact ⟨by simpa using hc, by rw [hcore]; exact hwin, by rw [hcore]; exact hwp, hdamage, hpoison, hspill, by rw [hcore]; exact hreplay⟩

/-- A store of eight bytes to the own scratchpad takes its place in the store buffer, whatever that holds. -/
theorem storeM_own (h : s.Clear s.cur) {a : Nat} (v : Nat) (hlow : a < 0xC0000) (hfits : a + 8 ≤ (s.ctx s.cur.asid).par.fp) :
    ∃ t, storeM (ownVa a) 8 v .die s = .ok ((), t) ∧ s.Stored t [(.scratch s.cur.l a, 8, v % 2 ^ 64)] := by
  let e := (s.core s.cur).entry (.scratch s.cur.l a) 8 v .store (ownVa a)
  have hcore := State.core_modCore_eq (f := fun x => x.buffering e) h.core (State.core_id s s.cur)
  have hwatch : watch (ownVa a) 8 true s = .ok ((), s) := by
    simp only [watch, CoreSt.watchHit_quiet h.wp, Bool.false_and, Bool.false_eq_true, if_false]
  have hdemand : demandM (.scratch s.cur.l a) 8 s = .ok ((), s) := by
    rw [demandM, blocksIn_clear h.spill, if_pos rfl]
  refine ⟨s.modCore s.cur (fun x => x.buffering e), ?_, clear_buffering h e, rfl, rfl, ?_⟩
  · rw [storeM, M.bind_ok hwatch, M.bind_ok (walkM_none h.damage _), M.bind_get, resolve_ownVa _ hlow hfits]
    simp only [bufferM, M.bind_myId, M.bind_me, M.bind_ok hdemand, Place.isLocal, beq_self_eq_true, Bool.and_self, if_true, M.bind_pure,
      M.bind_takeSeq, M.modMe_apply, State.modCore_cur]
    rw [modCore_two _ _ _ _ (by intro c; rfl)]
    simp [e, CoreSt.buffering, CoreSt.entry, Place.isLocal]
  · rw [State.modCore_cur, hcore]
    exact List.map_append

/-- Stores of eight bytes each, at distances from an own-scratchpad address. -/
def storeEach (addr : Nat) : List (Nat × Nat) → M Unit
  | [] => pure ()
  | (k, v) :: ws => do
    storeM (ownVa (addr + k)) 8 v .die
    storeEach addr ws

theorem storeEach_own (h : s.Clear s.cur) {addr : Nat} {ws : List (Nat × Nat)}
    (hws : ∀ w ∈ ws, addr + w.1 < 0xC0000 ∧ addr + w.1 + 8 ≤ (s.ctx s.cur.asid).par.fp) :
    ∃ t, storeEach addr ws s = .ok ((), t) ∧ s.Stored t (ws.map fun w => (.scratch s.cur.l (addr + w.1), 8, w.2 % 2 ^ 64)) := by
  induction ws generalizing s with
  | nil => exact ⟨s, rfl, h, rfl, rfl, (List.append_nil _).symm⟩
  | cons w ws ih =>
    obtain ⟨⟨hlow, hfits⟩, hrest⟩ := List.forall_mem_cons.mp hws
    obtain ⟨t, hstore, ht⟩ := storeM_own h w.2 hlow hfits
    obtain ⟨u, hall, hu⟩ := ih ht.clear (by rwa [ht.ctx, ht.cur])
    rw [ht.cur] at hu
    exact ⟨u, (M.bind_ok hstore).trans hall, ht.trans hu⟩

/-- The 40-byte record as its five doublewords. -/
def recordWords (bs : List Byte) : List (Nat × Nat) := (List.range 5).map fun i => (8 * i, leNat ((bs.drop (8 * i)).take 8))

theorem storeRecord_eq (addr : Nat) (bs : List Byte) :
    storeRecord addr bs = (do watch (ownVa addr) 40 true; storeEach addr (recordWords bs)) := by
  have hat (k : Nat) : ownVa (addr + k) = ownVa addr + word k := (ownVa_add k).symm
  simp only [recordWords, List.range, List.range.loop, List.map_cons, List.map_nil, storeEach, hat, bind_pure_unit]
  simp [storeRecord, ownVa, word]

theorem storeRecord_own (h : s.Clear s.cur) {addr : Nat} (hlow : addr + 40 ≤ 0xC0000) (hfits : addr + 40 ≤ (s.ctx s.cur.asid).par.fp)
    (bs : List Byte) : ∃ t, storeRecord addr bs s = .ok ((), t) ∧ s.Stored t ((List.range 5).map fun i =>
      (.scratch s.cur.l (addr + 8 * i), 8, leNat ((bs.drop (8 * i)).take 8) % 2 ^ 64)) := by
  have hwatch : watch (ownVa addr) 40 true s = .ok ((), s) := by
    simp only [watch, CoreSt.watchHit_quiet h.wp, Bool.false_and, Bool.false_eq_true, if_false]
  have hin : ∀ w ∈ recordWords bs, addr + w.1 < 0xC0000 ∧ addr + w.1 + 8 ≤ (s.ctx s.cur.asid).par.fp := by
    intro w hw
    obtain ⟨i, hi, rfl⟩ := List.mem_map.mp hw
    have := List.mem_range.mp hi
    dsimp only
    omega
  obtain ⟨t, hall, ht⟩ := storeEach_own h hin
  rw [storeRecord_eq, M.bind_ok hwatch]
  exact ⟨t, hall, by rwa [recordWords, List.map_map] at ht⟩

/-- A completed arrival that gathers is taken once its record is stored. -/
theorem finishBar_stores {addr : Nat} {a : Arrival} (hagth : a.gth = true) (h : storeRecord addr a.record s = .ok ((), t)) :
    finishBar true addr a s = .ok ((), t.dropArrival t.cur.asid (t.core t.cur).lcn a.name) := by
  simp only [finishBar, hagth, Bool.and_self, if_true, M.bind_ok h]
  rfl

/-- A `barw` whose gathering arrival has completed stores the record in the own scratchpad and takes the arrival. -/
theorem exec_barw_gathers (hs : s.Still) {rs1 rs2 : Reg} {d v : Word} (hrs1 : (s.core s.cur).rx rs1 = d) (hrs2 : (s.core s.cur).rx rs2 = v)
    (hd : bits d 63 21 = 0) (hv : bits v 63 33 = 0) (hcen : bit v 32 = false) (hgth : Barrier.gthOf d = true) {a : Arrival}
    (ha : s.arrivalOf s.cur.asid (s.core s.cur).lcn (Barrier.nameOf d) = some a) (hdone : a.done = true) (hagth : a.gth = true)
    (halign : bits v 19 0 % 8 = 0) (hfits : bits v 19 0 + 40 ≤ (s.ctx s.cur.asid).par.fp) (hlow : bits v 19 0 + 40 ≤ 0xC0000) :
    ∃ t, exec (.barw rs1 rs2) s = .next t ∧ t.note = .retired ∧ (t.core s.cur).sb.map BufWrite.what =
      (List.range 5).map (fun i => (.scratch s.cur.l (bits v 19 0 + 8 * i), 8, leNat ((a.record.drop (8 * i)).take 8) % 2 ^ 64)) := by
  obtain ⟨t, hrecord, ht⟩ := storeRecord_own hs.toClear hlow hfits a.record
  let u := t.dropArrival t.cur.asid (t.core t.cur).lcn a.name
  have haddr : ¬(bits v 19 0 % 8 ≠ 0 ∨ bits v 19 0 + 40 > (s.ctx s.cur.asid).par.fp) := by omega
  have hrun : exec (.barw rs1 rs2) s = .next (u.retiring CoreSt.after) := by
    refine (runScalar_ok hs.core ?_).trans (congrArg _ (retire_advance_only u))
    simp only [M.bind_rxM, hrs1, hrs2, hd, hv, hcen, ne_eq, not_true_eq_false, or_self, if_false, Bool.false_eq_true, M.bind_myCtx,
      M.bind_me, M.bind_get, ha, Option.isNone_some, hgth, true_and, if_neg haddr, M.bind_ok (awaitArrival_done ha hdone),
      M.bind_ok (acquire_quiet hs _), M.bind_ok (acquireOf_unwatched hs.watched _ _), M.bind_ok (finishBar_stores hagth hrecord)]
    rfl
  refine ⟨_, hrun, rfl, ?_⟩
  have hsb : ((u.retiring CoreSt.after).core t.cur).sb = (u.core t.cur).sb :=
    State.core_modCore_proj CoreSt.sb (f := CoreSt.after) (fun _ => rfl) u u.cur t.cur
  have htaken : (u.core t.cur).sb = (t.core t.cur).sb := State.core_modCore_proj CoreSt.sb (by intro c; rfl) t _ _
  rw [← ht.cur, hsb, htaken, ht.sb, ht.cur, hs.sb]
  rfl

/-! ### The result of a vote (R277) -/

theorem le_foldl_max (b : List Nat) (m : Nat) : m ≤ b.foldl max m ∧ (∀ x ∈ b, x ≤ b.foldl max m) ∧ (b.foldl max m = m ∨ b.foldl max m ∈ b) := by
  induction b generalizing m with
  | nil => exact ⟨Nat.le_refl m, nofun, .inl rfl⟩
  | cons x b ih =>
    obtain ⟨hle, hall, hin⟩ := ih (max m x)
    simp only [List.foldl_cons, List.mem_cons, forall_eq_or_imp]
    refine ⟨by omega, ⟨by omega, hall⟩, ?_⟩
    rcases hin with h | h
    · rcases Nat.le_total m x with hx | hx
      · exact .inr (.inl (h.trans (Nat.max_eq_right hx)))
      · exact .inl (h.trans (Nat.max_eq_left hx))
    · exact .inr (.inr h)

theorem voteResult_spec {b : List Nat} (hne : b ≠ []) (hmax : ∀ x ∈ b, x ≤ 3) (hlen : b.length < 2 ^ 24) :
    ∃ m ∈ b, (∀ x ∈ b, x ≤ m) ∧ bits (voteResult b) 31 0 = m ∧ bits (voteResult b) 63 32 = b.count m := by
  obtain ⟨-, hall, hin⟩ := le_foldl_max b 0
  have hmem : b.foldl max 0 ∈ b := by
    refine hin.elim (fun h0 => ?_) id
    obtain ⟨x, hx⟩ := List.exists_mem_of_ne_nil b hne
    have := hall x hx
    rw [h0] at this ⊢
    rwa [Nat.le_zero.mp this] at hx
  have hm := hmax _ hmem
  have hcount : b.count (b.foldl max 0) ≤ b.length := List.count_le_length
  refine ⟨_, hmem, hall, ?_⟩
  have hnat : (voteResult b).toNat = b.count (b.foldl max 0) * 2 ^ 32 + b.foldl max 0 := by
    simp only [voteResult, word, BitVec.toNat_ofNat, ← List.count_eq_countP]
    omega
  simp only [bits, hnat]
  omega

/-- Settles O16: arrivals and what takes them by instruction; the record by its five stores; the vote by its word. -/
theorem barrierResult : Obligations.BarrierResult := by
  refine ⟨fun s rd rs1 rs2 a hq => ?_, fun s rs1 rs2 a hq => ?_, fun b => voteResult_spec⟩
  · intro c d v name cen taken hd
    have hs := hq.toStill
    refine ⟨exec_bara_arrives hs rfl rfl hd, exec_bar_arrives hs rfl rfl hd, exec_vote_arrives hs rfl rfl hd, fun ha hdone hplain => ⟨?_, ?_, ?_⟩⟩
    · exact exec_bar_completes hs rfl rfl hd ha hdone hplain
    · exact exec_barw_completes hs rfl rfl hd ha hdone
    · exact exec_vote_completes hs rfl rfl hd ha hdone
  · intro c d v addr hd hv hcen hgth ha hdone hagth halign hfits hlow _
    exact exec_barw_gathers hq.toStill rfl rfl hd hv hcen hgth ha hdone hagth halign hfits hlow

end Sys2Proof.Machine
end

section
/-! The superstep barrier and gangs (spec/11 R279, R281, R283). -/

namespace Sys2Proof.Machine

variable {s t : State}

/-! ### `sstep` (R279) -/

/-- The core that holds the arrival of the current core's logical number. -/
def State.holder (s : State) : CoreId := ⟨s.cur.asid, (s.core s.cur).lcn⟩

/-- A core that holds no arrival at the superstep barrier. -/
def CoreSt.leftSuper (h : CoreSt) : CoreSt := { h with sstepAt := none, sstepBy := none, sstepDone := false, sstepRels := [] }

/-- A core that holds an arrival made at a tick by the `sstep` at a place. -/
def CoreSt.atSuper (tick : Nat) (by_ : Nat × Word × Reg) (h : CoreSt) : CoreSt :=
  { h with sstepAt := some tick, sstepBy := some by_, sstepDone := false, sstepRels := [] }

/-- With automatic windows the count of instructions restarts after an `sstep` that retires (notes/assumptions/9.md). -/
def restarting (auto : Bool) (r : Host.Outcome State Fault Refusal) : Host.Outcome State Fault Refusal :=
  if auto then zeroCount r else r

/-- A core whose count of instructions restarts. -/
def CoreSt.uncounted (c : CoreSt) : CoreSt := { c with dicnt := 0 }

theorem restarting_retiring (auto : Bool) {f : CoreSt → CoreSt} (hf : ∀ c, (f c).id = c.id) :
    restarting auto (.next (s.retiring f)) = .next (s.retiring (fun c => if auto then (f c).uncounted else f c)) := by
  cases auto with
  | false => rfl
  | true =>
    have htwo : (s.modCore s.cur f).modCore s.cur CoreSt.uncounted = s.modCore s.cur fun c => (f c).uncounted := modCore_two s s.cur f _ hf
    exact congrArg (fun t : State => Host.Outcome.next { t with note := .retired }) htwo

theorem restarting_waits (auto : Bool) (s : State) : restarting auto s.waits = s.waits := by cases auto <;> rfl

section
variable (hs : s.Still) {rd : Reg}
include hs

theorem releaseCtx_quiet : releaseCtx s = .ok ([], s) := by
  rw [releaseCtx, M.bind_myCtx]
  exact releaseFor_quiet hs _

/-- An `sstep` whose superstep has completed takes its arrival. -/
theorem exec_sstep_takes (hat : (s.core s.holder).sstepAt.isSome = true)
    (hby : (s.core s.holder).sstepBy = some (s.cur.l, (s.core s.cur).pc, rd)) (hdone : (s.core s.holder).sstepDone = true) :
    exec (.sstep rd) s = restarting ((s.ctx s.cur.asid).par.undo == 2) (.next ((s.modCore s.holder CoreSt.leftSuper).retiring
      (fun y => (y.wx rd ((s.ctx s.cur.asid).sscnt.setWidth 64)).after))) := by
  have hwatched : (s.modCore s.holder CoreSt.leftSuper).watched = false := watched_modCore hs.watched _ fun _ => ⟨rfl, rfl⟩
  unfold State.holder at *
  refine congrArg (restarting _) ((runScalar_ok hs.core ?_).trans
    (congrArg _ (retire_advance (s.modCore _ CoreSt.leftSuper) (fun y => y.wx rd _) fun c => c.wx_id ..)))
  simp only [M.bind_get, M.bind_me, M.bind_myId, hat, hby, hdone, decide_true, Bool.not_true, Bool.false_eq_true, and_false, if_false]
  rw [M.bind_updM, M.bind_myCtx]
  refine (M.bind_ok (acquire_unwatched hwatched _)).trans ?_
  exact (M.bind_ok (acquireOf_unwatched hwatched _ _)).trans rfl

/-- An `sstep` whose logical number holds no arrival arrives at the current tick and waits. -/
theorem exec_sstep_arrives (hat : (s.core s.holder).sstepAt = none) (hby : (s.core s.holder).sstepBy = none) (hc : s.hasCore s.holder = true) :
    exec (.sstep rd) s = (s.modCore s.holder (CoreSt.atSuper (s.pcc (s.dieOf s.cur)) (s.cur.l, (s.core s.cur).pc, rd))).waits := by
  have hopen : ((s.modCore s.holder (CoreSt.atSuper (s.pcc (s.dieOf s.cur)) (s.cur.l, (s.core s.cur).pc, rd))).core s.holder).sstepDone =
      false := by
    rw [State.core_modCore_self _ hc]
    rfl
  unfold State.holder at *
  refine (congrArg (restarting _) (runScalar_waitsIn hs.core ?_)).trans (restarting_waits ((s.ctx s.cur.asid).par.undo == 2) _)
  simp only [M.bind_get, M.bind_me, M.bind_myId, hat, hby, Option.isSome_none, Bool.false_eq_true, false_and, if_false, reduceCtorEq, decide_false,
    Bool.not_false, if_true, M.bind_ok (releaseCtx_quiet hs)]
  rw [M.bind_updM, M.bind_get]
  have hwaits := Bool.not_eq_true' _ |>.mpr hopen
  exact (congrFun (if_pos hwaits) _).trans rfl

end

/-! ### Gangs (R281, R283) -/

theorem exec_gsplit (hc : s.hasCore s.cur = true) : exec .gsplit s = .next ((s.splitGang s.cur).retiring CoreSt.after) :=
  show runScalar (parcelOf .gsplit) (updM (fun s => s.splitGang s.cur) >>= fun _ => advance) s = _ from
    (runScalar_ok hc (M.bind_updM ..)).trans (congrArg _ (retire_advance_only (s.splitGang s.cur)))

/-- The core of a bench, of the current core's, in a slot. -/
def State.mate (s : State) (i : Nat) : CoreId := ⟨s.cur.asid, s.cur.l / 4 * 4 + i⟩

/-- A core that a gang takes in, at the pc at which it goes on. -/
def CoreSt.ganged (mask : BitVec 4) (pc : Word) (o : CoreSt) : CoreSt :=
  { o with fuse := none, gang := some ⟨mask⟩, pc := pc }

/-- A member other than the last to arrive, which retires with the gang. -/
def CoreSt.gangedAlong (mask : BitVec 4) (pc : Word) (o : CoreSt) : CoreSt :=
  { o.ganged mask pc with instret := o.instret + 1, dicnt := o.dicnt + 1 }

/-- The lesser of two cores, each with its pc. -/
def lesser (b p : Nat × Word) : Nat × Word := if p.1 < b.1 then p else b

/-- The other slots of a bench that a mask names. -/
def otherSlots (mask : BitVec 4) (own : Nat) : List Nat :=
  ((List.range 4).filter (fun i => i != own)).filter (fun i => mask.getLsbD i)

theorem mem_otherSlots {mask : BitVec 4} {own i : Nat} : i ∈ otherSlots mask own ↔ (i < 4 ∧ i ≠ own) ∧ mask.getLsbD i = true := by
  simp only [otherSlots, List.mem_filter, List.mem_range, bne_iff_ne]

/-- The least of a list of cores is one of them, and none lies below it. -/
theorem foldl_lesser (ps : List (Nat × Word)) (b : Nat × Word) :
    ps.foldl lesser b ∈ b :: ps ∧ ∀ p ∈ b :: ps, (ps.foldl lesser b).1 ≤ p.1 := by
  induction ps generalizing b with
  | nil => simp
  | cons q ps ih =>
    obtain ⟨hmem, hle⟩ := ih (lesser b q)
    rw [List.foldl_cons]
    have hsel : lesser b q ∈ [b, q] ∧ (lesser b q).1 ≤ b.1 ∧ (lesser b q).1 ≤ q.1 := by
      unfold lesser
      split <;> simp <;> omega
    obtain ⟨hin, hb, hq⟩ := hsel
    refine ⟨?_, ?_⟩
    · rcases List.mem_cons.mp hmem with h | h
      · rw [h]; simp at hin ⊢; tauto
      · simp [h]
    · intro p hp
      rcases List.mem_cons.mp hp with rfl | hp
      · exact (hle _ (List.mem_cons_self ..)).trans hb
      · rcases List.mem_cons.mp hp with rfl | hp
        · exact (hle _ (List.mem_cons_self ..)).trans hq
        · exact hle p (List.mem_cons_of_mem _ hp)

theorem State.mate_own (s : State) : s.mate (s.cur.l % 4) = s.cur := by
  unfold State.mate
  rw [Nat.div_add_mod' s.cur.l 4]

theorem State.mate_inj {i j : Nat} : s.mate i = s.mate j ↔ i = j := by simp [State.mate]

theorem State.mate_slot {i : Nat} (h : i < 4) : (s.mate i).l % 4 = i := by
  change (s.cur.l / 4 * 4 + i) % 4 = i
  omega

/-- The other cores of the current core's bench that a mask names. -/
def State.members (s : State) (mask : BitVec 4) : List CoreSt := (otherSlots mask (s.cur.l % 4)).map (fun i => s.core (s.mate i))

/-- The pc at which the current core and others go on as a gang: behind the least of them. -/
def State.leadPc (s : State) (os : List CoreSt) : Word :=
  (((os ++ [s.core s.cur]).map (fun o => (o.id.l, o.pc))).foldl lesser (s.cur.l, (s.core s.cur).pc)).2 + 4

/-- The current core forms a gang with others (R281). -/
def State.forms (s : State) (mask : BitVec 4) (os : List CoreSt) : State :=
  let t := os.foldl (fun t o => t.modCore o.id (CoreSt.gangedAlong mask (s.leadPc os))) s
  t.modCore t.cur (CoreSt.ganged mask (s.leadPc os))

theorem members_eq (s : State) (mask : BitVec 4) :
    (((List.range 4).filter (fun i => i != s.cur.l % 4)).map (fun i => s.core (s.mate i))).filter (fun o => mask.getLsbD (o.id.l % 4)) =
      s.members mask := by
  rw [State.members, List.filter_map, otherSlots]
  refine congrArg _ (List.filter_congr fun i hi => ?_)
  have hlt : i < 4 := List.mem_range.mp (List.mem_of_mem_filter hi)
  rw [Function.comp_apply, State.core_id, State.mate_slot hlt]

/-- The last member to arrive forms the gang (R281). -/
theorem exec_gfuse_last {rs1 : Reg} {mask : BitVec 4} (hc : s.hasCore s.cur = true) (hmask : ((s.core s.cur).rx rs1).setWidth 4 = mask)
    (hupper : bits ((s.core s.cur).rx rs1) 63 4 = 0) (hsize : popcount 4 mask.toNat = 2 ∨ popcount 4 mask.toNat = 4)
    (hself : mask.getLsbD (s.cur.l % 4) = true) (hsingle : (s.core s.cur).gang = none)
    (hin : ∀ i < 4, i ≠ s.cur.l % 4 → mask.getLsbD i = true → (s.core (s.mate i)).fuse = some mask)
    (hout : ∀ i < 4, mask.getLsbD i = false → (s.core (s.mate i)).fuse = none) :
    exec (.gfuse rs1) s = .next (s.forms mask (s.members mask)).retire := by
  have hall : (s.members mask).all (fun o => o.fuse == some mask) = true := by
    simp only [State.members, List.all_eq_true, List.mem_map, mem_otherSlots]
    rintro o ⟨i, ⟨⟨hi, hother⟩, hbit⟩, rfl⟩
    simp [hin i hi hother hbit]
  refine runScalar_ok hc ?_
  subst hmask
  unfold State.mate at *
  simp only [M.bind_rxM, M.bind_me, M.bind_myId, M.bind_get]
  refine (congrFun (if_neg ?_) _).trans ((congrFun (if_pos ?_) _).trans ?_)
  · rintro (h | h | h | h | h)
    · exact h hupper
    · omega
    · simp [hself] at h
    · simp [hsingle] at h
    · obtain ⟨o, ho, hconflict⟩ := List.any_eq_true.mp h
      obtain ⟨i, hi, rfl⟩ := List.mem_map.mp ho
      obtain ⟨hrange, hother⟩ := List.mem_filter.mp hi
      cases hbit : ((s.core s.cur).rx rs1 |>.setWidth 4 : BitVec 4).getLsbD i with
      | true => simp [hin i (List.mem_range.mp hrange) (bne_iff_ne.mp hother) hbit] at hconflict
      | false => simp [hout i (List.mem_range.mp hrange) hbit] at hconflict
  · exact (congrArg (List.all · _) (members_eq s _)).trans hall
  · rw [← members_eq]
    rfl

/-- A core that runs in a gang from a pc on. -/
structure CoreSt.InGang (mask : BitVec 4) (pc : Word) (c : CoreSt) : Prop where
  gang : c.gang = some ⟨mask⟩
  fuse : c.fuse = none
  pc   : c.pc = pc

theorem foldl_members (f : CoreSt → CoreSt) (mask : BitVec 4) :
    (s.members mask).foldl (fun t o => t.modCore o.id f) s =
      ((otherSlots mask (s.cur.l % 4)).map s.mate).foldl (fun t i => t.modCore i f) s := by
  simp [State.members, List.foldl_map]

theorem otherSlots_nodup (mask : BitVec 4) : ((otherSlots mask (s.cur.l % 4)).map s.mate).Nodup :=
  ((List.nodup_range.filter _).filter _).map fun _ _ h => s.mate_inj.mp h

/-- Every core that the mask names is in the gang that forms. -/
theorem forms_inGang {mask : BitVec 4} (hc : s.hasCore s.cur = true) {i : Nat} (hi : i < 4) (hpresent : s.hasCore (s.mate i) = true)
    (hbit : mask.getLsbD i = true) :
    ((s.forms mask (s.members mask)).core (s.mate i)).InGang mask (s.leadPc (s.members mask)) := by
  unfold State.forms
  simp only [foldl_members]
  have hcur : (((otherSlots mask (s.cur.l % 4)).map s.mate).foldl
      (fun t i => t.modCore i (CoreSt.gangedAlong mask (s.leadPc (s.members mask)))) s).cur = s.cur :=
    State.foldl_proj State.cur (fun t a => State.modCore_cur ..) _ _
  rw [hcur]
  by_cases hown : i = s.cur.l % 4
  · subst hown
    rw [s.mate_own, State.core_modCore_self]
    · exact ⟨rfl, rfl, rfl⟩
    · exact (State.foldl_proj (State.hasCore · s.cur) (fun t a => State.hasCore_modCore ..) _ _).trans hc
  · have hne : s.mate i ≠ s.cur := by
      rw [← s.mate_own]
      exact fun h => hown (s.mate_inj.mp h)
    have hmem : s.mate i ∈ (otherSlots mask (s.cur.l % 4)).map s.mate := List.mem_map_of_mem (mem_otherSlots.mpr ⟨⟨hi, hown⟩, hbit⟩)
    rw [State.core_modCore_ne _ hne, State.core_foldl_modCore_of_mem _ (otherSlots_nodup mask) hmem hpresent]
    exact ⟨rfl, rfl, rfl⟩

/-- A core in a gang is so when the current one has retired. -/
theorem CoreSt.InGang.retire {mask : BitVec 4} {pc : Word} {i : CoreId} (h : (t.core i).InGang mask pc) :
    (t.retire.core i).InGang mask pc := by
  obtain ⟨hgang, hfuse, hpc⟩ := h
  unfold State.retire
  refine ⟨Eq.trans ?_ hgang, Eq.trans ?_ hfuse, Eq.trans ?_ hpc⟩
  · exact State.core_modCore_proj CoreSt.gang (by intro c; rfl) t t.cur i
  · exact State.core_modCore_proj CoreSt.fuse (by intro c; rfl) t t.cur i
  · exact State.core_modCore_proj CoreSt.pc (by intro c; rfl) t t.cur i

/-- The members and the current core are the cores that the mask names. -/
theorem mem_gang {mask : BitVec 4} (hself : mask.getLsbD (s.cur.l % 4) = true) {o : CoreSt} :
    o ∈ s.members mask ++ [s.core s.cur] ↔ ∃ i < 4, mask.getLsbD i = true ∧ s.core (s.mate i) = o := by
  simp only [List.mem_append, List.mem_singleton, State.members, List.mem_map, mem_otherSlots]
  constructor
  · rintro (⟨i, ⟨⟨hi, -⟩, hbit⟩, rfl⟩ | rfl)
    · exact ⟨i, hi, hbit, rfl⟩
    · exact ⟨s.cur.l % 4, Nat.mod_lt _ (by decide), hself, by rw [s.mate_own]⟩
  · rintro ⟨i, hi, hbit, rfl⟩
    by_cases hown : i = s.cur.l % 4
    · exact .inr (by rw [hown, s.mate_own])
    · exact .inl ⟨i, ⟨⟨hi, hown⟩, hbit⟩, rfl⟩

/-- A gang goes on behind the least of its cores. -/
theorem leadPc_eq {mask : BitVec 4} (hself : mask.getLsbD (s.cur.l % 4) = true) {k : Nat} (hk : k < 4) (hbit : mask.getLsbD k = true)
    (hleast : ∀ j < k, mask.getLsbD j = false) : s.leadPc (s.members mask) = (s.core (s.mate k)).pc + 4 := by
  obtain ⟨hmem, hle⟩ := foldl_lesser ((s.members mask ++ [s.core s.cur]).map (fun o => (o.id.l, o.pc))) (s.cur.l, (s.core s.cur).pc)
  have hfirst : (s.cur.l, (s.core s.cur).pc) ∈ (s.members mask ++ [s.core s.cur]).map (fun o => (o.id.l, o.pc)) :=
    List.mem_map.mpr ⟨_, List.mem_append_right _ (List.mem_singleton_self _), by rw [State.core_id]⟩
  obtain ⟨o, ho, heq⟩ := List.mem_map.mp ((List.mem_cons.mp hmem).elim (fun h => (congrArg (· ∈ _) h).mpr hfirst) id)
  obtain ⟨i, -, hibit, rfl⟩ := (mem_gang hself).mp ho
  have hbelow := hle _ (List.mem_cons_of_mem _ (List.mem_map_of_mem ((mem_gang hself).mpr ⟨k, hk, hbit, rfl⟩)))
  rw [← heq, State.core_id, State.core_id] at hbelow
  have hik : i = k := by
    have hnot : ¬ i < k := fun h => by simp [hleast i h] at hibit
    have hle : i ≤ k := Nat.le_of_add_le_add_left hbelow
    omega
  rw [State.leadPc, ← heq, hik]

/-- Settles O17: an `sstep` takes or makes its arrival, `gsplit` dissolves the gang, the last `gfuse` forms it. -/
theorem superstepGang : Obligations.SuperstepGang := by
  unfold Obligations.SuperstepGang
  refine ⟨fun s rd hq => ⟨fun hat hby hdone => ?_, exec_sstep_arrives hq.toStill⟩, fun s rs1 hc =>
    ⟨exec_gsplit hc, fun hupper hsize hself hsingle hpresent hin hout => ?_⟩⟩
  · have hkept : ∀ c : CoreSt, ((c.wx rd ((s.ctx s.cur.asid).sscnt.setWidth 64)).after).id = c.id := fun c => c.wx_id ..
    refine (exec_sstep_takes hq.toStill hat hby hdone).trans ((restarting_retiring _ hkept).trans ?_)
    simp only [beq_iff_eq]
    rfl
  · refine ⟨_, exec_gfuse_last hc rfl hupper hsize hself hsingle hin hout, rfl, fun i hi hbit => ?_⟩
    obtain ⟨hgang, hfuse, hpc⟩ := (forms_inGang hc hi (hpresent i hi) hbit).retire
    exact ⟨hgang, hfuse, fun k hk hkbit hleast => hpc.trans (leadPc_eq hself hk hkbit hleast)⟩

end Sys2Proof.Machine
end

section
/-! What a trace record and the damage that it meets leave of cores and contexts (spec/21 R401, spec/23 R442). -/

namespace Sys2Proof.Machine

variable {s t : State}

/-- Two machines with the same current core, the same cores at the same pcs, and the same contexts with the same superstep counters. -/
structure State.SameRun (s t : State) : Prop where
  cur   : t.cur = s.cur
  core? : ∀ i, (t.core? i).map CoreSt.pc = (s.core? i).map CoreSt.pc
  ctx?  : ∀ a, (t.ctx? a).map Ctx.sscnt = (s.ctx? a).map Ctx.sscnt

namespace State.SameRun

theorem refl : s.SameRun s := ⟨rfl, fun _ => rfl, fun _ => rfl⟩

theorem hasCore (h : s.SameRun t) (i : CoreId) : t.hasCore i = s.hasCore i := by
  simpa [State.hasCore] using congrArg Option.isSome (h.core? i)

theorem pc (h : s.SameRun t) (i : CoreId) : (t.core i).pc = (s.core i).pc := by
  have hread : ∀ u : State, (u.core i).pc = ((u.core? i).map CoreSt.pc).getD (CoreSt.init i).pc := fun u => by
    unfold State.core
    cases u.core? i <;> rfl
  rw [hread, hread, h.core? i]

theorem sscnt (h : s.SameRun t) (a : Nat) : (t.ctx a).sscnt = (s.ctx a).sscnt := by
  have hread : ∀ u : State, (u.ctx a).sscnt = ((u.ctx? a).map Ctx.sscnt).getD (Ctx.init a LaunchPar.zero []).sscnt := fun u => by
    unfold State.ctx
    cases u.ctx? a <;> rfl
  rw [hread, hread, h.ctx? a]

theorem ctx_isSome (h : s.SameRun t) (a : Nat) : (t.ctx? a).isSome = (s.ctx? a).isSome := by
  simpa using congrArg Option.isSome (h.ctx? a)

/-- A change of neither the current core nor cores nor contexts. -/
theorem same {u : State} (h : s.SameRun t) (hcur : u.cur = t.cur := by rfl) (hcores : u.cores = t.cores := by rfl)
    (hctxs : u.ctxs = t.ctxs := by rfl) : s.SameRun u :=
  ⟨hcur.trans h.cur, fun i => by rw [State.core?, hcores]; exact h.core? i, fun a => by rw [State.ctx?, hctxs]; exact h.ctx? a⟩

theorem mapCores (h : s.SameRun t) {f : CoreSt → CoreSt} (hid : ∀ c, (f c).id = c.id) (hf : ∀ c, (f c).pc = c.pc) :
    s.SameRun { t with cores := t.cores.map f } := by
  refine ⟨h.cur, fun i => Eq.trans ?_ (h.core? i), h.ctx?⟩
  exact (State.like_map (g := CoreSt.pc) hid hf).core? i

theorem modCore (h : s.SameRun t) {id : CoreId} {f : CoreSt → CoreSt} (hf : ∀ c, (f c).pc = c.pc) : s.SameRun (t.modCore id f) := by
  refine ⟨h.cur, fun i => Eq.trans ?_ (h.core? i), h.ctx?⟩
  exact (State.like_modCore (g := CoreSt.pc) hf).core? i

theorem modCtx (h : s.SameRun t) {asid : Nat} {f : Ctx → Ctx} (hf : ∀ c, (f c).sscnt = c.sscnt) : s.SameRun (t.modCtx asid f) := by
  refine ⟨h.cur, h.core?, fun a => Eq.trans ?_ (h.ctx? a)⟩
  rw [State.ctx?_modCtx]
  cases t.ctx? a with
  | none => rfl
  | some c =>
    simp only [Option.map_some]
    split
    · exact congrArg some (hf c)
    · rfl

theorem ite {c : Prop} [Decidable c] {u : State} (ht : s.SameRun t) (hu : s.SameRun u) : s.SameRun (if c then t else u) := by
  split <;> assumption

theorem foldl {α : Type} {f : State → α → State} {l : List α} (h : s.SameRun t) (hf : ∀ u a, s.SameRun u → s.SameRun (f u a)) :
    s.SameRun (l.foldl f t) := by
  induction l generalizing t with
  | nil => exact h
  | cons a l ih => exact ih (hf t a h)

/-! ### Halts and pending traps -/

theorem unstep (h : s.SameRun t) {asid : Nat} : s.SameRun (t.unstep asid) :=
  h.mapCores (fun c => by split <;> rfl) fun c => by split <;> rfl

theorem dbgStop (h : s.SameRun t) {asid why l : Nat} : s.SameRun (t.dbgStop asid why l) := by
  unfold State.dbgStop
  dsimp only
  split
  · exact h.same.modCtx fun _ => rfl
  · exact .ite h.unstep.same (.ite (h.same.modCtx fun _ => rfl) h)

theorem diverge (h : s.SameRun t) {id : CoreId} {cause kind : Nat} : s.SameRun (t.diverge id cause kind) := h.same.dbgStop

theorem raiseHalt (h : s.SameRun t) {asid cause l : Nat} : s.SameRun (t.raiseHalt asid cause l) := by
  have hcause : s.SameRun (t.modCore ⟨asid, l⟩ fun c => { c with fcause := c.fcause <|> some cause }) := h.modCore fun _ => rfl
  unfold State.raiseHalt
  dsimp only
  split
  · exact h.diverge
  · split
    · exact .modCtx (.ite hcause.same hcause) fun _ => rfl
    · split
      · exact hcause.same.unstep.modCtx fun _ => rfl
      · exact .ite (hcause.modCtx fun _ => rfl) (.ite (.modCtx (.ite hcause.same hcause) fun _ => rfl) hcause)

theorem pendTrap (h : s.SameRun t) {id : CoreId} {p : TrapInfo} : s.SameRun (t.pendTrap id p) :=
  .ite h.raiseHalt (h.modCore fun _ => rfl)

theorem touch (h : s.SameRun t) {asid d : Nat} : s.SameRun (t.touch asid d) := by
  have htouched : s.SameRun (t.modCtx asid fun c => { c with tdm := c.tdm ||| (1#8 <<< d) }) := h.modCtx fun _ => rfl
  exact .ite h (.ite (htouched.foldl fun _ _ hu => hu.pendTrap) htouched)

/-! ### Damage and writes -/

theorem logErrorEvent (h : s.SameRun t) {code die arr : Nat} : s.SameRun (t.logErrorEvent code die arr) := ⟨h.cur, h.core?, h.ctx?⟩

theorem logError (h : s.SameRun t) {arr : Nat} {addr : Word} {unc : Bool} {asid : Option Nat} :
    s.SameRun (t.logError arr addr unc asid) :=
  (same (u := t.bump) h).same.logErrorEvent

theorem foundDamage (h : s.SameRun t) {asid : Option Nat} {p : Damage} : s.SameRun (t.foundDamage asid p) := by
  have hrest : s.SameRun { t with mgmt := { t.mgmt with injected := t.mgmt.injected.filter (fun q => q != p) } } := h.same
  exact .ite hrest (.ite hrest.logError (hrest.logError (arr := p.arr) (addr := p.addr) (unc := true) (asid := asid)).same)

theorem foundIn (h : s.SameRun t) {asid : Option Nat} {ps : List Damage} : s.SameRun (t.foundIn asid ps).1 := by
  induction ps generalizing t with
  | nil => exact h
  | cons p ps ih =>
    unfold State.foundIn
    split
    · exact ih h.foundDamage
    · exact h.foundDamage

theorem overtake (h : s.SameRun t) {by_ : Option CoreId} {sees : CoreId → Bool} {p : Place} {n : Nat} :
    s.SameRun (t.overtake by_ sees p n) :=
  .ite h (h.mapCores
    (f := fun c => if sees c.id then { c with early := c.early.map (fun e => e.overBy by_ (t.seen + 1) p n) } else c)
    (fun c => by split <;> rfl) fun c => by split <;> rfl).same

theorem changed (h : s.SameRun t) {by_ : Option CoreId} {id : CoreId} {p : Place} {n : Nat} : s.SameRun (t.changed by_ id p n) :=
  .ite h.overtake.same h

theorem clearPoison (h : s.SameRun t) {arr own a n : Nat} : s.SameRun (t.clearPoison arr own a n) := ⟨h.cur, h.core?, h.ctx?⟩

theorem applyInjection (h : s.SameRun t) {arr own shown lo n : Nat} : s.SameRun (t.applyInjection arr own shown lo n) :=
  ⟨h.cur, h.core?, h.ctx?⟩

theorem hbmWrite (h : s.SameRun t) {slot pa : Nat} {bs : List Byte} {by_ : Option CoreId} : s.SameRun (t.hbmWrite slot pa bs by_) := by
  have hbreak : ∀ c : CoreSt, (c.breakHbm pa bs.length).id = c.id ∧ (c.breakHbm pa bs.length).pc = c.pc := fun c => by
    unfold CoreSt.breakHbm
    split
    · split <;> exact ⟨rfl, rfl⟩
    · exact ⟨rfl, rfl⟩
  obtain ⟨hcur, hcore, hctx⟩ := h.changed (by_ := by_) (id := ⟨0, 0⟩) (p := .hbm slot pa) (n := bs.length)
  unfold State.hbmWrite
  refine .applyInjection (.clearPoison (.mapCores ?_ (fun c => (hbreak c).1) fun c => (hbreak c).2))
  exact ⟨hcur, hcore, hctx⟩

theorem hostAccept (h : s.SameRun t) {pa : Nat} {bs : List Byte} {by_ : Option CoreId} : s.SameRun (t.hostAccept pa bs by_) := h.changed.same

/-! ### Trace records -/

theorem traceAt (h : s.SameRun t) {kind : Nat} {id : CoreId} {ss : BitVec 32} {tick : Nat} {p1 p2 : Word} :
    s.SameRun (t.traceAt kind id ss tick p1 p2) := by
  unfold State.traceAt
  dsimp only
  split
  · exact h
  · split
    · exact h
    · split
      · exact h.foundIn.same
      · split
        · exact .ite h.foundIn.touch.hbmWrite.same h.foundIn.same
        · exact h.foundIn.hostAccept.same
        · exact h.foundIn.hostAccept.same
        · exact h.foundIn.same

theorem trace (h : s.SameRun t) {kind : Nat} {id : CoreId} {p1 p2 : Word} : s.SameRun (t.trace kind id p1 p2) := h.traceAt

theorem traceImbalance (h : s.SameRun t) {x : Ctx} : s.SameRun (t.traceImbalance x) := by
  unfold State.traceImbalance
  split
  · exact h
  · exact h.traceAt

end State.SameRun

end Sys2Proof.Machine
end

section
/-! Barriers and supersteps complete (spec/11 R275, R279). -/

namespace Sys2Proof.Machine

variable {s : State} {asid : Nat} {b : Barrier}

/-! ### Barriers (R275) -/

/-- An arrival at a barrier that completes is done. -/
def Arrival.completed (b : Barrier) (a : Arrival) : Arrival :=
  if a.name = b.name ∧ a.grp = b.grp ∧ a.done = false then
    { a with done := true, res := voteResult b.ballots, record := gatherRecord b.evs, rels := b.rels }
  else a

/-- The arrivals of a core at a barrier that completes are done. -/
def CoreSt.completed (b : Barrier) (c : CoreSt) : CoreSt := { c with arrivals := c.arrivals.map (Arrival.completed b) }

/-- No arrival of a core at a barrier is outstanding. -/
def CoreSt.PassedBy (b : Barrier) (c : CoreSt) : Prop := ∀ a ∈ c.arrivals, a.name = b.name → a.grp = b.grp → a.done = true

/-- A barrier that has completed is no barrier of its context. -/
def Ctx.dropBarrier (b : Barrier) (x : Ctx) : Ctx := { x with barriers := x.barriers.filter (fun y => !(y.grp == b.grp && y.name == b.name)) }

theorem CoreSt.completed_passedBy (b : Barrier) (c : CoreSt) : (c.completed b).PassedBy b := by
  intro a ha hname hgrp
  obtain ⟨a', -, rfl⟩ := List.mem_map.mp ha
  unfold Arrival.completed at hname hgrp ⊢
  split
  · rfl
  · rename_i hopen
    rw [if_neg hopen] at hname hgrp
    by_contra hdone
    exact hopen ⟨hname, hgrp, Bool.eq_false_iff.mpr hdone⟩

theorem passedBy_modCore (s : State) (b : Barrier) (i : CoreId) : ((s.modCore i (CoreSt.completed b)).core i).PassedBy b := by
  by_cases hc : s.hasCore i = true
  · rw [State.core_modCore_self _ hc]
    exact CoreSt.completed_passedBy b (s.core i)
  · rw [State.core_modCore_absent (by simpa using hc), State.core, Option.not_isSome_iff_eq_none.mp hc]
    exact fun a ha => by cases ha

theorem passedBy_modCore_of {i : CoreId} (h : (s.core i).PassedBy b) (j : CoreId) : ((s.modCore j (CoreSt.completed b)).core i).PassedBy b := by
  by_cases hij : i = j
  · rw [hij]
    exact passedBy_modCore s b j
  · rwa [State.core_modCore_ne _ hij]

theorem passedBy_foldl_of {l : Nat} (h : (s.core ⟨asid, l⟩).PassedBy b) (ls : List Nat) :
    ((ls.foldl (fun t k => t.modCore ⟨asid, k⟩ (CoreSt.completed b)) s).core ⟨asid, l⟩).PassedBy b := by
  induction ls generalizing s with
  | nil => exact h
  | cons k ls ih => exact ih (passedBy_modCore_of h _)

theorem passedBy_foldl {l : Nat} {ls : List Nat} (h : l ∈ ls) :
    ((ls.foldl (fun t k => t.modCore ⟨asid, k⟩ (CoreSt.completed b)) s).core ⟨asid, l⟩).PassedBy b := by
  induction ls generalizing s with
  | nil => cases h
  | cons k ls ih =>
    rcases List.mem_cons.mp h with rfl | h
    · exact passedBy_foldl_of (passedBy_modCore s b _) ls
    · exact ih h

theorem completeBarrier_of_noCounters (h : b.cens = []) : s.completeBarrier asid b =
    b.arrived.foldl (fun t l => t.modCore ⟨asid, l⟩ (CoreSt.completed b)) (s.modCtx asid (Ctx.dropBarrier b)) := by
  unfold State.completeBarrier
  rw [h]
  rfl

theorem ctx?_of_barrier {grp name : Nat} (h : (s.ctx asid).barriers.find? (fun b => b.grp == grp && b.name == name) = some b) :
    (s.ctx? asid).isSome = true := by
  unfold State.ctx at h
  cases hx : s.ctx? asid with
  | some x => rfl
  | none =>
    rw [hx] at h
    cases h

theorem exec_barrierComplete {grp name : Nat}
    (hfind : (s.ctx asid).barriers.find? (fun b => b.grp == grp && b.name == name) = some b) (hall : b.complete = true)
    (hrun : (s.ctx asid).run = .running) : exec (.barrierComplete asid grp name) s = .next (s.completeBarrier asid b) := by
  show execBarrierComplete asid grp name s = _
  unfold execBarrierComplete
  simp [hfind, hall, hrun]

/-! ### Supersteps (R279) -/

/-- A core whose arrival at the superstep barrier is done. -/
def CoreSt.passed (rels : List Rel) (idle : Bool) (c : CoreSt) : CoreSt :=
  { c with sstepDone := true, sstepRels := rels, fits := if idle then [] else c.fits }

def Ctx.stepped (x : Ctx) : Ctx := { x with sscnt := x.sscnt + 1 }

theorem completeSuper_of_noAuto (h : (s.ctx asid).par.undo ≠ 2) : ∃ rels idle, s.completeSuper asid =
    .done ((s.ctx asid).ids.foldl (fun t id => t.modCore id (CoreSt.passed rels idle))
      ((s.traceImbalance (s.ctx asid)).modCtx asid Ctx.stepped)) := by
  unfold State.completeSuper
  simp only [if_neg h]
  exact ⟨_, _, rfl⟩

theorem Ctx.ids_nodup (x : Ctx) : x.ids.Nodup := List.nodup_range.map fun _ _ h => (CoreId.mk.inj h).2

theorem hasCore_of_superReady (h : s.superReady asid = true) {id : CoreId} (hid : id ∈ (s.ctx asid).ids) : s.hasCore id = true := by
  have hat : (s.core id).sstepAt.isSome = true := by
    simp only [State.superReady, Bool.and_eq_true, List.all_eq_true] at h
    exact (h.1.2 id hid).1
  by_contra hno
  simp [State.core, Option.not_isSome_iff_eq_none.mp hno, CoreSt.init] at hat

theorem exec_superstepComplete {t : State} (hready : s.superReady asid = true) (hprecise : (s.ctx asid).precise = false)
    (h : s.completeSuper asid = .done t) : exec (.superstepComplete asid) s = .next t := by
  show execSuperstepComplete asid s = _
  unfold execSuperstepComplete
  simp [hready, hprecise, h]

/-- Settles O40: the arrivals at the barrier and at the superstep are done, and the superstep counter has risen. -/
theorem completionSteps : Obligations.CompletionSteps := by
  unfold Obligations.CompletionSteps
  refine ⟨fun s asid grp name b hfind hall hrun => ⟨exec_barrierComplete hfind hall hrun, fun hcens => ?_⟩,
    fun s asid hready hundo hprecise hx => ?_⟩
  · refine ⟨_, exec_barrierComplete hfind hall hrun, ?_⟩
    rw [completeBarrier_of_noCounters hcens]
    refine ⟨?_, State.foldl_proj State.hbm (by intro t a; rfl) _ _, fun l hl => passedBy_foldl hl⟩
    refine (State.foldl_proj (fun u => (u.ctx asid).barriers) (by intro t a; rfl) _ _).trans ?_
    rw [State.ctx_modCtx_self _ (ctx?_of_barrier hfind)]
    rfl
  · obtain ⟨rels, idle, hdone⟩ := completeSuper_of_noAuto hundo
    have hsame : s.SameRun (s.traceImbalance (s.ctx asid)) := State.SameRun.refl.traceImbalance
    refine ⟨_, exec_superstepComplete hready hprecise hdone, ?_, fun id hid => ?_⟩
    · refine (State.foldl_proj (fun u => (u.ctx asid).sscnt) (by intro t a; rfl) _ _).trans ?_
      rw [State.ctx_modCtx_self _ ((hsame.ctx_isSome asid).trans hx)]
      exact congrArg (· + 1) (hsame.sscnt asid)
    · have hc : ((s.traceImbalance (s.ctx asid)).modCtx asid Ctx.stepped).hasCore id = true :=
        (hsame.hasCore id).trans (hasCore_of_superReady hready hid)
      rw [State.core_foldl_modCore_of_mem _ (Ctx.ids_nodup _) hid hc]
      exact ⟨rfl, hsame.pc id⟩

end Sys2Proof.Machine
end

section
/-! The end of a task and `tyield` (spec/11 R271, R272). -/

namespace Sys2Proof.Machine

variable {s : State}

/-- A core without a task. -/
def CoreSt.taskless (c : CoreSt) : CoreSt := { c with task := none, cont := false }

theorem goIdle_ok (s : State) (yield : Bool) (d0 : Word) :
    goIdle yield d0 s = .ok ((), (s.idling yield d0).modCore (s.idling yield d0).cur CoreSt.taskless) := by
  have hcur : (s.trace 0x04 s.cur d0 (word ((if yield then 2 ^ 24 else 0) + (s.core s.cur).lcnOrNone))).cur = s.cur :=
    State.SameRun.refl.trace.cur
  rw [goIdle, M.bind_updM, M.bind_updM, hcur]
  rfl

theorem retire_taskless (t : State) : (t.modCore t.cur CoreSt.taskless).retire = t.retiring CoreSt.idled := by
  rw [retire_one _ _ (by intro c; rfl)]
  rfl

/-- A task that gives up its core last of all moves on and becomes idle. -/
theorem runScalar_idles {p : Parcel} {m : M Unit} {t : State} {yield : Bool} {d0 : Word} (hc : s.hasCore s.cur = true)
    (h : m s = (advance >>= fun _ => goIdle yield d0) t) :
    runScalar p m s = .next ((t.onward.idling yield d0).retiring CoreSt.idled) :=
  (runScalar_ok hc (h.trans (goIdle_ok t.onward yield d0))).trans (congrArg _ (retire_taskless _))

/-- What `tdone` posts before the task ends: the increment of its completion counter, where its record has one and it signals. -/
def State.signalled (s : State) : Option TaskRec → State
  | some r => if r.ccen && !r.silent then s.postIncr s.cur r.pub r.ccid 1 false else s
  | none => s

theorem exec_tdone (hs : s.Still) :
    exec .tdone s = .next (((s.signalled (s.core s.cur).task).onward.idling false (((s.core s.cur).task.map TaskRec.d0).getD 0)).retiring
      CoreSt.idled) := by
  refine runScalar_idles hs.core ?_
  rw [M.bind_me]
  cases htask : (s.core s.cur).task with
  | none => rfl
  | some r =>
    unfold State.signalled
    dsimp only
    split
    · exact (M.bind_ok (releaseCtx_quiet hs)).trans rfl
    · rfl

theorem exec_tyield_continued {r : TaskRec} (hc : s.hasCore s.cur = true) (htask : (s.core s.cur).task = some r)
    (hcont : (s.core s.cur).cont = true) : exec .tyield s = .next ((s.onward.idling true r.d0).retiring CoreSt.idled) := by
  refine runScalar_idles hc ?_
  simp only [M.bind_me, M.bind_myId, M.bind_get, htask, hcont, if_true]

theorem exec_tyield_publishes {r r' : TaskRec} (hc : s.hasCore s.cur = true) (htask : (s.core s.cur).task = some r)
    (hcont : (s.core s.cur).cont = false) (hroom : s.poolFull (s.dieOf s.cur) = false)
    (hr : r.yielded ((s.core s.cur).pc + 4) [(s.core s.cur).rx 10, (s.core s.cur).rx 11, (s.core s.cur).rx 12, (s.core s.cur).rx 13,
      (s.core s.cur).rx 14, (s.core s.cur).rx 15] = r') :
    exec .tyield s = .next (((s.makeRunnable s.cur.asid (s.dieOf s.cur) r' (some (s.dieOf s.cur))).onward.idling true r'.d0).retiring
      CoreSt.idled) := by
  refine runScalar_idles hc ?_
  have hwait : dieRoom (s.dieOf s.cur) s = .ok ((), s) := by
    rw [dieRoom, M.bind_get, hroom]
    rfl
  simp only [M.bind_me, M.bind_myId, M.bind_get, htask, hcont, hr, M.bind_ok hwait, Bool.false_eq_true, if_false]
  rfl

/-- Settles O13: the increment or the record that is made runnable, then the idle core. -/
theorem taskEndYield : Obligations.TaskEndYield := by
  unfold Obligations.TaskEndYield
  refine ⟨fun s hq => ?_, fun s r hc htask => ⟨exec_tyield_continued hc htask, fun hcont hroom => exec_tyield_publishes hc htask hcont hroom rfl⟩⟩
  refine (exec_tdone hq.toStill).trans ?_
  cases htask : (s.core s.cur).task with
  | none => rfl
  | some r => rfl

end Sys2Proof.Machine
end

section
/-! The launch doorbell, the dispatcher and completion of a context (spec/11 R286 to R289, spec/22 R429, R430, R432). -/

namespace Sys2Proof.Machine

variable {s : State} {img : List (Nat × Byte)} {v : Word}

/-! ### Without damage anywhere a read of the dispatcher meets none (spec/23 R442) -/

theorem damaged_none (h : s.mgmt.injected = []) (arr own a n : Nat) : s.damaged arr own a n = [] := by
  rw [State.damaged, h]
  rfl

theorem walkDamage_none (h : s.mgmt.injected = []) (d asid va : Nat) : s.walkDamage d asid va = [] := by
  unfold State.walkDamage
  split
  · rfl
  · simp [damaged_none h]

theorem dmaMet_none (h : s.mgmt.injected = []) (asid : Option Nat) (pa n : Nat) : s.dmaMet asid pa n = s := by
  rw [State.dmaMet, damaged_none h]
  rfl

theorem descriptorMet_none (h : s.mgmt.injected = []) (asid : Nat) : s.descriptorMet asid = s := by
  unfold State.descriptorMet
  rw [walkDamage_none h]
  simp only [State.foundIn, Bool.false_eq_true, if_false]
  split
  · exact dmaMet_none h _ _ _
  · rfl

/-! ### The doorbell and the queue (R429) -/

theorem exec_launch_refused (h : s.launch.lqsize = 0 ∨ bits v 63 32 ≠ 0 ∨ s.launch.lqsize < (v.setWidth 32 - s.launch.lqhead).toNat) :
    exec (.launch v) s = .next s.launchErr :=
  if_pos (by simpa [or_assoc] using h)

theorem exec_launch (h : ¬ (s.launch.lqsize = 0 ∨ bits v 63 32 ≠ 0 ∨ s.launch.lqsize < (v.setWidth 32 - s.launch.lqhead).toNat)) :
    exec (.launch v) s = .next { s with launch := { s.launch with lqtail := v.setWidth 32 } } :=
  if_neg (by simpa [or_assoc] using h)

/-! ### The dispatcher (R287, R288, R421) -/

/-- Place in device memory of the block of the next launch. -/
def State.blockAt (s : State) : Nat := s.launch.lqbase.toNat + s.launch.slotOf s.launch.next.toNat * 128

/-- The block of the next launch. -/
def State.nextBlock (s : State) : List Byte := s.hbmBytes 1024 s.blockAt 128

/-- A launch is waiting, and the dispatcher can read its block. -/
structure State.BlockReady (s : State) : Prop where
  waits    : s.launch.next ≠ s.launch.lqtail
  size     : s.launch.lqsize ≠ 0
  live     : s.capacity ≠ 0
  damage   : s.mgmt.injected = []
  readable : s.hbmRefusal 1024 s.blockAt 128 = 0

theorem State.BlockReady.of (h : s.launch.next ≠ s.launch.lqtail ∧ s.launch.lqsize ≠ 0 ∧ s.capacity ≠ 0 ∧ s.mgmt.injected = [] ∧
    s.hbmRefusal 1024 s.blockAt 128 = 0) : s.BlockReady := by
  obtain ⟨hwaits, hsize, hlive, hdamage, hread⟩ := h
  exact ⟨hwaits, hsize, hlive, hdamage, hread⟩

/-- What the dispatcher does with a block that passes the checks. -/
def State.acceptBlock (s : State) (p : LaunchPar) (img : List (Nat × Byte)) : Host.Outcome State Fault Refusal :=
  match s.descriptor p.asid with
  | none => .next (s.endLaunch p 0x8C true)
  | some desc =>
    if p.units = 0 then .next (s.endLaunch p 2 true)
    else match s.place p.nb with
      | none => .next s
      | some benches =>
        if !s.shareFree p benches || (!benches.all (fun b => (s.runnerOf b).isNone) && !s.shadowRoom p.asid p.fp benches) then .next s
        else .next { s.bind p desc benches img with
          launch := { (s.bind p desc benches img).launch with next := (s.bind p desc benches img).launch.next + 1 } }

theorem exec_launchDispatch (h : s.BlockReady) : exec (.launchDispatch img) s =
    if s.launchReason s.nextBlock ≠ 0 then
      .next (s.endLaunch (LaunchPar.ofBlock s.nextBlock) (0x80 + s.launchReason s.nextBlock)
        (s.launchReason s.nextBlock ≠ 0x06 && blockNat s.nextBlock 96 8 % 8 = 0))
    else s.acceptBlock (LaunchPar.ofBlock s.nextBlock) img := by
  obtain ⟨hwaits, hsize, hlive, hdamage, hreadable⟩ := h
  unfold State.nextBlock State.blockAt at *
  show execLaunchDispatch img s = _
  unfold execLaunchDispatch State.acceptBlock
  simp only [hwaits, hsize, hlive, hreadable, dmaMet_none hdamage, descriptorMet_none hdamage, decide_false, Bool.or_self, Bool.false_eq_true,
    if_false, ne_eq, not_true_eq_false] <;> rfl

theorem exec_launchDispatch_rejected (h : s.BlockReady) (hreason : s.launchReason s.nextBlock ≠ 0) : exec (.launchDispatch img) s =
    .next (s.endLaunch (LaunchPar.ofBlock s.nextBlock) (0x80 + s.launchReason s.nextBlock)
      (s.launchReason s.nextBlock ≠ 0x06 && blockNat s.nextBlock 96 8 % 8 = 0)) :=
  (exec_launchDispatch h).trans (if_pos hreason)

theorem exec_launchDispatch_accepted (h : s.BlockReady) (hreason : s.launchReason s.nextBlock = 0) :
    exec (.launchDispatch img) s = s.acceptBlock (LaunchPar.ofBlock s.nextBlock) img :=
  (exec_launchDispatch h).trans (if_neg (not_not.mpr hreason))

/-- While no die is live every launch ends with reason 0x04 (R421). -/
theorem exec_launchDispatch_noDie (hwaits : s.launch.next ≠ s.launch.lqtail) (hsize : s.launch.lqsize ≠ 0) (hdead : s.capacity = 0) :
    exec (.launchDispatch img) s = .next (s.endLaunch (LaunchPar.ofBlock []) 0x84 false) := by
  show execLaunchDispatch img s = _
  unfold execLaunchDispatch
  simp only [hwaits, hsize, hdead, decide_false, Bool.or_self, Bool.false_eq_true, if_false, if_true]

section
variable {p : LaunchPar}

theorem acceptBlock_noDescriptor (h : s.descriptor p.asid = none) : s.acceptBlock p img = .next (s.endLaunch p 0x8C true) := by
  simp only [State.acceptBlock, h]

theorem acceptBlock_noUnits (h : s.descriptor p.asid ≠ none) (hunits : p.units = 0) :
    s.acceptBlock p img = .next (s.endLaunch p 2 true) := by
  obtain ⟨desc, hdesc⟩ := Option.ne_none_iff_exists'.mp h
  simp only [State.acceptBlock, hdesc, hunits, if_true]

theorem acceptBlock_starts {desc : Word × Word × Word} {benches : List Nat} (hdesc : s.descriptor p.asid = some desc)
    (hunits : p.units ≠ 0) (hplace : s.place p.nb = some benches) (hshare : s.shareFree p benches = true)
    (hfree : ∀ b ∈ benches, s.runnerOf b = none) : s.acceptBlock p img = .next { s.bind p desc benches img with
      launch := { (s.bind p desc benches img).launch with next := (s.bind p desc benches img).launch.next + 1 } } := by
  have hidle : benches.all (fun b => (s.runnerOf b).isNone) = true :=
    List.all_eq_true.mpr fun b hb => Option.isNone_iff_eq_none.mpr (hfree b hb)
  simp only [State.acceptBlock, hdesc, hunits, hplace, hshare, hidle, Bool.not_true, Bool.false_and, Bool.or_self, Bool.false_eq_true,
    if_false]

end

/-! ### Completion (R289) -/

theorem exec_launchComplete {asid : Nat} {x : Ctx} (hx : s.ctx? asid = some x) (hdone : s.completeCtx x = true) :
    exec (.launchComplete asid) s = .next ((x.ids.foldl (fun t id => match (t.core id).win.unc with
      | some (_, h) => t.commitTo id h
      | none => t) (s.flushCtx asid)).freeCtx asid 2) := by
  show execLaunchComplete asid s = _
  unfold execLaunchComplete
  simp only [hx, hdone, Bool.not_true, Bool.false_eq_true, if_false] <;> rfl

/-- Settles O44: the doorbell, the queue registers, each end of a dispatch, and completion. -/
theorem launchResult : Obligations.LaunchResult := by
  unfold Obligations.LaunchResult
  intro s v img asid x
  refine ⟨exec_launch_refused, exec_launch, fun h => ⟨if_neg (not_not.mpr h), if_neg (not_not.mpr h)⟩, fun h b => if_pos h,
    exec_launchDispatch_noDie, fun hhere hreason => ⟨fun hdesc => ?_, fun hdesc hunits => ?_⟩,
    fun hhere hreason desc benches hdesc hunits hplace hshare hfree => ?_, fun hhere => exec_launchDispatch_rejected (.of hhere),
    exec_launchComplete⟩
  · exact (exec_launchDispatch_accepted (.of hhere) hreason).trans (acceptBlock_noDescriptor hdesc)
  · exact (exec_launchDispatch_accepted (.of hhere) hreason).trans (acceptBlock_noUnits hdesc hunits)
  · exact (exec_launchDispatch_accepted (.of hhere) hreason).trans (acceptBlock_starts hdesc hunits hplace hshare hfree)

end Sys2Proof.Machine
end

section
/-! Stage queues (spec/12 R292, R293, R297, R298), of a core with nothing on its way. -/

namespace Sys2Proof.Machine

/-! ### The least entry (R293) -/

/-- `e` is the entry of `es` that a pop takes: those before it have greater keys, and no key behind it is less. -/
def TakenFirst (es : List SqEntry) (e : SqEntry) : Prop :=
  ∃ l r, es = l ++ e :: r ∧ (∀ y ∈ l, e.key.toNat < y.key.toNat) ∧ (∀ y ∈ r, e.key.toNat ≤ y.key.toNat)

section
variable {x e f : SqEntry} {es : List SqEntry}

theorem TakenFirst.le (h : TakenFirst es e) {y : SqEntry} (hy : y ∈ es) : e.key.toNat ≤ y.key.toNat := by
  obtain ⟨l, r, rfl, hl, hr⟩ := h
  rcases List.mem_append.mp hy with hy | hy
  · exact (hl y hy).le
  · rcases List.mem_cons.mp hy with rfl | hy
    · exact le_rfl
    · exact hr y hy

theorem TakenFirst.mem (h : TakenFirst es e) : e ∈ es := by
  obtain ⟨l, r, rfl, -⟩ := h
  exact List.mem_append_cons_self

theorem TakenFirst.head (h : ∀ y ∈ es, x.key.toNat ≤ y.key.toNat) : TakenFirst (x :: es) x := ⟨[], es, rfl, List.forall_mem_nil _, h⟩

theorem TakenFirst.cons (h : TakenFirst es e) (hx : e.key.toNat < x.key.toNat) : TakenFirst (x :: es) e := by
  obtain ⟨l, r, rfl, hl, hr⟩ := h
  exact ⟨x :: l, r, rfl, List.forall_mem_cons.mpr ⟨hx, hl⟩, hr⟩

/-- An entry is taken first of a longer queue if it is its first one, and the least, or is taken first of the others and less. -/
theorem takenFirst_cons_iff :
    TakenFirst (x :: es) e ↔ x = e ∧ (∀ y ∈ es, x.key.toNat ≤ y.key.toNat) ∨ TakenFirst es e ∧ e.key.toNat < x.key.toNat := by
  constructor
  · rintro ⟨l, r, heq, hl, hr⟩
    cases l with
    | nil =>
      obtain ⟨rfl, rfl⟩ := List.cons.inj heq
      exact .inl ⟨rfl, hr⟩
    | cons y l =>
      obtain ⟨rfl, rfl⟩ := List.cons.inj heq
      exact .inr ⟨⟨l, r, rfl, (List.forall_mem_cons.mp hl).2, hr⟩, (List.forall_mem_cons.mp hl).1⟩
  · rintro (⟨rfl, hle⟩ | ⟨h, hlt⟩)
    · exact .head hle
    · exact h.cons hlt

theorem leastEntry_eq_none_iff : leastEntry es = none ↔ es = [] := by
  cases es with
  | nil => exact iff_of_true rfl rfl
  | cons x es =>
    refine iff_of_false ?_ (List.cons_ne_nil _ _)
    unfold leastEntry
    split
    · exact Option.some_ne_none _
    · split <;> exact Option.some_ne_none _

theorem leastEntry_eq_some_iff : leastEntry es = some e ↔ TakenFirst es e := by
  induction es generalizing e with
  | nil => exact iff_of_false nofun fun ⟨l, r, heq, _⟩ => by simp at heq
  | cons x es ih =>
    rw [takenFirst_cons_iff, leastEntry]
    split
    case h_1 hnone =>
      constructor
      · exact fun h => .inl ⟨Option.some.inj h, by simp [leastEntry_eq_none_iff.mp hnone]⟩
      · rintro (⟨h, -⟩ | ⟨h, -⟩)
        · exact congrArg some h
        · exact absurd (hnone.symm.trans (ih.mpr h)) nofun
    case h_2 m hm =>
      have hfirst : TakenFirst es m := ih.mp hm
      split
      case isTrue hlt =>
        constructor
        · rintro ⟨⟩
          exact .inr ⟨hfirst, hlt⟩
        · rintro (⟨-, hle⟩ | ⟨h, -⟩)
          · exact absurd hlt (hle m hfirst.mem).not_gt
          · exact hm.symm.trans (ih.mpr h)
      case isFalse hge =>
        constructor
        · exact fun h => .inl ⟨Option.some.inj h, fun y hy => (not_lt.mp hge).trans (hfirst.le hy)⟩
        · rintro (⟨h, -⟩ | ⟨h, hlt⟩)
          · exact congrArg some h
          · exact absurd (Option.some.inj (hm.symm.trans (ih.mpr h)) ▸ hlt) hge

end

/-! ### `qpush` (R297) -/

variable {s : State}

section
variable {q : BitVec 4} {rs1 : Reg}

/-- The entry that a register holds for a push, of a core whose release carries nothing. -/
def entryOf (e : Word) : SqEntry := ⟨BitVec.ofNat 32 (bits e 63 32), BitVec.ofNat 31 (bits e 30 0), []⟩

/-- A context with an entry more in a queue on a die. -/
def Ctx.pushed (d q : Nat) (e : SqEntry) (x : Ctx) : Ctx := { x with squeues := x.squeues ++ [(d, q, e)] }

theorem exec_qpush_accepts (hs : s.Still) (hfree : bit ((s.core s.cur).rx rs1) 31 = false) (hqen : (s.ctx s.cur.asid).qen q.toNat = true)
    (hroom : ((s.ctx s.cur.asid).sq (s.dieOf s.cur) q.toNat).length < (s.ctx s.cur.asid).qcap) : exec (.qpush q rs1) s =
    .next ((s.modCtx s.cur.asid (Ctx.pushed (s.dieOf s.cur) q.toNat (entryOf ((s.core s.cur).rx rs1)))).retiring CoreSt.after) := by
  refine (runScalar_ok hs.core ?_).trans (congrArg _ (retire_advance_only _))
  simp only [M.bind_rxM, M.bind_get, M.bind_myCtx, hfree, hqen, Bool.not_true, ge_iff_le, Nat.not_le.mpr hroom, Bool.false_eq_true,
    if_false, M.bind_ok (releaseCtx_quiet hs)]
  rfl

variable (hc : s.hasCore s.cur = true)
include hc

theorem exec_qpush_marked (hset : bit ((s.core s.cur).rx rs1) 31 = true) :
    exec (.qpush q rs1) s = s.traps (.qpush q rs1) 0x1B (word 0x100) := by
  refine runScalar_traps hc ?_
  simp only [M.bind_rxM, M.bind_get, M.bind_myCtx, hset, if_true]
  rfl

variable (hfree : bit ((s.core s.cur).rx rs1) 31 = false)
include hfree

theorem exec_qpush_unconfigured (hqen : (s.ctx s.cur.asid).qen q.toNat = false) :
    exec (.qpush q rs1) s = s.traps (.qpush q rs1) 0x1B (word 0x200) := by
  refine runScalar_traps hc ?_
  simp only [M.bind_rxM, M.bind_get, M.bind_myCtx, hfree, hqen, Bool.not_false, Bool.false_eq_true, if_false, if_true]
  rfl

theorem exec_qpush_full (hqen : (s.ctx s.cur.asid).qen q.toNat = true)
    (hfull : (s.ctx s.cur.asid).qcap ≤ ((s.ctx s.cur.asid).sq (s.dieOf s.cur) q.toNat).length) :
    exec (.qpush q rs1) s = s.traps (.qpush q rs1) 0x1C 0 := by
  refine runScalar_traps hc ?_
  simp only [M.bind_rxM, M.bind_get, M.bind_myCtx, hfree, hqen, Bool.not_true, ge_iff_le, hfull, Bool.false_eq_true, if_false, if_true]
  rfl

end

/-! ### `qpop`, `qpeek` (R298) -/

section
variable {q : BitVec 4} {rd : Reg} {pop : Bool} {e : SqEntry}

/-- A context with the first entry equal to one removed from a queue on a die. -/
def Ctx.popped (d q : Nat) (e : SqEntry) (x : Ctx) : Ctx := { x with squeues := dropEntry d q e x.squeues }

theorem takeLeast_unconfigured (hqen : (s.ctx s.cur.asid).qen q.toNat = false) :
    takeLeast q pop s = .error (.trap ⟨0x1B, word 0x200, 0, 0⟩) := by
  rw [takeLeast, M.bind_get, M.bind_myCtx, M.bind_me, hqen]
  rfl

section
variable (hs : s.Still)
include hs

theorem takeLeast_empty (hqen : (s.ctx s.cur.asid).qen q.toNat = true)
    (hempty : leastEntry ((s.ctx s.cur.asid).sq (s.dieOf s.cur) q.toNat) = none) :
    takeLeast q pop s = .ok ((0, []), s) := by
  rw [takeLeast, M.bind_get, M.bind_myCtx, M.bind_me]
  simp only [hqen, hs.replay, hempty, Bool.not_true, Option.isSome_none, Bool.false_eq_true, if_false]
  exact (M.bind_ok (inputM_quiet hs _ _)).trans rfl

theorem takeLeast_least (hqen : (s.ctx s.cur.asid).qen q.toNat = true)
    (hleast : leastEntry ((s.ctx s.cur.asid).sq (s.dieOf s.cur) q.toNat) = some e) :
    takeLeast q pop s = .ok ((e.word, e.rels), if pop then s.modCtx s.cur.asid (Ctx.popped (s.dieOf s.cur) q.toNat e) else s) := by
  rw [takeLeast, M.bind_get, M.bind_myCtx, M.bind_me]
  simp only [hqen, hs.replay, hleast, Bool.not_true, Option.isSome_none, Bool.false_eq_true, if_false]
  refine (M.bind_ok (inputM_quiet hs _ _)).trans ?_
  cases pop <;> rfl

/-- What follows once the least entry, or 0, is taken: its release is acquired, and the result written. -/
theorem exec_qpop_takes {t : State} {v : Word} {rels : List Rel} (htake : takeLeast q true s = .ok ((v, rels), t))
    (hcores : t.cores = s.cores) : exec (.qpop rd q) s = .next (t.retiring (fun c => (c.wx rd v).after)) := by
  have hwatched : t.watched = false := (watched_cores hcores).trans hs.watched
  refine (runScalar_ok hs.core ((M.bind_ok htake).trans ?_)).trans (congrArg _ (retire_advance t (fun c => c.wx rd v) fun c => c.wx_id rd v))
  dsimp only
  rw [M.bind_myCtx, M.bind_ok (acquireOf_unwatched hwatched _ _)]
  rfl

theorem exec_qpeek_takes {v : Word} {rels : List Rel} (htake : takeLeast q false s = .ok ((v, rels), s)) :
    exec (.qpeek rd q) s = .next (s.retiring (fun c => (c.wx rd v).after)) :=
  (runScalar_ok hs.core ((M.bind_ok htake).trans rfl)).trans (congrArg _ (retire_advance s (fun c => c.wx rd v) fun c => c.wx_id rd v))

end

theorem exec_take_unconfigured (hc : s.hasCore s.cur = true) (hqen : (s.ctx s.cur.asid).qen q.toNat = false) :
    exec (.qpop rd q) s = s.traps (.qpop rd q) 0x1B (word 0x200) ∧ exec (.qpeek rd q) s = s.traps (.qpeek rd q) 0x1B (word 0x200) :=
  ⟨runScalar_traps hc (M.bind_error (takeLeast_unconfigured hqen)), runScalar_traps hc (M.bind_error (takeLeast_unconfigured hqen))⟩

end

/-- Settles O18: a push by its checks, `qpop` and `qpeek` by what `takeLeast` finds, the least entry by induction on the queue. -/
theorem stageQueueResult : Obligations.StageQueueResult := by
  refine ⟨fun s q rs1 hq => ?push, fun s q rd hq => ?take, fun es e => leastEntry_eq_some_iff⟩
  case push =>
    exact ⟨exec_qpush_accepts hq.toStill, exec_qpush_marked hq.core, exec_qpush_unconfigured hq.core, exec_qpush_full hq.core⟩
  case take =>
    have hs := hq.toStill
    refine ⟨fun hqen hempty => ⟨?_, ?_⟩, fun e hqen hleast => ⟨?_, ?_⟩, exec_take_unconfigured hq.core⟩
    · exact exec_qpop_takes hs (takeLeast_empty hs hqen hempty) rfl
    · exact exec_qpeek_takes hs (takeLeast_empty hs hqen hempty)
    · exact exec_qpop_takes hs (takeLeast_least hs hqen hleast) rfl
    · exact exec_qpeek_takes hs (takeLeast_least hs hqen hleast)

end Sys2Proof.Machine
end

section
/-! Periods that are over: the governor, the balancer, the slice and the pre-emption (spec/12 R301 to R304, spec/15 R371, spec/22 R432). -/

namespace Sys2Proof.Machine

variable {s t : State} {asid : Nat} {x : Ctx}

/-! ### The governor (R301) -/

section
variable {d : Nat}

/-- When the governor of a die acted last, or since when the context runs. -/
def Ctx.governed (x : Ctx) (d : Nat) : Nat := ((x.lastGov.find? (fun p => p.1 == d)).map Prod.snd).getD x.since

/-- A context whose governor of a die has begun a period. -/
def Ctx.beginGovernor (d began : Nat) (x : Ctx) : Ctx := { x with lastGov := (d, began) :: x.lastGov.filter (fun p => p.1 != d) }

/-- The machine after a decision of a governor. -/
def State.assigned (s : State) : Option (CoreId × Nat) → State
  | some (id, q) => s.modCore id (fun c => { c with stage := some q })
  | none => s

theorem exec_governorPeriod (hx : s.ctx? asid = some x) (hper : bits x.par.sc1 63 44 * 64 ≠ 0) (hrun : x.run = .running)
    (hhalt : x.halt = none) (hpreempt : x.preempt = none) (hdie : x.dies.contains d = true)
    (hover : x.governed d + bits x.par.sc1 63 44 * 64 ≤ s.pcc d) :
    let began := periodAt (x.governed d) (bits x.par.sc1 63 44 * 64) (s.pcc d)
    exec (.governorPeriod asid d) s = .next ((s.modCtx asid (Ctx.beginGovernor d began)).assigned (s.govern x d)) := by
  unfold Ctx.governed at *
  show execGovernorPeriod asid d s = _
  unfold execGovernorPeriod
  simp only [hx, hper, hrun, hhalt, hpreempt, hdie, Nat.not_lt.mpr hover, decide_false, bne_self_eq_false, Option.isSome_none,
    Bool.not_true, Bool.or_self, Bool.false_eq_true, if_false]
  cases s.govern x d with
  | none => rfl
  | some move => rfl

end

/-! ### What the balancer commands (R302, R303) -/

section
variable {vector : Nat → List Nat × Int} {a b q : Nat} {diff : Int}

/-- The command for the entries of a queue, from the vectors of the dies. -/
def State.balanceQueue (asid : Nat) (x : Ctx) (vector : Nat → List Nat × Int) (s : State) (q : Nat) : State :=
  match balance x.dies (fun d => ((vector d).1.getD q 0 : Int)) with
  | none => s
  | some (a, b, diff) =>
    let n := min (diff.toNat / 2) (min 4096 (x.qcap - (vector b).1.getD q 0))
    if diff ≥ (bits x.par.sc1 15 0 : Int) && decide (n > 0) then s.moveEntries asid q a b n else s

/-- The command for the records of the pool. -/
def State.balancePool (asid : Nat) (x : Ctx) (vector : Nat → List Nat × Int) (s : State) : State :=
  match balance x.dies (fun d => (vector d).2) with
  | none => s
  | some (a, b, diff) =>
    let n := min (diff.toNat / 2) 256
    if diff ≥ (bits x.par.sc1 15 0 : Int) && decide (n > 0) then s.moveRecs asid a b n else s

theorem balancePool_moves (h : balance x.dies (fun d => (vector d).2) = some (a, b, diff)) (hthr : (bits x.par.sc1 15 0 : Int) ≤ diff)
    (hn : 1 ≤ diff.toNat / 2) : s.balancePool asid x vector = s.moveRecs asid a b (min (diff.toNat / 2) 256) := by
  have hpos : 0 < min (diff.toNat / 2) 256 := lt_min hn (by decide)
  simp only [State.balancePool, h, ge_iff_le, gt_iff_lt, hthr, hpos, decide_true, Bool.and_self, if_true]

section
variable (h : balance x.dies (fun d => ((vector d).1.getD q 0 : Int)) = some (a, b, diff))
include h

theorem balanceQueue_moves (hthr : (bits x.par.sc1 15 0 : Int) ≤ diff)
    (hn : 1 ≤ min (diff.toNat / 2) (min 4096 (x.qcap - (vector b).1.getD q 0))) :
    s.balanceQueue asid x vector q = s.moveEntries asid q a b (min (diff.toNat / 2) (min 4096 (x.qcap - (vector b).1.getD q 0))) := by
  have hpos := Nat.pos_of_ne_zero (Nat.one_le_iff_ne_zero.mp hn)
  simp only [State.balanceQueue, h, ge_iff_le, gt_iff_lt, hthr, hpos, decide_true, Bool.and_self, if_true]

theorem balanceQueue_rests (hrest : diff < bits x.par.sc1 15 0 ∨ min (diff.toNat / 2) (min 4096 (x.qcap - (vector b).1.getD q 0)) = 0) :
    s.balanceQueue asid x vector q = s := by
  simp only [State.balanceQueue, h, ge_iff_le, gt_iff_lt]
  refine if_neg fun hmoves => ?_
  obtain ⟨hthr, hpos⟩ := Bool.and_eq_true_iff.mp hmoves
  exact hrest.elim (not_lt.mpr (of_decide_eq_true hthr)) (of_decide_eq_true hpos).ne'

end

end

/-! ### The balancer's period -/

/-- The boundary at which the balancer's present period began. -/
def State.balancedAt (s : State) (x : Ctx) : Nat := periodAt x.lastBal (bits x.par.sc0 19 0 * 64) (s.pcc (x.dies.headD 0))

/-- The vector of a die that the balancer uses: one read in the present period, or the present one. -/
def State.vector (s : State) (x : Ctx) (d : Nat) : List Nat × Int :=
  ((x.loads.find? (fun p => p.1 == d && decide (s.balancedAt x ≤ p.2.1))).map (fun p => p.2.2)).getD (s.loadVector x d)

/-- The queues that a context has balanced. -/
def Ctx.balanced (x : Ctx) : List Nat := x.stages.filter (fun q => bit x.par.sc0 (24 + q))

/-- A context whose balancer has begun a period, no vector read. -/
def Ctx.beginBalancer (began : Nat) (x : Ctx) : Ctx := { x with lastBal := began, loads := [] }

/-- The queues' commands of a period. -/
def State.balanceQueues (s : State) (asid : Nat) (x : Ctx) : State :=
  x.balanced.foldl (State.balanceQueue asid x (s.vector x)) (s.modCtx asid (Ctx.beginBalancer (s.balancedAt x)))

theorem balanceQueues_none (h : x.balanced = []) :
    s.balanceQueues asid x = s.modCtx asid (Ctx.beginBalancer (s.balancedAt x)) := by
  rw [State.balanceQueues, h, List.foldl_nil]

theorem balanceQueues_one {q : Nat} (h : x.balanced = [q]) : s.balanceQueues asid x =
    (s.modCtx asid (Ctx.beginBalancer (s.balancedAt x))).balanceQueue asid x (s.vector x) q := by
  rw [State.balanceQueues, h, List.foldl_cons, List.foldl_nil]

theorem exec_balancerPeriod (hx : s.ctx? asid = some x) (hper : bits x.par.sc0 19 0 * 64 ≠ 0) (hrun : x.run = .running)
    (hhalt : x.halt = none) (hpreempt : x.preempt = none) (hover : x.lastBal + bits x.par.sc0 19 0 * 64 ≤ s.pcc (x.dies.headD 0)) :
    exec (.balancerPeriod asid) s =
      .next (if bit x.par.sc0 23 then (s.balanceQueues asid x).balancePool asid x (s.vector x) else s.balanceQueues asid x) := by
  show execBalancerPeriod asid s = _
  unfold execBalancerPeriod
  simp only [hx, hper, hrun, hhalt, hpreempt, Nat.not_lt.mpr hover, decide_false, bne_self_eq_false, Option.isSome_none,
    Bool.or_self, Bool.false_eq_true, if_false]
  rfl

/-! ### A list cut by the places of its members -/

section
variable {α : Type}

/-- The members of a list at the places that `p` picks. -/
def picked (p : Nat → Bool) (l : List α) : List α := (List.range l.length).filterMap (fun i => if p i then l[i]? else none)

/-- The members at the other places. -/
def unpicked (p : Nat → Bool) (l : List α) : List α := (List.range l.length).filterMap (fun i => if p i then none else l[i]?)

section
variable {p : Nat → Bool} {l : List α} {a : α}

theorem mem_picked : a ∈ picked p l ↔ ∃ i, p i = true ∧ l[i]? = some a := by
  simp only [picked, List.mem_filterMap, List.mem_range, Option.ite_none_right_eq_some]
  exact exists_congr fun i => and_iff_right_of_imp fun h => (List.getElem?_eq_some_iff.mp h.2).1

theorem mem_unpicked : a ∈ unpicked p l ↔ ∃ i, p i = false ∧ l[i]? = some a := by
  simp only [unpicked, List.mem_filterMap, List.mem_range, Option.ite_none_left_eq_some, Bool.not_eq_true]
  exact exists_congr fun i => and_iff_right_of_imp fun h => (List.getElem?_eq_some_iff.mp h.2).1

theorem picked_cons : picked p (a :: l) = if p 0 then a :: picked (fun i => p (i + 1)) l else picked (fun i => p (i + 1)) l := by
  unfold picked
  rw [List.length_cons, List.range_succ_eq_map, List.filterMap_cons, List.filterMap_map]
  cases p 0 <;> rfl

theorem unpicked_cons : unpicked p (a :: l) = if p 0 then unpicked (fun i => p (i + 1)) l else a :: unpicked (fun i => p (i + 1)) l := by
  unfold unpicked
  rw [List.length_cons, List.range_succ_eq_map, List.filterMap_cons, List.filterMap_map]
  cases p 0 <;> rfl

theorem unpicked_append_picked_perm (p : Nat → Bool) (l : List α) : (unpicked p l ++ picked p l).Perm l := by
  induction l generalizing p with
  | nil => exact .nil
  | cons a l ih =>
    rw [picked_cons, unpicked_cons]
    split
    · exact List.perm_middle.trans ((ih _).cons a)
    · exact (ih _).cons a

theorem length_picked (p : Nat → Bool) (l : List α) : (picked p l).length = {i ∈ Finset.range l.length | p i}.card := by
  have hcount : (picked p l).length = (List.range l.length).countP p := by
    rw [picked, List.length_filterMap_eq_countP]
    refine List.countP_congr fun i hi => ?_
    cases p i <;> simp [List.mem_range.mp hi]
  rw [hcount, List.countP_eq_length_filter]
  exact congrArg (fun f => (List.filter f (List.range l.length)).length) (funext fun i => Bool.decide_eq_true.symm)

end

end

/-! ### Places in an order, counted from its end -/

section
open Finset

variable {ι β : Type} [LinearOrder β] {S : Finset ι} {f : ι → β} {i j : ι}

/-- How many members of `S` come after `i` in the order of `f`. -/
def laterCount (S : Finset ι) (f : ι → β) (i : ι) : Nat := #{j ∈ S | f i < f j}

theorem laterCount_lt_card (hi : i ∈ S) : laterCount S f i < #S := card_lt_card (filter_ssubset.mpr ⟨i, hi, lt_irrefl _⟩)

theorem laterCount_lt_of_lt (hj : j ∈ S) (h : f i < f j) : laterCount S f j < laterCount S f i := by
  refine card_lt_card ⟨fun k hk => ?_, fun hsub => ?_⟩
  · obtain ⟨hk, hlt⟩ := mem_filter.mp hk
    exact mem_filter.mpr ⟨hk, h.trans hlt⟩
  · exact lt_irrefl _ (mem_filter.mp (hsub (mem_filter.mpr ⟨hj, h⟩))).2

theorem laterCount_injOn (hf : Set.InjOn f S) : Set.InjOn (laterCount S f) S := by
  intro i hi j hj heq
  rcases lt_trichotomy (f i) (f j) with h | h | h
  · exact absurd heq (laterCount_lt_of_lt hj h).ne'
  · exact hf hi hj h
  · exact absurd heq (laterCount_lt_of_lt hi h).ne

/-- The counts are the numbers below the size of `S`, each once. -/
theorem image_laterCount (hf : Set.InjOn f S) : S.image (laterCount S f) = range #S := by
  refine eq_of_subset_of_card_le (image_subset_iff.mpr fun i hi => mem_range.mpr (laterCount_lt_card hi)) ?_
  rw [card_image_of_injOn (laterCount_injOn hf), card_range]

theorem card_filter_laterCount_lt (hf : Set.InjOn f S) (n : Nat) : #{i ∈ S | laterCount S f i < n} = min n #S := by
  have hbelow : {k ∈ range #S | k < n} = range (min n #S) := by ext k; simp [and_comm]
  calc #{i ∈ S | laterCount S f i < n}
    _ = #({i ∈ S | laterCount S f i < n}.image (laterCount S f)) :=
      (card_image_of_injOn ((laterCount_injOn hf).mono (coe_subset.mpr (filter_subset _ _)))).symm
    _ = #{k ∈ range #S | k < n} := by rw [← image_laterCount hf, filter_image]
    _ = min n #S := by rw [hbelow, card_range]

end

/-! ### Entries that move (R304) -/

section
variable {es : List SqEntry} {a b n q : Nat}

/-- The place of entry `i` in the order of R293. -/
def entryPlace (es : List SqEntry) (i : Nat) : ℕ ×ₗ ℕ := toLex (((es[i]?).map (fun e => e.key.toNat)).getD 0, i)

theorem entryPlace_eq {e : SqEntry} {i : Nat} (h : es[i]? = some e) : entryPlace es i = toLex (e.key.toNat, i) := by
  rw [entryPlace, h]
  rfl

theorem entryPlace_injective (es : List SqEntry) : Function.Injective (entryPlace es) := fun _ _ h =>
  (Prod.mk.inj (toLex.injective h)).2

theorem afterCount_eq {i : Nat} (hi : i < es.length) : afterCount es i = laterCount (Finset.range es.length) (entryPlace es) i := by
  unfold afterCount
  rw [List.getElem?_eq_getElem hi]
  refine congrArg List.length (List.filter_congr fun j hj => ?_)
  have hj := List.mem_range.mp hj
  show _ = decide (entryPlace es i < entryPlace es j)
  rw [List.getElem?_eq_getElem hj, Bool.eq_iff_iff, decide_eq_true_iff, entryPlace_eq (List.getElem?_eq_getElem hi),
    entryPlace_eq (List.getElem?_eq_getElem hj), Prod.Lex.toLex_lt_toLex, BitVec.toNat_inj, eq_comm (a := es[i].key)]
  simp

/-- An entry with a greater key comes later. -/
theorem afterCount_lt_of_key_lt {e o : SqEntry} {i j : Nat} (hi : es[i]? = some e) (hj : es[j]? = some o)
    (h : o.key.toNat < e.key.toNat) : afterCount es i < afterCount es j := by
  have hilen := (List.getElem?_eq_some_iff.mp hi).1
  rw [afterCount_eq hilen, afterCount_eq (List.getElem?_eq_some_iff.mp hj).1]
  refine laterCount_lt_of_lt (Finset.mem_range.mpr hilen) ?_
  rw [entryPlace_eq hi, entryPlace_eq hj, Prod.Lex.toLex_lt_toLex]
  exact .inl h

/-- Whether entry `i` is one of the `n` last. -/
def amongLast (es : List SqEntry) (n i : Nat) : Bool := decide (afterCount es i < n)

theorem length_picked_amongLast (es : List SqEntry) (n : Nat) : (picked (amongLast es n) es).length = min n es.length := by
  have hsame : {i ∈ Finset.range es.length | amongLast es n i} =
      {i ∈ Finset.range es.length | laterCount (Finset.range es.length) (entryPlace es) i < n} :=
    Finset.filter_congr fun i hi => by rw [amongLast, decide_eq_true_iff, afterCount_eq (Finset.mem_range.mp hi)]
  rw [length_picked, hsame, card_filter_laterCount_lt (entryPlace_injective es).injOn, Finset.card_range]

theorem key_le_of_amongLast {e o : SqEntry} (he : e ∈ unpicked (amongLast es n) es) (ho : o ∈ picked (amongLast es n) es) :
    e.key.toNat ≤ o.key.toNat := by
  obtain ⟨i, hstays, hi⟩ := mem_unpicked.mp he
  obtain ⟨j, hmoves, hj⟩ := mem_picked.mp ho
  by_contra hgt
  have hlater := afterCount_lt_of_key_lt hi hj (not_le.mp hgt)
  exact of_decide_eq_false hstays (hlater.trans (of_decide_eq_true hmoves))

/-- A context with the entries of queue `q` on die `a` replaced. -/
def Ctx.withQueue (a q : Nat) (kept : List SqEntry) (x : Ctx) : Ctx :=
  { x with squeues := x.squeues.filter (fun e => !(e.1 == a && e.2.1 == q)) ++ kept.map (fun e => (a, q, e)) }

theorem Ctx.sq_withQueue (x : Ctx) (a q : Nat) (kept : List SqEntry) : (x.withQueue a q kept).sq a q = kept := by
  have hnone : (x.squeues.filter (fun e => !(e.1 == a && e.2.1 == q))).filterMap
      (fun e => if e.1 = a && e.2.1 = q then some e.2.2 else none) = [] :=
    List.filterMap_eq_nil_iff.mpr fun e he => by simpa [imp_iff_not_or] using (List.mem_filter.mp he).2
  rw [Ctx.withQueue, Ctx.sq, List.filterMap_append, hnone, List.nil_append, List.filterMap_map]
  simp

theorem Ctx.sq_withQueue_ne (x : Ctx) (kept : List SqEntry) {d k : Nat} (h : (d, k) ≠ (a, q)) :
    (x.withQueue a q kept).sq d k = x.sq d k := by
  have hnone : (kept.map (fun e => (a, q, e))).filterMap (fun e => if e.1 = d && e.2.1 = k then some e.2.2 else none) = [] := by
    refine List.filterMap_eq_nil_iff.mpr fun e he => ?_
    obtain ⟨-, -, rfl⟩ := List.mem_map.mp he
    refine if_neg fun hof => ?_
    obtain ⟨rfl, rfl⟩ : a = d ∧ q = k := by simpa using hof
    exact h rfl
  rw [Ctx.withQueue, Ctx.sq, List.filterMap_append, hnone, List.append_nil, List.filterMap_filter]
  refine List.filterMap_congr fun e _ => ?_
  split
  · rfl
  · next hof =>
    obtain ⟨ha, hq⟩ : e.1 = a ∧ e.2.1 = q := by simpa using hof
    refine (if_neg fun hdk => ?_).symm
    obtain ⟨hd, hk⟩ : e.1 = d ∧ e.2.1 = k := by simpa using hdk
    exact h (Prod.ext (hd.symm.trans ha) (hk.symm.trans hq))

theorem moveEntries_eq (s : State) (asid q a b n : Nat) : s.moveEntries asid q a b n =
    { s.modCtx asid (Ctx.withQueue a q (unpicked (amongLast ((s.ctx asid).sq a q) n) ((s.ctx asid).sq a q))) with
      transit := s.transit ++ [.entries asid q b (picked (amongLast ((s.ctx asid).sq a q) n) ((s.ctx asid).sq a q))] } := by
  unfold State.moveEntries picked unpicked amongLast
  simp only [decide_eq_true_iff]
  rfl

theorem sq_moveEntries (h : (s.ctx? asid).isSome = true) (d k : Nat) : ((s.moveEntries asid q a b n).ctx asid).sq d k =
    ((s.ctx asid).withQueue a q (unpicked (amongLast ((s.ctx asid).sq a q) n) ((s.ctx asid).sq a q))).sq d k := by
  rw [moveEntries_eq]
  exact (congrArg (fun y => Ctx.sq y d k) (State.ctx_modCtx_self (Ctx.withQueue a q _) h)).trans rfl

end

/-! ### Records that move (R304) -/

section
variable {pool : List PoolRec} {a b n : Nat}

/-- Whether the balancer may move a record of a context. -/
def PoolRec.movable (asid : Nat) (p : PoolRec) : Bool := p.asid == asid && decide (p.rec_.aff ≥ 2)

/-- Whether record `i` is one of the `n` of `can` that entered latest. -/
def enteredLast (can : PoolRec → Bool) (n : Nat) (pool : List PoolRec) (i : Nat) : Bool :=
  match pool[i]? with
  | some p => can p && decide (((pool.drop (i + 1)).filter can).length < n)
  | none => false

theorem length_picked_enteredLast (can : PoolRec → Bool) (n : Nat) (pool : List PoolRec) :
    (picked (enteredLast can n pool) pool).length = min n (pool.countP can) := by
  induction pool with
  | nil => simp [picked]
  | cons p pool ih =>
    have hhead : enteredLast can n (p :: pool) 0 = (can p && decide (pool.countP can < n)) := by
      rw [List.countP_eq_length_filter]
      rfl
    have htail : (fun i => enteredLast can n (p :: pool) (i + 1)) = enteredLast can n pool := rfl
    rw [picked_cons, hhead, htail, List.countP_cons]
    cases hcan : can p with
    | false => simpa [hcan] using ih
    | true =>
      by_cases hlt : pool.countP can < n
      · simp only [hlt, ih, decide_true, Bool.and_self, if_true, List.length_cons]
        omega
      · simp only [hlt, ih, decide_false, Bool.and_false, Bool.false_eq_true, if_false, if_true]
        omega

theorem movable_of_enteredLast {can : PoolRec → Bool} {p : PoolRec} (h : p ∈ picked (enteredLast can n pool) pool) : can p = true := by
  obtain ⟨i, hlast, hi⟩ := mem_picked.mp h
  rw [enteredLast, hi] at hlast
  exact (Bool.and_eq_true_iff.mp hlast).1

theorem moveRecs_eq (s : State) (asid a b n : Nat) : s.moveRecs asid a b n =
    { s.modDie a (fun d => { d with pool := unpicked (enteredLast (PoolRec.movable asid) n (s.die a).pool) (s.die a).pool }) with
      transit := s.transit ++ [.recs asid b ((picked (enteredLast (PoolRec.movable asid) n (s.die a).pool) (s.die a).pool).map
        (fun p => { p with home := b }))] } := rfl

theorem pool_moveRecs (h : a < s.dies.length) : ((s.moveRecs asid a b n).die a).pool =
    unpicked (enteredLast (PoolRec.movable asid) n (s.die a).pool) (s.die a).pool := by
  rw [moveRecs_eq]
  exact congrArg Die.pool (State.die_modDie_self s h _)

end

/-! ### The slice and the pre-emption (R371, R432) -/

/-- What a context that is over its slice may be set aside for. -/
def State.favours (s : State) (x : Ctx) : List (Option Nat) :=
  (s.ctxs.map (fun (y : Ctx) => some y.asid) ++ [none]).filter (fun f => s.mayFavour x f)

theorem mem_favours {f : Option Nat} :
    f ∈ s.favours x ↔ (f = none ∨ ∃ y ∈ s.ctxs, f = some y.asid) ∧ s.mayFavour x f = true := by
  simp only [State.favours, List.mem_filter, List.mem_append, List.mem_map, List.mem_singleton, eq_comm, or_comm]

/-- The favour that the dispatcher takes. -/
def State.favoured (s : State) (x : Ctx) : Option Nat := (s.favours x).getD (Config.freeIndex s.fresh % (s.favours x).length) none

theorem favoured_mem (h : s.favours x ≠ []) : s.favoured x ∈ s.favours x := by
  have hlt := Nat.mod_lt (Config.freeIndex s.fresh) (List.length_pos_iff.mpr h)
  rw [State.favoured, List.getD_eq_getElem _ _ hlt]
  exact List.getElem_mem hlt

theorem exec_sliceExpiry (hx : s.ctx? asid = some x) (hslice : s.slice ≠ 0) (hrun : x.run = .running) (hhalt : x.halt = none)
    (hpreempt : x.preempt = none) (hover : x.since + s.slice.toNat * 1000 ≤ s.pcc (x.dieOf 0)) (hsome : s.favours x ≠ []) :
    exec (.sliceExpiry asid) s = .next (s.bump.modCtx asid (fun y => { y with preempt := some (s.favoured x) })) := by
  unfold State.favoured State.favours at *
  show execSliceExpiry asid s = _
  unfold execSliceExpiry
  simp only [hx, hslice, hrun, hhalt, hpreempt, Nat.not_lt.mpr hover, List.isEmpty_eq_false_iff.mpr hsome, decide_false, bne_self_eq_false,
    Option.isSome_none, Bool.or_self, Bool.false_eq_true, if_false]

/-- Where no shadow table holds an entry, nothing merges. -/
theorem mergeCtx_noShadow (h : ∀ d, (s.die d).shadow = []) (ids : List CoreId) : s.mergeCtx ids = .done s := by
  have hone (id : CoreId) : s.mergeOf id = .done s := by
    rw [State.mergeOf, h, List.filter_nil, State.mergeAll]
  unfold State.mergeCtx
  induction ids with
  | nil => rfl
  | cons id ids ih => rw [tryEach, hone]; exact ih

section
variable {f : Option Nat} (hx : s.ctx? asid = some x) (hrun : x.run = .running) (hpreempt : x.preempt = some f) (hhalt : x.halt = none)
  (hboundary : s.atBoundary x = true) (hfavour : s.mayFavour x f = true) (hroom : s.shadowRoom asid x.par.fp x.benches = true)
include hx hrun hpreempt hhalt hboundary hfavour hroom

theorem exec_preemption_drains (hwaits : x.ids.any s.storeWaits = true) :
    exec (.preemption asid f) s = .next (x.ids.foldl State.flush s) := by
  show execPreemption asid f s = _
  unfold execPreemption
  simp only [hx, hrun, hpreempt, hhalt, hboundary, hfavour, hroom, hwaits, bne_self_eq_false, Option.isSome_none, Bool.not_true,
    Bool.or_self, Bool.false_eq_true, if_false, if_true]

/-- The context leaves its benches, and the one it is set aside for runs on them. -/
theorem exec_preemption (hwaits : x.ids.any s.storeWaits = false) (hmerge : (x.ids.foldl State.flush s).mergeCtx x.ids = .done t) :
    exec (.preemption asid f) s = .next (f.elim (t.leave asid) (t.leave asid).enter) := by
  show execPreemption asid f s = _
  unfold execPreemption
  simp only [hx, hrun, hpreempt, hhalt, hboundary, hfavour, hroom, hwaits, hmerge, bne_self_eq_false, Option.isSome_none, Bool.not_true,
    Bool.or_self, Bool.false_eq_true, if_false]
  cases f <;> rfl

end

/-- Settles O41: each period once it is over by what its agent decides; what moves by its place in the order of the queue, or of the
pool. -/
theorem periodSteps : Obligations.PeriodSteps := by
  refine ⟨fun s asid d x hx => ?governor, fun s asid x hx => ?balancer, fun s asid q a b n hctx => ?entries,
    fun s asid a b n hdie => ?records, fun s asid x hx hslice hrun hhalt hpreempt hover => ?slice,
    fun s t asid f x hx hrun hpreempt hhalt hboundary hfavour hroom => ?preemption⟩
  case governor =>
    intro per last s1 hper hrun hhalt hpreempt hdie hover
    have hexec := exec_governorPeriod hx hper hrun hhalt hpreempt hdie hover
    exact ⟨fun id q hmove => hexec.trans (by rw [hmove]; rfl), fun hnone => hexec.trans (by rw [hnone]; rfl)⟩
  case balancer =>
    intro per now began vector s1 thr balanced hper hrun hhalt hpreempt hover
    have hexec := exec_balancerPeriod hx hper hrun hhalt hpreempt hover
    refine ⟨fun hnone hpool => hexec.trans ?_, fun hnone hpool a b diff hload hthr hn => hexec.trans ?_,
      fun q hone hpool a b diff hload => ⟨fun hthr hn => hexec.trans ?_, fun hrest => hexec.trans ?_⟩⟩
    · rw [hpool, balanceQueues_none hnone]
      rfl
    · rw [hpool, balanceQueues_none hnone]
      exact congrArg Host.Outcome.next (balancePool_moves hload hthr hn)
    · rw [hpool, balanceQueues_one hone]
      exact congrArg Host.Outcome.next (balanceQueue_moves hload hthr hn)
    · rw [hpool, balanceQueues_one hone]
      exact congrArg Host.Outcome.next (balanceQueue_rests hload hrest)
  case entries =>
    intro es u left
    have hleft : left = unpicked (amongLast es n) es := (sq_moveEntries hctx a q).trans (Ctx.sq_withQueue ..)
    refine ⟨picked (amongLast es n) es, congrArg State.transit (moveEntries_eq ..), length_picked_amongLast es n, ?_, fun e he o ho => ?_,
      fun d k hne => (sq_moveEntries hctx d k).trans (Ctx.sq_withQueue_ne _ _ hne)⟩
    · exact hleft ▸ unpicked_append_picked_perm _ _
    · exact key_le_of_amongLast (hleft ▸ he) ho
  case records =>
    intro u may
    refine ⟨picked (enteredLast (PoolRec.movable asid) n (s.die a).pool) (s.die a).pool, congrArg State.transit (moveRecs_eq ..),
      length_picked_enteredLast _ n _, fun p hp => movable_of_enteredLast hp, ?_⟩
    exact (pool_moveRecs hdie) ▸ unpicked_append_picked_perm _ _
  case slice =>
    rintro ⟨f, hmay, hf⟩
    have hmem := favoured_mem (List.ne_nil_of_mem (mem_favours.mpr ⟨hf, hmay⟩))
    exact ⟨s.favoured x, (mem_favours.mp hmem).2, exec_sliceExpiry hx hslice hrun hhalt hpreempt hover (List.ne_nil_of_mem hmem)⟩
  case preemption =>
    intro s1
    refine ⟨exec_preemption_drains hx hrun hpreempt hhalt hboundary hfavour hroom, fun hwaits hmerge => ?_⟩
    have hdone : s1.mergeCtx x.ids = .done t := by
      rcases hmerge with hdone | ⟨rfl, hempty⟩
      · exact hdone
      · exact mergeCtx_noShadow hempty x.ids
    have hexec := exec_preemption hx hrun hpreempt hhalt hboundary hfavour hroom hwaits hdone
    exact ⟨fun hf => hexec.trans (by rw [hf]; rfl), fun a hf => hexec.trans (by rw [hf]; rfl)⟩

end Sys2Proof.Machine
end
